-- ==== Sys2Proof/Word.lean ====
section
/-!
DEFINITION. The words of the machine (02_assembly.md and 05_thread.md): a register is 32 bits, a pair 64 bits, a memory
cell one byte; and the one finite table used for everything that is sparse (registers of a thread, memory, flights).
-/

namespace Sys2Proof

/-- A vector register, an instruction word, a hall address. -/
abbrev Word := BitVec 32

/-- A register pair, a program counter, a virtual address. -/
abbrev DWord := BitVec 64

/-- One byte of memory. -/
abbrev Byte := BitVec 8

/-- A finite table: key and value pairs, keys strictly rising. -/
abbrev Tab (α : Type) := List (Nat × α)

end Sys2Proof
end

