-- ==== Sys2Proof/Payload.lean ====
section
/-!
DEFINITION. What the events of the opcode table carry from outside the machine: the operands of management commands
(22_host.md R430), fabric packets and wire records (23_fabric.md), the requests of a halt-debug holder.
-/

namespace Sys2Proof

/-- The operands of PARTITION_CREATE (R404, R430). -/
structure PartitionSpec where
  cores    : List Nat
  keys     : List Nat
  pages    : List (Nat × Nat)
  root     : Nat
  tabKey   : Nat
  saveBase : Nat
  saveLen  : Nat
  debugKey : Nat
  deriving DecidableEq, Repr

/-- The fields of R444. -/
structure RingSpec where
  ring      : Nat
  part      : Nat
  hall      : Bool
  base      : Nat
  slots     : Nat
  overwrite : Bool
  deriving DecidableEq, Repr

/-- A write of STREAM_TABLE (R442): a stream table entry or a port key table entry. -/
inductive StreamWrite where
  | stream (port entry source stream key : Nat)
  | key (port entry : Nat) (valid : Bool) (key ring kid customer : Nat)
  deriving DecidableEq, Repr

/-- The fields of R456. -/
structure ChannelSpec where
  chan     : Nat
  part     : Nat
  port     : Nat
  peer     : Nat
  peerChan : Nat
  key      : Nat
  hall     : Bool
  base     : Nat
  kid      : Nat
  len      : Nat
  deriving DecidableEq, Repr

/-- R441: a wire record as it lies in its message, cut off where the message ends, and the fabric address it comes from. -/
structure WireRecord where
  source : Nat
  bytes  : List Byte
  deriving DecidableEq, Repr

/-- R439: a packet of a stream message: delivery mode, operation, the sizes of its frame and of its message, whether it uses an option
outside the table, the source's fabric address, which of the source's messages it belongs to, and the bytes it carries with their
offset in the message. -/
structure Packet where
  rud      : Bool
  uud      : Bool
  write    : Bool
  frame    : Nat
  message  : Nat
  foreign  : Bool
  source   : Nat
  id       : Nat
  offset   : Nat
  body     : List Byte
  deriving DecidableEq, Repr

/-- R458: a collective message as it arrives: which of its peer's messages it is, channel, window offset, whether it passes
authentication, the op of a reduction, its bytes. -/
structure CollMessage where
  id        : Nat
  chan      : Nat
  offset    : Nat
  red       : Option Nat
  authentic : Bool
  bytes     : List Byte
  deriving DecidableEq, Repr

/-- The answer of a channel's peer: applied with flags, or refused with an error code (R458, R459). -/
inductive CollAnswer where
  | applied (flags : BitVec 5)
  | refused (code : Nat)
  deriving DecidableEq, Repr

/-- A register that a halt-debug holder names (R433): of a thread a vector register, the predicates p1 to p7 as bits 1 to 7, an index
register, the pc, a control register (R176), a special register by its id (R95); of its flight a queue register and a rejoin mask; of its
landing a convergence register, the value or the sequence number of a reduction register (R204). -/
inductive DebugReg where
  | v (r : Nat)
  | preds
  | x (k : Nat)
  | pc
  | control (r : Nat)
  | special (r : Nat)
  | q (k : Nat)
  | j (k : Nat)
  | c (k : Nat)
  | h (k : Nat) (seq : Bool)
  deriving DecidableEq, Repr

/-- A request of a halt-debug holder (R433). -/
inductive DebugOp where
  | stop
  | resume
  | readReg (thread : Nat) (reg : DebugReg)
  | writeReg (thread : Nat) (reg : DebugReg) (value : DWord)
  | readHall (addr n : Nat)
  | writeHall (addr : Nat) (bytes : List Byte)
  | readWindow (hpa n : Nat)
  deriving DecidableEq, Repr

end Sys2Proof
end

