-- ==== Sys2Proof/Syntax.lean ====
section
/-!
DEFINITION. The instructions: one constructor for each row of the opcode table. The encoded instructions carry the
fields of their words (03_encoding.md R40, R50, R51), named as the table names them; the events carry the agent that
moves and whatever reaches the machine from outside (Payload.lean). The events stand first: Lean's code generator builds
only the first 245 constructors that carry fields, so the decoders of the families after them carry `noncomputable`
(Decode.lean); the kernel evaluates them like the rest.
-/

namespace Sys2Proof

/-- The instructions and events of the opcode table. -/
inductive Instr where
  | fairnessTimer (fk : Nat)
  | deferredSwitch (fk : Nat)
  | flightSwap (core bay : Nat)
  | activeSetFill (core bay : Nat)
  | aging (core bay : Nat)
  | loadReturn (id : Nat)
  | bind (id : Nat)
  | drain (id : Nat)
  | apply (id : Nat)
  | send (i : Nat)
  | mirror (i : Nat)
  | mmaComplete (core : Nat)
  | accComplete (core : Nat)
  | claCommandStart (core : Nat)
  | claEvalComplete (core : Nat)
  | claSweepEnd (core : Nat)
  | claImageComplete (core : Nat)
  | copyComplete (core i : Nat)
  | hpostComplete (i : Nat)
  | creditGrant (base : Nat)
  | galleryFill (tile key prio verdict : Nat)
  | treadRetire (tid : Nat)
  | retirementReport (i : Nat)
  | raiseApply (i : Nat)
  | b0Update (die run nest : Nat)
  | remoteLookup (die run nest : Nat) (point : List Int)
  | lookupAnswer (i : Nat)
  | watermarkUpdate (die run nest : Nat)
  | rowOpen (die : Nat)
  | treadRelease (die : Nat)
  | dispatch (die : Nat)
  | stealRequest (die : Nat)
  | stealBackoff (die : Nat)
  | admission (die : Nat)
  | phaseSpill (tid : Nat)
  | graceExpiry (tid : Nat)
  | forcedSave (tid : Nat)
  | qtail (q value : Nat)
  | queueEnable (q : Nat)
  | queueDisable (q : Nat)
  | registerWrite (q offset value : Nat)
  | launch (q : Nat)
  | cancel (q : Nat)
  | loadChunk (offset : Nat) (bytes : List Byte)
  | verify
  | discard
  | romState
  | attest (part : Nat) (nonce : List Byte)
  | lifecycle (target : Nat) (signed : List Byte)
  | debugToken (part expiry : Nat) (signed : List Byte)
  | partitionCreate (spec : PartitionSpec)
  | partitionReset (part : Nat)
  | keyAssign (key part : Nat)
  | keyRotate (key : Nat)
  | windowBind (window hpa size pa key : Nat)
  | queueBind (q part : Nat) (keys : List Nat) (die : Nat)
  | saveRegion (part base size : Nat)
  | ringConfig (spec : RingSpec)
  | streamTable (entry : StreamWrite)
  | channelConfig (spec : ChannelSpec)
  | preempt (part inst mask kind phase grace : Nat)
  | preemptWithdraw (request : Nat)
  | fairness (part period : Nat)
  | powerLimit (watts : Nat)
  | powerState (target : Nat)
  | telemetry (selector : Nat)
  | errorLog (start : Nat)
  | coldBoot
  | warmReset
  | recalibration
  | powerSample (watts degrees : Nat)
  | debugTokenExpiry (part : Nat)
  | rowThrottle (row key : Nat)
  | throttleRelease (row key : Nat)
  | rotationSweep (key tile : Nat)
  | backgroundClear (key tile : Nat)
  | scrub (key : Nat)
  | linkDown
  | hostMemAccess (hpa n : Nat) (write : Bool) (bytes : List Byte)
  | packetReceive (port : Nat) (packet : Packet)
  | wireRecord (port : Nat)
  | collMessage (die : Nat) (message : CollMessage)
  | collAck (core i : Nat) (answer : CollAnswer)
  | collRetryExhausted (core i : Nat)
  | portLinkDown (port : Nat)
  | illegalInstruction
  | fetchFailure (poisoned : Bool)
  | stealAnswer (die : Nat)
  | linkUp
  | portLinkUp (port : Nat)
  | dieLinkLoss (a b : Nat)
  | clusterMeshLoss (cluster : Nat)
  | commandWord (recovery : Bool) (word : Nat)
  | haltDebug (part : Nat) (op : DebugOp)
  | pageMigration (part va tile : Nat)
  | add (d a b : BitVec 6) (t : BitVec 1) (g : BitVec 3)
  | sub (d a b : BitVec 6) (t : BitVec 1) (g : BitVec 3)
  | and (d a b : BitVec 6) (t : BitVec 1) (g : BitVec 3)
  | or (d a b : BitVec 6) (t : BitVec 1) (g : BitVec 3)
  | xor (d a b : BitVec 6) (t : BitVec 1) (g : BitVec 3)
  | andn (d a b : BitVec 6) (t : BitVec 1) (g : BitVec 3)
  | shl (d a b : BitVec 6) (t : BitVec 1) (g : BitVec 3)
  | shr (d a b : BitVec 6) (t : BitVec 1) (g : BitVec 3)
  | sar (d a b : BitVec 6) (t : BitVec 1) (g : BitVec 3)
  | rot (d a b : BitVec 6) (t : BitVec 1) (g : BitVec 3)
  | minS (d a b : BitVec 6) (t : BitVec 1) (g : BitVec 3)
  | maxS (d a b : BitVec 6) (t : BitVec 1) (g : BitVec 3)
  | minN (d a b : BitVec 6) (t : BitVec 1) (g : BitVec 3)
  | maxN (d a b : BitVec 6) (t : BitVec 1) (g : BitVec 3)
  | mul (d a b : BitVec 6) (t : BitVec 1) (g : BitVec 3)
  | mulhiS (d a b : BitVec 6) (t : BitVec 1) (g : BitVec 3)
  | mulhiN (d a b : BitVec 6) (t : BitVec 1) (g : BitVec 3)
  | clz (d a : BitVec 6) (t : BitVec 1) (g : BitVec 3)
  | popc (d a : BitVec 6) (t : BitVec 1) (g : BitVec 3)
  | brev (d a : BitVec 6) (t : BitVec 1) (g : BitVec 3)
  | abs (d a : BitVec 6) (t : BitVec 1) (g : BitVec 3)
  | neg (d a : BitVec 6) (t : BitVec 1) (g : BitVec 3)
  | extS8 (d a : BitVec 6) (t : BitVec 1) (g : BitVec 3)
  | extS16 (d a : BitVec 6) (t : BitVec 1) (g : BitVec 3)
  | extN8 (d a : BitVec 6) (t : BitVec 1) (g : BitVec 3)
  | extN16 (d a : BitVec 6) (t : BitVec 1) (g : BitVec 3)
  | addSatS (d a b : BitVec 6) (t : BitVec 1) (g : BitVec 3)
  | addSatN (d a b : BitVec 6) (t : BitVec 1) (g : BitVec 3)
  | subSatS (d a b : BitVec 6) (t : BitVec 1) (g : BitVec 3)
  | absdiff (d a b : BitVec 6) (t : BitVec 1) (g : BitVec 3)
  | bfx (d a b : BitVec 6) (t : BitVec 1) (g : BitVec 3)
  | bfi (d a b : BitVec 6) (t : BitVec 1) (g : BitVec 3)
  | addi (d a : BitVec 6) (i : BitVec 11) (g : BitVec 3)
  | andi (d a : BitVec 6) (i : BitVec 11) (g : BitVec 3)
  | ori (d a : BitVec 6) (i : BitVec 11) (g : BitVec 3)
  | xori (d a : BitVec 6) (i : BitVec 11) (g : BitVec 3)
  | shi (d a : BitVec 6) (o : BitVec 2) (n : BitVec 5) (g : BitVec 3)
  | movi (d : BitVec 6) (i : BitVec 17) (g : BitVec 3)
  | eq (p : BitVec 3) (a b : BitVec 6) (g : BitVec 3)
  | ne (p : BitVec 3) (a b : BitVec 6) (g : BitVec 3)
  | ltS (p : BitVec 3) (a b : BitVec 6) (g : BitVec 3)
  | leS (p : BitVec 3) (a b : BitVec 6) (g : BitVec 3)
  | ltN (p : BitVec 3) (a b : BitVec 6) (g : BitVec 3)
  | leN (p : BitVec 3) (a b : BitVec 6) (g : BitVec 3)
  | gtS (p : BitVec 3) (a b : BitVec 6) (g : BitVec 3)
  | geS (p : BitVec 3) (a b : BitVec 6) (g : BitVec 3)
  | gtN (p : BitVec 3) (a b : BitVec 6) (g : BitVec 3)
  | geN (p : BitVec 3) (a b : BitVec 6) (g : BitVec 3)
  | eqImm (p : BitVec 3) (a : BitVec 6) (i : BitVec 11) (g : BitVec 3)
  | neImm (p : BitVec 3) (a : BitVec 6) (i : BitVec 11) (g : BitVec 3)
  | ltSImm (p : BitVec 3) (a : BitVec 6) (i : BitVec 11) (g : BitVec 3)
  | leSImm (p : BitVec 3) (a : BitVec 6) (i : BitVec 11) (g : BitVec 3)
  | gtSImm (p : BitVec 3) (a : BitVec 6) (i : BitVec 11) (g : BitVec 3)
  | geSImm (p : BitVec 3) (a : BitVec 6) (i : BitVec 11) (g : BitVec 3)
  | ltNImm (p : BitVec 3) (a : BitVec 6) (i : BitVec 11) (g : BitVec 3)
  | geNImm (p : BitVec 3) (a : BitVec 6) (i : BitVec 11) (g : BitVec 3)
  | pand (d a b g : BitVec 3)
  | por (d a b g : BitVec 3)
  | pxor (d a b g : BitVec 3)
  | pnot (d a g : BitVec 3)
  | psetNz (d : BitVec 3) (a : BitVec 6) (g : BitVec 3)
  | pget (d : BitVec 6) (g : BitVec 3)
  | fadd (d a b : BitVec 6) (t : BitVec 1) (g : BitVec 3)
  | fsub (d a b : BitVec 6) (t : BitVec 1) (g : BitVec 3)
  | fmul (d a b : BitVec 6) (t : BitVec 1) (g : BitVec 3)
  | fma (d a b : BitVec 6) (t : BitVec 1) (g : BitVec 3)
  | fms (d a b : BitVec 6) (t : BitVec 1) (g : BitVec 3)
  | fnma (d a b : BitVec 6) (t : BitVec 1) (g : BitVec 3)
  | fmin (d a b : BitVec 6) (t : BitVec 1) (g : BitVec 3)
  | fmax (d a b : BitVec 6) (t : BitVec 1) (g : BitVec 3)
  | fminn (d a b : BitVec 6) (t : BitVec 1) (g : BitVec 3)
  | fmaxn (d a b : BitVec 6) (t : BitVec 1) (g : BitVec 3)
  | fabs (d a : BitVec 6) (t : BitVec 1) (g : BitVec 3)
  | fneg (d a : BitVec 6) (t : BitVec 1) (g : BitVec 3)
  | fcopysign (d a b : BitVec 6) (t : BitVec 1) (g : BitVec 3)
  | fsat (d a : BitVec 6) (t : BitVec 1) (g : BitVec 3)
  | frint (d a : BitVec 6) (t : BitVec 1) (g : BitVec 3)
  | ftrunc (d a : BitVec 6) (t : BitVec 1) (g : BitVec 3)
  | hadd (d a b : BitVec 6) (y : BitVec 1) (g : BitVec 3)
  | hsub (d a b : BitVec 6) (y : BitVec 1) (g : BitVec 3)
  | hmul (d a b : BitVec 6) (y : BitVec 1) (g : BitVec 3)
  | hfma (d a b : BitVec 6) (y : BitVec 1) (g : BitVec 3)
  | hmin (d a b : BitVec 6) (y : BitVec 1) (g : BitVec 3)
  | hmax (d a b : BitVec 6) (y : BitVec 1) (g : BitVec 3)
  | habs (d a : BitVec 6) (y : BitVec 1) (g : BitVec 3)
  | hneg (d a : BitVec 6) (y : BitVec 1) (g : BitVec 3)
  | rcp (d a : BitVec 6) (t : BitVec 1) (g : BitVec 3)
  | rsqrt (d a : BitVec 6) (t : BitVec 1) (g : BitVec 3)
  | sqrt (d a : BitVec 6) (t : BitVec 1) (g : BitVec 3)
  | exp2 (d a : BitVec 6) (t : BitVec 1) (g : BitVec 3)
  | log2 (d a : BitVec 6) (t : BitVec 1) (g : BitVec 3)
  | sinpi (d a : BitVec 6) (t : BitVec 1) (g : BitVec 3)
  | cospi (d a : BitVec 6) (t : BitVec 1) (g : BitVec 3)
  | tanh (d a : BitVec 6) (t : BitVec 1) (g : BitVec 3)
  | fdiv (d a b : BitVec 6) (t : BitVec 1) (g : BitVec 3)
  | cvtF32S32 (d a : BitVec 6) (g : BitVec 3)
  | cvtF32N32 (d a : BitVec 6) (g : BitVec 3)
  | cvtS32F32 (d a : BitVec 6) (g : BitVec 3)
  | cvtN32F32 (d a : BitVec 6) (g : BitVec 3)
  | cvtF32F16 (d a : BitVec 6) (k : BitVec 1) (g : BitVec 3)
  | cvtF32Bf16 (d a : BitVec 6) (k : BitVec 1) (g : BitVec 3)
  | cvtF16F32 (d a : BitVec 6) (k : BitVec 1) (g : BitVec 3)
  | cvtBf16F32 (d a : BitVec 6) (k : BitVec 1) (g : BitVec 3)
  | cvtF32E4m3 (d a : BitVec 6) (k : BitVec 2) (g : BitVec 3)
  | cvtF32E5m2 (d a : BitVec 6) (k : BitVec 2) (g : BitVec 3)
  | cvtE4m3F32 (d a : BitVec 6) (k : BitVec 2) (g : BitVec 3)
  | cvtE5m2F32 (d a : BitVec 6) (k : BitVec 2) (g : BitVec 3)
  | cvtF32E2m1 (d a : BitVec 6) (k g : BitVec 3)
  | cvtE2m1F32 (d a : BitVec 6) (k g : BitVec 3)
  | cvtS8F32 (d a : BitVec 6) (k : BitVec 2) (g : BitVec 3)
  | cvtS4F32 (d a : BitVec 6) (k g : BitVec 3)
  | feq (p : BitVec 3) (a b : BitVec 6) (g : BitVec 3)
  | fne (p : BitVec 3) (a b : BitVec 6) (g : BitVec 3)
  | flt (p : BitVec 3) (a b : BitVec 6) (g : BitVec 3)
  | fle (p : BitVec 3) (a b : BitVec 6) (g : BitVec 3)
  | fgt (p : BitVec 3) (a b : BitVec 6) (g : BitVec 3)
  | fge (p : BitVec 3) (a b : BitVec 6) (g : BitVec 3)
  | funord (p : BitVec 3) (a b : BitVec 6) (g : BitVec 3)
  | ford (p : BitVec 3) (a b : BitVec 6) (g : BitVec 3)
  | fclass (d a : BitVec 6) (g : BitVec 3)
  | dotS8x4 (d a b : BitVec 6) (g : BitVec 3)
  | dotN8x4 (d a b : BitVec 6) (g : BitVec 3)
  | dotS4x8 (d a b : BitVec 6) (g : BitVec 3)
  | dotN4x8 (d a b : BitVec 6) (g : BitVec 3)
  | dotE4m3x4 (d a b : BitVec 6) (g : BitVec 3)
  | dotE5m2x4 (d a b : BitVec 6) (g : BitVec 3)
  | dotE2m1x8 (d a b : BitVec 6) (g : BitVec 3)
  | scl (d a b : BitVec 6) (k : BitVec 2) (g : BitVec 3)
  | scladd (d a b : BitVec 6) (k : BitVec 2) (g : BitVec 3)
  | ftwosum (d a b : BitVec 6) (g : BitVec 3)
  | ftwoprod (d a b : BitVec 6) (g : BitVec 3)
  | faddPair (d a : BitVec 6) (g : BitVec 3)
  | shflIdx (d a b : BitVec 6) (g : BitVec 3)
  | shflUp (d a b : BitVec 6) (g : BitVec 3)
  | shflDn (d a b : BitVec 6) (g : BitVec 3)
  | shflXor (d a b : BitVec 6) (g : BitVec 3)
  | bcast (d a : BitVec 6) (g : BitVec 3)
  | voteAny (d a g : BitVec 3)
  | voteAll (d a g : BitVec 3)
  | voteBallot (d : BitVec 6) (a g : BitVec 3)
  | matchLanes (d a : BitVec 6) (g : BitVec 3)
  | redAddS32 (d a : BitVec 6) (g : BitVec 3)
  | redAddF32 (d a : BitVec 6) (g : BitVec 3)
  | redMin (d a : BitVec 6) (g : BitVec 3)
  | redMax (d a : BitVec 6) (g : BitVec 3)
  | prefixSum (d a : BitVec 6) (g : BitVec 3)
  | xset (k : BitVec 2) (a : BitVec 6) (g : BitVec 3)
  | xadd (k : BitVec 2) (b : BitVec 6) (g : BitVec 3)
  | ldv (d : BitVec 6) (w k : BitVec 2) (o : BitVec 6) (g : BitVec 3)
  | stv (d : BitVec 6) (w k : BitVec 2) (o : BitVec 6) (g : BitVec 3)
  | xlim (k : BitVec 2) (a : BitVec 6) (g : BitVec 3)
  | ldS8 (d b : BitVec 6) (o : BitVec 7) (h : BitVec 1) (g : BitVec 3)
  | ldN8 (d b : BitVec 6) (o : BitVec 7) (h : BitVec 1) (g : BitVec 3)
  | ldS16 (d b : BitVec 6) (o : BitVec 7) (h : BitVec 1) (g : BitVec 3)
  | ldN16 (d b : BitVec 6) (o : BitVec 7) (h : BitVec 1) (g : BitVec 3)
  | ldB32 (d b : BitVec 6) (o : BitVec 7) (h : BitVec 1) (g : BitVec 3)
  | ldB64 (d b : BitVec 6) (o : BitVec 7) (h : BitVec 1) (g : BitVec 3)
  | ldB128 (d b : BitVec 6) (o : BitVec 7) (h : BitVec 1) (g : BitVec 3)
  | stB8 (d b : BitVec 6) (o : BitVec 7) (h : BitVec 1) (g : BitVec 3)
  | stB16 (d b : BitVec 6) (o : BitVec 7) (h : BitVec 1) (g : BitVec 3)
  | stB32 (d b : BitVec 6) (o : BitVec 7) (h : BitVec 1) (g : BitVec 3)
  | stB64 (d b : BitVec 6) (o : BitVec 7) (h : BitVec 1) (g : BitVec 3)
  | stB128 (d b : BitVec 6) (o : BitVec 7) (h : BitVec 1) (g : BitVec 3)
  | ldaB32 (d b : BitVec 6) (c : BitVec 3) (h : BitVec 1) (g : BitVec 3)
  | ldaB64 (d b : BitVec 6) (c : BitVec 3) (h : BitVec 1) (g : BitVec 3)
  | stlB32 (d b : BitVec 6) (c : BitVec 3) (h : BitVec 1) (g : BitVec 3)
  | stlB64 (d b : BitVec 6) (c : BitVec 3) (h : BitVec 1) (g : BitVec 3)
  | atomAddS32 (d a b : BitVec 6) (h : BitVec 1) (g : BitVec 3)
  | atomAddF32 (d a b : BitVec 6) (h : BitVec 1) (g : BitVec 3)
  | atomMinS (d a b : BitVec 6) (h : BitVec 1) (g : BitVec 3)
  | atomMaxS (d a b : BitVec 6) (h : BitVec 1) (g : BitVec 3)
  | atomMinN (d a b : BitVec 6) (h : BitVec 1) (g : BitVec 3)
  | atomMaxN (d a b : BitVec 6) (h : BitVec 1) (g : BitVec 3)
  | atomAnd (d a b : BitVec 6) (h : BitVec 1) (g : BitVec 3)
  | atomOr (d a b : BitVec 6) (h : BitVec 1) (g : BitVec 3)
  | atomXor (d a b : BitVec 6) (h : BitVec 1) (g : BitVec 3)
  | atomExch (d a b : BitVec 6) (h : BitVec 1) (g : BitVec 3)
  | atomCas (d a b : BitVec 6) (h : BitVec 1) (g : BitVec 3)
  | atomAddS64 (d a b : BitVec 6) (h : BitVec 1) (g : BitVec 3)
  | atomExchB64 (d a b : BitVec 6) (h : BitVec 1) (g : BitVec 3)
  | atomCasB64 (d a b : BitVec 6) (h : BitVec 1) (g : BitVec 3)
  | lrB32 (d a : BitVec 6) (h : BitVec 1) (g : BitVec 3)
  | scB32 (p : BitVec 3) (a b : BitVec 6) (h : BitVec 1) (g : BitVec 3)
  | lrB64 (d a : BitVec 6) (h : BitVec 1) (g : BitVec 3)
  | scB64 (p : BitVec 3) (a b : BitVec 6) (h : BitVec 1) (g : BitVec 3)
  | clrres (g : BitVec 3)
  | fenceAcq (c g : BitVec 3)
  | fenceRel (c g : BitVec 3)
  | fenceAr (c g : BitVec 3)
  | br (o : BitVec 23) (g : BitVec 3)
  | call (l : BitVec 6) (o : BitVec 15) (g : BitVec 3)
  | callr (l t : BitVec 6) (g : BitVec 3)
  | ret (t : BitVec 6) (g : BitVec 3)
  | jmpr (t : BitVec 6) (g : BitVec 3)
  | jset (j : BitVec 4) (g : BitVec 3)
  | jadd (j : BitVec 4) (g : BitVec 3)
  | waitRejoin (j : BitVec 4) (g : BitVec 3)
  | leave (m : BitVec 16) (g : BitVec 3)
  | exit (g : BitVec 3)
  | tail (g : BitVec 3)
  | yield (g : BitVec 3)
  | jget (d : BitVec 6) (j : BitVec 4) (g : BitVec 3)
  | hintImm (p : BitVec 24)
  | hintMod (a : BitVec 1) (o : BitVec 2) (b : BitVec 1) (r : BitVec 2) (c d e : BitVec 1) (s : BitVec 3) (f : BitVec 1) (k : BitVec 2) (n : BitVec 1)
  | hintSched (w : BitVec 1) (s : BitVec 8)
  | wait (l s c m : BitVec 6)
  | waitr (a : BitVec 6)
  | trap (c : BitVec 8) (g : BitVec 3)
  | eret (s : BitVec 1) (g : BitVec 3)
  | brk (c : BitVec 8) (g : BitVec 3)
  | halt (g : BitVec 3)
  | csrr (d : BitVec 6) (r : BitVec 8) (g : BitVec 3)
  | csrw (a : BitVec 6) (r : BitVec 8) (g : BitVec 3)
  | sreg (d : BitVec 6) (i : BitVec 10) (g : BitVec 3)
  | qpush (v : BitVec 6) (q : BitVec 4) (p : BitVec 3) (n : BitVec 1) (g : BitVec 3)
  | qpop (v : BitVec 6) (q : BitVec 4) (p : BitVec 3) (n : BitVec 1) (g : BitVec 3)
  | qbind (v : BitVec 6) (q c : BitVec 4) (g : BitVec 3)
  | qstat (v : BitVec 6) (q : BitVec 4) (g : BitVec 3)
  | qflush (q : BitVec 4) (g : BitVec 3)
  | cset (c : BitVec 3) (n : BitVec 5) (z : BitVec 2) (g : BitVec 3)
  | csign (c g : BitVec 3)
  | cchk (d : BitVec 6) (c g : BitVec 3)
  | barL (g : BitVec 3)
  | barS (g : BitVec 3)
  | arrive (s : BitVec 1) (g : BitVec 3)
  | await (s : BitVec 1) (g : BitVec 3)
  | barPhase (g : BitVec 3)
  | mma (t : BitVec 7) (a : BitVec 2) (k : BitVec 4) (c : BitVec 3) (r : BitVec 1) (g : BitVec 3)
  | mmaBs (t : BitVec 7) (a : BitVec 2) (k : BitVec 4) (c : BitVec 3) (r : BitVec 1) (g : BitVec 3)
  | mmaZ (t : BitVec 7) (a : BitVec 2) (k : BitVec 4) (c : BitVec 3) (r : BitVec 1) (g : BitVec 3)
  | accZero (t : BitVec 7) (g : BitVec 3)
  | accLd (t : BitVec 7) (a : BitVec 6) (g : BitVec 3)
  | accSt (t : BitVec 7) (a d : BitVec 6) (g : BitVec 3)
  | accRd (t : BitVec 7) (a d : BitVec 6) (g : BitVec 3)
  | accTab (a : BitVec 6) (g : BitVec 3)
  | trecMk (d a : BitVec 6) (g : BitVec 3)
  | trecChk (d a : BitVec 6) (g : BitVec 3)
  | trecStep (d a b : BitVec 6) (g : BitVec 3)
  | cp (a : BitVec 6) (e : BitVec 1) (q : BitVec 4) (g : BitVec 3)
  | cpGather (d a : BitVec 6) (e : BitVec 1) (q : BitVec 4) (g : BitVec 3)
  | cpGatherR (d a : BitVec 6) (e : BitVec 1) (q : BitVec 4) (g : BitVec 3)
  | cpScatter (d a : BitVec 6) (e : BitVec 1) (q : BitVec 4) (g : BitVec 3)
  | cpFill (a : BitVec 6) (e : BitVec 1) (q : BitVec 4) (g : BitVec 3)
  | cpFlush (a : BitVec 6) (e : BitVec 1) (q : BitVec 4) (g : BitVec 3)
  | cpPref (a : BitVec 6) (e : BitVec 1) (q : BitVec 4) (g : BitVec 3)
  | claEval (v : BitVec 6) (q : BitVec 4) (g : BitVec 3)
  | claFeed (v : BitVec 6) (q : BitVec 4) (g : BitVec 3)
  | claVote (v : BitVec 6) (q : BitVec 4) (g : BitVec 3)
  | claLd (a : BitVec 6) (s : BitVec 1) (g : BitVec 3)
  | claSt (a : BitVec 6) (s : BitVec 1) (g : BitVec 3)
  | claTab (a : BitVec 6) (g : BitVec 3)
  | claSeed (a : BitVec 6) (g : BitVec 3)
  | claCfg (a : BitVec 6) (g : BitVec 3)
  | claStat (d : BitVec 6) (g : BitVec 3)
  | redz (h : BitVec 2) (a : BitVec 6) (o g : BitVec 3)
  | rdz (d a : BitVec 6) (p : BitVec 3) (h : BitVec 2) (g : BitVec 3)
  | hst (v : BitVec 6) (q : BitVec 4) (g : BitVec 3)
  | hpost (v : BitVec 6) (q : BitVec 4) (p : BitVec 3) (n : BitVec 1) (g : BitVec 3)
  | hqtake (v : BitVec 6) (q : BitVec 4) (p : BitVec 3) (n : BitVec 1) (g : BitVec 3)
  | hqfree (v : BitVec 6) (q : BitVec 4) (g : BitVec 3)
  | hqstat (v : BitVec 6) (q : BitVec 4) (g : BitVec 3)
  | nbMax (p : BitVec 3) (a b : BitVec 6) (g : BitVec 3)
  | nbMaxP (a b : BitVec 6) (g : BitVec 3)
  | nGrow (d a b : BitVec 6) (g : BitVec 3)
  | nLaunch (p : BitVec 3) (a b : BitVec 6) (g : BitVec 3)
  | nSignal (a : BitVec 6) (g : BitVec 3)
  | nInfo (d a b : BitVec 6) (g : BitVec 3)
  | pfCode (l : BitVec 1) (a b : BitVec 6) (g : BitVec 3)
  | pinCode (l : BitVec 1) (p : BitVec 3) (a b : BitVec 6) (g : BitVec 3)
  | unpinCode (l : BitVec 1) (a b : BitVec 6) (g : BitVec 3)
  | ingClaim (v : BitVec 6) (q : BitVec 4) (p : BitVec 3) (n : BitVec 1) (g : BitVec 3)
  | ingRel (v : BitVec 6) (q : BitVec 4) (g : BitVec 3)
  | ingStat (v : BitVec 6) (q : BitVec 4) (g : BitVec 3)
  | ingGap (v : BitVec 6) (q : BitVec 4) (g : BitVec 3)
  | ingLoss (v : BitVec 6) (q : BitVec 4) (g : BitVec 3)
  | collSend (v : BitVec 6) (q : BitVec 4) (p : BitVec 3) (n : BitVec 1) (g : BitVec 3)
  | collRecv (v : BitVec 6) (q : BitVec 4) (p : BitVec 3) (n : BitVec 1) (g : BitVec 3)
  | collRed (v : BitVec 6) (q : BitVec 4) (g : BitVec 3)
  | collWait (v : BitVec 6) (q : BitVec 4) (g : BitVec 3)
  | ctxSave (a : BitVec 6) (g : BitVec 3)
  | ctxLoad (p : BitVec 3) (a : BitVec 6) (g : BitVec 3)
  | tlbInv (a b : BitVec 6) (g : BitVec 3)
  | partQ (d b : BitVec 6) (g : BitVec 3)
  | sel (d a b : BitVec 6) (p : BitVec 3) (t : BitVec 1) (g : BitVec 3)
  | add64 (d a b : BitVec 6) (t : BitVec 1) (g : BitVec 3)
  | sub64 (d a b : BitVec 6) (t : BitVec 1) (g : BitVec 3)
  | lea (d a b : BitVec 6) (t : BitVec 1) (g : BitVec 3)
  | cmp64 (c p : BitVec 3) (a b : BitVec 6) (g : BitVec 3)
  deriving DecidableEq, Repr

end Sys2Proof
end

