-- ==== Sys2Proof/WellFormed.lean ====
section
/-!
DEFINITION. Which terms of Instr are instructions: the field values that an entry of the spec names as an
illegal-instruction trap (R52, R465) and that are not simply a reserved bit. An event carries no word and is well formed.
-/

namespace Sys2Proof

/-- R95: the register ids in the table. -/
def sregKnown (r : Nat) : Bool :=
  decide (r ≤ 0x006) || (decide (0x008 ≤ r) && decide (r ≤ 0x00E)) || (decide (0x010 ≤ r) && decide (r ≤ 0x013)) ||
  r == 0x018 || (decide (0x020 ≤ r) && decide (r ≤ 0x025)) || (decide (0x028 ≤ r) && decide (r ≤ 0x02D))

/-- R176: the control registers a csrr can name. -/
def csrKnown (r : Nat) : Bool := decide (r ≤ 4) || (decide (8 ≤ r) && decide (r ≤ 0x0B))

/-- The checks, by name. -/
inductive IllFormed where
  /-- p is reserved when nb = 0 (R51). -/
  | predicateWithoutNb
  /-- A tile number from 96 to 127 (R52). -/
  | tile
  /-- COPY: b[4] = 0 with b[3:0] ≠ 0 (14_cluster.md). -/
  | completionWithoutEntry
  /-- IDX: width code 3 (R128). -/
  | indexWidth
  /-- qbind: classes 9 to 15 (R223). -/
  | endpointClass
  /-- cset: the first flight is no multiple of the size (R225). -/
  | clusterStart
  /-- sreg of a reserved id (R95). -/
  | specialRegister
  /-- csrr or csrw of a reserved number, csrw of a read-only one (R176). -/
  | controlRegister
  /-- part.q: selectors 6 to 63 (R436); n.info: selectors 5 to 63 (R344). -/
  | selector
  deriving DecidableEq, Repr

/-- The check an instruction fails, if any. -/
def Instr.illFormed : Instr → Option IllFormed
  | .add _ _ _ _ _ => none
  | .sub _ _ _ _ _ => none
  | .and _ _ _ _ _ => none
  | .or _ _ _ _ _ => none
  | .xor _ _ _ _ _ => none
  | .andn _ _ _ _ _ => none
  | .shl _ _ _ _ _ => none
  | .shr _ _ _ _ _ => none
  | .sar _ _ _ _ _ => none
  | .rot _ _ _ _ _ => none
  | .minS _ _ _ _ _ => none
  | .maxS _ _ _ _ _ => none
  | .minN _ _ _ _ _ => none
  | .maxN _ _ _ _ _ => none
  | .mul _ _ _ _ _ => none
  | .mulhiS _ _ _ _ _ => none
  | .mulhiN _ _ _ _ _ => none
  | .clz _ _ _ _ => none
  | .popc _ _ _ _ => none
  | .brev _ _ _ _ => none
  | .abs _ _ _ _ => none
  | .neg _ _ _ _ => none
  | .extS8 _ _ _ _ => none
  | .extS16 _ _ _ _ => none
  | .extN8 _ _ _ _ => none
  | .extN16 _ _ _ _ => none
  | .addSatS _ _ _ _ _ => none
  | .addSatN _ _ _ _ _ => none
  | .subSatS _ _ _ _ _ => none
  | .absdiff _ _ _ _ _ => none
  | .bfx _ _ _ _ _ => none
  | .bfi _ _ _ _ _ => none
  | .addi _ _ _ _ => none
  | .andi _ _ _ _ => none
  | .ori _ _ _ _ => none
  | .xori _ _ _ _ => none
  | .shi _ _ _ _ _ => none
  | .movi _ _ _ => none
  | .eq _ _ _ _ => none
  | .ne _ _ _ _ => none
  | .ltS _ _ _ _ => none
  | .leS _ _ _ _ => none
  | .ltN _ _ _ _ => none
  | .leN _ _ _ _ => none
  | .gtS _ _ _ _ => none
  | .geS _ _ _ _ => none
  | .gtN _ _ _ _ => none
  | .geN _ _ _ _ => none
  | .eqImm _ _ _ _ => none
  | .neImm _ _ _ _ => none
  | .ltSImm _ _ _ _ => none
  | .leSImm _ _ _ _ => none
  | .gtSImm _ _ _ _ => none
  | .geSImm _ _ _ _ => none
  | .ltNImm _ _ _ _ => none
  | .geNImm _ _ _ _ => none
  | .pand _ _ _ _ => none
  | .por _ _ _ _ => none
  | .pxor _ _ _ _ => none
  | .pnot _ _ _ => none
  | .psetNz _ _ _ => none
  | .pget _ _ => none
  | .fadd _ _ _ _ _ => none
  | .fsub _ _ _ _ _ => none
  | .fmul _ _ _ _ _ => none
  | .fma _ _ _ _ _ => none
  | .fms _ _ _ _ _ => none
  | .fnma _ _ _ _ _ => none
  | .fmin _ _ _ _ _ => none
  | .fmax _ _ _ _ _ => none
  | .fminn _ _ _ _ _ => none
  | .fmaxn _ _ _ _ _ => none
  | .fabs _ _ _ _ => none
  | .fneg _ _ _ _ => none
  | .fcopysign _ _ _ _ _ => none
  | .fsat _ _ _ _ => none
  | .frint _ _ _ _ => none
  | .ftrunc _ _ _ _ => none
  | .hadd _ _ _ _ _ => none
  | .hsub _ _ _ _ _ => none
  | .hmul _ _ _ _ _ => none
  | .hfma _ _ _ _ _ => none
  | .hmin _ _ _ _ _ => none
  | .hmax _ _ _ _ _ => none
  | .habs _ _ _ _ => none
  | .hneg _ _ _ _ => none
  | .rcp _ _ _ _ => none
  | .rsqrt _ _ _ _ => none
  | .sqrt _ _ _ _ => none
  | .exp2 _ _ _ _ => none
  | .log2 _ _ _ _ => none
  | .sinpi _ _ _ _ => none
  | .cospi _ _ _ _ => none
  | .tanh _ _ _ _ => none
  | .fdiv _ _ _ _ _ => none
  | .cvtF32S32 _ _ _ => none
  | .cvtF32N32 _ _ _ => none
  | .cvtS32F32 _ _ _ => none
  | .cvtN32F32 _ _ _ => none
  | .cvtF32F16 _ _ _ _ => none
  | .cvtF32Bf16 _ _ _ _ => none
  | .cvtF16F32 _ _ _ _ => none
  | .cvtBf16F32 _ _ _ _ => none
  | .cvtF32E4m3 _ _ _ _ => none
  | .cvtF32E5m2 _ _ _ _ => none
  | .cvtE4m3F32 _ _ _ _ => none
  | .cvtE5m2F32 _ _ _ _ => none
  | .cvtF32E2m1 _ _ _ _ => none
  | .cvtE2m1F32 _ _ _ _ => none
  | .cvtS8F32 _ _ _ _ => none
  | .cvtS4F32 _ _ _ _ => none
  | .feq _ _ _ _ => none
  | .fne _ _ _ _ => none
  | .flt _ _ _ _ => none
  | .fle _ _ _ _ => none
  | .fgt _ _ _ _ => none
  | .fge _ _ _ _ => none
  | .funord _ _ _ _ => none
  | .ford _ _ _ _ => none
  | .fclass _ _ _ => none
  | .dotS8x4 _ _ _ _ => none
  | .dotN8x4 _ _ _ _ => none
  | .dotS4x8 _ _ _ _ => none
  | .dotN4x8 _ _ _ _ => none
  | .dotE4m3x4 _ _ _ _ => none
  | .dotE5m2x4 _ _ _ _ => none
  | .dotE2m1x8 _ _ _ _ => none
  | .scl _ _ _ _ _ => none
  | .scladd _ _ _ _ _ => none
  | .ftwosum _ _ _ _ => none
  | .ftwoprod _ _ _ _ => none
  | .faddPair _ _ _ => none
  | .shflIdx _ _ _ _ => none
  | .shflUp _ _ _ _ => none
  | .shflDn _ _ _ _ => none
  | .shflXor _ _ _ _ => none
  | .bcast _ _ _ => none
  | .voteAny _ _ _ => none
  | .voteAll _ _ _ => none
  | .voteBallot _ _ _ => none
  | .matchLanes _ _ _ => none
  | .redAddS32 _ _ _ => none
  | .redAddF32 _ _ _ => none
  | .redMin _ _ _ => none
  | .redMax _ _ _ => none
  | .prefixSum _ _ _ => none
  | .xset _ _ _ => none
  | .xadd _ _ _ => none
  | .ldv _ w _ _ _ => if w = 3 then some .indexWidth else none
  | .stv _ w _ _ _ => if w = 3 then some .indexWidth else none
  | .xlim _ _ _ => none
  | .ldS8 _ _ _ _ _ => none
  | .ldN8 _ _ _ _ _ => none
  | .ldS16 _ _ _ _ _ => none
  | .ldN16 _ _ _ _ _ => none
  | .ldB32 _ _ _ _ _ => none
  | .ldB64 _ _ _ _ _ => none
  | .ldB128 _ _ _ _ _ => none
  | .stB8 _ _ _ _ _ => none
  | .stB16 _ _ _ _ _ => none
  | .stB32 _ _ _ _ _ => none
  | .stB64 _ _ _ _ _ => none
  | .stB128 _ _ _ _ _ => none
  | .ldaB32 _ _ _ _ _ => none
  | .ldaB64 _ _ _ _ _ => none
  | .stlB32 _ _ _ _ _ => none
  | .stlB64 _ _ _ _ _ => none
  | .atomAddS32 _ _ _ _ _ => none
  | .atomAddF32 _ _ _ _ _ => none
  | .atomMinS _ _ _ _ _ => none
  | .atomMaxS _ _ _ _ _ => none
  | .atomMinN _ _ _ _ _ => none
  | .atomMaxN _ _ _ _ _ => none
  | .atomAnd _ _ _ _ _ => none
  | .atomOr _ _ _ _ _ => none
  | .atomXor _ _ _ _ _ => none
  | .atomExch _ _ _ _ _ => none
  | .atomCas _ _ _ _ _ => none
  | .atomAddS64 _ _ _ _ _ => none
  | .atomExchB64 _ _ _ _ _ => none
  | .atomCasB64 _ _ _ _ _ => none
  | .lrB32 _ _ _ _ => none
  | .scB32 _ _ _ _ _ => none
  | .lrB64 _ _ _ _ => none
  | .scB64 _ _ _ _ _ => none
  | .clrres _ => none
  | .fenceAcq _ _ => none
  | .fenceRel _ _ => none
  | .fenceAr _ _ => none
  | .br _ _ => none
  | .call _ _ _ => none
  | .callr _ _ _ => none
  | .ret _ _ => none
  | .jmpr _ _ => none
  | .jset _ _ => none
  | .jadd _ _ => none
  | .waitRejoin _ _ => none
  | .leave _ _ => none
  | .exit _ => none
  | .tail _ => none
  | .yield _ => none
  | .jget _ _ _ => none
  | .hintImm _ => none
  | .hintMod _ _ _ _ _ _ _ _ _ _ _ => none
  | .hintSched _ _ => none
  | .wait _ _ _ _ => none
  | .waitr _ => none
  | .trap _ _ => none
  | .eret _ _ => none
  | .brk _ _ => none
  | .halt _ => none
  | .csrr _ r _ => if csrKnown r.toNat = false then some .controlRegister else none
  | .csrw _ r _ => if csrKnown r.toNat = false ∨ r = 4 then some .controlRegister else none
  | .sreg _ i _ => if sregKnown i.toNat = false then some .specialRegister else none
  | .qpush _ _ p n _ => if n = 0 ∧ p ≠ 0 then some .predicateWithoutNb else none
  | .qpop _ _ p n _ => if n = 0 ∧ p ≠ 0 then some .predicateWithoutNb else none
  | .qbind _ _ c _ => if 8 < c.toNat then some .endpointClass else none
  | .qstat _ _ _ => none
  | .qflush _ _ => none
  | .cset _ n z _ => if n.toNat % 2 ^ z.toNat ≠ 0 then some .clusterStart else none
  | .csign _ _ => none
  | .cchk _ _ _ => none
  | .barL _ => none
  | .barS _ => none
  | .arrive _ _ => none
  | .await _ _ => none
  | .barPhase _ => none
  | .mma t _ _ _ _ _ => if 96 ≤ t.toNat then some .tile else none
  | .mmaBs t _ _ _ _ _ => if 96 ≤ t.toNat then some .tile else none
  | .mmaZ t _ _ _ _ _ => if 96 ≤ t.toNat then some .tile else none
  | .accZero t _ => if 96 ≤ t.toNat then some .tile else none
  | .accLd t _ _ => if 96 ≤ t.toNat then some .tile else none
  | .accSt t _ _ _ => if 96 ≤ t.toNat then some .tile else none
  | .accRd t _ _ _ => if 96 ≤ t.toNat then some .tile else none
  | .accTab _ _ => none
  | .trecMk _ _ _ => none
  | .trecChk _ _ _ => none
  | .trecStep _ _ _ _ => none
  | .cp _ e q _ => if e = 0 ∧ q ≠ 0 then some .completionWithoutEntry else none
  | .cpGather _ _ e q _ => if e = 0 ∧ q ≠ 0 then some .completionWithoutEntry else none
  | .cpGatherR _ _ e q _ => if e = 0 ∧ q ≠ 0 then some .completionWithoutEntry else none
  | .cpScatter _ _ e q _ => if e = 0 ∧ q ≠ 0 then some .completionWithoutEntry else none
  | .cpFill _ e q _ => if e = 0 ∧ q ≠ 0 then some .completionWithoutEntry else none
  | .cpFlush _ e q _ => if e = 0 ∧ q ≠ 0 then some .completionWithoutEntry else none
  | .cpPref _ e q _ => if e = 0 ∧ q ≠ 0 then some .completionWithoutEntry else none
  | .claEval _ _ _ => none
  | .claFeed _ _ _ => none
  | .claVote _ _ _ => none
  | .claLd _ _ _ => none
  | .claSt _ _ _ => none
  | .claTab _ _ => none
  | .claSeed _ _ => none
  | .claCfg _ _ => none
  | .claStat _ _ => none
  | .redz _ _ _ _ => none
  | .rdz _ _ _ _ _ => none
  | .hst _ _ _ => none
  | .hpost _ _ p n _ => if n = 0 ∧ p ≠ 0 then some .predicateWithoutNb else none
  | .hqtake _ _ p n _ => if n = 0 ∧ p ≠ 0 then some .predicateWithoutNb else none
  | .hqfree _ _ _ => none
  | .hqstat _ _ _ => none
  | .nbMax _ _ _ _ => none
  | .nbMaxP _ _ _ => none
  | .nGrow _ _ _ _ => none
  | .nLaunch _ _ _ _ => none
  | .nSignal _ _ => none
  | .nInfo _ _ b _ => if 5 ≤ b.toNat then some .selector else none
  | .pfCode _ _ _ _ => none
  | .pinCode _ _ _ _ _ => none
  | .unpinCode _ _ _ _ => none
  | .ingClaim _ _ p n _ => if n = 0 ∧ p ≠ 0 then some .predicateWithoutNb else none
  | .ingRel _ _ _ => none
  | .ingStat _ _ _ => none
  | .ingGap _ _ _ => none
  | .ingLoss _ _ _ => none
  | .collSend _ _ p n _ => if n = 0 ∧ p ≠ 0 then some .predicateWithoutNb else none
  | .collRecv _ _ p n _ => if n = 0 ∧ p ≠ 0 then some .predicateWithoutNb else none
  | .collRed _ _ _ => none
  | .collWait _ _ _ => none
  | .ctxSave _ _ => none
  | .ctxLoad _ _ _ => none
  | .tlbInv _ _ _ => none
  | .partQ _ b _ => if 6 ≤ b.toNat then some .selector else none
  | .sel _ _ _ _ _ _ => none
  | .add64 _ _ _ _ _ => none
  | .sub64 _ _ _ _ _ => none
  | .lea _ _ _ _ _ => none
  | .cmp64 _ _ _ _ _ => none
  | .fairnessTimer _ => none
  | .deferredSwitch _ => none
  | .flightSwap _ _ => none
  | .activeSetFill _ _ => none
  | .aging _ _ => none
  | .loadReturn _ => none
  | .bind _ => none
  | .drain _ => none
  | .apply _ => none
  | .send _ => none
  | .mirror _ => none
  | .mmaComplete _ => none
  | .accComplete _ => none
  | .claCommandStart _ => none
  | .claEvalComplete _ => none
  | .claSweepEnd _ => none
  | .claImageComplete _ => none
  | .copyComplete _ _ => none
  | .hpostComplete _ => none
  | .creditGrant _ => none
  | .galleryFill _ _ _ _ => none
  | .treadRetire _ => none
  | .retirementReport _ => none
  | .raiseApply _ => none
  | .b0Update _ _ _ => none
  | .remoteLookup _ _ _ _ => none
  | .lookupAnswer _ => none
  | .watermarkUpdate _ _ _ => none
  | .rowOpen _ => none
  | .treadRelease _ => none
  | .dispatch _ => none
  | .stealRequest _ => none
  | .stealBackoff _ => none
  | .admission _ => none
  | .phaseSpill _ => none
  | .graceExpiry _ => none
  | .forcedSave _ => none
  | .qtail _ _ => none
  | .queueEnable _ => none
  | .queueDisable _ => none
  | .registerWrite _ _ _ => none
  | .launch _ => none
  | .cancel _ => none
  | .loadChunk _ _ => none
  | .verify => none
  | .discard => none
  | .romState => none
  | .attest _ _ => none
  | .lifecycle _ _ => none
  | .debugToken _ _ _ => none
  | .partitionCreate _ => none
  | .partitionReset _ => none
  | .keyAssign _ _ => none
  | .keyRotate _ => none
  | .windowBind _ _ _ _ _ => none
  | .queueBind _ _ _ _ => none
  | .saveRegion _ _ _ => none
  | .ringConfig _ => none
  | .streamTable _ => none
  | .channelConfig _ => none
  | .preempt _ _ _ _ _ _ => none
  | .preemptWithdraw _ => none
  | .fairness _ _ => none
  | .powerLimit _ => none
  | .powerState _ => none
  | .telemetry _ => none
  | .errorLog _ => none
  | .coldBoot => none
  | .warmReset => none
  | .recalibration => none
  | .powerSample _ _ => none
  | .debugTokenExpiry _ => none
  | .rowThrottle _ _ => none
  | .throttleRelease _ _ => none
  | .rotationSweep _ _ => none
  | .backgroundClear _ _ => none
  | .scrub _ => none
  | .linkDown => none
  | .hostMemAccess _ _ _ _ => none
  | .packetReceive _ _ => none
  | .wireRecord _ => none
  | .collMessage _ _ => none
  | .collAck _ _ _ => none
  | .collRetryExhausted _ _ => none
  | .portLinkDown _ => none
  | .illegalInstruction => none
  | .fetchFailure _ => none
  | .stealAnswer _ => none
  | .linkUp => none
  | .portLinkUp _ => none
  | .dieLinkLoss _ _ => none
  | .clusterMeshLoss _ => none
  | .commandWord _ _ => none
  | .haltDebug _ _ => none
  | .pageMigration _ _ _ => none

/-- The instruction passes every check. -/
def Instr.wf (i : Instr) : Bool := i.illFormed.isNone

end Sys2Proof
end

