-- ==== Sys2Proof/Decode.lean ====
section
/-!
DEFINITION. The decoder: from the bytes at a program counter to an instruction, or to the reason there is none (R39–R52);
and the encoder. An instruction is one little-endian word; its major selects the family, the member code the row; every
reserved bit is zero; a field value outside its range is refused by WellFormed. `noncomputable` marks only that Lean's code
generator cannot build the later constructors of so large an inductive (Syntax.lean): every function here is plain
arithmetic on numerals and is evaluated by the kernel.
-/

namespace Sys2Proof

/-- Why bytes are no instruction. The machine then takes the illegal-instruction trap (R52, R465); a fetch that yields
fewer than four bytes never reaches the decoder on the machine. -/
inductive DecodeError where
  /-- Fewer than four bytes. -/
  | short
  /-- Majors 0x00, 0x35 to 0x3F. -/
  | unusedMajor
  /-- A member code without a member. -/
  | unusedMember
  /-- A reserved bit that is not zero, or t = 1 where R43 forbids it. -/
  | reservedBits
  /-- A field value that the entry refuses. -/
  | illFormed (e : IllFormed)
  deriving DecidableEq, Repr

/-- Bits [lo + n − 1 : lo] of a word. -/
def bitsAt (w lo n : Nat) : Nat := w / 2 ^ lo % 2 ^ n

/-- The field of n bits at lo. -/
def fieldAt (w lo n : Nat) : BitVec n := BitVec.ofNat n (bitsAt w lo n)

/-- Major 0x01 (R50, R51). -/
def decodeIop (w : Nat) : Except DecodeError Instr :=
  match bitsAt w 4 4 with
  | 0 => .ok (.add (fieldAt w 20 6) (fieldAt w 14 6) (fieldAt w 8 6) (fieldAt w 3 1) (fieldAt w 0 3))
  | 1 => .ok (.sub (fieldAt w 20 6) (fieldAt w 14 6) (fieldAt w 8 6) (fieldAt w 3 1) (fieldAt w 0 3))
  | 2 => .ok (.and (fieldAt w 20 6) (fieldAt w 14 6) (fieldAt w 8 6) (fieldAt w 3 1) (fieldAt w 0 3))
  | 3 => .ok (.or (fieldAt w 20 6) (fieldAt w 14 6) (fieldAt w 8 6) (fieldAt w 3 1) (fieldAt w 0 3))
  | 4 => .ok (.xor (fieldAt w 20 6) (fieldAt w 14 6) (fieldAt w 8 6) (fieldAt w 3 1) (fieldAt w 0 3))
  | 5 => .ok (.andn (fieldAt w 20 6) (fieldAt w 14 6) (fieldAt w 8 6) (fieldAt w 3 1) (fieldAt w 0 3))
  | 6 => .ok (.shl (fieldAt w 20 6) (fieldAt w 14 6) (fieldAt w 8 6) (fieldAt w 3 1) (fieldAt w 0 3))
  | 7 => .ok (.shr (fieldAt w 20 6) (fieldAt w 14 6) (fieldAt w 8 6) (fieldAt w 3 1) (fieldAt w 0 3))
  | 8 => .ok (.sar (fieldAt w 20 6) (fieldAt w 14 6) (fieldAt w 8 6) (fieldAt w 3 1) (fieldAt w 0 3))
  | 9 => .ok (.rot (fieldAt w 20 6) (fieldAt w 14 6) (fieldAt w 8 6) (fieldAt w 3 1) (fieldAt w 0 3))
  | 10 => .ok (.minS (fieldAt w 20 6) (fieldAt w 14 6) (fieldAt w 8 6) (fieldAt w 3 1) (fieldAt w 0 3))
  | 11 => .ok (.maxS (fieldAt w 20 6) (fieldAt w 14 6) (fieldAt w 8 6) (fieldAt w 3 1) (fieldAt w 0 3))
  | 12 => .ok (.minN (fieldAt w 20 6) (fieldAt w 14 6) (fieldAt w 8 6) (fieldAt w 3 1) (fieldAt w 0 3))
  | 13 => .ok (.maxN (fieldAt w 20 6) (fieldAt w 14 6) (fieldAt w 8 6) (fieldAt w 3 1) (fieldAt w 0 3))
  | 14 => .ok (.mul (fieldAt w 20 6) (fieldAt w 14 6) (fieldAt w 8 6) (fieldAt w 3 1) (fieldAt w 0 3))
  | 15 => .ok (.mulhiS (fieldAt w 20 6) (fieldAt w 14 6) (fieldAt w 8 6) (fieldAt w 3 1) (fieldAt w 0 3))
  | _ => .error .unusedMember

/-- Major 0x02 (R50, R51). -/
def decodeIop2 (w : Nat) : Except DecodeError Instr :=
  match bitsAt w 4 4 with
  | 0 => .ok (.mulhiN (fieldAt w 20 6) (fieldAt w 14 6) (fieldAt w 8 6) (fieldAt w 3 1) (fieldAt w 0 3))
  | 1 => if bitsAt w 8 6 = 0
      then .ok (.clz (fieldAt w 20 6) (fieldAt w 14 6) (fieldAt w 3 1) (fieldAt w 0 3))
      else .error .reservedBits
  | 2 => if bitsAt w 8 6 = 0
      then .ok (.popc (fieldAt w 20 6) (fieldAt w 14 6) (fieldAt w 3 1) (fieldAt w 0 3))
      else .error .reservedBits
  | 3 => if bitsAt w 8 6 = 0
      then .ok (.brev (fieldAt w 20 6) (fieldAt w 14 6) (fieldAt w 3 1) (fieldAt w 0 3))
      else .error .reservedBits
  | 4 => if bitsAt w 8 6 = 0
      then .ok (.abs (fieldAt w 20 6) (fieldAt w 14 6) (fieldAt w 3 1) (fieldAt w 0 3))
      else .error .reservedBits
  | 5 => if bitsAt w 8 6 = 0
      then .ok (.neg (fieldAt w 20 6) (fieldAt w 14 6) (fieldAt w 3 1) (fieldAt w 0 3))
      else .error .reservedBits
  | 6 => if bitsAt w 8 6 = 0
      then .ok (.extS8 (fieldAt w 20 6) (fieldAt w 14 6) (fieldAt w 3 1) (fieldAt w 0 3))
      else .error .reservedBits
  | 7 => if bitsAt w 8 6 = 0
      then .ok (.extS16 (fieldAt w 20 6) (fieldAt w 14 6) (fieldAt w 3 1) (fieldAt w 0 3))
      else .error .reservedBits
  | 8 => if bitsAt w 8 6 = 0
      then .ok (.extN8 (fieldAt w 20 6) (fieldAt w 14 6) (fieldAt w 3 1) (fieldAt w 0 3))
      else .error .reservedBits
  | 9 => if bitsAt w 8 6 = 0
      then .ok (.extN16 (fieldAt w 20 6) (fieldAt w 14 6) (fieldAt w 3 1) (fieldAt w 0 3))
      else .error .reservedBits
  | 10 => .ok (.addSatS (fieldAt w 20 6) (fieldAt w 14 6) (fieldAt w 8 6) (fieldAt w 3 1) (fieldAt w 0 3))
  | 11 => .ok (.addSatN (fieldAt w 20 6) (fieldAt w 14 6) (fieldAt w 8 6) (fieldAt w 3 1) (fieldAt w 0 3))
  | 12 => .ok (.subSatS (fieldAt w 20 6) (fieldAt w 14 6) (fieldAt w 8 6) (fieldAt w 3 1) (fieldAt w 0 3))
  | 13 => .ok (.absdiff (fieldAt w 20 6) (fieldAt w 14 6) (fieldAt w 8 6) (fieldAt w 3 1) (fieldAt w 0 3))
  | 14 => .ok (.bfx (fieldAt w 20 6) (fieldAt w 14 6) (fieldAt w 8 6) (fieldAt w 3 1) (fieldAt w 0 3))
  | 15 => .ok (.bfi (fieldAt w 20 6) (fieldAt w 14 6) (fieldAt w 8 6) (fieldAt w 3 1) (fieldAt w 0 3))
  | _ => .error .unusedMember

/-- Major 0x03 (R50, R51). -/
def decodeAddi (w : Nat) : Except DecodeError Instr :=
  .ok (.addi (fieldAt w 20 6) (fieldAt w 14 6) (fieldAt w 3 11) (fieldAt w 0 3))

/-- Major 0x04 (R50, R51). -/
def decodeAndi (w : Nat) : Except DecodeError Instr :=
  .ok (.andi (fieldAt w 20 6) (fieldAt w 14 6) (fieldAt w 3 11) (fieldAt w 0 3))

/-- Major 0x05 (R50, R51). -/
def decodeOri (w : Nat) : Except DecodeError Instr :=
  .ok (.ori (fieldAt w 20 6) (fieldAt w 14 6) (fieldAt w 3 11) (fieldAt w 0 3))

/-- Major 0x06 (R50, R51). -/
def decodeXori (w : Nat) : Except DecodeError Instr :=
  .ok (.xori (fieldAt w 20 6) (fieldAt w 14 6) (fieldAt w 3 11) (fieldAt w 0 3))

/-- Major 0x07 (R50, R51). -/
def decodeShi (w : Nat) : Except DecodeError Instr :=
  if bitsAt w 10 4 = 0
      then .ok (.shi (fieldAt w 20 6) (fieldAt w 14 6) (fieldAt w 8 2) (fieldAt w 3 5) (fieldAt w 0 3))
      else .error .reservedBits

/-- Major 0x08 (R50, R51). -/
def decodeMovi (w : Nat) : Except DecodeError Instr :=
  .ok (.movi (fieldAt w 20 6) (fieldAt w 3 17) (fieldAt w 0 3))

/-- Major 0x09 (R50, R51). -/
def decodeIcmp (w : Nat) : Except DecodeError Instr :=
  match bitsAt w 4 4 with
  | 0 => if bitsAt w 3 1 = 0 ∧ bitsAt w 23 3 = 0
      then .ok (.eq (fieldAt w 20 3) (fieldAt w 14 6) (fieldAt w 8 6) (fieldAt w 0 3))
      else .error .reservedBits
  | 1 => if bitsAt w 3 1 = 0 ∧ bitsAt w 23 3 = 0
      then .ok (.ne (fieldAt w 20 3) (fieldAt w 14 6) (fieldAt w 8 6) (fieldAt w 0 3))
      else .error .reservedBits
  | 2 => if bitsAt w 3 1 = 0 ∧ bitsAt w 23 3 = 0
      then .ok (.ltS (fieldAt w 20 3) (fieldAt w 14 6) (fieldAt w 8 6) (fieldAt w 0 3))
      else .error .reservedBits
  | 3 => if bitsAt w 3 1 = 0 ∧ bitsAt w 23 3 = 0
      then .ok (.leS (fieldAt w 20 3) (fieldAt w 14 6) (fieldAt w 8 6) (fieldAt w 0 3))
      else .error .reservedBits
  | 4 => if bitsAt w 3 1 = 0 ∧ bitsAt w 23 3 = 0
      then .ok (.ltN (fieldAt w 20 3) (fieldAt w 14 6) (fieldAt w 8 6) (fieldAt w 0 3))
      else .error .reservedBits
  | 5 => if bitsAt w 3 1 = 0 ∧ bitsAt w 23 3 = 0
      then .ok (.leN (fieldAt w 20 3) (fieldAt w 14 6) (fieldAt w 8 6) (fieldAt w 0 3))
      else .error .reservedBits
  | 6 => if bitsAt w 3 1 = 0 ∧ bitsAt w 23 3 = 0
      then .ok (.gtS (fieldAt w 20 3) (fieldAt w 14 6) (fieldAt w 8 6) (fieldAt w 0 3))
      else .error .reservedBits
  | 7 => if bitsAt w 3 1 = 0 ∧ bitsAt w 23 3 = 0
      then .ok (.geS (fieldAt w 20 3) (fieldAt w 14 6) (fieldAt w 8 6) (fieldAt w 0 3))
      else .error .reservedBits
  | 8 => if bitsAt w 3 1 = 0 ∧ bitsAt w 23 3 = 0
      then .ok (.gtN (fieldAt w 20 3) (fieldAt w 14 6) (fieldAt w 8 6) (fieldAt w 0 3))
      else .error .reservedBits
  | 9 => if bitsAt w 3 1 = 0 ∧ bitsAt w 23 3 = 0
      then .ok (.geN (fieldAt w 20 3) (fieldAt w 14 6) (fieldAt w 8 6) (fieldAt w 0 3))
      else .error .reservedBits
  | _ => .error .unusedMember

/-- Major 0x0A (R50, R51). -/
def decodeIcmpi (w : Nat) : Except DecodeError Instr :=
  match bitsAt w 23 3 with
  | 0 => .ok (.eqImm (fieldAt w 20 3) (fieldAt w 14 6) (fieldAt w 3 11) (fieldAt w 0 3))
  | 1 => .ok (.neImm (fieldAt w 20 3) (fieldAt w 14 6) (fieldAt w 3 11) (fieldAt w 0 3))
  | 2 => .ok (.ltSImm (fieldAt w 20 3) (fieldAt w 14 6) (fieldAt w 3 11) (fieldAt w 0 3))
  | 3 => .ok (.leSImm (fieldAt w 20 3) (fieldAt w 14 6) (fieldAt w 3 11) (fieldAt w 0 3))
  | 4 => .ok (.gtSImm (fieldAt w 20 3) (fieldAt w 14 6) (fieldAt w 3 11) (fieldAt w 0 3))
  | 5 => .ok (.geSImm (fieldAt w 20 3) (fieldAt w 14 6) (fieldAt w 3 11) (fieldAt w 0 3))
  | 6 => .ok (.ltNImm (fieldAt w 20 3) (fieldAt w 14 6) (fieldAt w 3 11) (fieldAt w 0 3))
  | 7 => .ok (.geNImm (fieldAt w 20 3) (fieldAt w 14 6) (fieldAt w 3 11) (fieldAt w 0 3))
  | _ => .error .unusedMember

/-- Major 0x0B (R50, R51). -/
def decodePred (w : Nat) : Except DecodeError Instr :=
  match bitsAt w 4 4 with
  | 0 => if bitsAt w 3 1 = 0 ∧ bitsAt w 11 3 = 0 ∧ bitsAt w 17 3 = 0 ∧ bitsAt w 23 3 = 0
      then .ok (.pand (fieldAt w 20 3) (fieldAt w 14 3) (fieldAt w 8 3) (fieldAt w 0 3))
      else .error .reservedBits
  | 1 => if bitsAt w 3 1 = 0 ∧ bitsAt w 11 3 = 0 ∧ bitsAt w 17 3 = 0 ∧ bitsAt w 23 3 = 0
      then .ok (.por (fieldAt w 20 3) (fieldAt w 14 3) (fieldAt w 8 3) (fieldAt w 0 3))
      else .error .reservedBits
  | 2 => if bitsAt w 3 1 = 0 ∧ bitsAt w 11 3 = 0 ∧ bitsAt w 17 3 = 0 ∧ bitsAt w 23 3 = 0
      then .ok (.pxor (fieldAt w 20 3) (fieldAt w 14 3) (fieldAt w 8 3) (fieldAt w 0 3))
      else .error .reservedBits
  | 3 => if bitsAt w 3 1 = 0 ∧ bitsAt w 8 6 = 0 ∧ bitsAt w 17 3 = 0 ∧ bitsAt w 23 3 = 0
      then .ok (.pnot (fieldAt w 20 3) (fieldAt w 14 3) (fieldAt w 0 3))
      else .error .reservedBits
  | 4 => if bitsAt w 3 1 = 0 ∧ bitsAt w 8 6 = 0 ∧ bitsAt w 23 3 = 0
      then .ok (.psetNz (fieldAt w 20 3) (fieldAt w 14 6) (fieldAt w 0 3))
      else .error .reservedBits
  | 5 => if bitsAt w 3 1 = 0 ∧ bitsAt w 8 12 = 0
      then .ok (.pget (fieldAt w 20 6) (fieldAt w 0 3))
      else .error .reservedBits
  | _ => .error .unusedMember

/-- Major 0x0C (R50, R51). -/
def decodeFop (w : Nat) : Except DecodeError Instr :=
  match bitsAt w 4 4 with
  | 0 => .ok (.fadd (fieldAt w 20 6) (fieldAt w 14 6) (fieldAt w 8 6) (fieldAt w 3 1) (fieldAt w 0 3))
  | 1 => .ok (.fsub (fieldAt w 20 6) (fieldAt w 14 6) (fieldAt w 8 6) (fieldAt w 3 1) (fieldAt w 0 3))
  | 2 => .ok (.fmul (fieldAt w 20 6) (fieldAt w 14 6) (fieldAt w 8 6) (fieldAt w 3 1) (fieldAt w 0 3))
  | 3 => .ok (.fma (fieldAt w 20 6) (fieldAt w 14 6) (fieldAt w 8 6) (fieldAt w 3 1) (fieldAt w 0 3))
  | 4 => .ok (.fms (fieldAt w 20 6) (fieldAt w 14 6) (fieldAt w 8 6) (fieldAt w 3 1) (fieldAt w 0 3))
  | 5 => .ok (.fnma (fieldAt w 20 6) (fieldAt w 14 6) (fieldAt w 8 6) (fieldAt w 3 1) (fieldAt w 0 3))
  | 6 => .ok (.fmin (fieldAt w 20 6) (fieldAt w 14 6) (fieldAt w 8 6) (fieldAt w 3 1) (fieldAt w 0 3))
  | 7 => .ok (.fmax (fieldAt w 20 6) (fieldAt w 14 6) (fieldAt w 8 6) (fieldAt w 3 1) (fieldAt w 0 3))
  | 8 => .ok (.fminn (fieldAt w 20 6) (fieldAt w 14 6) (fieldAt w 8 6) (fieldAt w 3 1) (fieldAt w 0 3))
  | 9 => .ok (.fmaxn (fieldAt w 20 6) (fieldAt w 14 6) (fieldAt w 8 6) (fieldAt w 3 1) (fieldAt w 0 3))
  | 10 => if bitsAt w 8 6 = 0
      then .ok (.fabs (fieldAt w 20 6) (fieldAt w 14 6) (fieldAt w 3 1) (fieldAt w 0 3))
      else .error .reservedBits
  | 11 => if bitsAt w 8 6 = 0
      then .ok (.fneg (fieldAt w 20 6) (fieldAt w 14 6) (fieldAt w 3 1) (fieldAt w 0 3))
      else .error .reservedBits
  | 12 => .ok (.fcopysign (fieldAt w 20 6) (fieldAt w 14 6) (fieldAt w 8 6) (fieldAt w 3 1) (fieldAt w 0 3))
  | 13 => if bitsAt w 8 6 = 0
      then .ok (.fsat (fieldAt w 20 6) (fieldAt w 14 6) (fieldAt w 3 1) (fieldAt w 0 3))
      else .error .reservedBits
  | 14 => if bitsAt w 8 6 = 0
      then .ok (.frint (fieldAt w 20 6) (fieldAt w 14 6) (fieldAt w 3 1) (fieldAt w 0 3))
      else .error .reservedBits
  | 15 => if bitsAt w 8 6 = 0
      then .ok (.ftrunc (fieldAt w 20 6) (fieldAt w 14 6) (fieldAt w 3 1) (fieldAt w 0 3))
      else .error .reservedBits
  | _ => .error .unusedMember

/-- Major 0x0D (R50, R51). -/
def decodeHop (w : Nat) : Except DecodeError Instr :=
  match bitsAt w 4 3 with
  | 0 => if bitsAt w 3 1 = 0
      then .ok (.hadd (fieldAt w 20 6) (fieldAt w 14 6) (fieldAt w 8 6) (fieldAt w 7 1) (fieldAt w 0 3))
      else .error .reservedBits
  | 1 => if bitsAt w 3 1 = 0
      then .ok (.hsub (fieldAt w 20 6) (fieldAt w 14 6) (fieldAt w 8 6) (fieldAt w 7 1) (fieldAt w 0 3))
      else .error .reservedBits
  | 2 => if bitsAt w 3 1 = 0
      then .ok (.hmul (fieldAt w 20 6) (fieldAt w 14 6) (fieldAt w 8 6) (fieldAt w 7 1) (fieldAt w 0 3))
      else .error .reservedBits
  | 3 => if bitsAt w 3 1 = 0
      then .ok (.hfma (fieldAt w 20 6) (fieldAt w 14 6) (fieldAt w 8 6) (fieldAt w 7 1) (fieldAt w 0 3))
      else .error .reservedBits
  | 4 => if bitsAt w 3 1 = 0
      then .ok (.hmin (fieldAt w 20 6) (fieldAt w 14 6) (fieldAt w 8 6) (fieldAt w 7 1) (fieldAt w 0 3))
      else .error .reservedBits
  | 5 => if bitsAt w 3 1 = 0
      then .ok (.hmax (fieldAt w 20 6) (fieldAt w 14 6) (fieldAt w 8 6) (fieldAt w 7 1) (fieldAt w 0 3))
      else .error .reservedBits
  | 6 => if bitsAt w 3 1 = 0 ∧ bitsAt w 8 6 = 0
      then .ok (.habs (fieldAt w 20 6) (fieldAt w 14 6) (fieldAt w 7 1) (fieldAt w 0 3))
      else .error .reservedBits
  | 7 => if bitsAt w 3 1 = 0 ∧ bitsAt w 8 6 = 0
      then .ok (.hneg (fieldAt w 20 6) (fieldAt w 14 6) (fieldAt w 7 1) (fieldAt w 0 3))
      else .error .reservedBits
  | _ => .error .unusedMember

/-- Major 0x0E (R50, R51). -/
def decodeFspec (w : Nat) : Except DecodeError Instr :=
  match bitsAt w 4 4 with
  | 0 => if bitsAt w 8 6 = 0
      then .ok (.rcp (fieldAt w 20 6) (fieldAt w 14 6) (fieldAt w 3 1) (fieldAt w 0 3))
      else .error .reservedBits
  | 1 => if bitsAt w 8 6 = 0
      then .ok (.rsqrt (fieldAt w 20 6) (fieldAt w 14 6) (fieldAt w 3 1) (fieldAt w 0 3))
      else .error .reservedBits
  | 2 => if bitsAt w 8 6 = 0
      then .ok (.sqrt (fieldAt w 20 6) (fieldAt w 14 6) (fieldAt w 3 1) (fieldAt w 0 3))
      else .error .reservedBits
  | 3 => if bitsAt w 8 6 = 0
      then .ok (.exp2 (fieldAt w 20 6) (fieldAt w 14 6) (fieldAt w 3 1) (fieldAt w 0 3))
      else .error .reservedBits
  | 4 => if bitsAt w 8 6 = 0
      then .ok (.log2 (fieldAt w 20 6) (fieldAt w 14 6) (fieldAt w 3 1) (fieldAt w 0 3))
      else .error .reservedBits
  | 5 => if bitsAt w 8 6 = 0
      then .ok (.sinpi (fieldAt w 20 6) (fieldAt w 14 6) (fieldAt w 3 1) (fieldAt w 0 3))
      else .error .reservedBits
  | 6 => if bitsAt w 8 6 = 0
      then .ok (.cospi (fieldAt w 20 6) (fieldAt w 14 6) (fieldAt w 3 1) (fieldAt w 0 3))
      else .error .reservedBits
  | 7 => if bitsAt w 8 6 = 0
      then .ok (.tanh (fieldAt w 20 6) (fieldAt w 14 6) (fieldAt w 3 1) (fieldAt w 0 3))
      else .error .reservedBits
  | 8 => .ok (.fdiv (fieldAt w 20 6) (fieldAt w 14 6) (fieldAt w 8 6) (fieldAt w 3 1) (fieldAt w 0 3))
  | _ => .error .unusedMember

/-- Major 0x0F (R50, R51). -/
def decodeFcvt (w : Nat) : Except DecodeError Instr :=
  match bitsAt w 4 4 with
  | 0 => if bitsAt w 3 1 = 0 ∧ bitsAt w 8 6 = 0
      then .ok (.cvtF32S32 (fieldAt w 20 6) (fieldAt w 14 6) (fieldAt w 0 3))
      else .error .reservedBits
  | 1 => if bitsAt w 3 1 = 0 ∧ bitsAt w 8 6 = 0
      then .ok (.cvtF32N32 (fieldAt w 20 6) (fieldAt w 14 6) (fieldAt w 0 3))
      else .error .reservedBits
  | 2 => if bitsAt w 3 1 = 0 ∧ bitsAt w 8 6 = 0
      then .ok (.cvtS32F32 (fieldAt w 20 6) (fieldAt w 14 6) (fieldAt w 0 3))
      else .error .reservedBits
  | 3 => if bitsAt w 3 1 = 0 ∧ bitsAt w 8 6 = 0
      then .ok (.cvtN32F32 (fieldAt w 20 6) (fieldAt w 14 6) (fieldAt w 0 3))
      else .error .reservedBits
  | 4 => if bitsAt w 3 1 = 0 ∧ bitsAt w 9 5 = 0
      then .ok (.cvtF32F16 (fieldAt w 20 6) (fieldAt w 14 6) (fieldAt w 8 1) (fieldAt w 0 3))
      else .error .reservedBits
  | 5 => if bitsAt w 3 1 = 0 ∧ bitsAt w 9 5 = 0
      then .ok (.cvtF32Bf16 (fieldAt w 20 6) (fieldAt w 14 6) (fieldAt w 8 1) (fieldAt w 0 3))
      else .error .reservedBits
  | 6 => if bitsAt w 3 1 = 0 ∧ bitsAt w 9 5 = 0
      then .ok (.cvtF16F32 (fieldAt w 20 6) (fieldAt w 14 6) (fieldAt w 8 1) (fieldAt w 0 3))
      else .error .reservedBits
  | 7 => if bitsAt w 3 1 = 0 ∧ bitsAt w 9 5 = 0
      then .ok (.cvtBf16F32 (fieldAt w 20 6) (fieldAt w 14 6) (fieldAt w 8 1) (fieldAt w 0 3))
      else .error .reservedBits
  | 8 => if bitsAt w 3 1 = 0 ∧ bitsAt w 10 4 = 0
      then .ok (.cvtF32E4m3 (fieldAt w 20 6) (fieldAt w 14 6) (fieldAt w 8 2) (fieldAt w 0 3))
      else .error .reservedBits
  | 9 => if bitsAt w 3 1 = 0 ∧ bitsAt w 10 4 = 0
      then .ok (.cvtF32E5m2 (fieldAt w 20 6) (fieldAt w 14 6) (fieldAt w 8 2) (fieldAt w 0 3))
      else .error .reservedBits
  | 10 => if bitsAt w 3 1 = 0 ∧ bitsAt w 10 4 = 0
      then .ok (.cvtE4m3F32 (fieldAt w 20 6) (fieldAt w 14 6) (fieldAt w 8 2) (fieldAt w 0 3))
      else .error .reservedBits
  | 11 => if bitsAt w 3 1 = 0 ∧ bitsAt w 10 4 = 0
      then .ok (.cvtE5m2F32 (fieldAt w 20 6) (fieldAt w 14 6) (fieldAt w 8 2) (fieldAt w 0 3))
      else .error .reservedBits
  | 12 => if bitsAt w 3 1 = 0 ∧ bitsAt w 11 3 = 0
      then .ok (.cvtF32E2m1 (fieldAt w 20 6) (fieldAt w 14 6) (fieldAt w 8 3) (fieldAt w 0 3))
      else .error .reservedBits
  | 13 => if bitsAt w 3 1 = 0 ∧ bitsAt w 11 3 = 0
      then .ok (.cvtE2m1F32 (fieldAt w 20 6) (fieldAt w 14 6) (fieldAt w 8 3) (fieldAt w 0 3))
      else .error .reservedBits
  | 14 => if bitsAt w 3 1 = 0 ∧ bitsAt w 10 4 = 0
      then .ok (.cvtS8F32 (fieldAt w 20 6) (fieldAt w 14 6) (fieldAt w 8 2) (fieldAt w 0 3))
      else .error .reservedBits
  | 15 => if bitsAt w 3 1 = 0 ∧ bitsAt w 11 3 = 0
      then .ok (.cvtS4F32 (fieldAt w 20 6) (fieldAt w 14 6) (fieldAt w 8 3) (fieldAt w 0 3))
      else .error .reservedBits
  | _ => .error .unusedMember

/-- Major 0x10 (R50, R51). -/
def decodeFcmp (w : Nat) : Except DecodeError Instr :=
  match bitsAt w 4 4 with
  | 0 => if bitsAt w 3 1 = 0 ∧ bitsAt w 23 3 = 0
      then .ok (.feq (fieldAt w 20 3) (fieldAt w 14 6) (fieldAt w 8 6) (fieldAt w 0 3))
      else .error .reservedBits
  | 1 => if bitsAt w 3 1 = 0 ∧ bitsAt w 23 3 = 0
      then .ok (.fne (fieldAt w 20 3) (fieldAt w 14 6) (fieldAt w 8 6) (fieldAt w 0 3))
      else .error .reservedBits
  | 2 => if bitsAt w 3 1 = 0 ∧ bitsAt w 23 3 = 0
      then .ok (.flt (fieldAt w 20 3) (fieldAt w 14 6) (fieldAt w 8 6) (fieldAt w 0 3))
      else .error .reservedBits
  | 3 => if bitsAt w 3 1 = 0 ∧ bitsAt w 23 3 = 0
      then .ok (.fle (fieldAt w 20 3) (fieldAt w 14 6) (fieldAt w 8 6) (fieldAt w 0 3))
      else .error .reservedBits
  | 4 => if bitsAt w 3 1 = 0 ∧ bitsAt w 23 3 = 0
      then .ok (.fgt (fieldAt w 20 3) (fieldAt w 14 6) (fieldAt w 8 6) (fieldAt w 0 3))
      else .error .reservedBits
  | 5 => if bitsAt w 3 1 = 0 ∧ bitsAt w 23 3 = 0
      then .ok (.fge (fieldAt w 20 3) (fieldAt w 14 6) (fieldAt w 8 6) (fieldAt w 0 3))
      else .error .reservedBits
  | 6 => if bitsAt w 3 1 = 0 ∧ bitsAt w 23 3 = 0
      then .ok (.funord (fieldAt w 20 3) (fieldAt w 14 6) (fieldAt w 8 6) (fieldAt w 0 3))
      else .error .reservedBits
  | 7 => if bitsAt w 3 1 = 0 ∧ bitsAt w 23 3 = 0
      then .ok (.ford (fieldAt w 20 3) (fieldAt w 14 6) (fieldAt w 8 6) (fieldAt w 0 3))
      else .error .reservedBits
  | 8 => if bitsAt w 3 1 = 0 ∧ bitsAt w 8 6 = 0
      then .ok (.fclass (fieldAt w 20 6) (fieldAt w 14 6) (fieldAt w 0 3))
      else .error .reservedBits
  | _ => .error .unusedMember

/-- Major 0x11 (R50, R51). -/
def decodeNdot (w : Nat) : Except DecodeError Instr :=
  match bitsAt w 4 4 with
  | 0 => if bitsAt w 3 1 = 0
      then .ok (.dotS8x4 (fieldAt w 20 6) (fieldAt w 14 6) (fieldAt w 8 6) (fieldAt w 0 3))
      else .error .reservedBits
  | 1 => if bitsAt w 3 1 = 0
      then .ok (.dotN8x4 (fieldAt w 20 6) (fieldAt w 14 6) (fieldAt w 8 6) (fieldAt w 0 3))
      else .error .reservedBits
  | 2 => if bitsAt w 3 1 = 0
      then .ok (.dotS4x8 (fieldAt w 20 6) (fieldAt w 14 6) (fieldAt w 8 6) (fieldAt w 0 3))
      else .error .reservedBits
  | 3 => if bitsAt w 3 1 = 0
      then .ok (.dotN4x8 (fieldAt w 20 6) (fieldAt w 14 6) (fieldAt w 8 6) (fieldAt w 0 3))
      else .error .reservedBits
  | 4 => if bitsAt w 3 1 = 0
      then .ok (.dotE4m3x4 (fieldAt w 20 6) (fieldAt w 14 6) (fieldAt w 8 6) (fieldAt w 0 3))
      else .error .reservedBits
  | 5 => if bitsAt w 3 1 = 0
      then .ok (.dotE5m2x4 (fieldAt w 20 6) (fieldAt w 14 6) (fieldAt w 8 6) (fieldAt w 0 3))
      else .error .reservedBits
  | 6 => if bitsAt w 3 1 = 0
      then .ok (.dotE2m1x8 (fieldAt w 20 6) (fieldAt w 14 6) (fieldAt w 8 6) (fieldAt w 0 3))
      else .error .reservedBits
  | 8 => if bitsAt w 3 1 = 0
      then .ok (.scl (fieldAt w 20 6) (fieldAt w 14 6) (fieldAt w 8 6) (fieldAt w 4 2) (fieldAt w 0 3))
      else .error .reservedBits
  | 9 => if bitsAt w 3 1 = 0
      then .ok (.scl (fieldAt w 20 6) (fieldAt w 14 6) (fieldAt w 8 6) (fieldAt w 4 2) (fieldAt w 0 3))
      else .error .reservedBits
  | 10 => if bitsAt w 3 1 = 0
      then .ok (.scl (fieldAt w 20 6) (fieldAt w 14 6) (fieldAt w 8 6) (fieldAt w 4 2) (fieldAt w 0 3))
      else .error .reservedBits
  | 11 => if bitsAt w 3 1 = 0
      then .ok (.scl (fieldAt w 20 6) (fieldAt w 14 6) (fieldAt w 8 6) (fieldAt w 4 2) (fieldAt w 0 3))
      else .error .reservedBits
  | 12 => if bitsAt w 3 1 = 0
      then .ok (.scladd (fieldAt w 20 6) (fieldAt w 14 6) (fieldAt w 8 6) (fieldAt w 4 2) (fieldAt w 0 3))
      else .error .reservedBits
  | 13 => if bitsAt w 3 1 = 0
      then .ok (.scladd (fieldAt w 20 6) (fieldAt w 14 6) (fieldAt w 8 6) (fieldAt w 4 2) (fieldAt w 0 3))
      else .error .reservedBits
  | 14 => if bitsAt w 3 1 = 0
      then .ok (.scladd (fieldAt w 20 6) (fieldAt w 14 6) (fieldAt w 8 6) (fieldAt w 4 2) (fieldAt w 0 3))
      else .error .reservedBits
  | 15 => if bitsAt w 3 1 = 0
      then .ok (.scladd (fieldAt w 20 6) (fieldAt w 14 6) (fieldAt w 8 6) (fieldAt w 4 2) (fieldAt w 0 3))
      else .error .reservedBits
  | _ => .error .unusedMember

/-- Major 0x12 (R50, R51). -/
def decodeCmpn (w : Nat) : Except DecodeError Instr :=
  match bitsAt w 4 4 with
  | 0 => if bitsAt w 3 1 = 0
      then .ok (.ftwosum (fieldAt w 20 6) (fieldAt w 14 6) (fieldAt w 8 6) (fieldAt w 0 3))
      else .error .reservedBits
  | 1 => if bitsAt w 3 1 = 0
      then .ok (.ftwoprod (fieldAt w 20 6) (fieldAt w 14 6) (fieldAt w 8 6) (fieldAt w 0 3))
      else .error .reservedBits
  | 2 => if bitsAt w 3 1 = 0 ∧ bitsAt w 8 6 = 0
      then .ok (.faddPair (fieldAt w 20 6) (fieldAt w 14 6) (fieldAt w 0 3))
      else .error .reservedBits
  | _ => .error .unusedMember

/-- Major 0x13 (R50, R51). -/
def decodeXlane (w : Nat) : Except DecodeError Instr :=
  match bitsAt w 4 4 with
  | 0 => if bitsAt w 3 1 = 0
      then .ok (.shflIdx (fieldAt w 20 6) (fieldAt w 14 6) (fieldAt w 8 6) (fieldAt w 0 3))
      else .error .reservedBits
  | 1 => if bitsAt w 3 1 = 0
      then .ok (.shflUp (fieldAt w 20 6) (fieldAt w 14 6) (fieldAt w 8 6) (fieldAt w 0 3))
      else .error .reservedBits
  | 2 => if bitsAt w 3 1 = 0
      then .ok (.shflDn (fieldAt w 20 6) (fieldAt w 14 6) (fieldAt w 8 6) (fieldAt w 0 3))
      else .error .reservedBits
  | 3 => if bitsAt w 3 1 = 0
      then .ok (.shflXor (fieldAt w 20 6) (fieldAt w 14 6) (fieldAt w 8 6) (fieldAt w 0 3))
      else .error .reservedBits
  | 4 => if bitsAt w 3 1 = 0 ∧ bitsAt w 8 6 = 0
      then .ok (.bcast (fieldAt w 20 6) (fieldAt w 14 6) (fieldAt w 0 3))
      else .error .reservedBits
  | 5 => if bitsAt w 3 1 = 0 ∧ bitsAt w 8 6 = 0 ∧ bitsAt w 17 3 = 0 ∧ bitsAt w 23 3 = 0
      then .ok (.voteAny (fieldAt w 20 3) (fieldAt w 14 3) (fieldAt w 0 3))
      else .error .reservedBits
  | 6 => if bitsAt w 3 1 = 0 ∧ bitsAt w 8 6 = 0 ∧ bitsAt w 17 3 = 0 ∧ bitsAt w 23 3 = 0
      then .ok (.voteAll (fieldAt w 20 3) (fieldAt w 14 3) (fieldAt w 0 3))
      else .error .reservedBits
  | 7 => if bitsAt w 3 1 = 0 ∧ bitsAt w 8 6 = 0 ∧ bitsAt w 17 3 = 0
      then .ok (.voteBallot (fieldAt w 20 6) (fieldAt w 14 3) (fieldAt w 0 3))
      else .error .reservedBits
  | 8 => if bitsAt w 3 1 = 0 ∧ bitsAt w 8 6 = 0
      then .ok (.matchLanes (fieldAt w 20 6) (fieldAt w 14 6) (fieldAt w 0 3))
      else .error .reservedBits
  | 9 => if bitsAt w 3 1 = 0 ∧ bitsAt w 8 6 = 0
      then .ok (.redAddS32 (fieldAt w 20 6) (fieldAt w 14 6) (fieldAt w 0 3))
      else .error .reservedBits
  | 10 => if bitsAt w 3 1 = 0 ∧ bitsAt w 8 6 = 0
      then .ok (.redAddF32 (fieldAt w 20 6) (fieldAt w 14 6) (fieldAt w 0 3))
      else .error .reservedBits
  | 11 => if bitsAt w 3 1 = 0 ∧ bitsAt w 8 6 = 0
      then .ok (.redMin (fieldAt w 20 6) (fieldAt w 14 6) (fieldAt w 0 3))
      else .error .reservedBits
  | 12 => if bitsAt w 3 1 = 0 ∧ bitsAt w 8 6 = 0
      then .ok (.redMax (fieldAt w 20 6) (fieldAt w 14 6) (fieldAt w 0 3))
      else .error .reservedBits
  | 13 => if bitsAt w 3 1 = 0 ∧ bitsAt w 8 6 = 0
      then .ok (.prefixSum (fieldAt w 20 6) (fieldAt w 14 6) (fieldAt w 0 3))
      else .error .reservedBits
  | _ => .error .unusedMember

/-- Major 0x14 (R50, R51). -/
noncomputable def decodeIdx (w : Nat) : Except DecodeError Instr :=
  match bitsAt w 4 4 with
  | 0 => if bitsAt w 3 1 = 0 ∧ bitsAt w 8 6 = 0 ∧ bitsAt w 22 4 = 0
      then .ok (.xset (fieldAt w 20 2) (fieldAt w 14 6) (fieldAt w 0 3))
      else .error .reservedBits
  | 1 => if bitsAt w 3 1 = 0 ∧ bitsAt w 14 6 = 0 ∧ bitsAt w 22 4 = 0
      then .ok (.xadd (fieldAt w 20 2) (fieldAt w 8 6) (fieldAt w 0 3))
      else .error .reservedBits
  | 2 => if bitsAt w 3 1 = 0 ∧ bitsAt w 16 2 = 0
      then .ok (.ldv (fieldAt w 20 6) (fieldAt w 18 2) (fieldAt w 14 2) (fieldAt w 8 6) (fieldAt w 0 3))
      else .error .reservedBits
  | 3 => if bitsAt w 3 1 = 0 ∧ bitsAt w 16 2 = 0
      then .ok (.stv (fieldAt w 20 6) (fieldAt w 18 2) (fieldAt w 14 2) (fieldAt w 8 6) (fieldAt w 0 3))
      else .error .reservedBits
  | 4 => if bitsAt w 3 1 = 0 ∧ bitsAt w 8 6 = 0 ∧ bitsAt w 22 4 = 0
      then .ok (.xlim (fieldAt w 20 2) (fieldAt w 14 6) (fieldAt w 0 3))
      else .error .reservedBits
  | _ => .error .unusedMember

/-- Major 0x15 (R50, R51). -/
noncomputable def decodeLd (w : Nat) : Except DecodeError Instr :=
  match bitsAt w 4 3 with
  | 0 => .ok (.ldS8 (fieldAt w 20 6) (fieldAt w 14 6) (fieldAt w 7 7) (fieldAt w 3 1) (fieldAt w 0 3))
  | 1 => .ok (.ldN8 (fieldAt w 20 6) (fieldAt w 14 6) (fieldAt w 7 7) (fieldAt w 3 1) (fieldAt w 0 3))
  | 2 => .ok (.ldS16 (fieldAt w 20 6) (fieldAt w 14 6) (fieldAt w 7 7) (fieldAt w 3 1) (fieldAt w 0 3))
  | 3 => .ok (.ldN16 (fieldAt w 20 6) (fieldAt w 14 6) (fieldAt w 7 7) (fieldAt w 3 1) (fieldAt w 0 3))
  | 4 => .ok (.ldB32 (fieldAt w 20 6) (fieldAt w 14 6) (fieldAt w 7 7) (fieldAt w 3 1) (fieldAt w 0 3))
  | 5 => .ok (.ldB64 (fieldAt w 20 6) (fieldAt w 14 6) (fieldAt w 7 7) (fieldAt w 3 1) (fieldAt w 0 3))
  | 6 => .ok (.ldB128 (fieldAt w 20 6) (fieldAt w 14 6) (fieldAt w 7 7) (fieldAt w 3 1) (fieldAt w 0 3))
  | _ => .error .unusedMember

/-- Major 0x16 (R50, R51). -/
noncomputable def decodeSt (w : Nat) : Except DecodeError Instr :=
  match bitsAt w 4 3 with
  | 0 => .ok (.stB8 (fieldAt w 20 6) (fieldAt w 14 6) (fieldAt w 7 7) (fieldAt w 3 1) (fieldAt w 0 3))
  | 2 => .ok (.stB16 (fieldAt w 20 6) (fieldAt w 14 6) (fieldAt w 7 7) (fieldAt w 3 1) (fieldAt w 0 3))
  | 4 => .ok (.stB32 (fieldAt w 20 6) (fieldAt w 14 6) (fieldAt w 7 7) (fieldAt w 3 1) (fieldAt w 0 3))
  | 5 => .ok (.stB64 (fieldAt w 20 6) (fieldAt w 14 6) (fieldAt w 7 7) (fieldAt w 3 1) (fieldAt w 0 3))
  | 6 => .ok (.stB128 (fieldAt w 20 6) (fieldAt w 14 6) (fieldAt w 7 7) (fieldAt w 3 1) (fieldAt w 0 3))
  | _ => .error .unusedMember

/-- Major 0x17 (R50, R51). -/
noncomputable def decodeOrd (w : Nat) : Except DecodeError Instr :=
  match bitsAt w 4 3 with
  | 0 => if bitsAt w 10 4 = 0
      then .ok (.ldaB32 (fieldAt w 20 6) (fieldAt w 14 6) (fieldAt w 7 3) (fieldAt w 3 1) (fieldAt w 0 3))
      else .error .reservedBits
  | 1 => if bitsAt w 10 4 = 0
      then .ok (.ldaB64 (fieldAt w 20 6) (fieldAt w 14 6) (fieldAt w 7 3) (fieldAt w 3 1) (fieldAt w 0 3))
      else .error .reservedBits
  | 2 => if bitsAt w 10 4 = 0
      then .ok (.stlB32 (fieldAt w 20 6) (fieldAt w 14 6) (fieldAt w 7 3) (fieldAt w 3 1) (fieldAt w 0 3))
      else .error .reservedBits
  | 3 => if bitsAt w 10 4 = 0
      then .ok (.stlB64 (fieldAt w 20 6) (fieldAt w 14 6) (fieldAt w 7 3) (fieldAt w 3 1) (fieldAt w 0 3))
      else .error .reservedBits
  | _ => .error .unusedMember

/-- Major 0x18 (R50, R51). -/
noncomputable def decodeAtom (w : Nat) : Except DecodeError Instr :=
  match bitsAt w 4 4 with
  | 0 => .ok (.atomAddS32 (fieldAt w 20 6) (fieldAt w 14 6) (fieldAt w 8 6) (fieldAt w 3 1) (fieldAt w 0 3))
  | 1 => .ok (.atomAddF32 (fieldAt w 20 6) (fieldAt w 14 6) (fieldAt w 8 6) (fieldAt w 3 1) (fieldAt w 0 3))
  | 2 => .ok (.atomMinS (fieldAt w 20 6) (fieldAt w 14 6) (fieldAt w 8 6) (fieldAt w 3 1) (fieldAt w 0 3))
  | 3 => .ok (.atomMaxS (fieldAt w 20 6) (fieldAt w 14 6) (fieldAt w 8 6) (fieldAt w 3 1) (fieldAt w 0 3))
  | 4 => .ok (.atomMinN (fieldAt w 20 6) (fieldAt w 14 6) (fieldAt w 8 6) (fieldAt w 3 1) (fieldAt w 0 3))
  | 5 => .ok (.atomMaxN (fieldAt w 20 6) (fieldAt w 14 6) (fieldAt w 8 6) (fieldAt w 3 1) (fieldAt w 0 3))
  | 6 => .ok (.atomAnd (fieldAt w 20 6) (fieldAt w 14 6) (fieldAt w 8 6) (fieldAt w 3 1) (fieldAt w 0 3))
  | 7 => .ok (.atomOr (fieldAt w 20 6) (fieldAt w 14 6) (fieldAt w 8 6) (fieldAt w 3 1) (fieldAt w 0 3))
  | 8 => .ok (.atomXor (fieldAt w 20 6) (fieldAt w 14 6) (fieldAt w 8 6) (fieldAt w 3 1) (fieldAt w 0 3))
  | 9 => .ok (.atomExch (fieldAt w 20 6) (fieldAt w 14 6) (fieldAt w 8 6) (fieldAt w 3 1) (fieldAt w 0 3))
  | 10 => .ok (.atomCas (fieldAt w 20 6) (fieldAt w 14 6) (fieldAt w 8 6) (fieldAt w 3 1) (fieldAt w 0 3))
  | 11 => .ok (.atomAddS64 (fieldAt w 20 6) (fieldAt w 14 6) (fieldAt w 8 6) (fieldAt w 3 1) (fieldAt w 0 3))
  | 12 => .ok (.atomExchB64 (fieldAt w 20 6) (fieldAt w 14 6) (fieldAt w 8 6) (fieldAt w 3 1) (fieldAt w 0 3))
  | 13 => .ok (.atomCasB64 (fieldAt w 20 6) (fieldAt w 14 6) (fieldAt w 8 6) (fieldAt w 3 1) (fieldAt w 0 3))
  | _ => .error .unusedMember

/-- Major 0x19 (R50, R51). -/
noncomputable def decodeLrsc (w : Nat) : Except DecodeError Instr :=
  match bitsAt w 4 4 with
  | 0 => if bitsAt w 8 6 = 0
      then .ok (.lrB32 (fieldAt w 20 6) (fieldAt w 14 6) (fieldAt w 3 1) (fieldAt w 0 3))
      else .error .reservedBits
  | 1 => if bitsAt w 23 3 = 0
      then .ok (.scB32 (fieldAt w 20 3) (fieldAt w 14 6) (fieldAt w 8 6) (fieldAt w 3 1) (fieldAt w 0 3))
      else .error .reservedBits
  | 2 => if bitsAt w 8 6 = 0
      then .ok (.lrB64 (fieldAt w 20 6) (fieldAt w 14 6) (fieldAt w 3 1) (fieldAt w 0 3))
      else .error .reservedBits
  | 3 => if bitsAt w 23 3 = 0
      then .ok (.scB64 (fieldAt w 20 3) (fieldAt w 14 6) (fieldAt w 8 6) (fieldAt w 3 1) (fieldAt w 0 3))
      else .error .reservedBits
  | 4 => if bitsAt w 3 1 = 0 ∧ bitsAt w 8 18 = 0
      then .ok (.clrres (fieldAt w 0 3))
      else .error .reservedBits
  | _ => .error .unusedMember

/-- Major 0x1A (R50, R51). -/
noncomputable def decodeFence (w : Nat) : Except DecodeError Instr :=
  match bitsAt w 4 4 with
  | 0 => if bitsAt w 3 1 = 0 ∧ bitsAt w 8 6 = 0 ∧ bitsAt w 17 9 = 0
      then .ok (.fenceAcq (fieldAt w 14 3) (fieldAt w 0 3))
      else .error .reservedBits
  | 1 => if bitsAt w 3 1 = 0 ∧ bitsAt w 8 6 = 0 ∧ bitsAt w 17 9 = 0
      then .ok (.fenceRel (fieldAt w 14 3) (fieldAt w 0 3))
      else .error .reservedBits
  | 2 => if bitsAt w 3 1 = 0 ∧ bitsAt w 8 6 = 0 ∧ bitsAt w 17 9 = 0
      then .ok (.fenceAr (fieldAt w 14 3) (fieldAt w 0 3))
      else .error .reservedBits
  | _ => .error .unusedMember

/-- Major 0x1B (R50, R51). -/
noncomputable def decodeBr (w : Nat) : Except DecodeError Instr :=
  .ok (.br (fieldAt w 3 23) (fieldAt w 0 3))

/-- Major 0x1C (R50, R51). -/
noncomputable def decodeCall (w : Nat) : Except DecodeError Instr :=
  match bitsAt w 24 2 with
  | 0 => .ok (.call (fieldAt w 18 6) (fieldAt w 3 15) (fieldAt w 0 3))
  | 1 => if bitsAt w 3 9 = 0
      then .ok (.callr (fieldAt w 18 6) (fieldAt w 12 6) (fieldAt w 0 3))
      else .error .reservedBits
  | 2 => if bitsAt w 3 9 = 0 ∧ bitsAt w 18 6 = 0
      then .ok (.ret (fieldAt w 12 6) (fieldAt w 0 3))
      else .error .reservedBits
  | 3 => if bitsAt w 3 9 = 0 ∧ bitsAt w 18 6 = 0
      then .ok (.jmpr (fieldAt w 12 6) (fieldAt w 0 3))
      else .error .reservedBits
  | _ => .error .unusedMember

/-- Major 0x1D (R50, R51). -/
noncomputable def decodeFlow (w : Nat) : Except DecodeError Instr :=
  match bitsAt w 4 4 with
  | 0 => if bitsAt w 3 1 = 0 ∧ bitsAt w 12 14 = 0
      then .ok (.jset (fieldAt w 8 4) (fieldAt w 0 3))
      else .error .reservedBits
  | 1 => if bitsAt w 3 1 = 0 ∧ bitsAt w 12 14 = 0
      then .ok (.jadd (fieldAt w 8 4) (fieldAt w 0 3))
      else .error .reservedBits
  | 2 => if bitsAt w 3 1 = 0 ∧ bitsAt w 12 14 = 0
      then .ok (.waitRejoin (fieldAt w 8 4) (fieldAt w 0 3))
      else .error .reservedBits
  | 3 => if bitsAt w 3 1 = 0 ∧ bitsAt w 8 2 = 0
      then .ok (.leave (fieldAt w 10 16) (fieldAt w 0 3))
      else .error .reservedBits
  | 4 => if bitsAt w 3 1 = 0 ∧ bitsAt w 8 18 = 0
      then .ok (.exit (fieldAt w 0 3))
      else .error .reservedBits
  | 5 => if bitsAt w 3 1 = 0 ∧ bitsAt w 8 18 = 0
      then .ok (.tail (fieldAt w 0 3))
      else .error .reservedBits
  | 6 => if bitsAt w 3 1 = 0 ∧ bitsAt w 8 18 = 0
      then .ok (.yield (fieldAt w 0 3))
      else .error .reservedBits
  | 7 => if bitsAt w 3 1 = 0 ∧ bitsAt w 12 8 = 0
      then .ok (.jget (fieldAt w 20 6) (fieldAt w 8 4) (fieldAt w 0 3))
      else .error .reservedBits
  | _ => .error .unusedMember

/-- Major 0x1E (R50, R51). -/
noncomputable def decodeHint (w : Nat) : Except DecodeError Instr :=
  match bitsAt w 24 2 with
  | 0 => .ok (.hintImm (fieldAt w 0 24))
  | 1 => if bitsAt w 0 1 = 0 ∧ bitsAt w 17 7 = 0
      then .ok (.hintMod (fieldAt w 16 1) (fieldAt w 14 2) (fieldAt w 13 1) (fieldAt w 11 2) (fieldAt w 10 1) (fieldAt w 9 1) (fieldAt w 8 1) (fieldAt w 5 3) (fieldAt w 4 1) (fieldAt w 2 2) (fieldAt w 1 1))
      else .error .reservedBits
  | 2 => if bitsAt w 9 15 = 0
      then .ok (.hintSched (fieldAt w 8 1) (fieldAt w 0 8))
      else .error .reservedBits
  | _ => .error .unusedMember

/-- Major 0x1F (R50, R51). -/
noncomputable def decodeWait (w : Nat) : Except DecodeError Instr :=
  match bitsAt w 0 2 with
  | 0 => .ok (.wait (fieldAt w 20 6) (fieldAt w 14 6) (fieldAt w 8 6) (fieldAt w 2 6))
  | 1 => if bitsAt w 2 18 = 0
      then .ok (.waitr (fieldAt w 20 6))
      else .error .reservedBits
  | _ => .error .unusedMember

/-- Major 0x20 (R50, R51). -/
noncomputable def decodeSys (w : Nat) : Except DecodeError Instr :=
  match bitsAt w 11 3 with
  | 0 => if bitsAt w 14 12 = 0
      then .ok (.trap (fieldAt w 3 8) (fieldAt w 0 3))
      else .error .reservedBits
  | 1 => if bitsAt w 4 7 = 0 ∧ bitsAt w 14 12 = 0
      then .ok (.eret (fieldAt w 3 1) (fieldAt w 0 3))
      else .error .reservedBits
  | 2 => if bitsAt w 14 12 = 0
      then .ok (.brk (fieldAt w 3 8) (fieldAt w 0 3))
      else .error .reservedBits
  | 3 => if bitsAt w 3 8 = 0 ∧ bitsAt w 14 12 = 0
      then .ok (.halt (fieldAt w 0 3))
      else .error .reservedBits
  | 4 => if bitsAt w 14 6 = 0
      then .ok (.csrr (fieldAt w 20 6) (fieldAt w 3 8) (fieldAt w 0 3))
      else .error .reservedBits
  | 5 => if bitsAt w 20 6 = 0
      then .ok (.csrw (fieldAt w 14 6) (fieldAt w 3 8) (fieldAt w 0 3))
      else .error .reservedBits
  | _ => .error .unusedMember

/-- Major 0x21 (R50, R51). -/
noncomputable def decodeSreg (w : Nat) : Except DecodeError Instr :=
  if bitsAt w 13 7 = 0
      then .ok (.sreg (fieldAt w 20 6) (fieldAt w 3 10) (fieldAt w 0 3))
      else .error .reservedBits

/-- Major 0x22 (R50, R51). -/
noncomputable def decodeQop (w : Nat) : Except DecodeError Instr :=
  match bitsAt w 4 8 with
  | 0 => if bitsAt w 3 1 = 0
      then .ok (.qpush (fieldAt w 20 6) (fieldAt w 16 4) (fieldAt w 13 3) (fieldAt w 12 1) (fieldAt w 0 3))
      else .error .reservedBits
  | 1 => if bitsAt w 3 1 = 0
      then .ok (.qpop (fieldAt w 20 6) (fieldAt w 16 4) (fieldAt w 13 3) (fieldAt w 12 1) (fieldAt w 0 3))
      else .error .reservedBits
  | _ => .error .unusedMember

/-- Major 0x23 (R50, R51). -/
noncomputable def decodeQctl (w : Nat) : Except DecodeError Instr :=
  match bitsAt w 8 4 with
  | 0 => if bitsAt w 3 1 = 0 ∧ bitsAt w 12 4 = 0
      then .ok (.qbind (fieldAt w 20 6) (fieldAt w 16 4) (fieldAt w 4 4) (fieldAt w 0 3))
      else .error .reservedBits
  | 1 => if bitsAt w 3 5 = 0 ∧ bitsAt w 12 4 = 0
      then .ok (.qstat (fieldAt w 20 6) (fieldAt w 16 4) (fieldAt w 0 3))
      else .error .reservedBits
  | 2 => if bitsAt w 3 5 = 0 ∧ bitsAt w 12 4 = 0 ∧ bitsAt w 20 6 = 0
      then .ok (.qflush (fieldAt w 16 4) (fieldAt w 0 3))
      else .error .reservedBits
  | _ => .error .unusedMember

/-- Major 0x24 (R50, R51). -/
noncomputable def decodeConv (w : Nat) : Except DecodeError Instr :=
  match bitsAt w 4 4 with
  | 0 => if bitsAt w 3 1 = 0 ∧ bitsAt w 10 4 = 0 ∧ bitsAt w 19 1 = 0 ∧ bitsAt w 23 3 = 0
      then .ok (.cset (fieldAt w 20 3) (fieldAt w 14 5) (fieldAt w 8 2) (fieldAt w 0 3))
      else .error .reservedBits
  | 1 => if bitsAt w 3 1 = 0 ∧ bitsAt w 8 12 = 0 ∧ bitsAt w 23 3 = 0
      then .ok (.csign (fieldAt w 20 3) (fieldAt w 0 3))
      else .error .reservedBits
  | 2 => if bitsAt w 3 1 = 0 ∧ bitsAt w 11 9 = 0
      then .ok (.cchk (fieldAt w 20 6) (fieldAt w 8 3) (fieldAt w 0 3))
      else .error .reservedBits
  | _ => .error .unusedMember

/-- Major 0x25 (R50, R51). -/
noncomputable def decodeBar (w : Nat) : Except DecodeError Instr :=
  match bitsAt w 4 4 with
  | 0 => if bitsAt w 3 1 = 0 ∧ bitsAt w 8 18 = 0
      then .ok (.barL (fieldAt w 0 3))
      else .error .reservedBits
  | 1 => if bitsAt w 3 1 = 0 ∧ bitsAt w 8 18 = 0
      then .ok (.barS (fieldAt w 0 3))
      else .error .reservedBits
  | 2 => if bitsAt w 3 1 = 0 ∧ bitsAt w 9 17 = 0
      then .ok (.arrive (fieldAt w 8 1) (fieldAt w 0 3))
      else .error .reservedBits
  | 3 => if bitsAt w 3 1 = 0 ∧ bitsAt w 9 17 = 0
      then .ok (.await (fieldAt w 8 1) (fieldAt w 0 3))
      else .error .reservedBits
  | 4 => if bitsAt w 3 1 = 0 ∧ bitsAt w 8 18 = 0
      then .ok (.barPhase (fieldAt w 0 3))
      else .error .reservedBits
  | _ => .error .unusedMember

/-- Major 0x26 (R50, R51). -/
noncomputable def decodeMma (w : Nat) : Except DecodeError Instr :=
  match bitsAt w 7 2 with
  | 0 => if bitsAt w 3 4 = 0
      then .ok (.mma (fieldAt w 19 7) (fieldAt w 17 2) (fieldAt w 13 4) (fieldAt w 10 3) (fieldAt w 9 1) (fieldAt w 0 3))
      else .error .reservedBits
  | 1 => if bitsAt w 3 4 = 0
      then .ok (.mmaBs (fieldAt w 19 7) (fieldAt w 17 2) (fieldAt w 13 4) (fieldAt w 10 3) (fieldAt w 9 1) (fieldAt w 0 3))
      else .error .reservedBits
  | 2 => if bitsAt w 3 4 = 0
      then .ok (.mmaZ (fieldAt w 19 7) (fieldAt w 17 2) (fieldAt w 13 4) (fieldAt w 10 3) (fieldAt w 9 1) (fieldAt w 0 3))
      else .error .reservedBits
  | _ => .error .unusedMember

/-- Major 0x27 (R50, R51). -/
noncomputable def decodeAcc (w : Nat) : Except DecodeError Instr :=
  match bitsAt w 4 3 with
  | 0 => if bitsAt w 3 1 = 0 ∧ bitsAt w 7 12 = 0
      then .ok (.accZero (fieldAt w 19 7) (fieldAt w 0 3))
      else .error .reservedBits
  | 1 => if bitsAt w 3 1 = 0 ∧ bitsAt w 7 6 = 0
      then .ok (.accLd (fieldAt w 19 7) (fieldAt w 13 6) (fieldAt w 0 3))
      else .error .reservedBits
  | 2 => if bitsAt w 3 1 = 0
      then .ok (.accSt (fieldAt w 19 7) (fieldAt w 13 6) (fieldAt w 7 6) (fieldAt w 0 3))
      else .error .reservedBits
  | 3 => if bitsAt w 3 1 = 0
      then .ok (.accRd (fieldAt w 19 7) (fieldAt w 13 6) (fieldAt w 7 6) (fieldAt w 0 3))
      else .error .reservedBits
  | 4 => if bitsAt w 3 1 = 0 ∧ bitsAt w 7 6 = 0 ∧ bitsAt w 19 7 = 0
      then .ok (.accTab (fieldAt w 13 6) (fieldAt w 0 3))
      else .error .reservedBits
  | _ => .error .unusedMember

/-- Major 0x28 (R50, R51). -/
noncomputable def decodeTrec (w : Nat) : Except DecodeError Instr :=
  match bitsAt w 4 4 with
  | 0 => if bitsAt w 3 1 = 0 ∧ bitsAt w 8 6 = 0
      then .ok (.trecMk (fieldAt w 20 6) (fieldAt w 14 6) (fieldAt w 0 3))
      else .error .reservedBits
  | 1 => if bitsAt w 3 1 = 0 ∧ bitsAt w 8 6 = 0
      then .ok (.trecChk (fieldAt w 20 6) (fieldAt w 14 6) (fieldAt w 0 3))
      else .error .reservedBits
  | 2 => if bitsAt w 3 1 = 0
      then .ok (.trecStep (fieldAt w 20 6) (fieldAt w 14 6) (fieldAt w 8 6) (fieldAt w 0 3))
      else .error .reservedBits
  | _ => .error .unusedMember

/-- Major 0x29 (R50, R51). -/
noncomputable def decodeCopy (w : Nat) : Except DecodeError Instr :=
  match bitsAt w 4 4 with
  | 0 => if bitsAt w 3 1 = 0 ∧ bitsAt w 13 1 = 0 ∧ bitsAt w 20 6 = 0
      then .ok (.cp (fieldAt w 14 6) (fieldAt w 12 1) (fieldAt w 8 4) (fieldAt w 0 3))
      else .error .reservedBits
  | 1 => if bitsAt w 13 1 = 1 then
      if bitsAt w 3 1 = 0
      then .ok (.cpGatherR (fieldAt w 20 6) (fieldAt w 14 6) (fieldAt w 12 1) (fieldAt w 8 4) (fieldAt w 0 3))
      else .error .reservedBits
    else
      if bitsAt w 3 1 = 0
      then .ok (.cpGather (fieldAt w 20 6) (fieldAt w 14 6) (fieldAt w 12 1) (fieldAt w 8 4) (fieldAt w 0 3))
      else .error .reservedBits
  | 2 => if bitsAt w 3 1 = 0 ∧ bitsAt w 13 1 = 0
      then .ok (.cpScatter (fieldAt w 20 6) (fieldAt w 14 6) (fieldAt w 12 1) (fieldAt w 8 4) (fieldAt w 0 3))
      else .error .reservedBits
  | 3 => if bitsAt w 3 1 = 0 ∧ bitsAt w 13 1 = 0 ∧ bitsAt w 20 6 = 0
      then .ok (.cpFill (fieldAt w 14 6) (fieldAt w 12 1) (fieldAt w 8 4) (fieldAt w 0 3))
      else .error .reservedBits
  | 4 => if bitsAt w 3 1 = 0 ∧ bitsAt w 13 1 = 0 ∧ bitsAt w 20 6 = 0
      then .ok (.cpFlush (fieldAt w 14 6) (fieldAt w 12 1) (fieldAt w 8 4) (fieldAt w 0 3))
      else .error .reservedBits
  | 5 => if bitsAt w 3 1 = 0 ∧ bitsAt w 13 1 = 0 ∧ bitsAt w 20 6 = 0
      then .ok (.cpPref (fieldAt w 14 6) (fieldAt w 12 1) (fieldAt w 8 4) (fieldAt w 0 3))
      else .error .reservedBits
  | _ => .error .unusedMember

/-- Major 0x2A (R50, R51). -/
noncomputable def decodeCla (w : Nat) : Except DecodeError Instr :=
  match bitsAt w 4 8 with
  | 0 => if bitsAt w 3 1 = 0 ∧ bitsAt w 12 4 = 0
      then .ok (.claEval (fieldAt w 20 6) (fieldAt w 16 4) (fieldAt w 0 3))
      else .error .reservedBits
  | 1 => if bitsAt w 3 1 = 0 ∧ bitsAt w 12 4 = 0
      then .ok (.claFeed (fieldAt w 20 6) (fieldAt w 16 4) (fieldAt w 0 3))
      else .error .reservedBits
  | 2 => if bitsAt w 3 1 = 0 ∧ bitsAt w 12 4 = 0
      then .ok (.claVote (fieldAt w 20 6) (fieldAt w 16 4) (fieldAt w 0 3))
      else .error .reservedBits
  | _ => .error .unusedMember

/-- Major 0x2B (R50, R51). -/
noncomputable def decodeClactl (w : Nat) : Except DecodeError Instr :=
  match bitsAt w 4 4 with
  | 0 => if bitsAt w 3 1 = 0 ∧ bitsAt w 9 5 = 0 ∧ bitsAt w 20 6 = 0
      then .ok (.claLd (fieldAt w 14 6) (fieldAt w 8 1) (fieldAt w 0 3))
      else .error .reservedBits
  | 1 => if bitsAt w 3 1 = 0 ∧ bitsAt w 9 5 = 0 ∧ bitsAt w 20 6 = 0
      then .ok (.claSt (fieldAt w 14 6) (fieldAt w 8 1) (fieldAt w 0 3))
      else .error .reservedBits
  | 2 => if bitsAt w 3 1 = 0 ∧ bitsAt w 8 6 = 0 ∧ bitsAt w 20 6 = 0
      then .ok (.claTab (fieldAt w 14 6) (fieldAt w 0 3))
      else .error .reservedBits
  | 3 => if bitsAt w 3 1 = 0 ∧ bitsAt w 8 6 = 0 ∧ bitsAt w 20 6 = 0
      then .ok (.claSeed (fieldAt w 14 6) (fieldAt w 0 3))
      else .error .reservedBits
  | 4 => if bitsAt w 3 1 = 0 ∧ bitsAt w 8 6 = 0 ∧ bitsAt w 20 6 = 0
      then .ok (.claCfg (fieldAt w 14 6) (fieldAt w 0 3))
      else .error .reservedBits
  | 5 => if bitsAt w 3 1 = 0 ∧ bitsAt w 8 12 = 0
      then .ok (.claStat (fieldAt w 20 6) (fieldAt w 0 3))
      else .error .reservedBits
  | _ => .error .unusedMember

/-- Major 0x2C (R50, R51). -/
noncomputable def decodeRedz (w : Nat) : Except DecodeError Instr :=
  match bitsAt w 4 4 with
  | 0 => if bitsAt w 3 1 = 0 ∧ bitsAt w 8 6 = 0 ∧ bitsAt w 22 4 = 0
      then .ok (.redz (fieldAt w 20 2) (fieldAt w 14 6) (fieldAt w 4 3) (fieldAt w 0 3))
      else .error .reservedBits
  | 1 => if bitsAt w 3 1 = 0 ∧ bitsAt w 8 6 = 0 ∧ bitsAt w 22 4 = 0
      then .ok (.redz (fieldAt w 20 2) (fieldAt w 14 6) (fieldAt w 4 3) (fieldAt w 0 3))
      else .error .reservedBits
  | 2 => if bitsAt w 3 1 = 0 ∧ bitsAt w 8 6 = 0 ∧ bitsAt w 22 4 = 0
      then .ok (.redz (fieldAt w 20 2) (fieldAt w 14 6) (fieldAt w 4 3) (fieldAt w 0 3))
      else .error .reservedBits
  | 3 => if bitsAt w 3 1 = 0 ∧ bitsAt w 8 6 = 0 ∧ bitsAt w 22 4 = 0
      then .ok (.redz (fieldAt w 20 2) (fieldAt w 14 6) (fieldAt w 4 3) (fieldAt w 0 3))
      else .error .reservedBits
  | 4 => if bitsAt w 3 1 = 0 ∧ bitsAt w 8 6 = 0 ∧ bitsAt w 22 4 = 0
      then .ok (.redz (fieldAt w 20 2) (fieldAt w 14 6) (fieldAt w 4 3) (fieldAt w 0 3))
      else .error .reservedBits
  | 5 => if bitsAt w 3 1 = 0 ∧ bitsAt w 8 6 = 0 ∧ bitsAt w 22 4 = 0
      then .ok (.redz (fieldAt w 20 2) (fieldAt w 14 6) (fieldAt w 4 3) (fieldAt w 0 3))
      else .error .reservedBits
  | 6 => if bitsAt w 3 1 = 0 ∧ bitsAt w 8 6 = 0 ∧ bitsAt w 22 4 = 0
      then .ok (.redz (fieldAt w 20 2) (fieldAt w 14 6) (fieldAt w 4 3) (fieldAt w 0 3))
      else .error .reservedBits
  | 7 => if bitsAt w 3 1 = 0 ∧ bitsAt w 8 6 = 0 ∧ bitsAt w 22 4 = 0
      then .ok (.redz (fieldAt w 20 2) (fieldAt w 14 6) (fieldAt w 4 3) (fieldAt w 0 3))
      else .error .reservedBits
  | 8 => if bitsAt w 3 1 = 0 ∧ bitsAt w 13 1 = 0
      then .ok (.rdz (fieldAt w 20 6) (fieldAt w 14 6) (fieldAt w 10 3) (fieldAt w 8 2) (fieldAt w 0 3))
      else .error .reservedBits
  | _ => .error .unusedMember

/-- Major 0x2D (R50, R51). -/
noncomputable def decodeHall (w : Nat) : Except DecodeError Instr :=
  match bitsAt w 4 8 with
  | 0 => if bitsAt w 3 1 = 0 ∧ bitsAt w 12 4 = 0
      then .ok (.hst (fieldAt w 20 6) (fieldAt w 16 4) (fieldAt w 0 3))
      else .error .reservedBits
  | 1 => if bitsAt w 3 1 = 0
      then .ok (.hpost (fieldAt w 20 6) (fieldAt w 16 4) (fieldAt w 13 3) (fieldAt w 12 1) (fieldAt w 0 3))
      else .error .reservedBits
  | 2 => if bitsAt w 3 1 = 0
      then .ok (.hqtake (fieldAt w 20 6) (fieldAt w 16 4) (fieldAt w 13 3) (fieldAt w 12 1) (fieldAt w 0 3))
      else .error .reservedBits
  | 3 => if bitsAt w 3 1 = 0 ∧ bitsAt w 12 4 = 0
      then .ok (.hqfree (fieldAt w 20 6) (fieldAt w 16 4) (fieldAt w 0 3))
      else .error .reservedBits
  | 4 => if bitsAt w 3 1 = 0 ∧ bitsAt w 12 4 = 0
      then .ok (.hqstat (fieldAt w 20 6) (fieldAt w 16 4) (fieldAt w 0 3))
      else .error .reservedBits
  | _ => .error .unusedMember

/-- Major 0x2E (R50, R51). -/
noncomputable def decodeNest (w : Nat) : Except DecodeError Instr :=
  match bitsAt w 4 4 with
  | 0 => if bitsAt w 3 1 = 0 ∧ bitsAt w 23 3 = 0
      then .ok (.nbMax (fieldAt w 20 3) (fieldAt w 14 6) (fieldAt w 8 6) (fieldAt w 0 3))
      else .error .reservedBits
  | 1 => if bitsAt w 3 1 = 0 ∧ bitsAt w 20 6 = 0
      then .ok (.nbMaxP (fieldAt w 14 6) (fieldAt w 8 6) (fieldAt w 0 3))
      else .error .reservedBits
  | 2 => if bitsAt w 3 1 = 0
      then .ok (.nGrow (fieldAt w 20 6) (fieldAt w 14 6) (fieldAt w 8 6) (fieldAt w 0 3))
      else .error .reservedBits
  | 3 => if bitsAt w 3 1 = 0 ∧ bitsAt w 23 3 = 0
      then .ok (.nLaunch (fieldAt w 20 3) (fieldAt w 14 6) (fieldAt w 8 6) (fieldAt w 0 3))
      else .error .reservedBits
  | 4 => if bitsAt w 3 1 = 0 ∧ bitsAt w 8 6 = 0 ∧ bitsAt w 20 6 = 0
      then .ok (.nSignal (fieldAt w 14 6) (fieldAt w 0 3))
      else .error .reservedBits
  | 5 => if bitsAt w 3 1 = 0
      then .ok (.nInfo (fieldAt w 20 6) (fieldAt w 14 6) (fieldAt w 8 6) (fieldAt w 0 3))
      else .error .reservedBits
  | _ => .error .unusedMember

/-- Major 0x2F (R50, R51). -/
noncomputable def decodePfc (w : Nat) : Except DecodeError Instr :=
  match bitsAt w 4 4 with
  | 0 => if bitsAt w 3 1 = 0 ∧ bitsAt w 20 3 = 0 ∧ bitsAt w 24 2 = 0
      then .ok (.pfCode (fieldAt w 23 1) (fieldAt w 14 6) (fieldAt w 8 6) (fieldAt w 0 3))
      else .error .reservedBits
  | 1 => if bitsAt w 3 1 = 0 ∧ bitsAt w 24 2 = 0
      then .ok (.pinCode (fieldAt w 23 1) (fieldAt w 20 3) (fieldAt w 14 6) (fieldAt w 8 6) (fieldAt w 0 3))
      else .error .reservedBits
  | 2 => if bitsAt w 3 1 = 0 ∧ bitsAt w 20 3 = 0 ∧ bitsAt w 24 2 = 0
      then .ok (.unpinCode (fieldAt w 23 1) (fieldAt w 14 6) (fieldAt w 8 6) (fieldAt w 0 3))
      else .error .reservedBits
  | _ => .error .unusedMember

/-- Major 0x30 (R50, R51). -/
noncomputable def decodeRing (w : Nat) : Except DecodeError Instr :=
  match bitsAt w 4 8 with
  | 0 => if bitsAt w 3 1 = 0
      then .ok (.ingClaim (fieldAt w 20 6) (fieldAt w 16 4) (fieldAt w 13 3) (fieldAt w 12 1) (fieldAt w 0 3))
      else .error .reservedBits
  | 1 => if bitsAt w 3 1 = 0 ∧ bitsAt w 12 4 = 0
      then .ok (.ingRel (fieldAt w 20 6) (fieldAt w 16 4) (fieldAt w 0 3))
      else .error .reservedBits
  | 2 => if bitsAt w 3 1 = 0 ∧ bitsAt w 12 4 = 0
      then .ok (.ingStat (fieldAt w 20 6) (fieldAt w 16 4) (fieldAt w 0 3))
      else .error .reservedBits
  | 3 => if bitsAt w 3 1 = 0 ∧ bitsAt w 12 4 = 0
      then .ok (.ingGap (fieldAt w 20 6) (fieldAt w 16 4) (fieldAt w 0 3))
      else .error .reservedBits
  | 4 => if bitsAt w 3 1 = 0 ∧ bitsAt w 12 4 = 0
      then .ok (.ingLoss (fieldAt w 20 6) (fieldAt w 16 4) (fieldAt w 0 3))
      else .error .reservedBits
  | _ => .error .unusedMember

/-- Major 0x31 (R50, R51). -/
noncomputable def decodeColl (w : Nat) : Except DecodeError Instr :=
  match bitsAt w 4 8 with
  | 0 => if bitsAt w 3 1 = 0
      then .ok (.collSend (fieldAt w 20 6) (fieldAt w 16 4) (fieldAt w 13 3) (fieldAt w 12 1) (fieldAt w 0 3))
      else .error .reservedBits
  | 1 => if bitsAt w 3 1 = 0
      then .ok (.collRecv (fieldAt w 20 6) (fieldAt w 16 4) (fieldAt w 13 3) (fieldAt w 12 1) (fieldAt w 0 3))
      else .error .reservedBits
  | 2 => if bitsAt w 3 1 = 0 ∧ bitsAt w 12 4 = 0
      then .ok (.collRed (fieldAt w 20 6) (fieldAt w 16 4) (fieldAt w 0 3))
      else .error .reservedBits
  | 3 => if bitsAt w 3 1 = 0 ∧ bitsAt w 12 4 = 0
      then .ok (.collWait (fieldAt w 20 6) (fieldAt w 16 4) (fieldAt w 0 3))
      else .error .reservedBits
  | _ => .error .unusedMember

/-- Major 0x32 (R50, R51). -/
noncomputable def decodePriv (w : Nat) : Except DecodeError Instr :=
  match bitsAt w 4 4 with
  | 0 => if bitsAt w 3 1 = 0 ∧ bitsAt w 8 6 = 0 ∧ bitsAt w 20 6 = 0
      then .ok (.ctxSave (fieldAt w 14 6) (fieldAt w 0 3))
      else .error .reservedBits
  | 1 => if bitsAt w 3 1 = 0 ∧ bitsAt w 8 6 = 0 ∧ bitsAt w 23 3 = 0
      then .ok (.ctxLoad (fieldAt w 20 3) (fieldAt w 14 6) (fieldAt w 0 3))
      else .error .reservedBits
  | 2 => if bitsAt w 3 1 = 0 ∧ bitsAt w 20 6 = 0
      then .ok (.tlbInv (fieldAt w 14 6) (fieldAt w 8 6) (fieldAt w 0 3))
      else .error .reservedBits
  | 3 => if bitsAt w 3 1 = 0 ∧ bitsAt w 14 6 = 0
      then .ok (.partQ (fieldAt w 20 6) (fieldAt w 8 6) (fieldAt w 0 3))
      else .error .reservedBits
  | _ => .error .unusedMember

/-- Major 0x33 (R50, R51). -/
noncomputable def decodeSel (w : Nat) : Except DecodeError Instr :=
  if bitsAt w 4 1 = 0
      then .ok (.sel (fieldAt w 20 6) (fieldAt w 14 6) (fieldAt w 8 6) (fieldAt w 5 3) (fieldAt w 3 1) (fieldAt w 0 3))
      else .error .reservedBits

/-- Major 0x34 (R50, R51). -/
noncomputable def decodeA64 (w : Nat) : Except DecodeError Instr :=
  match bitsAt w 4 4 with
  | 0 => .ok (.add64 (fieldAt w 20 6) (fieldAt w 14 6) (fieldAt w 8 6) (fieldAt w 3 1) (fieldAt w 0 3))
  | 1 => .ok (.sub64 (fieldAt w 20 6) (fieldAt w 14 6) (fieldAt w 8 6) (fieldAt w 3 1) (fieldAt w 0 3))
  | 2 => .ok (.lea (fieldAt w 20 6) (fieldAt w 14 6) (fieldAt w 8 6) (fieldAt w 3 1) (fieldAt w 0 3))
  | 3 => if bitsAt w 3 1 = 0
      then .ok (.cmp64 (fieldAt w 23 3) (fieldAt w 20 3) (fieldAt w 14 6) (fieldAt w 8 6) (fieldAt w 0 3))
      else .error .reservedBits
  | _ => .error .unusedMember

/-- The major alone selects the family (R50); a major without one is no instruction (R52). -/
noncomputable def decodeMajor (w : Nat) : Except DecodeError Instr :=
  match bitsAt w 26 6 with
  | 1 => decodeIop w
  | 2 => decodeIop2 w
  | 3 => decodeAddi w
  | 4 => decodeAndi w
  | 5 => decodeOri w
  | 6 => decodeXori w
  | 7 => decodeShi w
  | 8 => decodeMovi w
  | 9 => decodeIcmp w
  | 10 => decodeIcmpi w
  | 11 => decodePred w
  | 12 => decodeFop w
  | 13 => decodeHop w
  | 14 => decodeFspec w
  | 15 => decodeFcvt w
  | 16 => decodeFcmp w
  | 17 => decodeNdot w
  | 18 => decodeCmpn w
  | 19 => decodeXlane w
  | 20 => decodeIdx w
  | 21 => decodeLd w
  | 22 => decodeSt w
  | 23 => decodeOrd w
  | 24 => decodeAtom w
  | 25 => decodeLrsc w
  | 26 => decodeFence w
  | 27 => decodeBr w
  | 28 => decodeCall w
  | 29 => decodeFlow w
  | 30 => decodeHint w
  | 31 => decodeWait w
  | 32 => decodeSys w
  | 33 => decodeSreg w
  | 34 => decodeQop w
  | 35 => decodeQctl w
  | 36 => decodeConv w
  | 37 => decodeBar w
  | 38 => decodeMma w
  | 39 => decodeAcc w
  | 40 => decodeTrec w
  | 41 => decodeCopy w
  | 42 => decodeCla w
  | 43 => decodeClactl w
  | 44 => decodeRedz w
  | 45 => decodeHall w
  | 46 => decodeNest w
  | 47 => decodePfc w
  | 48 => decodeRing w
  | 49 => decodeColl w
  | 50 => decodePriv w
  | 51 => decodeSel w
  | 52 => decodeA64 w
  | _ => .error .unusedMajor

/-- Decode one word. -/
noncomputable def decodeWord (w : Nat) : Except DecodeError Instr :=
  match decodeMajor w with
  | .error e => .error e
  | .ok i =>
    match i.illFormed with
    | some e => .error (.illFormed e)
    | none => .ok i

/-- The word of four bytes, lowest address first (R39). -/
def wordOfBytes (a b c d : Byte) : Nat := a.toNat + b.toNat * 2 ^ 8 + c.toNat * 2 ^ 16 + d.toNat * 2 ^ 24

/-- Decode the instruction at the head of a byte sequence. -/
noncomputable def decode : List Byte → Except DecodeError Instr
  | a :: b :: c :: d :: _ => decodeWord (wordOfBytes a b c d)
  | _ => .error .short

/-- A field at its place in a word whose bits there are zero. -/
def put {n : Nat} (f : BitVec n) (lo w : Nat) : Nat := w + f.toNat * 2 ^ lo

/-- The word of an instruction, its fields at the places R40, R50 and R51 give them; an event has none. -/
def encodeWord : Instr → Option Nat
  | .add d a b t g => some (put d 20 (put a 14 (put b 8 (put t 3 (put g 0 (0x04000000))))))
  | .sub d a b t g => some (put d 20 (put a 14 (put b 8 (put t 3 (put g 0 (0x04000010))))))
  | .and d a b t g => some (put d 20 (put a 14 (put b 8 (put t 3 (put g 0 (0x04000020))))))
  | .or d a b t g => some (put d 20 (put a 14 (put b 8 (put t 3 (put g 0 (0x04000030))))))
  | .xor d a b t g => some (put d 20 (put a 14 (put b 8 (put t 3 (put g 0 (0x04000040))))))
  | .andn d a b t g => some (put d 20 (put a 14 (put b 8 (put t 3 (put g 0 (0x04000050))))))
  | .shl d a b t g => some (put d 20 (put a 14 (put b 8 (put t 3 (put g 0 (0x04000060))))))
  | .shr d a b t g => some (put d 20 (put a 14 (put b 8 (put t 3 (put g 0 (0x04000070))))))
  | .sar d a b t g => some (put d 20 (put a 14 (put b 8 (put t 3 (put g 0 (0x04000080))))))
  | .rot d a b t g => some (put d 20 (put a 14 (put b 8 (put t 3 (put g 0 (0x04000090))))))
  | .minS d a b t g => some (put d 20 (put a 14 (put b 8 (put t 3 (put g 0 (0x040000A0))))))
  | .maxS d a b t g => some (put d 20 (put a 14 (put b 8 (put t 3 (put g 0 (0x040000B0))))))
  | .minN d a b t g => some (put d 20 (put a 14 (put b 8 (put t 3 (put g 0 (0x040000C0))))))
  | .maxN d a b t g => some (put d 20 (put a 14 (put b 8 (put t 3 (put g 0 (0x040000D0))))))
  | .mul d a b t g => some (put d 20 (put a 14 (put b 8 (put t 3 (put g 0 (0x040000E0))))))
  | .mulhiS d a b t g => some (put d 20 (put a 14 (put b 8 (put t 3 (put g 0 (0x040000F0))))))
  | .mulhiN d a b t g => some (put d 20 (put a 14 (put b 8 (put t 3 (put g 0 (0x08000000))))))
  | .clz d a t g => some (put d 20 (put a 14 (put t 3 (put g 0 (0x08000010)))))
  | .popc d a t g => some (put d 20 (put a 14 (put t 3 (put g 0 (0x08000020)))))
  | .brev d a t g => some (put d 20 (put a 14 (put t 3 (put g 0 (0x08000030)))))
  | .abs d a t g => some (put d 20 (put a 14 (put t 3 (put g 0 (0x08000040)))))
  | .neg d a t g => some (put d 20 (put a 14 (put t 3 (put g 0 (0x08000050)))))
  | .extS8 d a t g => some (put d 20 (put a 14 (put t 3 (put g 0 (0x08000060)))))
  | .extS16 d a t g => some (put d 20 (put a 14 (put t 3 (put g 0 (0x08000070)))))
  | .extN8 d a t g => some (put d 20 (put a 14 (put t 3 (put g 0 (0x08000080)))))
  | .extN16 d a t g => some (put d 20 (put a 14 (put t 3 (put g 0 (0x08000090)))))
  | .addSatS d a b t g => some (put d 20 (put a 14 (put b 8 (put t 3 (put g 0 (0x080000A0))))))
  | .addSatN d a b t g => some (put d 20 (put a 14 (put b 8 (put t 3 (put g 0 (0x080000B0))))))
  | .subSatS d a b t g => some (put d 20 (put a 14 (put b 8 (put t 3 (put g 0 (0x080000C0))))))
  | .absdiff d a b t g => some (put d 20 (put a 14 (put b 8 (put t 3 (put g 0 (0x080000D0))))))
  | .bfx d a b t g => some (put d 20 (put a 14 (put b 8 (put t 3 (put g 0 (0x080000E0))))))
  | .bfi d a b t g => some (put d 20 (put a 14 (put b 8 (put t 3 (put g 0 (0x080000F0))))))
  | .addi d a i g => some (put d 20 (put a 14 (put i 3 (put g 0 (0x0C000000)))))
  | .andi d a i g => some (put d 20 (put a 14 (put i 3 (put g 0 (0x10000000)))))
  | .ori d a i g => some (put d 20 (put a 14 (put i 3 (put g 0 (0x14000000)))))
  | .xori d a i g => some (put d 20 (put a 14 (put i 3 (put g 0 (0x18000000)))))
  | .shi d a o n g => some (put d 20 (put a 14 (put o 8 (put n 3 (put g 0 (0x1C000000))))))
  | .movi d i g => some (put d 20 (put i 3 (put g 0 (0x20000000))))
  | .eq p a b g => some (put p 20 (put a 14 (put b 8 (put g 0 (0x24000000)))))
  | .ne p a b g => some (put p 20 (put a 14 (put b 8 (put g 0 (0x24000010)))))
  | .ltS p a b g => some (put p 20 (put a 14 (put b 8 (put g 0 (0x24000020)))))
  | .leS p a b g => some (put p 20 (put a 14 (put b 8 (put g 0 (0x24000030)))))
  | .ltN p a b g => some (put p 20 (put a 14 (put b 8 (put g 0 (0x24000040)))))
  | .leN p a b g => some (put p 20 (put a 14 (put b 8 (put g 0 (0x24000050)))))
  | .gtS p a b g => some (put p 20 (put a 14 (put b 8 (put g 0 (0x24000060)))))
  | .geS p a b g => some (put p 20 (put a 14 (put b 8 (put g 0 (0x24000070)))))
  | .gtN p a b g => some (put p 20 (put a 14 (put b 8 (put g 0 (0x24000080)))))
  | .geN p a b g => some (put p 20 (put a 14 (put b 8 (put g 0 (0x24000090)))))
  | .eqImm p a i g => some (put p 20 (put a 14 (put i 3 (put g 0 (0x28000000)))))
  | .neImm p a i g => some (put p 20 (put a 14 (put i 3 (put g 0 (0x28800000)))))
  | .ltSImm p a i g => some (put p 20 (put a 14 (put i 3 (put g 0 (0x29000000)))))
  | .leSImm p a i g => some (put p 20 (put a 14 (put i 3 (put g 0 (0x29800000)))))
  | .gtSImm p a i g => some (put p 20 (put a 14 (put i 3 (put g 0 (0x2A000000)))))
  | .geSImm p a i g => some (put p 20 (put a 14 (put i 3 (put g 0 (0x2A800000)))))
  | .ltNImm p a i g => some (put p 20 (put a 14 (put i 3 (put g 0 (0x2B000000)))))
  | .geNImm p a i g => some (put p 20 (put a 14 (put i 3 (put g 0 (0x2B800000)))))
  | .pand d a b g => some (put d 20 (put a 14 (put b 8 (put g 0 (0x2C000000)))))
  | .por d a b g => some (put d 20 (put a 14 (put b 8 (put g 0 (0x2C000010)))))
  | .pxor d a b g => some (put d 20 (put a 14 (put b 8 (put g 0 (0x2C000020)))))
  | .pnot d a g => some (put d 20 (put a 14 (put g 0 (0x2C000030))))
  | .psetNz d a g => some (put d 20 (put a 14 (put g 0 (0x2C000040))))
  | .pget d g => some (put d 20 (put g 0 (0x2C000050)))
  | .fadd d a b t g => some (put d 20 (put a 14 (put b 8 (put t 3 (put g 0 (0x30000000))))))
  | .fsub d a b t g => some (put d 20 (put a 14 (put b 8 (put t 3 (put g 0 (0x30000010))))))
  | .fmul d a b t g => some (put d 20 (put a 14 (put b 8 (put t 3 (put g 0 (0x30000020))))))
  | .fma d a b t g => some (put d 20 (put a 14 (put b 8 (put t 3 (put g 0 (0x30000030))))))
  | .fms d a b t g => some (put d 20 (put a 14 (put b 8 (put t 3 (put g 0 (0x30000040))))))
  | .fnma d a b t g => some (put d 20 (put a 14 (put b 8 (put t 3 (put g 0 (0x30000050))))))
  | .fmin d a b t g => some (put d 20 (put a 14 (put b 8 (put t 3 (put g 0 (0x30000060))))))
  | .fmax d a b t g => some (put d 20 (put a 14 (put b 8 (put t 3 (put g 0 (0x30000070))))))
  | .fminn d a b t g => some (put d 20 (put a 14 (put b 8 (put t 3 (put g 0 (0x30000080))))))
  | .fmaxn d a b t g => some (put d 20 (put a 14 (put b 8 (put t 3 (put g 0 (0x30000090))))))
  | .fabs d a t g => some (put d 20 (put a 14 (put t 3 (put g 0 (0x300000A0)))))
  | .fneg d a t g => some (put d 20 (put a 14 (put t 3 (put g 0 (0x300000B0)))))
  | .fcopysign d a b t g => some (put d 20 (put a 14 (put b 8 (put t 3 (put g 0 (0x300000C0))))))
  | .fsat d a t g => some (put d 20 (put a 14 (put t 3 (put g 0 (0x300000D0)))))
  | .frint d a t g => some (put d 20 (put a 14 (put t 3 (put g 0 (0x300000E0)))))
  | .ftrunc d a t g => some (put d 20 (put a 14 (put t 3 (put g 0 (0x300000F0)))))
  | .hadd d a b y g => some (put d 20 (put a 14 (put b 8 (put y 7 (put g 0 (0x34000000))))))
  | .hsub d a b y g => some (put d 20 (put a 14 (put b 8 (put y 7 (put g 0 (0x34000010))))))
  | .hmul d a b y g => some (put d 20 (put a 14 (put b 8 (put y 7 (put g 0 (0x34000020))))))
  | .hfma d a b y g => some (put d 20 (put a 14 (put b 8 (put y 7 (put g 0 (0x34000030))))))
  | .hmin d a b y g => some (put d 20 (put a 14 (put b 8 (put y 7 (put g 0 (0x34000040))))))
  | .hmax d a b y g => some (put d 20 (put a 14 (put b 8 (put y 7 (put g 0 (0x34000050))))))
  | .habs d a y g => some (put d 20 (put a 14 (put y 7 (put g 0 (0x34000060)))))
  | .hneg d a y g => some (put d 20 (put a 14 (put y 7 (put g 0 (0x34000070)))))
  | .rcp d a t g => some (put d 20 (put a 14 (put t 3 (put g 0 (0x38000000)))))
  | .rsqrt d a t g => some (put d 20 (put a 14 (put t 3 (put g 0 (0x38000010)))))
  | .sqrt d a t g => some (put d 20 (put a 14 (put t 3 (put g 0 (0x38000020)))))
  | .exp2 d a t g => some (put d 20 (put a 14 (put t 3 (put g 0 (0x38000030)))))
  | .log2 d a t g => some (put d 20 (put a 14 (put t 3 (put g 0 (0x38000040)))))
  | .sinpi d a t g => some (put d 20 (put a 14 (put t 3 (put g 0 (0x38000050)))))
  | .cospi d a t g => some (put d 20 (put a 14 (put t 3 (put g 0 (0x38000060)))))
  | .tanh d a t g => some (put d 20 (put a 14 (put t 3 (put g 0 (0x38000070)))))
  | .fdiv d a b t g => some (put d 20 (put a 14 (put b 8 (put t 3 (put g 0 (0x38000080))))))
  | .cvtF32S32 d a g => some (put d 20 (put a 14 (put g 0 (0x3C000000))))
  | .cvtF32N32 d a g => some (put d 20 (put a 14 (put g 0 (0x3C000010))))
  | .cvtS32F32 d a g => some (put d 20 (put a 14 (put g 0 (0x3C000020))))
  | .cvtN32F32 d a g => some (put d 20 (put a 14 (put g 0 (0x3C000030))))
  | .cvtF32F16 d a k g => some (put d 20 (put a 14 (put k 8 (put g 0 (0x3C000040)))))
  | .cvtF32Bf16 d a k g => some (put d 20 (put a 14 (put k 8 (put g 0 (0x3C000050)))))
  | .cvtF16F32 d a k g => some (put d 20 (put a 14 (put k 8 (put g 0 (0x3C000060)))))
  | .cvtBf16F32 d a k g => some (put d 20 (put a 14 (put k 8 (put g 0 (0x3C000070)))))
  | .cvtF32E4m3 d a k g => some (put d 20 (put a 14 (put k 8 (put g 0 (0x3C000080)))))
  | .cvtF32E5m2 d a k g => some (put d 20 (put a 14 (put k 8 (put g 0 (0x3C000090)))))
  | .cvtE4m3F32 d a k g => some (put d 20 (put a 14 (put k 8 (put g 0 (0x3C0000A0)))))
  | .cvtE5m2F32 d a k g => some (put d 20 (put a 14 (put k 8 (put g 0 (0x3C0000B0)))))
  | .cvtF32E2m1 d a k g => some (put d 20 (put a 14 (put k 8 (put g 0 (0x3C0000C0)))))
  | .cvtE2m1F32 d a k g => some (put d 20 (put a 14 (put k 8 (put g 0 (0x3C0000D0)))))
  | .cvtS8F32 d a k g => some (put d 20 (put a 14 (put k 8 (put g 0 (0x3C0000E0)))))
  | .cvtS4F32 d a k g => some (put d 20 (put a 14 (put k 8 (put g 0 (0x3C0000F0)))))
  | .feq p a b g => some (put p 20 (put a 14 (put b 8 (put g 0 (0x40000000)))))
  | .fne p a b g => some (put p 20 (put a 14 (put b 8 (put g 0 (0x40000010)))))
  | .flt p a b g => some (put p 20 (put a 14 (put b 8 (put g 0 (0x40000020)))))
  | .fle p a b g => some (put p 20 (put a 14 (put b 8 (put g 0 (0x40000030)))))
  | .fgt p a b g => some (put p 20 (put a 14 (put b 8 (put g 0 (0x40000040)))))
  | .fge p a b g => some (put p 20 (put a 14 (put b 8 (put g 0 (0x40000050)))))
  | .funord p a b g => some (put p 20 (put a 14 (put b 8 (put g 0 (0x40000060)))))
  | .ford p a b g => some (put p 20 (put a 14 (put b 8 (put g 0 (0x40000070)))))
  | .fclass d a g => some (put d 20 (put a 14 (put g 0 (0x40000080))))
  | .dotS8x4 d a b g => some (put d 20 (put a 14 (put b 8 (put g 0 (0x44000000)))))
  | .dotN8x4 d a b g => some (put d 20 (put a 14 (put b 8 (put g 0 (0x44000010)))))
  | .dotS4x8 d a b g => some (put d 20 (put a 14 (put b 8 (put g 0 (0x44000020)))))
  | .dotN4x8 d a b g => some (put d 20 (put a 14 (put b 8 (put g 0 (0x44000030)))))
  | .dotE4m3x4 d a b g => some (put d 20 (put a 14 (put b 8 (put g 0 (0x44000040)))))
  | .dotE5m2x4 d a b g => some (put d 20 (put a 14 (put b 8 (put g 0 (0x44000050)))))
  | .dotE2m1x8 d a b g => some (put d 20 (put a 14 (put b 8 (put g 0 (0x44000060)))))
  | .scl d a b k g => some (put d 20 (put a 14 (put b 8 (put k 4 (put g 0 (0x44000080))))))
  | .scladd d a b k g => some (put d 20 (put a 14 (put b 8 (put k 4 (put g 0 (0x440000C0))))))
  | .ftwosum d a b g => some (put d 20 (put a 14 (put b 8 (put g 0 (0x48000000)))))
  | .ftwoprod d a b g => some (put d 20 (put a 14 (put b 8 (put g 0 (0x48000010)))))
  | .faddPair d a g => some (put d 20 (put a 14 (put g 0 (0x48000020))))
  | .shflIdx d a b g => some (put d 20 (put a 14 (put b 8 (put g 0 (0x4C000000)))))
  | .shflUp d a b g => some (put d 20 (put a 14 (put b 8 (put g 0 (0x4C000010)))))
  | .shflDn d a b g => some (put d 20 (put a 14 (put b 8 (put g 0 (0x4C000020)))))
  | .shflXor d a b g => some (put d 20 (put a 14 (put b 8 (put g 0 (0x4C000030)))))
  | .bcast d a g => some (put d 20 (put a 14 (put g 0 (0x4C000040))))
  | .voteAny d a g => some (put d 20 (put a 14 (put g 0 (0x4C000050))))
  | .voteAll d a g => some (put d 20 (put a 14 (put g 0 (0x4C000060))))
  | .voteBallot d a g => some (put d 20 (put a 14 (put g 0 (0x4C000070))))
  | .matchLanes d a g => some (put d 20 (put a 14 (put g 0 (0x4C000080))))
  | .redAddS32 d a g => some (put d 20 (put a 14 (put g 0 (0x4C000090))))
  | .redAddF32 d a g => some (put d 20 (put a 14 (put g 0 (0x4C0000A0))))
  | .redMin d a g => some (put d 20 (put a 14 (put g 0 (0x4C0000B0))))
  | .redMax d a g => some (put d 20 (put a 14 (put g 0 (0x4C0000C0))))
  | .prefixSum d a g => some (put d 20 (put a 14 (put g 0 (0x4C0000D0))))
  | .xset k a g => some (put k 20 (put a 14 (put g 0 (0x50000000))))
  | .xadd k b g => some (put k 20 (put b 8 (put g 0 (0x50000010))))
  | .ldv d w k o g => some (put d 20 (put w 18 (put k 14 (put o 8 (put g 0 (0x50000020))))))
  | .stv d w k o g => some (put d 20 (put w 18 (put k 14 (put o 8 (put g 0 (0x50000030))))))
  | .xlim k a g => some (put k 20 (put a 14 (put g 0 (0x50000040))))
  | .ldS8 d b o h g => some (put d 20 (put b 14 (put o 7 (put h 3 (put g 0 (0x54000000))))))
  | .ldN8 d b o h g => some (put d 20 (put b 14 (put o 7 (put h 3 (put g 0 (0x54000010))))))
  | .ldS16 d b o h g => some (put d 20 (put b 14 (put o 7 (put h 3 (put g 0 (0x54000020))))))
  | .ldN16 d b o h g => some (put d 20 (put b 14 (put o 7 (put h 3 (put g 0 (0x54000030))))))
  | .ldB32 d b o h g => some (put d 20 (put b 14 (put o 7 (put h 3 (put g 0 (0x54000040))))))
  | .ldB64 d b o h g => some (put d 20 (put b 14 (put o 7 (put h 3 (put g 0 (0x54000050))))))
  | .ldB128 d b o h g => some (put d 20 (put b 14 (put o 7 (put h 3 (put g 0 (0x54000060))))))
  | .stB8 d b o h g => some (put d 20 (put b 14 (put o 7 (put h 3 (put g 0 (0x58000000))))))
  | .stB16 d b o h g => some (put d 20 (put b 14 (put o 7 (put h 3 (put g 0 (0x58000020))))))
  | .stB32 d b o h g => some (put d 20 (put b 14 (put o 7 (put h 3 (put g 0 (0x58000040))))))
  | .stB64 d b o h g => some (put d 20 (put b 14 (put o 7 (put h 3 (put g 0 (0x58000050))))))
  | .stB128 d b o h g => some (put d 20 (put b 14 (put o 7 (put h 3 (put g 0 (0x58000060))))))
  | .ldaB32 d b c h g => some (put d 20 (put b 14 (put c 7 (put h 3 (put g 0 (0x5C000000))))))
  | .ldaB64 d b c h g => some (put d 20 (put b 14 (put c 7 (put h 3 (put g 0 (0x5C000010))))))
  | .stlB32 d b c h g => some (put d 20 (put b 14 (put c 7 (put h 3 (put g 0 (0x5C000020))))))
  | .stlB64 d b c h g => some (put d 20 (put b 14 (put c 7 (put h 3 (put g 0 (0x5C000030))))))
  | .atomAddS32 d a b h g => some (put d 20 (put a 14 (put b 8 (put h 3 (put g 0 (0x60000000))))))
  | .atomAddF32 d a b h g => some (put d 20 (put a 14 (put b 8 (put h 3 (put g 0 (0x60000010))))))
  | .atomMinS d a b h g => some (put d 20 (put a 14 (put b 8 (put h 3 (put g 0 (0x60000020))))))
  | .atomMaxS d a b h g => some (put d 20 (put a 14 (put b 8 (put h 3 (put g 0 (0x60000030))))))
  | .atomMinN d a b h g => some (put d 20 (put a 14 (put b 8 (put h 3 (put g 0 (0x60000040))))))
  | .atomMaxN d a b h g => some (put d 20 (put a 14 (put b 8 (put h 3 (put g 0 (0x60000050))))))
  | .atomAnd d a b h g => some (put d 20 (put a 14 (put b 8 (put h 3 (put g 0 (0x60000060))))))
  | .atomOr d a b h g => some (put d 20 (put a 14 (put b 8 (put h 3 (put g 0 (0x60000070))))))
  | .atomXor d a b h g => some (put d 20 (put a 14 (put b 8 (put h 3 (put g 0 (0x60000080))))))
  | .atomExch d a b h g => some (put d 20 (put a 14 (put b 8 (put h 3 (put g 0 (0x60000090))))))
  | .atomCas d a b h g => some (put d 20 (put a 14 (put b 8 (put h 3 (put g 0 (0x600000A0))))))
  | .atomAddS64 d a b h g => some (put d 20 (put a 14 (put b 8 (put h 3 (put g 0 (0x600000B0))))))
  | .atomExchB64 d a b h g => some (put d 20 (put a 14 (put b 8 (put h 3 (put g 0 (0x600000C0))))))
  | .atomCasB64 d a b h g => some (put d 20 (put a 14 (put b 8 (put h 3 (put g 0 (0x600000D0))))))
  | .lrB32 d a h g => some (put d 20 (put a 14 (put h 3 (put g 0 (0x64000000)))))
  | .scB32 p a b h g => some (put p 20 (put a 14 (put b 8 (put h 3 (put g 0 (0x64000010))))))
  | .lrB64 d a h g => some (put d 20 (put a 14 (put h 3 (put g 0 (0x64000020)))))
  | .scB64 p a b h g => some (put p 20 (put a 14 (put b 8 (put h 3 (put g 0 (0x64000030))))))
  | .clrres g => some (put g 0 (0x64000040))
  | .fenceAcq c g => some (put c 14 (put g 0 (0x68000000)))
  | .fenceRel c g => some (put c 14 (put g 0 (0x68000010)))
  | .fenceAr c g => some (put c 14 (put g 0 (0x68000020)))
  | .br o g => some (put o 3 (put g 0 (0x6C000000)))
  | .call l o g => some (put l 18 (put o 3 (put g 0 (0x70000000))))
  | .callr l t g => some (put l 18 (put t 12 (put g 0 (0x71000000))))
  | .ret t g => some (put t 12 (put g 0 (0x72000000)))
  | .jmpr t g => some (put t 12 (put g 0 (0x73000000)))
  | .jset j g => some (put j 8 (put g 0 (0x74000000)))
  | .jadd j g => some (put j 8 (put g 0 (0x74000010)))
  | .waitRejoin j g => some (put j 8 (put g 0 (0x74000020)))
  | .leave m g => some (put m 10 (put g 0 (0x74000030)))
  | .exit g => some (put g 0 (0x74000040))
  | .tail g => some (put g 0 (0x74000050))
  | .yield g => some (put g 0 (0x74000060))
  | .jget d j g => some (put d 20 (put j 8 (put g 0 (0x74000070))))
  | .hintImm p => some (put p 0 (0x78000000))
  | .hintMod a o b r c d e s f k n => some (put a 16 (put o 14 (put b 13 (put r 11 (put c 10 (put d 9 (put e 8 (put s 5 (put f 4 (put k 2 (put n 1 (0x79000000))))))))))))
  | .hintSched w s => some (put w 8 (put s 0 (0x7A000000)))
  | .wait l s c m => some (put l 20 (put s 14 (put c 8 (put m 2 (0x7C000000)))))
  | .waitr a => some (put a 20 (0x7C000001))
  | .trap c g => some (put c 3 (put g 0 (0x80000000)))
  | .eret s g => some (put s 3 (put g 0 (0x80000800)))
  | .brk c g => some (put c 3 (put g 0 (0x80001000)))
  | .halt g => some (put g 0 (0x80001800))
  | .csrr d r g => some (put d 20 (put r 3 (put g 0 (0x80002000))))
  | .csrw a r g => some (put a 14 (put r 3 (put g 0 (0x80002800))))
  | .sreg d i g => some (put d 20 (put i 3 (put g 0 (0x84000000))))
  | .qpush v q p n g => some (put v 20 (put q 16 (put p 13 (put n 12 (put g 0 (0x88000000))))))
  | .qpop v q p n g => some (put v 20 (put q 16 (put p 13 (put n 12 (put g 0 (0x88000010))))))
  | .qbind v q c g => some (put v 20 (put q 16 (put c 4 (put g 0 (0x8C000000)))))
  | .qstat v q g => some (put v 20 (put q 16 (put g 0 (0x8C000100))))
  | .qflush q g => some (put q 16 (put g 0 (0x8C000200)))
  | .cset c n z g => some (put c 20 (put n 14 (put z 8 (put g 0 (0x90000000)))))
  | .csign c g => some (put c 20 (put g 0 (0x90000010)))
  | .cchk d c g => some (put d 20 (put c 8 (put g 0 (0x90000020))))
  | .barL g => some (put g 0 (0x94000000))
  | .barS g => some (put g 0 (0x94000010))
  | .arrive s g => some (put s 8 (put g 0 (0x94000020)))
  | .await s g => some (put s 8 (put g 0 (0x94000030)))
  | .barPhase g => some (put g 0 (0x94000040))
  | .mma t a k c r g => some (put t 19 (put a 17 (put k 13 (put c 10 (put r 9 (put g 0 (0x98000000)))))))
  | .mmaBs t a k c r g => some (put t 19 (put a 17 (put k 13 (put c 10 (put r 9 (put g 0 (0x98000080)))))))
  | .mmaZ t a k c r g => some (put t 19 (put a 17 (put k 13 (put c 10 (put r 9 (put g 0 (0x98000100)))))))
  | .accZero t g => some (put t 19 (put g 0 (0x9C000000)))
  | .accLd t a g => some (put t 19 (put a 13 (put g 0 (0x9C000010))))
  | .accSt t a d g => some (put t 19 (put a 13 (put d 7 (put g 0 (0x9C000020)))))
  | .accRd t a d g => some (put t 19 (put a 13 (put d 7 (put g 0 (0x9C000030)))))
  | .accTab a g => some (put a 13 (put g 0 (0x9C000040)))
  | .trecMk d a g => some (put d 20 (put a 14 (put g 0 (0xA0000000))))
  | .trecChk d a g => some (put d 20 (put a 14 (put g 0 (0xA0000010))))
  | .trecStep d a b g => some (put d 20 (put a 14 (put b 8 (put g 0 (0xA0000020)))))
  | .cp a e q g => some (put a 14 (put e 12 (put q 8 (put g 0 (0xA4000000)))))
  | .cpGather d a e q g => some (put d 20 (put a 14 (put e 12 (put q 8 (put g 0 (0xA4000010))))))
  | .cpGatherR d a e q g => some (put d 20 (put a 14 (put e 12 (put q 8 (put g 0 (0xA4002010))))))
  | .cpScatter d a e q g => some (put d 20 (put a 14 (put e 12 (put q 8 (put g 0 (0xA4000020))))))
  | .cpFill a e q g => some (put a 14 (put e 12 (put q 8 (put g 0 (0xA4000030)))))
  | .cpFlush a e q g => some (put a 14 (put e 12 (put q 8 (put g 0 (0xA4000040)))))
  | .cpPref a e q g => some (put a 14 (put e 12 (put q 8 (put g 0 (0xA4000050)))))
  | .claEval v q g => some (put v 20 (put q 16 (put g 0 (0xA8000000))))
  | .claFeed v q g => some (put v 20 (put q 16 (put g 0 (0xA8000010))))
  | .claVote v q g => some (put v 20 (put q 16 (put g 0 (0xA8000020))))
  | .claLd a s g => some (put a 14 (put s 8 (put g 0 (0xAC000000))))
  | .claSt a s g => some (put a 14 (put s 8 (put g 0 (0xAC000010))))
  | .claTab a g => some (put a 14 (put g 0 (0xAC000020)))
  | .claSeed a g => some (put a 14 (put g 0 (0xAC000030)))
  | .claCfg a g => some (put a 14 (put g 0 (0xAC000040)))
  | .claStat d g => some (put d 20 (put g 0 (0xAC000050)))
  | .redz h a o g => some (put h 20 (put a 14 (put o 4 (put g 0 (0xB0000000)))))
  | .rdz d a p h g => some (put d 20 (put a 14 (put p 10 (put h 8 (put g 0 (0xB0000080))))))
  | .hst v q g => some (put v 20 (put q 16 (put g 0 (0xB4000000))))
  | .hpost v q p n g => some (put v 20 (put q 16 (put p 13 (put n 12 (put g 0 (0xB4000010))))))
  | .hqtake v q p n g => some (put v 20 (put q 16 (put p 13 (put n 12 (put g 0 (0xB4000020))))))
  | .hqfree v q g => some (put v 20 (put q 16 (put g 0 (0xB4000030))))
  | .hqstat v q g => some (put v 20 (put q 16 (put g 0 (0xB4000040))))
  | .nbMax p a b g => some (put p 20 (put a 14 (put b 8 (put g 0 (0xB8000000)))))
  | .nbMaxP a b g => some (put a 14 (put b 8 (put g 0 (0xB8000010))))
  | .nGrow d a b g => some (put d 20 (put a 14 (put b 8 (put g 0 (0xB8000020)))))
  | .nLaunch p a b g => some (put p 20 (put a 14 (put b 8 (put g 0 (0xB8000030)))))
  | .nSignal a g => some (put a 14 (put g 0 (0xB8000040)))
  | .nInfo d a b g => some (put d 20 (put a 14 (put b 8 (put g 0 (0xB8000050)))))
  | .pfCode l a b g => some (put l 23 (put a 14 (put b 8 (put g 0 (0xBC000000)))))
  | .pinCode l p a b g => some (put l 23 (put p 20 (put a 14 (put b 8 (put g 0 (0xBC000010))))))
  | .unpinCode l a b g => some (put l 23 (put a 14 (put b 8 (put g 0 (0xBC000020)))))
  | .ingClaim v q p n g => some (put v 20 (put q 16 (put p 13 (put n 12 (put g 0 (0xC0000000))))))
  | .ingRel v q g => some (put v 20 (put q 16 (put g 0 (0xC0000010))))
  | .ingStat v q g => some (put v 20 (put q 16 (put g 0 (0xC0000020))))
  | .ingGap v q g => some (put v 20 (put q 16 (put g 0 (0xC0000030))))
  | .ingLoss v q g => some (put v 20 (put q 16 (put g 0 (0xC0000040))))
  | .collSend v q p n g => some (put v 20 (put q 16 (put p 13 (put n 12 (put g 0 (0xC4000000))))))
  | .collRecv v q p n g => some (put v 20 (put q 16 (put p 13 (put n 12 (put g 0 (0xC4000010))))))
  | .collRed v q g => some (put v 20 (put q 16 (put g 0 (0xC4000020))))
  | .collWait v q g => some (put v 20 (put q 16 (put g 0 (0xC4000030))))
  | .ctxSave a g => some (put a 14 (put g 0 (0xC8000000)))
  | .ctxLoad p a g => some (put p 20 (put a 14 (put g 0 (0xC8000010))))
  | .tlbInv a b g => some (put a 14 (put b 8 (put g 0 (0xC8000020))))
  | .partQ d b g => some (put d 20 (put b 8 (put g 0 (0xC8000030))))
  | .sel d a b p t g => some (put d 20 (put a 14 (put b 8 (put p 5 (put t 3 (put g 0 (0xCC000000)))))))
  | .add64 d a b t g => some (put d 20 (put a 14 (put b 8 (put t 3 (put g 0 (0xD0000000))))))
  | .sub64 d a b t g => some (put d 20 (put a 14 (put b 8 (put t 3 (put g 0 (0xD0000010))))))
  | .lea d a b t g => some (put d 20 (put a 14 (put b 8 (put t 3 (put g 0 (0xD0000020))))))
  | .cmp64 c p a b g => some (put c 23 (put p 20 (put a 14 (put b 8 (put g 0 (0xD0000030))))))
  | .fairnessTimer _ => none
  | .deferredSwitch _ => none
  | .flightSwap _ _ => none
  | .activeSetFill _ _ => none
  | .aging _ _ => none
  | .loadReturn _ => none
  | .bind _ => none
  | .drain _ => none
  | .apply _ => none
  | .send _ => none
  | .mirror _ => none
  | .mmaComplete _ => none
  | .accComplete _ => none
  | .claCommandStart _ => none
  | .claEvalComplete _ => none
  | .claSweepEnd _ => none
  | .claImageComplete _ => none
  | .copyComplete _ _ => none
  | .hpostComplete _ => none
  | .creditGrant _ => none
  | .galleryFill _ _ _ _ => none
  | .treadRetire _ => none
  | .retirementReport _ => none
  | .raiseApply _ => none
  | .b0Update _ _ _ => none
  | .remoteLookup _ _ _ _ => none
  | .lookupAnswer _ => none
  | .watermarkUpdate _ _ _ => none
  | .rowOpen _ => none
  | .treadRelease _ => none
  | .dispatch _ => none
  | .stealRequest _ => none
  | .stealBackoff _ => none
  | .admission _ => none
  | .phaseSpill _ => none
  | .graceExpiry _ => none
  | .forcedSave _ => none
  | .qtail _ _ => none
  | .queueEnable _ => none
  | .queueDisable _ => none
  | .registerWrite _ _ _ => none
  | .launch _ => none
  | .cancel _ => none
  | .loadChunk _ _ => none
  | .verify => none
  | .discard => none
  | .romState => none
  | .attest _ _ => none
  | .lifecycle _ _ => none
  | .debugToken _ _ _ => none
  | .partitionCreate _ => none
  | .partitionReset _ => none
  | .keyAssign _ _ => none
  | .keyRotate _ => none
  | .windowBind _ _ _ _ _ => none
  | .queueBind _ _ _ _ => none
  | .saveRegion _ _ _ => none
  | .ringConfig _ => none
  | .streamTable _ => none
  | .channelConfig _ => none
  | .preempt _ _ _ _ _ _ => none
  | .preemptWithdraw _ => none
  | .fairness _ _ => none
  | .powerLimit _ => none
  | .powerState _ => none
  | .telemetry _ => none
  | .errorLog _ => none
  | .coldBoot => none
  | .warmReset => none
  | .recalibration => none
  | .powerSample _ _ => none
  | .debugTokenExpiry _ => none
  | .rowThrottle _ _ => none
  | .throttleRelease _ _ => none
  | .rotationSweep _ _ => none
  | .backgroundClear _ _ => none
  | .scrub _ => none
  | .linkDown => none
  | .hostMemAccess _ _ _ _ => none
  | .packetReceive _ _ => none
  | .wireRecord _ => none
  | .collMessage _ _ => none
  | .collAck _ _ _ => none
  | .collRetryExhausted _ _ => none
  | .portLinkDown _ => none
  | .illegalInstruction => none
  | .fetchFailure _ => none
  | .stealAnswer _ => none
  | .linkUp => none
  | .portLinkUp _ => none
  | .dieLinkLoss _ _ => none
  | .clusterMeshLoss _ => none
  | .commandWord _ _ => none
  | .haltDebug _ _ => none
  | .pageMigration _ _ _ => none

/-- The bytes of a word, lowest address first (R39). -/
def bytesOfWord (w : Nat) : List Byte :=
  [BitVec.ofNat 8 w, BitVec.ofNat 8 (w / 2 ^ 8), BitVec.ofNat 8 (w / 2 ^ 16), BitVec.ofNat 8 (w / 2 ^ 24)]

/-- The bytes of an instruction. -/
def encode (i : Instr) : Option (List Byte) := (encodeWord i).map bytesOfWord

/-- What the decoder reads from a row of the opcode table: each encoded row is one word of 32 bits, laid out as memory
holds it; the rows without an encoding are events and have no bits. -/
noncomputable def decodeTableWord (nbits w : Nat) : Option Instr :=
  if nbits = 32 then
    match decode (bytesOfWord w) with
    | .ok i => some i
    | .error _ => none
  else none

end Sys2Proof
end

