-- ==== Sys2Proof/Machine/Bits.lean ====
section
/-!
DEFINITION. The helpers of R8 on bits and integers, and the packing of words into bytes (R5, R61).
-/

namespace Sys2Proof.Machine

/-- `Bits(x, hi, lo)` of R8 with `n = hi - lo + 1`. -/
def bits (x lo n : Nat) : Nat := x / 2 ^ lo % 2 ^ n

/-- Bit `i` of `x`. -/
def bit (x i : Nat) : Bool := x / 2 ^ i % 2 == 1

/-- `Sign(x, w)` of R8. -/
def sign (x w : Nat) : Int :=
  let y := x % 2 ^ w
  if y < 2 ^ (w - 1) then (y : Int) else (y : Int) - (2 ^ w : Nat)

/-- The word of an integer, modulo 2^32 (R8). -/
def word (i : Int) : Word := BitVec.ofInt 32 i

/-- The double word of an integer, modulo 2^64 (R8). -/
def dword (i : Int) : DWord := BitVec.ofInt 64 i

/-- The unsigned value of a register (R110). -/
def un (w : Word) : Nat := w.toNat

/-- The signed value of a register (R110). -/
def si (w : Word) : Int := w.toInt

/-- The double word of a pair: the even register holds the low half (R5). -/
def pairOf (lo hi : Word) : DWord := hi ++ lo

/-- The low half of a double word. -/
def lowHalf (x : DWord) : Word := x.truncate 32

/-- The high half of a double word. -/
def highHalf (x : DWord) : Word := (x >>> 32).truncate 32

/-- A flag as a word. -/
def flagWord (b : Bool) : Word := if b then 1 else 0

/-- `n` little-endian bytes of `x` (R5). -/
def bytesLE : Nat → Nat → List Byte
  | 0, _ => []
  | n + 1, x => BitVec.ofNat 8 x :: bytesLE n (x / 256)

/-- The value of little-endian bytes (R5). -/
def ofBytesLE : List Byte → Nat
  | [] => 0
  | b :: t => b.toNat + 256 * ofBytesLE t

/-- R126: a value folded into the 57-bit virtual address space. -/
def canon (x : DWord) : DWord := (x.truncate 57).signExtend 64

/-- R53, R182: the value is sign-extended from bit 56. -/
def isCanon (x : DWord) : Bool := canon x == x

/-- A lane set as a byte. -/
def laneMask (ls : List Nat) : Byte := ls.foldl (fun m l => m ||| (1 <<< l)) 0

/-- The lanes of a byte, ascending. -/
def lanesOf (m : Byte) : List Nat := (List.range 8).filter (fun l => m.getLsbD l)

/-- Ceiling division. -/
def ceilDiv (a b : Nat) : Nat := (a + b - 1) / b

/-- `x` rounded up to a multiple of `m`. -/
def roundUp (x m : Nat) : Nat := ceilDiv x m * m

/-- Floor of the square root of `x`, by `n` binary digits from the top. -/
def isqrtGo (x : Nat) : Nat → Nat → Nat
  | 0, r => r
  | n + 1, r =>
    let t := r + 2 ^ n
    if t * t ≤ x then isqrtGo x n t else isqrtGo x n r

/-- Floor of the square root of `x`, for `x < 2^(2*n)`. -/
def isqrt (n x : Nat) : Nat := isqrtGo x n 0

end Sys2Proof.Machine
end

