-- ==== Sys2Proof/Machine/Flags.lean ====
section
/-!
DEFINITION. The floating-point flags (R72, R73) and the rounding of an exact value to a format with the flags it raises
(R62–R71). Every rounding of the machine goes through `roundTo`.
-/

namespace Sys2Proof.Machine

/-- R72: the flags NV, DZ, OF, UF, NX in bits 4 to 0. -/
abbrev FFlags := BitVec 5

def fNV : FFlags := 16
def fDZ : FFlags := 8
def fOF : FFlags := 4
def fUF : FFlags := 2
def fNX : FFlags := 1

/-- A flag raised on a condition. -/
def flagIf (b : Bool) (f : FFlags) : FFlags := if b then f else 0

/-- How a format spells its infinities and NaNs (R62). -/
inductive Specials where
  | ieee      -- exponent all ones: infinity and NaNs
  | nanOnly   -- E4M3: only S.1111.111 is a NaN, no infinity
  | none      -- E2M1: neither
  deriving DecidableEq, Repr

/-- R62: a floating format: fraction width, exponent width, bias, specials, whether its NaNs can signal (R67). -/
structure Fmt where
  fb   : Nat
  eb   : Nat
  bias : Nat
  sp   : Specials
  sig  : Bool
  deriving DecidableEq, Repr

def fp32 : Fmt := { fb := 23, eb := 8, bias := 127, sp := .ieee, sig := true }
def fp16 : Fmt := { fb := 10, eb := 5, bias := 15, sp := .ieee, sig := true }
def bf16 : Fmt := { fb := 7, eb := 8, bias := 127, sp := .ieee, sig := true }
def e4m3 : Fmt := { fb := 3, eb := 4, bias := 7, sp := .nanOnly, sig := false }
def e5m2 : Fmt := { fb := 2, eb := 5, bias := 15, sp := .ieee, sig := false }
def e2m1 : Fmt := { fb := 1, eb := 2, bias := 1, sp := .none, sig := false }

/-- The sign bit of a format, as a value. -/
def Fmt.signBit (f : Fmt) : Nat := 2 ^ (f.fb + f.eb)

/-- The code of the largest finite magnitude (R62). -/
def Fmt.maxCode (f : Fmt) : Nat :=
  match f.sp with
  | .ieee => (2 ^ f.eb - 1) * 2 ^ f.fb - 1
  | .nanOnly => 2 ^ (f.fb + f.eb) - 2
  | .none => 2 ^ (f.fb + f.eb) - 1

/-- The code of infinity, in a format that has one. -/
def Fmt.infCode (f : Fmt) : Nat := (2 ^ f.eb - 1) * 2 ^ f.fb

/-- R67: the canonical NaN; E2M1 has none and takes +0 (R76). -/
def Fmt.nanCode (f : Fmt) : Nat :=
  match f.sp with
  | .ieee => f.infCode + 2 ^ (f.fb - 1)
  | .nanOnly => 2 ^ (f.fb + f.eb) - 1
  | .none => 0

/-- What an encoding stands for (R62, R63): `(-1)^neg * m * 2^e` where finite. -/
inductive FV where
  | nan (signalling : Bool)
  | inf (neg : Bool)
  | fin (neg : Bool) (m : Nat) (e : Int)
  deriving DecidableEq, Repr

/-- R63: the value of an encoding. -/
def Fmt.val (f : Fmt) (x : Nat) : FV :=
  let neg := bit x (f.fb + f.eb)
  let ex := bits x f.fb f.eb
  let fr := bits x 0 f.fb
  let top := 2 ^ f.eb - 1
  let fin : FV :=
    if ex = 0 then .fin neg fr (1 - (f.bias : Int) - f.fb)
    else .fin neg (2 ^ f.fb + fr) ((ex : Int) - f.bias - f.fb)
  match f.sp with
  | .ieee =>
    if ex = top then (if fr = 0 then .inf neg else .nan (f.sig && !bit fr (f.fb - 1))) else fin
  | .nanOnly => if ex = top && fr = 2 ^ f.fb - 1 then .nan false else fin
  | .none => fin

def FV.isNaN : FV → Bool
  | .nan _ => true
  | _ => false
def FV.isSNaN : FV → Bool
  | .nan b => b
  | _ => false
def FV.isInf : FV → Bool
  | .inf _ => true
  | _ => false
def FV.isZero : FV → Bool
  | .fin _ 0 _ => true
  | _ => false
/-- The sign of a value that is not a NaN. -/
def FV.neg : FV → Bool
  | .nan _ => false
  | .inf n => n
  | .fin n _ _ => n

/-- The rounding mode codes of R45. -/
inductive Rm where
  | rne | rz | ru | rd
  deriving DecidableEq, Repr

/-- A code with its sign. -/
def Fmt.signed (f : Fmt) (neg : Bool) (code : Nat) : Nat := (if neg then f.signBit else 0) + code

/-- Whether a magnitude `q + rem/2^k` rounds up to the next integer. -/
def roundsUp (rm : Rm) (neg : Bool) (q rem k : Nat) : Bool :=
  match rm with
  | .rne => decide (2 ^ k < 2 * rem) || (decide (2 * rem = 2 ^ k) && decide (q % 2 = 1))
  | .rz => false
  | .ru => !neg && decide (0 < rem)
  | .rd => neg && decide (0 < rem)

/-- The magnitude `m * 2^e` rounded to a multiple of `2^q`: the multiple, and whether it is inexact. -/
def roundAt (rm : Rm) (neg : Bool) (m : Nat) (e q : Int) : Nat × Bool :=
  if q ≤ e then (m * 2 ^ (e - q).toNat, false)
  else
    let k := (q - e).toNat
    let r := m % 2 ^ k
    let b := m / 2 ^ k
    ((if roundsUp rm neg b r k then b + 1 else b), decide (0 < r))

/-- R70: the result of an overflow. -/
def Fmt.overflow (f : Fmt) (rm : Rm) (sat neg : Bool) : Nat :=
  let toInf := match rm with
    | .rne => true
    | .rz => false
    | .ru => !neg
    | .rd => neg
  if sat || f.sp == .none || !toInf then f.signed neg f.maxCode
  else if f.sp == .nanOnly then f.nanCode
  else f.signed neg f.infCode

/-- R68–R70: the exact non-zero value `(-1)^neg * m * 2^e` rounded once to a format, with OF, UF and NX. -/
def roundTo (f : Fmt) (rm : Rm) (sat neg : Bool) (m : Nat) (e : Int) : Nat × FFlags :=
  let lg : Int := (Nat.log2 m : Int) + e
  let emin : Int := 1 - (f.bias : Int)
  let qmin : Int := emin - f.fb
  let q : Int := max (lg - f.fb) qmin
  let r := roundAt rm neg m e q
  let code := (q - qmin).toNat * 2 ^ f.fb + r.1
  if f.maxCode < code then (f.overflow rm sat neg, fOF ||| fNX)
  else
    let u := roundAt rm neg m e (lg - f.fb)
    let tiny := decide (lg + (if u.1 = 2 ^ (f.fb + 1) then 1 else 0) < emin)
    (f.signed neg code, flagIf r.2 fNX ||| flagIf (tiny && r.2) fUF)

/-- A value that is known only to lie strictly between `m * 2^e` and `(m + 1) * 2^e`, with at least two bits of `m` below
the last place of any format it is rounded to: the same rounding as the value. -/
def roundBetween (f : Fmt) (rm : Rm) (neg : Bool) (m : Nat) (e : Int) : Nat × FFlags :=
  roundTo f rm false neg (4 * m + 1) (e - 2)

/-- R71: the sign of an exact zero sum of operands with these signs. -/
def zeroSign (rm : Rm) (n1 n2 : Bool) : Bool := if n1 == n2 then n1 else rm == .rd

/-- A signed magnitude as an integer. -/
def signedInt (neg : Bool) (m : Nat) : Int := if neg then -(m : Int) else (m : Int)

/-- An exact sum of two dyadic values: the integer and its exponent. -/
def addExact (n1 : Bool) (m1 : Nat) (e1 : Int) (n2 : Bool) (m2 : Nat) (e2 : Int) : Int × Int :=
  let e := min e1 e2
  (signedInt n1 (m1 * 2 ^ (e1 - e).toNat) + signedInt n2 (m2 * 2 ^ (e2 - e).toNat), e)

/-- Round an exact dyadic value; a zero takes the given sign. -/
def roundInt (f : Fmt) (rm : Rm) (zneg : Bool) (x : Int) (e : Int) : Nat × FFlags :=
  if x = 0 then (f.signed zneg 0, 0) else roundTo f rm false (decide (x < 0)) x.natAbs e

end Sys2Proof.Machine
end

