-- ==== Sys2Proof/Machine/Arith.lean ====
section
/-!
DEFINITION. Floating arithmetic on encodings (04_numbers.md, 07_float_instr.md): each function takes the bit patterns of
a format and gives the pattern of the result with the flags it raises. The exact value is formed first and rounded
once.
-/

namespace Sys2Proof.Machine

/-- The canonical NaN with the flags. -/
def Fmt.qnan (f : Fmt) (fl : FFlags) : Nat × FFlags := (f.nanCode, fl)

/-- NV when one of the operands is a signalling NaN (R73). -/
def snanFlag (xs : List FV) : FFlags := flagIf (xs.any FV.isSNaN) fNV

/-- Round(a + b), with `b` negated for a subtraction (R134). -/
def fAddV (f : Fmt) (rm : Rm) (a b : FV) : Nat × FFlags :=
  let sf := snanFlag [a, b]
  match a, b with
  | .nan _, _ => f.qnan sf
  | _, .nan _ => f.qnan sf
  | .inf n1, .inf n2 => if n1 = n2 then (f.signed n1 f.infCode, 0) else f.qnan fNV
  | .inf n1, _ => (f.signed n1 f.infCode, 0)
  | _, .inf n2 => (f.signed n2 f.infCode, 0)
  | .fin n1 m1 e1, .fin n2 m2 e2 =>
    let x := addExact n1 m1 e1 n2 m2 e2
    roundInt f rm (zeroSign rm n1 n2) x.1 x.2

/-- The value with its sign inverted. -/
def FV.negate : FV → FV
  | .nan b => .nan b
  | .inf n => .inf (!n)
  | .fin n m e => .fin (!n) m e

def fAdd (f : Fmt) (rm : Rm) (a b : Nat) : Nat × FFlags := fAddV f rm (f.val a) (f.val b)
def fSub (f : Fmt) (rm : Rm) (a b : Nat) : Nat × FFlags := fAddV f rm (f.val a) (f.val b).negate

/-- Round(a × b) (R134). -/
def fMul (f : Fmt) (rm : Rm) (a b : Nat) : Nat × FFlags :=
  let x := f.val a
  let y := f.val b
  let sf := snanFlag [x, y]
  let n := x.neg != y.neg
  match x, y with
  | .nan _, _ => f.qnan sf
  | _, .nan _ => f.qnan sf
  | .inf _, z => if z.isZero then f.qnan fNV else (f.signed n f.infCode, 0)
  | z, .inf _ => if z.isZero then f.qnan fNV else (f.signed n f.infCode, 0)
  | .fin _ m1 e1, .fin _ m2 e2 => if m1 * m2 = 0 then (f.signed n 0, 0) else roundTo f rm false n (m1 * m2) (e1 + e2)

/-- The product of 0 and an infinity (R135). -/
def zeroTimesInf (x y : FV) : Bool := (x.isZero && y.isInf) || (x.isInf && y.isZero)

/-- Round(±(a × b) ± d) with the product exact (R134, R135). `np` negates the product, `nd` the addend. -/
def fFused (f : Fmt) (rm : Rm) (np nd : Bool) (a b d : Nat) : Nat × FFlags :=
  let x := f.val a
  let y := f.val b
  let z := if nd then (f.val d).negate else f.val d
  let n := (x.neg != y.neg) != np
  if zeroTimesInf x y then f.qnan fNV
  else
    let sf := snanFlag [x, y, z]
    match x, y, z with
    | .nan _, _, _ => f.qnan sf
    | _, .nan _, _ => f.qnan sf
    | _, _, .nan _ => f.qnan sf
    | .fin _ m1 e1, .fin _ m2 e2, .fin n3 m3 e3 =>
      let w := addExact n (m1 * m2) (e1 + e2) n3 m3 e3
      roundInt f rm (zeroSign rm n n3) w.1 w.2
    | .fin _ _ _, .fin _ _ _, .inf n3 => (f.signed n3 f.infCode, 0)
    | _, _, .inf n3 => if n = n3 then (f.signed n f.infCode, 0) else f.qnan fNV
    | _, _, _ => (f.signed n f.infCode, 0)

/-- The order of two values that are not NaNs; −0 equals +0. -/
def FV.cmp (x y : FV) : Ordering :=
  match x, y with
  | .inf n1, .inf n2 => if n1 = n2 then .eq else if n1 then .lt else .gt
  | .inf n1, _ => if n1 then .lt else .gt
  | _, .inf n2 => if n2 then .gt else .lt
  | .fin n1 m1 e1, .fin n2 m2 e2 =>
    let w := (addExact n1 m1 e1 (!n2) m2 e2).1
    if w < 0 then .lt else if w = 0 then .eq else .gt
  | _, _ => .eq

/-- `x` comes before `y` for a minimum: less, or −0 before +0 (R134). -/
def FV.before (x y : FV) : Bool := x.cmp y == .lt || (x.cmp y == .eq && x.neg && !y.neg)

/-- IEEE minimum and maximum: a NaN operand gives NaN (R134, R135). -/
def fMinMax (f : Fmt) (isMax : Bool) (a b : Nat) : Nat × FFlags :=
  let x := f.val a
  let y := f.val b
  let sf := snanFlag [x, y]
  if x.isNaN || y.isNaN then f.qnan sf
  else if (if isMax then y.before x else x.before y) then (a, 0) else (b, 0)

/-- IEEE minimumNumber and maximumNumber: with one NaN operand, the other (R134, R135). -/
def fMinMaxNum (f : Fmt) (isMax : Bool) (a b : Nat) : Nat × FFlags :=
  let x := f.val a
  let y := f.val b
  let sf := snanFlag [x, y]
  if x.isNaN && y.isNaN then f.qnan sf
  else if x.isNaN then (b, sf)
  else if y.isNaN then (a, sf)
  else if (if isMax then y.before x else x.before y) then (a, 0) else (b, 0)

/-- fabs, fneg, fcopysign: the canonical NaN for a NaN in a, no flag (R135). -/
def fSignOp (f : Fmt) (a : Nat) (neg : Bool) : Nat × FFlags :=
  if (f.val a).isNaN then f.qnan 0 else (f.signed neg (a % f.signBit), 0)
def fAbsF (f : Fmt) (a : Nat) : Nat × FFlags := fSignOp f a false
def fNegF (f : Fmt) (a : Nat) : Nat × FFlags := fSignOp f a (!bit a (f.fb + f.eb))
def fCopySign (f : Fmt) (a b : Nat) : Nat × FFlags := fSignOp f a (bit b (f.fb + f.eb))

/-- fsat: clamped to [+0, 1] (R134, R135). -/
def fSat (f : Fmt) (a : Nat) : Nat × FFlags :=
  let oneCode := f.bias * 2 ^ f.fb
  match f.val a with
  | .nan b => (0, flagIf b fNV)
  | x => if x.neg || x.isZero then (0, 0) else if oneCode < a then (oneCode, 0) else (a, 0)

/-- A value rounded to an integral value in a mode: sign, magnitude, inexact (R134). -/
def roundIntegral (rm : Rm) (n : Bool) (m : Nat) (e : Int) : Nat × Bool :=
  let r := roundAt rm n m e 0
  r

/-- frint and ftrunc (R134, R135). -/
def fRint (f : Fmt) (rm : Rm) (raise : Bool) (a : Nat) : Nat × FFlags :=
  match f.val a with
  | .nan b => f.qnan (flagIf b fNV)
  | .inf n => (f.signed n f.infCode, 0)
  | .fin n m e =>
    let r := roundIntegral rm n m e
    let v := if r.1 = 0 then f.signed n 0 else (roundTo f .rz false n r.1 0).1
    (v, flagIf (raise && r.2) fNX)

/-! ## Comparisons and classes (R147, R148) -/

/-- The relation of two operands: less, equal, greater, unordered. -/
def fRel (f : Fmt) (a b : Nat) : Option Ordering :=
  let x := f.val a
  let y := f.val b
  if x.isNaN || y.isNaN then none else some (x.cmp y)

/-- NV of a comparison: of a quiet one for a signalling NaN, of a signalling one for any NaN (R147). -/
def cmpFlags (f : Fmt) (signalling : Bool) (a b : Nat) : FFlags :=
  let x := f.val a
  let y := f.val b
  flagIf (x.isSNaN || y.isSNaN || (signalling && (x.isNaN || y.isNaN))) fNV

/-- fclass (R148). -/
def fClass (f : Fmt) (a : Nat) : Nat :=
  match f.val a with
  | .nan s => if s then 1 else 2
  | .inf n => if n then 4 else 512
  | .fin n m _ =>
    if m = 0 then (if n then 32 else 64)
    else if bits a f.fb f.eb = 0 then (if n then 16 else 128)
    else if n then 8 else 256

/-! ## Conversions (R76) -/

/-- A value of one floating format rounded to another (R76). -/
def fConvert (src dst : Fmt) (rm : Rm) (sat : Bool) (a : Nat) : Nat × FFlags :=
  match src.val a with
  | .nan s =>
    match dst.sp with
    | .none => (0, fNV)
    | _ => dst.qnan (flagIf s fNV)
  | .inf n =>
    match dst.sp with
    | .ieee => if sat then (dst.signed n dst.maxCode, 0) else (dst.signed n dst.infCode, 0)
    | .nanOnly => if sat then (dst.signed n dst.maxCode, 0) else dst.qnan fNV
    | .none => (dst.signed n dst.maxCode, fNV)
  | .fin n m e => if m = 0 then (dst.signed n 0, 0) else roundTo dst rm sat n m e

/-- A value rounded to an integer range, saturating (R76): the integer and its flags. -/
def fToInt (f : Fmt) (rm : Rm) (lo hi : Int) (a : Nat) : Int × FFlags :=
  match f.val a with
  | .nan _ => (0, fNV)
  | .inf n => (if n then lo else hi, fNV)
  | .fin n m e =>
    let r := roundIntegral rm n m e
    let v := signedInt n r.1
    if v < lo then (lo, fNV) else if hi < v then (hi, fNV) else (v, flagIf r.2 fNX)

/-- An integer rounded to a floating format (R76). -/
def fOfInt (f : Fmt) (rm : Rm) (x : Int) : Nat × FFlags := roundInt f rm false x 0

/-! ## Exact sums (R79, R80, R151) -/

/-- The running state of an exact sum: a NaN met, an invalid operation met, the infinities and the signs met, and the
finite part `val * 2^exp`. -/
structure XSum where
  nan  : Bool
  nv   : Bool
  pinf : Bool
  ninf : Bool
  pos  : Bool
  neg  : Bool
  val  : Int
  exp  : Int
  deriving DecidableEq, Repr

/-- The empty sum. -/
def XSum.zero : XSum :=
  { nan := false, nv := false, pinf := false, ninf := false, pos := false, neg := false, val := 0, exp := 0 }

/-- Add a value to an exact sum. -/
def XSum.add (s : XSum) (v : FV) : XSum :=
  match v with
  | .nan b => { s with nan := true, nv := s.nv || b }
  | .inf n => { s with pinf := s.pinf || !n, ninf := s.ninf || n }
  | .fin n m e =>
    let x := addExact (decide (s.val < 0)) s.val.natAbs s.exp n m e
    { s with val := x.1, exp := x.2, pos := s.pos || !n, neg := s.neg || n }

/-- An exact product of two values, and whether it is invalid: 0 × ∞ (R79). -/
def FV.mul (x y : FV) : FV × Bool :=
  let n := x.neg != y.neg
  match x, y with
  | .nan _, _ => (.nan false, false)
  | _, .nan _ => (.nan false, false)
  | .fin _ m1 e1, .fin _ m2 e2 => (.fin n (m1 * m2) (e1 + e2), false)
  | _, _ => if zeroTimesInf x y then (.nan false, true) else (.inf n, false)

/-- Add an exact product to an exact sum. -/
def XSum.addMul (s : XSum) (x y : FV) : XSum :=
  let p := x.mul y
  let t := s.add p.1
  { t with nv := t.nv || p.2 || x.isSNaN || y.isSNaN }

/-- Scale an exact sum by a power of two (R78). -/
def XSum.scale (s : XSum) (n : Int) : XSum := { s with exp := s.exp + n }

/-- Round an exact sum once (R79): the specials, then the finite value; an exact zero takes the sign its terms share,
else the sign of R71. -/
def XSum.round (s : XSum) (f : Fmt) (rm : Rm) : Nat × FFlags :=
  if s.nan || (s.pinf && s.ninf) then f.qnan (flagIf (s.nv || (s.pinf && s.ninf)) fNV)
  else if s.pinf then (f.signed false f.infCode, 0)
  else if s.ninf then (f.signed true f.infCode, 0)
  else roundInt f rm (if !s.pos && s.neg then true else if !s.neg then false else rm == .rd) s.val s.exp

end Sys2Proof.Machine
end

