-- ==== Sys2Proof/Machine/State.lean ====
section
/-!
DEFINITION. The state of the machine as plain data, every piece of it that the spec names, and the state after reset.
Sparse contents are finite tables in canonical form (Word.lean, Machine/Table.lean).
-/

namespace Sys2Proof.Machine

/-! ## The thread and its flight (05_thread.md) -/

/-- The four outstanding-counter classes (R212). -/
inductive Cls where
  | ld | st | cp | mx
  deriving DecidableEq, Repr

/-- What holds a group or a thread (R210). -/
inductive Stall where
  | counters      -- WAIT whose thresholds are not met
  | queue         -- qpop on an empty endpoint, qpush on a full one
  | barrier       -- bar.l, bar.s, await, bar.phase, a second arrive
  | signature     -- a second signature on an open round
  | reduction     -- rdz awaiting its number, a second redz on an open round
  | hallQueue     -- hqtake while empty, hpost without credit
  | access        -- an access whose tile is absent or whose acceptance is awaited
  | classFull     -- the counter class stands at 63
  | scoreboard    -- a local hall access under a recorded range, or no entry free
  | tracker       -- no retirement-tracker entry free
  | engine        -- no engine slot, buffer entry or completion entry free
  | register      -- a register whose load has not returned
  | result        -- sc or pin.code awaiting its result
  deriving DecidableEq, Repr

/-- R210: every stall is long but the register and the result stall. -/
def Stall.long : Stall → Bool
  | .register => false
  | .result => false
  | _ => true

/-- R209, R210: a stall that holds the whole group; the others hold single threads of it. -/
def Stall.group : Stall → Bool
  | .barrier => false
  | .signature => false
  | .reduction => false
  | .result => false
  | _ => true

/-- R90: a running thread belongs to a path group; a parked one continues at its pc when released. -/
inductive Cond where
  | running | parked | exited
  deriving DecidableEq, Repr

/-- R103: a value on the bypass network. `left` counts the non-hint instructions still in its window. -/
structure Transient where
  reg  : Nat
  val  : Word
  left : Nat
  deriving DecidableEq, Repr

/-- What ends a lease (R217): an operation of a counter class, or a pending pop of a queue register. -/
inductive Lessee where
  | op (cls : Cls) (n : Nat)
  | pop (q : Nat)
  deriving DecidableEq, Repr

/-- R217: a register leased to an engine. -/
structure Lease where
  reg : Nat
  by_ : Lessee
  deriving DecidableEq, Repr

/-- The three kinds of memory a byte can live in: an HBM stack (by physical address), the hall memory of a cluster
(`cluster * 2^26 + hall address`), the host's memory over CXL.cache (by host physical address). -/
inductive Space where
  | stack | hall | host
  deriving DecidableEq, Repr

/-- R198: the address space, the key id and the 64-byte granule of a reservation. -/
structure Reservation where
  space   : Space
  key     : Nat
  granule : Nat
  deriving DecidableEq, Repr

/-- A thread: one lane of a resident flight (R90–R95, R99, R176). -/
structure Thread where
  pc       : DWord
  cond     : Cond
  regs     : Tab Word           -- v0 .. v(N-1), unlisted registers hold 0
  preds    : BitVec 8           -- p1 .. p7 in bits 7..1; bit 0 is not used
  x0       : Word               -- index registers: limit [15:8], index [7:0]
  x1       : Word
  x2       : Word
  x3       : Word
  hmode    : Bool
  cause    : Word               -- the trap registers, 0 outside handler mode
  finfo    : Word
  fpc      : DWord
  fnpc     : DWord
  faddr    : DWord
  hscratch : Tab Word           -- cr.hscratch0-3
  trans    : List Transient
  leases   : List Lease
  loads    : List (Nat × Nat)   -- register and LD operation of the flight that will write it (R183)
  resv     : Option Reservation
  crossed  : Option DWord       -- the instruction at this pc has been held for an access that crosses the mesh (R210, R295)
  relFenced : Bool              -- a fence.rel or fence.ar at package or system scope has issued (R369)
  sysFenced : Bool              -- one at system scope has issued: its order holds towards the host too (R372)
  lrsc     : Option Nat         -- instructions issued since the lr of a constrained sequence (R99)
  held     : Option Stall       -- the last attempt was held; cleared by the next event
  arrL     : Option Nat         -- the generation of an outstanding arrival on the landing barrier (R229)
  arrS     : Option Nat         -- the same, on the span barrier
  barNow   : Option (Bool × DWord)  -- a bar.s (true), bar.l or bar.phase has made its arrival, or a phase boundary holds the
                                    -- thread (R348); the word after the barrier instruction
  pwait    : List (Nat × Nat)   -- predicate and ST operation of a tracked raise that will write it (R342)
  raise    : Option Nat         -- the thread's last raise code (R342)
  exiting  : Bool               -- tail was executed (R164)
  deriving DecidableEq, Repr

/-- Whether the group that holds a flight's slot has to give it up to the next ready group (R97): not, by the fairness timer
(R98), by a yield (R164). -/
inductive Gives where
  | no | timer | yield
  deriving DecidableEq, Repr

/-- The slot of a flight before the hints of a group, which an attempt that is held gives back. -/
structure SlotState where
  lead  : Nat
  gives : Gives
  timer : Nat
  tally : Nat
  deriving DecidableEq, Repr

/-- The hint words of the group being issued (R44–R49). -/
structure ModHint where
  ov : Bool
  order : BitVec 2
  rv : Bool
  rm : BitVec 2
  sv : Bool
  sat : Bool
  scv : Bool
  scope : BitVec 3
  cv : Bool
  cache : BitVec 2
  nr : Bool
  deriving DecidableEq, Repr

/-- The hints issued so far of a group that has not yet reached its instruction, with the lanes and the address of
its first word (R48, R49). -/
structure HintState where
  lanes : List Nat
  start : DWord
  imm   : Option (BitVec 24)
  mods  : Option ModHint
  sched : Option (Bool × BitVec 8)
  back  : SlotState
  deriving DecidableEq, Repr

/-- R212: a counter class of a flight. `issued` operations have joined, numbered from 0; all below `base` are complete;
`done` are the complete ones at or above it. -/
structure Counter where
  issued : Nat
  base   : Nat
  done   : List Nat
  deriving DecidableEq, Repr

/-- R218: an entry of an endpoint: eight slots and a valid mask. -/
structure Entry where
  slots : List Word
  valid : BitVec 8
  deriving DecidableEq, Repr

/-- R218, R221: the bounded queue of entries behind a completion or result endpoint of a flight: entries posted, entries
reserved by accepted operations, whether an error was reported, and the queue registers with a pending pop on it, in
the order in which it accepted them. -/
structure Endpoint where
  entries  : List Entry
  reserved : Nat
  error    : Bool
  waiters  : List Nat
  deriving DecidableEq, Repr

/-- What a pending pop delivers: an entry, an entry clamped by cla.vote, hall entries to a quad, a ring chunk, an
arrival notice (R220, R283, R299, R451, R459). -/
inductive PopKind where
  | entry | vote | take | claim | recv
  deriving DecidableEq, Repr

/-- R218, R220: a blocking pop that found its queue empty: the register it leases, the lanes, the word they will go
on at. -/
structure PendingPop where
  kind  : PopKind
  reg   : Nat
  lanes : List Nat              -- G
  group : List Nat              -- the whole path group, which waits with them
  npc   : DWord
  start : DWord
  deriving DecidableEq, Repr

/-- R218, R224: a queue register: its binding (class and instance), the status of the last qbind, its pending pop, and
the credits a binding to a hall message queue holds (R297). -/
structure QueueReg where
  bound  : Option (Nat × Nat)
  status : Nat
  pend   : Option PendingPop
  credit : Nat
  made   : Nat                  -- which queue a class 8 binding is to, by its creation (R299)
  deriving DecidableEq, Repr

/-- A flight: eight threads on one bay (R89, R96–R100, R204, R209–R212). -/
structure Flight where
  bay     : Nat
  active  : Bool                -- in the bay's active set
  since   : Nat                 -- the die's cycle count at which it entered the pending set
  advice  : Bool                -- a swap advised by hint.sched or yield
  lead    : Nat                 -- a lane of the group that holds the slot, or of the one that gave way (R97)
  gives   : Gives               -- that group gives the slot up
  timer   : Nat                 -- issue slots used by the executing group (R98)
  tally   : Nat                 -- instructions issued since the timer expired (R99)
  hint    : Option HintState
  expect  : Tab Byte            -- E(j), unlisted 0
  arrived : Tab Byte            -- A(j), unlisted 0
  fpflags : BitVec 5
  tcount  : Word
  queues  : Tab QueueReg
  ends    : Tab Endpoint        -- endpoints of classes 0, 1, 3, 4, 5
  cLd     : Counter
  cSt     : Counter
  cCp     : Counter
  cMx     : Counter
  opStamps : List (Cls × Nat × List Nat)   -- clocks that complete engine operations need covered (R377)
  cover   : List Nat            -- the clock that the flight's WAITs have made later accesses follow (R377)
  deriving DecidableEq, Repr

/-! ## The landing and the tread (10_core.md, 15_nests.md) -/

/-- R243, R244: the A row of one thread of a set, with its scale register. -/
structure ARow where
  row   : Nat
  words : List Word
  scale : Option Word           -- present when it was read for a block-scaled operation
  deriving DecidableEq, Repr

/-- R244: a reuse latch of the engine. -/
structure Latch where
  lid   : Nat
  c     : Nat
  abase : Nat
  afmt  : Nat
  rows  : List ARow
  deriving DecidableEq, Repr

/-- What a signing thread asks of its round (R226, R245). -/
structure Signature where
  thread : Nat
  abst   : Bool                 -- abstaining: csign, or a false guard
  fn     : Nat                  -- 0 mma, 1 mma.bs, 2 mma.z, 3 csign
  tile   : Nat
  abase  : Nat
  kreg   : Nat
  reuse  : Bool
  fmt    : Word
  handle : Word
  index  : Word                 -- the tile index of the record
  arow   : Option ARow          -- the row of the thread, from its registers or the latch
  latch  : Option Latch         -- the latch that the round uses for every row it holds (R244)
  pc     : DWord
  npc    : DWord
  deriving DecidableEq, Repr

/-- R226: a convergence register. -/
structure Conv where
  decl  : Option (Nat × Nat)    -- first flight, size code
  signs : List Signature
  gen   : Nat
  deriving DecidableEq, Repr

/-- R229, R230: an arrival: the thread (256 * landing number + thread number), and the number its later accesses start
at, since the arrival is a release of its earlier ones. -/
structure Arrival where
  thread : Nat
  upto   : Nat
  clock  : List Nat
  npc    : DWord                -- the word after the barrier instruction by which the thread arrived (R348)
  deriving DecidableEq, Repr

/-- R229: a barrier: its generation, the arrivals, whether bar.phase was among them. -/
structure Barrier where
  gen     : Nat
  arrived : List Arrival
  phase   : Bool
  deriving DecidableEq, Repr

/-- R234: one contribution to a reduction round. -/
structure Contribution where
  thread  : Nat
  value   : Word
  guarded : Bool                -- the guard was true
  deriving DecidableEq, Repr

/-- R234: a reduction register: value, sequence number, and the open rounds' op and contributions. -/
structure Reduction where
  value : Word
  seq   : BitVec 16
  op    : Option Nat
  contr : List Contribution
  deriving DecidableEq, Repr

/-- R106, R109: what the first ended tread of a nest writes into the completion record. -/
structure FaultRec where
  finfo  : Word
  thread : Nat
  core   : Nat
  fpc    : DWord
  faddr  : DWord
  i0     : Word
  i1     : Word
  i2     : Word
  i3     : Word
  flags  : BitVec 5
  order  : Nat                  -- the model's own: its place among all endings, given as the tread ends
  cycle  : Nat                  -- the model's own: the cycle of its die in which it was found
  deriving DecidableEq, Repr

/-! ## Memory (14_cluster.md, 19_ordering.md, 21_memory.md) -/

/-- R409, R410: the metadata of a tile; its tag is that of AES-256-GCM over the tile. -/
structure TileMeta where
  tag       : BitVec 128
  version   : BitVec 32
  epoch     : BitVec 16
  gen       : BitVec 16
  key       : Nat
  unwritten : Bool
  poisoned  : Bool
  exhausted : Bool
  slot      : BitVec 1
  deriving DecidableEq, Repr

/-- R410: a metadata unit at provisioning: zero but for the unwritten bit. -/
def TileMeta.fresh : TileMeta :=
  { tag := 0, version := 0, epoch := 0, gen := 0, key := 0, unwritten := true, poisoned := false,
    exhausted := false, slot := 0 }

/-- R311, R312: a tile resident in its gallery. `prio` is the code of R185; `used` orders the entries for
replacement; `data` holds its bytes by offset, unlisted bytes 0. -/
structure GalEntry where
  key      : Nat
  dirty    : Bool
  poisoned : Bool
  uncorr   : Bool              -- its fill found an uncorrectable error (R182)
  prio     : Nat
  used     : Nat
  data     : Tab Byte
  deriving DecidableEq, Repr

/-- What waits at a bank (R402): the fill of a tile that an access has asked for (R313), the write-back of a fill's victim, the
request of a rotation sweep in the system sub-queue. -/
inductive BankReq where
  | fill | writeBack | sweep
  deriving DecidableEq, Repr

/-- A request that waits at the bank of a tile (R313, R402). -/
structure FillReq where
  tile : Nat
  key  : Nat
  prio : Nat
  by_  : Option (Nat × Nat)    -- the nest of the tread that asked: instance and nest (R419)
  kind : BankReq
  deriving DecidableEq, Repr

/-- What an access does (R187–R201). -/
inductive AccKind where
  | load | store | atomic (fn : Nat) | lr | fence
  deriving DecidableEq, Repr

/-- How far an access has come in the Arcade machine (R370). -/
inductive AccStage where
  | issued      -- in the issue queue, a write also in the store buffer
  | drained     -- a write on its way to its home
  | applied     -- applied at its home
  | bound       -- a read that has its value
  deriving DecidableEq, Repr

/-- R367: an issued per-lane access that is not yet performed, or a fence between accesses. -/
structure Access where
  id     : Nat
  fk     : Nat
  lane   : Nat
  kind   : AccKind
  acq    : Bool
  rel    : Bool
  scope  : Nat
  space  : Space
  addr   : Nat                 -- where the bytes live in that space
  size   : Nat
  key    : Nat
  prio   : Nat
  data   : Nat                 -- the value to write, or an atomic's operand
  cmp    : Nat                 -- an atomic's comparand
  signed : Bool                -- a load narrower than a register is sign-extended
  dest   : List Nat            -- registers a value returns to
  cls    : Option (Cls × Nat)  -- the operation of the flight it belongs to
  core   : Nat
  stage  : AccStage
  causal : Bool                -- a causal write (R369)
  sys    : Bool                -- its order is at system scope: it holds towards the host too (R372)
  clock  : List Nat            -- the clock a causal write carries from its drain (R370), zeros otherwise
  value  : Option Nat          -- the value read
  stamp  : Option Nat          -- the home component of the stamp of its write, or of the write it read
  returned : Bool              -- the value has been written to its destination
  cover  : List Nat            -- the clock that a WAIT before it has made it follow (R377), four components
  seen   : List Nat            -- the clock of the host-homed write that an acquire read took (R371, R376)
  flags  : BitVec 5            -- flags raised when it was applied, which the flight gets when it completes (R194)
  deriving DecidableEq, Repr

/-- R370: a stamped write on its way to the mirrors of other dies. -/
structure MirrorWrite where
  home  : Nat                  -- die of the home
  stamp : List Nat             -- four components
  addr  : Nat
  key   : Nat
  bytes : List Byte
  wipe  : Bool                 -- zero, for every byte of the home under the key id (R384, R415)
  deriving DecidableEq, Repr

/-- A translation of one page (R405, R406). -/
structure PageMap where
  va    : Nat                  -- base, as a 57-bit number
  size  : Nat                  -- bytes
  pa    : Nat
  key   : Nat
  host  : Bool
  x     : Bool
  w     : Bool
  r     : Bool
  part  : Nat
  deriving DecidableEq, Repr

/-- R323: a leased range of a nest: base, length, access, and its pinned translations. -/
structure LeaseRange where
  base  : Nat
  len   : Nat
  r     : Bool
  w     : Bool
  pages : List PageMap
  deriving DecidableEq, Repr

/-- R56: a line of a code cache: 128 bytes as 32 words, tagged by virtual address and key id. -/
structure CodeLine where
  va     : Nat
  key    : Nat
  part   : Nat
  pinned : Bool
  words  : List Word
  deriving DecidableEq, Repr

/-- R237: a recorded destination range of a copy-class operation in the core's own slice. -/
structure RangeRec where
  fk  : Nat
  op  : Nat
  lo  : Nat                    -- in hall space
  hi  : Nat
  deriving DecidableEq, Repr

/-- R404: the state of a key id. -/
inductive KeyState where
  | free | assigned | rotating | scrubbing
  deriving DecidableEq, Repr

/-- R404: an entry of Newel's key table. The two keys are kept as the names of the secrets installed. -/
structure KeyEntry where
  state : KeyState
  slots : Nat × Nat
  cur   : BitVec 1
  gen   : BitVec 16
  part  : Option Nat
  clearing : Bool              -- a background clear is under way (R415)
  deriving DecidableEq, Repr

/-- R418: a logged failure of memory. -/
structure MemError where
  stack : Nat
  tile  : Nat
  scope : Nat                  -- 0 tread, 1 nest instance, 2 partition, 3 device (R419)
  kind  : Nat
  time  : Nat
  deriving DecidableEq, Repr

/-- The memory system. -/
structure Memory where
  stack   : List Host.Cell     -- plaintext of the stacks by physical address, unlisted bytes 0
  tmeta   : Tab TileMeta       -- by physical tile number, unlisted units fresh
  gallery : Tab GalEntry       -- resident tiles by physical tile number
  fills   : List FillReq       -- the requests that wait at the banks, oldest first (R402)
  hall    : List Host.Cell     -- hall memory of all clusters, unlisted bytes 0
  host    : List Host.Cell     -- host memory, unlisted bytes 0
  hostBad : List Nat           -- 64-byte units of host memory that report poison
  hallBad : List Nat           -- hall bytes with an uncorrectable error
  mirror  : List Host.Cell     -- (1024 * die + key id) * 2^48 + physical address, unlisted bytes 0
  stamps  : Tab Nat            -- by physical address, stamp of the last write at its home, unlisted 0
  clocks  : Tab Nat            -- V_D[e] by 4*D+e, unlisted 0
  accs    : List Access        -- issue queues and store buffers, in issue order
  nextAcc : Nat
  outbox  : List MirrorWrite   -- applied, not yet sent
  inbox   : List (Nat × MirrorWrite)   -- apply queues, by die, in arrival order
  tlb1    : Tab (List PageMap) -- L1 TLB of each core
  tlb2    : Tab (List PageMap) -- L2 TLB slice of each core
  l0      : Tab (List CodeLine)
  ccache  : Tab (List CodeLine)
  ranges  : Tab (List RangeRec)
  keys    : Tab KeyEntry
  rollover : Tab Nat           -- 64-bit roll-over counter of each stack (R413)
  soft    : Tab Nat            -- corrected errors of each stack (R418)
  softCore : Tab Nat           -- corrected errors of each core and its Colonnade (R240, R290)
  softCluster : Tab Nat        -- corrected errors of each cluster (R316)
  softDie : Tab Nat            -- corrected errors of each die's Stairwell (R344)
  softFabric : Tab Nat         -- corrected errors of each port's vestibule and rings (R461)
  tableErrors : Tab Nat        -- uncorrectable errors in a port's tables (R461)
  errors  : List MemError
  galUse  : Nat                -- the model's own: next value of GalEntry.used
  throttled : List (Nat × Nat) -- throttled rows with their key ids (R402)
  acts    : Tab Nat            -- activations of a tile's rows in this refresh window (R402)
  rowHits : Tab (Nat × Nat)    -- by bank group: the open row's tile, the requests that it has served beyond the first (R402)
  damaged : Tab Nat            -- what the next read of a tile from its stack finds: 1 the tag fails, 2 uncorrectable data, 3 uncorrectable metadata (R418)
  found   : List (Nat × Nat × Option (Nat × Nat))   -- failures met and not yet contained: physical tile, kind, the nest of the tread that met it (R419)
  meeter  : Option (Nat × Nat) -- the model's own: the nest of the tread that is at work (R419)
  hostClocks : Tab (List Nat)  -- by host address: the clock of the causal write that stands there (R376), unlisted zeros
  hostSys    : Tab (List Nat)  -- the same at system scope: of a device's write at that scope, and of the host's own
  tlbWalk : Tab (List PageMap) -- walk-ahead TLB of each core's copy engine (R252)
  linkUp  : Bool               -- the CXL link (R422)
  recal   : Nat                -- pseudo-channel recalibrated last (R420)
  training : List Byte         -- the results that the stacks' interfaces run with; none before training (R420)
  deriving DecidableEq, Repr

/-- R404: a partition, with what the host gives it (R98, R355, R423, R429). -/
structure Partition where
  cores    : List Nat
  keys     : List Nat
  pages    : List (Nat × Nat)  -- ranges of physical tiles: first, count
  root     : Nat               -- physical address of the root of its page tables
  tabKey   : Nat               -- key id of its page tables
  saveBase : Nat               -- save region (R355): virtual base and length
  saveLen  : Nat
  fair     : Nat               -- fairness period (R98)
  resetting : Bool             -- a reset of it is under way (R429, R461); its queues admit nothing
  halted   : Bool              -- halt-debug has stopped its landings (R433)
  debugKey : Nat               -- the debug key registered at its creation (R433)
  token    : Option Nat        -- a debug token's expiry cycle count (R433)
  nonce    : List Byte         -- the nonce of its last attestation (R433)
  nextInst : Nat               -- its counter of instance numbers (R324)
  notices  : Nat               -- notifications under the escalation table (R419)
  deriving DecidableEq, Repr

/-- A landing resident on a core (R89, R204–R207, R325). -/
structure Landing where
  tid     : Nat                 -- its tread
  number  : Nat                 -- landing number in the span
  core    : Nat                 -- package-wide core number
  flights : Nat                 -- F
  regs    : Nat                 -- N, the allocation of each thread (R91)
  hallBase : Nat                -- hall address of its hall range
  hallLen : Nat
  entry   : DWord
  handler : Option DWord
  key     : Nat                 -- s.key
  conv    : Tab Conv
  bar     : Barrier
  red     : Tab Reduction
  spell   : Nat                 -- the model's own: phase boundaries at which it has left its core (R348)
  tailed  : Bool                -- some thread has ended with tail
  phased  : Bool
  carry   : Nat                 -- the carry mask
  phases  : Nat                 -- phase count (R347)
  preempts : Nat                -- times pre-empted (R347)
  boundary : Bool               -- a phase boundary has completed; the spill is due (R348)
  placed  : Nat                 -- its die's wall clock at its placement (R353)
  freed   : Bool                -- its registers and flight slots are free: spilled, saved, or tailed
  saveAt  : Option Nat          -- virtual address of its save area (R355)
  applied : List Nat            -- pre-emption requests that have pre-empted it (R352)
  tiles   : List Nat            -- tiles its operations have written since placement or resumption (R256)
  deriving DecidableEq, Repr

/-- Where a tread stands: released and queued, running, spilled at a phase boundary and queued again, saved and
queued, kept out by a park request (R352), being saved (R354), leaving at a boundary under a request (R348), retired while results of its flights are still outstanding (R164). -/
inductive TreadStage where
  | queued | running | saving | spilled | saved | parked | retired
  deriving DecidableEq, Repr

/-- A tread under execution: one landing, or a span of landings (R11, R303). -/
structure Tread where
  run      : Nat                -- the stairway it belongs to
  nest     : Nat                -- nest index in the stairway
  record   : DWord              -- the nest's completion record
  point    : List Int           -- i0 .. i3
  die      : Nat                -- the die it is resident on
  owner    : Nat                -- the die that released it
  age      : Nat
  span     : Nat                -- landings of the span
  landings : List Nat
  part     : Nat                -- partition
  args     : DWord
  sinst    : Word
  sbar     : Barrier
  leases   : List LeaseRange
  needs    : List Nat           -- the clock the tread's acquire events carry (R381)
  ending   : Option FaultRec    -- R108: the tread has been ended
  cancelled : Bool              -- R344: ended by a cancellation, without a record
  stage    : TreadStage
  avoid    : Option Nat         -- a move resumes on another core (R352)
  atOnce   : Bool               -- and at once, ahead of the queue: its place has not been looked for yet
  deriving DecidableEq, Repr

/-! ## Engines of a core and queues of a cluster (11_matrix.md, 12_colonnade.md, 14_cluster.md) -/

/-- R248: a tensor record, as its fields stand at the record check. -/
structure Tensor where
  hall    : Bool
  fmt     : Nat
  tk      : Nat
  rank    : Nat
  base    : Nat
  dims    : List Nat            -- d0 to d4
  strides : List Int            -- s1 to s4
  scale   : Nat
  deriving DecidableEq, Repr

/-- The members of MMA and ACC. -/
inductive MxKind where
  | mma (fn : Nat) | zero | ld | st | rd | tab
  deriving DecidableEq, Repr

/-- Who an engine operation is for and where an ending it meets is reported (R109): tread, core, flight, lowest lane,
fault pc. -/
structure Issuer where
  tid  : Nat
  spell : Nat                   -- the spell of its landing between phase boundaries (R348)
  core : Nat
  fk   : Nat
  lane : Nat
  pc   : DWord
  deriving DecidableEq, Repr

/-- R257: a matrix or accumulator operation accepted by a core's engine and not complete. -/
structure MxOp where
  kind  : MxKind
  who   : Issuer
  ops   : List (Nat × Nat)      -- each flight of S with its MX operation
  tile  : Nat
  word  : Word                  -- format word, or acc.st's command word
  rows  : List ARow
  tensor : Option Tensor
  index : Nat                   -- tile index of the record
  addr  : Word
  bias  : Word
  scale : Word
  dest  : Nat
  sels  : List (Nat × Word)     -- lanes of acc.rd with their selectors
  deriving DecidableEq, Repr

/-- The commands of the Colonnade that take time (R272). -/
inductive ClaKind where
  | eval | feed | ld | st | tab
  deriving DecidableEq, Repr

/-- R272–R276: a command accepted and not complete, with the configuration, seed and step in force at acceptance. -/
structure ClaCmd where
  kind    : ClaKind
  who     : Issuer
  op      : Nat                 -- its operation in its class
  cfg     : Word
  seed    : Word
  step    : Word
  sample  : Nat                 -- feature bits
  desc    : Word
  space   : Space
  addr    : Nat                 -- virtual address, or hall address
  started : Bool
  spoiled : Bool                -- R290: its entry is an error entry; of a cla.ld, a period of error entries goes on if it fails
  cfgd    : Bool                -- R290: a cla.cfg has been accepted since the command before it
  finder  : Bool                -- R290: it has found an uncorrectable error
  slots   : List Word           -- an eval's result, taken at its start
  image   : List Byte           -- a cla.st's image, taken at its start
  deriving DecidableEq, Repr

/-- R268–R273: the Colonnade of a core. -/
structure Clac where
  rest     : Byte               -- what an unlisted counter holds: 127, or 0 on leaving retain (R271, R434)
  counters : Tab Byte           -- c[k][l] at 2048*k + l
  plane    : List Nat           -- included cells of the current plane
  other    : List Nat           -- the other plane
  cfg      : Word
  table    : Tab Word           -- R280, unlisted entries none
  seed     : Word
  step     : Word
  cmds     : List ClaCmd
  failed   : Bool               -- R290: entries of commands accepted now are error entries, until a cla.ld or cla.cfg
  cfgd     : Bool               -- R290: a cla.cfg has been accepted since the last command
  deriving DecidableEq, Repr

/-- The members of COPY, coll.send and coll.red. -/
inductive CopyKind where
  | cp | gather | scatter | fill | flush | pref | send (op : Option Nat)
  deriving DecidableEq, Repr

/-- R304–R308: an operation of a core's copy engine that is accepted and not complete. -/
structure CopyOp where
  kind   : CopyKind
  who    : Issuer
  op     : Nat                  -- its CP operation
  cache  : Nat
  ga     : DWord                -- Ga or Gb
  h      : Word                 -- H or I
  hd     : Word
  toGlobal : Bool               -- dir
  len    : Nat                  -- bytes, or n
  esz    : Nat
  dest   : Option Nat           -- base register of a .r gather
  lanes  : List Nat             -- G
  entry  : Option Nat           -- the endpoint class of a requested completion entry
  chan   : Nat                  -- channel and remote offset of a collective operation
  offset : Nat
  spaceHall : Bool              -- the source of a collective operation is in hall
  moved  : List Nat             -- units moved so far: 16-byte units, elements or tiles (R309)
  got    : List (Nat × List Byte)  -- elements of a `.r` gather read so far
  sent   : Option (List Byte)   -- what a collective operation has sent, awaiting its acknowledgement
  clock  : List Nat             -- the clock of what it has read
  deriving DecidableEq, Repr

/-- R297: a request for credits that waits at a queue: the binding, and what it still needs. -/
structure CreditReq where
  fk   : Nat
  q    : Nat
  need : Nat
  deriving DecidableEq, Repr

/-- R296: a hall message queue, by the place of its base in hall memory. -/
structure HallQueue where
  made   : Nat                  -- the model's own: which of all queues it is, by its creation (R299)
  owner  : Nat                  -- the tread whose hst made it (R316)
  cap    : Nat                  -- log2 of the capacity
  batch  : Nat
  pool   : Nat
  unret  : Nat
  head   : Nat                  -- entries taken
  tail   : Nat                  -- entries posted
  reqs   : List CreditReq
  takers : List (Nat × Nat)     -- pending takes in order: flight and queue register
  deriving DecidableEq, Repr

/-- An hpost on its way to its queue (R299, R300). -/
structure HallPost where
  who     : Issuer
  q       : Nat
  base    : Nat
  made    : Nat                 -- the queue that it was posted to
  clock   : List Nat            -- what the flight's WAITs have covered, which the post releases (R300)
  entries : List (List Word)
  op      : Nat
  lanes   : List Nat
  upto    : Nat                 -- accesses numbered below it are released by the post
  deriving DecidableEq, Repr


/-! ## Nests and stairways (15_nests.md, 16_phases.md) -/

/-- R320, R205: a landing header, its count rounded. -/
structure Header where
  regs    : Nat
  flights : Nat
  phased  : Bool
  hall    : Nat
  carry   : Nat                 -- the carry mask
  deriving DecidableEq, Repr

/-- R320: a declared range. -/
structure DeclRange where
  base : Nat
  len  : Nat                    -- bytes
  r    : Bool
  w    : Bool
  deriving DecidableEq, Repr

/-- R318: a nest descriptor, as the snapshot of admission holds it. -/
structure NestDesc where
  depth   : Nat
  dyn     : Bool
  migr    : Bool
  cls     : Nat
  span    : Nat
  b0      : Nat
  lo      : List Int
  hi      : List Int
  ca      : List Int            -- lower coefficients in the order of R318
  cb      : List Int
  deps    : List (List Int)
  preds   : Nat
  writers : Nat
  entry   : DWord
  handler : Option DWord
  signal  : DWord
  args    : DWord
  header  : Header
  ranges  : List DeclRange
  deriving DecidableEq, Repr

/-- R207, R325: a place for a landing: core, hall range with any phase record, registers, the bay of each flight. -/
structure Placement where
  core : Nat
  base : Nat
  len  : Nat
  regs : Nat
  bays : List Nat
  deriving DecidableEq, Repr

/-- R329, R335–R337: a nest of a running instance, as its home die holds it. -/
structure Nest where
  desc     : NestDesc
  live     : Bool
  sealed   : Bool
  cancel   : Bool
  b0       : Nat
  b0Log    : List (Nat × List Nat)  -- tracked raises, oldest first: the B0 of each and the clock its rows need (R382)
  w        : List Int           -- the watermark: every existing row below it is fully retired
  partial_ : List (List Int × Nat)  -- retired points of the rows at or above the watermark
  past     : List (List Int × List Nat)  -- points whose retirement has been reported, with the clock of each
  released : Nat
  executed : Nat
  steals   : Nat
  stalls   : Nat
  late     : Nat
  ended    : Nat
  flags    : BitVec 5
  fault    : Option FaultRec
  leases   : List LeaseRange
  reserved : List (List Int × List Placement)
  doneClock : List Nat          -- the stamp of its done word
  deriving DecidableEq, Repr

/-- R426–R428: the host record behind a launch. -/
structure HostSrc where
  queue  : Nat
  tag    : Nat
  notify : Nat
  msix   : Bool
  deriving DecidableEq, Repr

/-- R324: a launch in a die's pending-launch pool. -/
structure Launch where
  header  : DWord
  args    : DWord
  record  : DWord
  depth   : Nat
  part    : Nat
  src     : Option HostSrc
  waits   : Bool                -- a serial launch waiting for its predecessor (R326)
  ready   : Bool                -- its predecessor has completed
  gen     : Option Word         -- the generation word read in step 1 of an admission that is under way
  clock   : List Nat            -- what the release of n.launch carries (R381)
  seq     : Nat                 -- its place among all launches, for the FIFO order of R326
  deriving DecidableEq, Repr

/-- R322: a running instance of a stairway. -/
structure Run where
  header : DWord
  args   : DWord
  record : DWord
  depth  : Nat
  part   : Nat
  die    : Nat                  -- home die
  number : Nat
  order  : Nat                  -- admission order
  serial : Bool
  src    : Option HostSrc
  nests  : List Nest
  cancel : Bool
  clock  : List Nat
  deriving DecidableEq, Repr

/-- R328: a slot of a die's row window. -/
structure RowSlot where
  run    : Nat
  nest   : Nat
  key    : List Int
  lo     : Int
  hi     : Int
  pre    : Nat                  -- the retired prefix P
  done   : Nat                  -- bitmap of retired points at P .. P + 63 (beyond for a concurrent nest, R331)
  out    : Nat                  -- the model's own: bitmap of released points from P
  count  : Nat                  -- released points
  opened : Bool
  deriving DecidableEq, Repr

/-- What a die knows of a nest: B0, the watermark, the last row it opened, and the points of other dies' rows that
it has been told have retired. -/
structure View where
  run  : Nat
  nest : Nat
  b0   : Nat
  w    : List Int
  last : Option (List Int)
  yes  : List (List Int)
  deriving DecidableEq, Repr

/-- R330: a lookup: on its way, or answered no and remembered by the owner. -/
inductive LookupStage where
  | asked | waits
  deriving DecidableEq, Repr

structure Lookup where
  die   : Nat
  run   : Nat
  nest  : Nat
  point : List Int
  stage : LookupStage
  deriving DecidableEq, Repr

/-- R339, R340: a raise on its way to the home die. A tracked raise is an ST operation of its flight. -/
inductive RaiseKind where
  | max (x : Nat)
  | grow (counts : List (Nat × Nat))   -- lanes with their counts
  deriving DecidableEq, Repr

structure Raise where
  kind   : RaiseKind
  run    : Nat
  target : Nat
  tid    : Nat
  fk     : Nat
  lanes  : List Nat
  op     : Option Nat           -- the ST operation; none for a posted raise
  dest   : Nat                  -- predicate or register
  upto   : Nat                  -- accesses numbered below it are released by a tracked raise
  clock  : Option (List Nat)    -- set when it drains (R382)
  after  : Option (List Int)    -- a posted raise waits for the report of this point of its nest
  from_  : Nat                  -- its nest
  deriving DecidableEq, Repr

/-- What a die writes after a done word of its own, once that word is performed: its copy at a nest's completion signal (R336), the
notice of a launch (R427). -/
inductive Sequel where
  | copy (part addr status : Nat)
  | notice (src : HostSrc) (status number : Nat)
  deriving DecidableEq, Repr

/-- R334: a retirement on its way to the owner die of its row, or to the home die. With a sequel it is that, still to be written by
`die`, and `clock` is the clock of the done word before it. -/
structure Report where
  die   : Nat
  home  : Bool
  run   : Nat
  nest  : Nat
  point : List Int
  ended : Bool
  fault : Option FaultRec
  flags : BitVec 5
  clock : List Nat
  sequel : Option Sequel := none
  deriving DecidableEq, Repr

/-- R333: where a die stands in stealing. -/
structure Steal where
  empties : Nat                 -- empty answers of this sequence
  asked   : Option Nat          -- the die asked, its answer not yet sent
  answer  : Option (List Nat)   -- an answer on its way
  backoff : Option Nat          -- the cycle at which the wait of 256 began
  deriving DecidableEq, Repr

/-- The Stairwell of a die. -/
structure Die where
  rows     : List RowSlot
  views    : List View
  releases : Nat                -- the release counter (R331)
  lastPart : Nat                -- partition served last
  queue    : List Nat           -- dispatch queue: treads, fresh or resumed
  lastCore : Nat                -- the core of the previous placement (R332)
  steal    : Steal
  pool     : List Launch
  deriving DecidableEq, Repr

/-- R352: a pre-emption request. -/
structure Preempt where
  number : Nat
  part   : Nat
  inst   : Nat                  -- the instance number, in the partition
  mask   : Nat
  move   : Bool
  from_  : Nat
  grace  : Nat                  -- microseconds
  since  : List Nat             -- the dies' wall clocks when it reached the home die (R353)
  noSpace : Bool                -- a save found no room (R355)
  deriving DecidableEq, Repr


/-! ## Host attachment, firmware and power (22_host.md) -/

/-- R424: an Eloa queue. -/
structure EloaQueue where
  part    : Option Nat
  keys    : List Nat
  die     : Nat
  base    : Nat
  size    : Nat
  enabled : Bool
  tail    : Nat
  head    : Nat
  stop    : Nat                 -- 0, or the stop cause
  deriving DecidableEq, Repr

/-- R423: a CXL.mem window. -/
structure Window where
  hpa  : Nat
  size : Nat
  pa   : Nat
  key  : Nat
  deriving DecidableEq, Repr

/-- R430: a mailbox. -/
structure Mailbox where
  done    : Bool
  busy    : Bool
  status  : Nat
  payload : List Byte           -- the 4,088 bytes from offset 8, unlisted 0: operands on entry, the reply on completion
  rlen    : Nat                 -- reply bytes in the payload
  cmd     : Option Nat          -- the command word in progress
  begun   : Option Instr        -- the command in progress that has begun and waits to end
  deriving DecidableEq, Repr

/-- R431: how far the boot has come. -/
inductive Boot where
  | off        -- power-on, nothing has run
  | rom        -- the boot ROM waits for an image
  | up         -- Newel and Balustrade have started and the interfaces are trained
  deriving DecidableEq, Repr

/-- R434. -/
inductive PowerState where
  | run | idle | retain | off
  deriving DecidableEq, Repr

/-- Newel, Balustrade and the boot ROM (R429–R435). -/
structure Firmware where
  boot     : Boot
  chunks   : Tab Byte           -- the image being loaded by the recovery mailbox
  flash    : List Byte          -- the image in flash
  lifecycle : Nat               -- R432: 0 blank, 1 provisioned, 2 production, 3 return
  idErased : Bool               -- the identity key has been erased (R433)
  serial   : Nat
  stored   : List Byte × List Byte  -- the training results on non-volatile storage, with their HMAC (R420)
  trainings : Nat               -- full trainings so far: the number of the next one's results
  retained : List Byte          -- the training results kept through the retain state (R434)
  nvGen    : Tab (BitVec 16)    -- the non-volatile generations (R434)
  secret   : Nat                -- number of the next fresh key
  power    : PowerState
  limit    : Nat                -- watts
  drawn    : Nat                -- last sample: watts and degrees
  inlet    : Nat
  capped   : Bool               -- the clock is capped (R20)
  sessions : List Nat           -- partitions with a halt-debug session
  unlocked : Option Nat         -- the expiry of the Urwell-signed token that has opened device-wide halt-debug (provisioned)
  mgmt     : Mailbox
  recovery : Mailbox
  nextReq  : Nat                -- number of the next pre-emption request
  deriving DecidableEq, Repr


/-! ## Fabric ports, rings and channels (23_fabric.md) -/

/-- R442: an entry of a port key table. The key is kept as a name. -/
structure PortKey where
  key      : Nat
  ring     : Nat
  kid      : Nat
  customer : Nat
  deriving DecidableEq, Repr

/-- R442: an entry of a stream table: source, stream id, key entry. -/
structure StreamEntry where
  source : Nat
  stream : Nat
  key    : Nat
  deriving DecidableEq, Repr

/-- R439, R440: a stream message of which packets have come and not all its records have been taken. -/
structure OpenMessage where
  source : Nat
  id     : Nat                  -- its number at its source
  rud    : Bool
  size   : Nat
  base   : Nat                  -- bytes of it taken as records
  parts  : Tab Byte             -- the bytes that have come from there on, by offset
  deriving DecidableEq, Repr

/-- A fabric port with its vestibule. -/
structure Port where
  linkUp   : Bool
  stopped  : Bool               -- R461: a table failed
  discards : Nat
  unclass  : Nat
  streams  : Tab StreamEntry
  keys     : Tab PortKey
  buffer   : List WireRecord    -- records received and not yet decided, in arrival order
  messages : List OpenMessage
  deriving DecidableEq, Repr

/-- R447: dropped records, dropped bytes, authentication failures, malformed records. -/
structure Losses where
  recs  : Nat
  bytes : Nat
  auth  : Nat
  bad   : Nat
  deriving DecidableEq, Repr

/-- What a span of a ring holds. -/
inductive SpanKind where
  | data | gap | reset
  deriving DecidableEq, Repr

/-- R445: the span of a record: the index of its first slot, the slots it skips, all its slots, its payload bytes. -/
structure Span where
  first : Nat
  skip  : Nat
  slots : Nat
  kind  : SpanKind
  bytes : Nat
  clock : List Nat              -- the clock a claim of it acquires (R449)
  deriving DecidableEq, Repr

/-- R451: a claim: ticket, slot after its chunk, whether released, the tread that holds it. -/
structure Claim where
  ticket   : Nat
  stop     : Nat
  released : Bool
  tid      : Nat
  deriving DecidableEq, Repr

/-- R444, R445: a ring. -/
structure Ring where
  part     : Nat
  hall     : Bool
  base     : Nat                -- place in hall memory, or virtual address
  slots    : Nat
  overwrite : Bool
  head     : Nat
  claimed  : Nat
  tail     : Nat
  epoch    : Nat
  losses   : Losses
  pending  : Losses
  pendEpoch : Nat
  sealedGap : Option (Losses × Nat)  -- R448: the sealed GAP with its epoch
  resetDue : Option (Nat × Nat) -- a pending RESET with its epoch and the cycle of its decision
  gaps     : Nat
  overrun  : Bool
  claims   : List Claim
  spans    : List Span          -- records from the head to the tail
  kid      : Nat                -- of the last record's key entry, for spill writes
  waiters  : List (Nat × Nat)   -- pending claims in order: flight and queue register
  deriving DecidableEq, Repr

/-- R459: an arrival notice. -/
structure Notice where
  offset : Nat
  len    : Nat
  red    : Bool
  status : Nat
  clock  : List Nat             -- the clock its reception acquires
  deriving DecidableEq, Repr

/-- R458: a message of which units are applied before it is complete: the units, and the clock of their writes. -/
structure EarlyMessage where
  msg   : CollMessage
  units : List Nat
  clock : List Nat
  deriving DecidableEq, Repr

/-- R456: a collective channel. -/
structure Channel where
  part    : Nat
  port    : Nat
  peer    : Nat
  peerChan : Nat
  key     : Nat
  hall    : Bool                -- the window
  base    : Nat
  kid     : Nat
  len     : Nat
  count   : Word
  notices : List Notice
  error   : Nat
  waiters : List (Nat × Nat)
  clock   : List Nat            -- the clock a coll.wait acquires
  early   : List EarlyMessage   -- messages of which some units are applied already
  deriving DecidableEq, Repr


/-! ## The machine -/

/-- Where a corrected error is counted. -/
inductive ErrUnit where
  | stack (k : Nat)
  | core (k : Nat)
  | cluster (k : Nat)
  | die (k : Nat)
  | port (k : Nat)
  deriving DecidableEq, Repr

/-- What reaches the machine from outside, and failures of its parts, that are no row of the opcode table. -/
inductive Input where
  | hostWrite (addr : Nat) (bytes : List Byte)   -- the host writes its own memory (R376)
  | hostAcquire (addr n : Nat)                   -- the host reads its own memory, with acquire (R376, R427)
  | hostPoison (unit : Nat)                      -- a 64-byte unit of host memory reports poison (R422)
  | hallError (addr : Nat)                       -- an uncorrectable error in a hall byte (R316)
  | evictTile (tile : Nat)                       -- a gallery entry is evicted (R312, R384)
  | dropLine (core : Nat) (va : Nat)             -- a code line that is not pinned is evicted (R56)
  | coreError (lid : Nat)                        -- an uncorrectable error in core state of a landing (R240)
  | clacError (core : Nat)                       -- an uncorrectable error in a Colonnade (R290)
  | queueError (base : Nat)                      -- an uncorrectable error in a hall queue's state (R316)
  | galleryError (tile : Nat)                    -- an uncorrectable error in a gallery entry (R316)
  | runError (run : Nat)                         -- an uncorrectable error in an instance's state (R344)
  | ringError (ring : Nat)                       -- an uncorrectable error in a ring's state (R461)
  | portError (port : Nat)                       -- an uncorrectable error in a port's tables (R461)
  | softError (unit : ErrUnit)                   -- a corrected error (R418, R240, R290, R316, R344, R461)
  | stackError (tile kind : Nat)                 -- a tile's tag, data or metadata has gone bad in its stack (R418)
  | trainingStore (results mac : List Byte)      -- what stands on the non-volatile storage of training results has changed (R420)
  | barRead (offset : Nat)                       -- the host reads a 4-byte word of the BAR (R424, R430)
  | payloadWrite (recovery : Bool) (offset : Nat) (bytes : List Byte)   -- the host writes into a mailbox's payload (R430)
  | collUnit (die : Nat) (message : CollMessage) (unit : Nat)   -- one unit of a peer's message is applied ahead of the rest (R458)
  | newelError                                   -- Newel's memory or key table fails (R419)
  | trainingError (stack : Nat)                  -- training fails on a pseudo-channel of a stack (R420)
  deriving DecidableEq, Repr

/-- The agent that moves next, and the inputs of the outside world: the model's own agenda. -/
inductive Turn where
  | issue (core bay : Nat)
  | event (e : Instr)
  | copyUnit (core i unit : Nat)   -- one unit of a copy in flight moves (R309)
  | input (x : Input)
  | elapse (die n : Nat)
  deriving DecidableEq, Repr

/-- The state of the machine. -/
structure State where
  agenda   : List Turn          -- the model's own: which agent moves next
  cur      : Option Nat         -- the model's own: the flight whose group is issuing
  cycles   : Tab Nat            -- s.cycle of each die, unlisted 0
  wall     : Tab Nat            -- the wall clock of each die, 2,250 to a microsecond (R17, R353, R402), unlisted 0
  frees    : Nat                -- the model's own: free values taken so far
  threads  : Tab Thread
  flights  : Tab Flight
  landings : Tab Landing
  treads   : Tab Tread
  mem      : Memory
  lastBay  : Tab (List Nat)     -- the flights that a bay has issued, last first (round robin of R209), by 8*core+bay
  issued   : Tab (Nat × Nat)    -- the cycle in which a core last issued, and the last bay that did (R209, R257, R272)
  moved    : Tab Nat            -- the cycle in which a bay last moved a flight between its sets (R211), by 8*core+bay
  tiles    : Tab (List Word)    -- rows of the accumulator tiles, by (96*core + tile)*64 + row, unlisted rows 0
  latches  : Tab (List Latch)   -- reuse latches of each core, least recently used first
  act      : Tab (Tab Word)     -- activation table of each core: 0 xlo, 1 q, 2 + 2k a_k, 3 + 2k b_k; unlisted 0
  mxq      : Tab (List MxOp)    -- operations of each core's matrix engine, in acceptance order
  clacs    : Tab Clac           -- the Colonnade of each core, unlisted at its partition-reset state
  copies   : Tab (List CopyOp)  -- operations of each core's copy engine
  hqueues  : Tab HallQueue
  nextQueue : Nat               -- the model's own: number of the next hall message queue
  posts    : List HallPost
  dies     : Tab Die
  runs     : Tab Run
  nextRun  : Nat                -- the model's own: key of the next instance, also its admission order
  nextKey  : Nat                -- the model's own: key of the next tread and of the next landing
  nextEnd  : Nat                -- the model's own: place of the next ending of a tread (R109)
  lookups  : List Lookup
  raises   : List Raise
  reports  : List Report
  requests : List Preempt
  eloa     : Tab EloaQueue
  doorbells : List (Nat × Nat)  -- doorbells whose records wait, in order of arrival: queue, records (R425)
  windows  : Tab Window
  msix     : Tab Nat            -- interrupts raised on each vector
  hostClock : List Nat          -- the model's own: the stamps of what the host has written and read over CXL.mem, joined
  hostRead : Option (Option (List Byte))  -- the last answer to a host CXL.mem read; none inside for poison
  fw       : Firmware
  ports    : Tab Port
  rings    : Tab Ring
  chans    : Tab Channel        -- by 256 * die + channel number
  parts    : Tab Partition
  contained : Bool             -- device-scope containment (R419)
  deriving DecidableEq, Repr

/-- Why the machine stops with a fault. -/
inductive Fault where
  /-- Raised by `step` alone, when device-scope containment holds (R344, R316, R419): the package has stopped and only
  a reset of the device, from outside the machine, goes on. Safe. -/
  | contained
  deriving DecidableEq, Repr

/-- Why an instruction has no meaning. -/
inductive Refusal where
  /-- An instruction that has no meaning yet, by its mnemonic. Raised only by an arm of `exec`. Safe. -/
  | notModelled (mnemonic : String)
  deriving DecidableEq, Repr

/-! ## Reset -/

/-- The memory system at power-on: nothing listed anywhere, every key id free, the CXL link up. -/
def Memory.reset : Memory :=
  { stack := [], tmeta := [], gallery := [], fills := [], hall := [], host := [], hostBad := [], hallBad := [],
    mirror := [], stamps := [], clocks := [], accs := [], nextAcc := 0, outbox := [], inbox := [], tlb1 := [],
    tlb2 := [], l0 := [], ccache := [], ranges := [], keys := [], rollover := [], soft := [], softCore := [], softCluster := [], softDie := [], softFabric := [], tableErrors := [], errors := [],
    galUse := 0, throttled := [], acts := [], rowHits := [], damaged := [], found := [], meeter := none, hostClocks := [], hostSys := [], tlbWalk := [], linkUp := true, recal := 0, training := [] }

/-- A mailbox at power-on (R430): done 1, the rest 0. -/
def Mailbox.reset : Mailbox := { done := true, busy := false, status := 0, payload := [], rlen := 0, cmd := none, begun := none }

/-- Firmware at power-on, before the boot ROM has run (R431). -/
def Firmware.reset : Firmware :=
  { boot := .off, chunks := [], flash := [], lifecycle := 0, idErased := false, serial := 0, stored := ([], []), trainings := 0, retained := [],
    nvGen := [], secret := 0, power := .run, limit := 2500, drawn := 0, inlet := 0, capped := false, sessions := [],
    unlocked := none, mgmt := Mailbox.reset, recovery := Mailbox.reset, nextReq := 0 }

/-- The machine right after reset: power-on, no partition, no instance, nothing resident. -/
def State.reset : State :=
  { agenda := [], cur := none, cycles := [], wall := [], frees := 0, threads := [], flights := [], landings := [], treads := [],
    mem := Memory.reset, lastBay := [], issued := [], moved := [], tiles := [], latches := [], act := [], mxq := [], clacs := [], copies := [],
    hqueues := [], nextQueue := 0, posts := [], dies := [], runs := [], nextRun := 0, nextKey := 0, nextEnd := 0, lookups := [], raises := [], reports := [],
    requests := [], eloa := [], doorbells := [], windows := [], msix := [], hostClock := [0, 0, 0, 0], hostRead := none, fw := Firmware.reset, ports := [],
    rings := [], chans := [], parts := [], contained := false }


end Sys2Proof.Machine
end

