-- ==== Sys2Proof/Machine/Table.lean ====
section
/-!
DEFINITION. The operations on finite tables. `put` keeps the keys strictly rising; `putD` keeps in addition the
canonical form of a table with a default (no entry holds the default), so that equal contents are equal data.
-/

namespace Sys2Proof.Machine

/-- The value at key `k`, if the table lists one. -/
def tget {α : Type} : Tab α → Nat → Option α
  | [], _ => none
  | (j, v) :: t, k => if j = k then some v else tget t k

/-- Replace or insert the value at key `k`. -/
def tput {α : Type} : Tab α → Nat → α → Tab α
  | [], k, v => [(k, v)]
  | (j, w) :: t, k, v =>
    if j = k then (k, v) :: t
    else if k < j then (k, v) :: (j, w) :: t
    else (j, w) :: tput t k v

/-- The table without key `k`. -/
def tdel {α : Type} : Tab α → Nat → Tab α
  | [], _ => []
  | (j, w) :: t, k => if j = k then tdel t k else (j, w) :: tdel t k

/-- The value at key `k` of a table whose unlisted keys hold `d`. -/
def tgetD {α : Type} (d : α) (t : Tab α) (k : Nat) : α := (tget t k).getD d

/-- Write the value at key `k` of a table whose unlisted keys hold `d`: writing `d` removes the entry. -/
def tputD {α : Type} [DecidableEq α] (d : α) (t : Tab α) (k : Nat) (v : α) : Tab α :=
  if v = d then tdel t k else tput t k v

/-- Change the value at key `k` where the table lists one. -/
def tmod {α : Type} (t : Tab α) (k : Nat) (f : α → α) : Tab α :=
  match tget t k with
  | some v => tput t k (f v)
  | none => t

/-- Change the value at key `k` of a table whose unlisted keys hold `d`. -/
def tmodD {α : Type} [DecidableEq α] (d : α) (t : Tab α) (k : Nat) (f : α → α) : Tab α :=
  tputD d t k (f (tgetD d t k))

/-- The keys are strictly rising, all above `lo` where one is given. -/
def risingFrom {α : Type} : Option Nat → Tab α → Bool
  | _, [] => true
  | none, (k, _) :: t => risingFrom (some k) t
  | some lo, (k, _) :: t => decide (lo < k) && risingFrom (some k) t

/-- The canonical form of a table whose unlisted keys hold `d`. -/
def canonical {α : Type} [DecidableEq α] (d : α) (t : Tab α) : Bool :=
  risingFrom none t && t.all (fun p => decide (p.2 ≠ d))

/-- The first key from 0 that the table does not list (the table's keys rising). -/
def freeKeyFrom {α : Type} : Nat → Tab α → Nat
  | n, [] => n
  | n, (k, _) :: t => if k = n then freeKeyFrom (n + 1) t else freeKeyFrom n t

end Sys2Proof.Machine
end

