-- ==== Sys2Proof/Machine/Ops.lean ====
section
/-!
DEFINITION. The operations every meaning is written over: the executing path group of a flight (R96, R97), the
registers of a thread with their checks (R41, R91, R103, R217), the frame in which one word issues, taking an exception
(R105–R109) and the return from one.
-/

namespace Sys2Proof.Machine

/-! ## Tables of the machine -/

/-- Threads are kept by `256 * landing + thread number`, that is `8 * flight key + lane` (R89). -/
def tkey (fk lane : Nat) : Nat := 8 * fk + lane

/-- The landing of a flight key. -/
def landingOf (fk : Nat) : Nat := fk / 32

/-- The thread of a lane, where the flight is resident. -/
def State.thread? (s : State) (fk lane : Nat) : Option Thread := tget s.threads (tkey fk lane)

/-- Change one thread. -/
def State.modThread (s : State) (fk lane : Nat) (f : Thread → Thread) : State :=
  { s with threads := tmod s.threads (tkey fk lane) f }

/-- Write one thread. -/
def State.putThread (s : State) (fk lane : Nat) (t : Thread) : State :=
  { s with threads := tput s.threads (tkey fk lane) t }

/-- Change one flight. -/
def State.modFlight (s : State) (fk : Nat) (f : Flight → Flight) : State :=
  { s with flights := tmod s.flights fk f }

/-- Change one landing. -/
def State.modLanding (s : State) (lid : Nat) (f : Landing → Landing) : State :=
  { s with landings := tmod s.landings lid f }

/-- Change one tread. -/
def State.modTread (s : State) (tid : Nat) (f : Tread → Tread) : State :=
  { s with treads := tmod s.treads tid f }

/-- The eight lanes. -/
def lanes8 : List Nat := [0, 1, 2, 3, 4, 5, 6, 7]

/-! ## Registers and predicates of a thread -/

/-- R93: p0 reads as 1. -/
def Thread.pred (t : Thread) (k : Nat) : Bool := if k = 0 then true else t.preds.getLsbD k

/-- R93: a write to p0 is discarded. -/
def Thread.setPred (t : Thread) (k : Nat) (b : Bool) : Thread :=
  if k = 0 then t
  else { t with preds := if b then t.preds ||| (1#8 <<< k) else t.preds &&& ~~~(1#8 <<< k) }

/-- The live transient value of a register (R103). -/
def transOf : List Transient → Nat → Option Word
  | [], _ => none
  | x :: xs, r => if x.reg = r then some x.val else transOf xs r

/-- The file value of a register: unlisted registers hold 0 (R94). -/
def Thread.file (t : Thread) (r : Nat) : Word := tgetD 0 t.regs r

/-- A read of a register: its live transient value, else its file value (R103). -/
def Thread.reg (t : Thread) (r : Nat) : Word := (transOf t.trans r).getD (t.file r)

/-- A write of a register goes to the file and supersedes a live transient value (R103). -/
def Thread.setReg (t : Thread) (r : Nat) (w : Word) : Thread :=
  { t with regs := tputD 0 t.regs r w, trans := t.trans.filter (fun x => decide (x.reg ≠ r)) }

/-- The value of the pair named by its even register (R5). -/
def Thread.pair (t : Thread) (r : Nat) : DWord := pairOf (t.reg r) (t.reg (r + 1))

/-- Write a pair (R5). -/
def Thread.setPair (t : Thread) (r : Nat) (x : DWord) : Thread :=
  (t.setReg r (lowHalf x)).setReg (r + 1) (highHalf x)

/-- A transient write (R103): the window of three non-hint instructions is counted from the next one; the instruction
that writes the value counts the first of the four. -/
def Thread.setTrans (t : Thread) (r : Nat) (w : Word) : Thread :=
  { t with trans := { reg := r, val := w, left := 4 } :: t.trans.filter (fun x => decide (x.reg ≠ r)) }

/-- Write a result: to the file, or to the bypass network when the transient bit is set (R43, R103). -/
def Thread.result (t : Thread) (tr : Bool) (r : Nat) (w : Word) : Thread :=
  if tr then t.setTrans r w else t.setReg r w

/-- Write a pair result, both registers transient when the bit is set (R43). -/
def Thread.resultPair (t : Thread) (tr : Bool) (r : Nat) (x : DWord) : Thread :=
  (t.result tr r (lowHalf x)).result tr (r + 1) (highHalf x)

/-- Registers `r .. r + n - 1` as words. -/
def Thread.regList (t : Thread) (r n : Nat) : List Word := (List.range n).map (fun i => t.reg (r + i))

/-- Write consecutive registers from `r`. -/
def Thread.setRegs (t : Thread) (r : Nat) : List Word → Thread
  | [] => t
  | w :: ws => Thread.setRegs (t.setReg r w) (r + 1) ws

/-- Index register `k` (R92). -/
def Thread.xreg (t : Thread) (k : Nat) : Word :=
  match k with
  | 0 => t.x0
  | 1 => t.x1
  | 2 => t.x2
  | _ => t.x3

/-- Write index register `k` (R92). -/
def Thread.setX (t : Thread) (k : Nat) (w : Word) : Thread :=
  match k with
  | 0 => { t with x0 := w }
  | 1 => { t with x1 := w }
  | 2 => { t with x2 := w }
  | _ => { t with x3 := w }

/-- The thread can issue: it is running and the last attempt was not held (R97). -/
def Thread.ready (t : Thread) : Bool := t.cond == .running && t.held == none

/-- R53: the address of the word after one, a 57-bit virtual address sign-extended to 64 bits. -/
def nextPc (pc : DWord) : DWord := canon (pc + 4)

/-! ## Traps -/

/-- The causes of R105. -/
inductive Cause where
  | illegal | privileged | illegalRegister | indexBounds | lease | queueUnbound | misalignedFetch | misalignedAccess
  | illegalFormat | formatDivergence | uniformity | integrity | integrityExhausted | memoryError | engineError
  | breakpoint | trapInstr
  deriving DecidableEq, Repr

/-- The cause codes of R105. -/
def Cause.code : Cause → Nat
  | .illegal => 0x01
  | .privileged => 0x02
  | .illegalRegister => 0x03
  | .indexBounds => 0x04
  | .lease => 0x05
  | .queueUnbound => 0x06
  | .misalignedFetch => 0x07
  | .misalignedAccess => 0x08
  | .illegalFormat => 0x09
  | .formatDivergence => 0x0A
  | .uniformity => 0x0B
  | .integrity => 0x0C
  | .integrityExhausted => 0x0D
  | .memoryError => 0x0E
  | .engineError => 0x0F
  | .breakpoint => 0x10
  | .trapInstr => 0x11

/-- A trap of one thread: its cause and the fields of the fault information word (R106), the faulting address. -/
structure Trap where
  cause  : Cause
  detail : Nat
  addr   : DWord
  write  : Bool
  fetch  : Bool
  deriving DecidableEq, Repr

/-- A trap with no address. -/
def trap (c : Cause) (detail : Nat) : Trap := { cause := c, detail := detail, addr := 0, write := false, fetch := false }

/-- R106: the fault information word. -/
def finfoWord (code detail lanes : Nat) (write fetch nested : Bool) : Word :=
  BitVec.ofNat 32 (code % 256 + 256 * (lanes % 256) + 65536 * (detail % 256)
    + (if nested then 2 ^ 25 else 0) + (if write then 2 ^ 26 else 0) + (if fetch then 2 ^ 27 else 0))

/-- What an instruction does to one thread's flow. -/
inductive Res where
  | done                                             -- goes on at the next word
  | goto (target : DWord)                            -- goes on at a target, already checked (R53)
  | still                                            -- the instruction has set the thread's pc or condition itself
  | gone                                             -- another rule has already sent the thread on (R246)
  | hold (st : Stall)                                -- cannot issue; retries at the first word of its group
  | trap (t : Trap)                                  -- takes a precise trap (R105)
  | ends (code : Nat) (addr : DWord) (write : Bool)  -- ends the tread with an end code (R108)
  deriving DecidableEq, Repr

/-! ## Register checks (R41, R91, R217) -/

/-- `n` registers named by `r`: a register, a pair (2) or a quad (4). -/
structure RegUse where
  r : Nat
  n : Nat
  deriving DecidableEq, Repr

def one (r : BitVec 6) : RegUse := { r := r.toNat, n := 1 }
def pair (r : BitVec 6) : RegUse := { r := r.toNat, n := 2 }
def quad (r : BitVec 6) : RegUse := { r := r.toNat, n := 4 }

/-- The registers of a use. -/
def RegUse.regs (u : RegUse) : List Nat := (List.range u.n).map (fun i => u.r + i)

/-- R41, R91: the illegal-register trap; its detail is the number the field names, or the first register of a pair or quad at
or above the allocation. R105 asks for one register number; where several uses fail the model gives the first in the order
of the list, d before a before b, a direct one before a formed one (DESIGN CHOICE, log entry 65). -/
def illegalReg (n : Nat) : List RegUse → Option Trap
  | [] => none
  | u :: us =>
    if u.r % u.n ≠ 0 then some (trap .illegalRegister u.r)
    else if n < u.r + u.n then some (trap .illegalRegister (max u.r n))
    else illegalReg n us

/-- Register `r` is leased (R217). -/
def Thread.leased (t : Thread) (r : Nat) : Bool := t.leases.any (fun l => l.reg == r)

/-- R217: the lease trap; of several leased registers its detail is the first in the order of the list (DESIGN CHOICE, log
entry 65). -/
def leaseTrap (t : Thread) : List Nat → Option Trap
  | [] => none
  | r :: rs => if t.leased r then some (trap .lease r) else leaseTrap t rs

/-- All registers of a list of uses. -/
def allRegs (us : List RegUse) : List Nat := us.flatMap RegUse.regs

/-- R110: the illegal-register checks, then the lease checks. -/
def regTrap (n : Nat) (t : Thread) (us : List RegUse) : Option Trap :=
  match illegalReg n us with
  | some e => some e
  | none => leaseTrap t (allRegs us)

/-- R183: some register of the uses still awaits a load. -/
def Thread.awaits (t : Thread) (rs : List Nat) : Bool := t.loads.any (fun p => rs.contains p.1)

/-! ## The executing group (R96, R97, R177) -/

/-- Two threads belong to one path group: running, same pc, both in or both out of handler mode (R96, R177). -/
def sameGroup (a b : Thread) : Bool := a.pc == b.pc && a.hmode == b.hmode

/-- The ready threads of a flight, with their lanes. -/
def State.readyLanes (s : State) (fk : Nat) : List (Nat × Thread) :=
  lanes8.filterMap (fun l => match s.thread? fk l with
    | some t => if t.ready then some (l, t) else none
    | none => none)

/-- The lowest lane of the group of a ready thread. -/
def groupLow (rs : List (Nat × Thread)) (t : Thread) : Nat :=
  match rs.find? (fun p => sameGroup p.2 t) with
  | some p => p.1
  | none => 8

/-- R97: the next ready group, counting lanes round from just above `from_`; its lowest lane. -/
def nextGroup (rs : List (Nat × Thread)) (from_ : Nat) : Option Nat :=
  ((List.range 8).map (fun i => (from_ + 1 + i) % 8)).find? (fun l =>
    match rs.find? (fun p => p.1 == l) with
    | some p => groupLow rs p.2 == l
    | none => false)

/-- R96: two lanes of a flight stand in one path group: both threads run and belong to it. -/
def State.together (s : State) (fk a b : Nat) : Bool :=
  match s.thread? fk a, s.thread? fk b with
  | some t, some u => t.cond == .running && u.cond == .running && sameGroup t u
  | _, _ => false

/-- The lowest lane of the group that holds the slot, which a merge can have lowered (R96, R97); the lane that gave way
where its thread no longer runs. -/
def State.holderLow (s : State) (fk lead : Nat) : Nat := (lanes8.find? (s.together fk lead)).getD lead

/-- The lane that names the group that issues next: the group that holds the slot while it is ready and has not given the
slot up, else the next ready group (R97). -/
def State.leadLane (s : State) (fk : Nat) (fl : Flight) : Option Nat :=
  let rs := s.readyLanes fk
  match rs.find? (fun p => s.together fk fl.lead p.1) with
  | some p => if fl.gives = .no then some p.1 else nextGroup rs (s.holderLow fk fl.lead)
  | none => nextGroup rs (s.holderLow fk fl.lead)

/-- The lanes of the executing group (R96): while hints of a group are pending, the lanes that issued them (R48). -/
def State.groupLanes (s : State) (fk : Nat) (fl : Flight) : List Nat :=
  match fl.hint with
  | some h => lanes8.filter (fun l => h.lanes.contains l && (s.thread? fk l).isSome)
  | none =>
    match s.leadLane fk fl with
    | none => []
    | some l =>
      match s.thread? fk l with
      | none => []
      | some t => ((s.readyLanes fk).filter (fun p => sameGroup p.2 t)).map (·.1)

/-- What an issuing instruction sees of its surroundings. -/
structure Ctx where
  fk    : Nat
  lid   : Nat
  fl    : Flight
  ld    : Landing
  tr    : Tread
  lanes : List Nat              -- the executing group, ascending
  pc    : DWord                 -- the address of the issuing word
  start : DWord                 -- the address of the first word of its hint group (R49)
  imm   : Option (BitVec 24)
  mods  : Option ModHint
  sched : Option (Bool × BitVec 8)
  keeps : Bool                  -- the group held the slot before (R97)
  deriving DecidableEq, Repr

/-- R354, R48, R104: a flight that is about to be saved issues on to the end of its hint group and of its transient
values. -/
def State.mustGoOn (s : State) (fk : Nat) (f : Flight) : Bool :=
  f.hint.isSome || lanes8.any (fun l => match s.thread? fk l with
    | some t => !t.trans.isEmpty
    | none => false)

/-- The die's cycle of a core. -/
def State.cycleOf (s : State) (core : Nat) : Nat := tgetD 0 s.cycles (core / 48)

/-- R108, R109: an ending stops a flight of its tread at the next instruction boundary. The bays issue at once: in the cycle in which
the ending was found those of its die still do, so that of several endings of one cycle the lowest thread can write the record. -/
def State.ended (s : State) (t : Tread) (fk : Nat) : Bool :=
  match t.ending, tget s.landings (landingOf fk) with
  | none, _ => false
  | some r, some l => !(r.core / 48 == l.core / 48 && r.cycle == s.cycleOf l.core)
  | some _, none => true

/-- A flight of the tread issues nothing: the tread has been ended or cancelled (R108, R344), or it is not running on its
cores (R348, R354). -/
def State.halts (s : State) (t : Tread) (fk : Nat) (f : Flight) : Bool :=
  s.ended t fk || t.cancelled || !(t.stage == .running || (t.stage == .saving && s.mustGoOn fk f))

/-- R433: halt-debug has stopped the partition's landings. -/
def State.stopped (s : State) (part : Nat) : Bool :=
  match tget s.parts part with
  | some p => p.halted
  | none => false

/-- The context of the flight that is issuing. None when no flight is, its tread has been ended, or no group is
ready. -/
def State.ctx? (s : State) : Option Ctx :=
  match s.cur with
  | none => none
  | some fk =>
    match tget s.flights fk, tget s.landings (landingOf fk) with
    | some fl, some ld =>
      match tget s.treads ld.tid with
      | none => none
      | some tr =>
        if s.halts tr fk fl || s.stopped tr.part || ld.boundary || ld.freed then none
        else
          match s.groupLanes fk fl with
          | [] => none
          | l :: ls =>
            match s.thread? fk l with
            | none => none
            | some t =>
              some { fk := fk, lid := landingOf fk, fl := fl, ld := ld, tr := tr, lanes := l :: ls, pc := t.pc,
                     start := match fl.hint with | some h => h.start | none => t.pc
                     imm := fl.hint.bind (·.imm), mods := fl.hint.bind (·.mods), sched := fl.hint.bind (·.sched),
                     keeps := fl.hint.isSome || s.together fk fl.lead l }
    | _, _ => none

/-- R42: the lanes of the executing group whose guard is true. -/
def guardLanes (s : State) (c : Ctx) (g : BitVec 3) : List Nat :=
  c.lanes.filter (fun l => match s.thread? c.fk l with
    | some t => t.pred g.toNat
    | none => false)

/-! ## Which hints an instruction accepts (R44, R46, R48) -/

/-- The hint fields a family accepts. `imm` is whether it takes a hint.imm with the immediate it carries. -/
structure HintUse where
  imm   : Bool
  round : Bool
  rneOnly : Bool
  sat   : Bool
  atom  : Bool
  cache : Bool
  deriving DecidableEq, Repr

def HintUse.none : HintUse := { imm := false, round := false, rneOnly := false, sat := false, atom := false, cache := false }
/-- FOP, FSPEC, HOP, NDOT, FCMP (R46). -/
def HintUse.rounding : HintUse := { HintUse.none with round := true }
/-- FCVT (R46). -/
def HintUse.convert : HintUse := { HintUse.none with round := true, sat := true }
/-- CMPN (R46). -/
def HintUse.compensated : HintUse := { HintUse.none with round := true, rneOnly := true }
/-- LD, ST, ORD, COPY (R46). -/
def HintUse.memory : HintUse := { HintUse.none with cache := true }
/-- ATOM (R46). -/
def HintUse.atomic : HintUse := { HintUse.none with cache := true, atom := true }
/-- The immediate families (R44, R48); `ok` is that the immediate's bits above [7:0] are zero. -/
def HintUse.immediate (ok : Bool) : HintUse := { HintUse.none with imm := ok }

/-- The hints pending at the instruction are all accepted by it. -/
def hintsOk (c : Ctx) (h : HintUse) : Bool :=
  (c.imm.isNone || h.imm) &&
  match c.mods with
  | none => true
  | some m =>
    (!m.rv || (h.round && (!h.rneOnly || m.rm == 0))) && (!m.sv || h.sat) &&
    (!m.ov || h.atom) && (!m.scv || h.atom) && (!m.nr || h.atom) && (!m.cv || h.cache)

/-! ## Ending a tread (R108, R109) -/

/-- The fault record of an ending met by a thread of the issuing flight. -/
def faultRec (c : Ctx) (fl : Flight) (lane : Nat) (finfo : Word) (fpc faddr : DWord) : FaultRec :=
  { finfo := finfo, thread := (c.fk % 32) * 8 + lane, core := c.ld.core, fpc := fpc, faddr := faddr,
    i0 := word (c.tr.point.getD 0 0), i1 := word (c.tr.point.getD 1 0),
    i2 := word (c.tr.point.getD 2 0), i3 := word (c.tr.point.getD 3 0), flags := fl.fpflags, order := 0, cycle := 0 }

/-- R109: of two endings `a` is the one that writes the record: of one cycle of one die that of the lower thread, else the first. -/
def FaultRec.before (a b : FaultRec) : Bool :=
  if a.core / 48 = b.core / 48 ∧ a.cycle = b.cycle then decide (a.thread < b.thread) else decide (a.order < b.order)

/-- R109: the ending of a tread that has one already, once another is found. -/
def FaultRec.orElse (old new : FaultRec) : FaultRec := if new.before old then { new with order := old.order } else old

/-- R108: end the tread. Every thread of its landings stops at its next instruction boundary; what it has
outstanding drains until the tread retires (TREAD_RETIRE). Only the first ending of a tread makes the record (R109). -/
def State.endTread (s : State) (tid : Nat) (r : FaultRec) : State :=
  let x := { r with order := s.nextEnd, cycle := s.cycleOf r.core }
  { s.modTread tid (fun t => if t.cancelled then t else { t with ending := some (t.ending.elim x (·.orElse x)) }) with
    nextEnd := s.nextEnd + 1 }

/-! ## Taking an exception (R105–R107) and returning from one -/

/-- R107: thread `lane` enters its nest's handler: the registers that save, the mode, the pc. -/
def Thread.enterHandler (t : Thread) (handler : DWord) (x : Trap) (lanes : Nat) (fpc fnpc : DWord) : Thread :=
  { t with
    cause := BitVec.ofNat 32 x.cause.code
    finfo := finfoWord x.cause.code x.detail lanes x.write x.fetch false
    fpc := fpc
    fnpc := fnpc
    faddr := x.addr
    hmode := true
    pc := canon handler
    trans := [] }

/-- R107: the return from an exception, to the retried group or past it. -/
def Thread.leaveHandler (t : Thread) (target : DWord) : Thread :=
  { t with hmode := false, cause := 0, finfo := 0, fpc := 0, fnpc := 0, faddr := 0, pc := target }

/-- R176: the flight counts the entries to handler mode, saturating. -/
def Flight.countTrap (f : Flight) : Flight :=
  { f with tcount := if f.tcount = 0xFFFFFFFF then f.tcount else f.tcount + 1 }

/-- R105, R107, R108: one thread takes a trap. `lanes` is the set of lanes that trap with it. With a handler, and
outside handler mode, it enters the handler; otherwise the tread is ended with the cause code, nested in handler
mode. -/
def takeTrap (c : Ctx) (fnpc : DWord) (lanes : Nat) (s : State) (lane : Nat) (x : Trap) : State :=
  match s.thread? c.fk lane with
  | none => s
  | some t =>
    match c.ld.handler, t.hmode with
    | some h, false =>
      (s.putThread c.fk lane (t.enterHandler h x lanes c.start fnpc)).modFlight c.fk Flight.countTrap
    | _, m =>
      match tget s.flights c.fk with
      | none => s
      | some fl =>
        (s.modThread c.fk lane (fun t => { t with trans := [] })).endTread c.ld.tid
          (faultRec c fl lane (finfoWord x.cause.code x.detail lanes x.write x.fetch m) c.start x.addr)

/-! ## The frame of one issue slot -/

/-- The result given to a lane; a lane that has none (its guard was false) goes on at the next word (R42). -/
def resOf : List (Nat × Res) → Nat → Res
  | [], _ => .done
  | (l, r) :: rs, k => if l = k then r else resOf rs k

/-- Every lane given goes on at the next word. -/
def allDone (ls : List Nat) : List (Nat × Res) := ls.map (fun l => (l, .done))

/-- One non-hint instruction has issued for the thread: its transient windows and its constrained sequence count it
(R103, R99). -/
def Thread.tick (t : Thread) : Thread :=
  { t with
    trans := (t.trans.map (fun x => { x with left := x.left - 1 })).filter (fun x => decide (0 < x.left))
    lrsc := match t.lrsc with
      | some n => if n < 16 then some (n + 1) else none
      | none => none }

/-- The pc, condition and hold of a thread after the instruction; traps are taken afterwards. -/
def settleThread (c : Ctx) (r : Res) (t : Thread) : Thread :=
  match r with
  | .done => { t.tick with pc := nextPc c.pc }
  | .goto target => { t.tick with pc := target, lrsc := none }
  | .still => t.tick
  | .gone => t
  | .hold st => { t with held := some st, pc := c.start }
  | .trap _ => t
  | .ends _ _ _ => t

/-- One lane after the instruction. -/
def settleLane (c : Ctx) (rs : List (Nat × Res)) (s : State) (lane : Nat) : State :=
  s.modThread c.fk lane (settleThread c (resOf rs lane))

/-- The lanes with a trap, ascending as the results are. -/
def trapLanes (rs : List (Nat × Res)) : List (Nat × Trap) :=
  rs.filterMap (fun p => match p.2 with
    | .trap t => some (p.1, t)
    | _ => none)

/-- The lanes that met an end code. -/
def sameEnd (rs : List (Nat × Res)) (code : Nat) : List Nat :=
  rs.filterMap (fun p => match p.2 with
    | .ends k _ _ => if k = code then some p.1 else none
    | _ => none)

/-- R108, R109: a lane has met an end code; the lanes field holds every lane that met the same code. -/
def takeEnd (c : Ctx) (rs : List (Nat × Res)) (s : State) (lane code : Nat) (a : DWord) (w : Bool) : State :=
  match tget s.flights c.fk with
  | none => s
  | some fl =>
    let fetch := code == 0x41
    s.endTread c.ld.tid
      (faultRec c fl lane (finfoWord code 0 (laneMask (sameEnd rs code)).toNat w fetch false) (if fetch then c.pc else c.start) a)

/-- One lane takes its trap or ends its tread. -/
def takeOutcome (c : Ctx) (fnpc : DWord) (rs : List (Nat × Res)) (s : State) (lane : Nat) : State :=
  match resOf rs lane with
  | .trap x => takeTrap c fnpc (laneMask ((trapLanes rs).map (·.1))).toNat s lane x
  | .ends code a w => takeEnd c rs s lane code a w
  | _ => s

/-- R105, R108, R109: the traps and the endings of one instruction, lowest lane first, so that the lowest lane that ends the
tread writes the record. -/
def takeOutcomes (c : Ctx) (fnpc : DWord) (rs : List (Nat × Res)) (s : State) : State :=
  c.lanes.foldl (takeOutcome c fnpc rs) s

/-- R98: the fairness period of a partition, 2,048 by default. -/
def State.fairPeriod (s : State) (part : Nat) : Nat :=
  match tget s.parts part with
  | some p => p.fair
  | none => 2048

/-- The cores of a partition (R404). -/
def State.coresOf (s : State) (part : Nat) : List Nat :=
  match tget s.parts part with
  | some p => p.cores
  | none => []

/-- The lane that names the group of a slot after its instruction: the lowest lane of the former group that still runs keeps
the slot (R97); the lowest lane of the group where none does. R97 does not say who keeps the slot when part of the group, its
lowest lane among it, parks or exits and the rest runs on (DESIGN CHOICE, log entry 83). -/
def State.slotLead (s : State) (c : Ctx) : Nat :=
  (c.lanes.find? (fun l => (s.thread? c.fk l).any (fun t => t.cond == .running))).getD (c.lanes.headD 0)

/-- The flight after a slot in which its group issued: the hints are consumed, the timer counts on where the group held the slot
before and starts again where the slot has passed to it (R98). -/
def Flight.passed (f : Flight) (keeps : Bool) (lead period : Nat) : Flight :=
  { f with
    hint := none
    lead := lead
    gives := .no
    timer := if keeps then f.timer + 1 else 1
    tally := if keeps && decide (period ≤ f.timer) then f.tally + 1 else 0 }

/-- The flight after an attempt that held the whole group: the slot and the timer stand as they did before the group's first word
(R97, R98). -/
def Flight.turnedAway (f : Flight) : Flight :=
  match f.hint with
  | some h => { f with hint := none, lead := h.back.lead, gives := h.back.gives, timer := h.back.timer, tally := h.back.tally }
  | none => f

/-- Every lane of the group is held. -/
def allHeld (c : Ctx) (rs : List (Nat × Res)) : Bool :=
  c.lanes.all (fun l => match resOf rs l with
    | .hold _ => true
    | _ => false)

/-- The end of the issue slot for the flight. -/
def passSlot (c : Ctx) (rs : List (Nat × Res)) (s : State) : State :=
  s.modFlight c.fk (fun f =>
    if allHeld c rs then f.turnedAway else f.passed c.keeps (s.slotLead c) (s.fairPeriod c.tr.part))

/-- The hint.sched pending at the instruction advises a swap. -/
def Ctx.advises (c : Ctx) : Bool :=
  match c.sched with
  | some (true, _) => true
  | _ => false

/-- The instruction has issued for some lane: its guard is true there, and it is neither held nor trapped. -/
def issuedLane (rs : List (Nat × Res)) : Bool :=
  rs.any (fun p => match p.2 with
    | .hold _ => false
    | .trap _ => false
    | _ => true)

/-- R104, R211: some thread of the flight holds a live transient value. -/
def State.holdsTransient (s : State) (fk : Nat) : Bool :=
  lanes8.any (fun l => (s.thread? fk l).any (fun t => !t.trans.isEmpty))

/-- R211, R47, R49, R171: the swap advice of a hint.sched, once the hinted instruction has issued for a guard-true lane, and
while no transient value is live. -/
def adviseSwap (c : Ctx) (rs : List (Nat × Res)) (s : State) : State :=
  s.modFlight c.fk (fun f => { f with advice := f.advice || (c.advises && issuedLane rs && !s.holdsTransient c.fk) })

/-- R209: a stall of the group holds every lane of it. -/
def groupStall : List (Nat × Res) → Option Stall
  | [] => none
  | (_, .hold st) :: rs => if st.group then some st else groupStall rs
  | _ :: rs => groupStall rs

/-- What a lane does under a stall of its group: it is held, unless it traps (R105: a lane that traps leaves G). -/
def heldRes (st : Stall) (r : Res) : Res :=
  match r with
  | .trap x => .trap x
  | _ => .hold st

/-- The results with a stall of the group given to every lane that does not trap. -/
def wholeGroup (c : Ctx) (rs : List (Nat × Res)) : List (Nat × Res) :=
  match groupStall rs with
  | some st => c.lanes.map (fun l => (l, heldRes st (resOf rs l)))
  | none => rs

/-- The end of one issue slot: every lane of the group goes where its result says, the traps are taken. `fnpc` is the
address of the word after the group's instruction (R107). -/
def concludeAt (c : Ctx) (fnpc : DWord) (s : State) (rs0 : List (Nat × Res)) : State :=
  let rs := wholeGroup c rs0
  let s1 := c.lanes.foldl (settleLane c rs) s
  let s2 := takeOutcomes c fnpc rs s1
  adviseSwap c rs (passSlot c rs s2)

/-- The end of the slot of an instruction: the word after it follows it. -/
def conclude (c : Ctx) (s : State) (rs : List (Nat × Res)) : State := concludeAt c (nextPc c.pc) s rs

/-- R465: a trap that the words decide by themselves is taken by every thread of the executing group. -/
def trapAll (c : Ctx) (s : State) (x : Trap) : State :=
  conclude c s (c.lanes.map (fun l => (l, Res.trap x)))

/-- What an instruction does for the lanes it is given. -/
abbrev Body := Ctx → List Nat → State → State × List (Nat × Res)

/-- Issue an instruction whose body takes every lane of the group, guard-false lanes included. -/
def issueRaw (s : State) (h : HintUse) (body : Ctx → State → State × List (Nat × Res)) : State :=
  match s.ctx? with
  | none => s
  | some c =>
    if hintsOk c h then
      let r := body c s
      conclude c r.1 r.2
    else trapAll c s (trap .illegal 0)

/-- R342: some lane awaits the predicate of a tracked raise (short stall of the whole group). -/
def awaitsPred (s : State) (fk : Nat) (ps : List Nat) (lanes : List Nat) : Bool :=
  lanes.any (fun l => match s.thread? fk l with
    | some t => t.pwait.any (fun w => ps.contains w.1)
    | none => false)

/-- Issue a guarded instruction (R42): with no guard-true lane it has no effect. `ps` are the predicates it reads
besides its guard. -/
def issueP (s : State) (h : HintUse) (g : BitVec 3) (ps : List (BitVec 3)) (body : Body) : State :=
  issueRaw s h (fun c s =>
    if awaitsPred s c.fk (g.toNat :: ps.map (·.toNat)) c.lanes then (s, [(c.lanes.headD 0, .hold .register)])
    else
      match guardLanes s c g with
      | [] => (s, [])
      | l :: ls => body c (l :: ls) s)

/-- An instruction that reads no predicate but its guard. -/
def issue (s : State) (h : HintUse) (g : BitVec 3) (body : Body) : State := issueP s h g [] body

/-! ## Lane-local instructions -/

/-- What a lane-local instruction does to its thread: the thread after it with the flags it raises and where it goes
on, or a trap. -/
inductive LaneOut where
  | ok (t : Thread) (flags : BitVec 5)
  | jump (t : Thread) (target : DWord)
  | trap (x : Trap)
  deriving DecidableEq, Repr

/-- R74: flags of an instruction that completes in its thread are ORed into its flight at issue. -/
def State.orFlags (s : State) (fk : Nat) (fl : BitVec 5) : State :=
  s.modFlight fk (fun f => { f with fpflags := f.fpflags ||| fl })

/-- One lane of a lane-local instruction. -/
def runLane (n fk : Nat) (us : List RegUse) (f : Nat → Thread → LaneOut) (acc : State × List (Nat × Res)) (lane : Nat) :
    State × List (Nat × Res) :=
  match acc.1.thread? fk lane with
  | none => acc
  | some t =>
    match regTrap n t us with
    | some x => (acc.1, acc.2 ++ [(lane, .trap x)])
    | none =>
      match f lane t with
      | .ok t' fl => ((acc.1.putThread fk lane t').orFlags fk fl, acc.2 ++ [(lane, .done)])
      | .jump t' target => (acc.1.putThread fk lane t', acc.2 ++ [(lane, .goto target)])
      | .trap x => (acc.1, acc.2 ++ [(lane, .trap x)])

/-- R183: some lane awaits a load into a register the instruction names (short stall of the whole group). -/
def anyAwaits (s : State) (fk : Nat) (rs : List Nat) (lanes : List Nat) : Bool :=
  lanes.any (fun l => match s.thread? fk l with
    | some t => t.awaits rs
    | none => false)

/-- Run a lane-local instruction over the given lanes, the registers it names checked first. -/
def laneBody (us : List RegUse) (f : Ctx → State → Nat → Thread → LaneOut) : Body := fun c g s =>
  if anyAwaits s c.fk (allRegs us) g then (s, g.map (fun l => (l, .hold .register)))
  else g.foldl (runLane c.ld.regs c.fk us (f c s)) (s, [])

/-- A lane-local instruction: registers named, the effect on one thread. -/
def laneOp (s : State) (h : HintUse) (g : BitVec 3) (us : List RegUse)
    (f : Ctx → State → Nat → Thread → LaneOut) : State :=
  issue s h g (laneBody us f)

/-- A lane-local instruction that reads predicates, writes a function of its thread and raises no flag. -/
def laneSetP (s : State) (h : HintUse) (g : BitVec 3) (ps : List (BitVec 3)) (us : List RegUse) (f : Thread → Thread) :
    State :=
  issueP s h g ps (laneBody us (fun _ _ _ t => .ok (f t) 0))

/-- A lane-local instruction that writes a function of its thread and raises no flag. -/
def laneSet (s : State) (h : HintUse) (g : BitVec 3) (us : List RegUse) (f : Thread → Thread) : State :=
  laneOp s h g us (fun _ _ _ t => .ok (f t) 0)

/-! ## Counters (R212) -/

/-- The counter value: operations issued less the longest completed run of the oldest. -/
def Counter.value (c : Counter) : Nat := c.issued - c.base

/-- Advance the oldest uncompleted number over the completed ones. -/
def advance (done : List Nat) : Nat → Nat → Nat
  | 0, b => b
  | n + 1, b => if done.contains b then advance done n (b + 1) else b

/-- Operation `n` of the class completes, in whatever order. -/
def Counter.complete (c : Counter) (n : Nat) : Counter :=
  let d := n :: c.done
  let b := advance d d.length c.base
  { c with base := b, done := d.filter (fun k => decide (b ≤ k)) }

/-- A new operation joins the class. -/
def Counter.join (c : Counter) : Counter := { c with issued := c.issued + 1 }

/-- The counter of a class. -/
def Flight.counter (f : Flight) : Cls → Counter
  | .ld => f.cLd
  | .st => f.cSt
  | .cp => f.cCp
  | .mx => f.cMx

/-- Change the counter of a class. -/
def Flight.modCounter (f : Flight) (k : Cls) (u : Counter → Counter) : Flight :=
  match k with
  | .ld => { f with cLd := u f.cLd }
  | .st => { f with cSt := u f.cSt }
  | .cp => { f with cCp := u f.cCp }
  | .mx => { f with cMx := u f.cMx }

/-- An operation joins class `k` of a flight. -/
def State.joinOp (s : State) (fk : Nat) (k : Cls) : State := s.modFlight fk (fun f => f.modCounter k Counter.join)

/-- R212: the class has no room for another operation. -/
def Flight.full (f : Flight) (k : Cls) : Bool := decide (63 ≤ (f.counter k).value)

/-! ## Waking -/

/-- After an event every held thread may try again. -/
def State.wakeAll (s : State) : State :=
  { s with threads := s.threads.map (fun p => (p.1, { p.2 with held := none })) }

end Sys2Proof.Machine
end

