-- ==== Sys2Proof/Machine/Operands.lean ====
section
/-!
DEFINITION. The operand forms: immediates with and without a hint.imm (R28, R48, R115), register-number forms of the
indexed accesses (R92, R129), memory operands (R181), scopes and orders (R27, R45).
-/

namespace Sys2Proof.Machine

/-- R48: under a hint.imm the immediate's bits above [7:0] must be zero. -/
def immHighZero (n : Nat) (i : BitVec n) : Bool := decide (i.toNat < 256)

/-- R28, R115: the immediate of an instruction: its own field sign-extended, or the hint's payload above bits [7:0]. -/
def immediate {n : Nat} (c : Ctx) (i : BitVec n) : Word :=
  match c.imm with
  | none => i.signExtend 32
  | some p => BitVec.ofNat 32 (p.toNat * 256 + i.toNat % 256)

/-- R92: the effective limit of formed register numbers. -/
def effLimit (n : Nat) (x : Word) : Nat :=
  let l := bits x.toNat 8 8
  min (if l = 0 then 256 else l) n

/-- R129: the register number an indexed access forms, or its trap. `w` is 1, 2 or 4 registers. -/
def formIndexed (n : Nat) (t : Thread) (k off w : Nat) : Except Trap Nat :=
  let r := bits (t.xreg k).toNat 0 8 + off
  if r % w ≠ 0 then .error (trap .illegalRegister (r % 256))
  else if effLimit n (t.xreg k) ≤ r + w - 1 then .error (trap .indexBounds k)
  else .ok r

/-- R181: the address of a global operand. -/
def eaGlobal (t : Thread) (base : BitVec 6) (off : Int) : DWord := t.pair base.toNat + dword off

/-- R181: the address of a hall operand. -/
def eaHall (t : Thread) (base : BitVec 6) (off : Int) : Word := t.reg base.toNat + word off

/-- The base register of a memory operand: a pair in space 0, one register in space 1 (R181). -/
def baseUse (h : BitVec 1) (b : BitVec 6) : RegUse := if h = 1 then one b else pair b

/-- R51: the register use of a data register of `s` bytes. -/
def dataUse (d : BitVec 6) (s : Nat) : RegUse := if s ≤ 4 then one d else if s = 8 then pair d else quad d

/-- The mode of an instruction: RNE unless a hint.mod with rv heads the group (R132). -/
def Ctx.rm (c : Ctx) : Rm :=
  match c.mods with
  | some m => if m.rv then
      (match m.rm.toNat with
       | 0 => .rne
       | 1 => .rz
       | 2 => .ru
       | _ => .rd)
    else .rne
  | none => .rne

/-- The saturation of a conversion: from hint.mod sv and sat (R144). -/
def Ctx.sat (c : Ctx) : Bool :=
  match c.mods with
  | some m => m.sv && m.sat
  | none => false

/-- The cache policy of an access (R185): normal unless a hint.mod with cv heads the group. -/
def Ctx.cache (c : Ctx) : Nat :=
  match c.mods with
  | some m => if m.cv then m.cache.toNat else 0
  | none => 0

/-- The order of an atomic (R195): relaxed unless a hint.mod with ov heads the group; acquire, release. -/
def Ctx.order (c : Ctx) : Bool × Bool :=
  match c.mods with
  | some m => if m.ov then (m.order.getLsbD 0, m.order.getLsbD 1) else (false, false)
  | none => (false, false)

/-- The scope of an atomic (R195): the package unless a hint.mod with scv heads the group (code 6, R27). -/
def Ctx.scope (c : Ctx) : Nat :=
  match c.mods with
  | some m => if m.scv then m.scope.toNat else 6
  | none => 6

/-- The returnless bit (R46, R51). -/
def Ctx.nr (c : Ctx) : Bool :=
  match c.mods with
  | some m => m.nr
  | none => false

end Sys2Proof.Machine
end

