-- ==== Sys2Proof/Machine/Integer.lean ====
section
/-!
DEFINITION. The integer, address and predicate instructions (06_int_instr.md): IOP, IOP2, the immediate families, ICMP,
ICMPI, PRED, SEL, A64, IDX. Each works on the registers of its own thread (R110).
-/

namespace Sys2Proof.Machine

/-- What a meaning answers. -/
abbrev Out := Host.Outcome State Fault Refusal

/-! ## Shared forms -/

/-- Two sources, one destination (R111). -/
def alu2 (d a b : BitVec 6) (t : BitVec 1) (g : BitVec 3) (f : Word → Word → Word) (s : State) : Out :=
  .next (laneSet s HintUse.none g [one d, one a, one b]
    (fun th => th.result (t == 1) d.toNat (f (th.reg a.toNat) (th.reg b.toNat))))

/-- One source, one destination (R111). -/
def alu1 (d a : BitVec 6) (t : BitVec 1) (g : BitVec 3) (f : Word → Word) (s : State) : Out :=
  .next (laneSet s HintUse.none g [one d, one a] (fun th => th.result (t == 1) d.toNat (f (th.reg a.toNat))))

/-- One source and an immediate that a hint.imm may widen (R115). -/
def aluImm (d a : BitVec 6) (i : BitVec 11) (g : BitVec 3) (f : Word → Word → Word) (s : State) : Out :=
  .next (laneOp s (HintUse.immediate (immHighZero 11 i)) g [one d, one a]
    (fun c _ _ th => .ok (th.setReg d.toNat (f (th.reg a.toNat) (immediate c i))) 0))

/-- A comparison of two registers into a predicate (R118). -/
def cmp2 (p : BitVec 3) (a b : BitVec 6) (g : BitVec 3) (f : Word → Word → Bool) (s : State) : Out :=
  .next (laneSet s HintUse.none g [one a, one b]
    (fun th => th.setPred p.toNat (f (th.reg a.toNat) (th.reg b.toNat))))

/-- A comparison with an immediate into a predicate (R118). -/
def cmpImm (p : BitVec 3) (a : BitVec 6) (i : BitVec 11) (g : BitVec 3) (f : Word → Word → Bool) (s : State) : Out :=
  .next (laneOp s (HintUse.immediate (immHighZero 11 i)) g [one a]
    (fun c _ _ th => .ok (th.setPred p.toNat (f (th.reg a.toNat) (immediate c i))) 0))

/-! ## The word functions of R112 and R113 -/

def fShl (a b : Word) : Word := if b.toNat < 32 then a <<< b.toNat else 0
def fShr (a b : Word) : Word := if b.toNat < 32 then a >>> b.toNat else 0
def fSar (a b : Word) : Word := if b.toNat < 32 then a.sshiftRight b.toNat else if a.toInt < 0 then -1 else 0
def fRot (a b : Word) : Word := a.rotateLeft (b.toNat % 32)
def fMinS (a b : Word) : Word := if a.toInt ≤ b.toInt then a else b
def fMaxS (a b : Word) : Word := if a.toInt ≤ b.toInt then b else a
def fMinN (a b : Word) : Word := if a.toNat ≤ b.toNat then a else b
def fMaxN (a b : Word) : Word := if a.toNat ≤ b.toNat then b else a
def fMulhiS (a b : Word) : Word := word (a.toInt * b.toInt / 2 ^ 32)
def fMulhiN (a b : Word) : Word := BitVec.ofNat 32 (a.toNat * b.toNat / 2 ^ 32)

/-- Leading zero bits among the low `n` bits of `a`. -/
def leadingZeros (a : Nat) : Nat → Nat
  | 0 => 0
  | n + 1 => if bit a n then 0 else leadingZeros a n + 1

/-- One bits among the low `n` bits of `a`. -/
def popCount (a : Nat) : Nat → Nat
  | 0 => 0
  | n + 1 => (if bit a n then 1 else 0) + popCount a n

/-- The low `n` bits of `a` in reverse order. -/
def bitReverse (a : Nat) : Nat → Nat
  | 0 => 0
  | n + 1 => bits a 0 1 * 2 ^ n + bitReverse (a / 2) n

def fClz (a : Word) : Word := BitVec.ofNat 32 (leadingZeros a.toNat 32)
def fPopc (a : Word) : Word := BitVec.ofNat 32 (popCount a.toNat 32)
def fBrev (a : Word) : Word := BitVec.ofNat 32 (bitReverse a.toNat 32)
def fAbs (a : Word) : Word := if a.toInt < 0 then -a else a
def fExtS (w : Nat) (a : Word) : Word := word (sign a.toNat w)
def fExtN (w : Nat) (a : Word) : Word := BitVec.ofNat 32 (a.toNat % 2 ^ w)

/-- R113: an exact signed result held to the range of s32. -/
def satS (i : Int) : Word := word (min (max i (-(2 ^ 31))) (2 ^ 31 - 1))
def fAddSatS (a b : Word) : Word := satS (a.toInt + b.toInt)
def fSubSatS (a b : Word) : Word := satS (a.toInt - b.toInt)
def fAddSatN (a b : Word) : Word := BitVec.ofNat 32 (min (a.toNat + b.toNat) (2 ^ 32 - 1))
def fAbsDiff (a b : Word) : Word := BitVec.ofNat 32 (a.toInt - b.toInt).natAbs

/-- R113: position and width of a bit-field control word. -/
def fieldPos (c : Word) : Nat := bits c.toNat 0 5
def fieldWidth (c : Word) : Nat := min (bits c.toNat 8 6) 32
def fBfx (a c : Word) : Word := BitVec.ofNat 32 (a.toNat / 2 ^ fieldPos c % 2 ^ fieldWidth c)
def fBfi (a v c : Word) : Word :=
  let m : Word := BitVec.ofNat 32 ((2 ^ fieldWidth c - 1) * 2 ^ fieldPos c)
  (a &&& ~~~m) ||| ((v <<< fieldPos c) &&& m)

/-! ## IOP (R112) -/

def execAdd (d a b : BitVec 6) (t : BitVec 1) (g : BitVec 3) (s : State) : Out := alu2 d a b t g (fun x y => x + y) s
def execSub (d a b : BitVec 6) (t : BitVec 1) (g : BitVec 3) (s : State) : Out := alu2 d a b t g (fun x y => x - y) s
def execAnd (d a b : BitVec 6) (t : BitVec 1) (g : BitVec 3) (s : State) : Out := alu2 d a b t g (fun x y => x &&& y) s
def execOr (d a b : BitVec 6) (t : BitVec 1) (g : BitVec 3) (s : State) : Out := alu2 d a b t g (fun x y => x ||| y) s
def execXor (d a b : BitVec 6) (t : BitVec 1) (g : BitVec 3) (s : State) : Out := alu2 d a b t g (fun x y => x ^^^ y) s
def execAndn (d a b : BitVec 6) (t : BitVec 1) (g : BitVec 3) (s : State) : Out := alu2 d a b t g (fun x y => x &&& ~~~y) s
def execShl (d a b : BitVec 6) (t : BitVec 1) (g : BitVec 3) (s : State) : Out := alu2 d a b t g fShl s
def execShr (d a b : BitVec 6) (t : BitVec 1) (g : BitVec 3) (s : State) : Out := alu2 d a b t g fShr s
def execSar (d a b : BitVec 6) (t : BitVec 1) (g : BitVec 3) (s : State) : Out := alu2 d a b t g fSar s
def execRot (d a b : BitVec 6) (t : BitVec 1) (g : BitVec 3) (s : State) : Out := alu2 d a b t g fRot s
def execMinS (d a b : BitVec 6) (t : BitVec 1) (g : BitVec 3) (s : State) : Out := alu2 d a b t g fMinS s
def execMaxS (d a b : BitVec 6) (t : BitVec 1) (g : BitVec 3) (s : State) : Out := alu2 d a b t g fMaxS s
def execMinN (d a b : BitVec 6) (t : BitVec 1) (g : BitVec 3) (s : State) : Out := alu2 d a b t g fMinN s
def execMaxN (d a b : BitVec 6) (t : BitVec 1) (g : BitVec 3) (s : State) : Out := alu2 d a b t g fMaxN s
def execMul (d a b : BitVec 6) (t : BitVec 1) (g : BitVec 3) (s : State) : Out := alu2 d a b t g (fun x y => x * y) s
def execMulhiS (d a b : BitVec 6) (t : BitVec 1) (g : BitVec 3) (s : State) : Out := alu2 d a b t g fMulhiS s

/-! ## IOP2 (R113) -/

def execMulhiN (d a b : BitVec 6) (t : BitVec 1) (g : BitVec 3) (s : State) : Out := alu2 d a b t g fMulhiN s
def execClz (d a : BitVec 6) (t : BitVec 1) (g : BitVec 3) (s : State) : Out := alu1 d a t g fClz s
def execPopc (d a : BitVec 6) (t : BitVec 1) (g : BitVec 3) (s : State) : Out := alu1 d a t g fPopc s
def execBrev (d a : BitVec 6) (t : BitVec 1) (g : BitVec 3) (s : State) : Out := alu1 d a t g fBrev s
def execAbs (d a : BitVec 6) (t : BitVec 1) (g : BitVec 3) (s : State) : Out := alu1 d a t g fAbs s
def execNeg (d a : BitVec 6) (t : BitVec 1) (g : BitVec 3) (s : State) : Out := alu1 d a t g (fun x => -x) s
def execExtS8 (d a : BitVec 6) (t : BitVec 1) (g : BitVec 3) (s : State) : Out := alu1 d a t g (fExtS 8) s
def execExtS16 (d a : BitVec 6) (t : BitVec 1) (g : BitVec 3) (s : State) : Out := alu1 d a t g (fExtS 16) s
def execExtN8 (d a : BitVec 6) (t : BitVec 1) (g : BitVec 3) (s : State) : Out := alu1 d a t g (fExtN 8) s
def execExtN16 (d a : BitVec 6) (t : BitVec 1) (g : BitVec 3) (s : State) : Out := alu1 d a t g (fExtN 16) s
def execAddSatS (d a b : BitVec 6) (t : BitVec 1) (g : BitVec 3) (s : State) : Out := alu2 d a b t g fAddSatS s
def execAddSatN (d a b : BitVec 6) (t : BitVec 1) (g : BitVec 3) (s : State) : Out := alu2 d a b t g fAddSatN s
def execSubSatS (d a b : BitVec 6) (t : BitVec 1) (g : BitVec 3) (s : State) : Out := alu2 d a b t g fSubSatS s
def execAbsdiff (d a b : BitVec 6) (t : BitVec 1) (g : BitVec 3) (s : State) : Out := alu2 d a b t g fAbsDiff s
def execBfx (d a b : BitVec 6) (t : BitVec 1) (g : BitVec 3) (s : State) : Out := alu2 d a b t g fBfx s

/-- bfi names a pair in b: the value and the control word (R111, R113). -/
def execBfi (d a b : BitVec 6) (t : BitVec 1) (g : BitVec 3) (s : State) : Out :=
  .next (laneSet s HintUse.none g [one d, one a, pair b]
    (fun th => th.result (t == 1) d.toNat (fBfi (th.reg a.toNat) (th.reg b.toNat) (th.reg (b.toNat + 1)))))

/-! ## The immediate families (R115, R116) -/

def execAddi (d a : BitVec 6) (i : BitVec 11) (g : BitVec 3) (s : State) : Out := aluImm d a i g (fun x y => x + y) s
def execAndi (d a : BitVec 6) (i : BitVec 11) (g : BitVec 3) (s : State) : Out := aluImm d a i g (fun x y => x &&& y) s
def execOri (d a : BitVec 6) (i : BitVec 11) (g : BitVec 3) (s : State) : Out := aluImm d a i g (fun x y => x ||| y) s
def execXori (d a : BitVec 6) (i : BitVec 11) (g : BitVec 3) (s : State) : Out := aluImm d a i g (fun x y => x ^^^ y) s

/-- The shift op of shi with its amount (R51, R116). -/
def shiftOp (o : BitVec 2) (a n : Word) : Word :=
  match o.toNat with
  | 0 => fShl a n
  | 1 => fShr a n
  | 2 => fSar a n
  | _ => fRot a n

def execShi (d a : BitVec 6) (o : BitVec 2) (n : BitVec 5) (g : BitVec 3) (s : State) : Out :=
  .next (laneSet s HintUse.none g [one d, one a]
    (fun th => th.setReg d.toNat (shiftOp o (th.reg a.toNat) (n.zeroExtend 32))))

def execMovi (d : BitVec 6) (i : BitVec 17) (g : BitVec 3) (s : State) : Out :=
  .next (laneOp s (HintUse.immediate (immHighZero 17 i)) g [one d]
    (fun c _ _ th => .ok (th.setReg d.toNat (immediate c i)) 0))

/-! ## ICMP and ICMPI (R119) -/

def cEq (a b : Word) : Bool := a == b
def cNe (a b : Word) : Bool := a != b
def cLtS (a b : Word) : Bool := decide (a.toInt < b.toInt)
def cLeS (a b : Word) : Bool := decide (a.toInt ≤ b.toInt)
def cLtN (a b : Word) : Bool := decide (a.toNat < b.toNat)
def cLeN (a b : Word) : Bool := decide (a.toNat ≤ b.toNat)
def cGtS (a b : Word) : Bool := decide (b.toInt < a.toInt)
def cGeS (a b : Word) : Bool := decide (b.toInt ≤ a.toInt)
def cGtN (a b : Word) : Bool := decide (b.toNat < a.toNat)
def cGeN (a b : Word) : Bool := decide (b.toNat ≤ a.toNat)

def execEq (p : BitVec 3) (a b : BitVec 6) (g : BitVec 3) (s : State) : Out := cmp2 p a b g cEq s
def execNe (p : BitVec 3) (a b : BitVec 6) (g : BitVec 3) (s : State) : Out := cmp2 p a b g cNe s
def execLtS (p : BitVec 3) (a b : BitVec 6) (g : BitVec 3) (s : State) : Out := cmp2 p a b g cLtS s
def execLeS (p : BitVec 3) (a b : BitVec 6) (g : BitVec 3) (s : State) : Out := cmp2 p a b g cLeS s
def execLtN (p : BitVec 3) (a b : BitVec 6) (g : BitVec 3) (s : State) : Out := cmp2 p a b g cLtN s
def execLeN (p : BitVec 3) (a b : BitVec 6) (g : BitVec 3) (s : State) : Out := cmp2 p a b g cLeN s
def execGtS (p : BitVec 3) (a b : BitVec 6) (g : BitVec 3) (s : State) : Out := cmp2 p a b g cGtS s
def execGeS (p : BitVec 3) (a b : BitVec 6) (g : BitVec 3) (s : State) : Out := cmp2 p a b g cGeS s
def execGtN (p : BitVec 3) (a b : BitVec 6) (g : BitVec 3) (s : State) : Out := cmp2 p a b g cGtN s
def execGeN (p : BitVec 3) (a b : BitVec 6) (g : BitVec 3) (s : State) : Out := cmp2 p a b g cGeN s
def execEqImm (p : BitVec 3) (a : BitVec 6) (i : BitVec 11) (g : BitVec 3) (s : State) : Out := cmpImm p a i g cEq s
def execNeImm (p : BitVec 3) (a : BitVec 6) (i : BitVec 11) (g : BitVec 3) (s : State) : Out := cmpImm p a i g cNe s
def execLtSImm (p : BitVec 3) (a : BitVec 6) (i : BitVec 11) (g : BitVec 3) (s : State) : Out := cmpImm p a i g cLtS s
def execLeSImm (p : BitVec 3) (a : BitVec 6) (i : BitVec 11) (g : BitVec 3) (s : State) : Out := cmpImm p a i g cLeS s
def execGtSImm (p : BitVec 3) (a : BitVec 6) (i : BitVec 11) (g : BitVec 3) (s : State) : Out := cmpImm p a i g cGtS s
def execGeSImm (p : BitVec 3) (a : BitVec 6) (i : BitVec 11) (g : BitVec 3) (s : State) : Out := cmpImm p a i g cGeS s
def execLtNImm (p : BitVec 3) (a : BitVec 6) (i : BitVec 11) (g : BitVec 3) (s : State) : Out := cmpImm p a i g cLtN s
def execGeNImm (p : BitVec 3) (a : BitVec 6) (i : BitVec 11) (g : BitVec 3) (s : State) : Out := cmpImm p a i g cGeN s

/-! ## PRED (R122) -/

/-- Two predicates into one. -/
def pred2 (d a b g : BitVec 3) (f : Bool → Bool → Bool) (s : State) : Out :=
  .next (laneSetP s HintUse.none g [a, b] [] (fun th => th.setPred d.toNat (f (th.pred a.toNat) (th.pred b.toNat))))

/-- p0 to p7 as a word; p0 reads 1 (R122). -/
def predWord (th : Thread) : Word := flagWord true ||| ((th.preds &&& 0xFE).zeroExtend 32)

def execPand (d a b g : BitVec 3) (s : State) : Out := pred2 d a b g (fun x y => x && y) s
def execPor (d a b g : BitVec 3) (s : State) : Out := pred2 d a b g (fun x y => x || y) s
def execPxor (d a b g : BitVec 3) (s : State) : Out := pred2 d a b g (fun x y => x != y) s
def execPnot (d a g : BitVec 3) (s : State) : Out :=
  .next (laneSetP s HintUse.none g [a] [] (fun th => th.setPred d.toNat (!th.pred a.toNat)))
def execPsetNz (d : BitVec 3) (a : BitVec 6) (g : BitVec 3) (s : State) : Out :=
  .next (laneSet s HintUse.none g [one a] (fun th => th.setPred d.toNat (th.reg a.toNat != 0)))
def execPget (d : BitVec 6) (g : BitVec 3) (s : State) : Out :=
  .next (laneSetP s HintUse.none g [1, 2, 3, 4, 5, 6, 7] [one d] (fun th => th.setReg d.toNat (predWord th)))

/-! ## SEL (R124) -/

/-- Both sources are checked, whichever is chosen. -/
def execSel (d a b : BitVec 6) (p : BitVec 3) (t : BitVec 1) (g : BitVec 3) (s : State) : Out :=
  .next (laneSetP s HintUse.none g [p] [one d, one a, one b]
    (fun th => th.result (t == 1) d.toNat (if th.pred p.toNat then th.reg a.toNat else th.reg b.toNat)))

/-! ## A64 (R125, R126) -/

/-- Two pairs into a pair. -/
def pair2 (d a b : BitVec 6) (t : BitVec 1) (g : BitVec 3) (f : DWord → DWord → DWord) (s : State) : Out :=
  .next (laneSet s HintUse.none g [pair d, pair a, pair b]
    (fun th => th.resultPair (t == 1) d.toNat (f (th.pair a.toNat) (th.pair b.toNat))))

/-- The conditions of ICMPI on 64-bit values (R125, R119). -/
def cond64 (c : BitVec 3) (x y : DWord) : Bool :=
  match c.toNat with
  | 0 => x == y
  | 1 => x != y
  | 2 => decide (x.toInt < y.toInt)
  | 3 => decide (x.toInt ≤ y.toInt)
  | 4 => decide (y.toInt < x.toInt)
  | 5 => decide (y.toInt ≤ x.toInt)
  | 6 => decide (x.toNat < y.toNat)
  | _ => decide (y.toNat ≤ x.toNat)

def execAdd64 (d a b : BitVec 6) (t : BitVec 1) (g : BitVec 3) (s : State) : Out := pair2 d a b t g (fun x y => x + y) s
def execSub64 (d a b : BitVec 6) (t : BitVec 1) (g : BitVec 3) (s : State) : Out := pair2 d a b t g (fun x y => x - y) s
def execLea (d a b : BitVec 6) (t : BitVec 1) (g : BitVec 3) (s : State) : Out :=
  .next (laneSet s HintUse.none g [pair d, pair a, one b]
    (fun th => th.resultPair (t == 1) d.toNat (canon (th.pair a.toNat + (th.reg b.toNat).signExtend 64))))
def execCmp64 (c p : BitVec 3) (a b : BitVec 6) (g : BitVec 3) (s : State) : Out :=
  .next (laneSet s HintUse.none g [pair a, pair b]
    (fun th => th.setPred p.toNat (cond64 c (th.pair a.toNat) (th.pair b.toNat))))

/-! ## IDX (R128, R129) -/

/-- The index field of an index register. -/
def setIndex (x : Word) (n : Nat) : Word := BitVec.ofNat 32 (bits x.toNat 8 8 * 256 + n % 256)
/-- The limit field of an index register. -/
def setLimit (x : Word) (n : Nat) : Word := BitVec.ofNat 32 (n % 256 * 256 + bits x.toNat 0 8)

def execXset (k : BitVec 2) (a : BitVec 6) (g : BitVec 3) (s : State) : Out :=
  .next (laneSet s HintUse.none g [one a]
    (fun th => th.setX k.toNat (setIndex (th.xreg k.toNat) (th.reg a.toNat).toNat)))
def execXadd (k : BitVec 2) (b : BitVec 6) (g : BitVec 3) (s : State) : Out :=
  .next (laneSet s HintUse.none g []
    (fun th => th.setX k.toNat (setIndex (th.xreg k.toNat)
      (bits (th.xreg k.toNat).toNat 0 8 + (b.signExtend 8).toNat))))
def execXlim (k : BitVec 2) (a : BitVec 6) (g : BitVec 3) (s : State) : Out :=
  .next (laneSet s HintUse.none g [one a]
    (fun th => th.setX k.toNat (setLimit (th.xreg k.toNat) (th.reg a.toNat).toNat)))

/-- The use of `n` registers from `r`. -/
def direct (r : BitVec 6) (n : Nat) : RegUse := { r := r.toNat, n := n }

/-- R51, R129: registers per access for a width code; code 3 is refused by the decoder. -/
def idxWords (w : BitVec 2) : Nat := 2 ^ w.toNat

/-- An indexed access (R129, R110): the direct register's number, then the formed register's number and bounds, then
the leases of both, then a load still awaited by the formed registers. -/
def indexed (d : BitVec 6) (w k : BitVec 2) (o : BitVec 6) (g : BitVec 3) (f : Nat → Nat → Thread → Thread)
    (s : State) : Out :=
  let n := idxWords w
  .next (issue s HintUse.none g (fun c ls s =>
    let form := fun th => formIndexed c.ld.regs th k.toNat o.toNat n
    let waits := ls.any (fun l => match s.thread? c.fk l with
      | none => false
      | some th => match form th with
        | .error _ => false
        | .ok r => th.awaits (allRegs [direct d n] ++ (List.range n).map (fun i => r + i)))
    if waits then (s, ls.map (fun l => (l, .hold .register)))
    else ls.foldl (runLane c.ld.regs c.fk [] (fun _ th =>
      match illegalReg c.ld.regs [direct d n] with
      | some x => .trap x
      | none =>
        match form th with
        | .error x => .trap x
        | .ok r =>
          match leaseTrap th (allRegs [direct d n] ++ (List.range n).map (fun i => r + i)) with
          | some x => .trap x
          | none => .ok (f r n th) 0)) (s, [])))

def execLdv (d : BitVec 6) (w k : BitVec 2) (o : BitVec 6) (g : BitVec 3) (s : State) : Out :=
  indexed d w k o g (fun r n th => th.setRegs d.toNat (th.regList r n)) s
def execStv (d : BitVec 6) (w k : BitVec 2) (o : BitVec 6) (g : BitVec 3) (s : State) : Out :=
  indexed d w k o g (fun r n th => th.setRegs r (th.regList d.toNat n)) s

end Sys2Proof.Machine
end

