-- ==== Sys2Proof/Machine/Special.lean ====
section
/-!
DEFINITION. The correctly rounded functions of FSPEC on FP32 (R141). Quotients and roots are exact integer quotients
and roots with the remainder kept; exp2, log2, sinpi, cospi and tanh, whose values are irrational outside the exact
cases of R141, are evaluated with 448 fractional bits and rounded once (log entry 20).
-/

namespace Sys2Proof.Machine

/-- Fractional bits of the fixed-point evaluation. -/
def fx : Nat := 448
/-- One, in fixed point. -/
def fxOne : Nat := 2 ^ 448
/-- π in fixed point, truncated. -/
def fxPi : Nat := 0x3243f6a8885a308d313198a2e03707344a4093822299f31d0082efa98ec4e6c89452821e638d01377be5466cf34e90c6cc0ac29b7c97c50dd
/-- The natural logarithm of 2 in fixed point, truncated. -/
def fxLn2 : Nat := 0xb17217f7d1cf79abc9e3b39803f2f6af40f343267298b62d8a0d175b8baafa2be7b876206debac98559552fb4afa1b10ed2eae35c1382144

/-- Σ over k of t^k / k!, from term `k` on. -/
def expSum (t : Nat) : Nat → Nat → Nat → Nat
  | 0, _, _ => 0
  | n + 1, k, term => term + expSum t n (k + 1) (term * t / fxOne / (k + 1))

/-- 2^f for a fraction f of one. -/
def fxExp2 (f : Nat) : Nat := expSum (f * fxLn2 / fxOne) 100 0 fxOne

/-- Σ over k of z^(2k+1) / (2k+1), from term `k` on. -/
def atanhSum (z2 : Nat) : Nat → Nat → Nat → Nat
  | 0, _, _ => 0
  | n + 1, k, p => p / (2 * k + 1) + atanhSum z2 n (k + 1) (p * z2 / fxOne)

/-- Σ over k of (−1)^k x^(2k+1) / (2k+1)!, from term `k` on. -/
def sinSum (x2 : Nat) : Nat → Nat → Int → Int
  | 0, _, _ => 0
  | n + 1, k, term => term + sinSum x2 n (k + 1) (-(term * x2 / fxOne / ((2 * k + 2) * (2 * k + 3) : Nat)))

/-- sin(π r) for a fraction r of one, at most a half. -/
def fxSinPi (r : Nat) : Nat :=
  let x := r * fxPi / fxOne
  (sinSum (x * x / fxOne) 60 0 x).toNat

/-- The quotient of two exact magnitudes, rounded once. -/
def fQuot (rm : Rm) (neg : Bool) (m1 : Nat) (e1 : Int) (m2 : Nat) (e2 : Int) : Nat × FFlags :=
  let k := Nat.log2 m2 + 40
  let q := m1 * 2 ^ k / m2
  let e := e1 - e2 - k
  if m1 * 2 ^ k % m2 = 0 then roundTo fp32 rm false neg q e else roundBetween fp32 rm neg q e

def fDiv (rm : Rm) (a b : Nat) : Nat × FFlags :=
  let x := fp32.val a
  let y := fp32.val b
  let sf := snanFlag [x, y]
  let n := x.neg != y.neg
  match x, y with
  | .nan _, _ => fp32.qnan sf
  | _, .nan _ => fp32.qnan sf
  | .inf _, .inf _ => fp32.qnan fNV
  | .inf _, _ => (fp32.signed n fp32.infCode, 0)
  | _, .inf _ => (fp32.signed n 0, 0)
  | .fin _ m1 e1, .fin _ m2 e2 =>
    if m2 = 0 then (if m1 = 0 then fp32.qnan fNV else (fp32.signed n fp32.infCode, fDZ))
    else if m1 = 0 then (fp32.signed n 0, 0)
    else fQuot rm n m1 e1 m2 e2

def fRcp (rm : Rm) (a : Nat) : Nat × FFlags :=
  match fp32.val a with
  | .nan b => fp32.qnan (flagIf b fNV)
  | .inf n => (fp32.signed n 0, 0)
  | .fin n m e => if m = 0 then (fp32.signed n fp32.infCode, fDZ) else fQuot rm n 1 0 m e

/-- The root of m·2^e: scaled to an even exponent with at least 80 bits. -/
def fSqrt (rm : Rm) (a : Nat) : Nat × FFlags :=
  match fp32.val a with
  | .nan b => fp32.qnan (flagIf b fNV)
  | .inf n => if n then fp32.qnan fNV else (fp32.infCode, 0)
  | .fin n m e =>
    if m = 0 then (fp32.signed n 0, 0)
    else if n then fp32.qnan fNV
    else
      let k : Nat := if e % 2 = 0 then 80 else 81
      let x := m * 2 ^ k
      let r := isqrt 60 x
      let e' := (e - k) / 2
      if r * r = x then roundTo fp32 rm false false r e' else roundBetween fp32 rm false r e'

/-- 1/√(m·2^e): the root of 2^K/m at an even exponent. -/
def fRsqrt (rm : Rm) (a : Nat) : Nat × FFlags :=
  match fp32.val a with
  | .nan b => fp32.qnan (flagIf b fNV)
  | .inf n => if n then fp32.qnan fNV else (0, 0)
  | .fin n m e =>
    if m = 0 then (fp32.signed n fp32.infCode, fDZ)
    else if n then fp32.qnan fNV
    else
      let k : Nat := if e % 2 = 0 then 120 else 121
      let x := 2 ^ k / m
      let r := isqrt 64 x
      let e' := (-e - k) / 2
      if r * r * m = 2 ^ k then roundTo fp32 rm false false r e' else roundBetween fp32 rm false r e'

/-- The fixed-point value of a finite magnitude whose exponent is at least −448. -/
def fxOf (m : Nat) (e : Int) : Nat := m * 2 ^ (e + fx).toNat

def fExp2 (rm : Rm) (a : Nat) : Nat × FFlags :=
  match fp32.val a with
  | .nan b => fp32.qnan (flagIf b fNV)
  | .inf n => if n then (0, 0) else (fp32.infCode, 0)
  | .fin n m e =>
    let x := signedInt n (fxOf m e)
    let i := max (min (x / fxOne) 1000) (-1000)
    let f := (x % fxOne).toNat
    if f = 0 then roundTo fp32 rm false false 1 i
    else roundBetween fp32 rm false (fxExp2 f) (i - fx)

def fLog2 (rm : Rm) (a : Nat) : Nat × FFlags :=
  match fp32.val a with
  | .nan b => fp32.qnan (flagIf b fNV)
  | .inf n => if n then fp32.qnan fNV else (fp32.infCode, 0)
  | .fin n m e =>
    if m = 0 then (fp32.signed true fp32.infCode, fDZ)
    else if n then fp32.qnan fNV
    else
      let l := Nat.log2 m
      let p := 2 ^ l
      if m = p then fOfInt fp32 rm (l + e)
      else
        let z := (m - p) * fxOne / (m + p)
        let y := 2 * atanhSum (z * z / fxOne) 160 0 z * fxOne / fxLn2
        let x : Int := ((l : Int) + e) * fxOne + y
        roundBetween fp32 rm (decide (x < 0)) x.natAbs (-fx)

/-- sin(π t) for a fixed-point t ≥ 0 that is no multiple of a half: sign and magnitude. -/
def sinPiParts (t : Nat) : Bool × Nat :=
  let r := t % (2 * fxOne)
  let r1 := r % fxOne
  (decide (fxOne ≤ r), fxSinPi (if fxOne < 2 * r1 then fxOne - r1 else r1))

def fSinPi (rm : Rm) (a : Nat) : Nat × FFlags :=
  match fp32.val a with
  | .nan b => fp32.qnan (flagIf b fNV)
  | .inf _ => fp32.qnan fNV
  | .fin n m e =>
    let t := fxOf m e
    if t % fxOne = 0 then (fp32.signed n 0, 0)
    else if 2 * t % fxOne = 0 then roundTo fp32 rm false (n != decide (fxOne ≤ t % (2 * fxOne))) 1 0
    else
      let p := sinPiParts t
      roundBetween fp32 rm (n != p.1) p.2 (-fx)

def fCosPi (rm : Rm) (a : Nat) : Nat × FFlags :=
  match fp32.val a with
  | .nan b => fp32.qnan (flagIf b fNV)
  | .inf _ => fp32.qnan fNV
  | .fin _ m e =>
    let t := fxOf m e
    if t % fxOne = 0 then roundTo fp32 rm false (decide (t % (2 * fxOne) = fxOne)) 1 0
    else if 2 * t % fxOne = 0 then (0, 0)
    else
      let p := sinPiParts (t + fxOne / 2)
      roundBetween fp32 rm p.1 p.2 (-fx)

/-- tanh: below 2^−40 in magnitude it lies just below x, from 32 up just below 1. -/
def fTanh (rm : Rm) (a : Nat) : Nat × FFlags :=
  match fp32.val a with
  | .nan b => fp32.qnan (flagIf b fNV)
  | .inf n => roundTo fp32 rm false n 1 0
  | .fin n m e =>
    if m = 0 then (fp32.signed n 0, 0)
    else
      let lg : Int := (Nat.log2 m : Int) + e
      if lg < -40 then roundBetween fp32 rm n (m * 2 ^ 50 - 1) (e - 50)
      else if 5 ≤ lg then roundBetween fp32 rm n (2 ^ 60 - 1) (-60)
      else
        let u := 2 * fxOf m e * fxOne / fxLn2
        let x := fxExp2 (fxOne - u % fxOne) / 2 ^ (u / fxOne + 1)
        roundBetween fp32 rm n ((fxOne - x) * fxOne / (fxOne + x)) (-fx)

end Sys2Proof.Machine
end

