-- ==== Sys2Proof/Machine/Float.lean ====
section
/-!
DEFINITION. The floating-point, narrow and compensated instructions (07_float_instr.md): FOP, HOP, FSPEC, FCVT, FCMP,
NDOT, CMPN. Flags go into the issuing flight at issue (R131, R74).
-/

namespace Sys2Proof.Machine

/-! ## Shared forms -/

/-- A pattern and its flags as a register value. -/
def wordOf (p : Nat × FFlags) : Word × FFlags := (BitVec.ofNat 32 p.1, p.2)

/-- A floating instruction on registers d, a, b with the rounding hint: `f` is given the mode and v[a], v[b], v[d]. -/
def flop3 (d a b : BitVec 6) (t : BitVec 1) (g : BitVec 3) (f : Rm → Word → Word → Word → Word × FFlags) (s : State) :
    Out :=
  .next (laneOp s HintUse.rounding g [one d, one a, one b] (fun c _ _ th =>
    let r := f c.rm (th.reg a.toNat) (th.reg b.toNat) (th.reg d.toNat)
    .ok (th.result (t == 1) d.toNat r.1) r.2))

/-- A floating instruction on registers d and a. -/
def flop2 (d a : BitVec 6) (t : BitVec 1) (g : BitVec 3) (f : Rm → Word → Word × FFlags) (s : State) : Out :=
  .next (laneOp s HintUse.rounding g [one d, one a] (fun c _ _ th =>
    let r := f c.rm (th.reg a.toNat)
    .ok (th.result (t == 1) d.toNat r.1) r.2))

/-- Two FP32 operands. -/
def bin32 (f : Rm → Nat → Nat → Nat × FFlags) (rm : Rm) (a b _d : Word) : Word × FFlags := wordOf (f rm a.toNat b.toNat)
/-- Two FP32 factors and the addend in d. -/
def fused32 (np nd : Bool) (rm : Rm) (a b d : Word) : Word × FFlags :=
  wordOf (fFused fp32 rm np nd a.toNat b.toNat d.toNat)
/-- One FP32 operand. -/
def un32 (f : Rm → Nat → Nat × FFlags) (rm : Rm) (a : Word) : Word × FFlags := wordOf (f rm a.toNat)

/-! ## FOP (R134, R135) -/

def execFadd (d a b : BitVec 6) (t : BitVec 1) (g : BitVec 3) (s : State) : Out := flop3 d a b t g (bin32 (fAdd fp32)) s
def execFsub (d a b : BitVec 6) (t : BitVec 1) (g : BitVec 3) (s : State) : Out := flop3 d a b t g (bin32 (fSub fp32)) s
def execFmul (d a b : BitVec 6) (t : BitVec 1) (g : BitVec 3) (s : State) : Out := flop3 d a b t g (bin32 (fMul fp32)) s
def execFma (d a b : BitVec 6) (t : BitVec 1) (g : BitVec 3) (s : State) : Out := flop3 d a b t g (fused32 false false) s
def execFms (d a b : BitVec 6) (t : BitVec 1) (g : BitVec 3) (s : State) : Out := flop3 d a b t g (fused32 false true) s
def execFnma (d a b : BitVec 6) (t : BitVec 1) (g : BitVec 3) (s : State) : Out := flop3 d a b t g (fused32 true false) s
def execFmin (d a b : BitVec 6) (t : BitVec 1) (g : BitVec 3) (s : State) : Out :=
  flop3 d a b t g (bin32 (fun _ => fMinMax fp32 false)) s
def execFmax (d a b : BitVec 6) (t : BitVec 1) (g : BitVec 3) (s : State) : Out :=
  flop3 d a b t g (bin32 (fun _ => fMinMax fp32 true)) s
def execFminn (d a b : BitVec 6) (t : BitVec 1) (g : BitVec 3) (s : State) : Out :=
  flop3 d a b t g (bin32 (fun _ => fMinMaxNum fp32 false)) s
def execFmaxn (d a b : BitVec 6) (t : BitVec 1) (g : BitVec 3) (s : State) : Out :=
  flop3 d a b t g (bin32 (fun _ => fMinMaxNum fp32 true)) s
def execFabs (d a : BitVec 6) (t : BitVec 1) (g : BitVec 3) (s : State) : Out :=
  flop2 d a t g (un32 (fun _ => fAbsF fp32)) s
def execFneg (d a : BitVec 6) (t : BitVec 1) (g : BitVec 3) (s : State) : Out :=
  flop2 d a t g (un32 (fun _ => fNegF fp32)) s
def execFcopysign (d a b : BitVec 6) (t : BitVec 1) (g : BitVec 3) (s : State) : Out :=
  flop3 d a b t g (bin32 (fun _ => fCopySign fp32)) s
def execFsat (d a : BitVec 6) (t : BitVec 1) (g : BitVec 3) (s : State) : Out :=
  flop2 d a t g (un32 (fun _ => fSat fp32)) s
def execFrint (d a : BitVec 6) (t : BitVec 1) (g : BitVec 3) (s : State) : Out :=
  flop2 d a t g (un32 (fun rm => fRint fp32 rm true)) s
def execFtrunc (d a : BitVec 6) (t : BitVec 1) (g : BitVec 3) (s : State) : Out :=
  flop2 d a t g (un32 (fun _ => fRint fp32 .rz false)) s

/-! ## HOP (R137, R138) -/

/-- The type of a packed half instruction: bit fn[3]. -/
def halfFmt (y : BitVec 1) : Fmt := if y = 1 then bf16 else fp16

/-- Half `i` of a register. -/
def halfOf (w : Word) (i : Nat) : Nat := bits w.toNat (16 * i) 16

/-- Both halves decided alone, the flags ORed. -/
def halves (f : Nat → Nat → Nat → Nat × FFlags) (a b d : Word) : Word × FFlags :=
  let l := f (halfOf a 0) (halfOf b 0) (halfOf d 0)
  let h := f (halfOf a 1) (halfOf b 1) (halfOf d 1)
  (BitVec.ofNat 32 (h.1 * 65536 + l.1), l.2 ||| h.2)

def execHadd (d a b : BitVec 6) (y : BitVec 1) (g : BitVec 3) (s : State) : Out :=
  flop3 d a b 0 g (fun rm => halves (fun x z _ => fAdd (halfFmt y) rm x z)) s
def execHsub (d a b : BitVec 6) (y : BitVec 1) (g : BitVec 3) (s : State) : Out :=
  flop3 d a b 0 g (fun rm => halves (fun x z _ => fSub (halfFmt y) rm x z)) s
def execHmul (d a b : BitVec 6) (y : BitVec 1) (g : BitVec 3) (s : State) : Out :=
  flop3 d a b 0 g (fun rm => halves (fun x z _ => fMul (halfFmt y) rm x z)) s
def execHfma (d a b : BitVec 6) (y : BitVec 1) (g : BitVec 3) (s : State) : Out :=
  flop3 d a b 0 g (fun rm => halves (fun x z w => fFused (halfFmt y) rm false false x z w)) s
def execHmin (d a b : BitVec 6) (y : BitVec 1) (g : BitVec 3) (s : State) : Out :=
  flop3 d a b 0 g (fun _ => halves (fun x z _ => fMinMax (halfFmt y) false x z)) s
def execHmax (d a b : BitVec 6) (y : BitVec 1) (g : BitVec 3) (s : State) : Out :=
  flop3 d a b 0 g (fun _ => halves (fun x z _ => fMinMax (halfFmt y) true x z)) s
def execHabs (d a : BitVec 6) (y : BitVec 1) (g : BitVec 3) (s : State) : Out :=
  flop2 d a 0 g (fun _ x => halves (fun x _ _ => fAbsF (halfFmt y) x) x 0 0) s
def execHneg (d a : BitVec 6) (y : BitVec 1) (g : BitVec 3) (s : State) : Out :=
  flop2 d a 0 g (fun _ x => halves (fun x _ _ => fNegF (halfFmt y) x) x 0 0) s

/-! ## FSPEC (R141) -/

def execRcp (d a : BitVec 6) (t : BitVec 1) (g : BitVec 3) (s : State) : Out := flop2 d a t g (un32 fRcp) s
def execRsqrt (d a : BitVec 6) (t : BitVec 1) (g : BitVec 3) (s : State) : Out := flop2 d a t g (un32 fRsqrt) s
def execSqrt (d a : BitVec 6) (t : BitVec 1) (g : BitVec 3) (s : State) : Out := flop2 d a t g (un32 fSqrt) s
def execExp2 (d a : BitVec 6) (t : BitVec 1) (g : BitVec 3) (s : State) : Out := flop2 d a t g (un32 fExp2) s
def execLog2 (d a : BitVec 6) (t : BitVec 1) (g : BitVec 3) (s : State) : Out := flop2 d a t g (un32 fLog2) s
def execSinpi (d a : BitVec 6) (t : BitVec 1) (g : BitVec 3) (s : State) : Out := flop2 d a t g (un32 fSinPi) s
def execCospi (d a : BitVec 6) (t : BitVec 1) (g : BitVec 3) (s : State) : Out := flop2 d a t g (un32 fCosPi) s
def execTanh (d a : BitVec 6) (t : BitVec 1) (g : BitVec 3) (s : State) : Out :=
  flop2 d a t g (un32 fTanh) s
def execFdiv (d a b : BitVec 6) (t : BitVec 1) (g : BitVec 3) (s : State) : Out := flop3 d a b t g (bin32 fDiv) s

/-! ## FCVT (R143, R144) -/

/-- Replace part `k` of width `w` of a register (R144: the rest stays as a read returns it). -/
def setPart (x : Word) (w k v : Nat) : Word :=
  let lo := w * k
  BitVec.ofNat 32 (x.toNat / 2 ^ (lo + w) * 2 ^ (lo + w) + v % 2 ^ w * 2 ^ lo + x.toNat % 2 ^ lo)

/-- A conversion: given the mode, `.sat`, v[a] and v[d]. -/
def convert (d a : BitVec 6) (g : BitVec 3) (f : Rm → Bool → Word → Word → Word × FFlags) (s : State) : Out :=
  .next (laneOp s HintUse.convert g [one d, one a] (fun c _ _ th =>
    let r := f c.rm c.sat (th.reg a.toNat) (th.reg d.toNat)
    .ok (th.setReg d.toNat r.1) r.2))

/-- A widening member: part `k` of v[a], exactly (R76). -/
def widen (src : Fmt) (k : Nat) (_rm : Rm) (_sat : Bool) (a _d : Word) : Word × FFlags :=
  let w := src.fb + src.eb + 1
  wordOf (fConvert src fp32 .rne false (bits a.toNat (w * k) w))

/-- A narrowing member into part `k` of v[d]. -/
def narrow (dst : Fmt) (k : Nat) (rm : Rm) (sat : Bool) (a d : Word) : Word × FFlags :=
  let r := fConvert fp32 dst rm sat a.toNat
  (setPart d (dst.fb + dst.eb + 1) k r.1, r.2)

/-- A narrowing member to an integer of `w` bits in part `k` of v[d]. -/
def narrowInt (w k : Nat) (rm : Rm) (_sat : Bool) (a d : Word) : Word × FFlags :=
  let r := fToInt fp32 rm (-(2 ^ (w - 1))) (2 ^ (w - 1) - 1) a.toNat
  (setPart d w k (word r.1).toNat, r.2)

def execCvtF32S32 (d a : BitVec 6) (g : BitVec 3) (s : State) : Out :=
  convert d a g (fun rm _ x _ => wordOf (fOfInt fp32 rm x.toInt)) s
def execCvtF32N32 (d a : BitVec 6) (g : BitVec 3) (s : State) : Out :=
  convert d a g (fun rm _ x _ => wordOf (fOfInt fp32 rm x.toNat)) s
def execCvtS32F32 (d a : BitVec 6) (g : BitVec 3) (s : State) : Out :=
  convert d a g (fun rm _ x _ => let r := fToInt fp32 rm (-(2 ^ 31)) (2 ^ 31 - 1) x.toNat; (word r.1, r.2)) s
def execCvtN32F32 (d a : BitVec 6) (g : BitVec 3) (s : State) : Out :=
  convert d a g (fun rm _ x _ => let r := fToInt fp32 rm 0 (2 ^ 32 - 1) x.toNat; (word r.1, r.2)) s
def execCvtF32F16 (d a : BitVec 6) (k : BitVec 1) (g : BitVec 3) (s : State) : Out := convert d a g (widen fp16 k.toNat) s
def execCvtF32Bf16 (d a : BitVec 6) (k : BitVec 1) (g : BitVec 3) (s : State) : Out := convert d a g (widen bf16 k.toNat) s
def execCvtF16F32 (d a : BitVec 6) (k : BitVec 1) (g : BitVec 3) (s : State) : Out := convert d a g (narrow fp16 k.toNat) s
def execCvtBf16F32 (d a : BitVec 6) (k : BitVec 1) (g : BitVec 3) (s : State) : Out := convert d a g (narrow bf16 k.toNat) s
def execCvtF32E4m3 (d a : BitVec 6) (k : BitVec 2) (g : BitVec 3) (s : State) : Out := convert d a g (widen e4m3 k.toNat) s
def execCvtF32E5m2 (d a : BitVec 6) (k : BitVec 2) (g : BitVec 3) (s : State) : Out := convert d a g (widen e5m2 k.toNat) s
def execCvtE4m3F32 (d a : BitVec 6) (k : BitVec 2) (g : BitVec 3) (s : State) : Out := convert d a g (narrow e4m3 k.toNat) s
def execCvtE5m2F32 (d a : BitVec 6) (k : BitVec 2) (g : BitVec 3) (s : State) : Out := convert d a g (narrow e5m2 k.toNat) s
def execCvtF32E2m1 (d a : BitVec 6) (k : BitVec 3) (g : BitVec 3) (s : State) : Out := convert d a g (widen e2m1 k.toNat) s
def execCvtE2m1F32 (d a : BitVec 6) (k : BitVec 3) (g : BitVec 3) (s : State) : Out := convert d a g (narrow e2m1 k.toNat) s
def execCvtS8F32 (d a : BitVec 6) (k : BitVec 2) (g : BitVec 3) (s : State) : Out := convert d a g (narrowInt 8 k.toNat) s
def execCvtS4F32 (d a : BitVec 6) (k : BitVec 3) (g : BitVec 3) (s : State) : Out := convert d a g (narrowInt 4 k.toNat) s

/-! ## FCMP (R147, R148) -/

/-- A floating comparison into a predicate: the relation, and whether the member is signalling. -/
def fcompare (p : BitVec 3) (a b : BitVec 6) (g : BitVec 3) (signalling : Bool) (f : Option Ordering → Bool) (s : State) :
    Out :=
  .next (laneOp s HintUse.rounding g [one a, one b] (fun _ _ _ th =>
    let x := (th.reg a.toNat).toNat
    let y := (th.reg b.toNat).toNat
    .ok (th.setPred p.toNat (f (fRel fp32 x y))) (cmpFlags fp32 signalling x y)))

def execFeq (p : BitVec 3) (a b : BitVec 6) (g : BitVec 3) (s : State) : Out :=
  fcompare p a b g false (fun r => r == some .eq) s
def execFne (p : BitVec 3) (a b : BitVec 6) (g : BitVec 3) (s : State) : Out :=
  fcompare p a b g false (fun r => r != some .eq) s
def execFlt (p : BitVec 3) (a b : BitVec 6) (g : BitVec 3) (s : State) : Out :=
  fcompare p a b g true (fun r => r == some .lt) s
def execFle (p : BitVec 3) (a b : BitVec 6) (g : BitVec 3) (s : State) : Out :=
  fcompare p a b g true (fun r => r == some .lt || r == some .eq) s
def execFgt (p : BitVec 3) (a b : BitVec 6) (g : BitVec 3) (s : State) : Out :=
  fcompare p a b g true (fun r => r == some .gt) s
def execFge (p : BitVec 3) (a b : BitVec 6) (g : BitVec 3) (s : State) : Out :=
  fcompare p a b g true (fun r => r == some .gt || r == some .eq) s
def execFunord (p : BitVec 3) (a b : BitVec 6) (g : BitVec 3) (s : State) : Out :=
  fcompare p a b g false (fun r => r.isNone) s
def execFord (p : BitVec 3) (a b : BitVec 6) (g : BitVec 3) (s : State) : Out :=
  fcompare p a b g false (fun r => r.isSome) s
def execFclass (d a : BitVec 6) (g : BitVec 3) (s : State) : Out :=
  flop2 d a 0 g (fun _ x => (BitVec.ofNat 32 (fClass fp32 x.toNat), 0)) s

/-! ## NDOT (R151, R152) -/

/-- Element `i` of width `w` (R61). -/
def elemOf (x : Word) (w i : Nat) : Nat := bits x.toNat (w * i) w

/-- The integer of an element. -/
def intElem (signed : Bool) (w x : Nat) : Int := if signed then sign x w else (x : Int)

/-- An integer dot member: modulo 2^32, no flag. -/
def dotInt (signed : Bool) (w n : Nat) (a b d : Word) : Word × FFlags :=
  (word ((List.range n).foldl
    (fun acc i => acc + intElem signed w (elemOf a w i) * intElem signed w (elemOf b w i)) (d.toNat : Int)), 0)

/-- A floating dot member: the exact sum of d and the products, rounded once (R79). -/
def dotFloat (f : Fmt) (n : Nat) (rm : Rm) (a b d : Word) : Word × FFlags :=
  let w := f.fb + f.eb + 1
  let x := (List.range n).foldl (fun acc i => acc.addMul (f.val (elemOf a w i)) (f.val (elemOf b w i)))
    (XSum.zero.add (fp32.val d.toNat))
  wordOf (x.round fp32 rm)

def execDotS8x4 (d a b : BitVec 6) (g : BitVec 3) (s : State) : Out := flop3 d a b 0 g (fun _ => dotInt true 8 4) s
def execDotN8x4 (d a b : BitVec 6) (g : BitVec 3) (s : State) : Out := flop3 d a b 0 g (fun _ => dotInt false 8 4) s
def execDotS4x8 (d a b : BitVec 6) (g : BitVec 3) (s : State) : Out := flop3 d a b 0 g (fun _ => dotInt true 4 8) s
def execDotN4x8 (d a b : BitVec 6) (g : BitVec 3) (s : State) : Out := flop3 d a b 0 g (fun _ => dotInt false 4 8) s
def execDotE4m3x4 (d a b : BitVec 6) (g : BitVec 3) (s : State) : Out := flop3 d a b 0 g (dotFloat e4m3 4) s
def execDotE5m2x4 (d a b : BitVec 6) (g : BitVec 3) (s : State) : Out := flop3 d a b 0 g (dotFloat e5m2 4) s
def execDotE2m1x8 (d a b : BitVec 6) (g : BitVec 3) (s : State) : Out := flop3 d a b 0 g (dotFloat e2m1 8) s

/-- R152: an FP32 value times 2^n with one rounding; `bad` is a scale of 0xFF. -/
def scaleBy (rm : Rm) (x : Word) (n : Int) (bad : Bool) : Word × FFlags :=
  match fp32.val x.toNat with
  | .nan sg => wordOf (fp32.qnan (flagIf (bad || sg) fNV))
  | .inf _ => if bad then wordOf (fp32.qnan fNV) else (x, 0)
  | .fin ng m e => if bad then wordOf (fp32.qnan fNV) else if m = 0 then (x, 0) else wordOf (roundTo fp32 rm false ng m (e + n))

def execScl (d a b : BitVec 6) (k : BitVec 2) (g : BitVec 3) (s : State) : Out :=
  flop3 d a b 0 g (fun rm x y _ => let e := elemOf y 8 k.toNat; scaleBy rm x ((e : Int) - 127) (e == 255)) s
/-- scladd names a pair in b: a scale byte of each register (R150). -/
def execScladd (d a b : BitVec 6) (k : BitVec 2) (g : BitVec 3) (s : State) : Out :=
  .next (laneOp s HintUse.rounding g [one d, one a, pair b] (fun c _ _ th =>
    let ea := elemOf (th.reg b.toNat) 8 k.toNat
    let eb := elemOf (th.reg (b.toNat + 1)) 8 k.toNat
    let r := scaleBy c.rm (th.reg a.toNat) ((ea : Int) + eb - 254) (ea == 255 || eb == 255)
    .ok (th.setReg d.toNat r.1) r.2))

/-! ## CMPN (R86, R87, R155) -/

/-- The finite value of an FP32 pattern as an exact dyadic; not finite gives none. -/
def finOf (x : Nat) : Option (Int × Int) :=
  match fp32.val x with
  | .fin n m e => some (signedInt n m, e)
  | _ => none

/-- The exact difference `x*2^ex - y*2^ey`. -/
def subExact (x ex y ey : Int) : Int × Int :=
  let e := min ex ey
  (x * 2 ^ (ex - e).toNat - y * 2 ^ (ey - e).toNat, e)

/-- ftwosum: s and the exact error, with the flags of fadd (R86). -/
def twoSum (a b : Nat) : Nat × Nat × FFlags :=
  let s := fAdd fp32 .rne a b
  match finOf a, finOf b, finOf s.1 with
  | some (x, ex), some (y, ey), some (z, ez) =>
    let t := subExact x ex (-y) ey
    let u := subExact t.1 t.2 z ez
    (s.1, (roundInt fp32 .rne false u.1 u.2).1, s.2)
  | _, _, _ => (s.1, 0, s.2)

/-- ftwoprod: p and the error, rounded where it is not exact (R86). -/
def twoProd (a b : Nat) : Nat × Nat × FFlags :=
  let p := fMul fp32 .rne a b
  match finOf a, finOf b, finOf p.1 with
  | some (x, ex), some (y, ey), some (z, ez) =>
    let u := subExact (x * y) (ex + ey) z ez
    let r := roundInt fp32 .rne false u.1 u.2
    (p.1, r.1, p.2 ||| r.2)
  | _, _, _ => (p.1, 0, p.2)

/-- fadd.pair: hi, lo and the flags (R87, R155). Where a step overflows, hi is RoundRNE(hi + lo + a), lo is +0, and the flags
are those of the three steps, OF and NX among them. R155 calls that rounding an infinity; where the exact sum rounds to a finite
value the two words conflict, and the model takes the finite rounding (DESIGN CHOICE, log entry 64). -/
def addPair (hi lo a : Nat) : Nat × Nat × FFlags :=
  match finOf hi, finOf lo, finOf a with
  | some _, some _, some _ =>
    let s := twoSum hi a
    let t := fAdd fp32 .rne lo s.2.1
    let r := twoSum s.1 t.1
    let fl := s.2.2 ||| t.2 ||| r.2.2
    if (finOf s.1).isSome && (finOf t.1).isSome && (finOf r.1).isSome then (r.1, r.2.1, fl)
    else
      let x := ((XSum.zero.add (fp32.val hi)).add (fp32.val lo)).add (fp32.val a)
      ((x.round fp32 .rne).1, 0, fl)
  | _, _, _ =>
    let x := ((XSum.zero.add (fp32.val hi)).add (fp32.val lo)).add (fp32.val a)
    let v := x.round fp32 .rne
    (v.1, 0, v.2)

/-- Write two registers of the pair d. -/
def Thread.setTwo (t : Thread) (d : Nat) (r : Nat × Nat × FFlags) : Thread :=
  (t.setReg d (BitVec.ofNat 32 r.1)).setReg (d + 1) (BitVec.ofNat 32 r.2.1)

def execFtwosum (d a b : BitVec 6) (g : BitVec 3) (s : State) : Out :=
  .next (laneOp s HintUse.compensated g [pair d, one a, one b] (fun _ _ _ th =>
    let r := twoSum (th.reg a.toNat).toNat (th.reg b.toNat).toNat
    .ok (th.setTwo d.toNat r) r.2.2))
def execFtwoprod (d a b : BitVec 6) (g : BitVec 3) (s : State) : Out :=
  .next (laneOp s HintUse.compensated g [pair d, one a, one b] (fun _ _ _ th =>
    let r := twoProd (th.reg a.toNat).toNat (th.reg b.toNat).toNat
    .ok (th.setTwo d.toNat r) r.2.2))
def execFaddPair (d a : BitVec 6) (g : BitVec 3) (s : State) : Out :=
  .next (laneOp s HintUse.compensated g [pair d, one a] (fun _ _ _ th =>
    let r := addPair (th.reg d.toNat).toNat (th.reg (d.toNat + 1)).toNat (th.reg a.toNat).toNat
    .ok (th.setTwo d.toNat r) r.2.2))

end Sys2Proof.Machine
end

