-- ==== Sys2Proof/Machine/Flow.lean ====
section
/-!
DEFINITION. Control flow, cross-lane and system instructions (08_flow_instr.md): BR, CALL, the rejoin masks of FLOW,
XLANE, SREG, SYS. exit and tail stand in Machine/Ending.lean, the hints in Machine/Fetch.lean.
-/

namespace Sys2Proof.Machine

/-! ## Targets (R53) -/

/-- R53: a target must be a multiple of 4 and sign-extended from bit 56. -/
def goodTarget (t : DWord) : Bool := t.toNat % 4 == 0 && isCanon t

/-- Own address plus 4·Sign(off, w) (R53). -/
def wordsAway {n : Nat} (pc : DWord) (off : BitVec n) : DWord := pc + dword (4 * off.toInt)

/-- A transfer of one thread: the check of R53, then the target. -/
def transfer (t : Thread) (target : DWord) : LaneOut :=
  if goodTarget target then .jump t target else .trap (trap .misalignedFetch 0)

/-! ## BR and CALL (R159, R161) -/

def execBr (o : BitVec 23) (g : BitVec 3) (s : State) : Out :=
  .next (laneOp s HintUse.none g [] (fun c _ _ th => transfer th (wordsAway c.pc o)))

/-- The link pair takes the next word's address; the target is read before (R161). -/
def execCall (l : BitVec 6) (o : BitVec 15) (g : BitVec 3) (s : State) : Out :=
  .next (laneOp s HintUse.none g [pair l]
    (fun c _ _ th => transfer (th.setPair l.toNat (c.pc + 4)) (wordsAway c.pc o)))
def execCallr (l t : BitVec 6) (g : BitVec 3) (s : State) : Out :=
  .next (laneOp s HintUse.none g [pair l, pair t]
    (fun c _ _ th => transfer (th.setPair l.toNat (c.pc + 4)) (th.pair t.toNat)))
def execRet (t : BitVec 6) (g : BitVec 3) (s : State) : Out :=
  .next (laneOp s HintUse.none g [pair t] (fun _ _ _ th => transfer th (th.pair t.toNat)))
def execJmpr (t : BitVec 6) (g : BitVec 3) (s : State) : Out :=
  .next (laneOp s HintUse.none g [pair t] (fun _ _ _ th => transfer th (th.pair t.toNat)))

/-! ## Rejoin masks (R100) -/

/-- E(j) and A(j). -/
def Flight.expected (f : Flight) (j : Nat) : Byte := tgetD 0 f.expect j
def Flight.arrivedAt (f : Flight) (j : Nat) : Byte := tgetD 0 f.arrived j

/-- Set E(j). -/
def Flight.setExpected (f : Flight) (j : Nat) (m : Byte) : Flight := { f with expect := tputD 0 f.expect j m }
/-- Set A(j). -/
def Flight.setArrived (f : Flight) (j : Nat) (m : Byte) : Flight := { f with arrived := tputD 0 f.arrived j m }

/-- A parked thread runs again, at the word after its wait, where its pc already stands. -/
def Thread.unpark (t : Thread) : Thread := if t.cond = .parked then { t with cond := .running } else t

/-- Release(j) of R100. -/
def releaseMask (s : State) (fk j : Nat) : State :=
  match tget s.flights fk with
  | none => s
  | some f =>
    let a := f.arrivedAt j
    if a ≠ 0 ∧ f.expected j &&& ~~~a = 0 then
      let s1 := (lanesOf a).foldl (fun s l => s.modThread fk l Thread.unpark) s
      s1.modFlight fk (fun f => (f.setExpected j 0).setArrived j 0)
    else s

/-- Take lanes out of E(j), then the release check (R100). -/
def leaveMask (fk : Nat) (m : Byte) (s : State) (j : Nat) : State :=
  releaseMask (s.modFlight fk (fun f => f.setExpected j (f.expected j &&& ~~~m))) fk j

def execJset (j : BitVec 4) (g : BitVec 3) (s : State) : Out :=
  .next (issue s HintUse.none g (fun c ls s =>
    (releaseMask (s.modFlight c.fk (fun f => f.setExpected j.toNat (laneMask ls))) c.fk j.toNat, allDone ls)))
def execJadd (j : BitVec 4) (g : BitVec 3) (s : State) : Out :=
  .next (issue s HintUse.none g (fun c ls s =>
    (releaseMask (s.modFlight c.fk (fun f => f.setExpected j.toNat (f.expected j.toNat ||| laneMask ls))) c.fk j.toNat,
      allDone ls)))
def execLeave (m : BitVec 16) (g : BitVec 3) (s : State) : Out :=
  .next (issue s HintUse.none g (fun c ls s =>
    (((List.range 16).filter (fun j => m.getLsbD j)).foldl (leaveMask c.fk (laneMask ls)) s, allDone ls)))

/-- A thread parks at a wait: it will continue at the word after it, and loses its live transient values (R104). -/
def Thread.park (t : Thread) (next : DWord) : Thread := { t with cond := .parked, pc := next, trans := [] }

def execWaitRejoin (j : BitVec 4) (g : BitVec 3) (s : State) : Out :=
  .next (issue s HintUse.none g (fun c ls s =>
    let s1 := s.modFlight c.fk (fun f => f.setArrived j.toNat (f.arrivedAt j.toNat ||| laneMask ls))
    let s2 := ls.foldl (fun s l => s.modThread c.fk l (fun t => t.park (nextPc c.pc))) s1
    (releaseMask s2 c.fk j.toNat, ls.map (fun l => (l, .still)))))

def execJget (d : BitVec 6) (j : BitVec 4) (g : BitVec 3) (s : State) : Out :=
  .next (laneOp s HintUse.none g [one d] (fun c _ _ th =>
    .ok (th.setReg d.toNat
      (BitVec.ofNat 32 ((c.fl.expected j.toNat).toNat + 256 * (c.fl.arrivedAt j.toNat).toNat))) 0))

/-- yield (R164): the instruction ends a constrained sequence as a branch does. -/
def yieldBody : Body := fun c ls s =>
  (ls.foldl (fun s l => s.modThread c.fk l (fun t => { t with lrsc := none })) s, allDone ls)

/-- The flight whose group gives up the slot by a yield; the timer resets. -/
def Flight.yields (f : Flight) : Flight := { f with gives := .yield, timer := 0, tally := 0 }

/-- yield (R164): once it has issued, the group gives up the slot; where no other group is ready the next turn of the bay
takes it as the advice to swap (Machine/Bays.lean: State.noteYield). -/
def execYield (g : BitVec 3) (s : State) : Out :=
  .next (match s.ctx? with
    | none => s
    | some c =>
      let out := issue s HintUse.none g yieldBody
      if hintsOk c HintUse.none && !awaitsPred s c.fk [g.toNat] c.lanes && !(guardLanes s c g).isEmpty then
        out.modFlight c.fk Flight.yields
      else out)

/-! ## XLANE (R166–R168) -/

/-- A cross-lane instruction: `f` is given the participating lanes with their threads, the lane and its thread; the
flags are raised once. A lane that traps counts as outside the participating set (R169). -/
def xlaneP (ps : List (BitVec 3)) (us : List RegUse) (g : BitVec 3) (f : List (Nat × Thread) → Nat → Thread → Thread)
    (fl : List (Nat × Thread) → FFlags) (s : State) : Out :=
  .next (issueP s HintUse.none g ps (fun c ls s =>
    if anyAwaits s c.fk (allRegs us) ls then (s, ls.map (fun l => (l, .hold .register)))
    else
      let all := ls.filterMap (fun l => (s.thread? c.fk l).map (fun t => (l, t)))
      let q := all.filter (fun p => (regTrap c.ld.regs p.2 us).isNone)
      let bad := all.filterMap (fun p => (regTrap c.ld.regs p.2 us).map (fun x => (p.1, Res.trap x)))
      let s1 := q.foldl (fun s p => s.putThread c.fk p.1 (f q p.1 p.2)) s
      (s1.orFlags c.fk (fl q), allDone (q.map (·.1)) ++ bad)))

/-- A cross-lane instruction that reads no predicate but its guard. -/
def xlane (us : List RegUse) (g : BitVec 3) (f : List (Nat × Thread) → Nat → Thread → Thread)
    (fl : List (Nat × Thread) → FFlags) (s : State) : Out := xlaneP [] us g f fl s

/-- The thread of a lane in the participating set. -/
def inQ (q : List (Nat × Thread)) (k : Nat) : Option Thread := tget q k

/-- V(k) of R168, or the lane's own value where lane `k` is not in the set. -/
def shuffled (q : List (Nat × Thread)) (a : BitVec 6) (own : Thread) (k : Option Nat) : Word :=
  match k.bind (inQ q) with
  | some t => t.reg a.toNat
  | none => own.reg a.toNat

/-- A shuffle: `src` gives the source lane of a lane and its operand B. -/
def shuffle (d a b : BitVec 6) (g : BitVec 3) (src : Nat → Nat → Option Nat) (s : State) : Out :=
  xlane [one d, one a, one b] g
    (fun q l t => t.setReg d.toNat (shuffled q a t (src l (t.reg b.toNat).toNat))) (fun _ => 0) s

def execShflIdx (d a b : BitVec 6) (g : BitVec 3) (s : State) : Out := shuffle d a b g (fun _ x => some (x % 8)) s
def execShflUp (d a b : BitVec 6) (g : BitVec 3) (s : State) : Out :=
  shuffle d a b g (fun l x => if x ≤ l then some (l - x) else none) s
def execShflDn (d a b : BitVec 6) (g : BitVec 3) (s : State) : Out :=
  shuffle d a b g (fun l x => if l + x ≤ 7 then some (l + x) else none) s
def execShflXor (d a b : BitVec 6) (g : BitVec 3) (s : State) : Out :=
  shuffle d a b g (fun l x => some (l ^^^ (x % 8))) s
def execBcast (d a : BitVec 6) (g : BitVec 3) (s : State) : Out :=
  xlane [one d, one a] g (fun q _ t => t.setReg d.toNat (shuffled q a t (q.head?.map (·.1)))) (fun _ => 0) s

/-- The lanes of the set in which a predicate is 1. -/
def ballot (q : List (Nat × Thread)) (p : BitVec 3) : List Nat := (q.filter (fun x => x.2.pred p.toNat)).map (·.1)

def execVoteAny (d a g : BitVec 3) (s : State) : Out :=
  xlaneP [a] [] g (fun q _ t => t.setPred d.toNat (!(ballot q a).isEmpty)) (fun _ => 0) s
def execVoteAll (d a g : BitVec 3) (s : State) : Out :=
  xlaneP [a] [] g (fun q _ t => t.setPred d.toNat ((ballot q a).length == q.length)) (fun _ => 0) s
def execVoteBallot (d : BitVec 6) (a g : BitVec 3) (s : State) : Out :=
  xlaneP [a] [one d] g (fun q _ t => t.setReg d.toNat ((laneMask (ballot q a)).zeroExtend 32)) (fun _ => 0) s
def execMatchLanes (d a : BitVec 6) (g : BitVec 3) (s : State) : Out :=
  xlane [one d, one a] g (fun q _ t => t.setReg d.toNat
    ((laneMask ((q.filter (fun x => x.2.reg a.toNat == t.reg a.toNat)).map (·.1))).zeroExtend 32)) (fun _ => 0) s

/-- A reduction of the participating values. -/
def reduceQ (d a : BitVec 6) (g : BitVec 3) (f : List (Nat × Word) → Nat → Word) (fl : List (Nat × Word) → FFlags)
    (s : State) : Out :=
  xlane [one d, one a] g
    (fun q l t => t.setReg d.toNat (f (q.map (fun x => (x.1, x.2.reg a.toNat))) l))
    (fun q => fl (q.map (fun x => (x.1, x.2.reg a.toNat)))) s

/-- The sum of words modulo 2^32. -/
def sumWords (ws : List Word) : Word := ws.foldl (fun x y => x + y) 0

/-- −0 in FP32: the identity of the floating tree (R82). -/
def negZero32 : Word := 0x80000000

/-- One node of the floating tree: RNE (R82). -/
def nodeAdd (x y : Word × FFlags) : Word × FFlags :=
  let r := fAdd fp32 .rne x.1.toNat y.1.toNat
  (BitVec.ofNat 32 r.1, x.2 ||| y.2 ||| r.2)

/-- The fixed tree of R82 over eight lane values. -/
def treeAdd (v : Nat → Word) : Word × FFlags :=
  let n := fun i => ((v i, 0) : Word × FFlags)
  nodeAdd (nodeAdd (nodeAdd (n 0) (n 1)) (nodeAdd (n 2) (n 3))) (nodeAdd (nodeAdd (n 4) (n 5)) (nodeAdd (n 6) (n 7)))

/-- The lane values of the tree, −0 for lanes outside the set (R82). -/
def treeOf (q : List (Nat × Word)) : Word × FFlags := treeAdd (fun l => (tget q l).getD negZero32)

def execRedAddS32 (d a : BitVec 6) (g : BitVec 3) (s : State) : Out :=
  reduceQ d a g (fun q _ => sumWords (q.map (·.2))) (fun _ => 0) s
def execRedAddF32 (d a : BitVec 6) (g : BitVec 3) (s : State) : Out :=
  reduceQ d a g (fun q _ => (treeOf q).1) (fun q => (treeOf q).2) s
def execRedMin (d a : BitVec 6) (g : BitVec 3) (s : State) : Out :=
  reduceQ d a g (fun q _ => (q.map (·.2)).foldl fMinS 0x7FFFFFFF) (fun _ => 0) s
def execRedMax (d a : BitVec 6) (g : BitVec 3) (s : State) : Out :=
  reduceQ d a g (fun q _ => (q.map (·.2)).foldl fMaxS 0x80000000) (fun _ => 0) s
def execPrefixAdd (d a : BitVec 6) (g : BitVec 3) (s : State) : Out :=
  reduceQ d a g (fun q l => sumWords ((q.filter (fun x => decide (x.1 ≤ l))).map (·.2))) (fun _ => 0) s

/-! ## SREG (R95, R172, R173) -/

/-- R95: the ids of 64-bit entries. -/
def sregWide (r : Nat) : Bool := r == 0x00E || r == 0x018 || r == 0x02A || r == 0x02B || r == 0x02C

/-- The lanes of a flight that have not exited. -/
def State.aliveLanes (s : State) (fk : Nat) : List Nat :=
  lanes8.filter (fun l => match s.thread? fk l with
    | some t => t.cond != .exited
    | none => false)

/-- R95: the value of a special register at issue. -/
def sregValue (c : Ctx) (s : State) (lane : Nat) (t : Thread) (r : Nat) : DWord :=
  let n := fun (x : Nat) => BitVec.ofNat 64 x
  let w := fun (x : Word) => x.zeroExtend 64
  match r with
  | 0x000 => n ((c.fk % 32) * 8 + lane)
  | 0x001 => n lane
  | 0x002 => n (c.fk % 32)
  | 0x003 => n c.ld.number
  | 0x004 => n c.ld.flights
  | 0x005 => n c.tr.span
  | 0x006 => n c.ld.regs
  | 0x008 => w (word (c.tr.point.getD 0 0))
  | 0x009 => w (word (c.tr.point.getD 1 0))
  | 0x00A => w (word (c.tr.point.getD 2 0))
  | 0x00B => w (word (c.tr.point.getD 3 0))
  | 0x00C => n c.tr.nest
  | 0x00D => w c.tr.sinst
  | 0x00E => c.tr.args
  | 0x010 => n c.ld.core
  | 0x011 => n (c.ld.core / 24)
  | 0x012 => n (c.ld.core / 48)
  | 0x013 => n c.fl.bay
  | 0x018 => n (tgetD 0 s.cycles (c.ld.core / 48))
  | 0x020 => c.fl.fpflags.zeroExtend 64
  | 0x021 => c.fl.fpflags.zeroExtend 64
  | 0x022 => n c.ld.key
  | 0x023 => n (s.fairPeriod c.tr.part)
  | 0x024 => (laneMask c.lanes).zeroExtend 64
  | 0x025 => (laneMask (s.aliveLanes c.fk)).zeroExtend 64
  | 0x028 => if t.hmode then w t.cause else 0
  | 0x029 => if t.hmode then w t.finfo else 0
  | 0x02A => if t.hmode then t.fpc else 0
  | 0x02B => if t.hmode then t.fnpc else 0
  | 0x02C => if t.hmode then t.faddr else 0
  | 0x02D => n (if t.hmode then 1 else 0)
  | _ => 0

/-- sreg. A read of s.fpclear by the lanes that do not trap clears the flags once, after all of them have read (R173).
A reserved id is refused by the decoder and traps in every thread (R95, R465). -/
def execSreg (d : BitVec 6) (i : BitVec 10) (g : BitVec 3) (s : State) : Out :=
  let r := i.toNat
  if sregKnown r then
    .next (issue s HintUse.none g (fun c ls s =>
      let us := [if sregWide r then pair d else one d]
      let b := laneBody us (fun c s l t =>
        let v := sregValue c s l t r
        .ok (if sregWide r then t.setPair d.toNat v else t.setReg d.toNat (lowHalf v)) 0) c ls s
      if r == 0x021 && b.2.any (fun p => p.2 == .done) then
        (b.1.modFlight c.fk (fun f => { f with fpflags := 0 }), b.2)
      else b))
  else
    .next (match s.ctx? with
      | none => s
      | some c => trapAll c s (trap .illegal 0))

/-! ## SYS (R175, R176) -/

def execTrap (k : BitVec 8) (g : BitVec 3) (s : State) : Out :=
  .next (laneOp s HintUse.none g [] (fun _ _ _ _ => .trap (trap .trapInstr k.toNat)))
def execBrk (k : BitVec 8) (g : BitVec 3) (s : State) : Out :=
  .next (laneOp s HintUse.none g [] (fun _ _ _ _ => .trap (trap .breakpoint k.toNat)))

/-- eret (R107, R175): in handler mode only; the check of R53 on the saved pc. -/
def execEret (k : BitVec 1) (g : BitVec 3) (s : State) : Out :=
  .next (issue s HintUse.none g (fun c ls s =>
    ls.foldl (fun acc l =>
      match acc.1.thread? c.fk l with
      | none => acc
      | some t =>
        let target := if k = 1 then t.fnpc else t.fpc
        if !t.hmode then (acc.1, acc.2 ++ [(l, .trap (trap .privileged 0))])
        else if goodTarget target then (acc.1.putThread c.fk l (t.leaveHandler target), acc.2 ++ [(l, .still)])
        else (acc.1, acc.2 ++ [(l, .trap (trap .misalignedFetch 0))])) (s, [])))

/-- halt (R107, R175): ends the tread, with the cause in handler mode and code 0x42 outside it. R109 lists the record's fields
for 0x42 at a halt alone; for a halt in handler mode the record is filled the same way, with detail 0, nested 0, the lanes that
halt with the same code, the halt's own fault pc and address 0 (DESIGN CHOICE, log entry 62). -/
def execHalt (g : BitVec 3) (s : State) : Out :=
  .next (issue s HintUse.none g (fun c ls s =>
    (s, ls.filterMap (fun l => (s.thread? c.fk l).map (fun t =>
      (l, .ends (if t.hmode then t.cause.toNat else 0x42) 0 false))))))

/-- R176: the value of a control register; the pc halves read 0 outside handler mode. -/
def csrValue (c : Ctx) (t : Thread) (r : Nat) : Word :=
  match r with
  | 0x04 => c.fl.tcount
  | 0x08 => if t.hmode then lowHalf t.fpc else 0
  | 0x09 => if t.hmode then highHalf t.fpc else 0
  | 0x0A => if t.hmode then lowHalf t.fnpc else 0
  | 0x0B => if t.hmode then highHalf t.fnpc else 0
  | _ => tgetD 0 t.hscratch r

/-- R176: write a control register. -/
def csrWrite (t : Thread) (r : Nat) (w : Word) : Thread :=
  match r with
  | 0x08 => { t with fpc := pairOf w (highHalf t.fpc) }
  | 0x09 => { t with fpc := pairOf (lowHalf t.fpc) w }
  | 0x0A => { t with fnpc := pairOf w (highHalf t.fnpc) }
  | 0x0B => { t with fnpc := pairOf (lowHalf t.fnpc) w }
  | _ => { t with hscratch := tputD 0 t.hscratch r w }

def execCsrr (d : BitVec 6) (r : BitVec 8) (g : BitVec 3) (s : State) : Out :=
  if csrKnown r.toNat then
    .next (laneOp s HintUse.none g [one d] (fun c _ _ th => .ok (th.setReg d.toNat (csrValue c th r.toNat)) 0))
  else
    .next (match s.ctx? with
      | none => s
      | some c => trapAll c s (trap .illegal 0))

/-- csrw: a reserved or read-only number is an illegal word (R176); outside handler mode it is privileged, which comes
before the register checks (R105). -/
def execCsrw (a : BitVec 6) (r : BitVec 8) (g : BitVec 3) (s : State) : Out :=
  if csrKnown r.toNat && r.toNat != 4 then
    .next (issue s HintUse.none g (fun c ls s =>
      let us := [one a]
      let inH := ls.filter (fun l => match s.thread? c.fk l with
        | some t => t.hmode
        | none => false)
      let out := (ls.filter (fun l => !inH.contains l)).map (fun l => (l, Res.trap (trap .privileged 0)))
      let b := laneBody us (fun _ _ _ th => .ok (csrWrite th r.toNat (th.reg a.toNat)) 0) c inH s
      if b.2.any (fun p => p.2 == .hold .register) then (s, ls.map (fun l => (l, .hold .register)))
      else (b.1, b.2 ++ out)))
  else
    .next (match s.ctx? with
      | none => s
      | some c => trapAll c s (trap .illegal 0))

end Sys2Proof.Machine
end

