-- ==== Sys2Proof/Config.lean ====
section
/-!
DEFINITION. What the spec leaves open or fixes outside the machine: free values, about which nothing can be proved, keys, and what verifies under the keys of others. None has a body.
-/

namespace Sys2Proof.Config

/-- R404, R409: the AES-256 key that a name of the key table stands for (log entry 7). -/
opaque keyBits : Nat → BitVec 256

/-- R432: the signature of an attestation report over its bytes (log entry 7). -/
opaque signature : List (BitVec 8) → List (BitVec 8)

/-- R420: the device key that Newel holds, as bytes (log entry 7). -/
opaque deviceKey : List Nat

/-- R420: the results of the n-th full training of the interfaces: delays and reference voltages (log entry 70). -/
opaque trainingResult : Nat → List (BitVec 8)

/-- R431: the signature of a firmware image verifies under the Urwell key (log entry 7). -/
opaque imageOk : List (BitVec 8) → Bool

/-- R433: the signature of a lifecycle transition verifies: the lifecycle left, the one entered (log entry 7). -/
opaque transitionOk : List Nat → List (BitVec 8) → Bool

/-- R433: a debug token verifies: serial, expiry cycle count, key it is checked against, with the partition's nonce; an
Urwell-signed one has no partition (log entry 7). -/
opaque tokenOk : List Nat → List (BitVec 8) → List (BitVec 8) → Bool

/-- R430: the counter that a TELEMETRY selector names (log entry 6). -/
opaque counterOf : Nat → Nat

/-- R244: the A scale of a row that a latch holds without one, taken by a block-scaled operation: a free value, by the count of free
values and the row (log entry 84). -/
opaque latchScale : Nat → Nat → BitVec 32

/-- R244: a register of a row that a latch holds with fewer registers than the operation's K takes: a free value, by the count of free
values, the row and the register's place in it (log entry 84). -/
opaque latchWord : Nat → Nat → Nat → BitVec 32

/-- R267: at a byte that an acc.st writes both as output and as a scale, the output is written last: a free choice, by the count of
free values and the byte's hall address (log entry 102). -/
opaque outputLast : Nat → Nat → Bool

/-- R384: what a read that had been accepted finds in a tile that has been poisoned since: a free value, by the count of free values
(log entry 95). -/
opaque lostValue : Nat → Nat

/-- R17: the wall-clock time, in cycles at 2.25 GHz, by which cycles under a cap last longer than at 2.25 GHz: by the count of free
values and the cycles (log entry 21). -/
opaque slowTime : Nat → Nat → Nat

/-- R432: the byte of an attestation report that holds the debug state (log entry 6). -/
opaque debugByte : List Nat → BitVec 8

end Sys2Proof.Config
end

