-- ==== Sys2Proof/Machine/Gcm.lean ====
section
/-!
DEFINITION. AES-256-GCM, as NIST SP 800-38D defines it, for the tiles of the stacks (21_memory.md R409) and the wire
records of the fabric (23_fabric.md R441). Bytes are numbers
below 256.
-/

namespace Sys2Proof.Machine

/-! ## AES-256 -/

/-- The substitution box, 32 bytes a row, the lowest index in the lowest byte. -/
def aesBoxRows : List Nat :=
  [0xc072a49cafa2d4adf04759fa7dc982ca76abd7fe2b670130c56f6bf27b777c63,
   0x75b227ebe28012079a059618c323c7041531d871f1e5a534ccf73f362693fdb7,
   0xcf584c4a39becb6a5bb1fc20ed00d153842fe329b3d63b52a05a6e1b1a2c8309,
   0xd2f3ff1021dab6bcf5389d928f40a351a89f3c507f02f94585334d43fbaaefd0,
   0xdb0b5ede14b8ee4688902a22dc4f816073195d643d7ea7c41744975fec130ccd,
   0x08ae7a65eaf4566ca94ed58d6d37c8e779e4959162acd3c25c2406490a3a32e0,
   0x9e1dc186b95735610ef6034866b53e708a8bbd4b1f74dde8c6b4a61c2e2578ba,
   0x16bb54b00f2d99416842e6bf0d89a18cdf2855cee9871e9b948ed9691198f8e1]

/-- The substitution box as one number. -/
def aesBox : Nat := aesBoxRows.foldr (fun r n => r + 2 ^ 256 * n) 0

def subByte (b : Nat) : Nat := bits aesBox (8 * b) 8

/-- Multiplication by x in the field of AES. -/
def xtime (b : Nat) : Nat := if b < 128 then 2 * b else (2 * b) % 256 ^^^ 0x1B

/-- Byte by byte exclusive or. -/
def xorBytes (a b : List Nat) : List Nat := List.zipWith (fun x y => x ^^^ y) a b

/-- The round constant of round `i`, counted from 1. -/
def roundConst : Nat → Nat
  | 0 => 0x8D
  | 1 => 1
  | n + 2 => xtime (roundConst (n + 1))

/-- The next word of the key schedule; `ws` are the words so far, newest first, `i` the number of the new one. -/
def nextKeyWord (ws : List (List Nat)) (i : Nat) : List Nat :=
  let last := ws.headD []
  let t := if i % 8 = 0 then xorBytes ((last.rotateLeft 1).map subByte) [roundConst (i / 8), 0, 0, 0]
    else if i % 8 = 4 then last.map subByte else last
  xorBytes (ws.getD 7 []) t

/-- The key schedule of a 32-byte key: 60 words, as 15 round keys of 16 bytes. -/
def roundKeys (key : List Nat) : List (List Nat) :=
  let first := (List.range 8).map (fun i => (key.drop (4 * i)).take 4)
  let ws := ((List.range 52).foldl (fun ws i => nextKeyWord ws (i + 8) :: ws) first.reverse).reverse
  (List.range 15).map (fun r => ((ws.drop (4 * r)).take 4).flatMap id)

/-- ShiftRows on a block of columns. -/
def shiftRows (b : List Nat) : List Nat := (List.range 16).map (fun i => b.getD (i % 4 + 4 * ((i / 4 + i % 4) % 4)) 0)

/-- MixColumns on one column. -/
def mixColumn (a : List Nat) : List Nat :=
  (List.range 4).map (fun i =>
    let x := fun (k : Nat) => a.getD ((i + k) % 4) 0
    xtime (x 0) ^^^ (xtime (x 1) ^^^ x 1) ^^^ x 2 ^^^ x 3)

def mixColumns (b : List Nat) : List Nat := (List.range 4).flatMap (fun c => mixColumn ((b.drop (4 * c)).take 4))

/-- The rounds after the first key addition. -/
def aesRounds (b : List Nat) : List (List Nat) → List Nat
  | [] => b
  | [k] => xorBytes (shiftRows (b.map subByte)) k
  | k :: ks => aesRounds (xorBytes (mixColumns (shiftRows (b.map subByte))) k) ks

/-- One block of 16 bytes under a key schedule. -/
def aesBlock (ks : List (List Nat)) (b : List Nat) : List Nat := aesRounds (xorBytes b (ks.headD [])) ks.tail

/-! ## GCM -/

/-- `n` bytes of a number, most significant first. -/
def bytesBE (n x : Nat) : List Nat := (List.range n).map (fun i => x / 256 ^ (n - 1 - i) % 256)

/-- The number of bytes, most significant first. -/
def ofBytesBE (bs : List Nat) : Nat := bs.foldl (fun n b => 256 * n + b) 0

/-- Multiplication in the field of GHASH, by `n` bits of `x` from the most significant. -/
def ghashMulGo (x : Nat) : Nat → Nat → Nat → Nat
  | 0, _, z => z
  | n + 1, v, z =>
    ghashMulGo x n (if v % 2 = 1 then v / 2 ^^^ 0xE1 * 2 ^ 120 else v / 2) (if bit x n then z ^^^ v else z)

def ghashMul (x y : Nat) : Nat := ghashMulGo x 128 y 0

/-- Bytes cut into blocks of 16, the last one padded with zeros. The first argument bounds their number. -/
def gcmBlocks : Nat → List Nat → List (List Nat)
  | 0, _ => []
  | n + 1, bs => if bs.isEmpty then [] else (bs ++ List.replicate (16 - bs.length) 0).take 16 :: gcmBlocks n (bs.drop 16)

def blocksOf (bs : List Nat) : List (List Nat) := gcmBlocks (bs.length / 16 + 1) bs

/-- GHASH of blocks under a hash key. -/
def ghash (h : Nat) (blocks : List (List Nat)) : Nat := blocks.foldl (fun y b => ghashMul (y ^^^ ofBytesBE b) h) 0

/-- The counter block `i` steps after the first. -/
def counterBlock (iv : List Nat) (i : Nat) : List Nat := iv ++ bytesBE 4 (i + 1)

/-- The encryption of a text under a 12-byte IV. -/
def gcmText (ks : List (List Nat)) (iv text : List Nat) : List Nat :=
  ((blocksOf text).zipIdx.flatMap (fun p => xorBytes p.1 (aesBlock ks (counterBlock iv (p.2 + 1))))).take text.length

/-- The tag of a ciphertext with its additional data. -/
def gcmTag (ks : List (List Nat)) (iv aad cipher : List Nat) : Nat :=
  let h := ofBytesBE (aesBlock ks (List.replicate 16 0))
  let lens := bytesBE 8 (8 * aad.length) ++ bytesBE 8 (8 * cipher.length)
  ghash h (blocksOf aad ++ blocksOf cipher ++ [lens]) ^^^ ofBytesBE (aesBlock ks (counterBlock iv 0))

/-! ## The message of a tile (R409) -/

/-- What names a tile's message beside its plaintext: physical tile number, version, epoch, key id, generation, key slot. -/
structure TileName where
  tile  : Nat
  version : Nat
  epoch : Nat
  key   : Nat
  gen   : Nat
  slot  : Nat
  deriving DecidableEq, Repr

/-- The 96-bit IV as 12 bytes. -/
def TileName.iv (x : TileName) : List Nat :=
  bytesBE 12 (x.tile % 2 ^ 36 * 2 ^ 60 + x.version % 2 ^ 32 * 2 ^ 28 + x.epoch % 2 ^ 16 * 2 ^ 12)

/-- The 16 bytes of additional data. -/
def TileName.aad (x : TileName) : List Nat :=
  bytesBE 5 (x.tile % 2 ^ 36) ++ bytesBE 4 x.version ++ bytesBE 2 x.epoch ++ bytesBE 2 x.key ++ bytesBE 2 x.gen ++ [x.slot % 256]

/-- The ciphertext and the tag of a tile's message. -/
def TileName.seal (x : TileName) (key plain : List Nat) : List Nat × Nat :=
  let ks := roundKeys key
  let c := gcmText ks x.iv plain
  (c, gcmTag ks x.iv x.aad c)

end Sys2Proof.Machine
end

