-- ==== Sys2Proof/Machine/Memory.lean ====
section
/-!
DEFINITION. The bytes of the machine and where they live: hall memory (R293–R295), the stacks behind their galleries
(R311–R315, R399–R417), host memory, mirrors and vector clocks (R367–R371), page tables (R405, R406).
-/

namespace Sys2Proof.Machine

/-! ## Byte memories -/

/-- A byte of a memory whose unlisted bytes read 0 (R411: an unwritten tile reads as zero; R294: hall is zeroed). -/
def readCell (m : List Host.Cell) (a : Nat) : Byte := tgetD 0 m a

/-- Write a byte, in canonical form. -/
def writeCell (m : List Host.Cell) (a : Nat) (b : Byte) : List Host.Cell := tputD 0 m a b

/-- Write bytes at rising addresses. -/
def writeCells (m : List Host.Cell) (a : Nat) : List Byte → List Host.Cell
  | [] => m
  | b :: bs => writeCells (writeCell m a b) (a + 1) bs

/-- Read `n` bytes from rising addresses. -/
def readCells (m : List Host.Cell) (a : Nat) : Nat → List Byte
  | 0 => []
  | n + 1 => readCell m a :: readCells m (a + 1) n

/-- The cells of [lo, lo + n), by offset. -/
def cellsIn (m : List Host.Cell) (lo n : Nat) : Tab Byte :=
  (m.filter (fun p => decide (lo ≤ p.1) && decide (p.1 < lo + n))).map (fun p => (p.1 - lo, p.2))

/-- The memory without the cells of [lo, lo + n). -/
def dropCells (m : List Host.Cell) (lo n : Nat) : List Host.Cell :=
  m.filter (fun p => !(decide (lo ≤ p.1) && decide (p.1 < lo + n)))

/-- Put the cells of a table of offsets at `lo`. -/
def placeCells (m : List Host.Cell) (lo : Nat) : Tab Byte → List Host.Cell
  | [] => m
  | (o, b) :: t => placeCells (writeCell m (lo + o) b) lo t

/-- The canonical form of the memories: keys strictly rising, no byte listed that reads 0 anyhow. -/
def Memory.wf (m : Memory) : Bool :=
  canonical 0 m.stack && canonical 0 m.hall && canonical 0 m.host && canonical 0 m.mirror && risingFrom none m.gallery &&
  m.gallery.all (fun p => canonical 0 p.2.data)

/-! ## Physical addresses (R399) -/

/-- The stack of a physical address; stack c is homed in cluster c's gallery. -/
def stackOf (pa : Nat) : Nat := bits pa 37 3
/-- The home die of a physical address. -/
def homeDie (pa : Nat) : Nat := stackOf pa / 2
/-- The physical tile number. -/
def tileOf (pa : Nat) : Nat := bits pa 12 36
/-- Data tiles of a stack (R400). -/
def dataTiles : Nat := 19379844
/-- R401: where a quarter of a tile lies: stack, pseudo-channel, bank, row. -/
structure RowPlace where
  stack   : Nat
  channel : Nat
  bank    : Nat
  row     : Nat
  deriving DecidableEq, Repr

/-- R401: the place of bytes [1024 j, 1024 j + 1023] of a physical tile. -/
def rowPlace (t j : Nat) : RowPlace :=
  let s := bits t 0 25 / 160
  { stack := bits t 25 3, channel := bits t 0 25 % 160, bank := 4 * (s % 4) + j, row := s / 4 }

/-- R401: the rows that data take in every bank of a pseudo-channel, from row 0 up. -/
def dataRows (channel : Nat) : Nat := ((dataTiles + 159 - channel) / 160 + 3) / 4

/-- R401: the metadata of a tile lies in the tile's pseudo-channel, in rows above its data rows. The rule gives no bank and no row. -/
def RowPlace.mayHoldMeta (p : RowPlace) (t : Nat) : Bool :=
  p.stack == (rowPlace t 0).stack && p.channel == (rowPlace t 0).channel && decide (dataRows p.channel ≤ p.row)

/-- The four banks of a tile's rows, as one number. -/
def bankGroup (t : Nat) : Nat := (160 * bits t 25 3 + bits t 0 25 % 160) * 4 + bits t 0 25 / 160 % 4
/-- R399: the address is mapped. -/
def mappedPa (pa : Nat) : Bool := decide (bits pa 40 8 = 0) && decide (bits pa 12 25 < dataTiles)

/-! ## Metadata and galleries -/

def Memory.metaOf (m : Memory) (t : Nat) : TileMeta := tgetD TileMeta.fresh m.tmeta t
def Memory.setMeta (m : Memory) (t : Nat) (x : TileMeta) : Memory := { m with tmeta := tputD TileMeta.fresh m.tmeta t x }
def KeyEntry.fresh : KeyEntry := { state := .free, slots := (0, 0), cur := 0, gen := 0, part := none, clearing := false }
def Memory.keyOf (m : Memory) (k : Nat) : KeyEntry := tgetD KeyEntry.fresh m.keys k
def Memory.setKey (m : Memory) (k : Nat) (e : KeyEntry) : Memory := { m with keys := tputD KeyEntry.fresh m.keys k e }

/-- R411: for an access under key id `k` the tile is unwritten or stale. -/
def Memory.blank (m : Memory) (t k : Nat) : Bool :=
  let x := m.metaOf t
  x.unwritten || x.key != k || x.gen != (m.keyOf k).gen

/-- The entry of a tile resident under key id `k`. -/
def Memory.resident? (m : Memory) (t k : Nat) : Option GalEntry :=
  match tget m.gallery t with
  | some e => if e.key = k then some e else none
  | none => none

/-- R411: the tile is poisoned for an access under key id `k`. -/
def Memory.poisoned (m : Memory) (t k : Nat) : Bool :=
  match m.resident? t k with
  | some e => e.poisoned
  | none => !m.blank t k && (m.metaOf t).poisoned

/-- R411: the tile is exhausted for an access under key id `k`: not dirty, not blank, not poisoned. -/
def Memory.exhausted (m : Memory) (t k : Nat) : Bool :=
  (match m.resident? t k with
    | some e => !e.dirty && !e.poisoned
    | none => !(m.metaOf t).poisoned) && !m.blank t k && (m.metaOf t).exhausted

/-- The byte of a physical address at its home, under key id `k` (R311, R312). -/
def Memory.homeByte (m : Memory) (pa k : Nat) : Byte :=
  match m.resident? (tileOf pa) k with
  | some e => tgetD 0 e.data (pa % 4096)
  | none => if m.blank (tileOf pa) k then 0 else readCell m.stack pa

/-- The contents of a tile for a key id. -/
def Memory.tileData (m : Memory) (t k : Nat) : Tab Byte :=
  match m.resident? t k with
  | some e => e.data
  | none => if m.blank t k then [] else cellsIn m.stack (t * 4096) 4096

/-- R413: the counter of a tile's metadata. -/
def TileMeta.counter (x : TileMeta) : Nat := x.epoch.toNat * 2 ^ 32 + x.version.toNat

/-- R409: the key in a slot of a key table entry, as bytes. -/
def KeyEntry.slotKey (e : KeyEntry) (slot : BitVec 1) : List Nat :=
  bytesBE 32 (Config.keyBits (if slot = 0 then e.slots.1 else e.slots.2)).toNat

/-- R409: what names the message of a tile with its metadata. -/
def TileMeta.name (x : TileMeta) (t : Nat) : TileName :=
  { tile := t, version := x.version.toNat, epoch := x.epoch.toNat, key := x.key, gen := x.gen.toNat, slot := x.slot.toNat }

/-- The 4,096 plaintext bytes of a tile. -/
def plainOf (data : Tab Byte) : List Nat := (List.range 4096).map (fun i => (tgetD 0 data i).toNat)

/-- R409: the ciphertext and the tag of a tile's message under its metadata. -/
def TileMeta.message (x : TileMeta) (e : KeyEntry) (t : Nat) (data : Tab Byte) : List Nat × Nat :=
  (x.name t).seal (e.slotKey x.slot) (plainOf data)

/-- R409, R410: metadata with the tag of the tile's message. -/
def TileMeta.tagged (x : TileMeta) (e : KeyEntry) (t : Nat) (data : Tab Byte) : TileMeta :=
  { x with tag := BitVec.ofNat 128 (x.message e t data).2 }

/-- R409: the ciphertext that a tile's place in its stack holds. `stack` keeps its plaintext. -/
def Memory.cipherOf (m : Memory) (t : Nat) : List Nat :=
  ((m.metaOf t).message (m.keyOf (m.metaOf t).key) t (cellsIn m.stack (t * 4096) 4096)).1

/-- R413, R414: a write of the tile under key id `k` goes to the new slot of a rotating key id, and starts its counter again. -/
def Memory.rekeys (m : Memory) (t k : Nat) : Bool :=
  !m.blank t k && (m.metaOf t).slot != (m.keyOf k).cur && (m.keyOf k).state == .rotating

/-- R413: the largest counter. -/
def lastCounter : Nat := 2 ^ 48 - 1

/-- R413: the counter of the next write of a tile: plus 1, or 0 under the new slot of a rotation. At the largest counter a tile
that is not stale keeps it (DESIGN CHOICE, log entry 69: R413 says that counters never go back under one key). -/
def Memory.nextCounter (m : Memory) (t k : Nat) : Nat :=
  let c := (m.metaOf t).counter
  if m.rekeys t k then 0 else if c = lastCounter then (if m.blank t k then 0 else lastCounter) else c + 1

/-- R413, R409: the metadata of a tile written to its stack under key id `k`. -/
def Memory.sealMeta (m : Memory) (t k : Nat) (data : Tab Byte) : TileMeta :=
  let c := m.nextCounter t k
  let ke := m.keyOf k
  ({ tag := 0, version := BitVec.ofNat 32 c, epoch := BitVec.ofNat 16 (c / 2 ^ 32), gen := ke.gen, key := k, unwritten := false,
     poisoned := false, exhausted := decide (c = lastCounter), slot := ke.cur } : TileMeta).tagged ke t data

/-- R413: the version wraps to 0 with the next write of the tile. -/
def Memory.wraps (m : Memory) (t k : Nat) : Bool :=
  !m.rekeys t k && decide (m.nextCounter t k % 2 ^ 32 = 0) && decide ((m.metaOf t).version ≠ 0)

/-- R402: the rows of a tile are open in their banks. -/
def Memory.rowIsOpen (m : Memory) (t : Nat) : Bool := (tget m.rowHits (bankGroup t)).any (fun x => x.1 == t)

/-- R402: the activations within one refresh window that throttle a row. -/
def throttleAt : Nat := 2048

/-- R402: the throttles with those of the rows of a tile, `4 * tile + j` (R401), for the key id that it is kept under. -/
def Memory.throttleRows (m : Memory) (t : Nat) : List (Nat × Nat) :=
  m.throttled ++ (((List.range 4).map (fun j => (4 * t + j, (m.metaOf t).key))).filter (fun x => !m.throttled.contains x))

/-- R402: a use of the rows of a tile activates them, unless they are open; the activation that is too many throttles them. -/
def Memory.activate (m : Memory) (t : Nat) : Memory :=
  if m.rowIsOpen t then m
  else { m with
    acts := tmodD 0 m.acts t (· + 1)
    rowHits := tput m.rowHits (bankGroup t) (t, 0)
    throttled := if tgetD 0 m.acts t + 1 = throttleAt then m.throttleRows t else m.throttled }

/-- Write a tile to its stack: data, metadata, roll-over counter (R314, R413). -/
def Memory.sealTile (m : Memory) (t k : Nat) (data : Tab Byte) : Memory :=
  let m1 := (m.setMeta t (m.sealMeta t k data)).activate t
  { m1 with
    stack := placeCells (dropCells m.stack (t * 4096) 4096) (t * 4096) data
    damaged := tdel m.damaged t
    rollover := if m.wraps t k then tmodD 0 m.rollover (bits t 25 3) (fun n => (n + 1) % 2 ^ 64) else m.rollover }

/-- R314: write a dirty entry back; it stays resident and clean. -/
def Memory.writeBack (m : Memory) (t : Nat) : Memory :=
  match tget m.gallery t with
  | none => m
  | some e =>
    if e.dirty && !e.poisoned then
      let m1 := m.sealTile t e.key e.data
      { m1 with gallery := tput m1.gallery t { e with dirty := false } }
    else m

/-- R312: evict an entry: written back when dirty, its poisoned state written to the metadata. -/
def Memory.evict (m : Memory) (t : Nat) : Memory :=
  match tget m.gallery t with
  | none => m
  | some e =>
    let m1 := m.writeBack t
    let m2 := if e.poisoned then
        m1.setMeta t { m1.metaOf t with poisoned := true, unwritten := false, key := e.key, gen := (m.keyOf e.key).gen }
      else m1
    { m2 with gallery := tdel m2.gallery t }

/-- R411: an entry resident under another key id is written back if dirty, and dropped. -/
def Memory.dropOther (m : Memory) (t k : Nat) : Memory :=
  match tget m.gallery t with
  | some e => if e.key = k then m else m.evict t
  | none => m

/-- The gallery set of a tile (R311): its cluster and set index. -/
def galSet (t : Nat) : Nat × Nat := (bits t 25 3, t % 512)

/-- The replacement class of a priority code (R313, R185): `.cnoa` first, then `.cstrm`, normal, retained. -/
def prioClass (p : Nat) : Nat :=
  match p with
  | 3 => 0
  | 1 => 1
  | 0 => 2
  | _ => 3

/-- `a` is evicted before `b` (R313): lower class, then least recently used. R313 gives the last for normal entries; that it
holds within the other classes too is the model's (DESIGN CHOICE, log entry 99). -/
def victimBefore (a b : Nat × GalEntry) : Bool :=
  decide (prioClass a.2.prio < prioClass b.2.prio) ||
  (prioClass a.2.prio == prioClass b.2.prio && decide (a.2.used < b.2.used))

/-- The victim among the entries of a set. -/
def victimOf : List (Nat × GalEntry) → Option Nat
  | [] => none
  | x :: xs => some ((xs.foldl (fun b y => if victimBefore y b then y else b) x).1)

/-- The entries of a tile's set. -/
def Memory.setOf (m : Memory) (t : Nat) : Tab GalEntry := m.gallery.filter (fun p => galSet p.1 == galSet t)

/-- The victim of a tile's set (R313). -/
def Memory.victimIn (m : Memory) (t : Nat) : Option Nat := victimOf (m.setOf t)

/-- R313: make room for a tile in its set of 16 ways. -/
def Memory.makeRoom (m : Memory) (t : Nat) : Memory :=
  if (m.setOf t).length < 16 then m
  else match m.victimIn t with
    | some v => m.evict v
    | none => m

/-- R418: what the checks of a fill find: 0 all pass, 1 the tag fails, 2 a data unit is uncorrectable, 3 a metadata unit is. No
data is read of an unwritten, stale or poisoned tile. -/
def Memory.fillFault (m : Memory) (t k : Nat) : Nat :=
  let d := tgetD 0 m.damaged t
  if d ≤ 2 ∧ (m.blank t k ∨ (m.metaOf t).poisoned) then 0 else d

/-- R312, R313: the entry a fill makes of an absent tile. -/
def Memory.fillEntry (m : Memory) (t k prio : Nat) : GalEntry :=
  let d := m.fillFault t k
  let bad := d != 0 || (!m.blank t k && (m.metaOf t).poisoned)
  { key := k, dirty := false, poisoned := bad, uncorr := decide (2 ≤ d), prio := prio, used := m.galUse
    data := if bad || m.blank t k then [] else cellsIn m.stack (t * 4096) 4096 }

/-- Every mirror reads zero for a physical tile. -/
def Memory.wipeMirrors (m : Memory) (t : Nat) : Memory :=
  { m with mirror := m.mirror.filter (fun c => decide (c.1 % 2 ^ 48 / 4096 ≠ t)) }

/-- A failure that a read of a tile's place in its stack has met: it waits to be contained, with the tread at work (R419). -/
def Memory.noteFault (m : Memory) (t d : Nat) : Memory :=
  if d = 0 then m else { m with damaged := tdel m.damaged t, found := m.found ++ [(t, d, m.meeter)] }

/-- R402: a read of a tile from its stack activates its rows. -/
def Memory.readRows (m : Memory) (t k : Nat) : Memory :=
  if m.blank t k || (m.metaOf t).poisoned then m else m.activate t

/-- R313: fill a tile under a key id, unless it is resident under it. -/
def Memory.fill (m : Memory) (t k prio : Nat) : Memory :=
  match m.resident? t k with
  | some _ => m
  | none =>
    let m0 := (m.dropOther t k).makeRoom t
    let m1 := (m0.readRows t k).noteFault t (m0.fillFault t k)
    { m1 with gallery := tput m1.gallery t (m0.fillEntry t k prio), galUse := m1.galUse + 1 }

/-- R185: an access touches a resident tile: the priority of a hit. DESIGN CHOICE (log entry 68): a `.cnorm` hit leaves a
retained tile retained, and a `.cnoa` hit leaves the priority and the order of use as they are; R185 says of neither what a
hit does. -/
def touchPrio (old new : Nat) : Nat :=
  match new with
  | 0 => if old = 2 then 2 else 0
  | 1 => old
  | 2 => 2
  | _ => old

def Memory.touch (m : Memory) (t k prio : Nat) : Memory :=
  match m.resident? t k with
  | none => m
  | some e =>
    let e' : GalEntry :=
      { e with prio := touchPrio e.prio prio, used := if prio = 1 || prio = 3 then e.used else m.galUse }
    { m with gallery := tput m.gallery t e', galUse := m.galUse + 1 }

/-- An access of normal priority reaches a tile: a hit is a use (R313). -/
def Memory.use (m : Memory) (t k : Nat) : Memory := (m.fill t k 0).touch t k 0

/-- A write into the resident entry of a tile is made: the entry is neither poisoned (R312) nor exhausted. An exhausted tile
takes no write: those that R182 and R308 do not report are lost (DESIGN CHOICE, log entry 69). -/
def Memory.takes (m : Memory) (t k : Nat) : Bool :=
  match m.resident? t k with
  | none => false
  | some e => !e.poisoned && !m.exhausted t k

/-- Write bytes into the resident entry of a tile: it becomes dirty (R312). -/
def Memory.writeEntry (m : Memory) (pa k : Nat) (bs : List Byte) : Memory :=
  match m.resident? (tileOf pa) k with
  | none => m
  | some e =>
    if m.takes (tileOf pa) k then
      let e' : GalEntry := { e with dirty := true, data := writeCells e.data (pa % 4096) bs }
      { m with gallery := tput m.gallery (tileOf pa) e' }
    else m

/-- A poisoned tile met by an agent that is no tread and has no trap to raise: it is contained (R419, R423). -/
def Memory.meet (m : Memory) (t : Nat) : Memory :=
  if m.found.any (fun x => x.1 == t) then m else { m with found := m.found ++ [(t, 1, none)] }

/-- R182: the access that meets an uncorrectable error is told so; the tile is a poisoned one from then on. -/
def Memory.knowUncorr (m : Memory) (t : Nat) : Memory := { m with gallery := tmod m.gallery t (fun e => { e with uncorr := false }) }

/-! ## Stamps, mirrors, reservations (R368–R371, R383) -/

/-- The four allDies. -/
def allDies : List Nat := [0, 1, 2, 3]

/-- V_D[e]. -/
def Memory.clock (m : Memory) (d e : Nat) : Nat := tgetD 0 m.clocks (4 * d + e)
/-- V_D. -/
def Memory.clockOf (m : Memory) (d : Nat) : List Nat := allDies.map (m.clock d)
def Memory.setClock (m : Memory) (d e n : Nat) : Memory := { m with clocks := tputD 0 m.clocks (4 * d + e) n }

/-- The componentwise join of two clocks. -/
def joinClock (a b : List Nat) : List Nat := allDies.map (fun i => max (a.getD i 0) (b.getD i 0))
/-- The clock of one stamp: component `h` alone. -/
def clockAt (h n : Nat) : List Nat := allDies.map (fun i => if i = h then n else 0)
/-- Die `d`'s clock covers `c`. -/
def Memory.covers (m : Memory) (d : Nat) (c : List Nat) : Bool := allDies.all (fun e => decide (c.getD e 0 ≤ m.clock d e))

/-- R198, R383: a write to [addr, addr + n) clears every reservation on its granules. -/
def State.clearResv (s : State) (sp : Space) (addr n : Nat) : State :=
  { s with threads := s.threads.map (fun p => (p.1,
      match p.2.resv with
      | some r => if r.space = sp && decide (addr / 64 ≤ r.granule) && decide (r.granule ≤ (addr + n - 1) / 64)
          then { p.2 with resv := none } else p.2
      | none => p.2)) }

/-- The place of a byte of another die's home in a die's mirror, by key id. -/
def mirrorKey (d k pa : Nat) : Nat := (1024 * d + k) * 2 ^ 48 + pa

/-- R402: a throttled row's sub-queue, the one of its key id in its bank, holds the rows of a tile. -/
def Memory.throttles (m : Memory) (t k : Nat) : Bool := m.throttled.any (fun x => bankGroup (x.1 / 4) == bankGroup t && x.2 == k)

/-- The metadata of a tile tell of a write of its data (R413). -/
def TileMeta.rewritten (x y : TileMeta) : Bool := x.counter != y.counter || x.slot != y.slot

/-- The tiles of which `m1` has read or written the data rows since `m`, with the key ids of the requests (R402). -/
def Memory.rowsUsed (m m1 : Memory) : List (Nat × Nat) :=
  (m1.gallery.filter (fun p => (m.resident? p.1 p.2.key).isNone && !m.blank p.1 p.2.key && !(m.metaOf p.1).poisoned)).map
    (fun p => (p.1, p.2.key)) ++
  (m1.tmeta.filter (fun p => p.2.rewritten (m.metaOf p.1))).map (fun p => (p.1, p.2.key))

/-- `m1` has used rows whose requests a throttled sub-queue holds. -/
def Memory.passedThrottle (m m1 : Memory) : Bool :=
  !m.throttled.isEmpty && (m.rowsUsed m1).any (fun x => m.throttles x.1 x.2)

/-- R369: the home of a write stamps it: its own clock moves on, and a causal stamp takes the other components from it. -/
def State.stamp (s : State) (h : Nat) (causal : Bool) : State × List Nat :=
  let m := s.mem.setClock h h (s.mem.clock h h + 1)
  ({ s with mem := m }, if causal then m.clockOf h else clockAt h (m.clock h h))

/-- R370 Apply: bytes that have been written at their home are stamped; their copy waits to be sent. Answers the stamp's home
component. -/
def State.stampWrite (s : State) (pa k : Nat) (bs : List Byte) (causal : Bool) : State × Nat :=
  let h := homeDie pa
  let r := s.stamp h causal
  let n := r.1.mem.clock h h
  let m := { r.1.mem with
    stamps := (List.range bs.length).foldl (fun t i => tputD 0 t (pa + i) n) r.1.mem.stamps
    outbox := r.1.mem.outbox ++ [{ home := h, stamp := r.2, addr := pa, key := k, bytes := bs, wipe := false }] }
  (({ r.1 with mem := m } : State).clearResv .stack pa bs.length, n)

/-- R370 Apply: a write of bytes within one tile goes next in the coherence order of its home and is stamped. `causal` is the
clock a causal write carries. A write that its tile does not take sends no value. -/
def State.applyGlobal (s : State) (pa k prio : Nat) (bs : List Byte) (causal : Bool) : State × Nat :=
  let m0 := (s.mem.fill (tileOf pa) k prio).touch (tileOf pa) k prio
  ({ s with mem := m0.writeEntry pa k bs } : State).stampWrite pa k (if m0.takes (tileOf pa) k then bs else []) causal

/-- R381, R415: an event of a home that writes no byte is stamped like a causal write. -/
def State.stampEvent (s : State) (h : Nat) : State × List Nat :=
  let r := s.stamp h true
  ({ r.1 with mem := { r.1.mem with
      outbox := r.1.mem.outbox ++ [{ home := h, stamp := r.2, addr := 2 ^ 38 * h, key := 0, bytes := [], wipe := false }] } }, r.2)

/-- R384, R415: every byte of a home under a key id reads as zero from here on; the zeros reach the mirrors like a write. -/
def State.stampWipe (s : State) (h k : Nat) : State :=
  let r := s.stamp h true
  { r.1 with mem := { r.1.mem with
      outbox := r.1.mem.outbox ++ [{ home := h, stamp := r.2, addr := 2 ^ 38 * h, key := k, bytes := [], wipe := true }] } }

/-- A write to hall memory, applied at its slice (R295, R375). -/
def State.applyHall (s : State) (a : Nat) (bs : List Byte) : State :=
  ({ s with mem := { s.mem with hall := writeCells s.mem.hall a bs } } : State).clearResv .hall a bs.length

/-- A write to host memory, applied by the host (R376). -/
def State.applyHost (s : State) (a : Nat) (bs : List Byte) : State :=
  ({ s with mem := { s.mem with
      host := writeCells s.mem.host a bs
      hostClocks := (List.range bs.length).foldl (fun t i => tdel t (a + i)) s.mem.hostClocks
      hostSys := (List.range bs.length).foldl (fun t i => tdel t (a + i)) s.mem.hostSys } } : State).clearResv .host a bs.length

/-- A clock at each of `n` places from `a`. -/
def putClocks (t : Tab (List Nat)) (a n : Nat) (c : List Nat) : Tab (List Nat) :=
  (List.range n).foldl (fun t i => tputD [0, 0, 0, 0] t (a + i) c) t
/-- The clocks at `n` places from `a`, joined. -/
def joinClocks (t : Tab (List Nat)) (a n : Nat) : List Nat :=
  (List.range n).foldl (fun c i => joinClock c (tgetD [0, 0, 0, 0] t (a + i))) [0, 0, 0, 0]

/-- A causal write to host memory leaves its clock with its bytes, for the acquire reads that take them (R371, R373, R376): `c` for
those of the package, `h` for those at system scope and for the host, towards which a write at package scope orders nothing (R372). -/
def State.stampHost (s : State) (a n : Nat) (c h : List Nat) : State :=
  { s with mem := { s.mem with hostClocks := putClocks s.mem.hostClocks a n c, hostSys := putClocks s.mem.hostSys a n h } }

/-- The clock that an acquire read of host bytes at package scope must cover. -/
def Memory.hostClock (m : Memory) (a n : Nat) : List Nat := joinClocks m.hostClocks a n
/-- What the host, or an acquire at system scope, must cover besides. -/
def Memory.sysClock (m : Memory) (a n : Nat) : List Nat := joinClocks m.hostSys a n

/-! ## Spilled landings (R345, R349) -/

/-- Where a hall address of a landing's cluster lives. -/
def hallKey (core addr : Nat) : Nat := core / 24 * 2 ^ 26 + addr

/-- R345: the place of a landing's phase record. -/
def Landing.recordPlace (l : Landing) : Nat := hallKey l.core (l.hallBase + l.hallLen)

/-- The state of a landing lies in its phase record: it left its core at a phase boundary and has not resumed. -/
def Tread.spilledOut (t : Tread) (l : Landing) : Bool :=
  l.saveAt.isNone && (t.stage == .spilled || t.stage == .parked)

/-- The counter bytes of a flight block are in the order LD, ST, CP, MX (R347). -/
def Cls.index : Cls → Nat
  | .ld => 0
  | .st => 1
  | .cp => 2
  | .mx => 3

/-- R213: operation `n` of class `k` of a flight completes; the counter of a spilled flight is kept up in its phase
record (R349). -/
def State.completeOp (s : State) (fk : Nat) (k : Cls) (n : Nat) : State :=
  let s1 := s.modFlight fk (fun f => f.modCounter k (·.complete n))
  match tget s1.flights fk, tget s1.landings (landingOf fk) with
  | some f, some ld =>
    if (tget s1.treads ld.tid).any (·.spilledOut ld) then
      s1.applyHall (ld.recordPlace + 0x84 + 64 * (fk % 32) + k.index) [BitVec.ofNat 8 (f.counter k).value]
    else s1
  | _, _ => s1

/-- R368: the byte of a global location in the view of die `d`. -/
def Memory.viewByte (m : Memory) (d pa k : Nat) : Byte :=
  if homeDie pa = d then m.homeByte pa k else readCell m.mirror (mirrorKey d k pa)

/-- Bytes of a location in the view of die `d`. -/
def Memory.view (m : Memory) (d : Nat) (sp : Space) (a k n : Nat) : List Byte :=
  match sp with
  | .hall => readCells m.hall a n
  | .host => readCells m.host a n
  | .stack => (List.range n).map (fun i => m.viewByte d (a + i) k)

/-- Bytes of a location at its home. -/
def Memory.atHome (m : Memory) (sp : Space) (a k n : Nat) : List Byte :=
  match sp with
  | .hall => readCells m.hall a n
  | .host => readCells m.host a n
  | .stack => (List.range n).map (fun i => m.homeByte (a + i) k)

/-- R371: the newest stamp, by home, of the bytes of a stack location. -/
def Memory.stampOf (m : Memory) (a n : Nat) : Nat := (List.range n).foldl (fun b i => max b (tgetD 0 m.stamps (a + i))) 0

/-! ## Page tables (R405, R406) -/

/-- The partition facts a walk needs (R404). -/
structure WalkEnv where
  part    : Nat
  root    : Nat              -- physical address of the root table
  tabKey  : Nat              -- key id of the tables
  keys    : List Nat         -- key ids of the partition
  pages   : List (Nat × Nat) -- physical tile ranges of the partition: first tile, count
  deriving DecidableEq, Repr

/-- Every tile of [lo, hi) lies in some range of a list; the number bounds the ranges that are tried one after the other. -/
def rangesCover (ps : List (Nat × Nat)) : Nat → Nat → Nat → Bool
  | 0, lo, hi => decide (hi ≤ lo)
  | n + 1, lo, hi =>
    decide (hi ≤ lo) ||
    match ps.find? (fun p => decide (p.1 ≤ lo) && decide (lo < p.1 + p.2)) with
    | some p => rangesCover ps n (p.1 + p.2) hi
    | none => false

/-- A page lies in the partition's pages. -/
def WalkEnv.owns (e : WalkEnv) (tile n : Nat) : Bool := rangesCover e.pages e.pages.length tile (tile + n)

/-- An 8-byte entry of a table: a poisoned tile gives no valid entry. -/
def Memory.entry (m : Memory) (e : WalkEnv) (pa : Nat) : Nat :=
  if m.poisoned (tileOf pa) e.tabKey then 0 else ofBytesLE (m.atHome .stack pa e.tabKey 8)

/-- The bytes of a leaf size code, and whether it belongs to level `l` (R405, R406). -/
def leafSize (l code : Nat) : Option Nat :=
  match l, code with
  | 0, 0 => some 4096
  | 0, 1 => some 65536
  | 1, 2 => some (2 ^ 21)
  | 1, 3 => some (2 ^ 25)
  | 1, 4 => some (2 ^ 29)
  | _, _ => none

/-- The index of a virtual address at a level (R405). -/
def vaIndex (va l : Nat) : Nat :=
  match l with
  | 3 => bits va 39 18
  | 2 => bits va 30 9
  | 1 => bits va 21 9
  | _ => bits va 12 9

/-- R406: a leaf entry, checked. -/
def leafMap (e : WalkEnv) (va l x : Nat) : Option PageMap :=
  match leafSize l (bits x 9 3) with
  | none => none
  | some size =>
    let tile := bits x 12 36
    let kid := bits x 48 10
    let host := bit x 5
    if tile % (size / 4096) ≠ 0 then none
    else if !host && (!e.owns tile (size / 4096) || !mappedPa (tile * 4096) || !mappedPa (tile * 4096 + size - 1)
        || !e.keys.contains kid) then none
    else some { va := va / size * size, size := size, pa := tile * 4096, key := kid, host := host,
                x := bit x 4, w := bit x 3, r := bit x 2, part := e.part }

/-- R406: bits [63:58] and [8:6] are reserved; in a pointer also kid, size, host and permissions. -/
def entryOk (x : Nat) : Bool :=
  bit x 0 && bits x 58 6 == 0 && bits x 6 3 == 0 && (bit x 1 || (bits x 48 10 == 0 && bits x 9 3 == 0))

/-- The walk from level `l` of the table at `tab`. -/
def Memory.walkFrom (m : Memory) (e : WalkEnv) (va : Nat) : Nat → Nat → Option PageMap
  | 0, tab =>
    let x := m.entry e (tab + 8 * vaIndex va 0)
    if !entryOk x || !bit x 1 then none else leafMap e va 0 x
  | l + 1, tab =>
    let x := m.entry e (tab + 8 * vaIndex va (l + 1))
    if !entryOk x then none
    else if bit x 1 then (if l + 1 = 1 then leafMap e va 1 x else none)
    else m.walkFrom e va l (bits x 12 36 * 4096)

/-- R406, R311: a walk reads its tables through their galleries. -/
def Memory.walkFill (m : Memory) (e : WalkEnv) (va : Nat) : Nat → Nat → Memory
  | 0, tab => m.use (tileOf (tab + 8 * vaIndex va 0)) e.tabKey
  | l + 1, tab =>
    let m1 := m.use (tileOf (tab + 8 * vaIndex va (l + 1))) e.tabKey
    let x := m1.entry e (tab + 8 * vaIndex va (l + 1))
    if !entryOk x || bit x 1 then m1 else m1.walkFill e va l (bits x 12 36 * 4096)

/-- What a walk leaves in the galleries. -/
def Memory.walked (m : Memory) (e : WalkEnv) (va : Nat) : Memory := m.walkFill e va 3 e.root

/-- R405: translate a 57-bit virtual address, the tables read through their galleries, with the checks of their fills. -/
def Memory.walk (m : Memory) (e : WalkEnv) (va : Nat) : Option PageMap := (m.walked e va).walkFrom e va 3 e.root

/-- The page of a list of translations that holds an address, for a partition. -/
def findPage (ps : List PageMap) (part va : Nat) : Option PageMap :=
  ps.find? (fun p => p.part == part && decide (p.va ≤ va) && decide (va < p.va + p.size))

/-- A page covers an address: where the byte lives. -/
def PageMap.at_ (p : PageMap) (va : Nat) : Space × Nat := (if p.host then .host else .stack, p.pa + (va - p.va))

/-! ## Translation caches (R407) -/

/-- R407: the home slice of an address on a die. -/
def tlbSlice (die va : Nat) : Nat := 48 * die + bits va 21 36 % 48

/-- A translation cache keeps its newest entries. -/
def keepPage (n : Nat) (p : PageMap) (l : List PageMap) : List PageMap :=
  if l.contains p then l else (if n ≤ l.length then l.drop 1 else l) ++ [p]

def Memory.tlb1Of (m : Memory) (core : Nat) : List PageMap := tgetD [] m.tlb1 core
def Memory.tlb2Of (m : Memory) (core : Nat) : List PageMap := tgetD [] m.tlb2 core

/-- Cache a translation in a core's L1 TLB. -/
def Memory.keep1 (m : Memory) (core : Nat) (p : PageMap) : Memory := { m with tlb1 := tmodD [] m.tlb1 core (keepPage 64 p) }
/-- Cache a translation in an L2 slice. -/
def Memory.keep2 (m : Memory) (slice : Nat) (p : PageMap) : Memory := { m with tlb2 := tmodD [] m.tlb2 slice (keepPage 2048 p) }

/-- Cache a translation in the walk-ahead TLB of a core's copy engine (R252). -/
def Memory.keepWalk (m : Memory) (core : Nat) (p : PageMap) : Memory := { m with tlbWalk := tmodD [] m.tlbWalk core (keepPage 256 p) }

/-- R407: a core's access to an address by a pinned translation leaves it in the core's L1 TLB and the home slice. -/
def Memory.cachePage (m : Memory) (core va : Nat) (p : PageMap) : Memory := (m.keep2 (tlbSlice (core / 48) va) p).keep1 core p
/-- R252, R407: the same for its copy engine. -/
def Memory.cacheWalk (m : Memory) (core va : Nat) (p : PageMap) : Memory := (m.keep2 (tlbSlice (core / 48) va) p).keepWalk core p

end Sys2Proof.Machine
end

