-- ==== Sys2Proof/Machine/Virt.lean ====
section
/-!
DEFINITION. How the Stairwell and the other agents that hold no lease read and write memory by virtual address, through
the page tables of a partition (15_nests.md R322, 21_memory.md R405, R406).
-/

namespace Sys2Proof.Machine

/-- A 64-bit canonical address as a 57-bit number. -/
def va57 (ea : DWord) : Nat := ea.toNat % 2 ^ 57

/-- [a, a + n) cut at multiples of `m`. The first argument bounds the number of pieces. -/
def cutAt (m : Nat) : Nat → Nat → Nat → List (Nat × Nat)
  | 0, _, _ => []
  | f + 1, a, n =>
    if n = 0 then []
    else
      let k := min n (m - a % m)
      (a, k) :: cutAt m f (a + k) (n - k)

/-- The segments of [a, a + n) that lie in one tile each. -/
def tileSegs (a n : Nat) : List (Nat × Nat) := cutAt 4096 (n / 4096 + 2) a n

/-- The facts a walk needs about a partition. -/
def State.walkEnv (s : State) (part : Nat) : WalkEnv :=
  match tget s.parts part with
  | some p => { part := part, root := p.root, tabKey := p.tabKey, keys := p.keys, pages := p.pages }
  | none => { part := part, root := 0, tabKey := 0, keys := [], pages := [] }

/-- The page of an address, walked afresh. -/
def State.virtPage (s : State) (part va : Nat) : Option PageMap := s.mem.walk (s.walkEnv part) (va % 2 ^ 57)

/-- The walk of an address reads its tables through their galleries (R406, R311). -/
def State.virtWalk (s : State) (part va : Nat) : State := { s with mem := s.mem.walked (s.walkEnv part) (va % 2 ^ 57) }

/-- Bytes of a location in the view of a die, or at its home for an agent that belongs to none. -/
def Memory.seenBy (m : Memory) (view : Option Nat) (sp : Space) (a k n : Nat) : List Byte :=
  match view with
  | some d => m.view d sp a k n
  | none => m.atHome sp a k n

/-- Read a segment of one tile in the view of a die (R368); none when it does not translate with read access or cannot be read
(R322). A poisoned tile that it meets is contained (R419). -/
def State.readVirtSeg (s0 : State) (view : Option Nat) (part va n : Nat) : State × Option (List Byte) :=
  let s := s0.virtWalk part va
  match s.virtPage part va with
  | none => (s, none)
  | some p =>
    let x := p.at_ (va % 2 ^ 57)
    if !p.r then (s, none)
    else if p.host then
      if !s.mem.linkUp || s.mem.hostBad.any (fun u => decide (x.2 / 64 ≤ u) && decide (u ≤ (x.2 + n - 1) / 64)) then (s, none)
      else (s, some (s.mem.atHome .host x.2 p.key n))
    else
      let m := s.mem.use (tileOf x.2) p.key
      if m.poisoned (tileOf x.2) p.key then ({ s with mem := m.meet (tileOf x.2) }, none)
      else ({ s with mem := m }, some (m.seenBy view .stack x.2 p.key n))

/-- Read bytes by virtual address. -/
def State.readVirt (s : State) (view : Option Nat) (part va n : Nat) : State × Option (List Byte) :=
  (tileSegs va n).foldl (fun acc p =>
    match acc.2, acc.1.readVirtSeg view part p.1 p.2 with
    | some bs, (s1, some cs) => (s1, some (bs ++ cs))
    | _, (s1, _) => (s1, none)) (s, some [])

/-- Write a segment of one tile at its home: a release that carries a clock (R370, R381), or a relaxed write (none). A segment that
does not translate with write access, or whose tile is poisoned, is not written. The clock stands for acquire reads over CXL.cache too
(R336). -/
def State.writeVirtSeg (s0 : State) (c : Option (List Nat)) (part va : Nat) (bs : List Byte) : State :=
  let s := s0.virtWalk part va
  match s.virtPage part va with
  | none => s
  | some p =>
    let x := p.at_ (va % 2 ^ 57)
    if !p.w then s
    else if p.host then (if s.mem.linkUp then (s.applyHost x.2 bs).stampHost x.2 bs.length (c.getD [0, 0, 0, 0]) (c.getD [0, 0, 0, 0]) else s)
    else
      let m := s.mem.fill (tileOf x.2) p.key 0
      if m.poisoned (tileOf x.2) p.key then { s with mem := m.meet (tileOf x.2) }
      else (({ s with mem := m } : State).applyGlobal x.2 p.key 0 bs c.isSome).1

/-- Write bytes by virtual address. -/
def State.writeVirt (s : State) (c : Option (List Nat)) (part va : Nat) (bs : List Byte) : State :=
  ((tileSegs va bs.length).foldl (fun (acc : State × List Byte) p =>
    (acc.1.writeVirtSeg c part p.1 (acc.2.take p.2), acc.2.drop p.2)) (s, bs)).1

/-- The home dies of the stack bytes of a range. -/
def State.virtHomes (s : State) (part va n : Nat) : List Nat :=
  (tileSegs va n).filterMap (fun q => (s.virtPage part q.1).bind (fun p =>
    if p.host then none else some (homeDie (p.at_ (q.1 % 2 ^ 57)).2)))

/-- R370: a release that carries clock `c` may apply at the homes of a range. -/
def State.homesCover (s : State) (part va n : Nat) (c : List Nat) : Bool :=
  (s.virtHomes part va n).all (fun h => s.mem.covers h c)

/-- The clock of what has been written to a range so far: each home's own stamps. -/
def State.virtStamps (s : State) (part va n : Nat) : List Nat :=
  (s.virtHomes part va n).foldl (fun c h => joinClock c (clockAt h (s.mem.clock h h))) [0, 0, 0, 0]

/-- The clock of an acquire read of a tile segment. -/
def State.segClock (s : State) (part va n : Nat) : List Nat :=
  match s.virtPage part va with
  | some p =>
    let x := p.at_ (va % 2 ^ 57)
    if p.host then s.mem.hostClock x.2 n else s.mem.clockOf (homeDie x.2)
  | none => [0, 0, 0, 0]

/-- The clock of an acquire read of a range: every tile segment of it counts. -/
def State.virtClock (s : State) (part va n : Nat) : List Nat :=
  (tileSegs va n).foldl (fun c q => joinClock c (s.segClock part q.1 q.2)) [0, 0, 0, 0]

/-- OR a byte into memory by virtual address. -/
def State.orVirt (s : State) (part va : Nat) (b : Byte) : State :=
  match s.readVirt none part va 1 with
  | (s1, some [x]) => s1.writeVirt none part va [x ||| b]
  | (s1, _) => s1

/-! ## Instances -/

/-- Change an instance. -/
def State.modRun (s : State) (r : Nat) (f : Run → Run) : State := { s with runs := tmod s.runs r f }

/-- Change the element of a list at a place. -/
def setAt {α : Type} (f : α → α) : Nat → List α → List α
  | _, [] => []
  | 0, x :: xs => f x :: xs
  | n + 1, x :: xs => x :: setAt f n xs

/-- Change a nest of an instance. -/
def State.modNest (s : State) (r j : Nat) (f : Nest → Nest) : State :=
  s.modRun r (fun x => { x with nests := setAt f j x.nests })

/-! ## Flags of engine operations (R74) -/

/-- R74: after its tread has retired, a flag goes to the nest, or to its completion record once that is written. -/
def State.lateFlags (s : State) (t : Tread) (fl : BitVec 5) : State :=
  match (tget s.runs t.run).bind (fun r => r.nests[t.nest]?) with
  | some n =>
    if n.sealed then s.orVirt t.part (va57 t.record + 0x28) (fl.zeroExtend 8)
    else s.modNest t.run t.nest (fun n => { n with flags := n.flags ||| fl })
  | none => s.orVirt t.part (va57 t.record + 0x28) (fl.zeroExtend 8)

/-- The flags of a flight, from the phase record of a spilled landing (R349). -/
def State.flagsOf (s : State) (t : Tread) (fk : Nat) (f : Flight) : BitVec 5 :=
  match tget s.landings (landingOf fk) with
  | some l => if t.spilledOut l then (readCell s.mem.hall (l.recordPlace + 0x80 + 64 * (fk % 32))).truncate 5 else f.fpflags
  | none => f.fpflags

/-- R74: flags of an asynchronous operation go where the flight's state lies: the live flags, the phase record, the
nest's completion record. -/
def State.orEngineFlags (s : State) (fk : Nat) (fl : BitVec 5) : State :=
  if fl = 0 then s
  else
    match tget s.landings (landingOf fk) with
    | none => s
    | some ld =>
      match tget s.treads ld.tid with
      | some t =>
        if t.spilledOut ld then
          let a := ld.recordPlace + 0x80 + 64 * (fk % 32)
          s.applyHall a [readCell s.mem.hall a ||| fl.zeroExtend 8]
        else if t.stage = .retired then s.lateFlags t fl
        else s.orFlags fk fl
      | none => s

end Sys2Proof.Machine
end

