-- ==== Sys2Proof/Machine/Access.lean ====
section
/-!
DEFINITION. Per-lane memory, atomic and fence instructions (09_memory_instr.md) and the steps of the Arcade machine that
carry their accesses (19_ordering.md R367–R376, R383): BIND, DRAIN, APPLY, SEND, MIRROR, LOAD_RETURN.
-/

namespace Sys2Proof.Machine

/-! ## The checks of an access (R182) -/

/-- Where an access goes: its space, the address there, the key id. -/
structure Loc where
  space : Space
  addr  : Nat
  key   : Nat
  page  : Option PageMap := none   -- the pinned translation that an access inside a lease went through
  deriving DecidableEq, Repr

/-- What a check answers: the location, or what the access does instead. -/
inductive Checked where
  | ok (l : Loc)
  | bad (r : Res)
  | lost (tile : Nat) (r : Res)  -- its tile's fill met an uncorrectable error, which this access is the first to hear of
  | miss (f : FillReq)        -- the tile is absent: its fill is asked for and the group is held
  | cross                     -- it has yet to cross the mesh to another slice: the group is held
  deriving DecidableEq, Repr

/-- A data trap with its address and write bit (R106, R182). -/
def dataTrap (c : Cause) (detail : Nat) (addr : DWord) (w : Bool) : Trap :=
  { cause := c, detail := detail, addr := addr, write := w, fetch := false }

/-- The lease of a tread that holds [ea, ea + n) with the access needed (R182). -/
def leaseFor (ls : List LeaseRange) (ea n : Nat) (r w : Bool) : Option LeaseRange :=
  ls.find? (fun l => decide (l.base ≤ ea) && decide (ea + n ≤ l.base + l.len) && (!r || l.r) && (!w || l.w))

/-- The pinned translation of an address inside a lease (R408): where the byte lives. -/
def leasePage (l : LeaseRange) (va : Nat) : Option PageMap :=
  l.pages.find? (fun p => decide (p.va ≤ va) && decide (va < p.va + p.size))

/-- R182 on a tile of a stack, for a tread of a nest. -/
def checkTile (by_ : Nat × Nat) (m : Memory) (p : PageMap) (pa prio : Nat) (ea : DWord) (w : Bool) : Checked :=
  let t := tileOf pa
  let key := p.key
  match m.resident? t key with
  | none => .miss { tile := t, key := key, prio := prio, by_ := some by_, kind := .fill }
  | some e =>
    if e.uncorr then .lost t (.trap (dataTrap .memoryError 0 ea w))
    else if e.poisoned then .bad (.trap (dataTrap .integrity 0 ea w))
    else if w && m.exhausted t key then .bad (.trap (dataTrap .integrityExhausted 0 ea w))
    else .ok { space := .stack, addr := pa, key := key, page := some p }

/-- R182: a global access. -/
def checkGlobal (c : Ctx) (m : Memory) (ea : DWord) (n prio : Nat) (w : Bool) : Checked :=
  if ea.toNat % n ≠ 0 then .bad (.trap (dataTrap .misalignedAccess n ea w))
  else if !isCanon ea then .bad (.ends 0x40 ea w)
  else
    match leaseFor c.tr.leases (va57 ea) n (!w) w with
    | none => .bad (.ends 0x40 ea w)
    | some l =>
      match leasePage l (va57 ea) with
      | none => .bad (.ends 0x40 ea w)
      | some p =>
        let x := p.at_ (va57 ea)
        if p.host then
          if !m.linkUp || m.hostBad.contains (x.2 / 64) then .bad (.trap (dataTrap .memoryError 0 ea w))
          else .ok { space := .host, addr := x.2, key := p.key, page := some p }
        else checkTile (c.tr.run, c.tr.nest) m p x.2 prio ea w

/-- The slice index of a hall address (R293). -/
def sliceOf (a : Word) : Nat := bits a.toNat 21 5

/-- Cores of a partition. The state's table of partitions gives them (R404). -/
def inPart (cores : List Nat) (core : Nat) : Bool := cores.contains core

/-- R293, R294: a hall address valid for a thread of a core: where its byte lives. -/
def hallPlace (cores : List Nat) (core : Nat) (a : Word) : Option Nat :=
  if bits a.toNat 26 6 ≠ 0 ∨ 24 ≤ sliceOf a then none
  else if inPart cores (24 * (core / 24) + sliceOf a) then some (core / 24 * 2 ^ 26 + a.toNat)
  else none

/-- R238: a byte of [a, a + n) lies in a recorded range of the core. -/
def inRange (m : Memory) (core a n : Nat) : Bool :=
  (tgetD [] m.ranges core).any (fun r => decide (r.lo < a + n) && decide (a < r.hi))

/-- R182, R238, R295: a hall access of a thread. One under a recorded range meets the bytes as the copy leaves them. One to another
slice is held once, while it crosses the mesh (R210). -/
def checkHall (c : Ctx) (cores : List Nat) (m : Memory) (t : Thread) (ea : Word) (n : Nat) (w : Bool) : Checked :=
  let e64 : DWord := ea.zeroExtend 64
  if ea.toNat % n ≠ 0 then .bad (.trap (dataTrap .misalignedAccess n e64 w))
  else
    match hallPlace cores c.ld.core ea with
    | none => .bad (.ends 0x43 e64 w)
    | some a =>
      if sliceOf ea = c.ld.core % 24 ∧ inRange m c.ld.core a n then .bad (.hold .scoreboard)
      else if (List.range n).any (fun i => m.hallBad.contains (a + i)) then .bad (.trap (dataTrap .memoryError 0 e64 w))
      else if sliceOf ea ≠ c.ld.core % 24 ∧ t.crossed ≠ some c.pc then .cross
      else .ok { space := .hall, addr := a, key := 0 }

/-! ## Accesses in flight -/

/-- An access writes memory. -/
def Access.writes (a : Access) : Bool :=
  match a.kind with
  | .store => true
  | .atomic _ => true
  | _ => false
/-- An access reads memory. -/
def Access.reads (a : Access) : Bool :=
  match a.kind with
  | .load => true
  | .lr => true
  | .atomic _ => true
  | _ => false

/-- Two accesses share a byte. -/
def Access.overlaps (a b : Access) : Bool :=
  a.space == b.space && decide (a.addr < b.addr + b.size) && decide (b.addr < a.addr + a.size) && a.kind != .fence &&
  b.kind != .fence

/-- The die of an access's core. -/
def Access.die (a : Access) : Nat := a.core / 48

/-- R371: the stamp of an access is in its die's view. -/
def Memory.stampSeen (m : Memory) (a : Access) : Bool :=
  match a.space, a.stamp with
  | .stack, some n => decide (n ≤ m.clock a.die (homeDie a.addr))
  | _, _ => true

/-- A buffered write of the same thread that an acquire read may have taken its value from is not yet in the view. -/
def ownWriteUnseen (m : Memory) (a : Access) : Bool :=
  m.accs.any (fun x => x.fk == a.fk && x.lane == a.lane && decide (x.id < a.id) && x.kind == .store && x.overlaps a &&
    !(x.stage == .applied && m.stampSeen x))

/-- R371: performed. A read from a die's view takes a write whose stamp the die's clock covers (R370 Mirror), so an acquire
read waits only for a host-homed write, and for a buffered one that it took its value from. -/
def Memory.performed (m : Memory) (a : Access) : Bool :=
  match a.kind with
  | .fence => true
  | .load => a.stage == .bound && (!a.acq || (m.covers a.die a.seen && !ownWriteUnseen m a))
  | .lr => a.stage == .bound
  | .store => a.stage == .applied && m.stampSeen a
  | .atomic _ => a.stage == .applied && m.stampSeen a && (!a.acq || m.covers a.die a.seen)

/-- R371: the read part of an access is performed; an atomic reads as it is applied, whether or not its write is in the view. -/
def Memory.readPerformed (m : Memory) (a : Access) : Bool :=
  match a.kind with
  | .atomic _ => a.stage == .applied && (!a.acq || m.covers a.die a.seen)
  | _ => m.performed a

/-- R202: all of `x`, before `y` in program order, is ordered before it; `fr` says whether a fence.rel or a fence.ar stands between
them. Scope 0, the thread, orders nothing beyond program order (R191). -/
def orderedBefore (x y : Access) (fr : Bool) : Bool :=
  x.kind != .fence && (x.overlaps y || (x.acq && x.scope != 0) || (y.rel && y.scope != 0) || (y.writes && fr))

/-- R202: the read part of `x` is ordered before `y`: a fence.acq or a fence.ar (`fa`) stands between them. -/
def readBefore (x : Access) (fa : Bool) : Bool := x.reads && fa

/-- A fence of the acquiring kind stands in a list of accesses. -/
def hasFenceAcq (l : List Access) : Bool := l.any (fun a => a.kind == .fence && a.acq && a.scope != 0)
/-- A fence of the releasing kind stands in a list of accesses. -/
def hasFenceRel (l : List Access) : Bool := l.any (fun a => a.kind == .fence && a.rel && a.scope != 0)

/-- Every access of the list ordered before `y` is performed; `skip` names accesses that need not be. -/
def mayGo (m : Memory) (skip : Access → Bool) (y : Access) : List Access → Bool
  | [] => true
  | x :: xs =>
    (((!orderedBefore x y (hasFenceRel xs) || m.performed x) && (!readBefore x (hasFenceAcq xs) || m.readPerformed x)) || skip x) &&
      mayGo m skip y xs

/-- The accesses of a thread before number `id`, in program order. -/
def Memory.earlier (m : Memory) (fk lane id : Nat) : List Access :=
  m.accs.filter (fun a => a.fk == fk && a.lane == lane && decide (a.id < id))

/-- The access of a number. -/
def Memory.access? (m : Memory) (id : Nat) : Option Access := m.accs.find? (fun a => a.id == id)

/-- Change the access of a number. -/
def Memory.modAccess (m : Memory) (id : Nat) (f : Access → Access) : Memory :=
  { m with accs := m.accs.map (fun a => if a.id = id then f a else a) }

/-- The newest buffered write of the thread that shares a byte with a read (R370 Bind). -/
def newestWrite (pre : List Access) (y : Access) : Option Access :=
  (pre.filter (fun x => x.writes && x.overlaps y && (x.stage == .issued || x.stage == .drained))).getLast?

/-- The buffered write a read takes its value from: it holds every byte of the read. -/
def forwardFrom (pre : List Access) (y : Access) : Option Access :=
  match newestWrite pre y with
  | some x => if x.kind == .store && decide (x.addr ≤ y.addr) && decide (y.addr + y.size ≤ x.addr + x.size) then some x else none
  | none => none

/-- An access that nothing awaits any more: performed, its value returned. -/
def Memory.finished (m : Memory) (a : Access) : Bool :=
  m.performed a && (a.dest.isEmpty || a.returned) && a.kind != .fence

/-- Drop the accesses that are done with, and the fences that no earlier access of their thread precedes. -/
def Memory.tidy (m : Memory) : Memory :=
  let l := m.accs.filter (fun a => !m.finished a)
  { m with accs := l.filter (fun f => f.kind != .fence ||
      l.any (fun a => a.kind != .fence && a.fk == f.fk && a.lane == f.lane && decide (a.id < f.id))) }

/-- The clock of an access that has completed and is not yet performed. -/
def Access.clockOf (a : Access) : List Nat :=
  match a.space, a.stamp with
  | .stack, some n => joinClock a.seen (clockAt (homeDie a.addr) n)
  | _, _ => a.seen

/-- Some access of an operation of a flight is not complete: a returning one not returned, a store not applied. -/
def Memory.opPending (m : Memory) (fk : Nat) (k : Cls) (n : Nat) : Bool :=
  m.accs.any (fun a => a.fk == fk && a.cls == some (k, n) &&
    match k with
    | .st => a.stage != .applied
    | _ => !a.returned)

/-- R377: an operation is complete; the clock that it needs covered to be performed is kept for the WAITs that cover it. -/
def State.completeEng (s : State) (fk : Nat) (k : Cls) (n : Nat) (clock : List Nat) : State :=
  (s.modFlight fk (fun f => { f with opStamps := f.opStamps ++ [(k, n, clock)] })).completeOp fk k n

/-- What the accesses of an operation that are not yet performed need covered. -/
def Memory.opClock (m : Memory) (fk : Nat) (k : Cls) (n : Nat) : List Nat :=
  ((m.accs.filter (fun a => a.fk == fk && a.cls == some (k, n))).map Access.clockOf).foldl joinClock [0, 0, 0, 0]

/-- R213: complete the operation of an access when its last lane has finished. One that its die's clock does not cover yet is
complete and not performed: a WAIT that covers it makes it so (R377). -/
def State.finishOp (s : State) (a : Access) : State :=
  match a.cls with
  | some (k, n) =>
    let c := s.mem.opClock a.fk k n
    if s.mem.opPending a.fk k n then s
    else if s.mem.covers a.die c then s.completeOp a.fk k n else s.completeEng a.fk k n c
  | none => s

/-! ## The steps of the Arcade machine (R370) -/

/-- The value of an access's bytes in a view. -/
def bytesValue (bs : List Byte) : Nat := ofBytesLE bs

/-- The clock of the host-homed write that an acquire read takes: at package scope that of a device's write, at system scope also that
of the host's (R372, R376). A narrower scope orders nothing across dies. -/
def Memory.seenClock (m : Memory) (y : Access) : List Nat :=
  if y.space ≠ .host ∨ y.acq = false ∨ y.scope < 6 then [0, 0, 0, 0]
  else if y.scope = 6 then m.hostClock y.addr y.size
  else joinClock (m.hostClock y.addr y.size) (m.sysClock y.addr y.size)

/-- The value of a read that lies within a buffered write. -/
def partOf (x y : Access) : Nat := x.data / 2 ^ (8 * (y.addr - x.addr)) % 2 ^ (8 * y.size)

/-- A read of a tile that has been poisoned since the access was accepted: there is no value left to bind (R384), and the access, which
no trap cancels any more, completes (R183) with a free value (log entry 95). -/
def Memory.lost (m : Memory) (y : Access) : Bool := y.reads && y.space == .stack && m.poisoned (tileOf y.addr) y.key

/-- The value of a read of some bytes. -/
def State.readValue (s : State) (y : Access) (bs : List Byte) : Nat :=
  if s.mem.lost y then Config.lostValue s.frees % 2 ^ (8 * y.size) else bytesValue bs

/-- Free values taken once a read has its value. -/
def State.freesAfter (s : State) (y : Access) : Nat := if s.mem.lost y then s.frees + 1 else s.frees

/-- BIND: a read part takes its value (R370); lr binds at the home and sets its reservation (R383). -/
def State.bind (s : State) (id : Nat) : State :=
  match s.mem.access? id with
  | none => s
  | some y =>
    let pre := s.mem.earlier y.fk y.lane id
    let ready := y.stage == .issued && s.mem.covers y.die y.cover
    match y.kind with
    | .load =>
      match forwardFrom pre y with
      | some x =>
        if ready && mayGo s.mem (fun z => z.writes && z.overlaps y && !z.reads && !(z.acq || y.rel)) y pre then
          { s with mem := s.mem.modAccess id (fun a => { a with stage := .bound, value := some (partOf x y) }) }
        else s
      | none =>
        if ready && mayGo s.mem (fun _ => false) y pre then
          let v := s.readValue y (s.mem.view y.die y.space y.addr y.key y.size)
          { s with frees := s.freesAfter y, mem := s.mem.modAccess id (fun a => { a with stage := .bound, value := some v, seen := s.mem.seenClock y }) }
        else s
    | .lr =>
      if ready && mayGo s.mem (fun _ => false) y pre then
        let v := s.readValue y (s.mem.atHome y.space y.addr y.key y.size)
        let s1 := { s with frees := s.freesAfter y, mem := s.mem.modAccess id (fun a => { a with stage := .bound, value := some v }) }
        s1.modThread y.fk y.lane (fun t =>
          { t with resv := some { space := y.space, key := y.key, granule := y.addr / 64 } })
      else s
    | _ => s

/-- DRAIN: a buffered write is sent to its home; a causal one carries its die's clock (R370). -/
def State.drain (s : State) (id : Nat) : State :=
  match s.mem.access? id with
  | none => s
  | some y =>
    let pre := s.mem.earlier y.fk y.lane id
    if y.writes && y.stage == .issued && s.mem.covers y.die y.cover && mayGo s.mem (fun _ => false) y pre then
      let ck := if y.causal then s.mem.clockOf y.die else [0, 0, 0, 0]
      { s with mem := s.mem.modAccess id (fun a => { a with stage := .drained, clock := ck }) }
    else s

/-- R193: the new value of an atomic from the old value, the operand and the comparand, with the flags it raises. -/
def atomicNew (fn old b cmp : Nat) : Nat × FFlags :=
  let w := fun (x : Nat) => (BitVec.ofNat 32 x : Word)
  match fn with
  | 0 => ((old + b) % 2 ^ 32, 0)
  | 1 => fAdd fp32 .rne old b
  | 2 => ((fMinS (w old) (w b)).toNat, 0)
  | 3 => ((fMaxS (w old) (w b)).toNat, 0)
  | 4 => (min old b, 0)
  | 5 => (max old b, 0)
  | 6 => (old &&& b, 0)
  | 7 => (old ||| b, 0)
  | 8 => (old ^^^ b, 0)
  | 9 => (b, 0)
  | 10 => (if old = cmp then b else old, 0)
  | 11 => ((old + b) % 2 ^ 64, 0)
  | 12 => (b, 0)
  | _ => (if old = cmp then b else old, 0)

/-- R370: the carried clock is covered at the home, but for the home's own component. -/
def carriedOk (m : Memory) (h : Nat) (c : List Nat) : Bool :=
  allDies.all (fun e => e == h || decide (c.getD e 0 ≤ m.clock h e))

/-- Apply bytes at the home of a location; answers the state and the stamp of a stack write. Clocks `c`, for the package and for the
system, stay with host bytes: the one that a causal write carries, zeros of another. -/
def State.applyAt (s : State) (sp : Space) (addr key prio : Nat) (bs : List Byte) (causal : Bool) (c : List Nat × List Nat) :
    State × Option Nat :=
  match sp with
  | .hall => (s.applyHall addr bs, none)
  | .host => ((s.applyHost addr bs).stampHost addr bs.length c.1 c.2, none)
  | .stack =>
    let r := s.applyGlobal addr key prio bs causal
    (r.1, some r.2)

/-- R180: the accesses of lower lanes of the same instruction to its bytes have been applied. -/
def Memory.lanesApplied (m : Memory) (y : Access) : Bool :=
  !m.accs.any (fun x => x.fk == y.fk && x.cls == y.cls && x.cls.isSome && decide (x.id < y.id) && x.overlaps y && x.stage != .applied)

/-- The clocks that a write leaves with host bytes, for the package and for the system (R372). -/
def Access.clocks (y : Access) : List Nat × List Nat := (y.clock, if y.sys then y.clock else [0, 0, 0, 0])

/-- R374, R376: the clocks that an access leaves with host bytes: its own, and for an atomic also those of the write it has read, so
that an acquire of it synchronises with every release that a chain of atomics goes back to. -/
def Memory.leftClock (m : Memory) (y : Access) : List Nat × List Nat :=
  match y.kind with
  | .atomic _ =>
    if y.space = .host then
      (joinClock y.clocks.1 (m.hostClock y.addr y.size), joinClock y.clocks.2 (m.sysClock y.addr y.size))
    else y.clocks
  | _ => y.clocks

/-- APPLY: a write or atomic takes its place in the coherence order of its home and is stamped (R370, R193). The flags of an atomic
whose old value has yet to be written back wait for its completion (R194, R183). -/
def State.apply (s : State) (id : Nat) : State :=
  match s.mem.access? id with
  | none => s
  | some y =>
    if y.stage != .drained || !s.mem.lanesApplied y || (y.space == .stack && !carriedOk s.mem (homeDie y.addr) y.clock) then s
    else
      let old := s.readValue y (s.mem.atHome y.space y.addr y.key y.size)
      let nv : Nat × FFlags := match y.kind with
        | .atomic fn => atomicNew fn old y.data y.cmp
        | _ => (y.data, 0)
      let r := s.applyAt y.space y.addr y.key y.prio (bytesLE y.size nv.1) y.causal (s.mem.leftClock y)
      let s1 := { r.1 with frees := s.freesAfter y, mem := r.1.mem.modAccess id (fun a =>
        { a with stage := .applied, stamp := r.2, value := some old, seen := s.mem.seenClock y,
                 flags := if y.dest.isEmpty then 0 else nv.2 }) }
      let s2 := if y.dest.isEmpty then s1.orEngineFlags y.fk nv.2 else s1
      match y.cls with
      | some (.st, _) => s2.finishOp y
      | _ => s2

/-- SEND: the stamped copy of an applied write enters every other die's apply queue (R370). -/
def State.send (s : State) (i : Nat) : State :=
  match s.mem.outbox[i]? with
  | none => s
  | some w => { s with mem := { s.mem with
      outbox := s.mem.outbox.eraseIdx i
      inbox := s.mem.inbox ++ ((allDies.filter (fun d => d != w.home)).map (fun d => (d, w))) } }

/-- R370 Mirror: the write is the next of its home and its other components are covered. -/
def mirrorReady (m : Memory) (d : Nat) (w : MirrorWrite) : Bool :=
  w.stamp.getD w.home 0 == m.clock d w.home + 1 && allDies.all (fun e => e == w.home || decide (w.stamp.getD e 0 ≤ m.clock d e))

/-- What a queued write leaves in the mirror of a die: its bytes; a wipe leaves zero for all of its home under its key id (R384). -/
def Memory.mirrored (m : Memory) (d : Nat) (w : MirrorWrite) : List Host.Cell :=
  if w.wipe then m.mirror.filter (fun c => !(c.1 / 2 ^ 48 == 1024 * d + w.key && homeDie (c.1 % 2 ^ 48) == w.home))
  else writeCells m.mirror (mirrorKey d w.key w.addr) w.bytes

/-- MIRROR: a die applies a queued write to its mirror (R370). -/
def State.mirror (s : State) (i : Nat) : State :=
  match s.mem.inbox[i]? with
  | none => s
  | some (d, w) =>
    if mirrorReady s.mem d w then
      { s with mem := ({ s.mem with
          inbox := s.mem.inbox.eraseIdx i
          mirror := s.mem.mirrored d w }).setClock d w.home (w.stamp.getD w.home 0) }
    else s

/-- The words a value of `n` bytes returns to registers. -/
def wordsOf (v n : Nat) (signed : Bool) : List Word :=
  if n < 4 then [if signed then word (sign v (8 * n)) else BitVec.ofNat 32 v]
  else (List.range (n / 4)).map (fun i => BitVec.ofNat 32 (v / 2 ^ (32 * i)))

/-- Write a list of registers. -/
def Thread.setMany (t : Thread) : List Nat → List Word → Thread
  | r :: rs, w :: ws => Thread.setMany (t.setReg r w) rs ws
  | _, _ => t

/-- LOAD_RETURN: a bound value is written to its destination, and its operation completes with its last lane (R183), with the flags
of an atomic (R194). -/
def State.loadReturn (s : State) (id : Nat) : State :=
  match s.mem.access? id with
  | none => s
  | some y =>
    match y.value with
    | none => s
    | some v =>
      if y.dest.isEmpty || y.returned then s
      else
        let s1 := s.modThread y.fk y.lane (fun t =>
          let t1 := t.setMany y.dest (wordsOf v y.size y.signed)
          { t1 with loads := t1.loads.filter (fun p => !(y.dest.contains p.1 && some (Cls.ld, p.2) == y.cls)) })
        let s2 := { s1 with mem := s1.mem.modAccess id (fun a => { a with returned := true }) }
        (s2.orEngineFlags y.fk y.flags).finishOp y

/-- A step of the memory machine, the accesses it finishes dropped. -/
def State.tidied (s : State) : State := { s with mem := s.mem.tidy }

def execBind (id : Nat) (s : State) : Out := .next (s.bind id).tidied
def execDrain (id : Nat) (s : State) : Out := .next (s.drain id).tidied
def execApply (id : Nat) (s : State) : Out := .next (s.apply id).tidied
def execSend (i : Nat) (s : State) : Out := .next (s.send i).tidied
def execMirror (i : Nat) (s : State) : Out := .next (s.mirror i).tidied
def execLoadReturn (id : Nat) (s : State) : Out := .next (s.loadReturn id).tidied

/-! ## Issuing accesses -/

/-- What one lane of a memory instruction asks for. -/
structure AccReq where
  kind   : AccKind
  data   : Nat
  cmp    : Nat
  dest   : List Nat
  signed : Bool
  deriving DecidableEq, Repr

/-- The order and scope of an instruction's accesses. -/
structure AccOrder where
  acq   : Bool
  rel   : Bool
  scope : Nat
  deriving DecidableEq, Repr

def relaxed : AccOrder := { acq := false, rel := false, scope := 6 }

/-- Scope 6 or 7: the package or the system (R372). -/
def wideScope (n : Nat) : Bool := decide (6 ≤ n)

/-- R372: the order of a write is at system scope: by the write itself, or by a fence before it. -/
def sysWrite (t : Thread) (o : AccOrder) : Bool := (o.rel && decide (7 ≤ o.scope)) || t.sysFenced

/-- R369: a write is causal. -/
def causalWrite (t : Thread) (k : AccKind) (o : AccOrder) : Bool :=
  match k with
  | .store => (o.rel && wideScope o.scope) || t.relFenced
  | .atomic _ => (o.rel && wideScope o.scope) || t.relFenced
  | _ => false

/-- Enter one access into the issue queue (R370 Issue); its destination registers await it. -/
def enterAccess (c : Ctx) (o : AccOrder) (prio n : Nat) (cls : Option (Cls × Nat)) (s : State) (lane : Nat) (t : Thread)
    (l : Loc) (q : AccReq) : State :=
  let m0 := s.mem.touch (tileOf l.addr) l.key prio
  let m1 := if l.space = .stack then m0 else s.mem
  let m := match l.page with
    | some p => m1.cachePage c.ld.core (p.va + (l.addr - p.pa)) p
    | none => m1
  let a : Access :=
    { id := m.nextAcc, fk := c.fk, lane := lane, kind := q.kind, acq := o.acq, rel := o.rel, scope := o.scope,
      space := l.space, addr := l.addr, size := n, key := l.key, prio := prio, data := q.data, cmp := q.cmp,
      signed := q.signed, dest := q.dest, cls := cls, core := c.ld.core, stage := .issued,
      causal := causalWrite t q.kind o, sys := sysWrite t o, clock := [0, 0, 0, 0], value := none, stamp := none,
      returned := false, cover := c.fl.cover, seen := [0, 0, 0, 0], flags := 0 }
  let s1 := { s with mem := { m with accs := m.accs ++ [a], nextAcc := m.nextAcc + 1 } }
  let num := match cls with
    | some (.ld, k) => some k
    | _ => none
  s1.modThread c.fk lane (fun t =>
    { t with lrsc := (if q.kind = .lr then some 0 else none)
             crossed := none
             loads := match num with
               | some k => q.dest.map (fun r => (r, k)) ++ t.loads
               | none => t.loads })

/-- Ask for the fill of an absent tile (R313): concurrent misses share one fill. -/
def askFill (s : State) (f : FillReq) : State :=
  if s.mem.fills.any (fun g => g.kind == .fill && g.tile == f.tile && g.key == f.key) then s
  else { s with mem := { s.mem with fills := s.mem.fills ++ [f] } }

/-- The first access that meets an uncorrectable error has been told. -/
def State.knowUncorr (s : State) (tile : Nat) : State := { s with mem := s.mem.knowUncorr tile }

/-- The instruction at a pc has been held once for the mesh. -/
def State.markCrossed (fk : Nat) (pc : DWord) (s : State) (lane : Nat) : State :=
  s.modThread fk lane (fun t => { t with crossed := some pc })

/-- The outcomes of the checks of a group's lanes, before any of them takes effect. -/
abbrev Checks := List (Nat × Thread × Checked)

/-- Check every lane of a group: its registers, then its access. -/
def checkLanes (us : List RegUse) (check : Ctx → State → Thread → Checked) (c : Ctx) (g : List Nat) (s : State) : Checks :=
  (g.filterMap (fun l => (s.thread? c.fk l).map (fun t => (l, t)))).map (fun p => (p.1, p.2,
    match regTrap c.ld.regs p.2 us with
    | some x => .bad (.trap x)
    | none => check c s p.2))

/-- The lanes that pass their checks. -/
def Checks.oks (k : Checks) : List (Nat × Thread × Loc) :=
  k.filterMap (fun p => match p.2.2 with
    | .ok l => some (p.1, p.2.1, l)
    | _ => none)

/-- The lanes that do not, with what they do. -/
def Checks.bads (k : Checks) : List (Nat × Res) :=
  k.filterMap (fun p => match p.2.2 with
    | .bad r => some (p.1, r)
    | .lost _ r => some (p.1, r)
    | _ => none)

/-- What the lanes do once nothing holds the group. -/
def Checks.results (k : Checks) : List (Nat × Res) := k.bads ++ allDone (k.oks.map (·.1))

/-- The uncorrectable errors that the lanes are told of. -/
def Checks.losses (k : Checks) : List Nat :=
  k.filterMap (fun p => match p.2.2 with
    | .lost t _ => some t
    | _ => none)

/-- R182, R210: what holds the whole group before any lane takes effect: an absent tile, which is asked for, a recorded range,
the mesh. -/
def Checks.hold (k : Checks) (c : Ctx) (g : List Nat) (s : State) : Option (State × Stall) :=
  let misses := k.filterMap (fun p => match p.2.2 with
    | .miss f => some f
    | _ => none)
  let holds := k.filterMap (fun p => match p.2.2 with
    | .bad (.hold st) => some st
    | _ => none)
  if !misses.isEmpty then some (misses.foldl askFill s, .access)
  else
    match holds with
    | st :: _ => some (s, st)
    | [] => if k.any (fun p => p.2.2 == .cross) then some (g.foldl (State.markCrossed c.fk c.pc) s, .access) else none

/-- A memory instruction over the guard-true lanes: registers checked, a full class or an awaited register holds the
group, a missing tile holds it and is asked for; then every lane that passes its checks enters its access, in ascending
lane order, as one operation of the class. -/
def accessBody (us : List RegUse) (o : Ctx → AccOrder) (cls : Option Cls) (n : Nat)
    (check : Ctx → State → Thread → Checked) (req : Ctx → Thread → AccReq) : Body := fun c g s =>
  if anyAwaits s c.fk (allRegs us) g then (s, [(g.headD 0, .hold .register)])
  else
    let chk := checkLanes us check c g s
    match chk.hold c g s with
    | some (s1, st) => (s1, [(g.headD 0, .hold st)])
    | none =>
      let s0 := chk.losses.foldl State.knowUncorr s
      match chk.oks, cls with
      | [], _ => (s0, chk.bads)
      | _ :: _, none =>
        (chk.oks.foldl (fun s p => enterAccess c (o c) c.cache n none s p.1 p.2.1 p.2.2 (req c p.2.1)) s0, chk.results)
      | _ :: _, some k =>
        if c.fl.full k then (s, [(g.headD 0, .hold .classFull)])
        else
          let num := (c.fl.counter k).issued
          let s1 := chk.oks.foldl (fun s p =>
            enterAccess c (o c) c.cache n (some (k, num)) s p.1 p.2.1 p.2.2 (req c p.2.1)) s0
          (s1.joinOp c.fk k, chk.results)

/-- The check of an access of `n` bytes at base register `b` with byte offset `off` in space `h` (R181, R182). -/
def checkAt (h : BitVec 1) (b : BitVec 6) (off : Int) (n : Nat) (w : Bool) (c : Ctx) (s : State) (t : Thread) : Checked :=
  if h = 1 then checkHall c (s.coresOf c.tr.part) s.mem t (eaHall t b off) n w
  else checkGlobal c s.mem (eaGlobal t b off) n c.cache w

/-! ## LD and ST (R187, R188) -/

/-- The registers of a data register of `n` bytes. -/
def dataRegs (d : BitVec 6) (n : Nat) : List Nat := (List.range (max 1 (n / 4))).map (fun i => d.toNat + i)

/-- The value of `n` bytes in the data register (R188). -/
def storeValue (t : Thread) (d : BitVec 6) (n : Nat) : Nat :=
  ((dataRegs d n).zipIdx.foldl (fun v p => v + (t.reg p.1).toNat * 2 ^ (32 * p.2)) 0) % 2 ^ (8 * n)

def loadReq (d : BitVec 6) (n : Nat) (signed : Bool) (_ : Ctx) (_ : Thread) : AccReq :=
  { kind := .load, data := 0, cmp := 0, dest := dataRegs d n, signed := signed }
def storeReq (d : BitVec 6) (n : Nat) (_ : Ctx) (t : Thread) : AccReq :=
  { kind := .store, data := storeValue t d n, cmp := 0, dest := [], signed := false }

/-- A load of `n` bytes (R188). -/
def load (d b : BitVec 6) (o : BitVec 7) (h : BitVec 1) (g : BitVec 3) (n : Nat) (signed : Bool) (s : State) : Out :=
  .next (issue s HintUse.memory g (accessBody [dataUse d n, baseUse h b] (fun _ => relaxed) (some .ld) n
    (checkAt h b (o.toInt * n) n false) (loadReq d n signed)))
/-- A store of `n` bytes (R188). -/
def store (d b : BitVec 6) (o : BitVec 7) (h : BitVec 1) (g : BitVec 3) (n : Nat) (s : State) : Out :=
  .next (issue s HintUse.memory g (accessBody [dataUse d n, baseUse h b] (fun _ => relaxed) (some .st) n
    (checkAt h b (o.toInt * n) n true) (storeReq d n)))

def execLdS8 (d b : BitVec 6) (o : BitVec 7) (h : BitVec 1) (g : BitVec 3) (s : State) : Out := load d b o h g 1 true s
def execLdN8 (d b : BitVec 6) (o : BitVec 7) (h : BitVec 1) (g : BitVec 3) (s : State) : Out := load d b o h g 1 false s
def execLdS16 (d b : BitVec 6) (o : BitVec 7) (h : BitVec 1) (g : BitVec 3) (s : State) : Out := load d b o h g 2 true s
def execLdN16 (d b : BitVec 6) (o : BitVec 7) (h : BitVec 1) (g : BitVec 3) (s : State) : Out := load d b o h g 2 false s
def execLdB32 (d b : BitVec 6) (o : BitVec 7) (h : BitVec 1) (g : BitVec 3) (s : State) : Out := load d b o h g 4 false s
def execLdB64 (d b : BitVec 6) (o : BitVec 7) (h : BitVec 1) (g : BitVec 3) (s : State) : Out := load d b o h g 8 false s
def execLdB128 (d b : BitVec 6) (o : BitVec 7) (h : BitVec 1) (g : BitVec 3) (s : State) : Out := load d b o h g 16 false s
def execStB8 (d b : BitVec 6) (o : BitVec 7) (h : BitVec 1) (g : BitVec 3) (s : State) : Out := store d b o h g 1 s
def execStB16 (d b : BitVec 6) (o : BitVec 7) (h : BitVec 1) (g : BitVec 3) (s : State) : Out := store d b o h g 2 s
def execStB32 (d b : BitVec 6) (o : BitVec 7) (h : BitVec 1) (g : BitVec 3) (s : State) : Out := store d b o h g 4 s
def execStB64 (d b : BitVec 6) (o : BitVec 7) (h : BitVec 1) (g : BitVec 3) (s : State) : Out := store d b o h g 8 s
def execStB128 (d b : BitVec 6) (o : BitVec 7) (h : BitVec 1) (g : BitVec 3) (s : State) : Out := store d b o h g 16 s

/-! ## ORD (R190, R191) -/

def acquireAt (c : BitVec 3) (_ : Ctx) : AccOrder := { acq := true, rel := false, scope := c.toNat }
def releaseAt (c : BitVec 3) (_ : Ctx) : AccOrder := { acq := false, rel := true, scope := c.toNat }

def loadAcquire (d b : BitVec 6) (c : BitVec 3) (h : BitVec 1) (g : BitVec 3) (n : Nat) (s : State) : Out :=
  .next (issue s HintUse.memory g (accessBody [dataUse d n, baseUse h b] (acquireAt c) (some .ld) n
    (checkAt h b 0 n false) (loadReq d n false)))
def storeRelease (d b : BitVec 6) (c : BitVec 3) (h : BitVec 1) (g : BitVec 3) (n : Nat) (s : State) : Out :=
  .next (issue s HintUse.memory g (accessBody [dataUse d n, baseUse h b] (releaseAt c) (some .st) n
    (checkAt h b 0 n true) (storeReq d n)))

def execLdaB32 (d b : BitVec 6) (c : BitVec 3) (h : BitVec 1) (g : BitVec 3) (s : State) : Out := loadAcquire d b c h g 4 s
def execLdaB64 (d b : BitVec 6) (c : BitVec 3) (h : BitVec 1) (g : BitVec 3) (s : State) : Out := loadAcquire d b c h g 8 s
def execStlB32 (d b : BitVec 6) (c : BitVec 3) (h : BitVec 1) (g : BitVec 3) (s : State) : Out := storeRelease d b c h g 4 s
def execStlB64 (d b : BitVec 6) (c : BitVec 3) (h : BitVec 1) (g : BitVec 3) (s : State) : Out := storeRelease d b c h g 8 s

/-! ## ATOM (R192–R196) -/

/-- The order of an atomic comes from its hint (R195). -/
def atomOrder (c : Ctx) : AccOrder := { acq := c.order.1, rel := c.order.2, scope := c.scope }

/-- The value of an operand register or pair. -/
def operandOf (t : Thread) (r : BitVec 6) (n : Nat) : Nat := if n = 8 then (t.pair r.toNat).toNat else (t.reg r.toNat).toNat

/-- An atomic (R192, R193). `cas` members read the comparand in d. With `.nr` nothing returns, the ST class is joined,
and d must be 0 except on the cas members (R51, R196). -/
def atomic (d a b : BitVec 6) (h : BitVec 1) (g : BitVec 3) (fn n : Nat) (cas : Bool) (s : State) : Out :=
  let u := fun r => if n = 8 then pair r else one r
  .next (match s.ctx? with
    | none => s
    | some c0 =>
      if c0.nr && !cas && d != 0 then trapAll c0 s (trap .illegal 0)
      else if c0.nr then
        issue s HintUse.atomic g (accessBody ((if cas then [u d] else []) ++ [baseUse h a, u b]) atomOrder (some .st) n
          (checkAt h a 0 n true)
          (fun _ t => { kind := .atomic fn, data := operandOf t b n, cmp := if cas then operandOf t d n else 0,
                        dest := [], signed := false }))
      else
        issue s HintUse.atomic g (accessBody [u d, baseUse h a, u b] atomOrder (some .ld) n
          (checkAt h a 0 n true)
          (fun _ t => { kind := .atomic fn, data := operandOf t b n, cmp := if cas then operandOf t d n else 0,
                        dest := dataRegs d n, signed := false })))

def execAtomAddS32 (d a b : BitVec 6) (h : BitVec 1) (g : BitVec 3) (s : State) : Out := atomic d a b h g 0 4 false s
def execAtomAddF32 (d a b : BitVec 6) (h : BitVec 1) (g : BitVec 3) (s : State) : Out := atomic d a b h g 1 4 false s
def execAtomMinS (d a b : BitVec 6) (h : BitVec 1) (g : BitVec 3) (s : State) : Out := atomic d a b h g 2 4 false s
def execAtomMaxS (d a b : BitVec 6) (h : BitVec 1) (g : BitVec 3) (s : State) : Out := atomic d a b h g 3 4 false s
def execAtomMinN (d a b : BitVec 6) (h : BitVec 1) (g : BitVec 3) (s : State) : Out := atomic d a b h g 4 4 false s
def execAtomMaxN (d a b : BitVec 6) (h : BitVec 1) (g : BitVec 3) (s : State) : Out := atomic d a b h g 5 4 false s
def execAtomAnd (d a b : BitVec 6) (h : BitVec 1) (g : BitVec 3) (s : State) : Out := atomic d a b h g 6 4 false s
def execAtomOr (d a b : BitVec 6) (h : BitVec 1) (g : BitVec 3) (s : State) : Out := atomic d a b h g 7 4 false s
def execAtomXor (d a b : BitVec 6) (h : BitVec 1) (g : BitVec 3) (s : State) : Out := atomic d a b h g 8 4 false s
def execAtomExch (d a b : BitVec 6) (h : BitVec 1) (g : BitVec 3) (s : State) : Out := atomic d a b h g 9 4 false s
def execAtomCas (d a b : BitVec 6) (h : BitVec 1) (g : BitVec 3) (s : State) : Out := atomic d a b h g 10 4 true s
def execAtomAddS64 (d a b : BitVec 6) (h : BitVec 1) (g : BitVec 3) (s : State) : Out := atomic d a b h g 11 8 false s
def execAtomExchB64 (d a b : BitVec 6) (h : BitVec 1) (g : BitVec 3) (s : State) : Out := atomic d a b h g 12 8 false s
def execAtomCasB64 (d a b : BitVec 6) (h : BitVec 1) (g : BitVec 3) (s : State) : Out := atomic d a b h g 13 8 true s

/-! ## Accesses that act in the slot of their instruction -/

/-- An access of a lane that acts in its own slot, as the Arcade machine would hold it: relaxed, its write applied at once. -/
def slotAccess (c : Ctx) (s : State) (lane : Nat) (kind : AccKind) (causal : Bool) (n : Nat) (l : Loc) : Access :=
  { id := s.mem.nextAcc, fk := c.fk, lane := lane, kind := kind, acq := false, rel := false, scope := 6, space := l.space,
    addr := l.addr, size := n, key := l.key, prio := 0, data := 0, cmp := 0, signed := false, dest := [], cls := none,
    core := c.ld.core, stage := .applied, causal := causal, sys := causal && (s.thread? c.fk lane).any (·.sysFenced),
    clock := if causal then s.mem.clockOf (c.ld.core / 48) else [0, 0, 0, 0], value := none, stamp := none,
    returned := false, cover := c.fl.cover, seen := [0, 0, 0, 0], flags := 0 }

/-- R202, R370, R377: it may act now: what is ordered before it is performed, what a WAIT covers is in the die's view, and the home of
a causal write covers the clock it carries. -/
def slotMayGo (c : Ctx) (s : State) (lane : Nat) (kind : AccKind) (causal : Bool) (n : Nat) (l : Loc) : Bool :=
  s.mem.covers (c.ld.core / 48) c.fl.cover &&
  mayGo s.mem (fun _ => false) (slotAccess c s lane kind causal n l) (s.mem.earlier c.fk lane s.mem.nextAcc) &&
  (!causal || l.space != .stack || carriedOk s.mem (homeDie l.addr) (s.mem.clockOf (c.ld.core / 48)))

/-! ## LRSC (R197–R200) -/

def loadReserved (d a : BitVec 6) (h : BitVec 1) (g : BitVec 3) (n : Nat) (s : State) : Out :=
  .next (issue s HintUse.none g (accessBody [dataUse d n, baseUse h a] (fun _ => relaxed) (some .ld) n
    (checkAt h a 0 n false) (fun _ _ => { kind := .lr, data := 0, cmp := 0, dest := dataRegs d n, signed := false })))

/-- The thread's reservation is valid and names the granule of a location (R198). -/
def Thread.reserves (t : Thread) (l : Loc) : Bool :=
  match t.resv with
  | some r => r.space == l.space && r.granule == l.addr / 64 && (l.space != .stack || r.key == l.key)
  | none => false

/-- Some lr of the thread has not yet bound. -/
def lrPending (m : Memory) (fk lane : Nat) : Bool :=
  m.accs.any (fun a => a.fk == fk && a.lane == lane && a.kind == .lr && a.stage == .issued)

/-- R202: a successful sc is a write part, held until what is ordered before it is performed and what a WAIT covers is in the view; one
that fails is none, and only what is ordered before any access holds it. -/
def scMayGo (c : Ctx) (s : State) (lane n : Nat) (t : Thread) (l : Loc) : Bool :=
  if t.reserves l then slotMayGo c s lane .store t.relFenced n l
  else mayGo s.mem (fun _ => false) (slotAccess c s lane .load false n l) (s.mem.earlier c.fk lane s.mem.nextAcc)

/-- One lane of an sc: it writes or fails in one step at the home (R198, R383); lanes write in ascending order (R180), so a lane held
so holds those above it. -/
def scLane (c : Ctx) (us : List RegUse) (h : BitVec 1) (p : BitVec 3) (a b : BitVec 6) (n : Nat)
    (acc : State × List (Nat × Res)) (lane : Nat) : State × List (Nat × Res) :=
  let s := acc.1
  match s.thread? c.fk lane with
  | none => acc
  | some t =>
    match regTrap c.ld.regs t us with
    | some x => (s, acc.2 ++ [(lane, .trap x)])
    | none =>
      match checkAt h a 0 n true c s t with
      | .bad r => (s, acc.2 ++ [(lane, r)])
      | .lost tile r => (s.knowUncorr tile, acc.2 ++ [(lane, r)])
      | .miss _ => (s, acc.2 ++ [(lane, .hold .access)])
      | .cross => (s, acc.2 ++ [(lane, .hold .access)])
      | .ok l =>
        if acc.2.any (fun r => r.2 == .hold .result) || lrPending s.mem c.fk lane || !scMayGo c s lane n t l then
          (s, acc.2 ++ [(lane, .hold .result)])
        else if t.reserves l then
          let y := { slotAccess c s lane .store t.relFenced n l with data := operandOf t b n }
          let s1 := s.modThread c.fk lane (fun t => { t.setPred p.toNat true with resv := none, lrsc := none, crossed := none })
          let r := s1.applyAt l.space l.addr l.key 0 (bytesLE n y.data) t.relFenced y.clocks
          let m := r.1.mem
          ({ r.1 with mem := { m with accs := m.accs ++ [{ y with stamp := r.2 }], nextAcc := m.nextAcc + 1 } },
            acc.2 ++ [(lane, .done)])
        else
          (s.modThread c.fk lane (fun t => { t.setPred p.toNat false with resv := none, lrsc := none, crossed := none }),
            acc.2 ++ [(lane, .done)])

def storeConditional (p : BitVec 3) (a b : BitVec 6) (h : BitVec 1) (g : BitVec 3) (n : Nat) (s : State) : Out :=
  let us := [baseUse h a, if n = 8 then pair b else one b]
  .next (State.tidied (issue s HintUse.none g (fun c ls s =>
    if anyAwaits s c.fk (allRegs us) ls then (s, [(ls.headD 0, .hold .register)])
    else
      match (checkLanes us (checkAt h a 0 n true) c ls s).hold c ls s with
      | some (s1, st) => (s1, [(ls.headD 0, .hold st)])
      | none => ls.foldl (scLane c us h p a b n) (s, []))))

def execLrB32 (d a : BitVec 6) (h : BitVec 1) (g : BitVec 3) (s : State) : Out := loadReserved d a h g 4 s
def execLrB64 (d a : BitVec 6) (h : BitVec 1) (g : BitVec 3) (s : State) : Out := loadReserved d a h g 8 s
def execScB32 (p : BitVec 3) (a b : BitVec 6) (h : BitVec 1) (g : BitVec 3) (s : State) : Out := storeConditional p a b h g 4 s
def execScB64 (p : BitVec 3) (a b : BitVec 6) (h : BitVec 1) (g : BitVec 3) (s : State) : Out := storeConditional p a b h g 8 s

/-- A pending lr of the thread will bind as a plain load: its reservation has been given up (R198). -/
def forgetLr (s : State) (fk lane : Nat) : State :=
  { s with mem := { s.mem with accs := s.mem.accs.map (fun a =>
      if a.fk = fk ∧ a.lane = lane ∧ a.kind = .lr ∧ a.stage = .issued then { a with kind := .load } else a) } }

/-- Give up a thread's reservation (R198). -/
def dropResv (fk : Nat) (s : State) (lane : Nat) : State :=
  (forgetLr s fk lane).modThread fk lane (fun t => { t with resv := none, lrsc := none })

def execClrres (g : BitVec 3) (s : State) : Out :=
  .next (issue s HintUse.none g (fun c ls s => (ls.foldl (dropResv c.fk) s, allDone ls)))

/-! ## FENCE (R201, R202) -/

/-- A fence stands in the thread's issue queue between its earlier and its later accesses. -/
def enterFence (c : Ctx) (acq rel : Bool) (scope : Nat) (s : State) (lane : Nat) : State :=
  let a : Access :=
    { id := s.mem.nextAcc, fk := c.fk, lane := lane, kind := .fence, acq := acq, rel := rel, scope := scope,
      space := .hall, addr := 0, size := 0, key := 0, prio := 0, data := 0, cmp := 0, signed := false, dest := [],
      cls := none, core := c.ld.core, stage := .bound, causal := false, sys := false, clock := [0, 0, 0, 0], value := none,
      stamp := none, returned := true, cover := [0, 0, 0, 0], seen := [0, 0, 0, 0], flags := 0 }
  let s1 := { s with mem := { s.mem with accs := s.mem.accs ++ [a], nextAcc := s.mem.nextAcc + 1 } }
  s1.modThread c.fk lane (fun t =>
    { t with relFenced := t.relFenced || (rel && wideScope scope), sysFenced := t.sysFenced || (rel && decide (7 ≤ scope)) })

def fence (acq rel : Bool) (c : BitVec 3) (g : BitVec 3) (s : State) : Out :=
  .next (State.tidied (issue s HintUse.none g (fun x ls s => (ls.foldl (enterFence x acq rel c.toNat) s, allDone ls))))

def execFenceAcq (c : BitVec 3) (g : BitVec 3) (s : State) : Out := fence true false c g s
def execFenceRel (c : BitVec 3) (g : BitVec 3) (s : State) : Out := fence false true c g s
def execFenceAr (c : BitVec 3) (g : BitVec 3) (s : State) : Out := fence true true c g s

end Sys2Proof.Machine
end

