-- ==== Sys2Proof/Machine/Queue.lean ====
section
/-!
DEFINITION. The endpoints behind queue registers (10_core.md R218–R224): entries, pending pops and their delivery; the
credits and entries of hall message queues (14_cluster.md R296–R300); how an engine reports flags (R74) and endings
(R109).
-/

namespace Sys2Proof.Machine

/-! ## Traps and endings away from the issuing group -/

/-- The surroundings of a thread that is held at an instruction whose group starts at `start`. -/
def State.ctxAt (s : State) (fk lane : Nat) (start : DWord) : Option Ctx :=
  match tget s.flights fk, tget s.landings (landingOf fk) with
  | some fl, some ld =>
    match tget s.treads ld.tid with
    | some tr =>
      some { fk := fk, lid := landingOf fk, fl := fl, ld := ld, tr := tr, lanes := [lane], pc := start, start := start,
             imm := none, mods := none, sched := none, keeps := true }
    | none => none
  | _, _ => none

/-- Threads whose hints stand pending go back to the first word of their group; the slot stands as before it. -/
def State.dropHint (s : State) (fk : Nat) : State :=
  match (tget s.flights fk).bind (·.hint) with
  | none => s
  | some h => (h.lanes.foldl (fun s l => s.modThread fk l (fun t => { t with pc := h.start })) s).modFlight fk Flight.turnedAway

/-- An event that sends held lanes of a flight on ends a hint group in which they were trying their instruction again: its hints
belong to that instruction alone (R47–R49). The flight that is issuing settles its own slot. -/
def State.leaveHints (s : State) (fk : Nat) (ls : List Nat) : State :=
  if s.cur ≠ some fk && ((tget s.flights fk).bind (·.hint)).any (fun h => h.lanes.any ls.contains) then s.dropHint fk else s

/-- Lanes held at an instruction take a trap there (R246, R283). -/
def State.trapHeld (s : State) (fk : Nat) (ls : List Nat) (start npc : DWord) (x : Trap) : State :=
  ls.foldl (fun s l =>
    match s.ctxAt fk l start with
    | none => s
    | some c => takeTrap c npc (laneMask ls).toNat (s.modThread fk l (fun t => { t with held := none })) l x) (s.leaveHints fk ls)

/-- R109: an ending that an engine finds during execution. -/
def State.endByEngine (s : State) (w : Issuer) (code : Nat) (write : Bool) (addr : DWord) : State :=
  let fl : BitVec 5 := match tget s.flights w.fk, tget s.treads w.tid with
    | some f, some t => s.flagsOf t w.fk f
    | _, _ => 0
  let pt : List Int := match tget s.treads w.tid with
    | some t => t.point
    | none => []
  s.endTread w.tid
    { finfo := finfoWord code 0 (2 ^ w.lane) write false false, thread := (w.fk % 32) * 8 + w.lane, core := w.core,
      fpc := w.pc, faddr := addr, i0 := word (pt.getD 0 0), i1 := word (pt.getD 1 0), i2 := word (pt.getD 2 0),
      i3 := word (pt.getD 3 0), flags := fl, order := 0, cycle := 0 }

/-- The issuer of an operation issued by the group of a context from lane `l`. -/
def Ctx.issuer (c : Ctx) (l : Nat) : Issuer := { tid := c.ld.tid, spell := c.ld.spell, core := c.ld.core, fk := c.fk, lane := l, pc := c.start }

/-! ## Endpoints of a flight (classes 0, 1, 3, 4, 5) -/

def Endpoint.empty : Endpoint := { entries := [], reserved := 0, error := false, waiters := [] }

def Flight.endpoint (f : Flight) (cls : Nat) : Endpoint := tgetD Endpoint.empty f.ends cls

/-- R258, R278, R308: an endpoint holds 16 entries. -/
def endCap : Nat := 16

/-- Entries that are neither held nor reserved. -/
def Endpoint.space (e : Endpoint) : Nat := endCap - (e.entries.length + e.reserved)

def Flight.modEnd (f : Flight) (cls : Nat) (u : Endpoint → Endpoint) : Flight :=
  { f with ends := tmodD Endpoint.empty f.ends cls u }

def State.modEnd (s : State) (fk cls : Nat) (u : Endpoint → Endpoint) : State := s.modFlight fk (·.modEnd cls u)

def QueueReg.unbound : QueueReg := { bound := none, status := 0, pend := none, credit := 0, made := 0 }

def Flight.qreg (f : Flight) (q : Nat) : QueueReg := tgetD QueueReg.unbound f.queues q

def State.modQ (s : State) (fk q : Nat) (u : QueueReg → QueueReg) : State :=
  s.modFlight fk (fun f => { f with queues := tmodD QueueReg.unbound f.queues q u })

/-- R278: the error entry. -/
def errorEntry : Entry := { slots := List.replicate 8 0x80008000, valid := 0xFF }

/-- Take away the leases of a pending pop. -/
def Thread.endPopLease (t : Thread) (q : Nat) : Thread := { t with leases := t.leases.filter (fun l => l.by_ ≠ .pop q) }

/-- The lanes of a waiting group that are outside G go on with the others (R96). -/
def State.passPop (s : State) (fk : Nat) (p : PendingPop) : State :=
  (p.group.filter (fun l => !p.lanes.contains l)).foldl (fun s l => s.modThread fk l (fun t =>
    if t.cond = .running ∧ t.pc = p.start then { t.tick with pc := p.npc, held := none } else t)) s

/-- A pending pop is served: its registers are written, its lease ends, its group goes on (R220). -/
def State.servePop (s : State) (fk q : Nat) (p : PendingPop) (f : Nat → Thread → Thread) : State :=
  ((p.lanes.foldl (fun s l => s.modThread fk l (fun t =>
    { ((f l t).endPopLease q).tick with pc := p.npc, held := none })) (s.leaveHints fk p.group)).passPop fk p).modQ fk q (fun r => { r with pend := none })

/-- The thread takes its slot of an entry (R220). -/
def Thread.takeSlot (e : Entry) (reg lane : Nat) (t : Thread) : Thread :=
  if e.valid.getLsbD lane then t.setReg reg (e.slots.getD lane 0) else t

/-- R283: both halves of a slot clamped to [-T, T]. -/
def clampVotes (t : Nat) (w : Word) : Word :=
  let c := fun (h : Nat) => max (-(t : Int)) (min (t : Int) (sign h 16))
  BitVec.ofNat 32 ((c (w.toNat / 65536) % 65536).toNat * 65536 + (c (w.toNat % 65536) % 65536).toNat)

/-- The Colonnade at its partition-reset state (R271). -/
def Clac.fresh : Clac :=
  { rest := 127, counters := [], plane := [], other := [], cfg := 0x20100000, table := [], seed := 0, step := 0, cmds := [],
    failed := false, cfgd := false }

/-- A Colonnade that leaves the retain state: all of it zero (R434). -/
def Clac.zero : Clac := { Clac.fresh with rest := 0, cfg := 0 }

def State.clac (s : State) (core : Nat) : Clac := tgetD Clac.fresh s.clacs core
def State.modClac (s : State) (core : Nat) (u : Clac → Clac) : State := { s with clacs := tmodD Clac.fresh s.clacs core u }

/-- R270: the threshold T of a configuration word. -/
def cfgThr (w : Word) : Nat := bits w.toNat 20 8

/-- An entry delivered to a pending pop: plain, or clamped by cla.vote, which traps on an error entry (R283). -/
def State.deliver (s : State) (fk q : Nat) (p : PendingPop) (e : Entry) : State :=
  let core := match tget s.landings (landingOf fk) with
    | some l => l.core
    | none => 0
  match p.kind with
  | .vote =>
    if e = errorEntry then
      let s1 := p.lanes.foldl (fun s l => s.modThread fk l (fun t => t.endPopLease q)) (s.leaveHints fk p.group)
      ((s1.passPop fk p).modQ fk q (fun r => { r with pend := none })).trapHeld fk p.lanes p.start p.npc (trap .engineError 3)
    else
      let t := cfgThr (s.clac core).cfg
      s.servePop fk q p (Thread.takeSlot { e with slots := e.slots.map (clampVotes t) } p.reg)
  | _ => s.servePop fk q p (Thread.takeSlot e p.reg)

/-- Serve the pending pops of an endpoint while it holds entries, in the order it accepted them. -/
def State.serveEnd (s : State) (fk cls : Nat) : Nat → State
  | 0 => s
  | n + 1 =>
    match tget s.flights fk with
    | none => s
    | some f =>
      let e := f.endpoint cls
      match e.waiters, e.entries with
      | q :: qs, x :: xs =>
        match (f.qreg q).pend with
        | none => State.serveEnd (s.modEnd fk cls (fun e => { e with waiters := qs })) fk cls n
        | some p =>
          State.serveEnd ((s.modEnd fk cls (fun e => { e with waiters := qs, entries := xs })).deliver fk q p x) fk cls n
      | _, _ => s

/-- Post an entry to an endpoint of a flight; `held` says that a reserved entry is used. The endpoints are discarded with their
flight at a phase boundary: an operation accepted in an earlier spell posts nothing, before or after the resumption (R348, R356). -/
def State.postEntry (s : State) (fk cls spell : Nat) (held : Bool) (e : Entry) : State :=
  match tget s.flights fk, tget s.landings (landingOf fk) with
  | some _, some ld =>
    if ld.spell != spell || (tget s.treads ld.tid).any (·.spilledOut ld) then s
    else
      (s.modEnd fk cls (fun x =>
        { x with entries := x.entries ++ [e], reserved := if held then x.reserved - 1 else x.reserved })).serveEnd fk cls 17
  | _, _ => s

/-! ## Hall message queues (R296, R297) -/

/-- Move credits of a queue. -/
def State.modHq (s : State) (base : Nat) (u : HallQueue → HallQueue) : State := { s with hqueues := tmod s.hqueues base u }

/-- R297: U reaching 256 returns 256 credits. -/
def HallQueue.autoFree (h : HallQueue) : HallQueue :=
  if 256 ≤ h.unret then { h with unret := h.unret - 256, pool := h.pool + 256 } else h

/-- The entries held. -/
def HallQueue.held (h : HallQueue) : Nat := h.tail - h.head

/-- The place of entry number `i`. -/
def HallQueue.slot (h : HallQueue) (base i : Nat) : Nat := base + 16 * (i % 2 ^ h.cap)

/-- The four words of an entry. -/
def entryWords (m : List Host.Cell) (a : Nat) : List Word :=
  (List.range 4).map (fun i => BitVec.ofNat 32 (ofBytesLE (readCells m (a + 4 * i) 4)))

/-- Serve the pending takes of a queue, oldest first, while it holds enough entries (R299). -/
def State.serveHq (s : State) (base : Nat) : Nat → State
  | 0 => s
  | n + 1 =>
    match tget s.hqueues base with
    | none => s
    | some h =>
      match h.takers with
      | [] => s
      | (fk, q) :: ts =>
        match (tget s.flights fk).bind (fun f => (f.qreg q).pend) with
        | none => State.serveHq (s.modHq base (fun h => { h with takers := ts })) base n
        | some p =>
          if h.held < p.lanes.length then s
          else
            let k := p.lanes.length
            let s1 := s.servePop fk q p (fun l t =>
              t.setRegs p.reg (entryWords s.mem.hall (h.slot base (h.head + (p.lanes.findIdx (· == l))))))
            State.serveHq (s1.modHq base (fun h =>
              ({ h with takers := ts, head := h.head + k, unret := h.unret + k } : HallQueue).autoFree)) base n

/-- R297: one grant to the oldest request of a queue. -/
def State.grantCredit (s : State) (base : Nat) : State :=
  match tget s.hqueues base with
  | none => s
  | some h =>
    match h.reqs with
    | [] => s
    | r :: rs =>
      let g := min (max h.batch r.need) h.pool
      let rest := if r.need ≤ g then rs else { r with need := r.need - g } :: rs
      (s.modHq base (fun h => { h with pool := h.pool - g, reqs := rest })).modQ r.fk r.q
        (fun x => { x with credit := x.credit + g })

def execCreditGrant (base : Nat) (s : State) : Out := .next (s.grantCredit base)

/-- R300: the accesses of some lanes of a flight numbered below `upto` are performed. -/
def State.releasedUpto (s : State) (fk : Nat) (lanes : List Nat) (upto : Nat) : Bool :=
  s.mem.accs.all (fun a => !(a.fk == fk && lanes.contains a.lane && decide (a.id < upto)) || s.mem.performed a)

/-- Write the entries of a post into the storage of its queue. -/
def placeEntries (h : HallQueue) (base : Nat) : Nat → List (List Word) → State → State
  | _, [], s => s
  | i, e :: es, s =>
    placeEntries h base (i + 1) es (s.applyHall (h.slot base i) (e.flatMap (fun w => bytesLE 4 w.toNat)))

/-- R299: the entries of a post reach their queue, in order of the posts of a binding, once the poster's earlier accesses are
performed, and with them what its WAITs have covered (R300, R377). The entries of a post to a queue deleted meanwhile go with
it. -/
def State.hpostDone (s : State) (i : Nat) : State :=
  match s.posts[i]? with
  | none => s
  | some p =>
    if (s.posts.take i).any (fun x => x.who.fk == p.who.fk && x.q == p.q && x.base == p.base && x.made == p.made)
        || !s.releasedUpto p.who.fk p.lanes p.upto || !s.mem.covers (p.who.core / 48) p.clock then s
    else
      let s1 := ({ s with posts := s.posts.eraseIdx i } : State).completeOp p.who.fk .st p.op
      match (tget s.hqueues p.base).filter (fun h => h.made == p.made) with
      | none => s1
      | some h =>
        let s2 := placeEntries h p.base h.tail p.entries s1
        (s2.modHq p.base (fun h => { h with tail := h.tail + p.entries.length })).serveHq p.base (h.takers.length + 1)

def execHpostComplete (i : Nat) (s : State) : Out := .next (s.hpostDone i)

/-! ## Unbinding (R222, R224, R297) -/

/-- Forget a pending pop: the lease ends, the group tries again. -/
def State.cancelPop (s : State) (fk q : Nat) : State :=
  match (tget s.flights fk).map (fun f => f.qreg q) with
  | none => s
  | some r =>
    match r.pend with
    | none => s
    | some p =>
      let s1 := p.lanes.foldl (fun s l => s.modThread fk l (fun t => { t.endPopLease q with held := none })) s
      let s2 := s1.modQ fk q (fun r => { r with pend := none })
      match r.bound with
      | some (8, b) => s2.modHq b (fun h => { h with takers := h.takers.filter (· ≠ (fk, q)) })
      | some (6, n) => { s2 with rings := tmod s2.rings n (fun x => { x with waiters := x.waiters.filter (· ≠ (fk, q)) }) }
      | some (7, n) => { s2 with chans := tmod s2.chans n (fun x => { x with waiters := x.waiters.filter (· ≠ (fk, q)) }) }
      | some (c, _) => s2.modEnd fk c (fun e => { e with waiters := e.waiters.filter (· ≠ q) })
      | none => s2

/-- Return the unspent credits of a binding and drop its requests (R297). -/
def State.returnCredits (s : State) (fk q : Nat) : State :=
  match (tget s.flights fk).map (fun f => f.qreg q) with
  | none => s
  | some r =>
    match r.bound with
    | some (8, b) =>
      (s.modHq b (fun h => if h.made != r.made then h else
        { h with pool := h.pool + r.credit
                 reqs := h.reqs.filter (fun x => !(x.fk == fk && x.q == q)) })).modQ fk q (fun r => { r with credit := 0 })
    | _ => s

/-- Cancel, return, unbind. -/
def State.unbindQ (s : State) (fk q : Nat) : State :=
  ((s.cancelPop fk q).returnCredits fk q).modQ fk q (fun r => { r with bound := none })

/-- The creation number of the hall queue of a binding. -/
def State.madeOf (s : State) (b : Nat × Nat) : Nat :=
  if b.1 = 8 then (match tget s.hqueues b.2 with
    | some h => h.made
    | none => 0) else 0

/-- The binding of a queue register, if any; a binding to a deleted hall queue behaves as unbound (R299). -/
def State.binding (s : State) (f : Flight) (q : Nat) : Option (Nat × Nat) :=
  match (f.qreg q).bound with
  | some (8, b) => if (tget s.hqueues b).any (fun h => h.made == (f.qreg q).made) then some (8, b) else none
  | x => x

end Sys2Proof.Machine
end

