-- ==== Sys2Proof/Machine/Engine.lean ====
section
/-!
DEFINITION. How an engine of a core reads and writes memory (19_ordering.md R377; 11_matrix.md R255; 14_cluster.md R307,
R312, R315): by segments of one tile, at the home of each byte, every tile checked as it is met.
-/

namespace Sys2Proof.Machine

/-- An engine at work: the machine, the clock of what it has read and written, the first failure by address: cause or
end code, address, whether a write failed. -/
structure Work where
  st    : State
  clock : List Nat
  err   : Option (Nat × DWord × Bool)
  deriving DecidableEq, Repr

/-- What an engine may reach: its core, the cores of its partition, the leases of its tread, its cache policy; the nest of the tread,
for a failure that is met (R419). -/
structure Reach where
  by_    : Option (Nat × Nat)
  core   : Nat
  cores  : List Nat
  leases : List LeaseRange
  cache  : Nat
  copies : Bool                 -- it is a copy: R312 and R315 let it write a whole tile, and write directly
  deriving DecidableEq, Repr

/-- The reach of the issuer of an operation. -/
def State.reach (s : State) (w : Issuer) (cache : Nat) : Reach :=
  match tget s.treads w.tid with
  | some t => { by_ := some (t.run, t.nest), core := w.core, cores := s.coresOf t.part, leases := t.leases, cache := cache, copies := false }
  | none => { by_ := none, core := w.core, cores := [], leases := [], cache := cache, copies := false }

def Work.start (s : State) : Work := { st := s, clock := [0, 0, 0, 0], err := none }

/-- A fill for an engine: a failure that it finds is met by the tread of its operation. -/
def Memory.fillFor (m : Memory) (by_ : Option (Nat × Nat)) (t k prio : Nat) : Memory :=
  { ({ m with meeter := by_ } : Memory).fill t k prio with meeter := m.meeter }

/-- Record a failure, if none is recorded at a lower address. -/
def Work.fail (k : Work) (code : Nat) (a : DWord) (w : Bool) : Work :=
  match k.err with
  | some (_, b, _) => if a.toNat < b.toNat then { k with err := some (code, a, w) } else k
  | none => { k with err := some (code, a, w) }

/-- R294: [a, a + n) lies in valid slices of the partition. -/
def hallValid (cores : List Nat) (core a n : Nat) : Bool :=
  n == 0 || (decide (a + n ≤ 2 ^ 26) &&
    (List.range ((a + n - 1) / 2 ^ 21 - a / 2 ^ 21 + 1)).all (fun i =>
      decide (a / 2 ^ 21 + i < 24) && cores.contains (24 * (core / 24) + a / 2 ^ 21 + i)))

/-- R263, R306: [a, a + n) lies in one valid slice. -/
def oneSlice (cores : List Nat) (core a n : Nat) : Bool :=
  hallValid cores core a (max n 1) && decide ((a + max n 1 - 1) / 2 ^ 21 = a / 2 ^ 21)

/-- The engine goes on with another memory. -/
def Work.on (k : Work) (m : Memory) : Work := { k with st := { k.st with mem := m } }

/-- R377, R312: read a segment of one tile, or say which cause or end code stops it. -/
def Work.readSeg (k : Work) (r : Reach) (va n : Nat) : Work × Except Nat (List Byte) :=
  match leaseFor r.leases va n true false with
  | none => (k, .error 0x40)
  | some l =>
    match leasePage l va with
    | none => (k, .error 0x40)
    | some p =>
      let x := p.at_ va
      let m := k.st.mem.cacheWalk r.core va p
      if p.host then
        if !m.linkUp || (List.range (n / 64 + 2)).any (fun i => decide (x.2 / 64 + i ≤ (x.2 + n - 1) / 64) && m.hostBad.contains (x.2 / 64 + i))
        then (k, .error 0x0E) else (k, .ok (m.atHome .host x.2 p.key n))
      else
        let m1 := (m.fillFor r.by_ (tileOf x.2) p.key r.cache).touch (tileOf x.2) p.key r.cache
        match m1.resident? (tileOf x.2) p.key with
        | none => (k.on m1, .error 0x0C)
        | some e =>
          let k1 := k.on m1
          if e.uncorr then (k.on (m1.knowUncorr (tileOf x.2)), .error 0x0E)
          else if e.poisoned then (k1, .error 0x0C)
          else ({ k1 with clock := joinClock k1.clock (clockAt (homeDie x.2) (m1.stampOf x.2 n)) },
                .ok (m1.atHome .stack x.2 p.key n))

/-- Read bytes from the global space, segment by segment; the bytes of a segment that fails read as 0 and the failure
is recorded. -/
def Work.readGlobal (k : Work) (r : Reach) (va : DWord) (n : Nat) : Work × List Byte :=
  if n = 0 then (k, [])
  else if !isCanon va || !isCanon (va + BitVec.ofNat 64 (n - 1)) then (k.fail 0x40 va false, List.replicate n 0)
  else (tileSegs (va57 va) n).foldl (fun acc p =>
    match acc.1.readSeg r p.1 p.2 with
    | (k1, .ok bs) => (k1, acc.2 ++ bs)
    | (k1, .error c) => (k1.fail c (canon (BitVec.ofNat 64 p.1)) false, acc.2 ++ List.replicate p.2 0)) (k, [])

/-- Read bytes of hall memory of the engine's cluster. -/
def Work.readHall (k : Work) (r : Reach) (a : Nat) (n : Nat) : Work × List Byte :=
  if !hallValid r.cores r.core a n then (k.fail 0x43 (BitVec.ofNat 64 a) false, List.replicate n 0)
  else
    let b := hallKey r.core a
    match (k.st.mem.hallBad.filter (fun x => decide (b ≤ x) && decide (x < b + n))) with
    | x :: _ => (k.fail 0x0E (BitVec.ofNat 64 (a + (x - b))) false, readCells k.st.mem.hall b n)
    | [] => (k, readCells k.st.mem.hall b n)

/-- A write of the engine is applied at its home, which stamps it. -/
def Work.stamped (k : Work) (pa : Nat) (a : State × Nat) : Work :=
  { k with st := a.1, clock := joinClock k.clock (clockAt (homeDie pa) a.2) }

/-- R315, R417: a copy under `.cnoa` writes an absent tile in its stack: a whole one afresh, part of one by verify, merge and
re-encrypt. A check that fails leaves the tile as it is. -/
def Work.writeDirect (k : Work) (by_ : Option (Nat × Nat)) (m0 : Memory) (p : PageMap) (pa : Nat) (bs : List Byte) : Work × Option Nat :=
  let t := tileOf pa
  let m := m0.dropOther t p.key
  let whole := bs.length == 4096
  let d := if whole then 0 else m.fillFault t p.key
  if m.exhausted t p.key then (k.on m, some 0x0D)
  else if !whole && m.poisoned t p.key then (k.on m, some 0x0C)
  else if d ≠ 0 then (k.on { m with found := m.found ++ [(t, d, by_)] }, some (if d = 1 then 0x0C else 0x0E))
  else
    let m1 := if whole then m else m.readRows t p.key
    let m2 := m1.sealTile t p.key (writeCells (if whole then [] else m.tileData t p.key) (pa % 4096) bs)
    (k.stamped pa (({ k.st with mem := m2 } : State).stampWrite pa p.key bs false), none)

/-- R312: a poisoned entry that one copy overwrites. -/
def Memory.heal (m : Memory) (t : Nat) : Memory :=
  { m with gallery := tmod m.gallery t (fun e => { e with dirty := e.dirty || e.poisoned, poisoned := false, uncorr := false }) }

/-- Write a segment of one tile. A copy that covers the whole tile makes a poisoned entry dirty (R312). -/
def Work.writeSeg (k : Work) (r : Reach) (va : Nat) (bs : List Byte) : Work × Option Nat :=
  let n := bs.length
  match leaseFor r.leases va n false true with
  | none => (k, some 0x40)
  | some l =>
    match leasePage l va with
    | none => (k, some 0x40)
    | some p =>
      let x := p.at_ va
      let m := k.st.mem.cacheWalk r.core va p
      let t := tileOf x.2
      if p.host then
        if !m.linkUp then (k, some 0x0E) else ({ k with st := ({ k.st with mem := m } : State).applyHost x.2 bs }, none)
      else if r.copies && r.cache == 3 && (m.resident? t p.key).isNone then k.writeDirect r.by_ m p x.2 bs
      else
        let m1 := m.fillFor r.by_ t p.key r.cache
        let whole := r.copies && n == 4096
        if m1.exhausted t p.key then (k.on m1, some 0x0D)
        else if !whole && m1.poisoned t p.key then
          (k.on (m1.knowUncorr t), some (if (m1.resident? t p.key).any (·.uncorr) then 0x0E else 0x0C))
        else
          (k.stamped x.2 (({ k.st with mem := if whole then m1.heal t else m1 } : State).applyGlobal x.2 p.key r.cache bs false), none)

/-- Write bytes to the global space, segment by segment; a segment that fails writes nothing. -/
def Work.writeGlobal (k : Work) (r : Reach) (va : DWord) (bs : List Byte) : Work :=
  if bs.isEmpty then k
  else if !isCanon va || !isCanon (va + BitVec.ofNat 64 (bs.length - 1)) then k.fail 0x40 va true
  else ((tileSegs (va57 va) bs.length).foldl (fun (acc : Work × List Byte) p =>
    match acc.1.writeSeg r p.1 (acc.2.take p.2) with
    | (k1, none) => (k1, acc.2.drop p.2)
    | (k1, some c) => (k1.fail c (canon (BitVec.ofNat 64 p.1)) true, acc.2.drop p.2)) (k, bs)).1

/-- Write bytes to hall memory of the engine's cluster: written bytes have no error any more. -/
def Work.writeHall (k : Work) (r : Reach) (a : Nat) (bs : List Byte) : Work :=
  if !hallValid r.cores r.core a bs.length then k.fail 0x43 (BitVec.ofNat 64 a) true
  else
    let b := hallKey r.core a
    let s1 := k.st.applyHall b bs
    { k with st := { s1 with mem := { s1.mem with
        hallBad := s1.mem.hallBad.filter (fun x => !(decide (b ≤ x) && decide (x < b + bs.length))) } } }

/-- R263, R264: write to an area in which an uncorrectable error ends the tread. -/
def Work.storeHall (k : Work) (r : Reach) (a : Nat) (bs : List Byte) : Work :=
  let b := hallKey r.core a
  match k.st.mem.hallBad.filter (fun x => decide (b ≤ x) && decide (x < b + bs.length)) with
  | x :: _ => { k with st := k.st.applyHall b bs }.fail 0x0E (BitVec.ofNat 64 (a + (x - b))) true
  | [] => k.writeHall r a bs

/-- The failure of an operation without a completion entry ends its tread (R109). -/
def Work.settle (k : Work) (w : Issuer) : State :=
  match k.err with
  | some (c, a, wr) => k.st.endByEngine w c wr a
  | none => k.st

end Sys2Proof.Machine
end

