-- ==== Sys2Proof/Machine/Matrix.lean ====
section
/-!
DEFINITION. The matrix engine (11_matrix.md): formats, tensor records and TREC, convergence registers and signing
(10_core.md R225–R227), MMA, the accumulator operations, and their execution at MMA_COMPLETE and ACC_COMPLETE.
-/

namespace Sys2Proof.Machine

/-! ## Formats (R241, R242) -/

/-- The floating format of a code. -/
def mxFmt (c : Nat) : Fmt :=
  match c with
  | 0 => e2m1
  | 3 => e4m3
  | 4 => e5m2
  | 7 => bf16
  | _ => fp16

/-- The width of a format code. -/
def mxWidth (c : Nat) : Nat := if c ≤ 2 then 4 else if c ≤ 6 then 8 else 16

/-- Codes of the unsigned and of the integer formats. -/
def mxInt (c : Nat) : Bool := c == 1 || c == 2 || c == 5 || c == 6
def mxScaled (c : Nat) : Bool := c == 0 || c == 3 || c == 4

/-- The fields of a format word. -/
def fwA (w : Word) : Nat := bits w.toNat 0 4
def fwB (w : Word) : Nat := bits w.toNat 4 4
def fwBs (w : Word) : Bool := bit w.toNat 14
def fwSat (w : Word) : Bool := bit w.toNat 15
def fwAcct (w : Word) : Bool := bit w.toNat 13

/-- R242: the K of a permitted format word for member `fn` (0 mma, 1 mma.bs, 2 mma.z); none where it is not permitted. -/
def shapeK (w : Word) (fn : Nat) : Option Nat :=
  let a := fwA w
  let b := fwB w
  let four := mxWidth a == 4 && mxWidth b == 4
  if bits w.toNat 16 16 ≠ 0 ∨ bits w.toNat 8 5 ≠ 0 then none
  else if (fn = 0 ∧ fwBs w) ∨ (fn = 1 ∧ !fwBs w) then none
  else if mxScaled a && mxScaled b && !fwAcct w then some (if four then 128 else 64)
  else if mxInt a && mxInt b && fwAcct w && !fwBs w && !fwSat w then some (if four then 128 else 64)
  else if a = b ∧ (a = 7 ∨ a = 8) ∧ !fwAcct w ∧ !fwBs w then some 32
  else none

/-- R242: the registers of an A row. -/
def rowRegs (w : Word) (k : Nat) : Nat := k * mxWidth (fwA w) / 32

/-! ## Tensor records (R248–R251) -/

/-- A little-endian field of a record. -/
def field (bs : List Byte) (o n : Nat) : Nat := ofBytesLE ((bs.drop o).take n)

/-- The record in 128 bytes (R248). -/
def tensorOf (bs : List Byte) : Tensor :=
  let c := field bs 0 4
  { hall := bit c 3, fmt := bits c 4 4, tk := bits c 8 8, rank := bits c 0 3, base := field bs 8 8,
    dims := (List.range 5).map (fun i => field bs (0x10 + 4 * i) 4),
    strides := (List.range 4).map (fun i => sign (field bs (0x28 + 8 * i) 8) 64), scale := field bs 0x48 8 }

def Tensor.dim (t : Tensor) (i : Nat) : Nat := t.dims.getD i 0
/-- A dimension above the rank counts as 1 (R249). -/
def Tensor.outer (t : Tensor) (i : Nat) : Nat := if i < t.rank then t.dim i else 1
def Tensor.nK (t : Tensor) : Nat := t.dim 1 / t.tk
def Tensor.nN (t : Tensor) : Nat := t.dim 0 / 128
/-- R249: the tile count. -/
def Tensor.count (t : Tensor) : Nat := t.nK * t.nN * t.outer 2 * t.outer 3 * t.outer 4

/-- R250: an address of the record's space is well placed. -/
def Tensor.spaceOk (t : Tensor) (cores : List Nat) (core a : Nat) : Bool :=
  if t.hall then decide (a < 2 ^ 32) && hallValid cores core a 1 else isCanon (BitVec.ofNat 64 a)

/-- R250, R254: the status of a record: the lowest code of the checks that fail. -/
def Tensor.status (t : Tensor) (cores : List Nat) (core : Nat) : Nat :=
  let w := mxWidth t.fmt
  let needs := t.fmt ≤ 8 && mxScaled t.fmt
  if t.rank < 2 ∨ 5 < t.rank then 1
  else if 8 < t.fmt then 2
  else if !((w == 16 && t.tk == 32) || (w == 8 && t.tk == 64) || (w == 4 && (t.tk == 64 || t.tk == 128))) then 3
  else if t.dim 0 = 0 ∨ t.dim 0 % 128 ≠ 0 ∨ t.dim 1 = 0 ∨ t.dim 1 % t.tk ≠ 0 ∨
      (List.range 5).any (fun i => if i < t.rank then t.dim i == 0 else t.dim i != 0) then 4
  else if t.base % 64 ≠ 0 ∨ t.strides.any (fun x => x % 64 != 0) ∨ (needs ∧ t.scale % 64 ≠ 0) then 5
  else if !t.spaceOk cores core t.base || (needs && !t.spaceOk cores core t.scale) then 6
  else if 2 ^ 32 - 1 < t.count then 7
  else 0

/-- The 128 bytes of a record at a hall address. -/
def recordAt (m : Memory) (core a : Nat) : List Byte := readCells m.hall (hallKey core a) 128

/-- R251: the record check of a round; the record where it passes. The rule does not say what an uncorrectable hall error in the
record's bytes does to the check: the model uses the bytes as they stand (DESIGN CHOICE, log entry 85). -/
def recordCheck (s : State) (core : Nat) (cores : List Nat) (fw : Word) (k : Nat) (handle index : Word) : Option Tensor :=
  let a := handle.toNat
  if a % 128 ≠ 0 ∨ !hallValid cores core a 128 then none
  else
    let bs := recordAt s.mem core a
    let t := tensorOf bs
    if bit (field bs 0 4) 31 && t.fmt == fwB fw && t.tk == k && decide (2 ≤ t.rank) && decide (t.rank ≤ 5)
        && decide (128 ≤ t.dim 0) && decide (t.tk ≤ t.dim 1)
        && (List.range 5).all (fun i => decide (i < 2) || decide (t.rank ≤ i) || decide (1 ≤ t.dim i))
        && decide (index.toNat < field bs 4 4) then some t
    else none

/-- R254: the registers of a member of TREC. -/
def trecUses (fn : Nat) (d a b : BitVec 6) : List RegUse := if fn = 2 then [one d, one a, one b] else [one d, one a]

/-- R254: the record's address is checked as a 128-byte hall access. -/
def trecCheck (fn : Nat) (a : BitVec 6) (c : Ctx) (s : State) (t : Thread) : Checked :=
  checkHall c (s.coresOf c.tr.part) s.mem t (t.reg a.toNat) 128 (fn == 0)

/-- R202, R254, R377: the record's relaxed load, and for trec.mk its 8-byte store, may act now. -/
def trecMayGo (fn : Nat) (c : Ctx) (s : State) (lane : Nat) (l : Loc) : Bool :=
  slotMayGo c s lane .load false 128 l && (fn != 0 || slotMayGo c s lane .store false 8 l)

/-- R254: one lane of TREC, held until its access may act; lanes act in ascending order, so a lane held so holds those above it.
trec.mk writes the reserved bits of the control word as zeros (R4). The access ends a constrained sequence (R99). -/
def trecLane (c : Ctx) (fn : Nat) (d a b : BitVec 6) (acc : State × List (Nat × Res)) (lane : Nat) :
    State × List (Nat × Res) :=
  let s := acc.1
  match s.thread? c.fk lane with
  | none => acc
  | some t =>
    match regTrap c.ld.regs t (trecUses fn d a b) with
    | some x => (s, acc.2 ++ [(lane, .trap x)])
    | none =>
      match trecCheck fn a c s t with
      | .bad r => (s, acc.2 ++ [(lane, r)])
      | .lost _ r => (s, acc.2 ++ [(lane, r)])
      | .miss _ => (s, acc.2 ++ [(lane, .hold .access)])
      | .cross => (s, acc.2 ++ [(lane, .hold .access)])
      | .ok l =>
        if acc.2.any (fun r => r.2 == .hold .result) || !trecMayGo fn c s lane l then (s, acc.2 ++ [(lane, .hold .result)])
        else
        let done := fun (s : State) (v : Word) =>
          (s.modThread c.fk lane (fun t => { t.setReg d.toNat v with lrsc := none, crossed := none }), acc.2 ++ [(lane, Res.done)])
        let bs := recordAt s.mem c.ld.core (t.reg a.toNat).toNat
        let rec_ := tensorOf bs
        let st := rec_.status (s.coresOf c.tr.part) c.ld.core
        let n := field bs 4 4
        match fn with
        | 0 =>
          let ctl := field bs 0 4 % 2 ^ 16 + (if st = 0 then 2 ^ 31 else 0)
          let s1 := s.applyHall l.addr (bytesLE 4 ctl ++ bytesLE 4 (if st = 0 then rec_.count else 0))
          done s1 (BitVec.ofNat 32 st)
        | 1 => done s (BitVec.ofNat 32 st)
        | _ =>
          let v : Word := if bit (field bs 0 4) 31 && n != 0
            then BitVec.ofNat 32 (((t.reg b.toNat).toNat + 1) % n) else 0xFFFFFFFF
          done s v

def trec (fn : Nat) (d a b : BitVec 6) (g : BitVec 3) (s : State) : Out :=
  .next (issue s HintUse.none g (fun c ls s =>
    if anyAwaits s c.fk [d.toNat, a.toNat, b.toNat] ls then (s, [(ls.headD 0, .hold .register)])
    else
      match (checkLanes (trecUses fn d a b) (trecCheck fn a) c ls s).hold c ls s with
      | some (s1, st) => (s1, [(ls.headD 0, .hold st)])
      | none => ls.foldl (trecLane c fn d a b) (s, [])))

def execTrecMk (d a : BitVec 6) (g : BitVec 3) (s : State) : Out := trec 0 d a a g s
def execTrecChk (d a : BitVec 6) (g : BitVec 3) (s : State) : Out := trec 1 d a a g s
def execTrecStep (d a b : BitVec 6) (g : BitVec 3) (s : State) : Out := trec 2 d a b g s

/-! ## Convergence registers (R225–R227, R244–R246) -/

def Conv.empty : Conv := { decl := none, signs := [], gen := 0 }

def Landing.convOf (l : Landing) (c : Nat) : Conv := tgetD Conv.empty l.conv c
def State.modConv (s : State) (lid c : Nat) (u : Conv → Conv) : State :=
  s.modLanding lid (fun l => { l with conv := tmodD Conv.empty l.conv c u })

/-- The size of a size code. -/
def setSize (z : Nat) : Nat := 2 ^ z

/-- A flight belongs to a declared set. -/
def inSet (d : Nat × Nat) (f : Nat) : Bool := decide (d.1 ≤ f) && decide (f < d.1 + setSize d.2)

/-- The threads of a declared set that have neither signed nor exited and lie in a flight of the landing (R227). -/
def Conv.left (v : Conv) (s : State) (lid : Nat) (ld : Landing) (d : Nat × Nat) : Nat :=
  (((List.range (setSize d.2)).filter (fun i => decide (d.1 + i < ld.flights))).map (fun i =>
    (lanes8.filter (fun l =>
      match s.thread? (32 * lid + d.1 + i) l with
      | some t => t.cond != .exited && !v.signs.any (fun x => x.thread == 8 * (d.1 + i) + l)
      | none => false)).length)).foldl (· + ·) 0

/-- Release the latch of a convergence register (R244). -/
def State.dropLatch (s : State) (core lid c : Nat) : State :=
  { s with latches := tmodD [] s.latches core (fun ls => ls.filter (fun x => !(x.lid == lid && x.c == c))) }

/-- Release every latch of a landing (R244). -/
def State.dropLatches (s : State) (core lid : Nat) : State :=
  { s with latches := tmodD [] s.latches core (fun ls => ls.filter (fun x => x.lid != lid)) }

def State.latchOf (s : State) (core lid c : Nat) : Option Latch :=
  (tgetD [] s.latches core).find? (fun x => x.lid == lid && x.c == c)

/-- The engine keeps 16 latches, the least recently used gives way (R244). -/
def State.keepLatch (s : State) (core : Nat) (x : Latch) : State :=
  { s with latches := tmodD [] s.latches core (fun ls =>
      let r := ls.filter (fun y => !(y.lid == x.lid && y.c == x.c))
      (if 16 ≤ r.length then r.drop 1 else r) ++ [x]) }

/-- The rows of `new` replace or join those of `old`. -/
def joinRows (old new : List ARow) : List ARow := old.filter (fun r => !new.any (fun x => x.row == r.row)) ++ new

/-- The rows that the latch of a round holds. -/
def Signature.heldRows (p : Signature) : List ARow := p.latch.elim [] (·.rows)

/-- R244: what an accepted operation does to the latch of its register: the rows that the latch of its round did not hold join those
it held. -/
def State.useLatch (s : State) (core lid c : Nat) (p : Signature) (rows : List ARow) : State :=
  if !p.reuse then s.dropLatch core lid c
  else
    s.keepLatch core { lid := lid, c := c, abase := p.abase, afmt := fwA p.fmt,
                       rows := joinRows p.heldRows (rows.filter (fun r => !p.heldRows.any (fun x => x.row == r.row))) }

/-- The rows of a block-scaled operation. A row that its latch holds without a scale, since a plain operation made it, is neither
read nor checked (R244), and the rules give it no scale: a free value (DESIGN CHOICE, log entry 84). -/
def scaledRows (n : Nat) (rows : List ARow) : List ARow :=
  rows.map (fun r => { r with scale := some (r.scale.getD (Config.latchScale n r.row)) })

/-- R244: a row with the registers that the operation's K takes. One that was latched at half of them, by a 4-bit A format with an 8-bit
B format, gives no value to the other elements: free values (DESIGN CHOICE, log entry 84). -/
def ARow.filled (n regs : Nat) (r : ARow) : ARow :=
  { r with words := r.words ++ (List.range (regs - r.words.length)).map (fun i => Config.latchWord n r.row (r.words.length + i)) }

/-- R243, R244: the rows of an operation, from the rows signed. -/
def roundRows (n : Nat) (fmt : Word) (k : Nat) (rows : List ARow) : List ARow :=
  let full := rows.map (ARow.filled n (rowRegs fmt k))
  if fwBs fmt then scaledRows n full else full

/-- The operation takes a free scale or register. -/
def takesFree (p : Signature) (k : Nat) (rows : List ARow) : Bool :=
  (fwBs p.fmt && rows.any (·.scale.isNone)) || rows.any (fun r => decide (r.words.length < rowRegs p.fmt k))

/-- Close a round: the signatures clear, the generation increments (R227, R246). -/
def State.closeRound (s : State) (lid c : Nat) : State :=
  s.modConv lid c (fun v => { v with signs := [], gen := (v.gen + 1) % 256 })

/-- Signatures by ascending thread. -/
def insertSign (p : Signature) : List Signature → List Signature
  | [] => [p]
  | q :: qs => if p.thread ≤ q.thread then p :: q :: qs else q :: insertSign p qs

def byThread (ss : List Signature) : List Signature := ss.foldr insertSign []

/-- The lanes that trap with a signer: the signers of its flight at the same mma (R106). -/
def trapMates (ss : List Signature) (p : Signature) : Byte :=
  laneMask ((ss.filter (fun q => q.thread / 8 == p.thread / 8 && q.pc == p.pc && q.npc == p.npc)).map (fun q => q.thread % 8))

/-- The signers of a round go on, or trap, at their own `mma` (R246), the lowest thread first (R109). -/
def State.releaseSigners (s0 : State) (lid : Nat) (ss : List Signature) (x : Option Trap) : State :=
  let s := ss.foldl (fun s p => s.leaveHints (32 * lid + p.thread / 8) [p.thread % 8]) s0
  match x with
  | none => ss.foldl (fun s p => s.modThread (32 * lid + p.thread / 8) (p.thread % 8) (fun t =>
      { t.tick with pc := p.npc, held := none })) s
  | some x => (byThread ss).foldl (fun s p =>
      let f := p.thread / 8
      let mask := trapMates ss p
      match s.ctxAt (32 * lid + f) (p.thread % 8) p.pc with
      | none => s
      | some c => takeTrap c p.npc mask.toNat
          (s.modThread (32 * lid + f) (p.thread % 8) (fun t => { t with held := none })) (p.thread % 8) x) s

/-- The votes of R246 agree over the signers. -/
def agree (ss : List Signature) (f : Signature → Signature → Bool) : Bool :=
  match ss with
  | [] => true
  | p :: ps => ps.all (f p)

/-- R246: the decision of a round all of whose threads count as signed. -/
def State.decideRound (s : State) (lid c : Nat) (ld : Landing) (tr : Tread) (v : Conv) (ss : List Signature) : State :=
  match ss with
  | [] => s.closeRound lid c
  | p :: _ =>
    let same1 := agree ss (fun p q => p.fmt == q.fmt && p.tile == q.tile && p.abase == q.abase && p.kreg == q.kreg &&
      p.fn == q.fn && p.reuse == q.reuse)
    let same2 := agree ss (fun p q => p.handle == q.handle && p.index == q.index)
    let k := (shapeK p.fmt p.fn).getD 32
    let cores := s.coresOf tr.part
    let flights := (ss.map (fun q => 32 * lid + q.thread / 8)).eraseDups
    if !same1 then (s.closeRound lid c).releaseSigners lid ss (some (trap .formatDivergence c))
    else if !same2 then (s.closeRound lid c).releaseSigners lid ss (some (trap .uniformity c))
    else
      match recordCheck s ld.core cores p.fmt k p.handle p.index with
      | none => (s.closeRound lid c).releaseSigners lid ss (some (trap .engineError 0))
      | some t =>
        if flights.any (fun fk => (tget s.flights fk).any (·.full .mx)) then s
        else
          let rows := ss.filterMap (·.arow)
          let ops := flights.map (fun fk => (fk, match tget s.flights fk with
            | some f => f.cMx.issued
            | none => 0))
          let low := (ss.foldl (fun m q => if q.thread < m.thread then q else m) p)
          let op : MxOp :=
            { kind := .mma p.fn
              who := { tid := ld.tid, spell := ld.spell, core := ld.core, fk := 32 * lid + low.thread / 8, lane := low.thread % 8, pc := low.pc }
              ops := ops, tile := p.tile, word := p.fmt, rows := roundRows s.frees p.fmt k rows, tensor := some t, index := p.index.toNat,
              addr := 0, bias := 0, scale := 0, dest := v.decl.elim 0 (·.1), sels := [] }
          let s0 := { s with frees := s.frees + (if takesFree p k rows then 1 else 0) }
          let s1 := flights.foldl (fun s fk => s.joinOp fk .mx) s0
          let s2 := (s1.useLatch ld.core lid c p rows).closeRound lid c
          let s3 := { s2 with mxq := tmodD [] s2.mxq ld.core (fun q => q ++ [op]) }
          (s3.modLanding lid (fun l => { l with tiles := if l.tiles.contains p.tile then l.tiles else l.tiles ++ [p.tile] })).releaseSigners
            lid ss none

/-- R227: decide the round of a convergence register when every thread of its set counts as signed. -/
def State.tryRound (s : State) (lid c : Nat) : State :=
  match tget s.landings lid with
  | none => s
  | some ld =>
    let v := ld.convOf c
    match v.decl, tget s.treads ld.tid with
    | some d, some tr =>
      if v.signs.isEmpty || v.left s lid ld d != 0 then s
      else s.decideRound lid c ld tr v (v.signs.filter (fun p => !p.abst &&
        match s.thread? (32 * lid + p.thread / 8) (p.thread % 8) with
        | some t => t.cond != .exited
        | none => false))
    | _, _ => s

/-- Every open round of a landing, after a thread has exited. -/
def State.tryRounds (s : State) (lid : Nat) : State := (List.range 8).foldl (fun s c => s.tryRound lid c) s

/-- The thread has signed the open round of a convergence register. -/
def Conv.signedBy (v : Conv) (th : Nat) : Bool := v.signs.any (fun p => p.thread == th)

/-- A signature that takes no part (R226, R227). -/
def abstain (th : Nat) (pc npc : DWord) : Signature :=
  { thread := th, abst := true, fn := 3, tile := 0, abase := 0, kreg := 0, reuse := false, fmt := 0, handle := 0,
    index := 0, arow := none, latch := none, pc := pc, npc := npc }

/-- Sign as abstaining: held while an open round has the thread's signature (R226). Without a declared set a csign (`signs`)
traps (R227); a thread whose guard is false goes on, since the guard lets it raise no trap (R42, R245, R465). -/
def signAbstain (cr : Nat) (signs : Bool) (c : Ctx) (acc : State × List (Nat × Res)) (lane : Nat) : State × List (Nat × Res) :=
  let th := 8 * (c.fk % 32) + lane
  match tget acc.1.landings c.lid with
  | none => acc
  | some ld =>
    let v := ld.convOf cr
    if v.decl.isNone then (acc.1, if signs then acc.2 ++ [(lane, .trap (trap .uniformity cr))] else acc.2)
    else if v.signedBy th then (acc.1, acc.2 ++ [(lane, .hold .signature)])
    else (acc.1.modConv c.lid cr (fun v => { v with signs := v.signs ++ [abstain th c.start (nextPc c.pc)] }),
      if signs then acc.2 ++ [(lane, .done)] else acc.2)

/-- csign, and what a false guard does at any signing instruction (R226, R227). -/
def execCsign (cr g : BitVec 3) (s : State) : Out :=
  .next (issueRaw s HintUse.none (fun c s =>
    if awaitsPred s c.fk [g.toNat] c.lanes then (s, [(c.lanes.headD 0, .hold .register)])
    else
      let G := guardLanes s c g
      let r := c.lanes.foldl (fun acc l => signAbstain cr.toNat (G.contains l) c acc l) (s, [])
      (r.1.tryRound c.lid cr.toNat, r.2)))

/-- cset (R226): the effect of one thread. A first flight that is no multiple of the size is refused by the decoder and
is an illegal instruction (R225). -/
def csetLane (cr first z : Nat) (c : Ctx) (acc : State × List (Nat × Res)) (lane : Nat) : State × List (Nat × Res) :=
  match tget acc.1.landings c.lid with
  | none => acc
  | some ld =>
    let v := ld.convOf cr
    if v.decl = some (first, z) then (acc.1, acc.2 ++ [(lane, .done)])
    else if v.signs.isEmpty then
      ((acc.1.modConv c.lid cr (fun v => { v with decl := some (first, z) })).dropLatch ld.core c.lid cr,
        acc.2 ++ [(lane, .done)])
    else (acc.1, acc.2 ++ [(lane, .trap (trap .uniformity cr))])

def execCset (cr : BitVec 3) (first : BitVec 5) (z : BitVec 2) (g : BitVec 3) (s : State) : Out :=
  if first.toNat % setSize z.toNat = 0 then
    .next (issue s HintUse.none g (fun c ls s => ls.foldl (csetLane cr.toNat first.toNat z.toNat c) (s, [])))
  else
    .next (match s.ctx? with
      | none => s
      | some c => trapAll c s (trap .illegal 0))

/-- R227: the word that cchk writes. -/
def cchkWord (s : State) (lid : Nat) (ld : Landing) (v : Conv) : Word :=
  BitVec.ofNat 32 (v.gen % 256 * 2 ^ 24 + (if v.signs.isEmpty then 0 else 2 ^ 15) +
    match v.decl with
    | some d => (v.left s lid ld d) * 256 + 128 + d.2 * 32 + d.1
    | none => 0)

def execCchk (d : BitVec 6) (cr g : BitVec 3) (s : State) : Out :=
  .next (laneOp s HintUse.none g [one d] (fun c s _ t =>
    .ok (match tget s.landings c.lid with
      | some ld => t.setReg d.toNat (cchkWord s c.lid ld (ld.convOf cr.toNat))
      | none => t) 0))

/-! ## MMA signing (R243–R245) -/

/-- The fields of an MMA word. -/
structure MmaWord where
  tile  : Nat
  abase : Nat
  kreg  : Nat
  c     : Nat
  reuse : Bool
  fn    : Nat
  deriving DecidableEq, Repr

/-- R244: the usable latch of a round: the one that its first reusing signer found, so that the round uses latched rows or current
registers as a whole; for the first one, the latch of the register with the same A base and A format. -/
def roundLatch (s : State) (core lid : Nat) (v : Conv) (w : MmaWord) (fw : Word) : Option Latch :=
  if w.reuse then
    match v.signs.find? (fun p => !p.abst && p.reuse && p.abase == w.abase && fwA p.fmt == fwA fw) with
    | some p => p.latch
    | none => (s.latchOf core lid w.c).filter (fun x => x.abase == w.abase && x.afmt == fwA fw)
  else none

/-- R244: the row of a thread in a latch. -/
def Latch.rowOf (x : Latch) (m : Nat) : Option ARow := x.rows.find? (fun r => r.row == m)

/-- A register number put into a rising list. -/
def insertReg (r : Nat) : List Nat → List Nat
  | [] => [r]
  | x :: xs => if r ≤ x then r :: x :: xs else x :: insertReg r xs

/-- Register numbers in rising order: a check that fails names the lowest one first. -/
def sortRegs (l : List Nat) : List Nat := l.foldr insertReg []

/-- R245: the signature of a thread, or its trap. -/
def mmaSign (w : MmaWord) (c : Ctx) (s : State) (ld : Landing) (lane : Nat) (t : Thread) : Except Trap Signature :=
  let f := c.fk % 32
  match (ld.convOf w.c).decl with
  | none => .error (trap .uniformity w.c)
  | some d =>
    if !inSet d f then .error (trap .uniformity w.c)
    else
      let q := 4 * w.kreg
      match regTrap ld.regs t [{ r := q, n := 1 }] with
      | some x => .error x
      | none =>
        let fw := t.reg q
        match shapeK fw w.fn with
        | none => .error (trap .illegalFormat w.c)
        | some k =>
          let m := 8 * (f - d.1) + lane
          let latch := roundLatch s ld.core c.lid (ld.convOf w.c) w fw
          let lat := latch.bind (·.rowOf m)
          let rowUse : List Nat := if lat.isSome then [] else
            (List.range (rowRegs fw k)).map (fun i => w.abase + i) ++ (if fwBs fw then [q + 2] else [])
          let us := (sortRegs (rowUse ++ [q + 1, q + 3])).map (fun r => ({ r := r, n := 1 } : RegUse))
          match regTrap ld.regs t us with
          | some x => .error x
          | none =>
            let own : ARow :=
              { row := m, words := t.regList w.abase (rowRegs fw k), scale := if fwBs fw then some (t.reg (q + 2)) else none }
            .ok { thread := 8 * f + lane, abst := false, fn := w.fn, tile := w.tile, abase := w.abase, kreg := w.kreg,
                  reuse := w.reuse, fmt := fw, handle := t.reg (q + 1), index := t.reg (q + 3),
                  arow := some (lat.getD own), latch := latch, pc := c.start, npc := nextPc c.pc }

/-- One guard-true lane of an mma. -/
def mmaLane (w : MmaWord) (c : Ctx) (acc : State × List (Nat × Res)) (lane : Nat) : State × List (Nat × Res) :=
  match acc.1.thread? c.fk lane, tget acc.1.landings c.lid with
  | some t, some ld =>
    if (ld.convOf w.c).signedBy (8 * (c.fk % 32) + lane) then (acc.1, acc.2 ++ [(lane, .hold .signature)])
    else
      match mmaSign w c acc.1 ld lane t with
      | .error x => (acc.1, acc.2 ++ [(lane, .trap x)])
      | .ok p => (acc.1.modConv c.lid w.c (fun v => { v with signs := v.signs ++ [p] }), acc.2 ++ [(lane, .still)])
  | _, _ => acc

/-- The registers an mma may read. -/
def mmaRegs (w : MmaWord) : List Nat :=
  (List.range 16).map (fun i => w.abase + i) ++ (List.range 4).map (fun i => 4 * w.kreg + i)

/-- mma, mma.bs, mma.z (R245, R246): guard-false lanes abstain, the others sign; then the round is decided. -/
def mma (w : MmaWord) (g : BitVec 3) (s : State) : State :=
  issueRaw s HintUse.none (fun c s =>
    let G := guardLanes s c g
    if awaitsPred s c.fk [g.toNat] c.lanes || anyAwaits s c.fk (mmaRegs w) G then
      (s, [(c.lanes.headD 0, .hold .register)])
    else
      let r := c.lanes.foldl (fun acc l => if G.contains l then mmaLane w c acc l else signAbstain w.c false c acc l) (s, [])
      let s1 := r.1.tryRound c.lid w.c
      let own := G.filter (fun l => r.2.any (fun p => p.1 == l && (p.2 == .still || p.2 == .hold .signature)))
      let stands := fun (l : Nat) (st : State) => match tget st.landings c.lid with
        | some ld => (ld.convOf w.c).signs.any (fun p => p.thread == 8 * (c.fk % 32) + l && !p.abst)
        | none => false
      (s1, r.2.map (fun p =>
        if own.contains p.1 then
          if stands p.1 s1 then (p.1, Res.hold .signature)
          else if stands p.1 r.1 then (p.1, .gone)
          else p
        else p)))

def execMma (t : BitVec 7) (a : BitVec 2) (k : BitVec 4) (c : BitVec 3) (r : BitVec 1) (g : BitVec 3) (s : State) : Out :=
  .next (mma { tile := t.toNat, abase := 16 * a.toNat, kreg := k.toNat, c := c.toNat, reuse := r == 1, fn := 0 } g s)
def execMmaBs (t : BitVec 7) (a : BitVec 2) (k : BitVec 4) (c : BitVec 3) (r : BitVec 1) (g : BitVec 3) (s : State) : Out :=
  .next (mma { tile := t.toNat, abase := 16 * a.toNat, kreg := k.toNat, c := c.toNat, reuse := r == 1, fn := 1 } g s)
def execMmaZ (t : BitVec 7) (a : BitVec 2) (k : BitVec 4) (c : BitVec 3) (r : BitVec 1) (g : BitVec 3) (s : State) : Out :=
  .next (mma { tile := t.toNat, abase := 16 * a.toNat, kreg := k.toNat, c := c.toNat, reuse := r == 1, fn := 2 } g s)

end Sys2Proof.Machine
end

