-- ==== Sys2Proof/Machine/MatrixRun.lean ====
section
/-!
DEFINITION. The accumulator instructions (11_matrix.md R262–R267) and the execution of matrix and accumulator operations
in acceptance order (R255–R260, R265, R466): MMA_COMPLETE and ACC_COMPLETE.
-/

namespace Sys2Proof.Machine

/-! ## Tiles (R256) -/

def tileRowKey (core tile r : Nat) : Nat := (96 * core + tile) * 64 + r

/-- Row `r` of a tile: 128 words. -/
def State.tileRow (s : State) (core tile r : Nat) : List Word :=
  (tget s.tiles (tileRowKey core tile r)).getD (List.replicate 128 0)

/-- Write a row; a row of zeros is not listed. -/
def State.putRow (s : State) (core tile r : Nat) (ws : List Word) : State :=
  { s with tiles := if ws.all (· == 0) then tdel s.tiles (tileRowKey core tile r) else tput s.tiles (tileRowKey core tile r) ws }

/-! ## Elements -/

/-- Element `j` of width `w` in a list of words (R61). -/
def wordElem (ws : List Word) (w j : Nat) : Nat := bits (ws.getD (j * w / 32) 0).toNat (w * (j % (32 / w))) w

/-- `n` elements of width `w` packed in bytes (R61). -/
def byteElems (w : Nat) (bs : List Byte) (n : Nat) : List Nat :=
  if w = 4 then (bs.flatMap (fun b => [b.toNat % 16, b.toNat / 16])).take n
  else if w = 8 then (bs.map (·.toNat)).take n
  else (List.range n).map (fun i => ofBytesLE ((bs.drop (2 * i)).take 2))

/-- The integer value of an element (s8, n8, s4, n4). -/
def mxIntVal (fmt x : Nat) : Int := if fmt = 1 then sign x 4 else if fmt = 5 then sign x 8 else (x : Int)

/-! ## Fetching B (R249, R255) -/

/-- The decomposition of tile index `t` (R249). -/
structure TilePos where
  k  : Nat
  n  : Nat
  c2 : Nat
  c3 : Nat
  c4 : Nat
  deriving DecidableEq, Repr

def Tensor.pos (t : Tensor) (i : Nat) : TilePos :=
  let a := i / t.nK
  let b := a / t.nN
  { k := i % t.nK, n := a % t.nN, c2 := if 2 < t.rank then b % t.outer 2 else 0,
    c3 := if 3 < t.rank then b / t.outer 2 % t.outer 3 else 0,
    c4 := if 4 < t.rank then b / t.outer 2 / t.outer 3 else 0 }

/-- The address of the 128 elements of row `k` of a tile (R249). -/
def Tensor.rowAddr (t : Tensor) (p : TilePos) (k : Nat) : Int :=
  (t.base : Int) + (128 * p.n * mxWidth t.fmt / 8 : Nat) + (p.k * t.tk + k : Nat) * t.strides.getD 0 0
    + p.c2 * t.strides.getD 1 0 + p.c3 * t.strides.getD 2 0 + p.c4 * t.strides.getD 3 0

/-- Read bytes of the record's space. R249's address is an integer: one that is no address of the space is not valid there
(R8, R255). -/
def Work.readTensor (w : Work) (r : Reach) (hall : Bool) (a : Int) (n : Nat) : Work × List Byte :=
  if a < 0 ∨ (!hall ∧ 2 ^ 64 < a.toNat + n) then (w.fail (if hall then 0x43 else 0x40) (dword a) false, List.replicate n 0)
  else if hall then w.readHall r a.toNat n
  else w.readGlobal r (dword a) n

/-- The rows of B, each 128 elements. -/
def fetchRows (r : Reach) (t : Tensor) (p : TilePos) (w : Work) : Nat → Nat → Work × List (List Nat)
  | _, 0 => (w, [])
  | k, n + 1 =>
    let x := w.readTensor r t.hall (t.rowAddr p k) (16 * mxWidth t.fmt)
    let y := fetchRows r t p x.1 (k + 1) n
    (y.1, byteElems (mxWidth t.fmt) x.2 128 :: y.2)

/-- The scales of B: 128 bytes for each block (R249). -/
def fetchScales (r : Reach) (t : Tensor) (index : Nat) (w : Work) : Nat → Nat → Work × List (List Nat)
  | _, 0 => (w, [])
  | b, n + 1 =>
    let x := w.readTensor r t.hall ((t.scale : Int) + (index * 128 * (t.tk / 32) + 128 * b : Nat)) 128
    let y := fetchScales r t index x.1 (b + 1) n
    (y.1, x.2.map (·.toNat) :: y.2)

/-! ## The block loop (R78–R81) -/

/-- R80: one block's sum added to an accumulator with one rounding; an E8M0 scale of 0xFF gives NaN and NV (R78). -/
def blockAdd (sat : Bool) (scaled : Bool) (ea eb : Nat) (sum : XSum) (acc : Word) : Word × FFlags :=
  if scaled && (ea == 255 || eb == 255) then (BitVec.ofNat 32 fp32.nanCode, fNV)
  else
    let t := ((if scaled then sum.scale ((ea : Int) + eb - 254) else sum)).add (fp32.val acc.toNat)
    if t.nan || t.pinf || t.ninf then
      let r := t.round fp32 .rne
      (BitVec.ofNat 32 r.1, r.2)
    else if t.val = 0 then (BitVec.ofNat 32 (t.round fp32 .rne).1, 0)
    else
      let r := roundTo fp32 .rne sat (decide (t.val < 0)) t.val.natAbs t.exp
      (BitVec.ofNat 32 r.1, r.2)

/-- The exact sums of one block: 32 elements of A against 32 rows of B. -/
def blockSums (fa fb : Fmt) : List Nat → List (List Nat) → List XSum → List XSum
  | a :: as, b :: bs, ss => blockSums fa fb as bs (List.zipWith (fun s x => s.addMul (fa.val a) (fb.val x)) ss b)
  | _, _, ss => ss

/-- The blocks of a row in ascending K (R80). -/
def floatRow (sat scaled : Bool) (fa fb : Fmt) : List (List Nat × Nat) → List (List (List Nat) × List Nat) → List Word → FFlags →
    List Word × FFlags
  | (as, ea) :: ar, (bs, ebs) :: br, acc, fl =>
    let sums := blockSums fa fb as bs (List.replicate 128 XSum.zero)
    let outs := List.zipWith (fun (p : XSum × Nat) a => blockAdd sat scaled ea p.2 p.1 a) (sums.zip ebs) acc
    floatRow sat scaled fa fb ar br (outs.map (·.1)) (outs.foldl (fun f o => f ||| o.2) fl)
  | _, _, acc, fl => (acc, fl)

/-- R81: the integer form of a row, modulo 2^32. -/
def intRow (fa fb : Nat) : List Nat → List (List Nat) → List Word → List Word
  | a :: as, b :: bs, acc =>
    intRow fa fb as bs (List.zipWith (fun w x => w + word (mxIntVal fa a * mxIntVal fb x)) acc b)
  | _, _, acc => acc

/-- Groups of `n` consecutive members. The first argument bounds the number of groups. -/
def groupsOf {α : Type} (n : Nat) : Nat → List α → List (List α)
  | 0, _ => []
  | f + 1, l => if l.isEmpty then [] else l.take n :: groupsOf n f (l.drop n)

/-- R260: one row of the tile after the operation. -/
def mmaRow (fw : Word) (fn k : Nat) (row : ARow) (brows : List (List Nat)) (bsc : List (List Nat)) (old : List Word) :
    List Word × FFlags :=
  let acc := if fn = 2 then List.replicate 128 0 else old
  let as := (List.range k).map (wordElem row.words (mxWidth (fwA fw)))
  if fwAcct fw then (intRow (fwA fw) (fwB fw) as brows acc, 0)
  else
    let ablk := (groupsOf 32 4 as).zipIdx.map (fun p => (p.1, bits (row.scale.getD 0).toNat (8 * p.2) 8))
    let bblk := (groupsOf 32 4 brows).zipIdx.map (fun p => (p.1, bsc.getD p.2 (List.replicate 128 127)))
    floatRow (fwSat fw) (fwBs fw) (mxFmt (fwA fw)) (mxFmt (fwB fw)) ablk bblk acc 0

/-- R255, R260: an accepted matrix operation executes: B is fetched, then the rows of S are computed; a failed fetch
ends the tread and leaves the tile. -/
def runMma (op : MxOp) (fn : Nat) (s : State) : Work × FFlags :=
  match op.tensor, shapeK op.word fn with
  | some t, some k =>
    let r := s.reach op.who 0
    let w1 := fetchRows r t (t.pos op.index) (Work.start s) 0 k
    let w2 := if fwBs op.word then fetchScales r t op.index w1.1 0 (k / 32) else (w1.1, [])
    match w2.1.err with
    | some _ => (w2.1, 0)
    | none =>
      let out := op.rows.foldl (fun (acc : State × FFlags) row =>
        let x := mmaRow op.word fn k row w1.2 w2.2 (acc.1.tileRow op.who.core op.tile row.row)
        (acc.1.putRow op.who.core op.tile row.row x.1, acc.2 ||| x.2)) (w2.1.st, 0)
      ({ w2.1 with st := out.1 }, out.2)
  | _, _ => (Work.start s, 0)

/-! ## The fused chain of acc.st (R84, R85, R265) -/

/-- The activation table of a core: entry `i` (State.act). -/
def actEntry (a : Tab Word) (i : Nat) : Word := tgetD 0 a i

/-- R85: the segment of a finite input. -/
def segmentOf (a : Tab Word) (n : Bool) (m : Nat) (e : Int) : Nat :=
  match fp32.val (actEntry a 0).toNat with
  | .nan _ => 0
  | .inf neg => if neg then 255 else 0
  | .fin xn xm xe =>
    let d := addExact n m e (!xn) xm xe
    let q := (actEntry a 1).toInt
    let k : Int := if d.2 ≤ q then d.1 / (2 ^ (q - d.2).toNat : Nat) else d.1 * (2 ^ (d.2 - q).toNat : Nat)
    (min (max k 0) 255).toNat

/-- R67: an FP32 result without a NaN payload. -/
def quiet32 (x : Word) : Word :=
  match fp32.val x.toNat with
  | .nan _ => BitVec.ofNat 32 fp32.nanCode
  | _ => x

/-- R85: the activation table applied to a value. -/
def activate (a : Tab Word) (x : Word) : Word × FFlags :=
  let seg := fun (k : Nat) =>
    let ak := actEntry a (2 + 2 * k)
    let bk := actEntry a (3 + 2 * k)
    if (fp32.val ak.toNat).isZero then (quiet32 bk, (0 : FFlags))
    else
      let r := fFused fp32 .rne false false ak.toNat x.toNat bk.toNat
      (BitVec.ofNat 32 r.1, r.2)
  match fp32.val x.toNat with
  | .nan s => (BitVec.ofNat 32 fp32.nanCode, flagIf s fNV)
  | .inf n => seg (if n then 0 else 255)
  | .fin n m e => seg (segmentOf a n m e)

/-- The command word of acc.st (R264). -/
def cwOfmt (w : Word) : Nat := bits w.toNat 12 4
def cwColblk (w : Word) : Bool := bit w.toNat 5
def cwSat (w : Word) : Bool := bit w.toNat 4
def cwItype (w : Word) : Bool := bit w.toNat 3
def cwRq (w : Word) : Bool := bit w.toNat 2
def cwAct (w : Word) : Bool := bit w.toNat 1
def cwBias (w : Word) : Bool := bit w.toNat 0

/-- R264: a valid command word. -/
def cwOk (w : Word) : Bool :=
  let o := cwOfmt w
  decide (o ≤ 8) && bits w.toNat 16 16 == 0 && bits w.toNat 6 6 == 0 && (cwRq w == (decide (3 ≤ o) && decide (o ≤ 7))) &&
  (o != 8 || (!cwBias w && !cwAct w && !cwRq w)) && (!cwColblk w || cwRq w) && (!cwSat w || o == 1 || o == 2)

/-- The output width in bits. -/
def outWidth (o : Nat) : Nat :=
  match o with
  | 0 => 32
  | 1 => 16
  | 2 => 16
  | 3 => 8
  | 4 => 8
  | 5 => 4
  | 6 => 8
  | 7 => 4
  | _ => 32

/-- Stages 1 to 3 of R265 on one element. -/
def chainElem (w : Word) (a : Tab Word) (bias : Word) (x : Word) : Word × FFlags :=
  let s1 := if cwItype w then wordOfPair (fOfInt fp32 .rne x.toInt) else (x, (0 : FFlags))
  let s2 := if cwBias w then
      let r := fAdd fp32 .rne s1.1.toNat bias.toNat
      (BitVec.ofNat 32 r.1, s1.2 ||| r.2)
    else s1
  if cwAct w then
    let r := activate a s2.1
    (r.1, s2.2 ||| r.2)
  else s2
where
  wordOfPair (p : Nat × FFlags) : Word × FFlags := (BitVec.ofNat 32 p.1, p.2)

/-- The target of a requantisation: its floating format, or the width of an integer one. -/
def rqEmax (o : Nat) : Int :=
  match o with
  | 3 => 8
  | 4 => 15
  | 5 => 2
  | 6 => 6
  | _ => 2

/-- R84: one element scaled by 2^-e, rounded and saturated. -/
def rqElem (o : Nat) (e : Int) (x : Word) : Nat × FFlags :=
  match fp32.val x.toNat with
  | .fin n m ex =>
    if o = 6 ∨ o = 7 then
      let w := if o = 6 then 8 else 4
      let r := roundIntegral .rne n m (ex - e)
      let v := signedInt n r.1
      let top : Int := 2 ^ (w - 1) - 1
      if top < v then (top.toNat, fNX)
      else if v < -top then ((2 ^ w - top).toNat, fNX)
      else ((v % (2 ^ w : Nat)).toNat, flagIf r.2 fNX)
    else
      let f := if o = 3 then e4m3 else if o = 4 then e5m2 else e2m1
      if m = 0 then (f.signed n 0, 0)
      else
        let r := roundTo f .rne true n m (ex - e)
        if r.2 &&& fOF ≠ 0 then (f.signed n f.maxCode, fNX) else r
  | _ => (0, 0)

/-- R84: a block of 32 values: the scale, the elements, the flags. -/
def requant (o : Nat) (xs : List Word) : Nat × List Nat × FFlags :=
  let vs := xs.map (fun x => fp32.val x.toNat)
  if vs.any (fun v => v.isNaN || v.isInf) then (0xFF, xs.map (fun _ => 0), fNV)
  else if vs.all FV.isZero then (0x7F, xs.map (fun _ => 0), 0)
  else
    let top := xs.foldl (fun m x => max m (x.toNat % 2 ^ 31)) 0
    let lg : Int := match fp32.val top with
      | .fin _ m e => (Nat.log2 m : Int) + e
      | _ => 0
    let e := min (max (lg - rqEmax o) (-127)) 127
    let rs := xs.map (rqElem o e)
    ((e + 127).toNat, rs.map (·.1), rs.foldl (fun f r => f ||| r.2) 0)

/-- Elements of width `w` packed into bytes (R61). -/
def packElems (w : Nat) (xs : List Nat) : List Byte :=
  if w = 4 then (groupsOf 2 xs.length xs).map (fun p => BitVec.ofNat 8 (p.getD 0 0 % 16 + 16 * (p.getD 1 0 % 16)))
  else xs.flatMap (bytesLE (w / 8))

/-- Column `n` of a list of rows. -/
def column (rows : List (List Word)) (n : Nat) : List Word := rows.map (fun r => r.getD n 0)

/-- R265: the output bytes, the scale bytes by offset, and the flags. -/
def chainOut (w : Word) (a : Tab Word) (bias : List Word) (rows : List (List Word)) :
    List Byte × List (Nat × Byte) × FFlags :=
  let o := cwOfmt w
  if o = 8 then (rows.flatMap (fun r => r.flatMap (fun x => bytesLE 4 x.toNat)), [], 0)
  else
    let xs := rows.map (fun r => List.zipWith (chainElem w a) bias r)
    let vals := xs.map (fun r => r.map (·.1))
    let fl := xs.foldl (fun f r => r.foldl (fun f p => f ||| p.2) f) (0 : FFlags)
    if !cwRq w then
      let dst := if o = 1 then bf16 else if o = 2 then fp16 else fp32
      let conv := fun (x : Word) => if o = 0 then ((quiet32 x).toNat, (0 : FFlags)) else fConvert fp32 dst .rne (cwSat w) x.toNat
      let outs := vals.map (fun r => r.map conv)
      (outs.flatMap (fun r => packElems (outWidth o) (r.map (·.1))), [],
        outs.foldl (fun f r => r.foldl (fun f p => f ||| p.2) f) fl)
    else if !cwColblk w then
      let blks := vals.map (fun r => (groupsOf 32 4 r).map (requant o))
      (blks.flatMap (fun r => packElems (outWidth o) (r.flatMap (fun b => b.2.1))),
        (blks.zipIdx.flatMap (fun p => p.1.zipIdx.map (fun q => (4 * p.2 + q.2, BitVec.ofNat 8 q.1.1)))),
        blks.foldl (fun f r => r.foldl (fun f b => f ||| b.2.2) f) fl)
    else
      let cols := (List.range 128).map (fun n => (groupsOf 32 2 (column vals n)).map (requant o))
      let elem := fun (r n : Nat) => (((cols.getD n []).getD (r / 32) (0, [], 0)).2.1).getD (r % 32) 0
      ((List.range 64).flatMap (fun r => packElems (outWidth o) ((List.range 128).map (elem r))),
        (cols.zipIdx.flatMap (fun p => p.1.zipIdx.map (fun q => (128 * q.2 + p.2, BitVec.ofNat 8 q.1.1)))),
        cols.foldl (fun f c => c.foldl (fun f b => f ||| b.2.2) f) fl)

/-! ## Execution of the accumulator members (R263, R265, R266) -/

/-- 32-bit words of a list of bytes. -/
def wordsLE (bs : List Byte) : List Word :=
  (List.range (bs.length / 4)).map (fun i => BitVec.ofNat 32 (ofBytesLE ((bs.drop (4 * i)).take 4)))

/-- R266: the table from its 2,064 bytes; q is clamped. -/
def actTable (bs : List Byte) : Tab Word :=
  let q : Int := max (-126) (min 120 (sign (field bs 4 4) 32))
  let ws := [BitVec.ofNat 32 (field bs 0 4), word q] ++ wordsLE (bs.drop 16)
  (ws.zipIdx.map (fun p => (p.2, p.1))).filter (fun p => p.2 ≠ 0)

/-- R267: the scale bytes of an acc.st are written at offsets from the scale address; where one falls into the output the order of the two
bytes is not fixed, so that which of them stands is a free choice (log entry 102). -/
def storeScales (op : MxOp) (r : Reach) (n : Nat) (ps : List (Nat × Byte)) (w : Work) : Work :=
  let both := fun (a : Nat) => decide (op.addr.toNat ≤ a) && decide (a < op.addr.toNat + n)
  let k := w.st.frees
  let w1 := ps.foldl (fun w p =>
    if both (op.scale.toNat + p.1) && Config.outputLast k (op.scale.toNat + p.1) then w
    else w.storeHall r (op.scale.toNat + p.1) [p.2]) w
  if ps.any (fun p => both (op.scale.toNat + p.1)) then { w1 with st := { w1.st with frees := k + 1 } } else w1

/-- acc.st (R265): a hall error ends the tread; the output stands as the rows are written. -/
def runAccSt (op : MxOp) (s : State) : Work × FFlags :=
  let r := s.reach op.who 0
  let rows := (List.range 64).map (s.tileRow op.who.core op.tile)
  let b := if cwBias op.word then (Work.start s).readHall r op.bias.toNat 512 else (Work.start s, [])
  match b.1.err with
  | some _ => (b.1, 0)
  | none =>
    let bias := if cwBias op.word then wordsLE b.2 else List.replicate 128 0
    let out := chainOut op.word (tgetD [] s.act op.who.core) bias rows
    let w1 := b.1.storeHall r op.addr.toNat out.1
    (storeScales op r out.1.length out.2.1 w1, out.2.2)

/-- R263: an accumulator operation executes. -/
def runAcc (op : MxOp) (s : State) : Work × FFlags :=
  let core := op.who.core
  match op.kind with
  | .zero => ({ Work.start s with st := (List.range 64).foldl (fun s r => s.putRow core op.tile r (List.replicate 128 0)) s }, 0)
  | .ld =>
    let x := (Work.start s).readHall (s.reach op.who 0) op.addr.toNat 32768
    match x.1.err with
    | some _ => (x.1, 0)
    | none =>
      let ws := wordsLE x.2
      ({ x.1 with st := (List.range 64).foldl (fun s r => s.putRow core op.tile r ((ws.drop (128 * r)).take 128)) x.1.st }, 0)
  | .st => runAccSt op s
  | .rd =>
    let s1 := op.sels.foldl (fun s p =>
      let r := bits p.2.toNat 0 6
      let j := bits p.2.toNat 8 3
      s.modThread op.who.fk p.1 (fun t =>
        { t.setRegs op.dest (((s.tileRow core op.tile r).drop (16 * j)).take 16) with
          leases := t.leases.filter (fun l => l.by_ ≠ .op .mx (op.ops.headD (0, 0)).2) })) s
    ({ Work.start s with st := s1 }, 0)
  | .tab =>
    let x := (Work.start s).readHall (s.reach op.who 0) op.addr.toNat 2064
    match x.1.err with
    | some _ => (x.1, 0)
    | none => ({ x.1 with st := { x.1.st with act := tputD [] x.1.st.act core (actTable x.2) } }, 0)
  | .mma fn => runMma op fn s

/-- R256: the tile that an operation has written counts as written by its landing, where that still stands on the core. -/
def State.noteTile (s : State) (op : MxOp) : State :=
  let writes := match op.kind with
    | .mma _ => true
    | .zero => true
    | .ld => true
    | _ => false
  if writes then
    s.modLanding (landingOf op.who.fk) (fun l =>
      if l.core = op.who.core ∧ !l.tiles.contains op.tile then { l with tiles := l.tiles ++ [op.tile] } else l)
  else s

/-- R258, R260: the oldest operation of a core's engine completes: its flags, its entries, its place in its class. R258 speaks of a
bound queue register; the entry is posted, and kept in the flight's endpoint, also while none is bound (DESIGN CHOICE, log
entry 86). -/
def State.mxDone (s : State) (core : Nat) (ok : MxKind → Bool) (cls : Nat) : State :=
  match tgetD [] s.mxq core with
  | [] => s
  | op :: rest =>
    if !ok op.kind then s
    else
      let x := runAcc op { s with mxq := tputD [] s.mxq core rest }
      let s1 := (x.1.settle op.who).noteTile op
      let slot0 : Word := if op.kind = .tab then 0xFFFFFFFF else BitVec.ofNat 32 op.tile
      op.ops.foldl (fun s p =>
        let s2 := s.orEngineFlags p.1 x.2
        let full := (tget s2.flights p.1).any (fun f => (f.endpoint cls).space == 0)
        let s3 := if full then s2
          else s2.postEntry p.1 cls op.who.spell false { slots := slot0 :: List.replicate 7 0, valid := 0x03 }
        s3.completeEng p.1 .mx p.2 x.1.clock) s1

def isMma : MxKind → Bool
  | .mma _ => true
  | _ => false

def execMmaComplete (core : Nat) (s : State) : Out := .next (s.mxDone core isMma 0)
def execAccComplete (core : Nat) (s : State) : Out := .next (s.mxDone core (fun k => !isMma k) 1)

/-! ## ACC at issue (R262–R264) -/

/-- The alignment and range check of a hall area (R263): a trap with detail 64, or end code 0x43. -/
def areaCheck (c : Ctx) (cores : List Nat) (a : Word) (n : Nat) (w : Bool) : Option Res :=
  let e : DWord := a.zeroExtend 64
  if a.toNat % 64 ≠ 0 then some (.trap (dataTrap .misalignedAccess 64 e w))
  else if !oneSlice cores c.ld.core a.toNat n then some (.ends 0x43 e w)
  else none

/-- The first failing check. -/
def firstRes : List (Option Res) → Option Res
  | [] => none
  | some r :: _ => some r
  | none :: rs => firstRes rs

/-- Results that let the group go on, with what lane `l` met: for instructions that act once, from the lowest lane of G (R263, R286 and
the others). Where that lane traps, the spec does not say whether the operation is taken from the next lane: the
model performs none, and the other lanes go on (DESIGN CHOICE, log entry 101). -/
def laneRes (ls : List Nat) (l : Nat) (r : Res) : List (Nat × Res) := ls.map (fun k => (k, if k = l then r else .done))

/-- Accept an accumulator operation (R257, R263). -/
def acceptAcc (c : Ctx) (op : MxOp) (s : State) : State :=
  let s1 := { s with mxq := tmodD [] s.mxq c.ld.core (fun q => q ++ [op]) }
  let s2 := s1.joinOp c.fk .mx
  match op.kind with
  | .zero => s2.modLanding c.lid (fun l => { l with tiles := if l.tiles.contains op.tile then l.tiles else l.tiles ++ [op.tile] })
  | .ld => s2.modLanding c.lid (fun l => { l with tiles := if l.tiles.contains op.tile then l.tiles else l.tiles ++ [op.tile] })
  | _ => s2

/-- An accumulator operation of the issuing flight. -/
def accOp (c : Ctx) (kind : MxKind) (lane tile : Nat) : MxOp :=
  { kind := kind, who := c.issuer lane, ops := [(c.fk, c.fl.cMx.issued)], tile := tile, word := 0, rows := [],
    tensor := none, index := 0, addr := 0, bias := 0, scale := 0, dest := 0, sels := [] }

/-- A member that acts once per flight from the lowest lane of G (R263). `mk` gives the checks and the operation. -/
def accOnce (us : List RegUse) (g : BitVec 3) (mk : Ctx → State → Thread → Nat → Option Res × MxOp) (s : State) : Out :=
  .next (issue s HintUse.none g (fun c ls s =>
    let l := ls.headD 0
    match s.thread? c.fk l with
    | none => (s, [])
    | some t =>
      if anyAwaits s c.fk (allRegs us) [l] then (s, [(l, .hold .register)])
      else
        match regTrap c.ld.regs t us with
        | some x => (s, laneRes ls l (.trap x))
        | none =>
          let r := mk c s t l
          match r.1 with
          | some x => (s, laneRes ls l x)
          | none =>
            if c.fl.full .mx then (s, [(l, .hold .classFull)])
            else (acceptAcc c r.2 s, allDone ls)))

def execAccZero (t : BitVec 7) (g : BitVec 3) (s : State) : Out :=
  accOnce [] g (fun c _ _ l => (none, accOp c .zero l t.toNat)) s
def execAccLd (t : BitVec 7) (a : BitVec 6) (g : BitVec 3) (s : State) : Out :=
  accOnce [one a] g (fun c s th l =>
    (areaCheck c (s.coresOf c.tr.part) (th.reg a.toNat) 32768 false,
      { accOp c .ld l t.toNat with addr := th.reg a.toNat })) s
def execAccTab (a : BitVec 6) (g : BitVec 3) (s : State) : Out :=
  accOnce [one a] g (fun c s th l =>
    (areaCheck c (s.coresOf c.tr.part) (th.reg a.toNat) 2064 false,
      { accOp c .tab l 0 with addr := th.reg a.toNat })) s

/-- acc.st: the checks of R264 in their order. -/
def execAccSt (t : BitVec 7) (a d : BitVec 6) (g : BitVec 3) (s : State) : Out :=
  accOnce [one a, quad d] g (fun c s th l =>
    let w := th.reg d.toNat
    let bias := th.reg (d.toNat + 1)
    let scale := th.reg (d.toNat + 2)
    let cores := s.coresOf c.tr.part
    (firstRes [if cwOk w then none else some (.trap (trap .illegalFormat 0)),
        areaCheck c cores (th.reg a.toNat) (64 * 16 * outWidth (cwOfmt w)) true,
        if cwBias w then areaCheck c cores bias 512 false else none,
        if cwRq w then areaCheck c cores scale 256 true else none],
      { accOp c .st l t.toNat with word := w, addr := th.reg a.toNat, bias := bias, scale := scale })) s

/-- acc.rd (R263): every guard-true lane; 16 registers of each are leased until written. A lane that traps counts as
outside G. -/
def execAccRd (t : BitVec 7) (a d : BitVec 6) (g : BitVec 3) (s : State) : Out :=
  .next (issue s HintUse.none g (fun c ls s =>
    let ds := (List.range 16).map (fun i => d.toNat + i)
    if anyAwaits s c.fk (a.toNat :: ds) ls then (s, [(ls.headD 0, .hold .register)])
    else
      let chk := fun (th : Thread) =>
        if d.toNat % 16 ≠ 0 then some (trap .illegalRegister d.toNat)
        else regTrap c.ld.regs th [{ r := a.toNat, n := 1 }, { r := d.toNat, n := 16 }]
      let all := ls.filterMap (fun l => (s.thread? c.fk l).map (fun th => (l, th)))
      let bad := all.filterMap (fun p => (chk p.2).map (fun x => (p.1, Res.trap x)))
      let good := all.filter (fun p => (chk p.2).isNone)
      match good with
      | [] => (s, bad)
      | p :: _ =>
        if c.fl.full .mx then (s, [(p.1, .hold .classFull)])
        else
          let op := { accOp c .rd p.1 t.toNat with dest := d.toNat, sels := good.map (fun q => (q.1, q.2.reg a.toNat)) }
          let s1 := good.foldl (fun s q => s.modThread c.fk q.1 (fun th =>
            { th with leases := th.leases ++ ds.map (fun r => { reg := r, by_ := .op .mx c.fl.cMx.issued }) })) s
          (acceptAcc c op s1, allDone (good.map (·.1)) ++ bad)))

end Sys2Proof.Machine
end

