-- ==== Sys2Proof/Machine/Colonnade.lean ====
section
/-!
DEFINITION. The Colonnade clause array (12_colonnade.md): CLA and CLACTL at issue, and the execution of its commands in
acceptance order: CLA_COMMAND_START, CLA_EVAL_COMPLETE, CLA_SWEEP_END, CLA_IMAGE_COMPLETE.
-/

namespace Sys2Proof.Machine

/-! ## Configuration (R269, R270) -/

def cfgF (w : Word) : Nat := 8 * (bits w.toNat 0 7 + 1)
def cfgC (w : Word) : Nat := 8 * (bits w.toNat 8 5 + 1)
def cfgK (w : Word) : Nat := bits w.toNat 16 4 + 1
def cfgEe (w : Word) : Bool := bit w.toNat 28
def cfgEf (w : Word) : Bool := bit w.toNat 29
/-- The block size B. -/
def cfgB (w : Word) : Nat := cfgC w / cfgK w

/-- R270: a valid configuration word. -/
def cfgOk (w : Word) : Bool :=
  cfgThr w != 0 && cfgC w % cfgK w == 0 && bits w.toNat 30 2 == 0 && bits w.toNat 13 3 == 0 && bits w.toNat 7 1 == 0

/-! ## Inference (R268, R277) -/

/-- The literal value of a sample (R268). -/
def litOf (x l : Nat) : Bool := if l % 2 = 0 then bit x (l / 2) else !bit x (l / 2)

/-- The included literals below 2F of a clause, in a plane. -/
def included (plane : List Nat) (f k : Nat) : List Nat :=
  (plane.filter (fun i => decide (2048 * k ≤ i) && decide (i < 2048 * k + 2 * f))).map (· - 2048 * k)

/-- The output of a clause; `e` is the output of an empty one (R277). -/
def clauseOut (plane : List Nat) (f x k : Nat) (e : Bool) : Bool :=
  match included plane f k with
  | [] => e
  | ls => ls.all (litOf x)

/-- R269: the polarity of a clause within its class. -/
def polarity (b k : Nat) : Int := if k % b % 2 = 0 then 1 else -1

/-- R277: the vote of a class. -/
def voteOf (outs : List Bool) (b cls : Nat) : Int :=
  ((List.range b).map (fun i => if outs.getD (cls * b + i) false then polarity b (cls * b + i) else 0)).foldl (· + ·) 0

def outsOf (plane : List Nat) (cfg : Word) (x : Nat) (e : Bool) : List Bool :=
  (List.range (cfgC cfg)).map (fun k => clauseOut plane (cfgF cfg) x k e)

def votesOf (cfg : Word) (outs : List Bool) : List Int := (List.range (cfgK cfg)).map (voteOf outs (cfgB cfg))

/-- R278: the result entry of K votes. -/
def voteEntry (votes : List Int) : Entry :=
  let h := fun (i : Nat) => (votes.getD i 0 % 65536).toNat
  { slots := (List.range 8).map (fun j => if 2 * j < votes.length then BitVec.ofNat 32 (h (2 * j + 1) * 65536 + h (2 * j)) else 0)
    valid := laneMask ((List.range 8).filter (fun j => decide (2 * j < votes.length))) }

/-! ## Training (R279–R281) -/

/-- R281. -/
def draw (seed step : Word) (k l : Nat) : Nat :=
  let x0 : Word := seed ^^^ (step * 0x9E3779B9) ^^^ BitVec.ofNat 32 (k * 65536) ^^^ BitVec.ofNat 32 l
  let x1 := (x0 ^^^ (x0 >>> 16)) * 0x7FEB352D
  let x2 := (x1 ^^^ (x1 >>> 15)) * 0x846CA68B
  (x2 ^^^ (x2 >>> 16)).toNat / 65536

/-- R276, R279: a command in error. -/
def cmdError (c : ClaCmd) : Bool :=
  let d := c.desc.toNat
  let y := bits d 16 4
  let z := bits d 20 4
  bits d 0 11 != cfgF c.cfg || bits d 24 8 != 0 || bits d 11 5 != 0 ||
  (c.kind == .feed && (decide (cfgK c.cfg ≤ y) || decide (cfgK c.cfg ≤ z) || y == z))

/-- One cell of a selected clause after a feed (R279). -/
def feedCell (c : ClaCmd) (table : Tab Word) (typ : Nat) (o : Bool) (k l : Nat) (v : Byte) : Byte :=
  let inc := decide (128 ≤ v.toNat)
  let e := (tgetD 0 table (8 * typ + (if o then 4 else 0) + (if litOf c.sample l then 2 else 0) + (if inc then 1 else 0))).toNat
  let act := bits e 16 2
  let thr := bits e 0 16
  if (act = 1 ∨ act = 2) ∧ (thr = 0xFFFF ∨ draw c.seed c.step k l < thr) then
    (if act = 1 then BitVec.ofNat 8 (min (v.toNat + 1) 255) else BitVec.ofNat 8 (v.toNat - 1))
  else v

/-- The counters of a clause after a feed. -/
def feedClause (rest : Byte) (c : ClaCmd) (table : Tab Word) (typ : Nat) (o : Bool) (k : Nat) (cs : Tab Byte) : Tab Byte :=
  (List.range (2 * cfgF c.cfg)).foldl (fun t l =>
    tputD rest t (2048 * k + l) (feedCell c table typ o k l (tgetD rest t (2048 * k + l)))) cs

/-- R279: the clauses of one of the two classes of a feed. -/
def feedClass (rest : Byte) (c : ClaCmd) (table : Tab Word) (outs : List Bool) (votes : List Int) (cs : Tab Byte) (cls : Nat) (sg : Int) :
    Tab Byte :=
  let t : Int := cfgThr c.cfg
  let w := min (max (votes.getD cls 0) (-t)) t
  let theta := ((t - sg * w) * 65536 / (2 * t)).toNat
  (List.range (cfgB c.cfg)).foldl (fun cs i =>
    let k := cls * cfgB c.cfg + i
    if draw c.seed c.step k 0xFFFF < theta then
      feedClause rest c table (if polarity (cfgB c.cfg) k * sg = 1 then 0 else 1) (outs.getD k false) k cs
    else cs) cs

/-- R273: the include plane of every counter. -/
def planeOf (cs : Tab Byte) : List Nat := (cs.filter (fun p => decide (128 ≤ p.2.toNat))).map (·.1)

/-- R279: the array after a feed that is not in error, and its votes. -/
def runFeed (a : Clac) (c : ClaCmd) : Clac × List Int :=
  let outs := outsOf a.plane c.cfg c.sample (cfgEf c.cfg)
  let votes := votesOf c.cfg outs
  let c1 := feedClass a.rest c a.table outs votes a.counters (bits c.desc.toNat 16 4) 1
  let c2 := feedClass a.rest c a.table outs votes c1 (bits c.desc.toNat 20 4) (-1)
  ({ a with counters := c2, other := a.plane, plane := planeOf c2 }, votes)

/-! ## Images (R287) -/

def imageLen (cfg : Word) : Nat := 2 * cfgF cfg * cfgC cfg

def imageOf (rest : Byte) (cs : Tab Byte) (cfg : Word) : List Byte :=
  (List.range (imageLen cfg)).map (fun i => tgetD rest cs (2048 * (i / (2 * cfgF cfg)) + i % (2 * cfgF cfg)))

def loadImage (rest : Byte) (cfg : Word) (cs : Tab Byte) (bs : List Byte) : Tab Byte :=
  bs.zipIdx.foldl (fun t p => tputD rest t (2048 * (p.2 / (2 * cfgF cfg)) + p.2 % (2 * cfgF cfg)) p.1) cs

/-! ## Execution in acceptance order (R273, R274) -/

/-- Some earlier command has not ended. -/
def anyKind (cs : List ClaCmd) (ok : ClaKind → Bool) : Bool := cs.any (fun c => ok c.kind)

/-- R274: a command may start after the commands before it. -/
def mayStart (before : List ClaCmd) (k : ClaKind) : Bool :=
  match k with
  | .eval => before.all (·.started) && !anyKind before (fun x => x == .feed || x == .ld)
  | .feed => before.all (·.started) && !anyKind before (fun x => x == .feed || x == .ld || x == .tab)
  | _ => before.isEmpty

/-- Start a command: an eval takes its votes, a cla.st its image (R273). -/
def startCmd (a : Clac) (c : ClaCmd) : ClaCmd :=
  match c.kind with
  | .eval =>
    let e := if cmdError c then errorEntry
      else voteEntry (votesOf c.cfg (outsOf a.plane c.cfg c.sample (cfgEe c.cfg)))
    { c with started := true, slots := (BitVec.zeroExtend 32 e.valid) :: e.slots }
  | .st => { c with started := true, image := imageOf a.rest a.counters c.cfg }
  | _ => { c with started := true }

/-- Start the first waiting command if its turn has come; the commands before it are given. -/
def startFirst (a : Clac) (before : List ClaCmd) : List ClaCmd → List ClaCmd
  | [] => []
  | c :: cs =>
    if c.started then c :: startFirst a (before ++ [c]) cs
    else if mayStart before c.kind then startCmd a c :: cs
    else c :: cs

def execClaCommandStart (core : Nat) (s : State) : Out :=
  .next (s.modClac core (fun a => { a with cmds := startFirst a [] a.cmds }))

/-- R290: the entries of the commands up to the next cla.ld or cla.cfg, in acceptance order, are error entries; the cla.ld notes that
they go on if it fails. -/
def spoil : List ClaCmd → List ClaCmd
  | [] => []
  | c :: cs =>
    if c.cfgd then c :: cs
    else if c.kind = .ld then { c with spoiled := true } :: cs
    else { c with spoiled := true } :: spoil cs

/-- Take the first command of the kinds given out of the list. -/
def takeCmd (ok : ClaKind → Bool) : List ClaCmd → Option (ClaCmd × List ClaCmd)
  | [] => none
  | c :: cs =>
    if ok c.kind then some (c, cs)
    else (takeCmd ok cs).map (fun p => (p.1, c :: p.2))

/-- Post a result entry to the issuing flight; an error entry sets its endpoint's status (R278). -/
def State.postResult (s : State) (w : Issuer) (e : Entry) : State :=
  let s1 := s.postEntry w.fk 3 w.spell true e
  if e = errorEntry ∧ (tget s.landings (landingOf w.fk)).any (fun l => l.spell == w.spell) then s1.modEnd w.fk 3 (fun x => { x with error := true }) else s1

/-- An eval ends: its entry, in the acceptance order of evals and feeds (R278). -/
def State.evalDone (s : State) (core : Nat) : State :=
  match takeCmd (fun k => k == .eval || k == .feed) (s.clac core).cmds with
  | some (c, rest) =>
    if c.kind = .eval ∧ c.started then
      let e : Entry := if c.spoiled then errorEntry else { slots := c.slots.drop 1, valid := (c.slots.headD 0).truncate 8 }
      ((s.modClac core (fun a => { a with cmds := rest })).postResult c.who e).completeEng c.who.fk .mx c.op [0, 0, 0, 0]
    else s
  | none => s

/-- A feed's sweep ends: the counters, the planes, its entry (R279). R290 makes the entries of a period error entries and does not say
whether a feed of the period, or the one that found the error, still trains the reset counters: in the model it does (DESIGN CHOICE,
log entry 87). -/
def State.sweepEnd (s : State) (core : Nat) : State :=
  match takeCmd (fun k => k == .eval || k == .feed) (s.clac core).cmds with
  | some (c, rest) =>
    if c.kind = .feed ∧ c.started then
      let a := { s.clac core with cmds := rest }
      let bad := cmdError c
      let r := if bad then (a, []) else runFeed a c
      let e := if bad || c.spoiled then errorEntry else voteEntry r.2
      ((s.modClac core (fun _ => r.1)).postResult c.who e).completeEng c.who.fk .mx c.op [0, 0, 0, 0]
    else s
  | none => s

/-- Read an image of `n` bytes for a command. -/
def readImage (s : State) (c : ClaCmd) (n : Nat) : Work × List Byte :=
  let r := s.reach c.who 0
  match c.space with
  | .hall => (Work.start s).readHall r c.addr n
  | _ => (Work.start s).readGlobal r (canon (BitVec.ofNat 64 c.addr)) n

/-- R280: the table of 16 words. -/
def tableOf (ws : List Word) : Tab Word := (ws.zipIdx.map (fun p => (p.2, p.1))).filter (fun p => p.2 ≠ 0)

/-- Remove the range record of an operation (R237). -/
def State.dropRange (s : State) (core fk n : Nat) : State :=
  { s with mem := { s.mem with ranges := tmodD [] s.mem.ranges core (fun l => l.filter (fun r => !(r.fk == fk && r.op == n))) } }

/-- cla.ld, cla.st or cla.tab ends (R286, R287). A failed read changes nothing; a failure ends the tread. R290 ends a period of error
entries with a cla.ld and does not say whether one whose read fails does: in the model it does not (DESIGN CHOICE, log
entry 87). A cla.ld that found the error itself does not end the period that it begins. -/
def State.imageDone (s : State) (core : Nat) : State :=
  match takeCmd (fun k => k == .ld || k == .st || k == .tab) (s.clac core).cmds with
  | some (c, rest) =>
    if !c.started then s
    else
      let s0 := s.modClac core (fun a => { a with cmds := rest })
      match c.kind with
      | .ld =>
        let x := readImage s0 c (imageLen c.cfg)
        let s1 := match x.1.err with
          | some _ => (x.1.settle c.who).modClac core (fun a => if c.spoiled then { a with cmds := spoil a.cmds } else a)
          | none => x.1.st.modClac core (fun a =>
              let cs := loadImage a.rest c.cfg a.counters x.2
              { a with counters := cs, plane := planeOf cs, other := planeOf cs, failed := c.finder && a.failed })
        s1.completeEng c.who.fk .cp c.op x.1.clock
      | .tab =>
        let x := readImage s0 c 64
        let s1 := match x.1.err with
          | some _ => x.1.settle c.who
          | none => x.1.st.modClac core (fun a =>
              { a with table := tableOf (wordsLE x.2) })
        s1.completeEng c.who.fk .mx c.op x.1.clock
      | _ =>
        let r := s0.reach c.who 0
        let k := match c.space with
          | .hall => (Work.start s0).writeHall r c.addr c.image
          | _ => (Work.start s0).writeGlobal r (canon (BitVec.ofNat 64 c.addr)) c.image
        ((k.settle c.who).dropRange core c.who.fk c.op).completeEng c.who.fk .cp c.op k.clock
  | none => s

def execClaEvalComplete (core : Nat) (s : State) : Out := .next (s.evalDone core)
def execClaSweepEnd (core : Nat) (s : State) : Out := .next (s.sweepEnd core)
def execClaImageComplete (core : Nat) (s : State) : Out := .next (s.imageDone core)

/-! ## CLA at issue (R276, R282, R283) -/

/-- A sample from the quads of the lanes given (R276). -/
def sampleOf (q : List (Nat × Thread)) (v : Nat) : Nat :=
  q.foldl (fun (x : Nat) (p : Nat × Thread) =>
    x + (List.range 4).foldl (fun y i => y + (p.2.reg (v + i)).toNat * 2 ^ (32 * i)) 0 * 2 ^ (128 * p.1)) 0

/-- R290: a later cla.ld ends a period of error entries; the one that found the error does not. -/
def ClaCmd.endsErrors (c : ClaCmd) : Bool := c.kind == .ld && !c.finder

/-- A command of the issuing flight, the configuration, seed and step as they stand (R273, R290). -/
def claCmd (a : Clac) (c : Ctx) (kind : ClaKind) (lane op : Nat) : ClaCmd :=
  { kind := kind, who := c.issuer lane, op := op, cfg := a.cfg, seed := a.seed, step := a.step, sample := 0, desc := 0,
    space := .hall, addr := 0, started := false, spoiled := a.failed && !a.cmds.any ClaCmd.endsErrors, cfgd := a.cfgd, finder := false, slots := [], image := [] }

/-- The lanes of G with their threads, split by a check: those that pass, and the traps of the others. -/
def splitLanes (s : State) (fk : Nat) (ls : List Nat) (chk : Thread → Option Trap) : List (Nat × Thread) × List (Nat × Res) :=
  let all := ls.filterMap (fun l => (s.thread? fk l).map (fun t => (l, t)))
  (all.filter (fun p => (chk p.2).isNone), all.filterMap (fun p => (chk p.2).map (fun x => (p.1, Res.trap x))))

/-- A predicate written in the lanes given, where the form is non-blocking. -/
def setPreds (fk : Nat) (nb : Option Nat) (b : Bool) (ls : List Nat) (s : State) : State :=
  match nb with
  | some p => ls.foldl (fun s l => s.modThread fk l (fun t => t.setPred p b)) s
  | none => s

/-- The result predicate of a queue form: p when nb = 1 (R219). -/
def nbPred (p : BitVec 3) (n : BitVec 1) : Option Nat := if n = 1 then some p.toNat else none

/-- Some lanes of G may trap; the rest of the group, guard-false lanes included, is held by a stall. `l` is a lane that passes. -/
def holdOthers (l : Nat) (st : Stall) (bad : List (Nat × Res)) : List (Nat × Res) := bad ++ [(l, .hold st)]

/-- R220, R283, R299, R451, R459: an unbound queue register traps in every lane of G, after the register checks `chk` of a lane,
which R105 ranks before it. -/
def unboundAll (s : State) (c : Ctx) (chk : Nat → Thread → Option Trap) (ls : List Nat) (q : Nat) : List (Nat × Res) :=
  ls.map (fun l => (l, .trap (((s.thread? c.fk l).bind (chk l)).getD (trap .queueUnbound q))))

/-- The register check of every lane of G. -/
def everyLane (c : Ctx) (us : List RegUse) : Nat → Thread → Option Trap := fun _ t => regTrap c.ld.regs t us

/-- The register check of the lowest lane of G alone. -/
def lowestLane (c : Ctx) (us : List RegUse) (ls : List Nat) : Nat → Thread → Option Trap := fun l t =>
  if l = ls.headD 0 then regTrap c.ld.regs t us else none

/-- cla.eval and cla.feed (R283). -/
def claFeed (kind : ClaKind) (v : BitVec 6) (q : BitVec 4) (g : BitVec 3) (s : State) : Out :=
  .next (issue s HintUse.none g (fun c ls s =>
    let regs := (List.range 5).map (fun i => v.toNat + i)
    let chk := fun (t : Thread) =>
      if v.toNat % 4 ≠ 0 then some (trap .illegalRegister v.toNat)
      else
        match illegalReg c.ld.regs (regs.map (fun r => { r := r, n := 1 })) with
        | some x => some x
        | none => if 64 ≤ v.toNat + 4 then some (trap .illegalRegister 64) else leaseTrap t regs
    if (s.binding c.fl q.toNat).map (·.1) ≠ some 3 then (s, unboundAll s c (fun _ => chk) ls q.toNat)
    else if anyAwaits s c.fk regs ls then (s, [(ls.headD 0, .hold .register)])
    else
      let x := splitLanes s c.fk ls chk
      let good := x.1
      let bad := x.2
      match good with
      | [] => (s, bad)
      | p :: _ =>
        let a := s.clac c.ld.core
        if 64 ≤ a.cmds.length ∨ (c.fl.endpoint 3).space = 0 then (s, holdOthers p.1 .engine bad)
        else if c.fl.full .mx then (s, holdOthers p.1 .classFull bad)
        else
          let cmd := { claCmd a c kind p.1 c.fl.cMx.issued with
            sample := sampleOf good v.toNat, desc := p.2.reg (v.toNat + 4) }
          let s1 := s.modClac c.ld.core (fun a =>
            { a with cmds := a.cmds ++ [cmd], cfgd := false, step := if kind = .feed then a.step + 1 else a.step })
          ((s1.modEnd c.fk 3 (fun e => { e with reserved := e.reserved + 1 })).joinOp c.fk .mx,
            allDone (good.map (·.1)) ++ bad)))

def execClaEval (v : BitVec 6) (q : BitVec 4) (g : BitVec 3) (s : State) : Out := claFeed .eval v q g s
def execClaFeed (v : BitVec 6) (q : BitVec 4) (g : BitVec 3) (s : State) : Out := claFeed .feed v q g s

/-- Record a pending pop and lease its registers in the lanes given (R218, R220). The whole group waits for it. -/
def recordPop (c : Ctx) (q : Nat) (kind : PopKind) (reg n : Nat) (ls : List Nat) (s : State) : State :=
  let s1 := s.modQ c.fk q (fun r =>
    { r with pend := some { kind := kind, reg := reg, lanes := ls, group := c.lanes, npc := nextPc c.pc, start := c.start } })
  ls.foldl (fun s l => s.modThread c.fk l (fun t =>
    { t with leases := t.leases ++ (List.range n).map (fun i => { reg := reg + i, by_ := .pop q }) })) s1

/-- The lanes of the pending pop of a queue register. -/
def QueueReg.waiting (r : QueueReg) : List Nat :=
  match r.pend with
  | some p => p.lanes
  | none => []

/-- What a pop takes: nothing yet, or the state with its registers written and the results of its lanes. -/
abbrev Take := State → List Nat → Option (State × List (Nat × Res))

/-- A pop of a bound queue register (R220, R283, R299, R451, R459). Lanes whose register checks fail trap, in the order of R105;
nothing is taken then (R222, R302), and the others try again; lanes of the pending pop wait on in any case. With enough to take the lanes take it. Otherwise a
non-blocking form writes 0, and a blocking one records a pending pop, unless one is pending: at most one is (R218). A lane of
the pending pop that tries again waits on. -/
def popBody (c : Ctx) (q : Nat) (kind : PopKind) (st : Stall) (u : RegUse) (nb : Option Nat) (take : Take)
    (enlist : State → State) (ls : List Nat) (s : State) : State × List (Nat × Res) :=
  let r := c.fl.qreg q
  match ls.filter (fun l => !r.waiting.contains l) with
  | [] => (s.modQ c.fk q (fun r => { r with pend := r.pend.map (fun p => { p with group := c.lanes }) }), ls.map (fun l => (l, .hold st)))
  | new =>
    if anyAwaits s c.fk u.regs new then (s, [(ls.headD 0, .hold .register)])
    else
      let x := splitLanes s c.fk new (fun t => regTrap c.ld.regs t [u])
      let good := x.1.map (·.1)
      if good.isEmpty then (s, x.2 ++ (ls.filter r.waiting.contains).map (fun l => (l, .hold st)))
      else if !x.2.isEmpty then (s, holdOthers (good.headD 0) st x.2)
      else
        match (if r.pend.isSome then none else take s good) with
        | some y => (setPreds c.fk nb true good y.1, y.2)
        | none =>
          if nb.isSome then (setPreds c.fk nb false good s, allDone good)
          else if r.pend.isSome then (s, [(ls.headD 0, .hold st)])
          else (enlist (recordPop c q kind u.r u.n good s), [(ls.headD 0, .hold st)])

/-- What a pop of an endpoint of the flight takes: its oldest entry; cla.vote clamps it and traps on an error entry (R283). -/
def takeEntry (c : Ctx) (cls : Nat) (kind : PopKind) (v : Nat) : Take := fun s good =>
  match (c.fl.endpoint cls).entries with
  | [] => none
  | e :: es =>
    let s1 := s.modEnd c.fk cls (fun x => { x with entries := es })
    if kind = .vote ∧ e = errorEntry then some (s1, good.map (fun l => (l, .trap (trap .engineError 3))))
    else
      let e' := if kind = .vote then { e with slots := e.slots.map (clampVotes (cfgThr (s.clac c.ld.core).cfg)) } else e
      some (good.foldl (fun s l => s.modThread c.fk l (Thread.takeSlot e' v l)) s1, allDone good)

/-- A pop of an endpoint of the flight (R220, R283); with its register leased in some lane nothing is popped (R222). -/
def popEndpoint (c : Ctx) (q cls : Nat) (kind : PopKind) (v : Nat) (nb : Option Nat) (ls : List Nat) (s : State) :
    State × List (Nat × Res) :=
  popBody c q kind .queue { r := v, n := 1 } nb (takeEntry c cls kind v)
    (fun s => s.modEnd c.fk cls (fun e => { e with waiters := e.waiters ++ [q] })) ls s

def execClaVote (v : BitVec 6) (q : BitVec 4) (g : BitVec 3) (s : State) : Out :=
  .next (issue s HintUse.none g (fun c ls s =>
    if (s.binding c.fl q.toNat).map (·.1) ≠ some 3 then (s, unboundAll s c (everyLane c [one v]) ls q.toNat)
    else popEndpoint c q.toNat 3 .vote v.toNat none ls s))

/-! ## CLACTL at issue (R285–R288) -/

/-- R286: the checks of EA: alignment, one valid slice, or one lease with the needed access. -/
def claAddr (c : Ctx) (s : State) (h : BitVec 1) (a : BitVec 6) (t : Thread) (n : Nat) (w : Bool) : Option Res × Space × Nat :=
  if h = 1 then (areaCheck c (s.coresOf c.tr.part) (t.reg a.toNat) n w, .hall, (t.reg a.toNat).toNat)
  else
    let e := t.pair a.toNat
    (if e.toNat % 64 ≠ 0 then some (.trap (dataTrap .misalignedAccess 64 e w))
     else if !isCanon e || (leaseFor c.tr.leases (va57 e) n (!w) w).isNone then some (.ends 0x40 e w)
     else none, .stack, va57 e)

/-- R237: the hall range of an operation in the core's own slice. -/
def ownRange (c : Ctx) (a n : Nat) : Bool := decide (0 < n) && a / 2 ^ 21 == c.ld.core % 24

/-- Record the range of an operation (R237). -/
def addRange (c : Ctx) (a n op : Nat) (s : State) : State :=
  { s with mem := { s.mem with ranges := tmodD [] s.mem.ranges c.ld.core (fun l =>
      l ++ [{ fk := c.fk, op := op, lo := hallKey c.ld.core a, hi := hallKey c.ld.core a + n }]) } }

def rangesFull (s : State) (core : Nat) : Bool := decide (64 ≤ (tgetD [] s.mem.ranges core).length)

/-- A command of CLACTL from the lowest lane L of G (R286). Where L traps the spec does not say whether the command is taken from the
next lane, as R283 has it of CLA: the model issues none, and the other lanes go on (DESIGN CHOICE, log entry 101). -/
def clactl (us : List RegUse) (g : BitVec 3) (f : Ctx → State → Thread → Nat → List Nat → State × List (Nat × Res)) (s : State) :
    Out :=
  .next (issue s HintUse.none g (fun c ls s =>
    let l := ls.headD 0
    match s.thread? c.fk l with
    | none => (s, [])
    | some t =>
      if anyAwaits s c.fk (allRegs us) [l] then (s, [(l, .hold .register)])
      else
        match regTrap c.ld.regs t us with
        | some x => (s, laneRes ls l (.trap x))
        | none => f c s t l ls))

/-- cla.ld, cla.st, cla.tab: the checks, the holds, the acceptance. -/
def claImage (kind : ClaKind) (a : BitVec 6) (h : BitVec 1) (g : BitVec 3) (s : State) : Out :=
  clactl [baseUse h a] g (fun c s t l ls =>
    let cl := s.clac c.ld.core
    let n := if kind = .tab then 64 else imageLen cl.cfg
    let cls : Cls := if kind = .tab then .mx else .cp
    let x := claAddr c s h a t n (kind == .st)
    let own := kind == .st && h == 1 && ownRange c x.2.2 n
    match x.1 with
    | some r => (s, laneRes ls l r)
    | none =>
      if 64 ≤ cl.cmds.length then (s, [(l, .hold .engine)])
      else if c.fl.full cls then (s, [(l, .hold .classFull)])
      else if own && rangesFull s c.ld.core then (s, [(l, .hold .scoreboard)])
      else
        let num := (c.fl.counter cls).issued
        let cmd := { claCmd cl c kind l num with space := x.2.1, addr := x.2.2 }
        let s1 := s.modClac c.ld.core (fun a => { a with cmds := a.cmds ++ [cmd], cfgd := false })
        let s2 := if own then addRange c x.2.2 n num s1 else s1
        (s2.joinOp c.fk cls, allDone ls)) s

def execClaLd (a : BitVec 6) (h : BitVec 1) (g : BitVec 3) (s : State) : Out := claImage .ld a h g s
def execClaSt (a : BitVec 6) (h : BitVec 1) (g : BitVec 3) (s : State) : Out := claImage .st a h g s
def execClaTab (a : BitVec 6) (g : BitVec 3) (s : State) : Out := claImage .tab a 1 g s

/-- cla.seed and cla.cfg take effect at acceptance (R275); they too are held while the buffer is full. -/
def execClaSeed (a : BitVec 6) (g : BitVec 3) (s : State) : Out :=
  clactl [one a] g (fun c s t l ls =>
    if 64 ≤ (s.clac c.ld.core).cmds.length then (s, [(l, .hold .engine)])
    else (s.modClac c.ld.core (fun x => { x with seed := t.reg a.toNat, step := 0 }), allDone ls)) s

def execClaCfg (a : BitVec 6) (g : BitVec 3) (s : State) : Out :=
  clactl [one a] g (fun c s t l ls =>
    if !cfgOk (t.reg a.toNat) then (s, laneRes ls l (.trap (trap .illegalFormat 0)))
    else if 64 ≤ (s.clac c.ld.core).cmds.length then (s, [(l, .hold .engine)])
    else (s.modClac c.ld.core (fun x => { x with cfg := t.reg a.toNat, failed := false, cfgd := true }), allDone ls)) s

/-- R288: the status word. -/
def claStatus (a : Clac) : Word :=
  BitVec.ofNat 32 (min a.cmds.length 64 * 256 + (if a.cmds.any (fun c => c.kind == .feed && c.started) then 1 else 0))

def execClaStat (d : BitVec 6) (g : BitVec 3) (s : State) : Out :=
  .next (laneOp s HintUse.none g [pair d] (fun c s _ t =>
    let a := s.clac c.ld.core
    .ok ((t.setReg d.toNat a.step).setReg (d.toNat + 1) (claStatus a)) 0))

end Sys2Proof.Machine
end

