-- ==== Sys2Proof/Machine/Cluster.lean ====
section
/-!
DEFINITION. The cluster's instructions (14_cluster.md): HALL (R298–R302) and COPY (R304–R310), and the execution of
copies at COPY_COMPLETE.
-/

namespace Sys2Proof.Machine

/-! ## HALL (R299, R301) -/

/-- R299: delete a queue: its entries go, pending takes through it are cancelled. -/
def State.deleteHq (s : State) (base : Nat) : State :=
  match tget s.hqueues base with
  | none => s
  | some h => { (h.takers.foldl (fun s p => s.cancelPop p.1 p.2) s) with hqueues := tdel s.hqueues base }

/-- R299: the slice holds 16 queues, or the storage overlaps a queue's. -/
def hqClash (s : State) (base n : Nat) : Bool :=
  decide (16 ≤ (s.hqueues.filter (fun p => decide (p.1 / 2 ^ 21 = base / 2 ^ 21))).length) ||
  s.hqueues.any (fun p => decide (p.1 < base + n) && decide (base < p.1 + 16 * 2 ^ p.2.cap))

/-- hst at issue (R299). -/
def hstBody (v : BitVec 6) (q : Nat) (c : Ctx) (s : State) (t : Thread) (l : Nat) (ls : List Nat) : State × List (Nat × Res) :=
  let base := t.reg v.toNat
  let cfg := (t.reg (v.toNat + 1)).toNat
  let k := bits cfg 0 4
  let g := bits cfg 8 8
  let n := 16 * 2 ^ k
  if k ≠ 0 ∧ base.toNat % 16 ≠ 0 then
    (s, laneRes ls l (.trap (dataTrap .misalignedAccess 16 (base.zeroExtend 64) false)))
  else if k ≠ 0 ∧ !oneSlice (s.coresOf c.tr.part) c.ld.core base.toNat n then
    (s, laneRes ls l (.ends 0x43 (base.zeroExtend 64) false))
  else
    let at_ := hallKey c.ld.core base.toNat
    let s1 := s.unbindQ c.fk q
    -- DEDUCED (R224, R299): a deletion is no refusal, so the status it leaves is OK
    -- a base that is no address of the partition's slices in its cluster (R294) names no queue
    if k = 0 then
      ((if oneSlice (s.coresOf c.tr.part) c.ld.core base.toNat 1 then s1.deleteHq at_ else s1).modQ c.fk q (fun r =>
        { r with status := 0 }), allDone ls)
    else if k < 4 ∨ 12 < k ∨ bits cfg 16 16 ≠ 0 ∨ bits cfg 4 4 ≠ 0 ∨ hqClash s1 at_ n then
      (s1.modQ c.fk q (fun r => { r with status := 1 }), allDone ls)
    else
      let h : HallQueue :=
        { made := s1.nextQueue, owner := c.ld.tid, cap := k, batch := if g = 0 then 16 else g, pool := 2 ^ k, unret := 0, head := 0, tail := 0, reqs := [], takers := [] }
      let s2 := { s1 with hqueues := tput s1.hqueues at_ h, nextQueue := s1.nextQueue + 1 }
      (s2.modQ c.fk q (fun r => { r with bound := some (8, at_), made := h.made, status := 0, credit := 0 }), allDone ls)

def execHst (v : BitVec 6) (q : BitVec 4) (g : BitVec 3) (s : State) : Out :=
  clactl [pair v] g (hstBody v q.toNat) s

/-- The queue that a queue register is bound to (R299). -/
def hqOf (s : State) (c : Ctx) (q : Nat) : Option (Nat × HallQueue) :=
  match s.binding c.fl q with
  | some (8, b) => (tget s.hqueues b).map (fun h => (b, h))
  | _ => none

/-- Send a request for credits, unless one of the binding waits (R297): a post that is tried again, with more lanes too, sends no
second one before that is granted (DESIGN CHOICE, log entry 103: the rule does not say what a second short post sends). -/
def askCredit (s : State) (fk q base need : Nat) : State :=
  s.modHq base (fun h => if h.reqs.any (fun r => r.fk == fk && r.q == q) then h
    else { h with reqs := h.reqs ++ [{ fk := fk, q := q, need := need }] })

def execHpost (v : BitVec 6) (q : BitVec 4) (p : BitVec 3) (n : BitVec 1) (g : BitVec 3) (s : State) : Out :=
  .next (issue s HintUse.none g (fun c ls s =>
    match hqOf s c q.toNat with
    | none => (s, unboundAll s c (everyLane c [quad v]) ls q.toNat)
    | some (base, h) =>
      if anyAwaits s c.fk (quad v).regs ls then (s, [(ls.headD 0, .hold .register)])
      else
        let r := splitLanes s c.fk ls (fun t => regTrap c.ld.regs t [quad v])
        match r.1 with
        | [] => (s, r.2)
        | (l, _) :: _ =>
          let good := r.1.map (·.1)
          let k := (c.fl.qreg q.toNat).credit
          if k < good.length then
            let s1 := askCredit s c.fk q.toNat base (good.length - k)
            if n = 1 then (setPreds c.fk (nbPred p n) false good s1, allDone good ++ r.2)
            else (s1, holdOthers l .hallQueue r.2)
          else if c.fl.full .st then (s, holdOthers l .classFull r.2)
          else
            let post : HallPost :=
              { who := c.issuer l, q := q.toNat, base := base, made := h.made, clock := c.fl.cover, entries := r.1.map (fun x => x.2.regList v.toNat 4),
                op := c.fl.cSt.issued, lanes := good, upto := s.mem.nextAcc }
            let s1 := (s.modQ c.fk q.toNat (fun x => { x with credit := x.credit - good.length })).joinOp c.fk .st
            (setPreds c.fk (nbPred p n) true good { s1 with posts := s1.posts ++ [post] }, allDone good ++ r.2)))

/-- What a take receives: the n oldest entries, once the queue holds as many (R299). The rule does not order a take that finds enough
entries against pending takes that need more: the model lets it take them (DESIGN CHOICE, log entry 103). -/
def takeHall (c : Ctx) (v base : Nat) (h : HallQueue) : Take := fun s good =>
  if h.held < good.length then none
  else
    let s1 := good.zipIdx.foldl (fun s x => s.modThread c.fk x.1 (fun t =>
      t.setRegs v (entryWords s.mem.hall (h.slot base (h.head + x.2))))) s
    some (s1.modHq base (fun h =>
      ({ h with head := h.head + good.length, unret := h.unret + good.length } : HallQueue).autoFree), allDone good)

/-- hqtake (R299). With a lane whose quad traps nothing is taken (R302). -/
def execHqtake (v : BitVec 6) (q : BitVec 4) (p : BitVec 3) (n : BitVec 1) (g : BitVec 3) (s : State) : Out :=
  .next (issue s HintUse.none g (fun c ls s =>
    match hqOf s c q.toNat with
    | none => (s, unboundAll s c (everyLane c [quad v]) ls q.toNat)
    | some (base, h) =>
      popBody c q.toNat .take .hallQueue (quad v) (nbPred p n) (takeHall c v.toNat base h)
        (fun s => s.modHq base (fun h => { h with takers := h.takers ++ [(c.fk, q.toNat)] })) ls s))

def execHqfree (v : BitVec 6) (q : BitVec 4) (g : BitVec 3) (s : State) : Out :=
  .next (issue s HintUse.none g (fun c ls s =>
    match hqOf s c q.toNat, s.thread? c.fk (ls.headD 0) with
    | some (base, _), some t =>
      if anyAwaits s c.fk [v.toNat] [ls.headD 0] then (s, [(ls.headD 0, .hold .register)])
      else
        match regTrap c.ld.regs t [one v] with
        | some x => (s, laneRes ls (ls.headD 0) (.trap x))
        | none =>
          (s.modHq base (fun h =>
            let m := min (t.reg v.toNat).toNat h.unret
            { h with unret := h.unret - m, pool := h.pool + m }), allDone ls)
    | _, _ => (s, unboundAll s c (lowestLane c [one v] ls) ls q.toNat)))

/-- R301. -/
def hqWords (h : HallQueue) (k : Nat) : Word × Word :=
  (BitVec.ofNat 32 (h.held * 65536 + h.pool), BitVec.ofNat 32 (h.unret * 65536 + min k 255 * 256 + h.cap))

def execHqstat (v : BitVec 6) (q : BitVec 4) (g : BitVec 3) (s : State) : Out :=
  .next (issue s HintUse.none g (fun c ls s =>
    match hqOf s c q.toNat with
    | none => (s, unboundAll s c (everyLane c [pair v]) ls q.toNat)
    | some (_, h) =>
      let w := hqWords h (c.fl.qreg q.toNat).credit
      laneBody [pair v] (fun _ _ _ t => .ok ((t.setReg v.toNat w.1).setReg (v.toNat + 1) w.2) 0) c ls s))

/-! ## COPY at issue (R304–R306) -/

/-- R304: esz. -/
def eszOf (n : Nat) : Nat :=
  match n with
  | 0 => 4
  | 1 => 8
  | 2 => 16
  | _ => 64

/-- The descriptor of a COPY instruction as lane L holds it. -/
structure CopyDesc where
  ga  : DWord
  h   : Word
  ctl : Nat
  hd  : Word
  deriving DecidableEq, Repr

def CopyDesc.len (d : CopyDesc) : Nat := bits d.ctl 0 24
def CopyDesc.toGlobal (d : CopyDesc) : Bool := bit d.ctl 31
def CopyDesc.esz (d : CopyDesc) : Nat := eszOf (bits d.ctl 30 2)
def CopyDesc.count (d : CopyDesc) : Nat := bits d.ctl 0 13

/-- The kinds that move elements. -/
def CopyKind.elems : CopyKind → Bool
  | .gather => true
  | .scatter => true
  | _ => false
/-- The kinds that work on whole tiles. -/
def CopyKind.tiles : CopyKind → Bool
  | .fill => true
  | .flush => true
  | .pref => true
  | _ => false
/-- The kinds with a hall side named by H. -/
def CopyKind.hallSide : CopyKind → Bool
  | .cp => true
  | .fill => true
  | _ => false

def misaligned (detail : Nat) (a : DWord) (w : Bool) : Option Res := some (.trap (dataTrap .misalignedAccess detail a w))

/-- R306: the checks on values in their order. `toRegs` is `.r`. The rule gives no fault address where only the length is misaligned:
the model reports Ga (DESIGN CHOICE, log entry 88). Nor does it say whether a range of no bytes has to be valid or leased: the
model checks no such range (DESIGN CHOICE, log entry 88). -/
def copyChecks (c : Ctx) (s : State) (k : CopyKind) (toRegs : Bool) (d : CopyDesc) : Option Res :=
  let h64 : DWord := d.h.zeroExtend 64
  let hd64 : DWord := d.hd.zeroExtend 64
  let cores := s.coresOf c.tr.part
  if k.elems then
    let e := d.esz
    let wr := k == .scatter
    firstRes [
      if d.h.toNat % 4 ≠ 0 then misaligned 4 h64 false else none,
      if d.ga.toNat % e ≠ 0 then misaligned e d.ga wr else none,
      if !toRegs && d.hd.toNat % e != 0 then misaligned e hd64 (!wr) else none,
      if bits d.ctl 13 17 ≠ 0 ∨ 4096 < d.count then some (.trap (trap .illegal 0)) else none,
      if d.count ≠ 0 ∧ !oneSlice cores c.ld.core d.h.toNat (4 * d.count) then some (.ends 0x43 h64 false) else none,
      if d.count ≠ 0 ∧ !toRegs ∧ !oneSlice cores c.ld.core d.hd.toNat (e * d.count) then some (.ends 0x43 hd64 (!wr)) else none]
  else
    let m := if k.tiles then 4096 else 16
    let wr := k == .cp && d.toGlobal
    let any := k == .flush || k == .pref
    firstRes [
      if d.ga.toNat % m ≠ 0 then misaligned m d.ga wr else none,
      if k.hallSide && d.h.toNat % m != 0 then misaligned m h64 (!wr) else none,
      if d.len % m ≠ 0 then misaligned m d.ga wr else none,
      if bits d.ctl 24 7 ≠ 0 ∨ (k = .fill ∧ d.toGlobal) then some (.trap (trap .illegal 0)) else none,
      if k.hallSide && d.len != 0 && !oneSlice cores c.ld.core d.h.toNat d.len then some (.ends 0x43 h64 (!wr)) else none,
      if d.len ≠ 0 ∧ (!isCanon d.ga || (leaseFor c.tr.leases (va57 d.ga) d.len (!any && !wr) (!any && wr)).isNone) then
        some (.ends 0x40 d.ga wr) else none]

/-- The hall destination of an operation: where, how long (R237). -/
def copyDest (k : CopyKind) (toRegs : Bool) (d : CopyDesc) : Nat × Nat :=
  match k with
  | .cp => if d.toGlobal then (0, 0) else (d.h.toNat, d.len)
  | .fill => (d.h.toNat, d.len)
  | .gather => if toRegs then (0, 0) else (d.hd.toNat, d.esz * d.count)
  | _ => (0, 0)

/-- R307: the registers of a `.r` gather. -/
def gatherRegs (d : CopyDesc) : Nat := ceilDiv d.count 8 * (d.esz / 4)

/-- R307: the destination check of a `.r` gather in one lane. -/
def gatherTrap (n base : Nat) (d : CopyDesc) (t : Thread) : Option Trap :=
  let w := gatherRegs d
  if base % min (d.esz / 4) 4 ≠ 0 ∨ min n 64 < base + w then some (trap .illegalRegister base)
  else leaseTrap t ((List.range w).map (fun i => base + i))

/-- Accept a copy (R306, R307): an operation of length 0 completes at once. -/
def acceptCopy (c : Ctx) (op : CopyOp) (own : Bool) (dst : Nat × Nat) (s : State) : State :=
  let s1 := s.joinOp c.fk .cp
  let entry := fun (s : State) => match op.entry with
    | some cls => s.postEntry c.fk cls c.ld.spell false
        { slots := [0, 0, BitVec.ofNat 32 op.op, 0, 0, 0, 0, 0], valid := 0x07 }
    | none => s
  if op.len = 0 then entry (s1.completeEng c.fk .cp op.op [0, 0, 0, 0])
  else
    let s2 := match op.entry with
      | some cls => s1.modEnd c.fk cls (fun e => { e with reserved := e.reserved + 1 })
      | none => s1
    let s3 := { s2 with copies := tmodD [] s2.copies c.ld.core (fun l => l ++ [op]) }
    if own then addRange c dst.1 dst.2 op.op s3 else s3

/-- A COPY instruction (R305–R307). `dreg` is the d register of gather and scatter. -/
def copy (k : CopyKind) (toRegs : Bool) (dreg : Option (BitVec 6)) (a : BitVec 6) (e : BitVec 1) (q : BitVec 4) (g : BitVec 3)
    (s : State) : Out :=
  .next (issue s HintUse.memory g (fun c ls s =>
    let l := ls.headD 0
    match s.thread? c.fk l with
    | none => (s, [])
    | some t =>
      let us := quad a :: (match dreg with
        | some d => if toRegs then [] else [one d]
        | none => [])
      if anyAwaits s c.fk (allRegs us) [l] then (s, [(l, .hold .register)])
      else
        match regTrap c.ld.regs t us with
        | some x => (s, laneRes ls l (.trap x))
        | none =>
          let d : CopyDesc :=
            { ga := t.pair a.toNat, h := t.reg (a.toNat + 2), ctl := (t.reg (a.toNat + 3)).toNat
              hd := match dreg with
                | some r => t.reg r.toNat
                | none => 0 }
          let base := (dreg.getD 0).toNat
          let split := if toRegs then splitLanes s c.fk ls (gatherTrap c.ld.regs base d) else ([], [])
          let awaited := toRegs && anyAwaits s c.fk ((List.range (gatherRegs d)).map (fun i => base + i)) ls
          let cls := if k.elems then 5 else 4
          let n := if k.elems then d.count else d.len
          let dst := copyDest k toRegs d
          let own := ownRange c dst.1 dst.2
          if !split.2.isEmpty then
            (s, match split.1 with
              | [] => split.2
              | p :: _ => holdOthers p.1 .engine split.2)
          else if awaited then (s, [(l, .hold .register)])
          else if e = 1 ∧ (s.binding c.fl q.toNat).map (·.1) ≠ some cls then (s, laneRes ls l (.trap (trap .queueUnbound q.toNat)))
          else
            match copyChecks c s k toRegs d with
            | some r => (s, laneRes ls l r)
            | none =>
              if c.fl.full .cp then (s, [(l, .hold .classFull)])
              else if 64 ≤ (tgetD [] s.copies c.ld.core).length then (s, [(l, .hold .engine)])
              else if own && rangesFull s c.ld.core then (s, [(l, .hold .scoreboard)])
              else if e = 1 ∧ (c.fl.endpoint cls).space = 0 then (s, [(l, .hold .engine)])
              else
                let op : CopyOp :=
                  { kind := k, who := c.issuer l, op := c.fl.cCp.issued, cache := c.cache, ga := d.ga, h := d.h, hd := d.hd,
                    toGlobal := d.toGlobal, len := n, esz := d.esz, dest := if toRegs then some base else none, lanes := ls,
                    entry := if e = 1 then some cls else none, chan := 0, offset := 0, spaceHall := false,
                    moved := [], got := [], sent := none, clock := [0, 0, 0, 0] }
                let s1 := if toRegs && n != 0 then ls.foldl (fun s l => s.modThread c.fk l (fun t =>
                  { t with leases := t.leases ++ (List.range (gatherRegs d)).map (fun i =>
                      { reg := base + i, by_ := .op .cp op.op }) })) s else s
                (acceptCopy c op own dst s1, allDone ls)))

def execCp (a : BitVec 6) (e : BitVec 1) (q : BitVec 4) (g : BitVec 3) (s : State) : Out := copy .cp false none a e q g s
def execCpGather (d a : BitVec 6) (e : BitVec 1) (q : BitVec 4) (g : BitVec 3) (s : State) : Out :=
  copy .gather false (some d) a e q g s
def execCpGatherR (d a : BitVec 6) (e : BitVec 1) (q : BitVec 4) (g : BitVec 3) (s : State) : Out :=
  copy .gather true (some d) a e q g s
def execCpScatter (d a : BitVec 6) (e : BitVec 1) (q : BitVec 4) (g : BitVec 3) (s : State) : Out :=
  copy .scatter false (some d) a e q g s
def execCpFill (a : BitVec 6) (e : BitVec 1) (q : BitVec 4) (g : BitVec 3) (s : State) : Out := copy .fill false none a e q g s
def execCpFlush (a : BitVec 6) (e : BitVec 1) (q : BitVec 4) (g : BitVec 3) (s : State) : Out := copy .flush false none a e q g s
def execCpPref (a : BitVec 6) (e : BitVec 1) (q : BitVec 4) (g : BitVec 3) (s : State) : Out := copy .pref false none a e q g s

/-! ## Execution (R307, R308) -/

/-- A copy at work: the engine, the tiles and elements that have failed (address, cause), those that fail translation or lie
outside the leases (index, address), the bytes read for registers by element. -/
structure CopyRun where
  w     : Work
  fails : List (Nat × Nat)
  outs  : List (Nat × DWord)
  got   : List (Nat × List Byte)

/-- Tile or element `i` at an address fails. -/
def CopyRun.failed (x : CopyRun) (i : Nat) (a : DWord) (c : Nat) : CopyRun :=
  if c = 0x40 then { x with outs := x.outs ++ [(i, a)] } else { x with fails := x.fails ++ [(va57 a, c)] }

/-- The hall bytes [a, a + n) have no uncorrectable error. -/
def hallClean (m : Memory) (b n : Nat) : Bool := !m.hallBad.any (fun x => decide (b ≤ x) && decide (x < b + n))

/-- Part of a tile of cp, or a tile of cp.fill. `spare` stands in for a source that fails. -/
def copySeg (r : Reach) (op : CopyOp) (spare : Option (List Byte)) (x : CopyRun) (p : Nat × Nat) : CopyRun :=
  let off := p.1 - va57 op.ga
  let ea := canon (BitVec.ofNat 64 p.1)
  if op.toGlobal then
    let b := hallKey r.core (op.h.toNat + off)
    match (if hallClean x.w.st.mem b p.2 then some (readCells x.w.st.mem.hall b p.2) else spare) with
    | none => x.failed off ea 0x0E
    | some bs =>
      match x.w.writeSeg r p.1 bs with
      | (w, none) => { x with w := w }
      | (w, some c) => { x with w := w }.failed off ea c
  else
    match x.w.readSeg r p.1 p.2 with
    | (w, .ok bs) => { x with w := w.writeHall r (op.h.toNat + off) bs }
    | (w, .error c) =>
      match spare with
      | some bs => { x with w := w.writeHall r (op.h.toNat + off) bs }
      | none => { x with w := w }.failed off ea c

/-- One tile of cp.flush: a dirty entry is written back, a poisoned one counts as failed. -/
def flushSeg (r : Reach) (op : CopyOp) (x : CopyRun) (p : Nat × Nat) : CopyRun :=
  match (leaseFor r.leases p.1 p.2 false false).bind (fun l => leasePage l p.1) with
  | none => x.failed (p.1 - va57 op.ga) (canon (BitVec.ofNat 64 p.1)) 0x40
  | some pg =>
    let t := tileOf (pg.at_ p.1).2
    if pg.host then x
    else
      match x.w.st.mem.resident? t pg.key with
      | none => x
      | some e =>
        if e.poisoned then { x with fails := x.fails ++ [(p.1, 0x0C)] } else { x with w := x.w.on (x.w.st.mem.writeBack t) }

/-- One tile of cp.pref: filled and checked. -/
def prefSeg (r : Reach) (op : CopyOp) (x : CopyRun) (p : Nat × Nat) : CopyRun :=
  match (leaseFor r.leases p.1 p.2 false false).bind (fun l => leasePage l p.1) with
  | none => x.failed (p.1 - va57 op.ga) (canon (BitVec.ofNat 64 p.1)) 0x40
  | some pg =>
    let t := tileOf (pg.at_ p.1).2
    if pg.host then x
    else
      let m := (x.w.st.mem.fillFor r.by_ t pg.key r.cache).touch t pg.key r.cache
      match m.resident? t pg.key with
      | some e =>
        if e.poisoned then
          { x with w := x.w.on (m.knowUncorr t), fails := x.fails ++ [(p.1, if e.uncorr then 0x0E else 0x0C)] }
        else { x with w := x.w.on m }
      | none => { x with w := x.w.on m }

/-- One element of a gather or scatter (R307). -/
def copyElem (r : Reach) (op : CopyOp) (x : CopyRun) (i : Nat) : CopyRun :=
  let ib := hallKey r.core (op.h.toNat + 4 * i)
  let idx := sign (ofBytesLE (readCells x.w.st.mem.hall ib 4)) 32
  let ea := op.ga + dword (idx * op.esz)
  let hb := hallKey r.core (op.hd.toNat + op.esz * i)
  let rd := op.kind == .gather
  if !hallClean x.w.st.mem ib 4 then x.failed i ea 0x0E
  else if !isCanon ea || (leaseFor r.leases (va57 ea) op.esz rd (!rd)).isNone then x.failed i ea 0x40
  else if rd then
    match x.w.readSeg r (va57 ea) op.esz with
    | (w, .ok bs) =>
      match op.dest with
      | some _ => { x with w := w, got := x.got ++ [(i, bs)] }
      | none => { x with w := w.writeHall r (op.hd.toNat + op.esz * i) bs }
    | (w, .error c) => { x with w := w }.failed i ea c
  else if !hallClean x.w.st.mem hb op.esz then x.failed i ea 0x0E
  else
    match x.w.writeSeg r (va57 ea) (readCells x.w.st.mem.hall hb op.esz) with
    | (w, none) => { x with w := w }
    | (w, some c) => { x with w := w }.failed i ea c

/-- The bytes of a unit of an operation on tiles or 16-byte units (R309). -/
def CopyKind.unit (k : CopyKind) : Nat := if k = .cp then 16 else 4096

/-- The units of an operation: aligned 16-byte units of cp, tiles of fill, flush and pref, elements of gather and scatter. -/
def CopyOp.units (op : CopyOp) : Nat := if op.kind.elems then op.len else op.len / op.kind.unit

/-- The bytes of unit `k` of a cp that were read as its tile was checked. -/
def CopyOp.spare (op : CopyOp) (k : Nat) : Option (List Byte) := (op.got.find? (fun p => p.1 == k)).map (·.2)

/-- One unit of an operation moves. -/
def copyOne (r : Reach) (op : CopyOp) (x : CopyRun) (k : Nat) : CopyRun :=
  let p := (va57 op.ga + op.kind.unit * k, op.kind.unit)
  match op.kind with
  | .cp => copySeg r op (op.spare k) x p
  | .fill => copySeg r op none x p
  | .flush => flushSeg r op x p
  | .pref => prefSeg r op x p
  | .gather => copyElem r op x k
  | .scatter => copyElem r op x k
  | .send _ => x

/-- What has not moved of a tile of cp: the whole of it at once, or its units one by one until one fails. -/
def copyTile (r : Reach) (op : CopyOp) (x : CopyRun) (p : Nat × Nat) : CopyRun :=
  let ks := (List.range (p.2 / 16)).map (fun i => (p.1 - va57 op.ga) / 16 + i)
  let left := ks.filter (fun k => !op.moved.contains k)
  if left.length = ks.length then copySeg r op none x p
  else left.foldl (fun y k => if y.fails.length = x.fails.length ∧ y.outs.length = x.outs.length then copyOne r op y k else y) x

/-- R308: the status of a cause. -/
def copyStatus (c : Nat) : Nat :=
  match c with
  | 0x0C => 1
  | 0x0E => 2
  | 0x0D => 3
  | _ => 1

/-- The lowest-addressed failure. -/
def lowestFail : List (Nat × Nat) → Option (Nat × Nat)
  | [] => none
  | x :: xs => some (xs.foldl (fun a b => if b.1 < a.1 then b else a) x)

/-- An operation at work with what it has moved so far. -/
def CopyOp.at_ (op : CopyOp) (s : State) : Reach × CopyRun :=
  ({ s.reach op.who op.cache with copies := true }, { w := { Work.start s with clock := op.clock }, fails := [], outs := [], got := op.got })

/-- R307: an operation moves what it has not moved yet. -/
def runCopy (op : CopyOp) (s : State) : CopyRun :=
  let x := op.at_ s
  match op.kind with
  | .cp => (tileSegs (va57 op.ga) op.len).foldl (copyTile x.1 op) x.2
  | _ => ((List.range op.units).filter (fun k => !op.moved.contains k)).foldl (copyOne x.1 op) x.2

/-- R307: the elements of a `.r` gather written to the lanes of G; the leases end. -/
def deliverGather (op : CopyOp) (base : Nat) (got : List (Nat × List Byte)) (s : State) : State :=
  op.lanes.foldl (fun s l => s.modThread op.who.fk l (fun t =>
    let t1 := (got.filter (fun p => p.1 % 8 == l)).foldl (fun t p =>
      t.setRegs (base + p.1 / 8 * (op.esz / 4)) (wordsLE p.2)) t
    { t1 with leases := t1.leases.filter (fun x => x.by_ ≠ .op .cp op.op) })) s

/-- R308: the operation completes: the range record goes, the entry is posted, a failure without one ends the tread. -/
def finishCopy (op : CopyOp) (x : CopyRun) : State :=
  let core := op.who.core
  let s1 := match op.dest with
    | some b => deliverGather op b x.got x.w.st
    | none => x.w.st
  let wr := op.kind == .scatter || (op.kind == .cp && op.toGlobal)
  let low := lowestFail x.fails
  let s2 := match x.outs with
    | (_, a) :: _ => s1.endByEngine op.who 0x40 wr a
    | [] => s1
  let s3 := match op.entry, low with
    | some cls, _ =>
      s2.postEntry op.who.fk cls op.who.spell true
        { slots := [BitVec.ofNat 32 (low.elim 0 (fun f => copyStatus f.2)), BitVec.ofNat 32 x.fails.length,
                    BitVec.ofNat 32 op.op, 0, 0, 0, 0, 0], valid := 0x07 }
    | none, some f => s2.endByEngine op.who f.2 wr (canon (BitVec.ofNat 64 f.1))
    | none, none => s2
  ((s3.dropRange core op.who.fk op.op).completeEng op.who.fk .cp op.op x.w.clock)

/-- A collective operation reads its source and sends it (R458); its acknowledgement completes it. -/
def sendBytes (op : CopyOp) (s : State) : Work × List Byte :=
  let r := s.reach op.who op.cache
  if op.spaceHall then (Work.start s).readHall r op.h.toNat op.len else (Work.start s).readGlobal r op.ga op.len

/-- COPY_COMPLETE: operation `i` of a core's copy engine executes and completes. A failed read of a collective
source ends the tread and completes the operation with nothing sent. -/
def State.copyDone (s : State) (core i : Nat) : State :=
  let l := tgetD [] s.copies core
  match l[i]? with
  | none => s
  | some op =>
    let without := { s with copies := tputD [] s.copies core (l.eraseIdx i) }
    match op.kind with
    | .send _ =>
      if op.sent.isSome then s
      else
        let x := sendBytes op s
        match x.1.err with
        | some _ =>
          let y := sendBytes op without
          (y.1.settle op.who).completeEng op.who.fk .cp op.op y.1.clock
        | none => { x.1.st with copies := tputD [] x.1.st.copies core (l.set i { op with sent := some x.2, clock := x.1.clock }) }
    | _ => finishCopy op (runCopy op without)

def execCopyComplete (core i : Nat) (s : State) : Out := .next (s.copyDone core i)

/-- Unit `k` of an operation may move by itself (R309); a scatter keeps its order. -/
def CopyOp.mayMove (op : CopyOp) (k : Nat) : Bool :=
  decide (k < op.units) && !op.moved.contains k &&
  match op.kind with
  | .send _ => false
  | .scatter => k == op.moved.length
  | _ => true

/-- The part of its tile that a cp moves of which unit `k` is one, by address and length. -/
def CopyOp.segOf (op : CopyOp) (k : Nat) : Nat × Nat :=
  ((tileSegs (va57 op.ga) op.len).find? (fun p => decide (va57 op.ga + 16 * k < p.1 + p.2))).getD (0, 0)

/-- The units of a part of a tile. -/
def CopyOp.unitsIn (op : CopyOp) (p : Nat × Nat) : List Nat := (List.range (p.2 / 16)).map (fun i => (p.1 - va57 op.ga) / 16 + i)

/-- R315: a cp under `.cnoa` writes an absent tile in its stack, all of its part at once. -/
def CopyOp.direct (op : CopyOp) (r : Reach) (m : Memory) (p : Nat × Nat) : Bool :=
  op.toGlobal && op.cache == 3 &&
  match (leaseFor r.leases p.1 p.2 false true).bind (fun l => leasePage l p.1) with
  | some pg => !pg.host && (m.resident? (tileOf (pg.at_ p.1).2) pg.key).isNone
  | none => false

/-- The source bytes of a part of a tile of cp, where the whole of it passes its checks. -/
def tileSource (r : Reach) (op : CopyOp) (x : CopyRun) (p : Nat × Nat) : Option (List Byte) :=
  let y := copySeg r op none x p
  if !(y.fails.isEmpty && y.outs.isEmpty) then none
  else if op.toGlobal then some (readCells x.w.st.mem.hall (hallKey r.core (op.h.toNat + (p.1 - va57 op.ga))) p.2)
  else
    match x.w.readSeg r p.1 p.2 with
    | (_, .ok bs) => some bs
    | (_, .error _) => none

/-- A unit of cp moves: the operation with what it keeps, the copy at work, the units moved. The first unit of a tile moves once the
whole of its part of the tile passes its checks, since a failed tile writes no destination byte (R308); the bytes read then stand
in for a source that fails afterwards; where the destination fails afterwards the tile counts as failed, and the units that have
moved stand (DESIGN CHOICE, log entry 89: no rule speaks of a tile that fails while it is moved). -/
def cpUnit (r : Reach) (op : CopyOp) (x : CopyRun) (k : Nat) : Option (CopyOp × CopyRun × List Nat) :=
  let p := op.segOf k
  let ks := op.unitsIn p
  let left := ks.filter (fun i => !op.moved.contains i)
  if op.direct r x.w.st.mem p then some (op, copyTile r op x p, left)
  else if left.length < ks.length then some (op, copyOne r op x k, [k])
  else (tileSource r op x p).map (fun bs =>
    let op1 := { op with got := op.got ++ ks.map (fun i => (i, (bs.drop (16 * (i - ks.headD 0))).take 16)) }
    (op1, copyOne r op1 x k, [k]))

/-- R309: one unit of operation `i` of a core's copy engine moves, ahead of the rest, if nothing stands in its way. -/
def State.copyUnit (s : State) (core i k : Nat) : State :=
  let l := tgetD [] s.copies core
  match l[i]? with
  | none => s
  | some op =>
    let r := op.at_ s
    if !op.mayMove k then s
    else
      match (if op.kind = .cp then cpUnit r.1 op r.2 k else some (op, copyOne r.1 op r.2 k, [k])) with
      | none => s
      | some (op1, x, ks) =>
        if x.fails.isEmpty && x.outs.isEmpty then
          let op2 := { op1 with moved := op.moved ++ ks, got := if op.kind = .cp then op1.got else x.got, clock := x.w.clock }
          { x.w.st with copies := tputD [] x.w.st.copies core (l.set i op2) }
        else s

end Sys2Proof.Machine
end

