-- ==== Sys2Proof/Machine/Sync.lean ====
section
/-!
DEFINITION. WAIT (10_core.md R214–R216), the landing and span barriers (R228–R231) and the reduction registers
(R233–R236, with the trees of R82 and R83).
-/

namespace Sys2Proof.Machine

/-! ## WAIT -/

/-- The four thresholds of a WAIT. -/
structure Thresholds where
  ld : Nat
  st : Nat
  cp : Nat
  mx : Nat
  deriving DecidableEq, Repr

def Thresholds.of (t : Thresholds) : Cls → Nat
  | .ld => t.ld
  | .st => t.st
  | .cp => t.cp
  | .mx => t.mx

/-- R215: every class counter is at or below its threshold. -/
def Flight.within (f : Flight) (t : Thresholds) : Bool :=
  decide (f.cLd.value ≤ t.ld) && decide (f.cSt.value ≤ t.st) && decide (f.cCp.value ≤ t.cp) && decide (f.cMx.value ≤ t.mx)

/-- R215: an operation is not among the youngest of its class that the threshold leaves out. -/
def Flight.covered (f : Flight) (t : Thresholds) (x : Cls × Nat × List Nat) : Bool :=
  decide (x.2.1 + t.of x.1 < (f.counter x.1).issued)

/-- R377: the operations a passed WAIT covers are performed before any later access: their clocks join the flight's. -/
def Flight.coverOps (f : Flight) (t : Thresholds) : Flight :=
  { f with cover := (f.opStamps.filter (f.covered t)).foldl (fun c x => joinClock c x.2.2) f.cover
           opStamps := f.opStamps.filter (fun x => !f.covered t x) }

/-- WAIT with its thresholds (R215); `bad` are the lanes that trapped on the register of waitr. -/
def waitOn (t : Thresholds) (ls : List Nat) (bad : List (Nat × Res)) (c : Ctx) (s : State) : State × List (Nat × Res) :=
  if c.fl.within t then (s.modFlight c.fk (·.coverOps t), allDone ls ++ bad)
  else (s, holdOthers (ls.headD 0) .counters bad)

def execWait (l st c m : BitVec 6) (s : State) : Out :=
  .next (issueRaw s HintUse.none (fun x s =>
    waitOn { ld := l.toNat, st := st.toNat, cp := c.toNat, mx := m.toNat } x.lanes [] x s))

/-- R214: the field of each class, the minimum over the threads. -/
def minField (ws : List Word) (lo : Nat) : Nat := (ws.map (fun w => bits w.toNat lo 6)).foldl min 63

def execWaitr (a : BitVec 6) (s : State) : Out :=
  .next (issueRaw s HintUse.none (fun c s =>
    if anyAwaits s c.fk [a.toNat] c.lanes then (s, [(c.lanes.headD 0, .hold .register)])
    else
      let r := splitLanes s c.fk c.lanes (fun t => regTrap c.ld.regs t [one a])
      match r.1 with
      | [] => (s, r.2)
      | _ =>
        let ws := r.1.map (fun p => p.2.reg a.toNat)
        waitOn { ld := minField ws 18, st := minField ws 12, cp := minField ws 6, mx := minField ws 0 }
          (r.1.map (·.1)) r.2 c s))

/-! ## Barriers -/

/-- The landing (false) or span (true) barrier of a landing. -/
def State.barrier (s : State) (lid tid : Nat) (sp : Bool) : Barrier :=
  if sp then (match tget s.treads tid with
    | some t => t.sbar
    | none => { gen := 0, arrived := [], phase := false })
  else (match tget s.landings lid with
    | some l => l.bar
    | none => { gen := 0, arrived := [], phase := false })

def State.modBarrier (s : State) (lid tid : Nat) (sp : Bool) (u : Barrier → Barrier) : State :=
  if sp then s.modTread tid (fun t => { t with sbar := u t.sbar })
  else s.modLanding lid (fun l => { l with bar := u l.bar })

/-- The thread's outstanding arrival on a barrier. -/
def Thread.arrival (t : Thread) (sp : Bool) : Option Nat := if sp then t.arrS else t.arrL

def Thread.setArrival (t : Thread) (sp : Bool) (x : Option Nat) : Thread :=
  if sp then { t with arrS := x } else { t with arrL := x }

/-- The thread waits in a barrier instruction of this barrier whose arrival it has made. -/
def Thread.inBar (t : Thread) (sp : Bool) : Bool := t.barNow.any (fun b => b.1 == sp)

/-- A thread's barrier instruction is over. -/
def Thread.leaveBar (t : Thread) (sp : Bool) : Thread :=
  let t1 := t.setArrival sp none
  if t1.inBar sp then { t1 with barNow := none } else t1

/-- The landings of a barrier's scope, with their numbers in the span (R229). -/
def State.barScope (s : State) (lid tid : Nat) (sp : Bool) : List (Nat × Nat) :=
  match sp, tget s.treads tid, tget s.landings lid with
  | true, some t, _ => t.landings.zipIdx.map (fun p => (p.2, p.1))
  | false, _, some l => [(l.number, lid)]
  | _, _, _ => []

/-- The threads of a landing that have not exited, by thread number. -/
def State.liveThreads (s : State) (lid : Nat) : List Nat :=
  match tget s.landings lid with
  | none => []
  | some l => (List.range (8 * l.flights)).filter (fun i => match s.thread? (32 * lid + i / 8) (i % 8) with
      | some t => t.cond != .exited
      | none => false)

/-- R229, R230: every live thread of the scope has arrived, and what each arrival releases is performed. -/
def State.barComplete (s : State) (scope : List (Nat × Nat)) (b : Barrier) : Bool :=
  !b.arrived.isEmpty &&
  scope.all (fun p => (s.liveThreads p.2).all (fun i => b.arrived.any (fun a => a.thread == 256 * p.1 + i))) &&
  b.arrived.all (fun a =>
    match tget scope (a.thread / 256) with
    | none => true
    | some lid =>
      s.releasedUpto (32 * lid + a.thread % 256 / 8) [a.thread % 8] a.upto &&
      (match tget s.landings lid with
        | some l => s.mem.covers (l.core / 48) a.clock
        | none => true))

/-- A thread at a completed phase boundary (R231, R348): its arrival is no longer outstanding, it is held for the word after the
barrier instruction by which it arrived; transient values and reservations end. -/
def Thread.atBoundary (t : Thread) (g : Nat) (npc : Option DWord) : Thread :=
  { t with trans := [], resv := none, lrsc := none
           arrL := if t.arrL = some g then none else t.arrL
           barNow := match npc with
             | some p => some (false, p)
             | none => t.barNow }

/-- R348: a thread leaves its barrier as the record of its landing is written: its pc is the word after the barrier instruction
by which it arrived. -/
def Thread.pastBarrier (t : Thread) : Thread :=
  match t.barNow with
  | some (false, npc) => { t with pc := npc, barNow := none, held := none }
  | _ => { t with barNow := none }

/-- Change every thread of a landing. -/
def State.modThreadsOf (s : State) (lid : Nat) (f : Thread → Thread) : State :=
  { s with threads := s.threads.map (fun p => if p.1 / 256 = lid then (p.1, f p.2) else p) }

/-- The flights of a landing. -/
def State.flightsOf (s : State) (lid : Nat) : List Nat :=
  match tget s.landings lid with
  | none => []
  | some l => (List.range l.flights).map (fun f => 32 * lid + f)

/-- A phase boundary has completed with its arrivals: no thread of the landing issues until its resumption (R348). -/
def State.boundary (s : State) (lid g : Nat) (as : List Arrival) : State :=
  let s1 := (s.flightsOf lid).foldl State.dropHint s
  let number := match tget s.landings lid with
    | some l => l.number
    | none => 0
  let npc := fun (k : Nat) => (as.find? (fun a => a.thread == 256 * number + k % 256)).map (·.npc)
  let ts : Tab Thread := s1.threads.map (fun (p : Nat × Thread) => if p.1 / 256 = lid then (p.1, p.2.atBoundary g (npc p.1)) else p)
  ({ s1 with threads := ts } : State).modLanding lid (fun l => { l with boundary := true })

/-- Complete the current generation of a barrier if it can complete (R229–R231). -/
def State.tryBar (s : State) (lid tid : Nat) (sp : Bool) : State :=
  let b := s.barrier lid tid sp
  if s.barComplete (s.barScope lid tid sp) b then
    let s1 := s.modBarrier lid tid sp (fun b => { gen := (b.gen + 1) % 2 ^ 32, arrived := [], phase := false })
    let phased := match tget s.landings lid with
      | some l => l.phased
      | none => false
    if b.phase && phased then s1.boundary lid b.gen b.arrived else s1
  else s

/-- One thread arrives, if it has no arrival outstanding. `wait` says that it will wait in this instruction. -/
def arriveLane (sp phase wait : Bool) (c : Ctx) (acc : State × List Nat) (lane : Nat) : State × List Nat :=
  match acc.1.thread? c.fk lane with
  | none => acc
  | some t =>
    let g := (acc.1.barrier c.lid c.ld.tid sp).gen
    if wait && t.inBar sp then acc
    else if t.arrival sp = some g then (acc.1, acc.2 ++ [lane])
    else
      let a : Arrival := { thread := 256 * c.ld.number + 8 * (c.fk % 32) + lane, upto := acc.1.mem.nextAcc, clock := c.fl.cover, npc := nextPc c.pc }
      let s1 := acc.1.modBarrier c.lid c.ld.tid sp (fun b => { b with arrived := b.arrived ++ [a], phase := b.phase || phase })
      (s1.modThread c.fk lane (fun t =>
        let t1 := t.setArrival sp (some g)
        if wait then { t1 with barNow := some (sp, nextPc c.pc) } else t1), acc.2)

/-- Where one thread stands after the generation was tried. -/
def awaitLane (sp : Bool) (c : Ctx) (acc : State × List (Nat × Res)) (lane : Nat) : State × List (Nat × Res) :=
  match acc.1.thread? c.fk lane with
  | none => acc
  | some t =>
    if t.arrival sp = some (acc.1.barrier c.lid c.ld.tid sp).gen then (acc.1, acc.2 ++ [(lane, .hold .barrier)])
    else (acc.1.modThread c.fk lane (·.leaveBar sp), acc.2 ++ [(lane, .done)])

/-- bar.l, bar.s, bar.phase: arrive, then await (R229). A thread with an earlier arrival outstanding is held. -/
def bar (sp phase : Bool) (g : BitVec 3) (s : State) : Out :=
  .next (issue s HintUse.none g (fun c ls s =>
    let r := ls.foldl (arriveLane sp phase true c) (s, [])
    let s1 := r.1.tryBar c.lid c.ld.tid sp
    let x := (ls.filter (fun l => !r.2.contains l)).foldl (awaitLane sp c) (s1, [])
    (x.1, x.2 ++ r.2.map (fun l => (l, .hold .barrier)))))

def execBarL (g : BitVec 3) (s : State) : Out := bar false false g s
def execBarS (g : BitVec 3) (s : State) : Out := bar true false g s
def execBarPhase (g : BitVec 3) (s : State) : Out := bar false true g s

def execArrive (b : BitVec 1) (g : BitVec 3) (s : State) : Out :=
  let sp := b == 1
  .next (issue s HintUse.none g (fun c ls s =>
    let r := ls.foldl (arriveLane sp false false c) (s.tryBar c.lid c.ld.tid sp, [])
    (r.1.tryBar c.lid c.ld.tid sp, ls.map (fun l => (l, if r.2.contains l then .hold .barrier else .done)))))

def execAwait (b : BitVec 1) (g : BitVec 3) (s : State) : Out :=
  let sp := b == 1
  .next (issue s HintUse.none g (fun c ls s =>
    ls.foldl (awaitLane sp c) (s.tryBar c.lid c.ld.tid sp, [])))

/-! ## Reductions -/

def Reduction.empty : Reduction := { value := 0, seq := 0, op := none, contr := [] }

def Landing.reduction (l : Landing) (h : Nat) : Reduction := tgetD Reduction.empty l.red h

def State.modRed (s : State) (lid h : Nat) (u : Reduction → Reduction) : State :=
  s.modLanding lid (fun l => { l with red := tmodD Reduction.empty l.red h u })

/-- R234: the identity of an op. -/
def redIdentity (op : Nat) : Word :=
  match op with
  | 0 => 0
  | 1 => negZero32
  | 2 => 0x7FFFFFFF
  | 3 => 0x80000000
  | 4 => 0xFFFFFFFF
  | 5 => 0
  | 6 => 0xFFFFFFFF
  | _ => 0

/-- The integer ops of redz on two values. -/
def redCombine (op : Nat) (x y : Word) : Word :=
  match op with
  | 2 => fMinS x y
  | 3 => fMaxS x y
  | 4 => if x.toNat ≤ y.toNat then x else y
  | 5 => if x.toNat ≤ y.toNat then y else x
  | 6 => x &&& y
  | 7 => x ||| y
  | _ => x + y

/-- One level of R83: adjacent pairs combined, an unpaired last value passed up. -/
def pairUp : List (Word × FFlags) → List (Word × FFlags)
  | x :: y :: t => nodeAdd x y :: pairUp t
  | t => t

/-- R83: levels until one value remains. `n` bounds the levels. -/
def treeLevels : Nat → List (Word × FFlags) → Word × FFlags
  | 0, l => l.headD (negZero32, 0)
  | n + 1, l => if l.length ≤ 1 then l.headD (negZero32, 0) else treeLevels n (pairUp l)

/-- R83: the floating reduction of a landing of `n` flights; `v` gives each thread's value. -/
def landingTree (n : Nat) (v : Nat → Word) : Word × FFlags :=
  treeLevels 5 ((List.range n).map (fun f => treeAdd (fun l => v (8 * f + l))))

/-- R234: what a thread contributes to a round. -/
def contribution (r : Reduction) (op t : Nat) : Word :=
  match r.contr.find? (fun x => x.thread == t) with
  | some x => x.value
  | none => redIdentity op

/-- R234: the result of a round with its flags. -/
def roundResult (n op : Nat) (r : Reduction) : Word × FFlags :=
  if op = 1 then landingTree n (contribution r op)
  else (((List.range (8 * n)).map (contribution r op)).foldl (redCombine op) (redIdentity op), 0)

/-- Complete the open round of `h` when every live thread has contributed (R234). -/
def State.tryRed (s : State) (lid h : Nat) : State :=
  match tget s.landings lid with
  | none => s
  | some ld =>
    let r := ld.reduction h
    match r.op with
    | none => s
    | some op =>
      if (s.liveThreads lid).all (fun i => r.contr.any (fun x => x.thread == i)) then
        let v := roundResult ld.flights op r
        let fs := ((r.contr.filter (·.guarded)).map (fun x => 32 * lid + x.thread / 8)).eraseDups
        (fs.foldl (fun s fk => s.orFlags fk v.2) s).modRed lid h
          (fun r => { value := v.1, seq := r.seq + 1, op := none, contr := [] })
      else s

/-- One thread's redz (R234): a guard-true thread with its value, a guard-false one with the identity. -/
def redzLane (h op : Nat) (a : BitVec 6) (g : BitVec 3) (c : Ctx) (acc : State × List (Nat × Res)) (lane : Nat) :
    State × List (Nat × Res) :=
  match acc.1.thread? c.fk lane, tget acc.1.landings c.lid with
  | some t, some ld =>
    let r := ld.reduction h
    let th := 8 * (c.fk % 32) + lane
    let live := t.pred g.toNat
    let bad := if live then regTrap c.ld.regs t [one a] else none
    match bad with
    | some x => (acc.1, acc.2 ++ [(lane, .trap x)])
    | none =>
      if r.contr.any (fun x => x.thread == th) then (acc.1, acc.2 ++ [(lane, .hold .reduction)])
      else if live && r.op.any (· != op) then (acc.1, acc.2 ++ [(lane, .trap (trap .uniformity h))])
      else
        let v := if live then t.reg a.toNat else redIdentity (r.op.getD op)
        (acc.1.modRed c.lid h (fun r =>
          { r with op := some (r.op.getD op), contr := r.contr ++ [{ thread := th, value := v, guarded := live }] }),
          if live then acc.2 ++ [(lane, .done)] else acc.2)
  | _, _ => acc

def execRedz (h : BitVec 2) (a : BitVec 6) (o g : BitVec 3) (s : State) : Out :=
  .next (issueRaw s HintUse.none (fun c s =>
    if awaitsPred s c.fk [g.toNat] c.lanes || anyAwaits s c.fk [a.toNat] (guardLanes s c g) then
      (s, [(c.lanes.headD 0, .hold .register)])
    else
      let r := c.lanes.foldl (redzLane h.toNat o.toNat a g c) (s, [])
      (r.1.tryRed c.lid h.toNat, r.2)))

/-- One thread's rdz (R235). -/
def rdzLane (h : Nat) (d a : BitVec 6) (p : BitVec 3) (c : Ctx) (acc : State × List (Nat × Res)) (lane : Nat) :
    State × List (Nat × Res) :=
  match acc.1.thread? c.fk lane, tget acc.1.landings c.lid with
  | some t, some ld =>
    match regTrap c.ld.regs t [one d, one a] with
    | some x => (acc.1, acc.2 ++ [(lane, .trap x)])
    | none =>
      let r := ld.reduction h
      let v : BitVec 16 := (t.reg a.toNat).truncate 16
      if 32768 ≤ (r.seq - v).toNat then (acc.1, acc.2 ++ [(lane, .hold .reduction)])
      else (acc.1.putThread c.fk lane ((t.setReg d.toNat r.value).setPred p.toNat (r.seq != v)), acc.2 ++ [(lane, .done)])
  | _, _ => acc

def execRdz (d a : BitVec 6) (p : BitVec 3) (h : BitVec 2) (g : BitVec 3) (s : State) : Out :=
  .next (issue s HintUse.none g (fun c ls s =>
    if anyAwaits s c.fk [d.toNat, a.toNat] ls then (s, [(ls.headD 0, .hold .register)])
    else ls.foldl (rdzLane h.toNat d a p c) (s, [])))

end Sys2Proof.Machine
end

