-- ==== Sys2Proof/Machine/Layout.lean ====
section
/-!
DEFINITION. The layouts of thread blocks, phase records, save areas and context images (16_phases.md R345–R347, R355).
-/

namespace Sys2Proof.Machine

/-- The registers of a carry mask, ascending. -/
def carried (mask : Nat) : List Nat := (List.range 64).filter (fun i => bit mask i)

/-- R346: the length of a thread block with `wt` register words. -/
def blockLen (wt : Nat) : Nat := 128 + 64 * ceilDiv wt 16

/-- R347: the length of a phase record. -/
def recordLen (flights wt : Nat) : Nat := 128 + 64 * flights + 8 * flights * blockLen wt

/-- R345: the record length of a header: 0 for a landing that is not phased. -/
def Header.recordLen (h : Header) : Nat :=
  if h.phased then Machine.recordLen h.flights (carried h.carry).length else 0

def Landing.recordLen (l : Landing) : Nat :=
  if l.phased then Machine.recordLen l.flights (carried l.carry).length else 0

/-- `n` zero bytes. -/
def zeros (n : Nat) : List Byte := List.replicate n 0

/-- The register part of a thread block: words padded to a multiple of 64 bytes. -/
def regPart (ws : List Word) : List Byte :=
  ws.flatMap (fun w => bytesLE 4 w.toNat) ++ zeros (64 * ceilDiv ws.length 16 - 4 * ws.length)

/-- What a thread block says beside the thread's own registers. -/
structure BlockExtra where
  pc     : DWord
  flags  : Nat                  -- byte 0x09
  contr  : Nat                  -- byte 0x0A
  n      : Nat                  -- bytes 0x0C, 0x0D
  values : List Word            -- contributions to the open rounds of h0 - h3
  deriving DecidableEq, Repr

/-- R346: the first 128 bytes of a thread block. -/
def blockHead (t : Thread) (x : BlockExtra) : List Byte :=
  bytesLE 8 x.pc.toNat ++ [t.preds ||| 1, BitVec.ofNat 8 x.flags, BitVec.ofNat 8 x.contr, 0] ++ bytesLE 2 x.n ++ zeros 2 ++
  (List.range 4).flatMap (fun k => bytesLE 2 (t.xreg k).toNat) ++
  (List.range 4).flatMap (fun k => bytesLE 4 (tgetD 0 t.hscratch k).toNat) ++
  (List.range 4).flatMap (fun k => bytesLE 4 (x.values.getD k 0).toNat) ++
  bytesLE 4 t.cause.toNat ++ bytesLE 4 t.finfo.toNat ++ bytesLE 8 t.fpc.toNat ++ bytesLE 8 t.fnpc.toNat ++
  bytesLE 8 t.faddr.toNat ++ zeros 40

/-- R346: a thread block. -/
def threadBlock (t : Thread) (x : BlockExtra) (ws : List Word) : List Byte := blockHead t x ++ regPart ws

/-- R346: the predicates, index registers and handler scratch of a block. -/
def Thread.takeBlock (t : Thread) (b : List Byte) : Thread :=
  { t with
    preds := BitVec.ofNat 8 (field b 8 1 / 2 * 2)
    x0 := BitVec.ofNat 32 (field b 0x10 2), x1 := BitVec.ofNat 32 (field b 0x12 2)
    x2 := BitVec.ofNat 32 (field b 0x14 2), x3 := BitVec.ofNat 32 (field b 0x16 2)
    hscratch := (List.range 4).foldl (fun h k => tputD 0 h k (BitVec.ofNat 32 (field b (0x18 + 4 * k) 4))) t.hscratch }

/-- The register words of a block: `rs` are the registers, in order. -/
def blockRegs (rs : List Nat) (b : List Byte) : Tab Word :=
  rs.zipIdx.foldl (fun (m : Tab Word) (p : Nat × Nat) => tputD 0 m p.1 (BitVec.ofNat 32 (field b (0x80 + 4 * p.2) 4))) []

/-- R4, R106: a fault information word with its reserved fields zero. -/
def cleanFinfo (w : Word) : Word := w &&& 0x0EFFFFFF

/-- A thread restored from a block of a record or save area (R351): every register it does not carry is 0; the pc is a
57-bit address (R53), and the reserved fields of the fault information word read as 0 (R4). -/
def Thread.restore (t : Thread) (rs : List Nat) (b : List Byte) : Thread :=
  { (t.takeBlock b) with
    pc := canon (BitVec.ofNat 64 (field b 0 8))
    hmode := bit (field b 9 1) 0
    cause := BitVec.ofNat 32 (field b 0x38 4), finfo := cleanFinfo (BitVec.ofNat 32 (field b 0x3C 4))
    fpc := BitVec.ofNat 64 (field b 0x40 8), fnpc := BitVec.ofNat 64 (field b 0x48 8)
    faddr := BitVec.ofNat 64 (field b 0x50 8)
    regs := blockRegs rs b, trans := [], leases := [], loads := [], resv := none, lrsc := none, held := none }

end Sys2Proof.Machine
end

