-- ==== Sys2Proof/Machine/Fetch.lean ====
section
/-!
DEFINITION. Translation (21_memory.md R405–R407), the code caches and the fetch of a word (03_encoding.md R54–R57), what an
illegal word and a failed fetch do (R52, R54, R465), the hints (R44–R49), code prefetch and pins (R58–R60).
-/

namespace Sys2Proof.Machine

/-! ## Translation (R407) -/

/-- R407: translate an address for a core: its L1 TLB, the home slice, a walk. -/
def State.translate (s : State) (core part va : Nat) : State × Option PageMap :=
  match findPage (s.mem.tlb1Of core) part va with
  | some p => (s, some p)
  | none =>
    let sl := tlbSlice (core / 48) va
    match findPage (s.mem.tlb2Of sl) part va with
    | some p => ({ s with mem := s.mem.keep1 core p }, some p)
    | none =>
      let s1 := s.virtWalk part va
      match s1.virtPage part va with
      | some p => ({ s1 with mem := (s1.mem.keep2 sl p).keep1 core p }, some p)
      | none => (s1, none)

/-! ## Code caches (R56, R57) -/

/-- A code cache: its ways, and the set of a line. -/
structure CacheShape where
  ways : Nat
  setBits : Nat
  pins : Nat
  deriving DecidableEq, Repr

def l0Shape : CacheShape := { ways := 8, setBits := 7, pins := 4 }
def ccShape : CacheShape := { ways := 16, setBits := 11, pins := 8 }

def CacheShape.set (c : CacheShape) (va : Nat) : Nat := bits va 7 c.setBits

/-- The line of a tag. -/
def lineOf (ls : List CodeLine) (part key va : Nat) : Option CodeLine :=
  ls.find? (fun l => l.va == va && l.key == key && l.part == part)

/-- Drop the first line of a set that is not pinned. -/
def dropVictim (c : CacheShape) (set : Nat) : List CodeLine → List CodeLine
  | [] => []
  | l :: ls => if c.set l.va = set ∧ !l.pinned then ls else l :: dropVictim c set ls

/-- Put a line that is not cached into a cache: a full set gives up a line that is not pinned. -/
def cacheLine (c : CacheShape) (l : CodeLine) (ls : List CodeLine) : List CodeLine :=
  let n := (ls.filter (fun x => decide (c.set x.va = c.set l.va))).length
  (if c.ways ≤ n then dropVictim c (c.set l.va) ls else ls) ++ [l]

/-- The 32 words at a place of memory. -/
def codeWords (bs : List Byte) : List Word := (List.range 32).map (fun i => BitVec.ofNat 32 (field bs (4 * i) 4))

/-- What a fetch finds. -/
inductive Fetched where
  | line (words : List Word)
  | unmapped                      -- translation or permission fails (R54)
  | poisoned
  deriving DecidableEq, Repr

/-- R54, R56: the 128 bytes of a line from the gallery of their home, or from the host. In a host page the page's key id is
ignored (R406), so a landing of any key id fetches from it (DESIGN CHOICE, log entry 60: R54 asks for the landing's key id and
names no exception); a host line that is poisoned or met with the link down raises the integrity trap of a fetch (DESIGN
CHOICE, log entry 60: R422 gives host accesses memory-error, which R105 raises on data accesses alone). -/
def State.codeLine (s : State) (core part key va : Nat) : State × Fetched :=
  let r := s.translate core part va
  match r.2 with
  | none => (r.1, .unmapped)
  | some p =>
    let x := p.at_ va
    if !p.x || (!p.host && p.key != key) then (r.1, .unmapped)
    else if p.host then
      if !r.1.mem.linkUp || r.1.mem.hostBad.contains (x.2 / 64) || r.1.mem.hostBad.contains (x.2 / 64 + 1) then (r.1, .poisoned)
      else (r.1, .line (codeWords (r.1.mem.atHome .host x.2 p.key 128)))
    else
      let m := r.1.mem.use (tileOf x.2) p.key
      let s1 := { r.1 with mem := m }
      match m.resident? (tileOf x.2) p.key with
      | some e => if e.poisoned then (s1, .poisoned) else (s1, .line (codeWords (m.atHome .stack x.2 p.key 128)))
      | none => (s1, .poisoned)

def Memory.l0Of (m : Memory) (core : Nat) : List CodeLine := tgetD [] m.l0 core
def Memory.ccOf (m : Memory) (cluster : Nat) : List CodeLine := tgetD [] m.ccache cluster

/-- R56: a line through the cluster's code cache. -/
def State.clusterLine (s : State) (core part key va : Nat) : State × Fetched :=
  match lineOf (s.mem.ccOf (core / 24)) part key va with
  | some l => (s, .line l.words)
  | none =>
    match s.codeLine core part key va with
    | (s1, .line ws) =>
      let l : CodeLine := { va := va, key := key, part := part, pinned := false, words := ws }
      ({ s1 with mem := { s1.mem with ccache := tmodD [] s1.mem.ccache (core / 24) (cacheLine ccShape l) } }, .line ws)
    | r => r

/-- R56: a line through the core's L0. -/
def State.coreLine (s : State) (core part key va : Nat) : State × Fetched :=
  match lineOf (s.mem.l0Of core) part key va with
  | some l => (s, .line l.words)
  | none =>
    match s.clusterLine core part key va with
    | (s1, .line ws) =>
      let l : CodeLine := { va := va, key := key, part := part, pinned := false, words := ws }
      ({ s1 with mem := { s1.mem with l0 := tmodD [] s1.mem.l0 core (cacheLine l0Shape l) } }, .line ws)
    | r => r

/-- What the fetch of one word gives. -/
inductive FetchedWord where
  | word (w : Word)
  | failed (poisoned : Bool)
  deriving DecidableEq, Repr

/-- R54: the word at a pc, for a landing. -/
def State.fetchWord (s : State) (core part key : Nat) (pc : DWord) : State × FetchedWord :=
  let va := va57 pc
  match s.coreLine core part key (va / 128 * 128) with
  | (s1, .line ws) => (s1, .word (ws.getD (va % 128 / 4) 0))
  | (s1, .unmapped) => (s1, .failed false)
  | (s1, .poisoned) => (s1, .failed true)

/-! ## Illegal words and failed fetches -/

/-- The word is a hint (R44, R50). -/
def isHintWord (w : Word) : Bool := bits w.toNat 26 6 == 0x1E

/-- R49, R107: the address of the word after the instruction of the group that the word at `a` belongs to: the hints from `a`
on are passed over, at most `n` of them. A word that cannot be fetched stands for the group's instruction (DEDUCED, log
entry 61). -/
def State.groupEnd (s : State) (c : Ctx) : Nat → DWord → DWord
  | 0, a => nextPc a
  | n + 1, a =>
    match (s.fetchWord c.ld.core c.tr.part c.ld.key a).2 with
    | .word w => if isHintWord w then s.groupEnd c n (nextPc a) else nextPc a
    | .failed _ => nextPc a

/-- R465: every thread of the executing group traps at a word that can be a hint of the group: s.fnpc is the word after the
group's instruction (R49, R107). -/
def trapGroup (c : Ctx) (s : State) (x : Trap) : State :=
  concludeAt c (s.groupEnd c 3 c.pc) s (c.lanes.map (fun l => (l, Res.trap x)))

/-- R52, R465: every thread of the executing group takes the illegal-instruction trap. -/
def execIllegalInstruction (s : State) : Out :=
  .next (match s.ctx? with
    | none => s
    | some c => trapGroup c s (trap .illegal 0))

/-- R54: a failed fetch ends the tread with end code 0x41; a poisoned tile raises the integrity trap with fetch set, which has
no data address (R95, R107). -/
def execFetchFailure (poisoned : Bool) (s : State) : Out :=
  .next (match s.ctx? with
    | none => s
    | some c =>
      if poisoned then trapAll c s { cause := .integrity, detail := 0, addr := 0, write := false, fetch := true }
      else conclude c s (c.lanes.map (fun l => (l, Res.ends 0x41 c.pc false))))

/-! ## Hints (R44–R49) -/

/-- The hints of the group so far; the first of them notes the slot as it stood before. -/
def HintState.start_ (c : Ctx) : HintState :=
  { lanes := c.lanes, start := c.start, imm := c.imm, mods := c.mods, sched := c.sched
    back := match c.fl.hint with
      | some h => h.back
      | none => { lead := c.fl.lead, gives := c.fl.gives, timer := c.fl.timer, tally := c.fl.tally } }

/-- A hint issues: its group goes on at the next word with the hint pending (R48). -/
def hintSlot (ok : Ctx → Bool) (f : HintState → HintState) (s : State) : Out :=
  .next (match s.ctx? with
    | none => s
    | some c =>
      if ok c then
        let s1 := c.lanes.foldl (fun s l => s.modThread c.fk l (fun t => { t with pc := nextPc c.pc })) s
        s1.modFlight c.fk (fun fl =>
          { fl with hint := some (f (HintState.start_ c)), lead := c.lanes.headD 0, gives := .no
                    timer := if c.keeps then fl.timer + 1 else 1, tally := if c.keeps then fl.tally else 0 })
      else trapGroup c s (trap .illegal 0))

/-- hint.imm; a second one in the group traps (R48). -/
def execHintImm (p : BitVec 24) (s : State) : Out := hintSlot (fun c => c.imm.isNone) (fun h => { h with imm := some p }) s

/-- R45: a field whose valid bit is 0 has zero value bits. -/
def modOk (m : ModHint) : Bool :=
  (m.ov || m.order == 0) && (m.rv || m.rm == 0) && (m.sv || !m.sat) && (m.scv || m.scope == 0) && (m.cv || m.cache == 0)

/-- hint.mod with its fields in the order of R45: order, rounding, saturation, scope and cache each after its valid
bit, then returnless. -/
def execHintMod (a : BitVec 1) (o : BitVec 2) (b : BitVec 1) (r : BitVec 2) (c d e : BitVec 1) (sc : BitVec 3)
    (f : BitVec 1) (k : BitVec 2) (n : BitVec 1) (s : State) : Out :=
  let m : ModHint :=
    { ov := a == 1, order := o, rv := b == 1, rm := r, sv := c == 1, sat := d == 1, scv := e == 1, scope := sc,
      cv := f == 1, cache := k, nr := n == 1 }
  hintSlot (fun x => x.mods.isNone && modOk m) (fun h => { h with mods := some m }) s

/-- hint.sched (R47). The stall count advises only timing. -/
def execHintSched (w : BitVec 1) (st : BitVec 8) (s : State) : Out :=
  hintSlot (fun c => c.sched.isNone) (fun h => { h with sched := some (w == 1, st) }) s

/-! ## PFC (R58–R60) -/

/-- The lines overlapping [start, start + len), as unbounded integers. -/
def pfcLines (start : DWord) (len : Nat) : List Nat :=
  if len = 0 then []
  else
    let a := va57 start
    (List.range ((a + len - 1) / 128 - a / 128 + 1)).map (fun i => (a / 128 + i) * 128)

/-- R59: a line lies below 2^56 and translates with execute permission under the landing's key id. -/
def lineGood (s : State) (c : Ctx) (va : Nat) : Bool :=
  decide (va + 128 ≤ 2 ^ 56) &&
  match (s.translate c.ld.core c.tr.part va).2 with
  | some p => p.x && (p.host || p.key == c.ld.key)
  | none => false

/-- Bring a line into the cache of a level. -/
def fillCode (l : BitVec 1) (c : Ctx) (s : State) (va : Nat) : State × Fetched :=
  if l = 1 then s.clusterLine c.ld.core c.tr.part c.ld.key va else s.coreLine c.ld.core c.tr.part c.ld.key va

/-- The lines of the cache of a level. -/
def codeOf (l : BitVec 1) (c : Ctx) (s : State) : List CodeLine := if l = 1 then s.mem.ccOf (c.ld.core / 24) else s.mem.l0Of c.ld.core

/-- Set or clear the pin of lines of the cache of a level. -/
def setPins (l : BitVec 1) (c : Ctx) (b : Bool) (vas : List Nat) (s : State) : State :=
  let f := fun (ls : List CodeLine) =>
    ls.map (fun x => if vas.contains x.va && x.key == c.ld.key && x.part == c.tr.part then { x with pinned := b } else x)
  if l = 1 then { s with mem := { s.mem with ccache := tmodD [] s.mem.ccache (c.ld.core / 24) f } }
  else { s with mem := { s.mem with l0 := tmodD [] s.mem.l0 c.ld.core f } }

/-- R59: some set would hold more pinned lines than its limit. -/
def pinsOver (sh : CacheShape) (c : Ctx) (ls : List CodeLine) (vas : List Nat) : Bool :=
  decide (sh.pins * 2 ^ sh.setBits < vas.length) ||
  vas.any (fun v =>
    let pinned := ls.filter (fun x => x.pinned && decide (sh.set x.va = sh.set v))
    let new := vas.filter (fun w => decide (sh.set w = sh.set v) &&
      !pinned.any (fun x => x.va == w && x.key == c.ld.key && x.part == c.tr.part))
    decide (sh.pins < pinned.length + new.length))

/-- The start of a range is sign-extended from bit 56. -/
def rangeGood (s : State) (c : Ctx) (start : DWord) (vas : List Nat) : Bool := isCanon start && vas.all (lineGood s c)

/-- A PFC instruction over the lanes of G in ascending order (R59): `f` answers the state and the lane's result. -/
def pfc (a b : BitVec 6) (g : BitVec 3) (p : Option (BitVec 3)) (f : Ctx → DWord → List Nat → State → State × Bool) (s : State) :
    Out :=
  .next (issue s HintUse.none g (fun c ls s =>
    if anyAwaits s c.fk (allRegs [pair a, one b]) ls then (s, [(ls.headD 0, .hold .register)])
    else ls.foldl (fun acc l =>
      match acc.1.thread? c.fk l with
      | none => acc
      | some t =>
        match regTrap c.ld.regs t [pair a, one b] with
        | some x => (acc.1, acc.2 ++ [(l, .trap x)])
        | none =>
          let start := t.pair a.toNat
          let r := f c start (pfcLines start (t.reg b.toNat).toNat) acc.1
          (match p with
            | some p => r.1.modThread c.fk l (fun t => t.setPred p.toNat r.2)
            | none => r.1, acc.2 ++ [(l, .done)])) (s, [])))

/-- pf.code: the good lines are requested (R59, R60). -/
def execPfCode (l : BitVec 1) (a b : BitVec 6) (g : BitVec 3) (s : State) : Out :=
  pfc a b g none (fun c start vas s =>
    if isCanon start then ((vas.filter (lineGood s c)).foldl (fun s v => (fillCode l c s v).1) s, true) else (s, false)) s

/-- pin.code: all or nothing (R59). -/
def execPinCode (l : BitVec 1) (p : BitVec 3) (a b : BitVec 6) (g : BitVec 3) (s : State) : Out :=
  pfc a b g (some p) (fun c start vas s =>
    let sh := if l = 1 then ccShape else l0Shape
    if vas.isEmpty then (s, true)
    else if pinsOver sh c (codeOf l c s) vas || !rangeGood s c start vas then (s, false)
    else
      let r := vas.foldl (fun (acc : State × Bool) v =>
        match fillCode l c (setPins l c true [v] acc.1) v with
        | (s1, .line _) => (setPins l c true [v] s1, acc.2)
        | (s1, _) => (s1, false)) (s, true)
      if r.2 then r
      else
        let was := (codeOf l c s).filter (fun x => x.pinned && x.key == c.ld.key && x.part == c.tr.part)
        (setPins l c false (vas.filter (fun v => !was.any (fun x => x.va == v))) r.1, false)) s

/-- unpin.code (R59). -/
def execUnpinCode (l : BitVec 1) (a b : BitVec 6) (g : BitVec 3) (s : State) : Out :=
  pfc a b g none (fun c start vas s => if isCanon start then (setPins l c false vas s, true) else (s, false)) s

end Sys2Proof.Machine
end

