-- ==== Sys2Proof/Machine/Fabric.lean ====
section
/-!
DEFINITION. Fabric ports and stream ingest (23_fabric.md R439–R455): the vestibule and its rings, PACKET_RECEIVE and
WIRE_RECORD, the RING instructions.
-/

namespace Sys2Proof
open Sys2Proof.Machine

/-! ## Wire records (R441) -/

/-- The little-endian field of `n` bytes at an offset of a record. -/
def WireRecord.at (w : WireRecord) (o n : Nat) : Nat := ofBytesLE ((w.bytes.drop o).take n)

/-- `n` bytes of a record, as numbers. -/
def WireRecord.part (w : WireRecord) (o n : Nat) : List Nat := ((w.bytes.drop o).take n).map BitVec.toNat

def WireRecord.stream (w : WireRecord) : Nat := w.at 0 4
def WireRecord.len (w : WireRecord) : Nat := bits (w.at 4 4) 0 16
def WireRecord.reset (w : WireRecord) : Bool := bit (w.at 4 4) 16
def WireRecord.reserved (w : WireRecord) : Bool := bits (w.at 4 4) 17 15 != 0

/-- The header lies in the message. -/
def WireRecord.complete (w : WireRecord) : Bool := decide (20 ≤ w.bytes.length)

/-- The record overruns its message. -/
def WireRecord.overrun (w : WireRecord) : Bool := decide (w.bytes.length < 36 + w.len)

/-- The check of the record's message under a key of 256 bits: the tag of its first 8 bytes and its ciphertext. -/
def WireRecord.authentic (w : WireRecord) (key : Nat) : Bool :=
  gcmTag (roundKeys (bytesBE 32 key)) (w.part 8 12) (w.part 0 8) (w.part 20 w.len) == ofBytesBE (w.part (20 + w.len) 16)

/-- The payload in plaintext: counter mode is its own inverse. -/
def WireRecord.plain (w : WireRecord) (key : Nat) : List Byte :=
  (gcmText (roundKeys (bytesBE 32 key)) (w.part 8 12) (w.part 20 w.len)).map (BitVec.ofNat 8)

/-- The records at the front of the bytes of a stream message, back to back, and what follows them. A record that is not whole waits
for more bytes; `last` says that the message ends here, where it is what is left of it. The first number bounds the records. -/
def recordsGo (source : Nat) (last : Bool) : Nat → List Byte → List WireRecord × List Byte
  | 0, bs => ([], bs)
  | k + 1, bs =>
    let n := 36 + (WireRecord.mk source bs).len
    if bs.isEmpty then ([], [])
    else if n ≤ bs.length then
      let r := recordsGo source last k (bs.drop n)
      ({ source := source, bytes := bs.take n } :: r.1, r.2)
    else if last then ([{ source := source, bytes := bs }], [])
    else ([], bs)

end Sys2Proof

namespace Sys2Proof.Machine

/-! ## Ports (R439, R442, R443) -/

/-- A port before Newel has written its tables; its link is taken to be up. -/
def Port.fresh : Port := { linkUp := true, stopped := false, discards := 0, unclass := 0, streams := [], keys := [], buffer := [], messages := [] }

def State.port (s : State) (p : Nat) : Port := tgetD Port.fresh s.ports p
def State.modPort (s : State) (p : Nat) (u : Port → Port) : State := { s with ports := tmodD Port.fresh s.ports p u }

/-- Bytes of records in a receive buffer. -/
def bufferSize (l : List WireRecord) : Nat := (l.map (fun w => w.bytes.length)).foldl (· + ·) 0

/-- Bytes that a receive buffer holds (R439). -/
def Port.held (x : Port) : Nat := bufferSize x.buffer + (x.messages.map (fun m => m.parts.length)).foldl (· + ·) 0

/-- R439: the packet uses only options of the table, and its bytes lie in its frame and in its message. -/
def packetOk (p : Packet) : Bool :=
  (p.rud != p.uud) && !p.foreign && decide (p.frame ≤ 9216) &&
  decide (p.message ≤ if p.write then 16 * 2 ^ 20 else 2 ^ 20) &&
  decide (p.body.length ≤ p.frame) && decide (p.offset + p.body.length ≤ p.message)

/-- The message of a packet, as far as it has come. -/
def Port.openOf (x : Port) (p : Packet) : OpenMessage :=
  (x.messages.find? (fun m => m.source == p.source && m.id == p.id && m.rud == p.rud)).getD
    { source := p.source, id := p.id, rud := p.rud, size := p.message, base := 0, parts := [] }

/-- The bytes of a table that stand at an offset and after it without a gap. -/
def runFrom (o : Nat) : Tab Byte → List Byte
  | [] => []
  | (k, b) :: t => if k = o then b :: runFrom (o + 1) t else if k < o then runFrom o t else []

/-- A packet's bytes join its message: the records that are whole in arrival order leave it; the message is over once all of it has
come. -/
def OpenMessage.take (m : OpenMessage) (p : Packet) : List WireRecord × Option OpenMessage :=
  let parts := (p.body.zipIdx.foldl (fun t b => tput t (p.offset + b.2) b.1) m.parts).filter (fun b => decide (m.base ≤ b.1))
  let run := runFrom m.base parts
  let last := decide (m.base + run.length = m.size)
  let r := recordsGo m.source last (run.length / 36 + 1) run
  let base := m.base + (run.length - r.2.length)
  (r.1, if last then none else some { m with base := base, parts := parts.filter (fun b => decide (base ≤ b.1)) })

/-- R439: the fabric addresses with a delivery context of a port: sources of reliable messages that have begun, peers of channels
with a message under way in either direction. -/
def State.contexts (s : State) (port : Nat) : List Nat :=
  let sending := fun (n : Nat) => s.copies.any (fun q => q.2.any (fun op => op.sent.isSome && op.chan == n))
  (((s.port port).messages.filter (·.rud)).map (·.source) ++
    (s.chans.filter (fun c => c.2.port == port && (!c.2.early.isEmpty || sending c.1))).map (fun c => c.2.peer)).eraseDups

/-- R439: a port has a delivery context for an address, or one of its 8,192 is free. -/
def State.contextFor (s : State) (port source : Nat) : Bool :=
  (s.contexts port).contains source || decide ((s.contexts port).length < 8192)

/-- R461: a port whose link is down, or that has stopped, takes nothing. -/
def Port.serves (x : Port) : Bool := x.linkUp && !x.stopped

/-- A packet is taken into the receive buffer. -/
def Port.take (x : Port) (p : Packet) : Port :=
  let r := (x.openOf p).take p
  { x with
    buffer := x.buffer ++ r.1
    messages := x.messages.filter (fun m => !(m.source == p.source && m.id == p.id && m.rud == p.rud)) ++ r.2.toList }

/-- PACKET_RECEIVE: a packet is taken into the receive buffer; one that finds it full is discarded with a count when it is unreliable,
and left with its sender when it is reliable, as is one that finds no delivery context free (R439, R443). -/
def State.packetIn (s : State) (port : Nat) (p : Packet) : State :=
  let x := s.port port
  let put := fun (y : Port) => s.modPort port (fun _ => y)
  if !x.serves then s
  else if !packetOk p then put { x with discards := x.discards + 1 }
  else if p.rud && !s.contextFor port p.source then s
  else if x.held + p.body.length ≤ 4 * 2 ^ 20 then put (x.take p)
  else if p.uud then put { x with discards := x.discards + 1 }
  else s

def execPacketReceive (port : Nat) (packet : Packet) (s : State) : Out := .next (s.packetIn port packet)
def execPortLinkDown (port : Nat) (s : State) : Out := .next (s.modPort port (fun x => { x with linkUp := false }))
def execPortLinkUp (port : Nat) (s : State) : Out := .next (s.modPort port (fun x => { x with linkUp := true }))

/-! ## Rings (R444–R448) -/

def Losses.zero : Losses := { recs := 0, bytes := 0, auth := 0, bad := 0 }

/-- R444: the ring emptied, as configuration and partition reset leave it. -/
def Ring.emptied (r : Ring) : Ring :=
  { r with
    head := 0, claimed := 0, tail := 0, epoch := 0, losses := Losses.zero, pending := Losses.zero, pendEpoch := 0,
    sealedGap := none, resetDue := none, gaps := 0, overrun := false, claims := [], spans := [] }

def State.modRing (s : State) (n : Nat) (u : Ring → Ring) : State := { s with rings := tmod s.rings n u }

/-- The difference of two running 32-bit indices. -/
def idxSub (a b : Nat) : Nat := (a + 2 ^ 32 - b % 2 ^ 32) % 2 ^ 32
def idxAdd (a b : Nat) : Nat := (a + b) % 2 ^ 32

/-- Free slots of a ring. -/
def Ring.free (r : Ring) : Nat := r.slots - idxSub r.tail r.head

/-- R445: the slots skipped before a record of `m` slots at index `i`. -/
def skipAt (size i m : Nat) : Nat := if size - i % size < m then size - i % size else 0

/-- R445: slots of a record. -/
def recordSlots (n : Nat) : Nat := ceilDiv (16 + n) 64

/-- Write a segment of a ring's storage that lies in one tile of its pages; a poisoned tile is contained (R419). Nothing is written
under a key id that is not the partition's (R442). -/
def State.ringSeg (s0 : State) (r : Ring) (va : Nat) (bs : List Byte) : State :=
  let s := s0.virtWalk r.part va
  match s.virtPage r.part va with
  | none => s
  | some pg =>
    let x := pg.at_ (va % 2 ^ 57)
    if pg.host then (if s.mem.linkUp then s.applyHost x.2 bs else s)
    else if !(s.walkEnv r.part).keys.contains r.kid then s
    else
      let m := s.mem.fill (tileOf x.2) r.kid 0
      (({ s with mem := if m.poisoned (tileOf x.2) r.kid then m.meet (tileOf x.2) else m } : State).applyGlobal x.2 r.kid 0 bs false).1

/-- Write bytes of a ring's storage: its hall slots, or its pages under the key entry's key id. -/
def State.ringWrite (s : State) (r : Ring) (off : Nat) (bs : List Byte) : State :=
  if r.hall then s.applyHall (r.base + off) bs
  else
    ((tileSegs (r.base + off) bs.length).foldl (fun (acc : State × List Byte) p =>
      (acc.1.ringSeg r p.1 (acc.2.take p.2), acc.2.drop p.2)) (s, bs)).1

/-- The clock that a claim of `n` bytes written now acquires: none for hall. -/
def State.ringClock (s : State) (r : Ring) (off n : Nat) : List Nat :=
  if r.hall then [0, 0, 0, 0] else s.virtClock r.part (r.base + off) n

/-- R445: the bytes of a record: header, payload, zeros to the end of its last slot. -/
def recordBytes (kind : SpanKind) (epoch time : Nat) (payload : List Byte) : List Byte :=
  let n := payload.length
  let flags : Byte := match kind with
    | .data => 0
    | .gap => 2
    | .reset => 1
  bytesLE 2 n ++ [flags, 0] ++ bytesLE 4 epoch ++ bytesLE 8 time ++ payload ++ zeros (64 * recordSlots n - 16 - n)

/-- The `s.cycle` of a ring's die. -/
def State.ringNow (s : State) (n : Nat) : Nat := tgetD 0 s.cycles (n / 256)

/-- R445, R449: write a record decided at cycle `time` at the tail; its span joins the ring. -/
def State.ringPut (s : State) (n : Nat) (kind : SpanKind) (epoch time : Nat) (payload : List Byte) : State :=
  match tget s.rings n with
  | none => s
  | some r =>
    let m := recordSlots payload.length
    let skip := skipAt r.slots r.tail m
    let off := 64 * (idxAdd r.tail skip % r.slots)
    let s1 := s.ringWrite r off (recordBytes kind epoch time payload)
    let sp : Span := { first := r.tail, skip := skip, slots := skip + m, kind := kind, bytes := payload.length, clock := s1.ringClock r off (64 * m) }
    s1.modRing n (fun r => { r with tail := idxAdd r.tail (skip + m), spans := r.spans ++ [sp] })

/-- R447: the payload of a GAP. -/
def gapPayload (l : Losses) : List Byte := bytesLE 8 l.recs ++ bytesLE 8 l.bytes ++ bytesLE 8 l.auth ++ bytesLE 8 l.bad

/-- The pending records, in the order in which they are written (R448): the sealed GAP, the RESET, the later GAP. -/
def Ring.due (r : Ring) : Nat :=
  (if r.sealedGap.isSome then 1 else 0) + (if r.resetDue.isSome then 1 else 0) + (if r.pending = Losses.zero then 0 else 1)

/-- Write the pending record that comes first, if one slot is free (R447, R448). A RESET carries the cycle of its decision (R445). A
GAP is decided by no record of its own: it carries the cycle at which it is written (DESIGN CHOICE, log entry 90). -/
def State.putDue (s : State) (n : Nat) : State :=
  match tget s.rings n with
  | none => s
  | some r =>
    if r.free = 0 then s
    else
      match r.sealedGap, r.resetDue with
      | some (l, e), _ => (s.ringPut n .gap e (s.ringNow n) (gapPayload l)).modRing n (fun r => { r with sealedGap := none, gaps := r.gaps + 1 })
      | none, some e => (s.ringPut n .reset e.1 e.2 []).modRing n (fun r => { r with resetDue := none })
      | none, none =>
        if r.pending = Losses.zero then s
        else (s.ringPut n .gap r.pendEpoch (s.ringNow n) (gapPayload r.pending)).modRing n
          (fun r => { r with pending := Losses.zero, gaps := r.gaps + 1 })

/-- GAP_WRITE: every pending record that fits is written. -/
def State.putAllDue (s : State) (n : Nat) : State := ((s.putDue n).putDue n).putDue n

inductive DropCause where
  | full | auth | malformed
  deriving DecidableEq, Repr

/-- R447: one loss added to a set of counters. -/
def Losses.add (l : Losses) (n : Nat) (c : DropCause) : Losses :=
  { recs := l.recs + 1, bytes := l.bytes + (if n ≤ 8176 then n else 0),
    auth := l.auth + (if c = .auth then 1 else 0), bad := l.bad + (if c = .malformed then 1 else 0) }

/-- R447: Drop(r, cause). -/
def Ring.drop (r : Ring) (n : Nat) (c : DropCause) : Ring :=
  { r with losses := r.losses.add n c, pending := r.pending.add n c, pendEpoch := r.epoch }

/-- R446: how many records an overwriting ring discards from its head so that `c` records of one slot and then a record
of `m` slots fit. The list holds the spans from the head; every discarded one is a data record. -/
def discardCount (r : Ring) (c m : Nat) : Nat → Nat → List Span → Option Nat
  | k, freed, spans =>
    let tail := idxAdd r.tail c
    if c + skipAt r.slots tail m + m ≤ r.free + freed then some k
    else
      match spans with
      | [] => none
      | x :: xs => if x.kind = .data then discardCount r c m (k + 1) (freed + x.slots) xs else none

/-- Discard the oldest record: a drop with its own length; head and claim point move past it (R446). -/
def Ring.discard (r : Ring) : Ring :=
  match r.spans with
  | [] => r
  | x :: xs =>
    let r1 := r.drop x.bytes .full
    { r1 with spans := xs, head := idxAdd r.head x.slots, claimed := idxAdd r.claimed x.slots, overrun := true }

def discardN : Nat → Ring → Ring
  | 0, r => r
  | n + 1, r => discardN n r.discard

/-- R445, R446: Place(r, record). -/
def State.place (s : State) (n : Nat) (payload : List Byte) : State :=
  let s1 := s.putAllDue n
  match tget s1.rings n with
  | none => s1
  | some r =>
    let m := recordSlots payload.length
    let room := decide (skipAt r.slots r.tail m + m ≤ r.free)
    if r.due = 0 && room then s1.ringPut n .data r.epoch (s.ringNow n) payload
    else
      let later := if r.pending = Losses.zero then 1 else 0
      let k := if r.overwrite && r.head == r.claimed then discardCount r (r.due + later) m 0 0 r.spans else none
      match k with
      | some k => ((s1.modRing n (discardN k)).putAllDue n).ringPut n .data r.epoch (s.ringNow n) payload
      | none => s1.modRing n (fun r => r.drop payload.length .full)

/-- R448: Reset(r). -/
def State.ringReset (s : State) (n : Nat) : State :=
  match tget s.rings n with
  | none => s
  | some r =>
    if r.resetDue.isSome then s.modRing n (fun r => r.drop 0 .full)
    else
      let e := (r.epoch + 1) % 2 ^ 32
      (s.modRing n (fun r =>
        { r with sealedGap := if r.pending = Losses.zero then none else some (r.pending, r.pendEpoch)
                 pending := Losses.zero, epoch := e, resetDue := some (e, s.ringNow n) })).putAllDue n

/-! ## Claims (R451, R452) -/

/-- R452: the records of a chunk after its first, with the count and bytes so far. -/
def chunkMore (rb bb : Nat) : Nat → Nat → List Span → List Span
  | _, _, [] => []
  | k, b, x :: xs =>
    if k < rb && x.kind == .data && x.skip == 0 && (bb == 0 || decide (b + x.bytes ≤ bb)) then
      x :: chunkMore rb bb (k + 1) (b + x.bytes) xs
    else []

/-- R452: the spans of the chunk at the claim point. -/
def Ring.chunk (r : Ring) (rb bb : Nat) : List Span :=
  match r.spans.dropWhile (fun x => x.first != r.claimed) with
  | [] => []
  | x :: xs => if x.kind = .data then x :: chunkMore rb bb 1 x.bytes xs else [x]

/-- A claim cannot be made now (R451). -/
def Ring.noClaim (r : Ring) : Bool :=
  r.claimed == r.tail || decide (64 ≤ (r.claims.filter (fun c => !c.released)).length)

/-- R451: the four words of a claim. -/
def claimWords (r : Ring) (ch : List Span) : List Word :=
  let f := ch.headD { first := 0, skip := 0, slots := 0, kind := .data, bytes := 0, clock := [] }
  let a := (if r.hall then r.base % 2 ^ 26 else r.base) + 64 * (idxAdd f.first f.skip % r.slots)
  let fl := ch.length + (if f.kind = .reset then 2 ^ 16 else 0) + (if f.kind = .gap then 2 ^ 17 else 0)
    + (if r.overrun then 2 ^ 18 else 0) + (if r.hall then 0 else 2 ^ 19)
  [BitVec.ofNat 32 a, if r.hall then 0 else highHalf (canon (BitVec.ofNat 64 a)), BitVec.ofNat 32 f.first, BitVec.ofNat 32 fl]

/-- The budgets of a claim, from its register (R451). -/
def claimBudget (w : Word) : Nat × Nat := (if bits w.toNat 0 8 = 0 then 256 else bits w.toNat 0 8, bits w.toNat 8 24)

/-- One claim in one ring step: the chunk, the ring after it; the flight acquires what the chunk's records carry. -/
def State.claim (s : State) (n : Nat) (r : Ring) (w : Word) (tid fk : Nat) : State × List Word :=
  let b := claimBudget w
  let ch := r.chunk b.1 b.2
  let stop := idxAdd r.claimed ((ch.map (·.slots)).foldl (· + ·) 0)
  let s1 := s.modRing n (fun r =>
    { r with claimed := stop, overrun := false
             claims := r.claims ++ [{ ticket := r.claimed, stop := stop, released := false, tid := tid }] })
  (s1.modFlight fk (fun f => { f with cover := ch.foldl (fun c x => joinClock c x.clock) f.cover }), claimWords r ch)

/-- Serve the pending claims of a ring, in order (R218, R451). -/
def State.serveRing (s : State) (n : Nat) : Nat → State
  | 0 => s
  | k + 1 =>
    match tget s.rings n with
    | none => s
    | some r =>
      match r.waiters with
      | [] => s
      | (fk, q) :: ws =>
        match (tget s.flights fk).bind (fun f => (f.qreg q).pend), tget s.landings (landingOf fk) with
        | some p, some ld =>
          if r.noClaim then s
          else
            let w := match s.thread? fk (p.lanes.headD 0) with
              | some t => t.reg p.reg
              | none => 0
            let x := (s.modRing n (fun r => { r with waiters := ws })).claim n r w ld.tid fk
            (x.1.servePop fk q p (fun _ t => t.setRegs p.reg x.2)).serveRing n k
        | _, _ => (s.modRing n (fun r => { r with waiters := ws })).serveRing n k

/-- Every pending claim of a ring is tried again at a ring step. -/
def State.ringStep (s : State) (n : Nat) : State :=
  match tget s.rings n with
  | some r => s.serveRing n (r.waiters.length + 1)
  | none => s

/-- R451: the head moves over the released claims that start at it. -/
def Ring.advanceHead : Nat → Ring → Ring
  | 0, r => r
  | n + 1, r =>
    match r.claims.find? (fun c => c.released && c.ticket == r.head) with
    | none => r
    | some c =>
      Ring.advanceHead n
        { r with head := c.stop, claims := r.claims.filter (fun x => x.ticket != c.ticket)
                 spans := r.spans.dropWhile (fun x => decide (idxSub x.first r.head < idxSub c.stop r.head)) }

/-- R451, R453: release the claims named, move the head, write what is pending. -/
def State.releaseClaims (s : State) (n : Nat) (ok : Claim → Bool) : State :=
  match tget s.rings n with
  | none => s
  | some r =>
    if r.claims.any (fun c => !c.released && ok c) then
      let s1 := s.modRing n (fun r =>
        let r1 := { r with claims := r.claims.map (fun c => if ok c then { c with released := true } else c) }
        r1.advanceHead (r1.claims.length + 1))
      (s1.putAllDue n).ringStep n
    else s

/-- R453: the claims of a tread that completes or ends are released. -/
def State.releaseTreadClaims (s : State) (tid : Nat) : State :=
  s.rings.foldl (fun s p => s.releaseClaims p.1 (fun c => c.tid == tid)) s

/-! ## WIRE_RECORD (R443) -/

/-- The key entry of a record's stream, when its header is complete. -/
def Port.entryOf (p : Port) (w : WireRecord) : Option PortKey :=
  (p.streams.find? (fun e => e.2.source == w.source && e.2.stream == w.stream)).bind (fun e => tget p.keys e.2.key)

/-- R461: a partition is being reset: its rings and channels drop what arrives, without counting. -/
def State.resetting (s : State) (part : Nat) : Bool := (tget s.parts part).any (·.resetting)

/-- R443: the decision on the oldest record of a port's buffer. -/
def State.wireRecord (s : State) (port : Nat) : State :=
  let p := s.port port
  match p.buffer with
  | [] => s
  | w :: ws =>
    let s1 := s.modPort port (fun p => { p with buffer := ws })
    let unclassified := s1.modPort port (fun p => { p with unclass := p.unclass + 1 })
    if p.stopped then s
    else
      match p.entryOf w with
      | none => unclassified
      | some e =>
        if !w.complete || (tget s.rings e.ring).isNone then unclassified
        else if (tget s.rings e.ring).any (fun r => s.resetting r.part) then s1
        else
          let s2 := s1.modRing e.ring (fun r => { r with kid := e.kid })
          let s3 :=
            if w.overrun || decide (8176 < w.len) || w.reserved || (w.reset && w.len != 0) then
              s2.modRing e.ring (fun r => r.drop w.len .malformed)
            else if !w.authentic e.key then s2.modRing e.ring (fun r => r.drop w.len .auth)
            else if w.reset then s2.ringReset e.ring
            else s2.place e.ring (w.plain e.key)
          s3.ringStep e.ring

def execWireRecord (port : Nat) (s : State) : Out := .next (s.wireRecord port)

/-! ## RING (R450–R454) -/

/-- The ring that a queue register is bound to. -/
def ringOf (s : State) (c : Ctx) (q : Nat) : Option (Nat × Ring) :=
  match s.binding c.fl q with
  | some (6, n) => (tget s.rings n).map (fun r => (n, r))
  | _ => none

/-- What a claim takes: a chunk, in one ring step, written into every lane of G (R451, R452). -/
def takeChunk (c : Ctx) (v k : Nat) (r : Ring) : Take := fun s good =>
  match s.thread? c.fk (good.headD 0) with
  | none => none
  | some t =>
    if r.noClaim then none
    else
      let y := s.claim k r (t.reg v) c.ld.tid c.fk
      some (good.foldl (fun s l => s.modThread c.fk l (fun t => t.setRegs v y.2)) y.1, allDone good)

def execIngClaim (v : BitVec 6) (q : BitVec 4) (p : BitVec 3) (n : BitVec 1) (g : BitVec 3) (s : State) : Out :=
  .next (issue s HintUse.none g (fun c ls s =>
    match ringOf s c q.toNat with
    | none => (s, unboundAll s c (everyLane c [quad v]) ls q.toNat)
    | some (k, r) =>
      popBody c q.toNat .claim .queue (quad v) (nbPred p n) (takeChunk c v.toNat k r)
        (fun s => s.modRing k (fun r => { r with waiters := r.waiters ++ [(c.fk, q.toNat)] })) ls s))

/-- ing.rel: held until the flight's loads are complete and its earlier accesses are performed, since it is their
release (R451, R449). -/
def execIngRel (v : BitVec 6) (q : BitVec 4) (g : BitVec 3) (s : State) : Out :=
  .next (issue s HintUse.none g (fun c ls s =>
    let l := ls.headD 0
    match ringOf s c q.toNat, s.thread? c.fk l with
    | some (k, r), some t =>
      if anyAwaits s c.fk [v.toNat] [l] then (s, [(l, .hold .register)])
      else
        match regTrap c.ld.regs t [one v] with
        | some x => (s, laneRes ls l (.trap x))
        | none =>
          if c.fl.cLd.value != 0 || !s.releasedUpto c.fk lanes8 s.mem.nextAcc then (s, [(l, .hold .register)])
          else
            let ok := fun (x : Claim) => decide (x.ticket = (t.reg v.toNat).toNat)
            if r.claims.any (fun x => !x.released && ok x) then (s.releaseClaims k ok, allDone ls)
            else (s, ls.map (fun l => (l, .trap (trap .engineError 6))))
    | _, _ => (s, unboundAll s c (lowestLane c [one v] ls) ls q.toNat)))

/-- A query of a ring: words into registers of every lane of G. -/
def ringQuery (us : List RegUse) (v : BitVec 6) (q : BitVec 4) (g : BitVec 3) (f : Ring → List Word) (s : State) : Out :=
  .next (issue s HintUse.none g (fun c ls s =>
    match ringOf s c q.toNat with
    | none => (s, unboundAll s c (everyLane c us) ls q.toNat)
    | some (_, r) => laneBody us (fun _ _ _ t => .ok (t.setRegs v.toNat (f r)) 0) c ls s))

def execIngStat (v : BitVec 6) (q : BitVec 4) (g : BitVec 3) (s : State) : Out :=
  ringQuery [quad v] v q g (fun r =>
    [BitVec.ofNat 32 r.head, BitVec.ofNat 32 r.claimed, BitVec.ofNat 32 r.tail, BitVec.ofNat 32 r.epoch]) s

def execIngGap (v : BitVec 6) (q : BitVec 4) (g : BitVec 3) (s : State) : Out :=
  ringQuery [pair v] v q g (fun r =>
    [BitVec.ofNat 32 r.gaps,
     BitVec.ofNat 32 ((if r.pending = Losses.zero && r.sealedGap.isNone then 0 else 1) + (if r.resetDue.isSome then 2 else 0))]) s

/-- The words of a 64-bit counter. -/
def counterWords (n : Nat) : List Word := [BitVec.ofNat 32 n, BitVec.ofNat 32 (n / 2 ^ 32)]

/-- ing.loss: eight registers from a multiple of 4 (R450, R454). -/
def execIngLoss (v : BitVec 6) (q : BitVec 4) (g : BitVec 3) (s : State) : Out :=
  if 64 ≤ v.toNat + 7 then
    .next (issue s HintUse.none g (fun _ ls s =>
      (s, ls.map (fun l => (l, .trap (trap .illegalRegister (if v.toNat % 4 = 0 then 64 else v.toNat)))))))
  else
    ringQuery [quad v, { r := v.toNat + 4, n := 4 }] v q g (fun r =>
      counterWords r.losses.recs ++ counterWords r.losses.bytes ++ counterWords r.losses.auth ++ counterWords r.losses.bad) s

end Sys2Proof.Machine
end

