-- ==== Sys2Proof/Machine/Collective.lean ====
section
/-!
DEFINITION. Collective channels (23_fabric.md R456–R460): COLL, the arrival of a peer's message and of its answer.
-/

namespace Sys2Proof.Machine

/-! ## Channels -/

def State.modChan (s : State) (n : Nat) (u : Channel → Channel) : State := { s with chans := tmod s.chans n u }

/-- The channel that a queue register is bound to. -/
def chanOf (s : State) (c : Ctx) (q : Nat) : Option (Nat × Channel) :=
  match s.binding c.fl q with
  | some (7, n) => (tget s.chans n).map (fun x => (n, x))
  | _ => none

/-! ## coll.send and coll.red (R458) -/

/-- The source of a collective operation as lane L holds it. -/
structure CollDesc where
  ga     : DWord
  h      : Word
  offset : Nat
  ctl    : Nat
  deriving DecidableEq, Repr

def CollDesc.len (d : CollDesc) : Nat := bits d.ctl 0 24
def CollDesc.hall (d : CollDesc) : Bool := bit d.ctl 31
def CollDesc.op (d : CollDesc) : Nat := bits d.ctl 28 3
/-- The source address as an address trap reports it. -/
def CollDesc.addr (d : CollDesc) : DWord := if d.hall then d.h.zeroExtend 64 else d.ga

/-- R458: the source as a thread holds it from register `v` on. -/
def collDesc (v : Nat) (t : Thread) : CollDesc :=
  { ga := t.pair v, h := t.reg v, offset := (t.reg (v + 2)).toNat, ctl := (t.reg (v + 3)).toNat }

/-- R460: a length or an op that is an illegal instruction. -/
def CollDesc.illegal (d : CollDesc) (red : Bool) : Bool := d.len % (if red then 4 else 16) != 0 || (red && decide (4 ≤ d.op))

/-- What lane L meets before it asks for the channel: the register checks, then what R460 makes an illegal instruction (R105). -/
def collFirst (c : Ctx) (red : Bool) (v : BitVec 6) (l : Nat) : Nat → Thread → Option Trap := fun k t =>
  if k = l then
    match regTrap c.ld.regs t [quad v] with
    | some x => some x
    | none => if (collDesc v.toNat t).illegal red then some (trap .illegal 0) else none
  else none

/-- The checks of R458 and R460: a length or an op that R460 makes an illegal instruction comes first (R105); then the source as R306
checks it, its alignment and where it lies. -/
def collChecks (c : Ctx) (s : State) (red : Bool) (d : CollDesc) : Option Res :=
  firstRes [
    if d.illegal red then some (.trap (trap .illegal 0)) else none,
    if d.addr.toNat % 16 ≠ 0 then misaligned 16 d.addr false else none,
    if d.hall && d.len != 0 && !oneSlice (s.coresOf c.tr.part) c.ld.core d.h.toNat d.len then some (.ends 0x43 d.addr false)
    else none,
    if !d.hall && d.len != 0 && (!isCanon d.ga || (leaseFor c.tr.leases (va57 d.ga) d.len true false).isNone) then
      some (.ends 0x40 d.addr false) else none]

/-- coll.send and coll.red: one CP operation of the flight (R458). -/
def collSource (red : Bool) (v : BitVec 6) (q : BitVec 4) (nb : Option Nat) (g : BitVec 3) (s : State) : Out :=
  .next (issue s HintUse.none g (fun c ls s =>
    let l := ls.headD 0
    match chanOf s c q.toNat, s.thread? c.fk l with
    | some (n, _), some t =>
      if anyAwaits s c.fk (quad v).regs [l] then (s, [(l, .hold .register)])
      else
        match regTrap c.ld.regs t [quad v] with
        | some x => (s, laneRes ls l (.trap x))
        | none =>
          let d := collDesc v.toNat t
          match collChecks c s red d with
          | some r => (s, laneRes ls l r)
          | none =>
            if c.fl.full .cp then (s, [(l, .hold .classFull)])
            else if d.len ≠ 0 ∧ 64 ≤ (tgetD [] s.copies c.ld.core).length then
              (if nb.isSome then (setPreds c.fk nb false ls s, allDone ls) else (s, [(l, .hold .engine)]))
            else
              let op : CopyOp :=
                { kind := .send (if red then some d.op else none), who := c.issuer l, op := c.fl.cCp.issued, cache := 0, ga := d.ga,
                  h := d.h, hd := 0, toGlobal := false, len := d.len, esz := 4, dest := none, lanes := ls, entry := none,
                  chan := n, offset := d.offset, spaceHall := d.hall,
                  moved := [], got := [], sent := none, clock := [0, 0, 0, 0] }
              (setPreds c.fk nb true ls (acceptCopy c op false (0, 0) s), allDone ls)
    | _, _ =>
      if anyAwaits s c.fk (quad v).regs [l] then (s, [(l, .hold .register)])
      else (s, unboundAll s c (collFirst c red v l) ls q.toNat)))

def execCollSend (v : BitVec 6) (q : BitVec 4) (p : BitVec 3) (n : BitVec 1) (g : BitVec 3) (s : State) : Out :=
  collSource false v q (nbPred p n) g s
def execCollRed (v : BitVec 6) (q : BitVec 4) (g : BitVec 3) (s : State) : Out := collSource true v q none g s

/-! ## The peer's answer (R458) -/

/-- A collective operation is over: it leaves its core's copy engine and completes. -/
def State.endSend (s : State) (core i : Nat) (op : CopyOp) : State :=
  ({ s with copies := tmodD [] s.copies core (fun l => l.eraseIdx i) } : State).completeEng op.who.fk .cp op.op op.clock

/-- R461: a channel's port takes what comes from its peer. -/
def State.chanServes (s : State) (n : Nat) : Bool :=
  match tget s.chans n with
  | some ch => (s.port ch.port).serves
  | none => false

/-- COLL_ACK: the peer has applied the bytes, or has refused them and the channel goes into error. An answer that finds the port's
link down or the port stopped is lost (R461). -/
def State.collAcked (s : State) (core i : Nat) (a : CollAnswer) : State :=
  match (tgetD [] s.copies core)[i]? with
  | none => s
  | some op =>
    if op.sent.isNone || !s.chanServes op.chan then s
    else
      match a with
      | .applied fl => (if op.kind = .send (some 1) then s.orEngineFlags op.who.fk fl else s).endSend core i op
      | .refused code =>
        if code ∈ [1, 2, 4] then (s.modChan op.chan (fun x => { x with error := code })).endSend core i op else s

/-- The four words of a notice. -/
def noticeWords (x : Notice) : List Word :=
  [BitVec.ofNat 32 x.offset, BitVec.ofNat 32 x.len, BitVec.ofNat 32 ((if x.red then 1 else 0) + 256 * x.status), 0]

/-- Serve the pending receives of a channel while it holds notices. -/
def State.serveChan (s : State) (n : Nat) : Nat → State
  | 0 => s
  | k + 1 =>
    match tget s.chans n with
    | none => s
    | some ch =>
      match ch.waiters, ch.notices with
      | (fk, q) :: ws, x :: xs =>
        match (tget s.flights fk).bind (fun f => (f.qreg q).pend) with
        | none => (s.modChan n (fun ch => { ch with waiters := ws })).serveChan n k
        | some p =>
          let s1 := s.modChan n (fun ch => { ch with waiters := ws, notices := xs })
          let s2 := s1.modFlight fk (fun f => { f with cover := joinClock f.cover x.clock })
          (s2.servePop fk q p (fun _ t => t.setRegs p.reg (noticeWords x))).serveChan n k
      | _, _ => s

def execCollAck (core i : Nat) (answer : CollAnswer) (s : State) : Out := .next (s.collAcked core i answer)

/-- COLL_RETRY_EXHAUSTED: the transport gives up (R458, R459). -/
def State.collLost (s : State) (core i : Nat) : State :=
  match (tgetD [] s.copies core)[i]? with
  | none => s
  | some op =>
    if op.sent.isNone then s
    else (s.modChan op.chan (fun x => { x with error := 3 })).endSend core i op

def execCollRetryExhausted (core i : Nat) (s : State) : Out := .next (s.collLost core i)

/-! ## The receiving device (R458, R459) -/

/-- Where a byte of a channel's window lives; none when its page does not translate. -/
def State.windowAt (s : State) (ch : Channel) (off : Nat) : Option Loc :=
  if ch.hall then some { space := .hall, addr := ch.base + off, key := 0 }
  else (s.virtPage ch.part (ch.base + off)).map (fun p =>
    let x := p.at_ ((ch.base + off) % 2 ^ 57)
    { space := x.1, addr := x.2, key := ch.kid })

/-- A place of a window is about to be written: its tile is brought in; a poisoned one is contained (R419) and takes no write. -/
def State.reachLoc (s : State) (l : Loc) : State :=
  if l.space = .stack then
    let m := s.mem.fill (tileOf l.addr) l.key 0
    { s with mem := if m.poisoned (tileOf l.addr) l.key then m.meet (tileOf l.addr) else m }
  else s

/-- The places of `n` bytes of a window, each within one tile; none when a page does not translate. -/
def State.windowLocs (s : State) (ch : Channel) (off n : Nat) : Option (List (Loc × Nat)) :=
  let segs := if ch.hall then [(ch.base + off, n)] else tileSegs (ch.base + off) n
  let ls := segs.filterMap (fun p => (s.windowAt ch (p.1 - ch.base)).map (fun l => (l, p.2)))
  if ls.length = segs.length then some ls else none

/-- What has been applied of a message: the state, the flags, the clock of its writes. -/
abbrev Applied := State × FFlags × List Nat

/-- Bytes written at one place: a plain write. -/
def applyPlace (acc : Applied × List Byte) (p : Loc × Nat) : Applied × List Byte :=
  let r := acc.1.1.applyAt p.1.space p.1.addr p.1.key 0 (acc.2.take p.2) false ([0, 0, 0, 0], [0, 0, 0, 0])
  let ck := match r.2 with
    | some k => clockAt (homeDie p.1.addr) k
    | none => [0, 0, 0, 0]
  ((r.1, acc.1.2.1, joinClock acc.1.2.2 ck), acc.2.drop p.2)

/-- One unit of a message applied at its home: 16 bytes of a send, an element of a reduction with its op. -/
def applyUnit (ch : Channel) (red : Option Nat) (acc : Applied) (u : Nat × List Byte) : Applied :=
  let s := if ch.hall then acc.1 else acc.1.virtWalk ch.part (ch.base + u.1)
  match s.windowLocs ch u.1 u.2.length with
  | none => (s, acc.2)
  | some ls =>
    let s1 := ls.foldl (fun s p => s.reachLoc p.1) s
    let n := u.2.length
    let nv : Nat × FFlags := match red with
      | some op => atomicNew op (ofBytesLE (ls.flatMap (fun p => s1.mem.atHome p.1.space p.1.addr p.1.key p.2))) (ofBytesLE u.2) 0
      | none => (ofBytesLE u.2, 0)
    (ls.foldl applyPlace ((s1, acc.2.1 ||| nv.2, acc.2.2), bytesLE n nv.1)).1

/-- The units of a message: offset and bytes. The first argument bounds their number. -/
def unitsOf (m : Nat) : Nat → Nat → List Byte → List (Nat × List Byte)
  | 0, _, _ => []
  | f + 1, off, bs => if bs.isEmpty then [] else (off, bs.take m) :: unitsOf m f (off + m) (bs.drop m)

/-- The units of a message. -/
def CollMessage.units (m : CollMessage) : List (Nat × List Byte) :=
  unitsOf (if m.red.isSome then 4 else 16) m.bytes.length m.offset m.bytes

/-- The message is accepted: its channel is known, it passes authentication, it lies in the window (R458). -/
def collAccepts (ch : Channel) (m : CollMessage) : Bool := m.authentic && decide (m.offset + m.bytes.length ≤ ch.len)

/-- The channel takes the bytes of a message: its port serves and has a delivery context for the peer (R439, R461), the key entry that
protects its messages is in use (R456), the message is no larger than a write may be. -/
def State.takesMessage (s : State) (ch : Channel) (m : CollMessage) : Bool :=
  decide (m.chan < 256) && collAccepts ch m && !s.resetting ch.part && (s.port ch.port).serves && s.contextFor ch.port ch.peer &&
  (tget (s.port ch.port).keys ch.key).isSome && decide (m.bytes.length ≤ 16 * 2 ^ 20)

/-- What is applied already of a message. -/
def Channel.earlyOf (ch : Channel) (m : CollMessage) : EarlyMessage :=
  (ch.early.find? (fun x => x.msg == m)).getD { msg := m, units := [], clock := [0, 0, 0, 0] }

/-- R458: one unit of a message is applied ahead of the rest. -/
def State.collUnit (s : State) (die : Nat) (m : CollMessage) (k : Nat) : State :=
  let n := 256 * die + m.chan
  match tget s.chans n, (CollMessage.units m)[k]? with
  | some ch, some u =>
    let x := ch.earlyOf m
    if !s.takesMessage ch m || x.units.contains k then s
    else
      let r := applyUnit ch m.red (s, 0, x.clock) u
      r.1.modChan n (fun ch => { ch with
        early := ch.early.filter (fun y => y.msg != m) ++ [{ x with units := x.units ++ [k], clock := r.2.2 }] })
  | _, _ => s

/-- R439: a message larger than a write may be is discarded and counted. -/
def State.oversized (s : State) (ch : Channel) (m : CollMessage) : Bool :=
  (s.port ch.port).serves && decide (16 * 2 ^ 20 < m.bytes.length)

/-- The count rises and the notice is posted of a message all of whose units are applied and performed (R459, R371). -/
def State.noticeMessage (s : State) (die : Nat) (m : CollMessage) (ck : List Nat) : State :=
  let n := 256 * die + m.chan
  match tget s.chans n with
  | none => s
  | some ch =>
    if !s.mem.covers die ck || decide (256 ≤ ch.notices.length) then s
    else
      let note : Notice := { offset := m.offset, len := m.bytes.length, red := m.red.isSome, status := 0, clock := ck }
      let s1 := s.modChan n (fun ch =>
        { ch with count := ch.count + 1, notices := ch.notices ++ [note], clock := joinClock ch.clock ck
                  early := ch.early.filter (fun y => y.msg != m) })
      s1.serveChan n (ch.waiters.length + 1)

/-- COLL_MESSAGE: every unit is applied at its home; once they are performed, the count rises and a notice is posted (R459). A
refused message applies nothing; while the arrival queue is full the message waits. -/
def State.collArrive (s : State) (die : Nat) (m : CollMessage) : State :=
  let n := 256 * die + m.chan
  match tget s.chans n with
  | none => s
  | some ch =>
    if s.oversized ch m then s.modPort ch.port (fun x => { x with discards := x.discards + 1 })
    else if !s.takesMessage ch m then s
    else
      let x := ch.earlyOf m
      let us := (CollMessage.units m).zipIdx.filter (fun u => !x.units.contains u.2)
      let r := (us.map (·.1)).foldl (applyUnit ch m.red) (s, 0, x.clock)
      let s1 := r.1.modChan n (fun ch => { ch with
        early := ch.early.filter (fun y => y.msg != m) ++ [{ x with units := x.units ++ us.map (·.2), clock := r.2.2 }] })
      s1.noticeMessage die m r.2.2

def execCollMessage (die : Nat) (message : CollMessage) (s : State) : Out := .next (s.collArrive die message)

/-! ## coll.recv and coll.wait (R459) -/

/-- What a receive takes: the oldest notice, into every lane of G; it acquires the writes of its message (R459). -/
def takeNotice (c : Ctx) (v k : Nat) (ch : Channel) : Take := fun s good =>
  match ch.notices with
  | [] => none
  | y :: ys =>
    let s1 := (s.modChan k (fun ch => { ch with notices := ys })).modFlight c.fk (fun f =>
      { f with cover := joinClock f.cover y.clock })
    some (good.foldl (fun s l => s.modThread c.fk l (fun t => t.setRegs v (noticeWords y))) s1, allDone good)

def execCollRecv (v : BitVec 6) (q : BitVec 4) (p : BitVec 3) (n : BitVec 1) (g : BitVec 3) (s : State) : Out :=
  .next (issue s HintUse.none g (fun c ls s =>
    match chanOf s c q.toNat with
    | none => (s, unboundAll s c (everyLane c [quad v]) ls q.toNat)
    | some (k, ch) =>
      popBody c q.toNat .recv .queue (quad v) (nbPred p n) (takeNotice c v.toNat k ch)
        (fun s => s.modChan k (fun ch => { ch with waiters := ch.waiters ++ [(c.fk, q.toNat)] })) ls s))

/-- coll.wait: held while the count stands behind V, the value of the lowest lane, and the channel has no error. -/
def execCollWait (v : BitVec 6) (q : BitVec 4) (g : BitVec 3) (s : State) : Out :=
  .next (issue s HintUse.none g (fun c ls s =>
    match chanOf s c q.toNat with
    | none => (s, unboundAll s c (everyLane c [one v]) ls q.toNat)
    | some (_, ch) =>
      if anyAwaits s c.fk [v.toNat] ls then (s, [(ls.headD 0, .hold .register)])
      else
        let x := splitLanes s c.fk ls (fun t => regTrap c.ld.regs t [one v])
        match x.1, x.2 with
        | [], bad => (s, bad)
        | (l, _) :: _, b :: bad => (s, holdOthers l .queue (b :: bad))
        | (_, t) :: _, [] =>
          if ch.error = 0 ∧ 2 ^ 31 ≤ (ch.count - t.reg v.toNat).toNat then (s, [(ls.headD 0, .hold .queue)])
          else
            let s1 := s.modFlight c.fk (fun f => { f with cover := joinClock f.cover ch.clock })
            (ls.foldl (fun s l => s.modThread c.fk l (fun t => t.setReg v.toNat (BitVec.ofNat 32 ch.error))) s1, allDone ls)))

end Sys2Proof.Machine
end

