-- ==== Sys2Proof/Machine/QueueCtl.lean ====
section
/-!
DEFINITION. QOP and QCTL (10_core.md R219–R224): qpush, qpop, qbind, qstat, qflush.
-/

namespace Sys2Proof.Machine

/-- R221: the classes QOP acts on. -/
def qopClass (cls : Nat) : Bool := cls == 0 || cls == 1 || cls == 3 || cls == 4 || cls == 5

/-- R220: the entry that a push forms from the lanes of G. -/
def marker (v : Nat) (ls : List (Nat × Thread)) : Entry :=
  { slots := lanes8.map (fun l => match tget ls l with
      | some t => t.reg v
      | none => 0)
    valid := laneMask (ls.map (·.1)) }

/-- The class of a queue register where QOP acts on it, or what every lane of G takes (R220, R221): an illegal class traps before
the register checks of `v`, an unbound register after them (R105). -/
def qopCheck (s : State) (c : Ctx) (ls : List Nat) (v : BitVec 6) (q : Nat) : Except (List (Nat × Res)) Nat :=
  match s.binding c.fl q with
  | none => .error (unboundAll s c (everyLane c [one v]) ls q)
  | some (cls, _) => if qopClass cls then .ok cls else .error (ls.map (fun l => (l, .trap (trap .illegal 0))))

def execQpush (v : BitVec 6) (q : BitVec 4) (p : BitVec 3) (n : BitVec 1) (g : BitVec 3) (s : State) : Out :=
  .next (issue s HintUse.none g (fun c ls s =>
    match qopCheck s c ls v q.toNat with
    | .error r => (s, r)
    | .ok cls =>
      if anyAwaits s c.fk [v.toNat] ls then (s, [(ls.headD 0, .hold .register)])
      else
        let x := splitLanes s c.fk ls (fun t => regTrap c.ld.regs t [one v])
        let good := x.1.map (·.1)
        match good with
        | [] => (s, x.2)
        | l :: _ =>
          if (c.fl.endpoint cls).space = 0 then
            if n = 1 then (setPreds c.fk (nbPred p n) false good s, allDone good ++ x.2)
            else (s, holdOthers l .queue x.2)
          else (setPreds c.fk (nbPred p n) true good (s.postEntry c.fk cls c.ld.spell false (marker v.toNat x.1)), allDone good ++ x.2)))

def execQpop (v : BitVec 6) (q : BitVec 4) (p : BitVec 3) (n : BitVec 1) (g : BitVec 3) (s : State) : Out :=
  .next (issue s HintUse.none g (fun c ls s =>
    match qopCheck s c ls v q.toNat with
    | .error r => (s, r)
    | .ok cls => popEndpoint c q.toNat cls .entry v.toNat (nbPred p n) ls s))

/-- R224: what qbind finds at an instance: the binding, or the status it reports. -/
def bindTarget (s : State) (c : Ctx) (cls : Nat) (w : Word) : Except Nat (Nat × Nat) :=
  let n := w.toNat
  match cls with
  | 6 =>
    match tget s.rings n with
    | none => .error 1
    | some r => if r.part = c.tr.part then .ok (6, n) else .error 2
  | 7 =>
    if 256 ≤ n then .error 1
    else
      match tget s.chans (256 * (c.ld.core / 48) + n) with
      | none => .error 1
      | some x => if x.part = c.tr.part then .ok (7, 256 * (c.ld.core / 48) + n) else .error 2
  | 8 =>
    if bits n 26 6 ≠ 0 ∨ 24 ≤ bits n 21 5 then .error 1
    else if (tget s.hqueues (hallKey c.ld.core n)).isNone then .error 1
    else if (s.coresOf c.tr.part).contains (24 * (c.ld.core / 24) + bits n 21 5) then .ok (8, hallKey c.ld.core n)
    else .error 2
  | _ => if n = 0 then .ok (cls, 0) else .error 1

/-- R224: q, which nothing binds, is bound to an instance of a class, or its status says why not. -/
def State.bindAs (s : State) (c : Ctx) (q cls : Nat) (w : Word) : State :=
  match bindTarget s c cls w with
  | .ok b => s.modQ c.fk q (fun r => { r with bound := some b, made := s.madeOf b, status := 0, credit := 0 })
  | .error e => s.modQ c.fk q (fun r => { r with status := e })

def execQbind (v : BitVec 6) (q k : BitVec 4) (g : BitVec 3) (s : State) : Out :=
  clactl [one v] g (fun c s t _ ls => ((s.unbindQ c.fk q.toNat).bindAs c q.toNat k.toNat (t.reg v.toNat), allDone ls)) s

/-- What a binding reports as avail and space (R224). -/
def qcounts (s : State) (c : Ctx) (r : QueueReg) (b : Nat × Nat) : Nat × Nat :=
  match b.1 with
  | 2 =>
    let n := (s.clac c.ld.core).cmds.length
    (n, 64 - n)
  | 6 => match tget s.rings b.2 with
    | some x => (idxSub x.tail x.claimed, x.free)
    | none => (0, 0)
  | 7 => match tget s.chans b.2 with
    | some x => (x.notices.length, 64 - (tgetD [] s.copies c.ld.core).length)
    | none => (0, 0)
  | 8 => match tget s.hqueues b.2 with
    | some h => (h.held, r.credit + h.pool)
    | none => (0, 0)
  | cls =>
    let e := c.fl.endpoint cls
    (e.entries.length, e.space)

/-- The endpoint of a binding has reported an error. R224 gives status 3 "once the endpoint has reported an error" and does not say
whether the completion entry of a failed copy (classes 4 and 5) is such a report: in the model it is not, the entry itself
carries the failure (DESIGN CHOICE, log entry 66). -/
def qfailed (s : State) (c : Ctx) (b : Nat × Nat) : Bool :=
  match b.1 with
  | 7 => (tget s.chans b.2).any (fun x => x.error != 0)
  | cls => decide (cls < 6) && (c.fl.endpoint cls).error

/-- R224: the word of qstat. -/
def qstatWord (s : State) (c : Ctx) (q : Nat) : Word :=
  let r := c.fl.qreg q
  let b := s.binding c.fl q
  let pend := if r.pend.isSome then 2 ^ 30 else 0
  match b with
  | none => BitVec.ofNat 32 (pend + r.status)
  | some x =>
    let n := qcounts s c r x
    BitVec.ofNat 32 (2 ^ 31 + pend + 2 ^ 24 * x.1 + 2 ^ 16 * min 255 n.1 + 2 ^ 8 * min 255 n.2
      + (if qfailed s c x then 3 else r.status))

def execQstat (v : BitVec 6) (q : BitVec 4) (g : BitVec 3) (s : State) : Out :=
  .next (laneOp s HintUse.none g [one v] (fun c s _ t => .ok (t.setReg v.toNat (qstatWord s c q.toNat)) 0))

def execQflush (q : BitVec 4) (g : BitVec 3) (s : State) : Out :=
  .next (issue s HintUse.none g (fun c ls s => (s.unbindQ c.fk q.toNat, allDone ls)))

end Sys2Proof.Machine
end

