-- ==== Sys2Proof/Machine/Ending.lean ====
section
/-!
DEFINITION. How threads and treads end: exit and tail (08_flow_instr.md R164, 05_thread.md R100), the retirement tracker
(10_core.md R239), TREAD_RETIRE (R108, 15_nests.md R334).
-/

namespace Sys2Proof.Machine

/-! ## exit and tail -/

/-- R164: a thread that exits loses its transient values, its reservation and its handler mode. -/
def Thread.leave (t : Thread) (tail : Bool) : Thread :=
  { (if t.hmode then t.leaveHandler t.pc else t) with
    cond := .exited, trans := [], resv := none, lrsc := none, held := none, exiting := t.exiting || tail }

/-- R239: operations of the ST or CP class of a landing, tracked raises among them, are outstanding. -/
def State.owes (s : State) (lid : Nat) : Bool :=
  (s.flightsOf lid).any (fun fk => (tget s.flights fk).any (fun f => f.cSt.value != 0 || f.cCp.value != 0))

/-- R239: the entries of a core's retirement tracker: landings that left by tail, or by an ending, and still owe operations. R239
says what a tail does that finds all 64 in use, and nothing of an ending that does: the model counts an ended tread beyond the 64 and
holds it for nothing, since its registers, flights and hall bytes stay until it has drained in any case (R108; DESIGN CHOICE, log
entry 100). -/
def State.tracked (s : State) (core : Nat) : Nat :=
  (s.landings.filter (fun p => p.2.core == core && s.owes p.1 && (tget s.treads p.2.tid).any (fun t =>
    t.ending.isSome || t.cancelled || (p.2.tailed && p.2.freed && t.stage == .running)))).length

/-- The flags of the applied atomics of a landing whose old values are discarded: with that they are complete (R194). -/
def State.reportFlags (s : State) (lid : Nat) : State :=
  (s.mem.accs.filter (fun a => a.fk / 32 == lid && !a.dest.isEmpty && !a.returned)).foldl (fun s a => s.orEngineFlags a.fk a.flags) s

/-- R164: results bound for the registers of a landing are discarded, and their leases end. -/
def State.discardResults (s : State) (lid : Nat) : State :=
  let s1 := (s.reportFlags lid).modThreadsOf lid (fun t => { t with leases := [], loads := [] })
  { s1 with mem := { s1.mem with accs := s1.mem.accs.map (fun a => if a.fk / 32 = lid then { a with dest := [] } else a) } }

/-- R164, R239: a landing whose last thread has ended, one of them with tail, frees its registers, flight slots and hall bytes
(State.hallUsed), if the tracker has an entry for it. -/
def State.freeTailed (s : State) (lid : Nat) : State :=
  match tget s.landings lid with
  | none => s
  | some l =>
    if l.tailed && !l.freed && (s.liveThreads lid).isEmpty && (!s.owes lid || decide (s.tracked l.core < 64))
        && (tget s.treads l.tid).any (fun t => t.stage == .running) then
      (s.modLanding lid (fun l => { l with freed := true })).discardResults lid
    else s

/-- The lanes of G exit: they leave the rejoin masks, and every round, reduction and barrier that waited for them may go on
(R100, R227, R229, R234). -/
def exitLanes (tail : Bool) (c : Ctx) (ls : List Nat) (s : State) : State :=
  let s1 := ls.foldl (fun s l => (dropResv c.fk s l).modThread c.fk l (·.leave tail)) s
  let s2 := (List.range 16).foldl (leaveMask c.fk (laneMask ls)) s1
  let s3 := (List.range 4).foldl (fun s h => s.tryRed c.lid h) (s2.tryRounds c.lid)
  let s4 := (s3.tryBar c.lid c.ld.tid false).tryBar c.lid c.ld.tid true
  let s5 := if tail then s4.modLanding c.lid (fun l => { l with tailed := true }) else s4
  s5.freeTailed c.lid

def execExit (g : BitVec 3) (s : State) : Out :=
  .next (issue s HintUse.none g (fun c ls s => (exitLanes false c ls s, ls.map (fun l => (l, .still)))))
def execTail (g : BitVec 3) (s : State) : Out :=
  .next (issue s HintUse.none g (fun c ls s => (exitLanes true c ls s, ls.map (fun l => (l, .still)))))

/-! ## Draining -/

/-- The flights of a tread, with their keys. -/
def State.treadFlights (s : State) (t : Tread) : List (Nat × Flight) :=
  t.landings.flatMap (fun lid => (s.flightsOf lid).filterMap (fun fk => (tget s.flights fk).map (fun f => (fk, f))))

/-- Every operation of every class of a flight has completed. -/
def Flight.idle (f : Flight) : Bool := f.cLd.value == 0 && f.cSt.value == 0 && f.cCp.value == 0 && f.cMx.value == 0

/-- An accumulator store of a flight is outstanding. -/
def State.storesTile (s : State) (core fk : Nat) : Bool :=
  (tgetD [] s.mxq core).any (fun o => o.kind == .st && o.ops.any (fun p => p.1 == fk))

/-- A returning atomic of a flight has not been applied: its write, and the flags it raises, are still to come (R193, R194). -/
def Memory.owesAtomic (m : Memory) (fk : Nat) : Bool :=
  m.accs.any (fun a => a.fk == fk && a.writes && (a.stage == .issued || a.stage == .drained))

/-- R164, R239: what a flight must drain: all classes, or, once a tail has freed its landing, the operations that write
memory, of whatever class, and the tracked raises. -/
def State.drained (s : State) (t : Tread) (fk : Nat) (f : Flight) : Bool :=
  match tget s.landings (landingOf fk) with
  | none => true
  | some l =>
    if l.tailed && l.freed && t.stage == .running then
      f.cSt.value == 0 && f.cCp.value == 0 && !s.storesTile l.core fk && !s.mem.owesAtomic fk
    else f.idle

/-- R164, R239: a landing of a running tread whose threads have all ended with exit frees its registers, flight slots and hall
bytes once its own counters are 0. -/
def State.freeExited (s : State) (lid : Nat) : State :=
  match tget s.landings lid with
  | none => s
  | some l =>
    if !l.tailed && !l.freed && (s.liveThreads lid).isEmpty && (tget s.treads l.tid).any (fun t => t.stage == .running)
        && (s.flightsOf lid).all (fun fk => (tget s.flights fk).all (·.idle)) then
      s.modLanding lid (fun l => { l with freed := true })
    else s

/-- A landing of a tread that goes on frees what it may: by exit, or by a tail that the tracker has an entry for by now. -/
def State.freeOwn (s : State) (lid : Nat) : State := (s.freeExited lid).freeTailed lid

/-- The tread has nothing more to do: ended or cancelled (R108), or all its threads have exited (R334). -/
def State.finished (s : State) (t : Tread) : Bool :=
  t.ending.isSome || t.cancelled || (t.stage == .running && t.landings.all (fun lid => (s.liveThreads lid).isEmpty))

/-! ## Retirement -/

/-- Everything of a tread leaves the tables. -/
def State.removeTread (s : State) (tid : Nat) (t : Tread) : State :=
  let ls := t.landings
  { s with
    threads := s.threads.filter (fun p => !ls.contains (p.1 / 256))
    flights := s.flights.filter (fun p => !ls.contains (p.1 / 32))
    landings := s.landings.filter (fun p => !ls.contains p.1)
    treads := tdel s.treads tid
    mem := { s.mem with accs := s.mem.accs.filter (fun a => !ls.contains (a.fk / 32)) } }

/-- Unbind every queue register of a flight (R108, R348): pending pops are forgotten, credits return. -/
def State.unbindAll (s : State) (fk : Nat) : State := (List.range 16).foldl (fun s q => s.unbindQ fk q) s

/-- The two reports of a retirement (R334). -/
def retireReports (t : Tread) (home : Nat) (flags : BitVec 5) (clock : List Nat) : List Report :=
  let r : Report := { die := t.owner, home := false, run := t.run, nest := t.nest, point := t.point, ended := t.ending.isSome
                      fault := t.ending, flags := flags, clock := clock }
  [r, { r with die := home, home := true }]

/-- The clock that a retirement releases (R381): what the tread's die has seen, what its accesses and its engine operations have
written and read. Retirement itself needs completion only (R334, R392). -/
def State.retireClock (s : State) (t : Tread) : List Nat :=
  let ls := t.landings
  let accs := (s.mem.accs.filter (fun a => ls.contains (a.fk / 32))).map Access.clockOf
  let fs := (s.treadFlights t).flatMap (fun p => p.2.cover :: p.2.opStamps.map (fun x => x.2.2))
  (accs ++ fs).foldl joinClock (s.mem.clockOf t.die)

/-- R334: the tread retires. -/
def State.retire (s : State) (tid : Nat) (t : Tread) : State :=
  let fs := s.treadFlights t
  let flags := fs.foldl (fun (b : BitVec 5) (p : Nat × Flight) => b ||| s.flagsOf t p.1 p.2) 0
  let clock := s.retireClock t
  let home := match tget s.runs t.run with
    | some r => r.die
    | none => t.owner
  let s1 := fs.foldl (fun s p => s.unbindAll p.1) s
  let s2 := t.landings.foldl (fun s lid =>
    match tget s.landings lid with
    | some l => s.dropLatches l.core lid
    | none => s) (s1.releaseTreadClaims tid)
  let s3 := { s2 with
    reports := s2.reports ++ retireReports t home flags clock
    dies := s2.dies.map (fun (p : Nat × Die) => (p.1, { p.2 with queue := p.2.queue.filter (· != tid) })) }
  let s4 := s3.modNest t.run t.nest (fun n => { n with past := n.past ++ [(t.point, clock)] })
  let s5 := if fs.all (fun p => p.2.cMx.value == 0) then s4.removeTread tid t
    else s4.modTread tid (fun t => { t with stage := .retired })
  (t.landings.filterMap (fun lid => (tget s.landings lid).map (·.core))).eraseDups.foldl (fun s core =>
    (s.landings.filter (fun p => p.2.core == core)).foldl (fun s p => s.freeTailed p.1) s) s5

/-- TREAD_RETIRE. A retired tread whose matrix results are still outstanding keeps its flights until they are written; a tread
that may not retire yet tries to free its landings, so that an entry of the tracker that has drained, in whatever way, takes the
next landing left by tail (R239). -/
def State.treadRetire (s : State) (tid : Nat) : State :=
  match tget s.treads tid with
  | none => s
  | some t =>
    let fs := s.treadFlights t
    if t.stage = .retired then (if fs.all (fun p => p.2.cMx.value == 0) then s.removeTread tid t else s)
    else if t.stage = .queued then s
    else if !s.finished t then t.landings.foldl State.freeOwn s
    else if fs.all (fun p => s.drained t p.1 p.2) then s.retire tid t
    else t.landings.foldl State.freeOwn s

def execTreadRetire (tid : Nat) (s : State) : Out := .next (s.treadRetire tid)

end Sys2Proof.Machine
end

