-- ==== Sys2Proof/Machine/Place.lean ====
section
/-!
DEFINITION. Placing landings on cores (10_core.md R207, R209; 14_cluster.md R303; 15_nests.md R325, R332;
20_prog_exchange.md R394; 16_phases.md R345, R351).
-/

namespace Sys2Proof.Machine

/-! ## What is in use -/

/-- The placements held apart for concurrent nests (R325). -/
def State.reservations (s : State) : List Placement :=
  s.runs.flatMap (fun r => r.2.nests.flatMap (fun n => n.reserved.flatMap (·.2)))

/-- The hall ranges in use in the slice of a core, with their phase records: offset, length. A landing keeps its range
on whatever core it runs (R345), until its last thread has ended and it frees its resources (R239), or its tread retires. -/
def State.hallUsed (s : State) (core : Nat) : List (Nat × Nat) :=
  (s.landings.filterMap (fun p =>
    if p.2.core / 24 = core / 24 ∧ p.2.hallBase / 2 ^ 21 = core % 24 ∧ !(tget s.treads p.2.tid).any (fun t => t.stage == .retired || (t.stage == .running && p.2.freed)) then
      some (p.2.hallBase % 2 ^ 21, p.2.hallLen + p.2.recordLen)
    else none)) ++
  (s.reservations.filter (fun x => decide (x.base / 2 ^ 26 = core / 24) && decide (x.base % 2 ^ 26 / 2 ^ 21 = core % 24))).map
    (fun x => (x.base % 2 ^ 21, x.len))

/-- A bay as placement sees it: free flight slots, free registers per lane. -/
structure BayRoom where
  slots : Nat
  regs  : Nat
  deriving DecidableEq, Repr

/-- The flights that occupy a bay: their allocations. -/
def State.bayLoad (s : State) (core bay : Nat) : List Nat :=
  (s.flights.filterMap (fun p =>
    match tget s.landings (landingOf p.1) with
    | some l => if l.core = core ∧ p.2.bay = bay ∧ !l.freed then some l.regs else none
    | none => none)) ++
  (s.reservations.filter (fun x => decide (x.core = core))).flatMap (fun x => (x.bays.filter (· == bay)).map (fun _ => x.regs))

/-- R15, R204: a bay has 64 flight slots and 4,096 registers in each lane. -/
def State.bayRooms (s : State) (core : Nat) : List BayRoom :=
  (List.range 8).map (fun b =>
    let l := s.bayLoad core b
    { slots := 64 - l.length, regs := 4096 - l.foldl (· + ·) 0 })

/-! ## Fitting (R207) -/

/-- The bay for one flight: a free slot, enough registers, most registers, lowest number. -/
def bestBay (n : Nat) (rooms : List BayRoom) : Option Nat :=
  rooms.zipIdx.foldl (fun (b : Option Nat) x =>
    if x.1.slots = 0 ∨ x.1.regs < n then b
    else
      match b with
      | none => some x.2
      | some k => if (rooms.getD k { slots := 0, regs := 0 }).regs < x.1.regs then some x.2 else some k) none

/-- The bays of `k` flights of allocation `n`, one after the other. -/
def placeFlights (n : Nat) : Nat → List BayRoom → Option (List Nat)
  | 0, _ => some []
  | k + 1, rooms =>
    match bestBay n rooms with
    | none => none
    | some b =>
      (placeFlights n k (setAt (fun (r : BayRoom) => { slots := r.slots - 1, regs := r.regs - n }) b rooms)).map (b :: ·)

/-- [a, a + n) is free among ranges. -/
def rangeFree (used : List (Nat × Nat)) (a n : Nat) : Bool :=
  decide (a + n ≤ 2 ^ 21) && used.all (fun u => decide (a + n ≤ u.1) || decide (u.1 + u.2 ≤ a) || n == 0 || u.2 == 0)

/-- The lower of two places. -/
def lowerOf (best : Option Nat) (a : Nat) : Option Nat :=
  match best with
  | none => some a
  | some b => if a < b then some a else some b

/-- R394: the lowest multiple of 64 at which a range is free: 0, or the end of a range in use. -/
def lowestFit (used : List (Nat × Nat)) (n : Nat) : Option Nat :=
  ((0 :: used.map (fun u => roundUp (u.1 + u.2) 64)).filter (fun a => rangeFree used a n)).foldl lowerOf none

/-- R303: landings of one shape on consecutive cores of one cluster, at one offset of their slices. -/
def State.fitWindow (s : State) (cores : List Nat) (regs flights len : Nat) : Option (List Placement) :=
  match lowestFit (cores.flatMap s.hallUsed) len with
  | none => none
  | some off =>
    let ps := cores.filterMap (fun k => (placeFlights regs flights (s.bayRooms k)).map (fun bs =>
      ({ core := k, base := k / 24 * 2 ^ 26 + k % 24 * 2 ^ 21 + off, len := len, regs := regs, bays := bs } : Placement)))
    if ps.length = cores.length then some ps else none

/-- The windows of `n` consecutive cores of one cluster of a die, in the cyclic order that starts after `last` (R332). -/
def coreWindows (die last n : Nat) : List (List Nat) :=
  ((List.range 48).map (fun i => 48 * die + (last % 48 + 1 + i) % 48)).filterMap (fun k =>
    if (k + n - 1) / 24 = k / 24 then some ((List.range n).map (fun j => k + j)) else none)

/-- The first answer of a list of attempts. -/
def firstSome {α β : Type} (f : α → Option β) : List α → Option β
  | [] => none
  | x :: xs =>
    match f x with
    | some y => some y
    | none => firstSome f xs

/-- R332: the first window of the partition's cores that fits. -/
def State.findPlace (s : State) (die last part n regs flights len : Nat) : Option (List Placement) :=
  let own := s.coresOf part
  firstSome (fun w => if w.all own.contains then s.fitWindow w regs flights len else none) (coreWindows die last n)

/-! ## Starting a fresh tread -/

/-- A thread at the start of its landing (R92, R94); its pc is a 57-bit address, sign-extended (R53). -/
def Thread.fresh (entry : DWord) (n : Nat) : Thread :=
  let x : Word := BitVec.ofNat 32 (n % 256 * 256)
  { pc := canon entry, cond := .running, regs := [], preds := 0, x0 := x, x1 := x, x2 := x, x3 := x, hmode := false, cause := 0,
    finfo := 0, fpc := 0, fnpc := 0, faddr := 0, hscratch := [], trans := [], leases := [], loads := [], resv := none,
    crossed := none, relFenced := false, sysFenced := false, lrsc := none, held := none, arrL := none, arrS := none, barNow := none, pwait := [], raise := none,
    exiting := false }

def Counter.zero : Counter := { issued := 0, base := 0, done := [] }

/-- A flight at the start of its landing (R204). `cover` is the clock its accesses follow. -/
def Flight.fresh (bay since : Nat) (active : Bool) (cover : List Nat) : Flight :=
  { bay := bay, active := active, since := since, advice := false, lead := 0, gives := .no, timer := 0, tally := 0, hint := none, expect := [],
    arrived := [], fpflags := 0, tcount := 0, queues := [], ends := [], cLd := Counter.zero, cSt := Counter.zero,
    cCp := Counter.zero, cMx := Counter.zero, opStamps := [], cover := cover }

/-- A flight has ended: every thread of it has exited, or its tread has been ended or cancelled (R90, R108). -/
def State.flightEnded (s : State) (fk : Nat) (l : Landing) : Bool :=
  lanes8.all (fun i => (s.thread? fk i).all (fun t => t.cond == .exited)) ||
  (tget s.treads l.tid).any (fun t => t.ending.isSome || t.cancelled)

/-- R209, R211: the active set of a bay has room; a flight that has ended is in no set. -/
def State.activeRoom (s : State) (core bay : Nat) : Bool :=
  decide ((s.flights.filter (fun p => p.2.active && p.2.bay == bay &&
    (tget s.landings (landingOf p.1)).any (fun l => l.core == core && !l.freed && !s.flightEnded p.1 l))).length < 8)

/-- Put the flights of a fresh landing on their bays. -/
def State.addFlights (s : State) (lid core entry_n : Nat) (entry : DWord) (cover : List Nat) : Nat → List Nat → State
  | _, [] => s
  | f, b :: bs =>
    let fl := Flight.fresh b (tgetD 0 s.cycles (core / 48)) (s.activeRoom core b) cover
    let s1 := { s with flights := tput s.flights (32 * lid + f) fl }
    let s2 := lanes8.foldl (fun s l => s.putThread (32 * lid + f) l (Thread.fresh entry entry_n)) s1
    s2.addFlights lid core entry_n entry cover (f + 1) bs

/-- The key id of a code page as the page tables give it (R54); 0 where the entry does not translate. -/
def State.codeKey (s : State) (part : Nat) (entry : DWord) : Nat :=
  match s.virtPage part (va57 entry) with
  | some p => p.key
  | none => 0

/-- A landing at its placement (R89, R204). -/
def landingAt (d : NestDesc) (tid number key now : Nat) (p : Placement) : Landing :=
  { tid := tid, number := number, core := p.core, flights := d.header.flights, regs := d.header.regs,
    hallBase := p.base % 2 ^ 26, hallLen := d.header.hall, entry := d.entry, handler := d.handler, key := key, conv := [],
    bar := { gen := 0, arrived := [], phase := false }, red := [], spell := 0, tailed := false, phased := d.header.phased,
    carry := d.header.carry, phases := 0, preempts := 0, boundary := false, placed := now, freed := false, saveAt := none, applied := [],
    tiles := [] }

/-- One landing of a fresh tread takes its placement. -/
def State.addLanding (s : State) (d : NestDesc) (tid : Nat) (cover : List Nat) (x : Placement × Nat) : State :=
  match tget s.treads tid with
  | none => s
  | some t =>
    let s := s.virtWalk t.part (va57 d.entry)
    let lid := s.nextKey
    let l := landingAt d tid x.2 (s.codeKey t.part d.entry) (tgetD 0 s.wall (x.1.core / 48)) x.1
    let s1 := { s with
      nextKey := lid + 1
      landings := tput s.landings lid l
      treads := tput s.treads tid { t with landings := t.landings ++ [lid] } }
    s1.addFlights lid x.1.core d.header.regs d.entry cover 0 x.1.bays

/-- A fresh tread starts on its placements: all parts of it become resident at once (R11, R207). -/
def State.startTread (s : State) (d : NestDesc) (tid : Nat) (ps : List Placement) (cover : List Nat) : State :=
  (ps.zipIdx.foldl (fun s x => s.addLanding d tid cover x) s).modTread tid (fun t => { t with stage := .running })

/-! ## Resuming (R351, R354) -/

/-- Where a landing of a tread resumes: it keeps its hall range, so only its flights are placed, in its cluster. -/
def State.fitResume (s : State) (cores : List Nat) (regs flights : Nat) : Option (List (Nat × List Nat)) :=
  let ps := cores.filterMap (fun k => (placeFlights regs flights (s.bayRooms k)).map (fun bs => (k, bs)))
  if ps.length = cores.length then some ps else none

/-- The windows for a resumption: consecutive cores of the landing's cluster, without the core it must leave. -/
def State.findResume (s : State) (t : Tread) (l : Landing) (last : Nat) : Option (List (Nat × List Nat)) :=
  let own := s.coresOf t.part
  firstSome (fun w =>
    if w.all own.contains && decide (w.headD 0 / 24 = l.core / 24) && t.avoid.all (fun a => decide (w.headD 0 ≠ a)) then
      s.fitResume w l.regs l.flights
    else none) (coreWindows (l.core / 48) last t.landings.length)

end Sys2Proof.Machine
end

