-- ==== Sys2Proof/Machine/Context.lean ====
section
/-!
DEFINITION. ctx.save and ctx.load (16_phases.md R357–R359).
-/

namespace Sys2Proof.Machine

/-- R358: the 16-byte pieces of an image at an address, checked as R182 checks each access, after the lease of the
whole. The first argument bounds the number of pieces. -/
def pieces (c : Ctx) (s : State) (w : Bool) : Nat → DWord → Except Checked (List Loc)
  | 0, _ => .ok []
  | k + 1, ea =>
    match checkGlobal c s.mem ea 16 0 w with
    | .ok l =>
      match pieces c s w k (ea + 16) with
      | .ok ls => .ok (l :: ls)
      | .error x => .error x
    | x => .error x

/-- R358: an image of `n` bytes at an address: alignment, one lease, and the tiles of its first `m` bytes. -/
def imageAt (c : Ctx) (s : State) (ea : DWord) (n m : Nat) (w : Bool) : Except Checked (List Loc) :=
  if ea.toNat % 64 ≠ 0 then .error (.bad (.trap (dataTrap .misalignedAccess 64 ea w)))
  else if !isCanon ea || (leaseFor c.tr.leases (va57 ea) n (!w) w).isNone then .error (.bad (.ends 0x40 ea w))
  else pieces c s w (m / 16) ea

/-- Every piece may be performed now (R202, R370). -/
def piecesMayGo (c : Ctx) (s : State) (lane : Nat) (kind : AccKind) (causal : Bool) (ls : List Loc) : Bool :=
  s.mem.covers (c.ld.core / 48) c.fl.cover && ls.all (slotMayGo c s lane kind causal 16)

/-- Store one piece at its home. -/
def storePiece (c : Ctx) (lane : Nat) (causal : Bool) (s : State) (x : Loc × List Byte) : State :=
  let y := slotAccess c s lane .store causal 16 x.1
  let r := s.applyAt x.1.space x.1.addr x.1.key 0 x.2 causal y.clocks
  { r.1 with mem := { r.1.mem with accs := r.1.mem.accs ++ [{ y with data := ofBytesLE x.2, stamp := r.2 }], nextAcc := r.1.mem.nextAcc + 1 } }

/-- Bytes cut into pieces of 16. The first argument bounds their number. -/
def chunks16 : Nat → List Byte → List (List Byte)
  | 0, _ => []
  | k + 1, bs => if bs.isEmpty then [] else bs.take 16 :: chunks16 k (bs.drop 16)

/-- R110, R357–R359: the checks of a lane before its image: handler mode, the address pair, every register's lease. -/
def ctxTrap (n : Nat) (t : Thread) (a : BitVec 6) : Option Trap :=
  if !t.hmode then some (trap .privileged 0)
  else
    match regTrap n t [pair a] with
    | some x => some x
    | none => leaseTrap t (List.range n)

/-- The image that ctx.save writes (R358). -/
def saveImage (n : Nat) (t : Thread) : List Byte :=
  threadBlock t { pc := t.fpc, flags := 0, contr := 0, n := n, values := [] } (t.regList 0 n)

/-- A lane whose image cannot be read or written yet, or at all: an absent tile holds its thread alone, with a short stall. -/
def imageRes (s : State) (x : Checked) : State × Res :=
  match x with
  | .miss f => (askFill s f, .hold .result)
  | .bad r => (s, r)
  | .lost tile r => (s.knowUncorr tile, r)
  | .cross => (s, .hold .result)
  | .ok _ => (s, .done)

/-- One lane of ctx.save. -/
def ctxSaveLane (a : BitVec 6) (c : Ctx) (acc : State × List (Nat × Res)) (lane : Nat) : State × List (Nat × Res) :=
  let s := acc.1
  match s.thread? c.fk lane with
  | none => acc
  | some t =>
    match ctxTrap c.ld.regs t a with
    | some x => (s, acc.2 ++ [(lane, .trap x)])
    | none =>
      if !t.loads.isEmpty then (s, acc.2 ++ [(lane, .hold .result)])
      else
        let bs := saveImage c.ld.regs t
        match imageAt c s (t.pair a.toNat) bs.length bs.length true with
        | .error x => ((imageRes s x).1, acc.2 ++ [(lane, (imageRes s x).2)])
        | .ok ls =>
          if piecesMayGo c s lane .store t.relFenced ls then
            (dropResv c.fk ((ls.zip (chunks16 ls.length bs)).foldl (storePiece c lane t.relFenced) s) lane, acc.2 ++ [(lane, .done)])
          else (s, acc.2 ++ [(lane, .hold .result)])

def execCtxSave (a : BitVec 6) (g : BitVec 3) (s : State) : Out :=
  .next (State.tidied (issue s HintUse.none g (fun c ls s => ls.foldl (ctxSaveLane a c) (s, []))))

/-- R358: the fields of a block's first 128 bytes that are reserved. -/
def reservedClear (b : List Byte) : Bool :=
  field b 9 1 / 16 == 0 && field b 0x0B 1 == 0 && field b 0x0E 2 == 0 && field b 0x58 40 == 0

/-- The bytes of pieces in the view of the thread's die. -/
def viewPieces (c : Ctx) (s : State) (ls : List Loc) : List Byte :=
  ls.flatMap (fun l => s.mem.view (c.ld.core / 48) l.space l.addr l.key 16)

/-- R358: the thread after an accepted image. -/
def Thread.loadContext (t : Thread) (n : Nat) (b : List Byte) : Thread :=
  { (t.takeBlock b) with
    fpc := BitVec.ofNat 64 (field b 0 8), fnpc := BitVec.ofNat 64 (field b 0 8), regs := blockRegs (List.range n) b, trans := [] }

/-- The bytes of the first `m` bytes of an image of `n`, once they may be read; or what the lane does instead. -/
def readContext (c : Ctx) (s : State) (lane : Nat) (ea : DWord) (n m : Nat) : Except (State × Res) (List Byte) :=
  match imageAt c s ea n m false with
  | .error x => .error (imageRes s x)
  | .ok ls => if piecesMayGo c s lane .load false ls then .ok (viewPieces c s ls) else .error (s, .hold .result)

/-- One lane of ctx.load: the first 128 bytes decide, then the register part is read. Its loads end a constrained sequence (R99). -/
def ctxLoadLane (p : BitVec 3) (a : BitVec 6) (c : Ctx) (acc : State × List (Nat × Res)) (lane : Nat) : State × List (Nat × Res) :=
  let s := acc.1
  match s.thread? c.fk lane with
  | none => acc
  | some t =>
    match ctxTrap c.ld.regs t a with
    | some x => (s, acc.2 ++ [(lane, .trap x)])
    | none =>
      if !t.loads.isEmpty then (s, acc.2 ++ [(lane, .hold .result)])
      else
        let n := c.ld.regs
        let ea := t.pair a.toNat
        match readContext c s lane ea (blockLen n) 128 with
        | .error x => (x.1, acc.2 ++ [(lane, x.2)])
        | .ok h =>
          if field h 0x0C 2 ≠ n ∨ !reservedClear h then
            (s.putThread c.fk lane { t.setPred p.toNat false with lrsc := none }, acc.2 ++ [(lane, .done)])
          else
            match readContext c s lane ea (blockLen n) (blockLen n) with
            | .error x => (x.1, acc.2 ++ [(lane, x.2)])
            | .ok b => (s.putThread c.fk lane { (t.loadContext n b).setPred p.toNat true with lrsc := none }, acc.2 ++ [(lane, .done)])

def execCtxLoad (p : BitVec 3) (a : BitVec 6) (g : BitVec 3) (s : State) : Out :=
  .next (State.tidied (issue s HintUse.none g (fun c ls s => ls.foldl (ctxLoadLane p a c) (s, []))))

end Sys2Proof.Machine
end

