-- ==== Sys2Proof/Machine/Record.lean ====
section
/-!
DEFINITION. Writing and restoring phase records and save areas (16_phases.md R345–R347, R351, R354, R355).
-/

namespace Sys2Proof.Machine

/-! ## The bytes of a landing's state -/

/-- R347: the word of a convergence register, open and left zero. -/
def convWord (v : Conv) : Nat :=
  v.gen % 256 * 2 ^ 24 + match v.decl with
    | some d => 128 + d.2 * 32 + d.1
    | none => 0

/-- R347: the 16 bytes of a reduction register. -/
def redBytes (r : Reduction) : List Byte :=
  bytesLE 4 r.value.toNat ++ bytesLE 2 r.seq.toNat ++ zeros 2 ++
  bytesLE 4 (match r.op with
    | some op => op + 256
    | none => 0) ++ zeros 4

/-- R347: the landing part. -/
def landingPart (l : Landing) (spanGen kind wt : Nat) : List Byte :=
  [BitVec.ofNat 8 kind, BitVec.ofNat 8 l.flights] ++ bytesLE 2 l.regs ++ bytesLE 4 wt ++ bytesLE 8 l.carry ++
  bytesLE 4 l.phases ++ bytesLE 4 l.preempts ++ bytesLE 4 l.bar.gen ++ bytesLE 4 spanGen ++
  (List.range 8).flatMap (fun c => bytesLE 4 (convWord (l.convOf c))) ++
  (List.range 4).flatMap (fun h => redBytes (l.reduction h))

/-- R347: a flight block. -/
def State.flightBlock (s : State) (fk : Nat) (f : Flight) : List Byte :=
  bytesLE 4 f.fpflags.toNat ++
  [BitVec.ofNat 8 f.cLd.value, BitVec.ofNat 8 f.cSt.value, BitVec.ofNat 8 f.cCp.value, BitVec.ofNat 8 f.cMx.value] ++
  bytesLE 4 f.tcount.toNat ++ [laneMask (s.aliveLanes fk)] ++ zeros 3 ++
  (List.range 16).flatMap (fun j => [f.expected j, f.arrivedAt j]) ++ bytesLE 4 f.cCp.issued ++ zeros 12

/-- A thread's contributions to the open rounds of h0 to h3: which, with a true guard, the values (R346). -/
def contributions (l : Landing) (thread : Nat) : List (Option Contribution) :=
  (List.range 4).map (fun h => (l.reduction h).contr.find? (fun x => x.thread == thread))

/-- The number whose bit `k` is the `k`-th flag. -/
def flagBits : List Bool → Nat
  | [] => 0
  | b :: bs => (if b then 1 else 0) + 2 * flagBits bs

/-- R346: the thread's block in a record or save area; `rs` are its register words. An arrival is outstanding while its
generation is the current one (R229). -/
def stateBlock (l : Landing) (spanGen i : Nat) (t : Thread) (rs : List Nat) : List Byte :=
  let cs := contributions l i
  threadBlock t
    { pc := t.pc
      flags := flagBits [t.hmode, t.cond == .exited, t.arrL == some l.bar.gen, t.arrS == some spanGen]
      contr := flagBits (cs.map (·.isSome)) + 16 * flagBits (cs.map (fun c => c.any (·.guarded)))
      n := 0
      values := cs.map (fun c => match c with
        | some x => x.value
        | none => 0) } (rs.map t.file)

/-- R347: a phase record (kind 1) or the first part of a save area (kind 2). -/
def State.landingImage (s : State) (lid : Nat) (l : Landing) (spanGen kind : Nat) (rs : List Nat) : List Byte :=
  landingPart l spanGen kind rs.length ++
  (List.range l.flights).flatMap (fun f => match tget s.flights (32 * lid + f) with
    | some fl => s.flightBlock (32 * lid + f) fl
    | none => zeros 64) ++
  (List.range (8 * l.flights)).flatMap (fun i => match s.thread? (32 * lid + i / 8) (i % 8) with
    | some t => stateBlock l spanGen i t rs
    | none => zeros (blockLen rs.length))

/-! ## Restoring -/

/-- The convergence register of its word: no round is open. -/
def convOfWord (w : Nat) : Conv :=
  { decl := if bit w 7 then some (bits w 0 5, bits w 5 2) else none, signs := [], gen := bits w 24 8 }

/-- The contributions to a reduction register, from the thread blocks. -/
def contrOf (h : Nat) (blocks : List (List Byte)) : List Contribution :=
  blocks.zipIdx.filterMap (fun x =>
    if bit (field x.1 0x0A 1) h then
      some { thread := x.2, value := BitVec.ofNat 32 (field x.1 (0x28 + 4 * h) 4), guarded := bit (field x.1 0x0A 1) (h + 4) }
    else none)

/-- The reduction register of its 16 bytes. -/
def redOfBytes (b : List Byte) (h : Nat) (blocks : List (List Byte)) : Reduction :=
  let open_ := bit (field b 8 4) 8
  { value := BitVec.ofNat 32 (field b 0 4), seq := BitVec.ofNat 16 (field b 4 2),
    op := if open_ then some (bits (field b 8 4) 0 3) else none, contr := if open_ then contrOf h blocks else [] }

/-- The arrivals outstanding on a barrier, by bit `k` of byte 0x09 of the thread blocks: an arrival that the barrier
already holds keeps what it releases. -/
def arrivalsOf (number k : Nat) (old : List Arrival) (blocks : List (List Byte)) : List Arrival :=
  blocks.zipIdx.filterMap (fun x =>
    if bit (field x.1 9 1) k then
      some ((old.find? (fun a => a.thread == 256 * number + x.2)).getD
        { thread := 256 * number + x.2, upto := 0, clock := [0, 0, 0, 0], npc := canon (BitVec.ofNat 64 (field x.1 0 8)) })
    else none)

/-- Block `i` of an image of `f` flights with `wt` register words. -/
def blockAt (img : List Byte) (f wt i : Nat) : List Byte :=
  (img.drop (128 + 64 * f + blockLen wt * i)).take (blockLen wt)

/-- The landing after a restoration: the fields that the device keeps as its own are not taken from the image (R345). A bar.phase
among the arrivals that still await the open generation stays one (R231, R354). -/
def Landing.restored (l : Landing) (core : Nat) (img : List Byte) (blocks : List (List Byte)) : Landing :=
  { l with
    core := core
    phases := field img 0x10 4
    preempts := field img 0x14 4
    bar := { gen := field img 0x18 4, arrived := arrivalsOf l.number 2 l.bar.arrived blocks, phase := l.bar.phase }
    conv := (List.range 8).foldl (fun c k => tputD Conv.empty c k (convOfWord (field img (0x20 + 4 * k) 4))) []
    red := (List.range 4).foldl (fun r h => tputD Reduction.empty r h (redOfBytes ((img.drop (0x40 + 16 * h)).take 16) h blocks)) []
    freed := false
    saveAt := none
    tiles := [] }

/-- The masks of a flight block. -/
def masksOf (b : List Byte) (o : Nat) : Tab Byte :=
  (List.range 16).foldl (fun m j => tputD 0 m j (BitVec.ofNat 8 (field b (o + 2 * j) 1))) []

/-- The flight after a restoration, on its new bay (R351): its counters go on from what is outstanding. -/
def Flight.restored (f : Flight) (bay since lead : Nat) (active : Bool) (b : List Byte) : Flight :=
  { f with
    bay := bay, active := active, since := since, advice := false, lead := lead, gives := .no, timer := 0, tally := 0, hint := none
    fpflags := BitVec.ofNat 5 (field b 0 4)
    tcount := BitVec.ofNat 32 (field b 8 4)
    expect := masksOf b 0x10
    arrived := masksOf b 0x11
    queues := []
    ends := [] }

/-- The thread after a restoration (R351): exited as the device knows; parked where a rejoin mask holds its arrival. -/
def Thread.restored (t : Thread) (rs : List Nat) (parked : Bool) (genL genS : Nat) (b : List Byte) : Thread :=
  { (t.restore rs b) with
    cond := if t.cond = .exited then .exited else if parked then .parked else .running
    arrL := if bit (field b 9 1) 2 then some genL else none
    arrS := if bit (field b 9 1) 3 then some genS else none }

/-- Restore one flight with its threads. -/
def State.restoreFlight (s : State) (lid core wt : Nat) (l : Landing) (genS : Nat) (rs : List Nat) (img : List Byte)
    (x : Nat × Nat) : State :=
  let fk := 32 * lid + x.2
  let b := (img.drop (128 + 64 * x.2)).take 64
  let low := (s.aliveLanes fk).headD 0
  let act := s.activeRoom core x.1
  let s1 := s.modFlight fk (fun f => f.restored x.1 (tgetD 0 s.cycles (core / 48)) low act b)
  let arr := masksOf b 0x11
  lanes8.foldl (fun s k => s.modThread fk k (fun t =>
    t.restored rs (arr.any (fun m => m.2.getLsbD k)) l.bar.gen genS (blockAt img l.flights wt (8 * x.2 + k)))) s1

/-- Restore a landing on a core with its flights on the bays given. Each record of a span holds the span barrier's generation (R347), and
R345 restores what was written; where the records differ the one of landing 0 counts (DESIGN CHOICE, log entry 104). -/
def State.restoreLanding (s : State) (lid : Nat) (img : List Byte) (rs : List Nat) (core : Nat) (bays : List Nat) : State :=
  match tget s.landings lid with
  | none => s
  | some l =>
    let blocks := (List.range (8 * l.flights)).map (blockAt img l.flights rs.length)
    let l1 := l.restored core img blocks
    let genS := field img 0x1C 4
    let s1 := { s with landings := tput s.landings lid l1 }
    let s2 := s1.modTread l.tid (fun t =>
      { t with sbar := { t.sbar with
          gen := if l.number = 0 then genS else t.sbar.gen
          arrived := t.sbar.arrived.filter (fun a => decide (a.thread / 256 ≠ l.number)) ++
            arrivalsOf l.number 3 t.sbar.arrived blocks } })
    bays.zipIdx.foldl (fun s x => s.restoreFlight lid core rs.length l1 genS rs img x) s2

/-! ## The queue part and the tile part of a save area (R355) -/

/-- The endpoints of the queue part, in order. -/
def savedClasses : List Nat := [0, 1, 3, 4, 5]

/-- The instance word of a binding: a queue's hall address, a channel's number on its die, a ring's number. -/
def bindingWord (b : Nat × Nat) : Nat :=
  match b.1 with
  | 8 => b.2 % 2 ^ 26
  | 7 => b.2 % 256
  | _ => b.2

def bindingBytes (r : QueueReg) : List Byte :=
  match r.bound with
  | some b => bytesLE 4 (b.1 + 16) ++ bytesLE 4 (bindingWord b)
  | none => zeros 8

def entryBytes (e : Entry) : List Byte := e.slots.flatMap (fun w => bytesLE 4 w.toNat) ++ [e.valid] ++ zeros 15

def endBytes (e : Endpoint) : List Byte :=
  e.entries.flatMap entryBytes ++ zeros (48 * (16 - e.entries.length))

/-- R355: the 4 KiB of a flight. -/
def queuePart (f : Flight) : List Byte :=
  (List.range 16).flatMap (fun q => bindingBytes (f.qreg q)) ++
  savedClasses.map (fun c => BitVec.ofNat 8 (f.endpoint c).entries.length) ++ zeros 123 ++
  savedClasses.flatMap (fun c => endBytes (f.endpoint c))

/-- The raw image of a tile. -/
def State.tileBytes (s : State) (core tile : Nat) : List Byte :=
  (List.range 64).flatMap (fun r => (s.tileRow core tile r).flatMap (fun w => bytesLE 4 w.toNat))

/-- Tile numbers in ascending order. -/
def sortedTiles (ts : List Nat) : List Nat := (List.range 96).filter ts.contains

/-- R355: the tile part. -/
def State.tilePart (s : State) (core : Nat) (ts : List Nat) : List Byte :=
  bytesLE 16 ((sortedTiles ts).foldl (fun m i => m + 2 ^ i) 0) ++ (sortedTiles ts).flatMap (s.tileBytes core)

/-- R355: a save area. -/
def State.saveArea (s : State) (lid : Nat) (l : Landing) (spanGen : Nat) : List Byte :=
  s.landingImage lid l spanGen 2 (List.range l.regs) ++
  (List.range l.flights).flatMap (fun f => match tget s.flights (32 * lid + f) with
    | some fl => queuePart fl
    | none => zeros 4096) ++
  s.tilePart l.core l.tiles

/-- R354: the binding of a saved binding, made again on a core, to what stands there now. -/
def rebound (s : State) (core : Nat) (b : List Byte) : QueueReg :=
  let w := field b 0 4
  let i := field b 4 4
  let n := match bits w 0 4 with
    | 8 => hallKey core i
    | 7 => 256 * (core / 48) + i
    | 6 => i
    | _ => 0
  { bound := if bit w 4 then some (bits w 0 4, n) else none, status := 0, pend := none, credit := 0, made := s.madeOf (bits w 0 4, n) }

def entryOf (b : List Byte) : Entry :=
  { slots := (List.range 8).map (fun i => BitVec.ofNat 32 (field b (4 * i) 4)), valid := BitVec.ofNat 8 (field b 32 1) }

/-- The endpoint of class number `k` of a queue part. -/
def endOf (b : List Byte) (k : Nat) : Endpoint :=
  { Endpoint.empty with entries := (List.range (min 16 (field b (0x80 + k) 1))).map (fun i =>
      entryOf ((b.drop (0x100 + 768 * k + 48 * i)).take 48)) }

/-- R354: the bindings and entries of a flight. -/
def Flight.takeQueues (f : Flight) (st : State) (core : Nat) (b : List Byte) : Flight :=
  { f with
    queues := (List.range 16).foldl (fun m q => tputD QueueReg.unbound m q (rebound st core (b.drop (8 * q)))) []
    ends := savedClasses.zipIdx.foldl (fun m x => tputD Endpoint.empty m x.1 (endOf b x.2)) [] }

/-- R256, R354: the saved tiles go back to the same numbers. -/
def State.restoreTiles (s : State) (core : Nat) (b : List Byte) : State :=
  let ts := (List.range 96).filter (fun i => bit (field b 0 16) i)
  ts.zipIdx.foldl (fun s x =>
    let img := (b.drop (16 + 32768 * x.2)).take 32768
    (List.range 64).foldl (fun s r =>
      s.putRow core x.1 r ((List.range 128).map (fun i => BitVec.ofNat 32 (field img (512 * r + 4 * i) 4)))) s) s

/-- Restore what a save area holds beyond the landing's own state. -/
def State.restoreSaved (s : State) (lid core : Nat) (l : Landing) (img : List Byte) : State :=
  let base := recordLen l.flights l.regs
  let s1 := (List.range l.flights).foldl (fun s f =>
    s.modFlight (32 * lid + f) (fun x => x.takeQueues s core ((img.drop (base + 4096 * f)).take 4096))) s
  s1.restoreTiles core (img.drop (base + 4096 * l.flights))

/-- R355: the length of a save area. -/
def saveLen (l : Landing) : Nat := recordLen l.flights l.regs + 4096 * l.flights + 16 + 32768 * (sortedTiles l.tiles).length

end Sys2Proof.Machine
end

