-- ==== Sys2Proof/Machine/Phases.lean ====
section
/-!
DEFINITION. Leaving a core and coming back (16_phases.md R348–R356): PHASE_SPILL, GRACE_EXPIRY, FORCED_SAVE, pre-emption
requests, resumption.
-/

namespace Sys2Proof.Machine

/-! ## Dies and their dispatch queues -/

def Steal.idle : Steal := { empties := 0, asked := none, answer := none, backoff := none }

/-- A Stairwell with nothing in it; its previous placement is taken to be the die's last core, and the partition served last
partition 0, so that the round-robin of R331 begins above it (DESIGN CHOICE, log entry 5: the spec gives no start). -/
def Die.fresh : Die :=
  { rows := [], views := [], releases := 0, lastPart := 0, queue := [], lastCore := 47, steal := Steal.idle, pool := [] }

def State.die (s : State) (d : Nat) : Die := tgetD Die.fresh s.dies d
def State.modDie (s : State) (d : Nat) (u : Die → Die) : State := { s with dies := tmodD Die.fresh s.dies d u }

/-- R208: the age of a tread, ties by the number of the die that released it. -/
def State.ageOf (s : State) (tid : Nat) : Nat × Nat :=
  match tget s.treads tid with
  | some t => (t.age, t.owner)
  | none => (0, 0)

def olderAge (a b : Nat × Nat) : Bool := decide (a.1 < b.1) || (a.1 == b.1 && decide (a.2 < b.2))

/-- Insert a tread into a queue that is kept in age order. -/
def State.insertByAge (s : State) (tid : Nat) : List Nat → List Nat
  | [] => [tid]
  | x :: xs => if olderAge (s.ageOf tid) (s.ageOf x) then tid :: x :: xs else x :: s.insertByAge tid xs

/-- A tread enters a die's dispatch queue in age order (R333, R348). -/
def State.enqueue (s : State) (d tid : Nat) : State := s.modDie d (fun x => { x with queue := s.insertByAge tid x.queue })

/-- A tread leaves the dispatch queue of its die. -/
def State.dequeue (s : State) (d tid : Nat) : State := s.modDie d (fun x => { x with queue := x.queue.filter (· != tid) })

/-! ## Pre-emption requests (R352) -/

/-- The nest of a tread. -/
def State.nestOf (s : State) (t : Tread) : Option Nest := (tget s.runs t.run).bind (fun r => r.nests[t.nest]?)

/-- The progress class of a tread's nest is concurrent. -/
def State.concurrent (s : State) (t : Tread) : Bool := (s.nestOf t).any (fun n => n.desc.cls == 2)

/-- The request names the nest of the tread: by the instance's number in its partition. -/
def State.namedBy (s : State) (r : Preempt) (t : Tread) : Bool :=
  (tget s.runs t.run).any (fun x => x.part == r.part && x.number == r.inst) && (r.mask == 0 || bit r.mask t.nest)

/-- The first landing of a tread: all landings of a span are pre-empted together. -/
def State.headLanding (s : State) (t : Tread) : Option Landing := t.landings.head?.bind (tget s.landings)

/-- The first request that names the tread and has not yet pre-empted it. -/
def State.requestFor (s : State) (t : Tread) (ok : Preempt → Bool) : Option Preempt :=
  match s.headLanding t with
  | none => none
  | some l => s.requests.find? (fun r => s.namedBy r t && !l.applied.contains r.number && ok r)

/-- R353: the time on the wall clock of the tread's die at which a request's grace period began: at its arrival or, if that is
later, at the landing's first placement (log entry 21). -/
def State.graceFrom (s : State) (t : Tread) (r : Preempt) : Nat :=
  max (r.since.getD t.die 0) (match s.headLanding t with
    | some l => l.placed
    | none => 0)

/-- R353, R17: the grace period of a request has passed for a tread, by the wall clock of its die: a microsecond is 2,250 of its
units, capped or not. -/
def State.graceOver (s : State) (t : Tread) (r : Preempt) : Bool :=
  decide (s.graceFrom t r + 2250 * r.grace ≤ tgetD 0 s.wall t.die)

/-- The request whose grace period has passed for a tread that it has not yet pre-empted. -/
def State.overdue (s : State) (t : Tread) : Option Preempt := s.requestFor t (s.graceOver t)

/-- R352: the grace of a partition whose requests name no other, in microseconds. The payload of PREEMPT (R430) always names one. -/
def defaultGrace : Nat := 100

/-- R352: the treads that are pre-empted together with one: those of its nest at the same stage where the nest is concurrent,
else the tread alone. -/
def State.preemptGroup (s : State) (tid : Nat) (t : Tread) : List (Nat × Tread) :=
  if s.concurrent t then
    s.treads.filter (fun p => p.2.run == t.run && p.2.nest == t.nest && p.2.stage == t.stage && p.2.ending.isNone &&
      !p.2.cancelled && !s.finished p.2)
  else [(tid, t)]

/-- Count a pre-emption in every landing of a tread; a phase record that is already written counts it too. -/
def State.countPreempt (s : State) (t : Tread) (r : Preempt) : State :=
  t.landings.foldl (fun s lid =>
    match tget s.landings lid with
    | none => s
    | some l =>
      let s1 := s.modLanding lid (fun l => { l with preempts := l.preempts + 1, applied := l.applied ++ [r.number] })
      if t.spilledOut l then
        let a := l.recordPlace + 0x14
        s1.applyHall a (bytesLE 4 (ofBytesLE (readCells s1.mem.hall a 4) + 1))
      else s1) s

/-- R325, R332: the flights of a concurrent nest's landings go back to the placements reserved for them. -/
def State.keepPlaces (s : State) (t : Tread) : State :=
  if s.concurrent t then
    let ps := t.landings.filterMap (fun lid => (tget s.landings lid).map (fun l =>
      ({ core := l.core, base := hallKey l.core l.hallBase, len := 0, regs := l.regs,
         bays := (s.flightsOf lid).filterMap (fun fk => (tget s.flights fk).map (·.bay)) } : Placement)))
    s.modNest t.run t.nest (fun n => { n with reserved := n.reserved ++ [(t.point, ps)] })
  else s

/-- A tread that has left its cores waits: kept out by a park request, or in the dispatch queue of its die (R348, R352). -/
def State.leaveCores (s : State) (tid : Nat) (t : Tread) (stage : TreadStage) (r : Option Preempt) : State :=
  let core := (s.headLanding t).map (·.core)
  match r with
  | some r =>
    if r.move then (s.modTread tid (fun t => { t with stage := stage, avoid := core, atOnce := true })).enqueue t.die tid
    else s.modTread tid (fun t => { t with stage := .parked })
  | none => (s.modTread tid (fun t => { t with stage := stage, avoid := none, atOnce := false })).enqueue t.die tid

/-! ## The spill at a phase boundary (R348, R350) -/

/-- No register of a flight is leased, and its loads have returned. -/
def State.quiet (s : State) (fk : Nat) (f : Flight) : Bool :=
  f.cLd.value == 0 && lanes8.all (fun l => match s.thread? fk l with
    | some t => t.leases.isEmpty
    | none => true)

/-- R350: every landing of the span has completed a phase boundary, all with one phase count. -/
def State.atBoundary (s : State) (t : Tread) : Bool :=
  t.landings.all (fun lid => (tget s.landings lid).any (fun l =>
    l.boundary && (s.headLanding t).any (fun h => h.phases == l.phases)))

/-- Step 1 of R348, for every landing of the span (R350). -/
def State.spillReady (s : State) (t : Tread) : Bool :=
  t.stage == .running && t.ending.isNone && !t.cancelled && !t.landings.isEmpty &&
  s.atBoundary t && (s.treadFlights t).all (fun p => s.quiet p.1 p.2)

/-- R352: the request that applies to a tread at its boundary: its new phase count qualifies. -/
def State.boundaryRequest (s : State) (t : Tread) : Option Preempt :=
  (s.headLanding t).bind (fun l => s.requestFor t (fun r => decide (r.from_ ≤ l.phases + 1)))

/-- R247: the open rounds of a landing are cancelled. -/
def State.cancelRounds (s : State) (lid : Nat) : State :=
  s.modLanding lid (fun l => { l with conv := (List.range 8).foldl (fun c k =>
    tmodD Conv.empty c k (fun v => { v with signs := [] })) l.conv })

/-- The landing's flights and registers are free. -/
def State.freeLanding (s : State) (lid : Nat) : State :=
  (s.modLanding lid (fun l => { l with freed := true, boundary := false })).modThreadsOf lid (fun t =>
    { t with regs := [], trans := [], resv := none, lrsc := none, held := none })

/-- Steps 2 to 5 of R348 for one landing. Entries of what it has outstanding are discarded from now on (`spell`). -/
def State.spillLanding (s : State) (spanGen lid : Nat) : State :=
  match tget s.landings lid with
  | none => s
  | some l =>
    let s1 := (s.cancelRounds lid).dropLatches l.core lid
    let s2 := (s1.flightsOf lid).foldl (fun s fk => (s.unbindAll fk).modFlight fk (fun f => { f with queues := [], ends := [] })) s1
    match tget s2.landings lid with
    | none => s2
    | some l =>
      let l1 := { l with phases := l.phases + 1, spell := l.spell + 1 }
      let s3 := { s2 with landings := tput s2.landings lid l1 }.modThreadsOf lid Thread.pastBarrier
      (s3.applyHall l1.recordPlace (s3.landingImage lid l1 spanGen 1 (carried l1.carry))).freeLanding lid

/-- One tread leaves its cores at its boundary, pre-empted by a request or not. -/
def State.spillTread (s : State) (tid : Nat) (t : Tread) (r : Option Preempt) : State :=
  let s1 := match r with
    | some r => s.countPreempt t r
    | none => s
  let s2 := t.landings.foldl (fun s lid => s.spillLanding t.sbar.gen lid) s1
  (s2.keepPlaces t).leaveCores tid t .spilled r

/-- PHASE_SPILL. Where a request applies, the landings of a concurrent nest are pre-empted together (R352): each waits at its
boundary for the others, or for the end of the grace period. -/
def State.phaseSpill (s : State) (tid : Nat) : State :=
  match tget s.treads tid with
  | none => s
  | some t =>
    if s.spillReady t then
      match s.boundaryRequest t with
      | none => s.spillTread tid t none
      | some r =>
        let g := s.preemptGroup tid t
        if g.all (fun p => s.spillReady p.2 && (s.boundaryRequest p.2).isSome) then
          g.foldl (fun s p => s.spillTread p.1 p.2 (some r)) s
        else s
    else s

/-! ## The forced full save (R353–R355) -/

/-- GRACE_EXPIRY: the grace of a request that names a running tread has passed, and its save begins (R353), with that of the
other landings of a concurrent nest. What stands at a boundary, all of it, spills instead. -/
def State.graceExpiry (s : State) (tid : Nat) : State :=
  match tget s.treads tid with
  | none => s
  | some t =>
    if t.stage = .running ∧ (s.overdue t).isSome ∧ !s.finished t ∧ !(s.preemptGroup tid t).all (fun p => s.atBoundary p.2) then
      (s.preemptGroup tid t).foldl (fun s p => s.modTread p.1 (fun t => { t with stage := .saving })) s
    else s

/-- R353: a grace of 0 forces the save at once. -/
def State.graceAll (s : State) : State := (s.treads.map (·.1)).foldl State.graceExpiry s

def execGraceExpiry (tid : Nat) (s : State) : Out := .next (s.graceExpiry tid)

/-- Step 1 of R354: no flight stands inside a hint group, or holds a transient value. -/
def State.stopped_ (s : State) (t : Tread) : Bool := (s.treadFlights t).all (fun p => !s.mustGoOn p.1 p.2)

/-- Step 2 of R354: open rounds, pending pops and pending takes are cancelled. -/
def State.cancelOpen (s : State) (t : Tread) : State :=
  (s.treadFlights t).foldl (fun s p => (List.range 16).foldl (fun s q => s.cancelPop p.1 q) s)
    (t.landings.foldl State.cancelRounds s)

/-- Step 3 of R354: every class of every flight is drained and no lease is left. -/
def State.saveDrained (s : State) (t : Tread) : Bool :=
  (s.treadFlights t).all (fun p => p.2.idle && s.quiet p.1 p.2)

/-- R355: the first 4 KiB-aligned address of a partition's save region, and what follows it there. -/
def Partition.saveStart (p : Partition) : Nat := roundUp p.saveBase 4096
def Partition.saveRoom (p : Partition) : Nat := p.saveBase + p.saveLen - p.saveStart

/-- The save areas in use of a partition: offset in its region, length. -/
def State.savesOf (s : State) (part base : Nat) : List (Nat × Nat) :=
  s.landings.filterMap (fun p =>
    match p.2.saveAt with
    | some a => if (tget s.treads p.2.tid).any (fun t => t.part == part) then some (a - base, saveLen p.2) else none
    | none => none)

/-- The lowest multiple of `align` below `limit` at which `n` bytes are free among ranges. -/
def lowestFree (limit align n : Nat) (used : List (Nat × Nat)) : Option Nat :=
  ((0 :: used.map (fun u => roundUp (u.1 + u.2) align)).filter (fun a =>
    decide (a + n ≤ limit) && used.all (fun u => decide (a + n ≤ u.1) || decide (u.1 + u.2 ≤ a)))).foldl lowerOf none

/-- The lengths of the save areas of some landings. -/
def State.saveLens (s : State) (ls : List Nat) : List Nat :=
  ls.map (fun lid => match tget s.landings lid with
    | some l => saveLen l
    | none => 0)

/-- R355: a save area for each landing, 4 KiB-aligned, from the partition's region. -/
def allocSaves (limit : Nat) : List Nat → List (Nat × Nat) → Option (List Nat)
  | [], _ => some []
  | n :: ns, used =>
    match lowestFree limit 4096 n used with
    | none => none
    | some a => (allocSaves limit ns (used ++ [(a, n)])).map (a :: ·)

/-- Steps 4 to 6 of R354 for one landing. -/
def State.saveLanding (s : State) (part spanGen : Nat) (x : Nat × Nat) : State :=
  match tget s.landings x.1 with
  | none => s
  | some l =>
    let s0 := s.modThreadsOf x.1 (fun t => { t with resv := none, lrsc := none })
    let area := s0.saveArea x.1 l spanGen
    let s0a := s0.writeVirt none part x.2 area
    let s1 := s0a.modTread l.tid (fun t => { t with needs := joinClock t.needs (s0a.virtStamps part x.2 area.length) })
    let s2 := (s1.flightsOf x.1).foldl (fun s fk => (s.unbindAll fk).modFlight fk (fun f => { f with queues := [], ends := [] })) s1
    let b := l.boundary
    ((s2.dropLatches l.core x.1).freeLanding x.1).modLanding x.1 (fun l => { l with saveAt := some x.2, boundary := b })

/-- R355: a request's save found no room: Balustrade learns it. While the mailbox still shows the answer to that PREEMPT, its
status becomes NO_SPACE; Balustrade keeps it with the request in any case (log entry 67). -/
def State.reportNoSpace (s : State) (number : Nat) : State :=
  let m := s.fw.mgmt
  let m1 := if m.done && m.status == 0 && m.payload.take m.rlen == bytesLE 4 number then { m with status := 5 } else m
  { s with
    requests := s.requests.map (fun q => if q.number = number then { q with noSpace := true } else q)
    fw := { s.fw with mgmt := m1 } }

/-- The tread's save is written to the places found for its landings, and it leaves its cores. -/
def State.saveTread (s : State) (places : List (Nat × Nat)) (r : Preempt) (tid : Nat) (t : Tread) : State :=
  let s1 := (places.filter (fun x => t.landings.contains x.1)).foldl (fun s x => s.saveLanding t.part t.sbar.gen x) (s.countPreempt t r)
  (s1.keepPlaces t).leaveCores tid t .saved (some r)

/-- The save is not made: the tread runs on. -/
def State.saveOff (s : State) (g : List (Nat × Tread)) : State :=
  g.foldl (fun s p => s.modTread p.1 (fun t => { t with stage := .running })) s

/-- FORCED_SAVE: what is open is cancelled, and once everything has drained the save is made (R354), for all landings that are
pre-empted together. Where there is no room for it (R355) the request counts as applied to these landings: no later boundary or
grace of theirs tries it again (DESIGN CHOICE, log entry 94). -/
def State.forcedSave (s : State) (tid : Nat) : State :=
  match tget s.treads tid with
  | none => s
  | some t =>
    let g := s.preemptGroup tid t
    if t.stage ≠ .saving ∨ t.ending.isSome ∨ t.cancelled ∨ g.any (fun p => !s.stopped_ p.2) then s
    else
      let s1 := g.foldl (fun s p => s.cancelOpen p.2) s
      if g.any (fun p => !s1.saveDrained p.2) then s1
      else
        match s1.overdue t, tget s1.parts t.part with
        | some r, some p =>
          let ls := g.flatMap (fun x => x.2.landings)
          match allocSaves p.saveRoom (s1.saveLens ls) (s1.savesOf t.part p.saveStart) with
          | none =>
            let s2 := ls.foldl (fun s lid => s.modLanding lid (fun l => { l with applied := l.applied ++ [r.number] })) s1
            (s2.saveOff g).reportNoSpace r.number
          | some offs => g.foldl (fun s x => s.saveTread (ls.zip (offs.map (p.saveStart + ·))) r x.1 x.2) s1
        | _, _ => s1.saveOff g

/-! ## Resumption (R351, R354) -/

/-- The place of one landing: its core and the bays of its flights. -/
abbrev Seat := Nat × List Nat

/-- R240, R109: an uncorrectable error in the core state of a landing ends its tread; the record names its lowest thread. -/
def State.coreError (s : State) (lid : Nat) : State :=
  match tget s.landings lid with
  | none => s
  | some l =>
    match tget s.treads l.tid with
    | none => s
    | some t =>
      s.endTread l.tid
        { finfo := finfoWord 0x44 0 1 false false false, thread := 0, core := l.core, fpc := 0, faddr := 0,
          i0 := word (t.point.getD 0 0), i1 := word (t.point.getD 1 0), i2 := word (t.point.getD 2 0),
          i3 := word (t.point.getD 3 0), order := 0, cycle := 0, flags := match tget s.flights (32 * lid) with
            | some f => s.flagsOf t (32 * lid) f
            | none => 0 }

/-- One landing takes its seat. -/
def State.resumeLanding (s : State) (t : Tread) (x : Nat × Seat) : State :=
  match tget s.landings x.1 with
  | none => s
  | some l =>
    match l.saveAt with
    | none =>
      let img := readCells s.mem.hall l.recordPlace l.recordLen
      s.restoreLanding x.1 img (carried l.carry) x.2.1 x.2.2
    | some a =>
      match s.readVirt (some (l.core / 48)) t.part a (saveLen l) with
      | (s1, none) => s1.coreError x.1
      | (s1, some img) => (s1.restoreLanding x.1 img (List.range l.regs) x.2.1 x.2.2).restoreSaved x.1 x.2.1 l img

/-- A spilled or saved tread resumes on its seats, all landings at once (R350, R354). -/
def State.resumeTread (s : State) (tid : Nat) (t : Tread) (seats : List Seat) : State :=
  let s1 := (t.landings.zip seats).foldl (fun s x => s.resumeLanding t x) s
  s1.modTread tid (fun t => { t with stage := .running, avoid := none, atOnce := false })

/-! ## Requests through the management interface (R352, R356) -/

/-- A request applies at once to a tread that is spilled and not yet placed again (R356). -/
def State.applyToSpilled (s : State) (tid : Nat) : State :=
  match tget s.treads tid with
  | none => s
  | some t =>
    if t.stage ≠ .spilled then s
    else
      match s.headLanding t with
      | none => s
      | some l =>
        match s.requestFor t (fun r => decide (r.from_ ≤ l.phases)) with
        | none => s
        | some r =>
          let s1 := s.countPreempt t r
          if r.move then s1.modTread tid (fun t => { t with avoid := some l.core, atOnce := true })
          else (s1.modTread tid (fun t => { t with stage := .parked })).dequeue t.die tid

/-- A new request is held, and applies to what is spilled; a grace of 0 forces the saves at once (R353, R356). -/
def State.addRequest (s : State) (r : Preempt) : State :=
  let s1 := { s with requests := s.requests ++ [r] }
  ((s1.treads.map (·.1)).foldl State.applyToSpilled s1).graceAll

/-- A tread that a request has parked goes back to its dispatch queue. -/
def State.unparkTread (s : State) (number tid : Nat) : State :=
  match tget s.treads tid with
  | none => s
  | some t =>
    match s.headLanding t with
    | none => s
    | some l =>
      if t.stage = .parked ∧ l.applied.getLast? = some number then
        let st : TreadStage := if l.saveAt.isSome then .saved else .spilled
        ((s.modTread tid (fun t => { t with stage := st, avoid := none, atOnce := false })).enqueue t.die tid).applyToSpilled tid
      else s

/-- A request is withdrawn (R352, R356). R352 does not say what becomes of a landing that a move has pre-empted and that still waits in
the dispatch queue: it goes on to exclude the core that it left (DESIGN CHOICE, log entry 105). -/
def State.dropRequest (s : State) (number : Nat) : State :=
  let s1 := { s with requests := s.requests.filter (fun r => r.number != number) }
  (s1.treads.map (·.1)).foldl (fun s tid => s.unparkTread number tid) s1

/-- R437: a request applies to a landing of the tread. -/
def State.requested (s : State) (t : Tread) : Bool := s.requests.any (fun r => s.namedBy r t)

end Sys2Proof.Machine
end

