-- ==== Sys2Proof/Machine/Rows.lean ====
section
/-!
DEFINITION. The iteration space of a nest and its rows (15_nests.md R321, R327–R331): bounds, row order, what a die knows
of a nest, ROW_OPEN, TREAD_RELEASE, REMOTE_LOOKUP, LOOKUP_ANSWER, B0_UPDATE, WATERMARK_UPDATE.
-/

namespace Sys2Proof.Machine

/-! ## Bounds (R321) -/

/-- The sum of the coefficients of level `k` with the outer indices. -/
def coefSum (cs : List Int) (k : Nat) (is : List Int) : Int :=
  ((List.range k).map (fun m => cs.getD (k * (k - 1) / 2 + m) 0 * is.getD m 0)).foldl (· + ·) 0

/-- L_k. -/
def NestDesc.low (d : NestDesc) (k : Nat) (is : List Int) : Int := d.lo.getD k 0 + coefSum d.ca k is

/-- U_k, with B0 in force. -/
def NestDesc.high (d : NestDesc) (b0 k : Nat) (is : List Int) : Int :=
  let u := d.hi.getD k 0 + coefSum d.cb k is
  if k = 0 && d.dyn then min u b0 else u

/-- Index `i` lies in the range of its level. -/
def NestDesc.within (d : NestDesc) (b0 k : Nat) (is : List Int) (i : Int) : Bool :=
  decide (d.low k is ≤ i) && decide (i < d.high b0 k is)

/-- Every level `k` below `n` of a point lies in its range. -/
def NestDesc.inside (d : NestDesc) (b0 n : Nat) (p : List Int) : Bool :=
  (List.range n).all (fun k => d.within b0 k (p.take k) (p.getD k 0))

/-! ## Rows (R327) -/

/-- The key of the row of a point. -/
def NestDesc.keyOf (d : NestDesc) (p : List Int) : List Int := p.take (d.depth - 1)

/-- The inner range of a row: lower bound, upper bound. -/
def NestDesc.inner (d : NestDesc) (b0 : Nat) (key : List Int) : Int × Int :=
  (d.low (d.depth - 1) key, d.high b0 (d.depth - 1) key)

/-- The number of points of a row. -/
def NestDesc.rowSize (d : NestDesc) (b0 : Nat) (key : List Int) : Nat := ((d.inner b0 key).2 - (d.inner b0 key).1).toNat

/-- The first index of a range for which a search answers. -/
def scan {α : Type} (f : Int → Option α) : Nat → Int → Option α
  | 0, _ => none
  | n + 1, i =>
    match f i with
    | some x => some x
    | none => scan f n (i + 1)

/-- The first row, in lexicographic order, that extends outer indices by `n` levels and passes a test. -/
def NestDesc.firstKey (d : NestDesc) (b0 : Nat) (ok : List Int → Bool) : Nat → List Int → Option (List Int)
  | 0, pre => if d.rowSize b0 pre != 0 && ok pre then some pre else none
  | n + 1, pre =>
    let lo := d.low pre.length pre
    scan (fun i => d.firstKey b0 ok n (pre ++ [i])) (d.high b0 pre.length pre - lo).toNat lo

/-- The first row after a bound, in lexicographic order: an empty bound lies before every row, a full key lies at its
row. -/
def NestDesc.keyAfter (d : NestDesc) (b0 : Nat) (ok : List Int → Bool) : Nat → List Int → List Int → Option (List Int)
  | 0, _, _ => none
  | n + 1, pre, [] => d.firstKey b0 ok (n + 1) pre
  | n + 1, pre, b :: bs =>
    let lo := d.low pre.length pre
    let hi := d.high b0 pre.length pre
    let deeper := if d.within b0 pre.length pre b then d.keyAfter b0 ok n (pre ++ [b]) bs else none
    match deeper with
    | some k => some k
    | none =>
      let from_ := max lo (b + 1)
      scan (fun i => d.firstKey b0 ok n (pre ++ [i])) (hi - from_).toNat from_

/-- The first row of all that passes a test. -/
def NestDesc.first (d : NestDesc) (b0 : Nat) (ok : List Int → Bool) : Option (List Int) := d.firstKey b0 ok (d.depth - 1) []

/-- The next row after one opened before, or the first. -/
def NestDesc.next (d : NestDesc) (b0 : Nat) (ok : List Int → Bool) (last : Option (List Int)) : Option (List Int) :=
  match last with
  | none => d.first b0 ok
  | some k => d.keyAfter b0 ok (d.depth - 1) [] k

/-- Lexicographic order; a proper beginning of a list lies before it. -/
def lexLt : List Int → List Int → Bool
  | _, [] => false
  | [], _ :: _ => true
  | a :: as, b :: bs => decide (a < b) || (a == b && lexLt as bs)

/-- R327: the die that owns a row. -/
def NestDesc.owner (d : NestDesc) (home : Nat) (key : List Int) : Nat :=
  if d.depth ≤ 1 ∨ d.cls = 2 then home else (key.getD (d.depth - 2) 0 % 4).toNat

/-! ## What a die knows of a nest -/

def State.run? (s : State) (r : Nat) : Option Run := tget s.runs r

/-- A nest of an instance. -/
def State.nest? (s : State) (r j : Nat) : Option (Run × Nest) :=
  (tget s.runs r).bind (fun x => (x.nests[j]?).map (fun n => (x, n)))

/-- What a die that has heard nothing yet knows: the initial bound, no retired row. -/
def View.fresh (run j b0 : Nat) : View := { run := run, nest := j, b0 := b0, w := [], last := none, yes := [] }

/-- The view of a die; the home die knows its own values, and every die the final ones of a sealed nest (R339, R342). -/
def State.view (s : State) (d r j : Nat) (run : Run) (n : Nest) : View :=
  let v := ((s.die d).views.find? (fun v => v.run == r && v.nest == j)).getD (View.fresh r j n.desc.b0)
  if d = run.die || n.sealed then { v with b0 := n.b0, w := n.w } else v

/-- Put a view in its place among the views of a die. -/
def putView (v : View) : List View → List View
  | [] => [v]
  | x :: xs => if x.run = v.run ∧ x.nest = v.nest then v :: xs else x :: putView v xs

/-- Change the view of a die. -/
def State.modView (s : State) (d r j : Nat) (u : View → View) : State :=
  match s.nest? r j with
  | none => s
  | some (run, n) =>
    let v := u (s.view d r j run n)
    s.modDie d (fun x => { x with views := putView v x.views })

/-- A nest that opens rows and releases points: live, not sealed, not cancelled (R327, R344). -/
def Nest.active (n : Nest) : Bool := n.live && !n.sealed && !n.cancel

/-! ## Slots (R328) -/

/-- The upper bound of a slot: of the single row of a dynamic nest of depth 1 it follows B0. -/
def RowSlot.top (x : RowSlot) (n : Nest) : Int :=
  if n.desc.depth = 1 ∧ n.desc.dyn then n.desc.high n.b0 0 [] else x.hi

/-- The points of a slot. -/
def RowSlot.size (x : RowSlot) (n : Nest) : Nat := (x.top n - x.lo).toNat

/-- The point at an offset of a slot. -/
def RowSlot.at_ (x : RowSlot) (o : Nat) : List Int := x.key ++ [x.lo + o]

/-- The point at an offset has retired. -/
def RowSlot.retired (x : RowSlot) (o : Nat) : Bool := decide (o < x.pre) || bit x.done (o - x.pre)

/-- Move the retired prefix over the retired points. The first argument bounds the moves. -/
def RowSlot.advance : Nat → RowSlot → RowSlot
  | 0, x => x
  | k + 1, x => if bit x.done 0 then RowSlot.advance k { x with pre := x.pre + 1, done := x.done / 2, out := x.out / 2 } else x

/-- Set a bit. -/
def withBit (x i : Nat) : Nat := if bit x i then x else x + 2 ^ i

/-- The point at an offset retires. -/
def RowSlot.retire (x : RowSlot) (o : Nat) : RowSlot :=
  if o < x.pre then x else RowSlot.advance (x.count + 1) { x with done := withBit x.done (o - x.pre) }

/-- A slot is open until every point of its row has been released. -/
def RowSlot.unreleased (x : RowSlot) (n : Nest) : Bool := decide (x.count < x.size n)

/-- The slot of a row on a die. -/
def Die.slot (d : Die) (r j : Nat) (key : List Int) : Option RowSlot :=
  d.rows.find? (fun x => x.run == r && x.nest == j && x.key == key)

/-- Change a slot. -/
def Die.modSlot (d : Die) (r j : Nat) (key : List Int) (u : RowSlot → RowSlot) : Die :=
  { d with rows := d.rows.map (fun x => if x.run = r ∧ x.nest = j ∧ x.key = key then u x else x) }

/-- R329: free the slots of the rows below the watermark that a die knows; forget answers about them. -/
def State.freeSlots (s : State) (d r j : Nat) : State :=
  match s.nest? r j with
  | none => s
  | some (run, n) =>
    let w := (s.view d r j run n).w
    (s.modDie d (fun x => { x with rows := x.rows.filter (fun x => !(x.run == r && x.nest == j && lexLt x.key w)) })).modView d r j
      (fun v => { v with yes := v.yes.filter (fun q => !lexLt (n.desc.keyOf q) w) })

/-! ## The release rule (R330) -/

/-- A point of a nest has retired, as its row's owner die knows. -/
def State.retiredAt (s : State) (d r j : Nat) (run : Run) (n : Nest) (q : List Int) : Bool :=
  let key := n.desc.keyOf q
  lexLt key (s.view d r j run n).w ||
  (match (s.die d).slot r j key with
    | some x => x.retired (q.getD (n.desc.depth - 1) 0 - x.lo).toNat
    | none => false)

/-- The points that a point depends on: inside the space, and not below the watermark that the die knows. At level 0
only the lower bound can fail. -/
def State.waitsFor (s : State) (d r j : Nat) (run : Run) (n : Nest) (p : List Int) : List (List Int) :=
  let dep := n.desc.depth
  let w := (s.view d r j run n).w
  (n.desc.deps.map (fun v => (List.range dep).map (fun k => p.getD k 0 - v.getD k 0))).filter (fun q =>
    n.desc.inside (2 ^ 32) dep q && !lexLt (n.desc.keyOf q) w)

/-- The points of other dies' rows that a die must ask about. -/
def State.needsAnswer (s : State) (d r j : Nat) (run : Run) (n : Nest) (p : List Int) : List (List Int) :=
  (s.waitsFor d r j run n p).filter (fun q =>
    n.desc.owner run.die (n.desc.keyOf q) != d && !(s.view d r j run n).yes.contains q)

/-- R330: a point may be released. -/
def State.mayRelease (s : State) (d r j : Nat) (run : Run) (n : Nest) (p : List Int) : Bool :=
  (s.waitsFor d r j run n p).all (fun q =>
    if n.desc.owner run.die (n.desc.keyOf q) = d then s.retiredAt d r j run n q else (s.view d r j run n).yes.contains q)

/-- The offsets of a slot that the limiter lets go (R331) and that are not released. The points of a concurrent nest have no rule to
check: no limiter binds them, and what has retired of a row may run past the 64 points after its prefix (DESIGN CHOICE, log
entry 92). -/
def RowSlot.offsets (x : RowSlot) (n : Nest) : List Nat :=
  if n.desc.cls = 2 then (if x.unreleased n then [x.count] else [])
  else ((List.range 64).map (x.pre + ·)).filter (fun o => decide (o < x.size n) && !bit x.out (o - x.pre))

/-- The first offset of a slot whose point may be released. -/
def State.releasable (s : State) (d : Nat) (x : RowSlot) : Option (Run × Nest × Nat) :=
  match s.nest? x.run x.nest with
  | none => none
  | some (run, n) =>
    if n.active then
      ((x.offsets n).find? (fun o => n.desc.cls == 2 || s.mayRelease d x.run x.nest run n (x.at_ o))).map (fun o => (run, n, o))
    else none

/-! ## Messages between the dies -/

/-- B0_UPDATE: a die learns the bound of the home die (R339). -/
def State.b0Update (s : State) (d r j : Nat) : State :=
  match s.nest? r j with
  | none => s
  | some (_, n) => if d < 4 then s.modView d r j (fun v => { v with b0 := n.b0 }) else s

def execB0Update (die run nest : Nat) (s : State) : Out := .next (s.b0Update die run nest)

/-- WATERMARK_UPDATE: a die learns the watermark of the home die, and frees slots (R329). -/
def State.watermarkUpdate (s : State) (d r j : Nat) : State :=
  match s.nest? r j with
  | none => s
  | some (_, n) => if d < 4 then (s.modView d r j (fun v => { v with w := n.w })).freeSlots d r j else s

def execWatermarkUpdate (die run nest : Nat) (s : State) : Out := .next (s.watermarkUpdate die run nest)

/-- A die asks about a point that some point of its open rows waits for. -/
def State.mayAsk (s : State) (d r j : Nat) (run : Run) (n : Nest) (q : List Int) : Bool :=
  n.active && !s.lookups.any (fun l => l.die == d && l.run == r && l.nest == j && l.point == q) &&
  (s.die d).rows.any (fun x => x.run == r && x.nest == j && (x.offsets n).any (fun o =>
    (s.needsAnswer d r j run n (x.at_ o)).contains q))

/-- REMOTE_LOOKUP. -/
def State.remoteLookup (s : State) (d r j : Nat) (q : List Int) : State :=
  match s.nest? r j with
  | none => s
  | some (run, n) =>
    if s.mayAsk d r j run n q then
      { s with lookups := s.lookups ++ [{ die := d, run := r, nest := j, point := q, stage := .asked }] }
    else s

def execRemoteLookup (die run nest : Nat) (point : List Int) (s : State) : Out := .next (s.remoteLookup die run nest point)

/-- LOOKUP_ANSWER: the owner answers: a yes reaches the die that asked; a no is remembered until the point retires. -/
def State.lookupAnswer (s : State) (i : Nat) : State :=
  match s.lookups[i]? with
  | none => s
  | some l =>
    match s.nest? l.run l.nest with
    | none => { s with lookups := s.lookups.eraseIdx i }
    | some (run, n) =>
      let owner := n.desc.owner run.die (n.desc.keyOf l.point)
      if s.retiredAt owner l.run l.nest run n l.point then
        ({ s with lookups := s.lookups.eraseIdx i } : State).modView l.die l.run l.nest (fun v => { v with yes := v.yes ++ [l.point] })
      else { s with lookups := s.lookups.set i { l with stage := .waits } }

def execLookupAnswer (i : Nat) (s : State) : Out := .next (s.lookupAnswer i)

/-! ## Opening rows (R327, R328, R382) -/

/-- The clock of the raise that brought a level-0 index into existence. -/
def Nest.raiseClock (n : Nest) (p : List Int) : List Nat :=
  if n.desc.dyn then
    match n.b0Log.find? (fun e => decide (p.getD 0 0 < (e.1 : Int))) with
    | some e => if p.getD 0 0 < (n.desc.b0 : Int) then [0, 0, 0, 0] else e.2
    | none => [0, 0, 0, 0]
  else [0, 0, 0, 0]

/-- The next row that a die opens of a nest. -/
def State.nextRow (s : State) (d r j : Nat) (run : Run) (n : Nest) : Option (List Int) :=
  if n.active then
    let v := s.view d r j run n
    match n.desc.next v.b0 (fun k => n.desc.owner run.die k == d) v.last with
    | some k => if s.mem.covers d (n.raiseClock k) then some k else none
    | none => none
  else none

/-- The rows that a die could open, by instance in admission order and by nest. -/
def State.openable (s : State) (d : Nat) : List (Nat × Nat × List Int) :=
  s.runs.flatMap (fun p => p.2.nests.zipIdx.filterMap (fun x =>
    (s.nextRow d p.1 x.2 p.2 x.1).map (fun k => (p.1, x.2, k))))

/-- ROW_OPEN: the next row of the first nest that has one takes a free slot. -/
def State.rowOpen (s : State) (d : Nat) : State :=
  if 1024 ≤ (s.die d).rows.length ∨ 4 ≤ d then s
  else
    match s.openable d with
    | [] => s
    | (r, j, k) :: _ =>
      match s.nest? r j with
      | none => s
      | some (run, n) =>
        let v := s.view d r j run n
        let b := n.desc.inner v.b0 k
        let x : RowSlot := { run := r, nest := j, key := k, lo := b.1, hi := b.2, pre := 0, done := 0, out := 0, count := 0, opened := true }
        (s.modDie d (fun y => { y with rows := y.rows ++ [x] })).modView d r j (fun v => { v with last := some k })

def execRowOpen (die : Nat) (s : State) : Out := .next (s.rowOpen die)

/-! ## Releasing points (R331) -/

/-- A point that a die could release now. -/
structure Candidate where
  part  : Nat
  order : Nat
  run   : Nat
  nest  : Nat
  key   : List Int
  point : List Int
  off   : Nat
  deriving DecidableEq, Repr

def State.candidates (s : State) (d : Nat) : List Candidate :=
  (s.die d).rows.filterMap (fun x => (s.releasable d x).map (fun y =>
    { part := y.1.part, order := y.1.order, run := x.run, nest := x.nest, key := x.key, point := x.at_ y.2.2, off := y.2.2 }))

/-- R331: the order of release within a partition. -/
def Candidate.before (a b : Candidate) : Bool :=
  decide (a.order < b.order) || (a.order == b.order && (decide (a.nest < b.nest) || (a.nest == b.nest && lexLt a.point b.point)))

/-- The least element of a list under an order. -/
def leastBy {α : Type} (lt : α → α → Bool) : List α → Option α
  | [] => none
  | x :: xs => some (xs.foldl (fun b y => if lt y b then y else b) x)

/-- R331: the partition served next: round-robin in ascending number. -/
def nextPart (last : Nat) (ps : List Nat) : Option Nat :=
  match leastBy (fun a b => decide (a < b)) (ps.filter (fun p => decide (last < p))) with
  | some p => some p
  | none => leastBy (fun a b => decide (a < b)) ps

/-- The point that a die releases next. -/
def State.nextRelease (s : State) (d : Nat) : Option Candidate :=
  let cs := s.candidates d
  (nextPart (s.die d).lastPart (cs.map (·.part))).bind (fun p => leastBy Candidate.before (cs.filter (fun c => c.part == p)))

/-- The clock that the start of a tread acquires (R381): its launch, its nest's predecessors, the points it depends on,
the raise that created its row. -/
def startNeeds (run : Run) (n : Nest) (p : List Int) : List Nat :=
  let preds := (run.nests.zipIdx.filter (fun x => bit n.desc.preds x.2)).map (fun x => x.1.doneClock)
  let qs := n.desc.deps.map (fun v => (List.range n.desc.depth).map (fun k => p.getD k 0 - v.getD k 0))
  let deps := (n.past.filter (fun x => qs.contains x.1)).map (·.2)
  (preds ++ deps ++ [n.raiseClock p]).foldl joinClock run.clock

/-- The tread of a released point. -/
def freshTread (c : Candidate) (run : Run) (n : Nest) (d age : Nat) : Tread :=
  { run := c.run, nest := c.nest, record := run.record + BitVec.ofNat 64 (128 * (c.nest + 1)), point := c.point, die := d,
    owner := d, age := age, span := n.desc.span, landings := [], part := run.part,
    args := if n.desc.args = 0 then run.args else n.desc.args, sinst := BitVec.ofNat 32 run.number,
    sbar := { gen := 0, arrived := [], phase := false }, leases := n.leases, needs := startNeeds run n c.point, ending := none,
    cancelled := false, stage := .queued, avoid := none, atOnce := false }

/-- The slot after a release. -/
def RowSlot.release (x : RowSlot) (n : Nest) (o : Nat) : RowSlot :=
  { x with count := x.count + 1, out := withBit x.out (o - x.pre), opened := decide (x.count + 1 < x.size n) }

/-- TREAD_RELEASE: a die releases one point into its dispatch queue of 1,024 entries (R331). -/
def State.treadRelease (s : State) (d : Nat) : State :=
  if 1024 ≤ (s.die d).queue.length then s
  else
    match s.nextRelease d with
    | none => s
    | some c =>
      match s.nest? c.run c.nest with
      | none => s
      | some (run, n) =>
        let tid := s.nextKey
        let age := (s.die d).releases
        let s1 := { s with nextKey := tid + 1, treads := tput s.treads tid (freshTread c run n d age) }
        let s2 := s1.modDie d (fun x =>
          let y := x.modSlot c.run c.nest c.key (fun r => r.release n c.off)
          { y with releases := x.releases + 1, lastPart := c.part, steal := if x.steal.backoff.isSome then Steal.idle else x.steal })
        (s2.modNest c.run c.nest (fun n => { n with released := n.released + 1 })).enqueue d tid

def execTreadRelease (die : Nat) (s : State) : Out := .next (s.treadRelease die)

end Sys2Proof.Machine
end

