-- ==== Sys2Proof/Machine/Sealing.lean ====
section
/-!
DEFINITION. Completion of nests and instances (15_nests.md R329, R334–R340, R344; 17_prog_triangular.md R361): records,
seals, RETIREMENT_REPORT, RAISE_APPLY, cancellation; the notices of R427.
-/

namespace Sys2Proof.Machine

/-! ## Notices to the host (R427) -/

/-- The notice of a launch: tag, status, instance number, released at system scope by the die that writes it; then the queue's
interrupt. -/
def State.notify (s : State) (die : Nat) (h : HostSrc) (status number : Nat) : State :=
  let s1 := if h.notify = 0 ∨ !s.mem.linkUp then s
    else (s.applyHost h.notify (bytesLE 4 h.tag ++ bytesLE 4 status ++ bytesLE 4 number ++ zeros 4)).stampHost h.notify 16
      (s.mem.clockOf die) (s.mem.clockOf die)
  if h.msix then { s1 with msix := tmodD 0 s1.msix h.queue (· + 1) } else s1

/-- A die has still to write what follows a done word of its own. -/
def State.follow (s : State) (die : Nat) (clock : List Nat) (x : Sequel) : State :=
  { s with reports := s.reports ++ [{ die := die, home := false, run := 0, nest := 0, point := [], ended := false, fault := none
                                      flags := 0, clock := clock, sequel := some x }] }

/-! ## Records (R337, R338) -/

/-- A done word. -/
def doneWord (status : Nat) : List Byte := bytesLE 8 (2 ^ 63 + status)

/-- The stairway record that a die writes, its done word last: that one is the release (R381). -/
def State.stairwayRecord (s : State) (die part : Nat) (c : DWord) (status index done number depth : Nat) : State :=
  let a := va57 c
  let k := s.mem.clockOf die
  (s.writeVirt none part (a + 8) (bytesLE 4 status ++ bytesLE 4 index ++ bytesLE 4 done ++ bytesLE 4 number ++ bytesLE 4 depth ++
    zeros 100)).writeVirt (some k) part a (doneWord status)

/-- The stairway record of a launch that the host has made, and after its done word the notice (R427): a release, which waits until the
done word is performed. -/
def State.launchEnds (s : State) (die part : Nat) (c : DWord) (status index done number depth : Nat) (src : Option HostSrc) : State :=
  let s1 := s.stairwayRecord die part c status index done number depth
  match src with
  | none => s1
  | some h => s1.follow die (s1.virtClock part (va57 c) 8) (.notice h status number)

/-- R338: the status of a completed nest. -/
def Nest.status (n : Nest) : Nat :=
  if n.cancel then 0x22 else if n.ended ≠ 0 then 0x21 else if n.late ≠ 0 then 0x20 else 0

/-- R337: the flags word. -/
def Nest.flagsWord (n : Nest) : Nat :=
  (if n.late ≠ 0 then 1 else 0) + (if n.fault.isSome then 2 else 0) + (if n.cancel then 4 else 0)

/-- R109: the fault record. -/
def faultBytes (f : Option FaultRec) : List Byte :=
  match f with
  | none => zeros 48
  | some f =>
    bytesLE 4 f.finfo.toNat ++ bytesLE 4 (f.thread + 256 * f.core) ++ bytesLE 8 f.fpc.toNat ++ bytesLE 8 f.faddr.toNat ++
    bytesLE 4 f.i0.toNat ++ bytesLE 4 f.i1.toNat ++ bytesLE 4 f.i2.toNat ++ bytesLE 4 f.i3.toNat ++ bytesLE 4 f.flags.toNat ++ zeros 4

/-- The completion record between its done word and its progress word. -/
def Nest.recordBody (n : Nest) : List Byte :=
  bytesLE 8 n.released ++ bytesLE 8 n.executed ++ bytesLE 4 n.steals ++ bytesLE 4 n.late ++
  bytesLE 4 (min n.stalls (2 ^ 32 - 1)) ++ bytesLE 4 (if n.desc.dyn then n.b0 else 0) ++ bytesLE 4 n.flags.toNat ++
  bytesLE 4 n.ended ++ bytesLE 2 n.desc.header.regs ++ zeros 2 ++ bytesLE 4 n.flagsWord

/-- The address of nest `j`'s completion record. -/
def Run.recordOf (r : Run) (j : Nat) : Nat := va57 (r.record + BitVec.ofNat 64 (128 * (j + 1)))

/-- R336, R337: the completion record, then the done word, which is a release. -/
def State.nestRecord (s : State) (run : Run) (j : Nat) (n : Nest) : State :=
  let a := run.recordOf j
  let k := s.mem.clockOf run.die
  let s1 := (s.writeVirt none run.part (a + 8) n.recordBody).writeVirt none run.part (a + 0x40) (zeros 16 ++ faultBytes n.fault)
  s1.writeVirt (some k) run.part a (doneWord n.status)

/-! ## The watermark (R329) -/

/-- The first existing row at or above the watermark. -/
def Nest.rowFrom (n : Nest) : Option (List Int) :=
  let d := n.desc
  if n.w.length = d.depth - 1 ∧ d.inside n.b0 (d.depth - 1) n.w ∧ d.rowSize n.b0 n.w ≠ 0 then some n.w
  else d.keyAfter n.b0 (fun _ => true) (d.depth - 1) [] n.w

/-- Retired points of a row. -/
def Nest.retiredIn (n : Nest) (key : List Int) : Nat :=
  match n.partial_.find? (fun p => p.1 == key) with
  | some p => p.2
  | none => 0

/-- Move the watermark over fully retired rows. The first argument bounds the moves. -/
def Nest.advanceW : Nat → Nest → Nest
  | 0, n => n
  | k + 1, n =>
    match n.rowFrom with
    | none => n
    | some key =>
      if n.retiredIn key = n.desc.rowSize n.b0 key then
        Nest.advanceW k { n with w := key ++ [0], partial_ := n.partial_.filter (fun (p : List Int × Nat) => p.1 != key) }
      else { n with w := key }

/-- One more retired point of a row. -/
def Nest.countPoint (n : Nest) (key : List Int) : Nest :=
  let c := n.retiredIn key + 1
  let n1 := { n with partial_ := n.partial_.filter (fun (p : List Int × Nat) => p.1 != key) ++ [(key, c)] }
  n1.advanceW (n1.partial_.length + 1)

/-- R335: every point of the space under the current bound has retired. -/
def Nest.drained (n : Nest) : Bool := n.rowFrom.isNone

/-! ## Sealing (R335, R336) -/

/-- A nest is gone from the Stairwells: its slots, views and lookups. -/
def State.forgetNest (s : State) (r j : Nat) : State :=
  { s with
    dies := s.dies.map (fun (p : Nat × Die) => (p.1, { p.2 with
      rows := p.2.rows.filter (fun x => !(x.run == r && x.nest == j))
      views := p.2.views.filter (fun x => !(x.run == r && x.nest == j)) }))
    lookups := s.lookups.filter (fun x => !(x.run == r && x.nest == j)) }

/-- Every predecessor of a nest is sealed. -/
def Run.predsDone (run : Run) (n : Nest) : Bool := run.nests.zipIdx.all (fun x => !bit n.desc.preds x.2 || x.1.sealed)

/-- R326: an instance of a header in a partition is running, or a launch that has waited for one is next or being admitted. -/
def State.headerBusy (s : State) (header : DWord) (part : Nat) : Bool :=
  s.runs.any (fun p => p.2.header == header && p.2.part == part && !p.2.nests.all (·.sealed)) ||
  s.dies.any (fun p => p.2.pool.any (fun l => l.header == header && l.part == part && (l.ready || l.gen.isSome)))

/-- The first launch that waits for an instance of a header in a partition goes on, if none is there (R326). -/
def State.wakeSerial (s : State) (header : DWord) (part : Nat) : State :=
  if s.headerBusy header part then s
  else
    let ws := s.dies.flatMap (fun p => (p.2.pool.filter (fun l => l.waits && l.header == header && l.part == part)).map (·.seq))
    match leastBy (fun a b => decide (a < b)) ws with
    | none => s
    | some q => { s with dies := s.dies.map (fun (p : Nat × Die) => (p.1, { p.2 with
          pool := p.2.pool.map (fun l => if l.seq = q then { l with waits := false, ready := true } else l) })) }

/-- The report that makes the home die finish an instance whose every nest is sealed. -/
def finishReport (r : Nat) (run : Run) : Report :=
  { die := run.die, home := true, run := r, nest := run.nests.length, point := [], ended := false, fault := none, flags := 0,
    clock := (run.nests.map (·.doneClock)).foldl joinClock [0, 0, 0, 0] }

/-- R336: the done word's copy at the completion signal, a release too, waits until record and done word are performed. -/
def State.signalCopy (s : State) (run : Run) (n : Nest) (clock : List Nat) : State :=
  if n.desc.signal = 0 then s else s.follow run.die clock (.copy run.part (va57 n.desc.signal) n.status)

/-- One nest is sealed: its record is written, its leases end, it leaves the Stairwells. -/
def State.sealOne (s : State) (r j : Nat) : State :=
  match s.nest? r j with
  | none => s
  | some (run, n) =>
    let s1 := s.nestRecord run j n
    let ck := s1.virtClock run.part (run.recordOf j) 8
    (((s1.signalCopy run n ck).modNest r j (fun n => { n with sealed := true, live := true, leases := [], reserved := [], doneClock := ck })).forgetNest r j)

/-- The clocks of everything a nest's treads have done so far, and of the nests that it depends on. -/
def Run.pastClock (run : Run) (n : Nest) : List Nat :=
  (n.past.map (·.2) ++ (run.nests.zipIdx.filter (fun x => bit n.desc.preds x.2)).map (fun x => x.1.doneClock)).foldl joinClock
    [0, 0, 0, 0]

/-- R370, R381: a done word that a die would write to a place now may apply: its home has seen all that the die has. -/
def State.mayDone (s : State) (die part va : Nat) : Bool := s.homesCover part va 8 (s.mem.clockOf die)

/-- The home die has seen what a seal releases, and the home of the done word has seen what it has (R336, R370). -/
def State.sealReady (s : State) (run : Run) (j : Nat) (n : Nest) : Bool :=
  s.mem.covers run.die (run.pastClock n) && s.mayDone run.die run.part (run.recordOf j)

/-- No home report of a nest is on its way. -/
def State.reported (s : State) (r j : Nat) : Bool := s.reports.all (fun q => !(q.home && q.run == r && q.nest == j))

/-- A nest has drained; a cancelled one has no tread left (R335, R344). -/
def State.sealable (s : State) (r : Nat) (run : Run) (x : Nest × Nat) : Bool :=
  !x.1.sealed &&
  (if x.1.cancel then s.treads.all (fun t => !(t.2.run == r && t.2.nest == x.2) || t.2.stage == .retired) && s.reported r x.2
  else (x.1.live || run.predsDone x.1) && x.1.drained && x.1.executed == x.1.released)

/-- The live nests of the instances of a die (R327). -/
def State.liveNests (s : State) (die : Nat) : Nat :=
  ((s.runs.filter (fun p => p.2.die == die)).map (fun p => (p.2.nests.filter (fun n => n.live && !n.sealed)).length)).foldl (· + ·) 0

/-- A nest that may go live: its predecessors are sealed. -/
def Run.mayLive (run : Run) (n : Nest) : Bool := !n.live && !n.cancel && run.predsDone n

/-- The first nests of an instance that may go live do, as many as there is room for (R324). -/
def Run.bringLive (run : Run) : Nat → List Nest → List Nest
  | _, [] => []
  | 0, ns => ns
  | k + 1, n :: ns => if run.mayLive n then { n with live := true } :: run.bringLive k ns else n :: run.bringLive (k + 1) ns

/-- Go live: the nests whose predecessors are sealed, while the die has fewer than 1,024 live nests (R324, log entry 71). One that
could seal but for what its record releases is looked at again by a report without a point. -/
def State.goLive (s : State) (r : Nat) (run : Run) : State :=
  let s1 := s.modRun r (fun run => { run with nests := run.bringLive (1024 - s.liveNests run.die) run.nests })
  let again := run.nests.zipIdx.filter (fun x => s.sealable r run x && s.reported r x.2)
  { s1 with reports := s1.reports ++ again.map (fun x =>
      { die := run.die, home := true, run := r, nest := x.2, point := [], ended := false, fault := none, flags := 0, clock := [0, 0, 0, 0] }) }

/-- Seal what can be sealed and let dependants go live, until nothing changes. The first argument bounds the rounds. -/
def State.settleRun (r : Nat) : Nat → State → State
  | 0, s => s
  | k + 1, s =>
    match tget s.runs r with
    | none => s
    | some run =>
      match run.nests.zipIdx.find? (fun x => s.sealable r run x && s.sealReady run x.2 x.1) with
      | some x => State.settleRun r k (s.sealOne r x.2)
      | none => s.goLive r run

/-- R324: where a die has room for live nests again, the nests of its instances that waited for it go live. -/
def State.fillLive (s : State) (die : Nat) : State :=
  s.runs.foldl (fun s p =>
    match tget s.runs p.1 with
    | some run => if run.die = die ∧ run.nests.any run.mayLive then s.goLive p.1 run else s
    | none => s) s

/-- Seal and, when the last nest has completed, make the instance finish; a launch that waits for it goes on (R326). -/
def State.settle (s : State) (r : Nat) : State :=
  match tget s.runs r with
  | none => s
  | some before =>
    let s1 := (State.settleRun r (before.nests.length + 1) s).fillLive before.die
    match tget s1.runs r with
    | none => s1
    | some run =>
      if run.nests.all (·.sealed) && !before.nests.all (·.sealed) then
        ({ s1 with reports := s1.reports ++ [finishReport r run] } : State).wakeSerial run.header run.part
      else s1

/-- An instance with nothing left that refers to it is forgotten. -/
def State.dropRun (s : State) (r : Nat) : State :=
  match tget s.runs r with
  | none => s
  | some run =>
    if run.nests.all (·.sealed) && s.reports.all (fun q => q.run != r || q.sequel.isSome) && s.raises.all (fun q => q.run != r)
        && s.treads.all (fun t => t.2.run != r) then
      { s with runs := tdel s.runs r, requests := s.requests.filter (fun q => !(q.part == run.part && q.inst == run.number)) }
    else s

/-! ## Reports -/

/-- R109: of two fault records the one of the tread that ended first, in one cycle that of the lower thread. -/
def firstFault (a b : Option FaultRec) : Option FaultRec :=
  match a, b with
  | some x, some y => if y.before x then some y else some x
  | none, y => y
  | x, none => x

/-- The effect of a report on its nest at the home die. -/
def Nest.take (n : Nest) (p : Report) : Nest :=
  if p.point.isEmpty then n
  else
    let n1 := { n with
      executed := n.executed + 1
      ended := n.ended + (if p.ended then 1 else 0)
      flags := n.flags ||| p.flags
      fault := firstFault n.fault p.fault }
    n1.countPoint (n.desc.keyOf p.point)

/-- R335: report `i` of a nest, with which the nest seals, waits until its seal may be written. Every other report is taken as
it comes. -/
def State.reportReady (s : State) (i : Nat) (run : Run) (n : Nest) (p : Report) : Bool :=
  let rest := { s with reports := s.reports.eraseIdx i }
  !rest.sealable p.run run (n.take p, p.nest) || s.sealReady run p.nest n

/-- The last step of an instance: its stairway record, and its notice after that (R337, R427). -/
def State.finishRun (s : State) (i r : Nat) (run : Run) (p : Report) : State :=
  if s.mem.covers run.die p.clock && s.mayDone run.die run.part (va57 run.record) then
    let status := if run.cancel then 0x22 else 0
    (({ s with reports := s.reports.eraseIdx i } : State).launchEnds run.die run.part run.record status 0xFFFFFFFF
      (run.nests.filter (·.sealed)).length run.number run.depth run.src).dropRun r
  else s

/-- R381, R370: the done word before a sequel is performed, and the home of a copy has seen what the die has. -/
def State.sequelReady (s : State) (p : Report) (x : Sequel) : Bool :=
  s.mem.covers p.die p.clock &&
  match x with
  | .copy part a _ => s.mayDone p.die part a
  | .notice _ _ _ => true

/-- A sequel is written, once it may be. -/
def State.takeSequel (s : State) (i : Nat) (p : Report) (x : Sequel) : State :=
  if s.sequelReady p x then
    let s1 := { s with reports := s.reports.eraseIdx i }
    match x with
    | .copy part a status => s1.writeVirt (some (s.mem.clockOf p.die)) part a (doneWord status)
    | .notice h status number => s1.notify p.die h status number
  else s

/-- RETIREMENT_REPORT: the owner die marks the point in its slot; the home die counts it, moves the watermark and seals what
has drained (R333–R335). -/
def State.retirementReport (s : State) (i : Nat) : State :=
  match s.reports[i]? with
  | none => s
  | some p =>
    match p.sequel, tget s.runs p.run with
    | some x, _ => s.takeSequel i p x
    | none, none => { s with reports := s.reports.eraseIdx i }
    | none, some run =>
      match run.nests[p.nest]? with
      | none => s.finishRun i p.run run p
      | some n =>
        let key := n.desc.keyOf p.point
        let rest := { s with reports := s.reports.eraseIdx i }
        if !p.home then
          (rest.modDie p.die (fun d => d.modSlot p.run p.nest key (fun x =>
            x.retire (p.point.getD (n.desc.depth - 1) 0 - x.lo).toNat))).dropRun p.run
        else if s.reportReady i run n p then
          (((rest.modNest p.run p.nest (fun n => n.take p)).freeSlots run.die p.run p.nest).settle p.run).dropRun p.run
        else s

def execRetirementReport (i : Nat) (s : State) : Out := .next (s.retirementReport i)

/-! ## Raises (R339, R340, R361, R382) -/

/-- R361: a late raise rewrites its target's record; the done word is the release. -/
def State.lateRaise (s : State) (r j : Nat) : State :=
  let s1 := s.modNest r j (fun n => { n with late := n.late + 1 })
  match s1.nest? r j with
  | none => s1
  | some (run, n) =>
    let a := run.recordOf j
    let k := s.mem.clockOf run.die
    ((s1.writeVirt none run.part (a + 0x1C) (bytesLE 4 n.late)).writeVirt none run.part (a + 0x34) (bytesLE 4 n.flagsWord)).writeVirt
      (some k) run.part a (doneWord n.status)

/-- What a raise does at the home die: the new bound, if it changes; the code of R342; the old bound. -/
def raiseOutcome (n : Nest) (k : RaiseKind) : Option Nat × Nat :=
  if n.sealed then (none, 2)
  else
    match k with
    | .max x => if n.b0 < x then (some x, 0) else (none, 1)
    | .grow cs =>
      let t := (cs.map (·.2)).foldl (· + ·) 0
      if 2 ^ 32 - 1 < n.b0 + t then (none, 5) else if t = 0 then (none, 1) else (some (n.b0 + t), 0)

/-- The value that a lane of an n.grow receives. -/
def growValue (b0 code lane : Nat) (cs : List (Nat × Nat)) : Word :=
  if code = 2 ∨ code = 5 then 0xFFFFFFFF
  else BitVec.ofNat 32 (b0 + ((cs.filter (fun c => decide (c.1 < lane))).map (·.2)).foldl (· + ·) 0)

/-- Write the result of a raise to a predicate of a thread where it then lies: live, or in its phase record (R349). -/
def State.setPredAt (s : State) (fk lane p : Nat) (b : Bool) : State :=
  match tget s.landings (landingOf fk) with
  | none => s
  | some l =>
    let spilled := (tget s.treads l.tid).any (fun t => t.spilledOut l)
    if spilled && p != 0 then
      let wt := (carried l.carry).length
      let a := l.recordPlace + 128 + 64 * l.flights + blockLen wt * (8 * (fk % 32) + lane) + 8
      let x := (readCell s.mem.hall a).toNat
      let y := if bit x p then x - 2 ^ p else x
      s.applyHall a [BitVec.ofNat 8 (if b then y + 2 ^ p else y)]
    else s.modThread fk lane (fun t => t.setPred p b)

/-- A tracked raise completes for its lanes: predicate or registers, codes, leases, the ST operation. Its predicate is written
now, whatever else has written it since (R342, log entry 12). A WAIT that covers it makes it performed: its stamp covered (R377). -/
def State.completeRaise (s : State) (q : Raise) (op b0 code : Nat) (clock : List Nat) : State :=
  let s1 := q.lanes.foldl (fun s l =>
    let s0 := s.modThread q.fk l (fun t =>
      { t with raise := some code, pwait := t.pwait.filter (fun w => w.2 != op) })
    match q.kind with
    | .max _ => s0.setPredAt q.fk l q.dest (code == 0)
    | .grow cs => s0.modThread q.fk l (fun t =>
        { t.setReg q.dest (growValue b0 code l cs) with leases := t.leases.filter (fun x => x.by_ ≠ .op .st op) })) s
  s1.completeEng q.fk .st op clock

/-- The stamp of a raise: a tracked one is stamped like a causal write at the home die (R369, R382), a posted one is relaxed. -/
def State.stampRaise (s : State) (q : Raise) (die : Nat) : State × List Nat :=
  if q.op.isSome then s.stampEvent die else (s, [0, 0, 0, 0])

/-- A raise is applied at the home die in one step. -/
def State.applyRaise (s : State) (i : Nat) (q : Raise) (die : Nat) (n : Nest) : State :=
  let o := raiseOutcome n q.kind
  let st := ({ s with raises := s.raises.eraseIdx i } : State).stampRaise q die
  let s1 := st.1
  let s2 := if o.2 = 2 then s1.lateRaise q.run q.target
    else match o.1 with
      | some b => s1.modNest q.run q.target (fun n => { n with b0 := b, b0Log := n.b0Log ++ [(b, st.2)] })
      | none => s1
  let s3 := match q.op with
    | some op =>
      let die := match tget s.landings (landingOf q.fk) with
        | some l => l.core / 48
        | none => 0
      (s2.completeRaise q op n.b0 o.2 st.2).b0Update die q.run q.target
    | none => s2
  s3.dropRun q.run

/-- R340: the report of the retirement that a posted raise travels behind has been processed. -/
def State.behindReport (s : State) (q : Raise) : Bool :=
  match q.after with
  | none => true
  | some p =>
    !(tget s.treads q.tid).any (fun t => t.stage != .retired) &&
    s.reports.all (fun x => !(x.home && x.run == q.run && x.nest == q.from_ && x.point == p))

/-- R382: a tracked raise drains once what it releases is performed. -/
def State.raiseDrains (s : State) (q : Raise) : Option (List Nat) :=
  match tget s.flights q.fk, tget s.landings (landingOf q.fk) with
  | some f, some l =>
    let d := l.core / 48
    if s.releasedUpto q.fk q.lanes q.upto && s.mem.covers d f.cover then some (s.mem.clockOf d) else none
  | _, _ => none

/-- R361, R370: a raise of a sealed nest rewrites its done word, once that release may apply. -/
def State.lateReady (s : State) (run : Run) (j : Nat) (n : Nest) : Bool :=
  !n.sealed || s.mayDone run.die run.part (run.recordOf j)

/-- RAISE_APPLY: a tracked raise first drains, carrying its die's clock, and is then applied at the home die; a posted one is
applied once the report it follows has been processed. -/
def State.raiseApply (s : State) (i : Nat) : State :=
  match s.raises[i]? with
  | none => s
  | some q =>
    match s.nest? q.run q.target with
    | none => s
    | some (run, n) =>
      match q.op, q.clock with
      | none, _ => if s.behindReport q && s.lateReady run q.target n then s.applyRaise i q run.die n else s
      | some _, none =>
        match s.raiseDrains q with
        | some c => { s with raises := s.raises.set i { q with clock := some c } }
        | none => s
      | some _, some c =>
        if s.mem.covers run.die c && s.lateReady run q.target n then s.applyRaise i q run.die n else s

def execRaiseApply (i : Nat) (s : State) : Out := .next (s.raiseApply i)

/-! ## Cancellation (R344, R428) -/

/-- A tread of a cancelled instance: one that has not started is dropped; any other ends without a record. -/
def State.cancelTread (s : State) (tid : Nat) : State :=
  match tget s.treads tid with
  | none => s
  | some t =>
    if t.stage = .queued then
      { s with
        treads := tdel s.treads tid
        dies := s.dies.map (fun (p : Nat × Die) => (p.1, { p.2 with
          queue := p.2.queue.filter (· != tid)
          steal := { p.2.steal with answer := p.2.steal.answer.map (fun l => l.filter (· != tid)) } })) }
    else if t.ending.isSome ∨ t.stage = .retired then s
    else s.modTread tid (fun t => { t with cancelled := true })

/-- R344: cancel a running instance. -/
def State.cancelRun (s : State) (r : Nat) : State :=
  match tget s.runs r with
  | none => s
  | some run =>
    if run.nests.all (·.sealed) then s
    else
      let s1 := s.modRun r (fun run =>
        { run with cancel := true, nests := run.nests.map (fun n => if n.sealed then n else { n with cancel := true, reserved := [] }) })
      let ts := (s1.treads.filter (fun t => t.2.run == r)).map (·.1)
      (ts.foldl State.cancelTread s1).settle r

/-- The running instances of a partition. -/
def State.runsOf (s : State) (part : Nat) : List Nat :=
  (s.runs.filter (fun p => p.2.part == part && !p.2.nests.all (·.sealed))).map (·.1)

/-- Cancel every instance of a partition. -/
def State.cancelAll (s : State) (part : Nat) : State := (s.runsOf part).foldl State.cancelRun s

end Sys2Proof.Machine
end

