-- ==== Sys2Proof/Machine/Admission.lean ====
section
/-!
DEFINITION. Launches and their admission (15_nests.md R317–R326): the pools, the checks of R322, leases, concurrent
reservations, ADMISSION.
-/

namespace Sys2Proof.Machine

/-! ## Statuses (R338) -/

inductive Admit where
  | busy | badStairway | reservedField | badDepth | badBound | badDep | badEdge | badWriters | badClass | badSpan | badPc
  | badRegcount | badFlights | badHall | badCarry | badPhase | badRange | rangeFault | noCapacity | nestingDepth | poolFull
  | imageFault | cancelled
  deriving DecidableEq, Repr

def Admit.code : Admit → Nat
  | .busy => 0x01
  | .badStairway => 0x02
  | .reservedField => 0x03
  | .badDepth => 0x04
  | .badBound => 0x05
  | .badDep => 0x06
  | .badEdge => 0x07
  | .badWriters => 0x08
  | .badClass => 0x09
  | .badSpan => 0x0A
  | .badPc => 0x0B
  | .badRegcount => 0x0C
  | .badFlights => 0x0D
  | .badHall => 0x0E
  | .badCarry => 0x0F
  | .badPhase => 0x10
  | .badRange => 0x11
  | .rangeFault => 0x12
  | .noCapacity => 0x13
  | .nestingDepth => 0x14
  | .poolFull => 0x15
  | .imageFault => 0x16
  | .cancelled => 0x22

/-! ## The descriptor of a nest (R318–R320) -/

/-- The bytes that admission reads for one nest. -/
structure NestImage where
  desc : List Byte
  head : List Byte
  rngs : List Byte

def dControl (b : List Byte) : Nat := field b 0 4
def dDepth (b : List Byte) : Nat := bits (dControl b) 0 3
def dDyn (b : List Byte) : Bool := bit (dControl b) 5
def dMigr (b : List Byte) : Bool := bit (dControl b) 6
def dPhased (b : List Byte) : Bool := bit (dControl b) 7
def dClass (b : List Byte) : Nat := bits (dControl b) 8 2
def dSpan (b : List Byte) : Nat := bits (dControl b) 10 5
def dDeps (b : List Byte) : Nat := bits (dControl b) 15 3
def dRanges (b : List Byte) : Nat := bits (dControl b) 18 5
def dLow (b : List Byte) (k : Nat) : Nat := field b (0x08 + 4 * k) 4
def dHigh (b : List Byte) (k : Nat) : Nat := field b (0x18 + 4 * k) 4
def dCoefA (b : List Byte) : Nat := field b 0x28 4
def dCoefB (b : List Byte) : Nat := field b 0x2C 4
def dVec (b : List Byte) (i m : Nat) : Nat := field b (0x30 + 4 * i + m) 1
def dPreds (b : List Byte) : Nat := field b 0x40 8
def dWriters (b : List Byte) : Nat := field b 0x48 8
def dAddr (b : List Byte) (o : Nat) : DWord := BitVec.ofNat 64 (field b o 8)

/-- The level of coefficient pair `j` (R318). -/
def pairLevel (j : Nat) : Nat := if j = 0 then 1 else if j ≤ 2 then 2 else 3

/-- A declared range of the table: base, pages, access word. -/
def rangeAt (b : List Byte) (i : Nat) : DWord × Nat × Nat :=
  (BitVec.ofNat 64 (field b (16 * i) 8), field b (16 * i + 8) 4, field b (16 * i + 12) 4)

/-- The ranges that are read: at most 16. -/
def NestImage.ranges (x : NestImage) : List (DWord × Nat × Nat) := (List.range (min (dRanges x.desc) 16)).map (rangeAt x.rngs)

/-- R321: a field of a level at or above the depth is not zero. -/
def levelFields (b : List Byte) (d : Nat) : Bool :=
  (List.range 4).any (fun k => decide (d ≤ k) && (dLow b k != 0 || dHigh b k != 0)) ||
  (List.range 6).any (fun j => decide (d ≤ pairLevel j) && (bits (dCoefA b) (4 * j) 4 != 0 || bits (dCoefB b) (4 * j) 4 != 0)) ||
  (List.range 4).any (fun i => (List.range 4).any (fun m => decide (d ≤ m) && dVec b i m != 0))

/-- Check 3.2: a reserved field or bit is not zero. -/
def NestImage.reserved (x : NestImage) : Bool :=
  let b := x.desc
  bits (dControl b) 23 9 != 0 || bits (dControl b) 3 2 != 0 || bits (dCoefA b) 24 8 != 0 || bits (dCoefB b) 24 8 != 0 ||
  field b 0x80 128 != 0 || bits (field x.head 3 1) 1 7 != 0 || field x.head 0x10 16 != 0 ||
  x.ranges.any (fun r => bits r.2.2 2 30 != 0) ||
  (decide (1 ≤ dDepth b) && decide (dDepth b ≤ 4) && levelFields b (dDepth b))

/-- The components of a dependence vector. -/
def depVec (b : List Byte) (i : Nat) : List Int := (List.range (dDepth b)).map (fun m => sign (dVec b i m) 8)

/-- A vector is lexicographically positive. -/
def lexPositive : List Int → Bool
  | [] => false
  | x :: xs => decide (0 < x) || (x == 0 && lexPositive xs)

/-- The number of bits set below `n`. -/
def popBits (n x : Nat) : Nat := ((List.range n).filter (fun i => bit x i)).length

/-- The landing header of a nest, its count rounded (R205). -/
def NestImage.header (x : NestImage) : Header :=
  { regs := roundUp (field x.head 0 2) 8, flights := field x.head 2 1, phased := bit (field x.head 3 1) 0,
    hall := field x.head 4 4, carry := field x.head 8 8 }

/-- R322 3.13: a range that no admission accepts. The rule names 2^56 alone: of a range that starts in the upper half the model asks that
it end by 2^57, the top of the 57-bit space (DESIGN CHOICE, log entry 48). -/
def badRange (r : DWord × Nat × Nat) : Bool :=
  let v := va57 r.1
  bits r.2.2 0 2 == 0 || r.2.1 == 0 || v % 4096 != 0 || !isCanon r.1 ||
  decide ((if v < 2 ^ 56 then 2 ^ 56 else 2 ^ 57) < v + 4096 * r.2.1)

/-- The checks of step 3 of R322 after the reads, in order. `cyc` says that the nest lies on a cycle. -/
def NestImage.check (x : NestImage) (n j : Nat) (cyc : Bool) : Option Admit :=
  let b := x.desc
  let vs := (List.range (min (dDeps b) 4)).map (depVec b)
  let h := x.header
  let raw := field x.head 0 2
  if x.reserved then some .reservedField
  else if dDepth b = 0 ∨ 4 < dDepth b then some .badDepth
  else if !dDyn b && (field b 4 4 != 0 || dWriters b != 0) then some .badBound
  else if decide (4 < dDeps b) || vs.any (fun v => v.any (fun c => decide (c < -16) || decide (15 < c)) || !lexPositive v) then
    some .badDep
  else if dPreds b / 2 ^ n != 0 || bit (dPreds b) j || cyc then some .badEdge
  else if dWriters b / 2 ^ n != 0 || decide (8 < popBits 64 (dWriters b)) then some .badWriters
  else if dClass b = 3 ∨ (dClass b = 2 ∧ (dDyn b = true ∨ dDeps b ≠ 0)) then some .badClass
  else if dSpan b = 0 ∨ 24 < dSpan b then some .badSpan
  else if dAddr b 0x50 = 0 ∨ field b 0x50 8 % 4 ≠ 0 ∨ field b 0x58 8 % 4 ≠ 0 then some .badPc
  else if raw = 0 ∨ 256 < raw then some .badRegcount
  else if h.flights = 0 ∨ 32 < h.flights then some .badFlights
  else if h.hall % 64 ≠ 0 ∨ 2 ^ 21 < h.hall + h.recordLen then some .badHall
  else if h.carry ≠ 0 ∧ (!h.phased ∨ h.carry / 2 ^ h.regs ≠ 0) then some .badCarry
  else if dPhased b != h.phased then some .badPhase
  else if decide (16 < dRanges b) || x.ranges.any badRange then some .badRange
  else none

/-- The coefficients of a coefficient word. -/
def coefs (w : Nat) : List Int := (List.range 6).map (fun j => sign (bits w (4 * j) 4) 4)

/-- The snapshot of a nest that has passed its checks. -/
def NestImage.snapshot (x : NestImage) : NestDesc :=
  let b := x.desc
  { depth := dDepth b, dyn := dDyn b, migr := dMigr b, cls := dClass b, span := dSpan b, b0 := field b 4 4,
    lo := (List.range 4).map (fun k => sign (dLow b k) 32), hi := (List.range 4).map (fun k => sign (dHigh b k) 32),
    ca := coefs (dCoefA b), cb := coefs (dCoefB b), deps := (List.range (dDeps b)).map (depVec b), preds := dPreds b,
    writers := dWriters b, entry := dAddr b 0x50, handler := if dAddr b 0x58 = 0 then none else some (dAddr b 0x58),
    signal := dAddr b 0x70, args := dAddr b 0x78, header := x.header,
    ranges := x.ranges.map (fun r => { base := va57 r.1, len := 4096 * r.2.1, r := bit r.2.2 0, w := bit r.2.2 1 }) }

/-! ## Reading the image -/

/-- Read bytes at a 64-bit address, in the view of the die that admits (R368). -/
def State.readImage (s : State) (die part : Nat) (a : DWord) (n : Nat) : State × Option (List Byte) :=
  if isCanon a then s.readVirt (some die) part (va57 a) n else (s, none)

/-- The reads of check 3.1 for nest `j`. -/
def State.readNest (s : State) (die part : Nat) (header : DWord) (j : Nat) : State × Option NestImage :=
  match s.readImage die part (header + BitVec.ofNat 64 (256 * (j + 1))) 256 with
  | (s1, none) => (s1, none)
  | (s1, some b) =>
    let ha := dAddr b 0x60
    let ra := dAddr b 0x68
    let n := 16 * min (dRanges b) 16
    if ha.toNat % 32 ≠ 0 ∨ ra.toNat % 16 ≠ 0 ∨ (ra = 0 ∧ dRanges b ≠ 0) then (s1, none)
    else
      match s1.readImage die part ha 32 with
      | (s2, none) => (s2, none)
      | (s2, some h) =>
        if n = 0 then (s2, some { desc := b, head := h, rngs := [] })
        else
          match s2.readImage die part ra n with
          | (s3, none) => (s3, none)
          | (s3, some r) => (s3, some { desc := b, head := h, rngs := r })

/-- The images of nests 0 to n − 1. -/
def State.readNests (s : State) (die part : Nat) (header : DWord) (n : Nat) : State × List (Option NestImage) :=
  (List.range n).foldl (fun acc j =>
    let r := acc.1.readNest die part header j
    (r.1, acc.2 ++ [r.2])) (s, [])

/-- The nests reachable from a set over the predecessor masks, in `k` rounds. -/
def reach (masks : List Nat) : Nat → List Nat → List Nat
  | 0, seen => seen
  | k + 1, seen =>
    reach masks k (seen ++ ((List.range masks.length).filter (fun i =>
      !seen.contains i && seen.any (fun x => bit (masks.getD x 0) i))))

/-- Nest `j` lies on a cycle among the edges. -/
def onCycle (masks : List Nat) (j : Nat) : Bool :=
  let from_ := (List.range masks.length).filter (fun i => bit (masks.getD j 0) i)
  (reach masks masks.length from_).contains j

/-- Step 3 of R322 over the nests in ascending order: the first failure with its nest. -/
def checkNests (xs : List (Option NestImage)) : Option (Admit × Nat) :=
  let masks := xs.map (fun x => match x with
    | some y => dPreds y.desc
    | none => 0)
  firstSome (fun (p : Option NestImage × Nat) =>
    match p.1 with
    | none => some (.imageFault, p.2)
    | some x => (x.check xs.length p.2 (onCycle masks p.2)).map (fun a => (a, p.2))) xs.zipIdx

/-! ## Leases (R323) -/

/-- The pages of a range from an address on, each with the access declared; none when one does not map so. Each is walked through
the galleries of its tables (R406). -/
def State.leasePages (s : State) (part : Nat) (r : DeclRange) : Nat → Nat → State × Option (List PageMap)
  | 0, _ => (s, some [])
  | k + 1, va =>
    if r.base + r.len ≤ va then (s, some [])
    else
      let s1 := s.virtWalk part va
      match s1.virtPage part va with
      | none => (s1, none)
      | some p =>
        if (r.r && !p.r) || (r.w && !p.w) then (s1, none)
        else
          let x := s1.leasePages part r k (p.va + p.size)
          (x.1, x.2.map (p :: ·))

/-- The leases of a nest's declared ranges. -/
def State.leasesOf (s : State) (part : Nat) : List DeclRange → State × Option (List LeaseRange)
  | [] => (s, some [])
  | r :: rs =>
    match s.leasePages part r (r.len / 4096 + 1) r.base with
    | (s1, none) => (s1, none)
    | (s1, some ps) =>
      let x := s1.leasesOf part rs
      (x.1, x.2.map ({ base := r.base, len := r.len, r := r.r, w := r.w, pages := ps } :: ·))

/-- The leases of the nests of an instance, nest by nest. -/
def State.leasesAll (s : State) (part : Nat) (ds : List NestDesc) : State × List (Option (List LeaseRange)) :=
  ds.foldl (fun acc d =>
    let x := acc.1.leasesOf part d.ranges
    (x.1, acc.2 ++ [x.2])) (s, [])

/-- The dies that may run a nest. -/
def NestDesc.diesOf (d : NestDesc) (home : Nat) : List Nat :=
  if d.cls = 2 ∨ (d.depth ≤ 1 ∧ !d.migr) then [home] else allDies

/-- A lease warms the translations of its pages, which have been walked through the galleries of their tables (R323, R407). -/
def State.warm (s : State) (dies_ : List Nat) (l : LeaseRange) : State :=
  (l.pages.foldl (fun s p => s.virtWalk p.part p.va) s |> l.pages.foldl fun s p =>
    (cutAt (2 ^ 21) (p.size / 2 ^ 21 + 2) p.va p.size).foldl (fun s c =>
      dies_.foldl (fun s d => { s with mem := s.mem.keep2 (tlbSlice d c.1) p }) s) s)

/-! ## Concurrent reservations (R325) -/

/-- Reserve a place for every point of a concurrent nest from a row and an offset. The first argument bounds the points: a
die has fewer flight slots. -/
def State.reserveFrom (s : State) (r j : Nat) (run : Run) (d : NestDesc) : Nat → List Int → Nat → Option State
  | 0, _, _ => none
  | k + 1, key, o =>
    if o < d.rowSize d.b0 key then
      match s.findPlace run.die 47 run.part d.span d.header.regs d.header.flights (d.header.hall + d.header.recordLen) with
      | none => none
      | some ps =>
        let p := key ++ [(d.inner d.b0 key).1 + o]
        (s.modNest r j (fun n => { n with reserved := n.reserved ++ [(p, ps)] })).reserveFrom r j run d k key (o + 1)
    else
      match d.keyAfter d.b0 (fun _ => true) (d.depth - 1) [] key with
      | some key' => s.reserveFrom r j run d k key' 0
      | none => some s

/-- Step 6 of R322: the reservations of every concurrent nest, or the first nest that finds no room. -/
def State.reserveAll (s : State) (r : Nat) (run : Run) : Except Nat State :=
  run.nests.zipIdx.foldl (fun acc x =>
    match acc with
    | .error j => .error j
    | .ok s =>
      if x.1.desc.cls = 2 then
        match x.1.desc.first x.1.desc.b0 (fun _ => true) with
        | none => .ok s
        | some key =>
          match s.reserveFrom r x.2 run x.1.desc 65536 key 0 with
          | some s1 => .ok s1
          | none => .error x.2
      else .ok s) (.ok s)

/-! ## The pools (R324, R326) -/

/-- R324: the launches of a pool: one that is being admitted has left it. -/
def Die.waiting (d : Die) : Nat := (d.pool.filter (fun l => l.gen.isNone)).length

/-- R324: the pool holds 4,096 launches. -/
def State.poolFull (s : State) (die : Nat) : Bool := decide (4096 ≤ (s.die die).waiting)

/-- A launch enters a die's pool. -/
def State.enterPool (s : State) (die : Nat) (l : Launch) : State :=
  let s1 := { s with nextKey := s.nextKey + 1 }
  s1.modDie die (fun d => { d with pool := d.pool ++ [{ l with seq := s.nextKey }] })

/-- Remove a launch. -/
def State.leavePool (s : State) (die seq : Nat) : State := s.modDie die (fun d => { d with pool := d.pool.filter (fun l => l.seq != seq) })

def State.modLaunch (s : State) (die seq : Nat) (u : Launch → Launch) : State :=
  s.modDie die (fun d => { d with pool := d.pool.map (fun l => if l.seq = seq then u l else l) })

/-- The launch that a die's admission works on: one under way, one whose predecessor has completed, the first that does not
wait. -/
def Die.nextLaunch (d : Die) : Option Launch :=
  match d.pool.find? (fun l => l.gen.isSome) with
  | some l => some l
  | none =>
    match d.pool.find? (fun l => l.ready) with
    | some l => some l
    | none => d.pool.find? (fun l => !l.waits)

/-- R326: an earlier instance or launch of the same header in the same partition. -/
def State.earlierOf (s : State) (l : Launch) : Bool :=
  s.runs.any (fun p => p.2.header == l.header && p.2.part == l.part && !p.2.nests.all (·.sealed)) ||
  s.dies.any (fun p => p.2.pool.any (fun x =>
    x.seq != l.seq && x.header == l.header && x.part == l.part && (x.gen.isSome || x.ready || (x.waits && decide (x.seq < l.seq)))))

/-- The nests of a launch that are live as its instance starts: those without a predecessor. -/
def bornLive (xs : List (Option NestImage)) : Nat := (xs.filter (fun x => x.any (fun y => dPreds y.desc == 0))).length

/-- A launch ends without an instance: its record, its notice, its place in the order of serial launches. -/
def State.failLaunch (s : State) (die : Nat) (l : Launch) (status index : Nat) : State :=
  ((s.leavePool die l.seq).launchEnds die l.part l.record status index 0 0xFFFFFFFF l.depth l.src).wakeSerial l.header l.part

/-! ## ADMISSION (R322) -/

/-- The first half: the header is read, the launch may have to wait, its generation word is kept (steps 1 of R322, R324,
R326). -/
def State.beginAdmission (s : State) (die : Nat) (l : Launch) : State :=
  if l.header.toNat % 256 ≠ 0 then s.failLaunch die l Admit.imageFault.code 0xFFFFFFFF
  else
    match s.readImage die l.part l.header 256 with
    | (s1, none) => s1.failLaunch die l Admit.imageFault.code 0xFFFFFFFF
    | (s1, some h) =>
      let n := field h 4 1
      if bit (field h 5 1) 0 && !l.ready && s1.earlierOf l then s1.modLaunch die l.seq (fun l => { l with waits := true })
      else if decide (1 ≤ n) && decide (n ≤ 64) && decide (1024 < s1.liveNests die + bornLive (s1.readNests die l.part l.header n).2) then s1
      else if bit (field h 0 4) 0 then s1.failLaunch die l Admit.busy.code 0xFFFFFFFF
      else s1.modLaunch die l.seq (fun l => { l with gen := some (BitVec.ofNat 32 (field h 0 4)) })

/-- A nest at the start of its instance. -/
def Nest.fresh (d : NestDesc) (ls : List LeaseRange) : Nest :=
  { desc := d, live := false, sealed := false, cancel := false, b0 := d.b0, b0Log := [], w := [], partial_ := [], past := [],
    released := 0, executed := 0, steals := 0, stalls := 0, late := 0, ended := 0, flags := 0, fault := none, leases := ls,
    reserved := [], doneClock := [0, 0, 0, 0] }

/-- The next instance number of a partition that no running instance holds (R324). The first argument bounds the tries. -/
def freeNumber (held : List Nat) : Nat → Nat → Nat
  | 0, n => n
  | k + 1, n => if held.contains n then freeNumber held k ((n + 1) % 2 ^ 32) else n

/-- The instance starts: it draws its number, its records are zeroed, its first nests go live. -/
def State.startRun (s : State) (r : Nat) (n : Nat) : State :=
  match tget s.runs r with
  | none => s
  | some run =>
    let held := (s.runs.filter (fun p => p.1 != r && p.2.part == run.part && !p.2.nests.all (·.sealed))).map (·.2.number)
    let num := freeNumber held (held.length + 1) (match tget s.parts run.part with
      | some p => p.nextInst
      | none => 0)
    let s1 := { s with parts := tmod s.parts run.part (fun p => { p with nextInst := (num + 1) % 2 ^ 32 }) }
    let s2 := s1.modRun r (fun x => { x with number := num })
    (s2.writeVirt none run.part (va57 run.record) (zeros (128 * (n + 1)))).settle r

/-- Steps 2 to 6 of R322. -/
def State.endAdmission (s : State) (die : Nat) (l : Launch) (gen : Word) : State :=
  match s.readImage die l.part l.header 256 with
  | (s1, none) => s1.failLaunch die l Admit.imageFault.code 0xFFFFFFFF
  | (s1, some h) =>
    let n := field h 4 1
    if n = 0 ∨ 64 < n ∨ field h 6 2 ≠ 1 ∨ bits (field h 5 1) 1 7 ≠ 0 ∨ field h 8 248 ≠ 0 then
      s1.failLaunch die l Admit.badStairway.code 0xFFFFFFFF
    else
      let x := s1.readNests die l.part l.header n
      match checkNests x.2 with
      | some (a, j) => x.1.failLaunch die l a.code j
      | none =>
        if BitVec.ofNat 32 (field h 0 4) ≠ gen then x.1.failLaunch die l Admit.busy.code 0xFFFFFFFF
        else
          let ds := x.2.filterMap (fun y => y.map NestImage.snapshot)
          let g := x.1.leasesAll l.part ds
          match g.2.findIdx? (·.isNone) with
          | some j => g.1.failLaunch die l Admit.rangeFault.code j
          | none =>
            let r := g.1.nextRun
            let run : Run :=
              { header := l.header, args := l.args, record := l.record, depth := l.depth, part := l.part, die := die, number := 0,
                order := r, serial := bit (field h 5 1) 0, src := l.src,
                nests := (ds.zip (g.2.filterMap id)).map (fun p => Nest.fresh p.1 p.2), cancel := false, clock := l.clock }
            let s2 := { g.1 with runs := tput g.1.runs r run, nextRun := r + 1 }
            match s2.reserveAll r run with
            | .error j => g.1.failLaunch die l Admit.noCapacity.code j
            | .ok s3 =>
              let s4 := run.nests.foldl (fun s n => n.leases.foldl (fun s a => s.warm (n.desc.diesOf die) a) s) s3
              (s4.leavePool die l.seq).startRun r n

/-- ADMISSION: a die works on one launch at a time. -/
def State.admission (s : State) (die : Nat) : State :=
  match (s.die die).nextLaunch with
  | none => s
  | some l =>
    match l.gen with
    | none => s.beginAdmission die l
    | some g => s.endAdmission die l g

def execAdmission (die : Nat) (s : State) : Out := .next (s.admission die)

end Sys2Proof.Machine
end

