-- ==== Sys2Proof/Machine/NestInstr.lean ====
section
/-!
DEFINITION. NEST (15_nests.md R339–R343): nb.max, nb.max.p, n.grow, n.launch, n.signal, n.info.
-/

namespace Sys2Proof.Machine

/-! ## What the members share (R342) -/

/-- The registers checked on a lane: those of the lowest lane of G, and those that every lane reads or writes. -/
def nestTraps (s : State) (c : Ctx) (ls : List Nat) (low every : List RegUse) : List (Nat × Res) :=
  ls.filterMap (fun l => (s.thread? c.fk l).bind (fun t =>
    (regTrap c.ld.regs t (if l = ls.headD 0 then every ++ low else every)).map (fun x => (l, Res.trap x))))

/-- A member of NEST: registers checked, then one action of the flight from the thread of the lowest lane of G. When a lane
traps, the others try again. -/
def nestOp (low every : List RegUse) (g : BitVec 3)
    (f : Ctx → State → Nat → Thread → List Nat → State × List (Nat × Res)) (s : State) : Out :=
  .next (issue s HintUse.none g (fun c ls s =>
    let l := ls.headD 0
    if anyAwaits s c.fk (allRegs every) ls || anyAwaits s c.fk (allRegs low) [l] then (s, [(l, .hold .register)])
    else
      match nestTraps s c ls low every, s.thread? c.fk l with
      | [], some t => f c s l t ls
      | bad, _ => (s, bad ++ (ls.filter (fun k => !bad.any (fun b => b.1 == k))).map (fun k => (k, .hold .result)))))

/-- The value of a register in every lane of G. -/
def laneValues (s : State) (c : Ctx) (ls : List Nat) (r : BitVec 6) : List (Nat × Nat) :=
  ls.filterMap (fun l => (s.thread? c.fk l).map (fun t => (l, (t.reg r.toNat).toNat)))

/-- Target(j): the code of a raise that is refused at issue. -/
def raiseTarget (s : State) (c : Ctx) (j : Nat) : Option Nat :=
  match s.nest? c.tr.run j with
  | none => some 4
  | some (_, n) => if !n.desc.dyn then some 4 else if j = c.tr.nest ∨ bit n.desc.writers c.tr.nest then none else some 3

/-- Every thread of G records a raise code. -/
def setRaise (c : Ctx) (code : Nat) (ls : List Nat) (s : State) : State :=
  ls.foldl (fun s l => s.modThread c.fk l (fun t => { t with raise := some code })) s

/-- A raise of the flight on its way. -/
def raiseOf (s : State) (c : Ctx) (k : RaiseKind) (j : Nat) (ls : List Nat) (op : Option Nat) (dest : Nat) : Raise :=
  { kind := k, run := c.tr.run, target := j, tid := c.ld.tid, fk := c.fk, lanes := ls, op := op, dest := dest,
    upto := s.mem.nextAcc, clock := none, after := if op.isSome then none else some c.tr.point, from_ := c.tr.nest }

/-- The flight's next ST operation. -/
def Ctx.nextSt (c : Ctx) : Nat := c.fl.cSt.issued

/-- A tracked raise joins the ST class and travels to the home die. -/
def State.trackRaise (s : State) (c : Ctx) (k : RaiseKind) (j : Nat) (ls : List Nat) (dest : Nat) : State :=
  ({ s with raises := s.raises ++ [raiseOf s c k j ls (some c.nextSt) dest] } : State).joinOp c.fk .st

/-! ## The raises -/

/-- The largest of the values of G. -/
def maxOf (xs : List (Nat × Nat)) : Nat := (xs.map (·.2)).foldl max 0

def execNbMax (p : BitVec 3) (a b : BitVec 6) (g : BitVec 3) (s : State) : Out :=
  nestOp [one a] [one b] g (fun c s l t ls =>
    let j := (t.reg a.toNat).toNat
    match raiseTarget s c j with
    | some code => (setPreds c.fk (some p.toNat) false ls (setRaise c code ls s), allDone ls)
    | none =>
      if c.fl.full .st then (s, [(l, .hold .classFull)])
      else
        let s1 := s.trackRaise c (.max (maxOf (laneValues s c ls b))) j ls p.toNat
        (ls.foldl (fun s l => s.modThread c.fk l (fun t =>
          if p = 0 then t else { t with pwait := t.pwait ++ [(p.toNat, c.nextSt)] })) s1, allDone ls)) s

def execNbMaxP (a b : BitVec 6) (g : BitVec 3) (s : State) : Out :=
  nestOp [one a] [one b] g (fun c s _ t ls =>
    let j := (t.reg a.toNat).toNat
    match raiseTarget s c j with
    | some code => (setRaise c code ls s, allDone ls)
    | none =>
      let q := raiseOf s c (.max (maxOf (laneValues s c ls b))) j ls none 0
      (setRaise c 0 ls { s with raises := s.raises ++ [q] }, allDone ls)) s

def execNGrow (d a b : BitVec 6) (g : BitVec 3) (s : State) : Out :=
  nestOp [one b] [one d, one a] g (fun c s l t ls =>
    let j := (t.reg b.toNat).toNat
    match raiseTarget s c j with
    | some code =>
      (ls.foldl (fun s l => s.modThread c.fk l (fun t => t.setReg d.toNat 0xFFFFFFFF)) (setRaise c code ls s), allDone ls)
    | none =>
      if c.fl.full .st then (s, [(l, .hold .classFull)])
      else
        let s1 := s.trackRaise c (.grow (laneValues s c ls a)) j ls d.toNat
        (ls.foldl (fun s l => s.modThread c.fk l (fun t =>
          { t with leases := t.leases ++ [{ reg := d.toNat, by_ := .op .st c.nextSt }],
                   trans := t.trans.filter (fun x => decide (x.reg ≠ d.toNat)) })) s1, allDone ls)) s

/-! ## n.launch -/

/-- The launch that a tread makes. -/
def launchOf (s : State) (c : Ctx) (header args record : DWord) (depth : Nat) : Launch :=
  { header := header, args := args, record := record, depth := depth, part := c.tr.part, src := none, waits := false, ready := false,
    gen := none, clock := s.mem.clockOf (c.ld.core / 48), seq := 0 }

/-- The launch depth of the issuing tread's instance. -/
def launchDepth (s : State) (c : Ctx) : Nat :=
  match tget s.runs c.tr.run with
  | some r => r.depth
  | none => 0

/-- The status of a launch that is refused at once (R342). -/
def launchStatus (s : State) (die depth : Nat) : Nat :=
  if 8 < depth then Admit.nestingDepth.code else if s.poolFull die then Admit.poolFull.code else 0

/-- n.launch: a release of the earlier accesses of G (R342, R370). -/
def execNLaunch (p : BitVec 3) (a b : BitVec 6) (g : BitVec 3) (s : State) : Out :=
  nestOp [quad a, pair b] [] g (fun c s l t ls =>
    let r := t.pair b.toNat
    let die := c.ld.core / 48
    if r.toNat % 128 ≠ 0 then (s, laneRes ls l (.trap (dataTrap .misalignedAccess 128 r true)))
    else if !isCanon r || (leaseFor c.tr.leases (va57 r) 8320 false true).isNone then (s, laneRes ls l (.ends 0x40 r true))
    else if !s.releasedUpto c.fk ls s.mem.nextAcc || !s.mem.covers die c.fl.cover then (s, ls.map (fun l => (l, .hold .result)))
    else
      let depth := launchDepth s c + 1
      let st := launchStatus s die depth
      let x := launchOf s c (t.pair a.toNat) (t.pair (a.toNat + 2)) r depth
      if st = 0 then (setPreds c.fk (some p.toNat) true ls (s.enterPool die x), allDone ls)
      else if !s.homesCover c.tr.part (va57 r) 128 x.clock then (s, ls.map (fun l => (l, .hold .result)))
      else
        (setPreds c.fk (some p.toNat) false ls (s.stairwayRecord die c.tr.part r st 0xFFFFFFFF 0 0xFFFFFFFF depth), allDone ls)) s

/-! ## n.signal -/

/-- The place of a byte that a die writes by virtual address. -/
def State.placeOf (s : State) (part va : Nat) : Option Loc :=
  (s.virtPage part va).bind (fun p =>
    if p.w then some { space := (p.at_ va).1, addr := (p.at_ va).2, key := p.key } else none)

/-- n.signal: an atomic addition to the progress word, a release at package scope of the accesses of G. A progress word
that cannot be written takes nothing. -/
def execNSignal (a : BitVec 6) (g : BitVec 3) (s : State) : Out :=
  nestOp [] [one a] g (fun c s l t ls =>
    if c.fl.full .st then (s, [(l, .hold .classFull)])
    else if !s.releasedUpto c.fk ls s.mem.nextAcc then (s, ls.map (fun l => (l, .hold .result)))
    else
      let sum := ((laneValues s c ls a).map (·.2)).foldl (· + ·) 0
      let num := c.nextSt
      let word := va57 (c.tr.record + 0x38)
      let s := s.virtWalk c.tr.part word
      match s.placeOf c.tr.part word with
      | none => ((s.joinOp c.fk .st).completeOp c.fk .st num, allDone ls)
      | some x =>
        let q : AccReq := { kind := .atomic 11, data := sum, cmp := 0, dest := [], signed := false }
        ((enterAccess c { acq := false, rel := true, scope := 6 } 0 8 (some (.st, num)) s l t x q).joinOp c.fk .st, allDone ls)) s

/-! ## n.info -/

/-- The selectors of n.info for one lane. -/
def infoValue (s : State) (c : Ctx) (t : Thread) (j sel : Nat) : Word :=
  match sel with
  | 0 => BitVec.ofNat 32 c.ld.hallBase
  | 1 =>
    match s.nest? c.tr.run j with
    | some (run, n) => BitVec.ofNat 32 (s.view (c.ld.core / 48) c.tr.run j run n).b0
    | none => 0xFFFFFFFF
  | 2 =>
    match t.raise with
    | some x => BitVec.ofNat 32 x
    | none => 0xFFFFFFFF
  | 3 => BitVec.ofNat 32 (launchDepth s c)
  | _ => BitVec.ofNat 32 c.tr.age

def execNInfo (d a b : BitVec 6) (g : BitVec 3) (s : State) : Out :=
  if b.toNat ≤ 4 then
    .next (laneOp s HintUse.none g [one d, one a] (fun c s _ t =>
      .ok (t.setReg d.toNat (infoValue s c t (t.reg a.toNat).toNat b.toNat)) 0))
  else
    .next (match s.ctx? with
      | none => s
      | some c => trapAll c s (trap .illegal 0))

end Sys2Proof.Machine
end

