-- ==== Sys2Proof/Machine/Priv.lean ====
section
/-!
DEFINITION. tlb.inv and part.q (22_host.md R436–R438).
-/

namespace Sys2Proof.Machine

/-! ## Invalidation (R57, R407, R408, R437) -/

/-- A virtual range as tlb.inv names it: first byte, length. -/
structure InvRange where
  part : Nat
  lo   : Nat
  len  : Nat
  deriving DecidableEq, Repr

/-- R437: the canonical addresses of [x, x + n), as numbers of 57 bits: those of one half, since n is below 2^32. A start between
the halves may reach the upper one; nothing follows the last address. -/
def invRange (part : Nat) (x : DWord) (n : Nat) : InvRange :=
  let top := 2 ^ 64 - 2 ^ 56
  if x.toNat < 2 ^ 56 then { part := part, lo := x.toNat, len := min n (2 ^ 56 - x.toNat) }
  else
    let lo := max x.toNat top
    { part := part, lo := lo - top + 2 ^ 56, len := min (x.toNat + n) (2 ^ 64) - lo }

/-- [va, va + n) meets the range. -/
def InvRange.meets (r : InvRange) (va n : Nat) : Bool := decide (va < r.lo + r.len) && decide (r.lo < va + n)

/-- A cached translation is dropped. -/
def InvRange.hits (r : InvRange) (p : PageMap) : Bool := p.part == r.part && r.meets p.va p.size

/-- A code line is dropped: it lies in a page that meets the range, as the tables or some cached translation give it. -/
def InvRange.hitsLine (r : InvRange) (s : State) (cached : List PageMap) (l : CodeLine) : Bool :=
  l.part == r.part &&
  (r.meets (l.va / 4096 * 4096) 4096 || (s.virtPage r.part l.va).any r.hits ||
   cached.any (fun p => decide (p.va ≤ l.va) && decide (l.va < p.va + p.size)))

/-- The pages of [va, stop) that map with the access a lease declares, read from the tables as they are now. -/
def State.rewalk (s : State) (part : Nat) (l : LeaseRange) : Nat → Nat → List PageMap
  | 0, _ => []
  | k + 1, va =>
    if l.base + l.len ≤ va then []
    else
      match s.virtPage part va with
      | none => s.rewalk part l k (va / 4096 * 4096 + 4096)
      | some p =>
        if (l.r && !p.r) || (l.w && !p.w) then s.rewalk part l k (p.va + p.size)
        else p :: s.rewalk part l k (p.va + p.size)

/-- The same walk through the galleries of the tables (R406). -/
def State.rewalked (part : Nat) (l : LeaseRange) : Nat → Nat → State → State
  | 0, _, s => s
  | k + 1, va, s =>
    if l.base + l.len ≤ va then s
    else
      let s1 := s.virtWalk part va
      match s1.virtPage part va with
      | none => State.rewalked part l k (va / 4096 * 4096 + 4096) s1
      | some p => State.rewalked part l k (p.va + p.size) s1

/-- The leased ranges of a partition. -/
def State.leasesIn (s : State) (part : Nat) : List LeaseRange :=
  (s.treads.filter (fun x => x.2.part == part)).flatMap (fun x => x.2.leases) ++
  (s.runs.filter (fun x => x.2.part == part)).flatMap (fun x => x.2.nests.flatMap (·.leases))

/-- The tables of the leased ranges that meet a range are read. -/
def State.readLeases (s : State) (r : InvRange) : State :=
  ((s.leasesIn r.part).filter (fun l => r.meets l.base l.len)).foldl (fun s l =>
    State.rewalked r.part l (l.len / 4096 + 1) l.base s) s

/-- R408: a leased range that meets the range is read again. -/
def State.releasePages (s : State) (r : InvRange) (l : LeaseRange) : LeaseRange :=
  if r.meets l.base l.len then { l with pages := s.rewalk r.part l (l.len / 4096 + 1) l.base } else l

/-- Every translation cache and code cache of the package drops what the range names. -/
def State.invalidate (s0 : State) (r : InvRange) : State :=
  let s := s0.readLeases r
  let m := s.mem
  let cached := ((m.tlb1.flatMap (·.2)) ++ (m.tlb2.flatMap (·.2)) ++ (m.tlbWalk.flatMap (·.2))).filter r.hits
  let pages := fun (t : Tab (List PageMap)) => (t.map (fun x => (x.1, x.2.filter (fun p => !r.hits p)))).filter (fun x => !x.2.isEmpty)
  let code := fun (t : Tab (List CodeLine)) => (t.map (fun x => (x.1, x.2.filter (fun l => !r.hitsLine s cached l)))).filter (fun x => !x.2.isEmpty)
  let leases := fun (ls : List LeaseRange) => ls.map (s.releasePages r)
  { s with
    mem := { m with tlb1 := pages m.tlb1, tlb2 := pages m.tlb2, tlbWalk := pages m.tlbWalk, l0 := code m.l0, ccache := code m.ccache }
    treads := s.treads.map (fun x => (x.1, if x.2.part = r.part then { x.2 with leases := leases x.2.leases } else x.2))
    runs := s.runs.map (fun x => (x.1,
      if x.2.part = r.part then { x.2 with nests := x.2.nests.map (fun n => { n with leases := leases n.leases }) } else x.2)) }

/-- R110, R437: the checks of a lane: handler mode, then registers. -/
def privTrap (n : Nat) (t : Thread) (us : List RegUse) : Option Trap :=
  if !t.hmode then some (trap .privileged 0) else regTrap n t us

/-- tlb.inv. The mode check is of every guard-true lane, and those outside handler mode trap; what follows is of the lowest
lane of the others, which then go on. -/
def execTlbInv (a b : BitVec 6) (g : BitVec 3) (s : State) : Out :=
  .next (issue s HintUse.none g (fun c ls0 s =>
    let x := splitLanes s c.fk ls0 (fun t => if t.hmode then none else some (trap .privileged 0))
    let ls := x.1.map (·.1)
    let l := ls.headD 0
    match s.thread? c.fk l, ls.isEmpty, x.2 with
    | none, _, bad => (s, bad)
    | some _, true, bad => (s, bad)
    | some _, false, b :: bad => (s, b :: bad ++ x.1.map (fun p => (p.1, .hold .result)))
    | some t, false, [] =>
      match regTrap c.ld.regs t [pair a, one b] with
      | some x => (s, laneRes ls l (.trap x))
      | none =>
        if anyAwaits s c.fk (allRegs [pair a, one b]) [l] then (s, [(l, .hold .register)])
        else if !s.releasedUpto c.fk [l] s.mem.nextAcc then (s, laneRes ls l (.hold .result))
        else
          let r := invRange c.tr.part (t.pair a.toNat) (t.reg b.toNat).toNat
          if r.len = 0 then (s, allDone ls) else (s.invalidate r, allDone ls)))

/-- Free pages of a partition's save region (R437). -/
def State.freeSavePages (s : State) (part : Nat) : Nat :=
  match tget s.parts part with
  | none => 0
  | some p =>
    let used := ((s.savesOf part p.saveStart).map (fun u => ceilDiv u.2 4096)).foldl (· + ·) 0
    min (p.saveRoom / 4096 - used) (2 ^ 32 - 1)

/-- The selectors of part.q. -/
def partValue (s : State) (c : Ctx) (sel : Nat) : Nat :=
  match tget s.parts c.tr.part, sel with
  | _, 0 => c.tr.part
  | some p, 1 => p.cores.length
  | some p, 2 => p.keys.length
  | some p, 3 => p.tabKey
  | _, 4 => s.freeSavePages c.tr.part
  | _, 5 => if s.requested c.tr then 1 else 0
  | _, _ => 0

/-- part.q; a selector above 5 is refused by the decoder and traps in every thread. -/
def execPartQ (d b : BitVec 6) (g : BitVec 3) (s : State) : Out :=
  if b.toNat ≤ 5 then
    .next (issue s HintUse.none g (fun c ls s =>
      if anyAwaits s c.fk [d.toNat] ls then (s, [(ls.headD 0, .hold .register)])
      else laneBody [] (fun c s _ t =>
        match privTrap c.ld.regs t [one d] with
        | some x => .trap x
        | none => .ok (t.setReg d.toNat (BitVec.ofNat 32 (partValue s c b.toNat))) 0) c ls s))
  else
    .next (match s.ctx? with
      | none => s
      | some c => trapAll c s (trap .illegal 0))

end Sys2Proof.Machine
end

