-- ==== Sys2Proof/Machine/Dispatching.lean ====
section
/-!
DEFINITION. Dispatch and stealing (15_nests.md R332, R333; 16_phases.md R351, R352): DISPATCH, STEAL_REQUEST, STEAL_ANSWER,
STEAL_BACKOFF.
-/

namespace Sys2Proof.Machine

/-! ## Dispatch (R332) -/

/-- The placements held for a point of a concurrent nest. -/
def Nest.placesOf (n : Nest) (p : List Int) : Option (List Placement) := (n.reserved.find? (fun x => x.1 == p)).map (·.2)

/-- The placements of a point are taken. -/
def Nest.takePlaces (n : Nest) (p : List Int) : Nest := { n with reserved := n.reserved.filter (fun x => x.1 != p) }

/-- The die's previous placement is on some cores: of a span the last counts (DESIGN CHOICE, log entry 93). A grace of 0 forces a
save as its landing is placed (R353). -/
def State.placedOn (s : State) (die : Nat) (cores : List Nat) : State :=
  (s.modDie die (fun d => { d with lastCore := (cores.getLast?.getD d.lastCore) % 48 })).graceAll

/-- A fresh tread starts, if its die has seen what its start acquires (R381) and it fits. -/
def State.dispatchFresh (s : State) (die tid : Nat) (t : Tread) (n : Nest) : Option State :=
  if !s.mem.covers die t.needs then none
  else
    let ps := if n.desc.cls = 2 then n.placesOf t.point
      else s.findPlace die (s.die die).lastCore t.part t.span n.desc.header.regs n.desc.header.flights
        (n.desc.header.hall + n.desc.header.recordLen)
    ps.map (fun ps =>
      let s1 := (s.dequeue die tid).modNest t.run t.nest (fun n => n.takePlaces t.point)
      (s1.startTread n.desc tid ps [0, 0, 0, 0]).placedOn die (ps.map (·.core)))

/-- One tread of a concurrent nest resumes on the placements held for it. -/
def State.resumeReserved (s : State) (die tid : Nat) : State :=
  match tget s.treads tid with
  | none => s
  | some t =>
    match (s.nestOf t).bind (fun n => n.placesOf t.point) with
    | none => s
    | some ps =>
      let s1 := (s.dequeue die tid).modNest t.run t.nest (fun n => n.takePlaces t.point)
      (s1.resumeTread tid t (ps.map (fun p => (p.core, p.bays)))).placedOn die (ps.map (·.core))

/-- R352: the landings of a concurrent nest resume together, once no request has yet to pre-empt another of them. -/
def State.resumeTogether (s : State) (die : Nat) (t : Tread) : Option State :=
  let same := fun (x : Tread) => x.run == t.run && x.nest == t.nest
  if s.treads.any (fun x => same x.2 && (x.2.stage == .running || x.2.stage == .saving) &&
      (s.requestFor x.2 (fun _ => true)).isSome) then none
  else
    let ids := (s.die die).queue.filter (fun k => (tget s.treads k).any (fun x =>
      same x && x.ending.isNone && !x.cancelled && (x.stage == .spilled || x.stage == .saved)))
    if ids.any (fun k => (tget s.treads k).any (fun x => !s.mem.covers die x.needs)) then none
    else some (ids.foldl (fun s k => s.resumeReserved die k) s)

/-- A spilled or saved tread resumes, if its die has seen what was saved of it (R381) and it fits (R351, R354). -/
def State.dispatchResumed (s : State) (die tid : Nat) (t : Tread) (n : Nest) : Option State :=
  if !s.mem.covers die t.needs then none
  else if n.desc.cls = 2 then s.resumeTogether die t
  else
    (s.headLanding t).bind (fun l =>
      (s.findResume t l (s.die die).lastCore).map (fun seats =>
        ((s.dequeue die tid).resumeTread tid t seats).placedOn die (seats.map (·.1))))

/-- One entry of the queue. -/
def State.dispatchEntry (s : State) (die tid : Nat) (t : Tread) (n : Nest) : Option State :=
  if t.stage = .queued then s.dispatchFresh die tid t n else s.dispatchResumed die tid t n

/-- R332: the oldest entry first; one of a weakly parallel nest that fits nowhere is passed over. A tread that was ended or
cancelled in the queue is never placed (R351). -/
def State.dispatchFrom (s : State) (die : Nat) : List Nat → State
  | [] => s
  | tid :: rest =>
    match tget s.treads tid with
    | none => s.dispatchFrom die rest
    | some t =>
      match s.nestOf t with
      | none => s.dispatchFrom die rest
      | some n =>
        if t.ending.isSome || t.cancelled then s.dispatchFrom die rest
        else
          match s.dispatchEntry die tid t n with
          | some s1 => s1
          | none => if n.desc.cls = 0 then s.dispatchFrom die rest else s

/-- R352: what a move request has taken off its cores, or has met spilled, in a die's queue, and is to resume at once. -/
def State.movers (s : State) (die : Nat) : List Nat :=
  (s.die die).queue.filter (fun k => (tget s.treads k).any (fun t => t.atOnce && t.ending.isNone && !t.cancelled))

/-- R352: a moved tread for which no core was found waits in the queue from here on, in its order; one whose die has yet to see what was
saved of it has not been looked for, and one of a concurrent nest waits for the others of its nest. -/
def State.moverWaits (s : State) (die tid : Nat) (t : Tread) (n : Nest) : State :=
  if s.mem.covers die t.needs && n.desc.cls != 2 then s.modTread tid (fun t => { t with atOnce := false }) else s

/-- R352: the first of the moved treads that a core fits resumes, ahead of what waits in its die's dispatch queue. -/
def State.dispatchMoved (s : State) (die : Nat) : List Nat → State × Bool
  | [] => (s, false)
  | tid :: rest =>
    match tget s.treads tid with
    | none => s.dispatchMoved die rest
    | some t =>
      match s.nestOf t with
      | none => s.dispatchMoved die rest
      | some n =>
        match s.dispatchResumed die tid t n with
        | some s1 => (s1, true)
        | none => (s.moverWaits die tid t n).dispatchMoved die rest

/-- DISPATCH. -/
def State.dispatch (s : State) (die : Nat) : State :=
  let r := s.dispatchMoved die (s.movers die)
  if r.2 then r.1 else r.1.dispatchFrom die (r.1.die die).queue

def execPhaseSpill (tid : Nat) (s : State) : Out := .next (s.phaseSpill tid)

def execForcedSave (tid : Nat) (s : State) : Out := .next (s.forcedSave tid)

def execDispatch (die : Nat) (s : State) : Out := .next (s.dispatch die)

/-! ## Stealing (R333) -/

/-- R12: the successor of a die in ring order 0, 1, 3, 2. -/
def ringNext (d : Nat) : Nat :=
  match d with
  | 0 => 1
  | 1 => 3
  | 3 => 2
  | _ => 0

/-- The die that a thief asks after `k` empty answers. -/
def victimAfter : Nat → Nat → Nat
  | 0, d => ringNext d
  | k + 1, d => victimAfter k (ringNext d)

/-- A released, undispatched tread that a thief may take. -/
def State.stealable (s : State) (thief tid : Nat) : Bool :=
  match tget s.treads tid with
  | none => false
  | some t => t.stage == .queued && (s.coresOf t.part).any (fun c => decide (c / 48 = thief)) &&
      (s.nestOf t).any (fun n => n.desc.migr && n.desc.cls != 2)

/-- The victim hands over up to eight treads, oldest first. -/
def State.handOver (s : State) (thief victim : Nat) : State :=
  let ts := ((s.die victim).queue.filter (s.stealable thief)).take 8
  (s.modDie victim (fun d => { d with queue := d.queue.filter (fun k => !ts.contains k) })).modDie thief (fun d =>
    { d with steal := { d.steal with answer := some ts } })

/-- STEAL_REQUEST: a die whose dispatch queue is empty asks the next die; the request reaches that die, which hands over what
it may. -/
def State.stealRequest (s : State) (d : Nat) : State :=
  let x := (s.die d).steal
  match x.asked with
  | some v => if x.answer.isNone then s.handOver d v else s
  | none =>
    if (s.die d).queue.isEmpty && x.backoff.isNone && decide (d < 4) then
      s.modDie d (fun y => { y with steal := { y.steal with asked := some (victimAfter y.steal.empties d) } })
    else s

def execStealRequest (die : Nat) (s : State) : Out := .next (s.stealRequest die)

/-- A stolen tread enters the thief's queue in age order; it keeps its age and its owner. -/
def State.takeStolen (s : State) (thief tid : Nat) : State :=
  match tget s.treads tid with
  | none => s
  | some t =>
    ((s.modTread tid (fun t => { t with die := thief })).modNest t.run t.nest (fun n => { n with steals := n.steals + 1 })).enqueue
      thief tid

/-- STEAL_ANSWER: the answer reaches the thief: the treads enter its queue, or it turns to the next die, or waits. -/
def State.stealAnswer (s : State) (d : Nat) : State :=
  match (s.die d).steal.answer with
  | none => s
  | some (t :: ts) => (t :: ts).foldl (fun s k => s.takeStolen d k) (s.modDie d (fun y => { y with steal := Steal.idle }))
  | some [] =>
    s.modDie d (fun y =>
      let k := y.steal.empties + 1
      { y with steal := { empties := k % 3, asked := none, answer := none,
                          backoff := if k = 3 then some (tgetD 0 s.cycles d) else none } })

def execStealAnswer (die : Nat) (s : State) : Out := .next (s.stealAnswer die)

/-- STEAL_BACKOFF: the wait of 256 cycles is over. -/
def State.stealBackoff (s : State) (d : Nat) : State :=
  match (s.die d).steal.backoff with
  | none => s
  | some c => if c + 256 ≤ tgetD 0 s.cycles d then s.modDie d (fun y => { y with steal := Steal.idle }) else s

def execStealBackoff (die : Nat) (s : State) : Out := .next (s.stealBackoff die)

end Sys2Proof.Machine
end

