-- ==== Sys2Proof/Machine/Bays.lean ====
section
/-!
DEFINITION. Which flight a bay issues for (10_core.md R209–R211) and which group of a flight (05_thread.md R97–R99):
FAIRNESS_TIMER, DEFERRED_SWITCH, FLIGHT_SWAP, ACTIVE_SET_FILL, AGING.
-/

namespace Sys2Proof.Machine

/-! ## Flights of a bay -/

/-- A flight with its key, its landing and its tread. -/
structure Resident where
  fk : Nat
  fl : Flight
  ld : Landing
  tr : Tread
  deriving DecidableEq, Repr

/-- The flights resident on a bay. -/
def State.bayFlights (s : State) (core bay : Nat) : List Resident :=
  s.flights.filterMap (fun p =>
    match tget s.landings (landingOf p.1) with
    | none => none
    | some l =>
      if l.core = core ∧ p.2.bay = bay ∧ !l.freed then (tget s.treads l.tid).map (fun t => { fk := p.1, fl := p.2, ld := l, tr := t })
      else none)

/-- R209: the flight has a group that can issue. -/
def State.canIssue (s : State) (x : Resident) : Bool :=
  !(s.halts x.tr x.fk x.fl || s.stopped x.tr.part || x.ld.boundary) &&
  (match x.fl.hint with
    | some _ => true
    | none => !(s.readyLanes x.fk).isEmpty)

/-- R211: every group of the flight is held by a long stall, and it has one. -/
def State.longStalled (s : State) (fk : Nat) : Bool :=
  lanes8.any (fun l => (s.thread? fk l).any (fun t => t.cond == .running)) &&
  lanes8.all (fun l => match s.thread? fk l with
    | some t => t.cond != .running || (match t.held with
      | some st => st.long
      | none => false)
    | none => true)

/-- The flight can leave the active set: it has not ended, it holds no live transient value (R104, R211), and no hint group of
it is open (R48). -/
def State.movable (s : State) (x : Resident) : Bool :=
  x.fl.active && !s.flightEnded x.fk x.ld && !s.holdsTransient x.fk && x.fl.hint.isNone

/-- The order of flights by age, ties by flight. -/
def Resident.older (a b : Resident) : Bool :=
  olderAge (a.tr.age, a.tr.owner) (b.tr.age, b.tr.owner) ||
  (!olderAge (b.tr.age, b.tr.owner) (a.tr.age, a.tr.owner) && decide (a.fk < b.fk))

/-- The oldest ready flight of the pending set. -/
def State.pendingReady (s : State) (fs : List Resident) : Option Resident :=
  leastBy Resident.older (fs.filter (fun x => !x.fl.active && s.canIssue x))

/-- A flight leaves the active set; it enters the pending set at this cycle. -/
def State.toPending (s : State) (core fk : Nat) : State :=
  s.modFlight fk (fun f => { f with active := false, advice := false, since := tgetD 0 s.cycles (core / 48) })

/-- A flight enters the active set. -/
def State.toActive (s : State) (fk : Nat) : State := s.modFlight fk (fun f => { f with active := true })

/-! ## Swaps (R211) -/

/-- R211: the bay has not moved a flight between its sets in this cycle. -/
def State.mayMove (s : State) (core bay : Nat) : Bool := tget s.moved (8 * core + bay) != some (s.cycleOf core)

/-- The bay has moved a flight between its sets. -/
def State.noteMove (s : State) (core bay : Nat) : State := { s with moved := tput s.moved (8 * core + bay) (s.cycleOf core) }

/-- The active flight that a swap moves out: one that a hint or a yield has advised, else one that is stalled. Of several the
spec names none; the model moves out the oldest (DESIGN CHOICE, log entry 63). -/
def State.swapOut (s : State) (fs : List Resident) : Option Resident :=
  let act := fs.filter s.movable
  match leastBy Resident.older (act.filter (fun x => x.fl.advice)) with
  | some x => some x
  | none => leastBy Resident.older (act.filter (fun x => s.longStalled x.fk))

/-- Advice that found no ready pending flight has no effect. -/
def State.dropAdvice (s : State) (fs : List Resident) : State :=
  fs.foldl (fun s x => s.modFlight x.fk (fun f => { f with advice := false })) s

/-- FLIGHT_SWAP, unless the bay has made its one move of this cycle. -/
def State.flightSwap (s : State) (core bay : Nat) : State :=
  let fs := s.bayFlights core bay
  if s.mayMove core bay then
    match s.swapOut fs, s.pendingReady fs with
    | some x, some y => ((s.toPending core x.fk).toActive y.fk).noteMove core bay
    | _, _ => s.dropAdvice fs
  else s

def execFlightSwap (core bay : Nat) (s : State) : Out := .next (s.flightSwap core bay)

/-- ACTIVE_SET_FILL: a ready pending flight enters an active set with room: the bay's one move of its cycle. -/
def State.activeSetFill (s : State) (core bay : Nat) : State :=
  if s.activeRoom core bay && s.mayMove core bay then
    match s.pendingReady (s.bayFlights core bay) with
    | some y => (s.toActive y.fk).noteMove core bay
    | none => s
  else s

def execActiveSetFill (core bay : Nat) (s : State) : Out := .next (s.activeSetFill core bay)

/-- AGING: a ready pending flight that has waited 65,536 cycles takes the place of the youngest active flight that holds no
live transient value and has no hint group open (R48). The spec does not say which of several aged flights goes first, nor
which of equally young flights gives way: the model takes the oldest, and the highest flight (DESIGN CHOICE, log entry 63). -/
def State.aging (s : State) (core bay : Nat) : State :=
  let fs := s.bayFlights core bay
  let now := s.cycleOf core
  let old := leastBy Resident.older (fs.filter (fun x => !x.fl.active && s.canIssue x && decide (x.fl.since + 65536 ≤ now)))
  let young := leastBy (fun a b => Resident.older b a) (fs.filter s.movable)
  match old, young with
  | some y, some x => if s.mayMove core bay then ((s.toPending core x.fk).toActive y.fk).noteMove core bay else s
  | _, _ => s

def execAging (core bay : Nat) (s : State) : Out := .next (s.aging core bay)

/-! ## The fairness timer (R98, R99) -/

/-- The lanes of the group that holds the slot, held or not. -/
def State.holderLanes (s : State) (x : Resident) : List Nat := lanes8.filter (s.together x.fk x.fl.lead)

/-- R98: the timer has reached its period, a group other than the holder of the slot is ready, and no hint group is open. -/
def State.switchDue (s : State) (x : Resident) : Bool :=
  decide (s.fairPeriod x.tr.part ≤ x.fl.timer) && x.fl.hint.isNone && s.canIssue x && x.fl.gives == .no &&
  (s.readyLanes x.fk).any (fun p => !(s.holderLanes x).contains p.1)

/-- R99: a thread of the executing group is inside a constrained sequence. -/
def State.inSequence (s : State) (x : Resident) : Bool :=
  (s.holderLanes x).any (fun l => (s.thread? x.fk l).any (fun t => t.lrsc.isSome))

/-- R98, R104: a thread of the executing group holds a live transient value. -/
def State.groupTransient (s : State) (x : Resident) : Bool :=
  (s.holderLanes x).any (fun l => (s.thread? x.fk l).any (fun t => !t.trans.isEmpty))

/-- The group gives the slot up: it passes to the next ready group (R97; State.leadLane), and the timer starts again as that group
issues (R98; Flight.passed). -/
def State.switchGroup (s : State) (x : Resident) : State := s.modFlight x.fk (fun f => { f with gives := .timer })

/-- R164: a yield that found no other ready group, now that the slot is back with its group, acts as the advice to swap, which is
ignored while a transient value is live (R171). -/
def State.noteYield (s : State) (x : Resident) : State :=
  if x.fl.gives == .yield && (s.leadLane x.fk x.fl).all (fun l => (s.holderLanes x).contains l) then
    s.modFlight x.fk (fun f => { f with gives := .no, advice := f.advice || !s.holdsTransient x.fk })
  else s

/-- The flight of a key with its surroundings. -/
def State.resident? (s : State) (fk : Nat) : Option Resident :=
  match tget s.flights fk, tget s.landings (landingOf fk) with
  | some f, some l => (tget s.treads l.tid).map (fun t => { fk := fk, fl := f, ld := l, tr := t })
  | _, _ => none

/-- FAIRNESS_TIMER: a switch that is due and not deferred. -/
def State.fairnessTimer (s : State) (fk : Nat) : State :=
  match s.resident? fk with
  | none => s
  | some x => if s.switchDue x && !s.inSequence x && !s.groupTransient x then s.switchGroup x else s

def execFairnessTimer (fk : Nat) (s : State) : Out := .next (s.fairnessTimer fk)

/-- DEFERRED_SWITCH: a deferred switch whose sequence has ended, or 64 instructions after the timer expired. A live transient
value of the group defers it in any case (R104). -/
def State.deferredSwitch (s : State) (fk : Nat) : State :=
  match s.resident? fk with
  | none => s
  | some x =>
    if s.switchDue x && (!s.inSequence x || decide (64 ≤ x.fl.tally)) && !s.groupTransient x then s.switchGroup x else s

def execDeferredSwitch (fk : Nat) (s : State) : Out := .next (s.deferredSwitch fk)

end Sys2Proof.Machine
end

