-- ==== Sys2Proof/Machine/Contain.lean ====
section
/-!
DEFINITION. Partition reset and the containment of failures (22_host.md R429; 21_memory.md R418, R419; 14_cluster.md R316), and
GALLERY_FILL (R312, R313).
-/

namespace Sys2Proof.Machine

/-! ## Partition reset (R429) -/

/-- The core whose slice holds a hall byte. -/
def hallCore (a : Nat) : Nat := a / 2 ^ 26 * 24 + a % 2 ^ 26 / 2 ^ 21

/-- Step 2: hall slices and accumulator tiles zero, Colonnades and activation tables at their reset state, the hall queues
of the slices gone. -/
def State.zeroCores (s : State) (cores : List Nat) : State :=
  let hall := fun (a : Nat) => cores.contains (hallCore a)
  { s with
    mem := { s.mem with
      hall := s.mem.hall.filter (fun c => !hall c.1)
      hallBad := s.mem.hallBad.filter (fun a => !hall a)
      ranges := s.mem.ranges.filter (fun x => !cores.contains x.1) }
    tiles := s.tiles.filter (fun x => !cores.contains (x.1 / 64 / 96))
    clacs := s.clacs.filter (fun x => !cores.contains x.1)
    act := s.act.filter (fun x => !cores.contains x.1)
    hqueues := s.hqueues.filter (fun x => !hall x.1) }

/-- Step 3: the partition's translations and code lines go, pinned ones too (R57). -/
def State.dropTranslations (s : State) (part : Nat) : State :=
  let pages := fun (t : Tab (List PageMap)) => (t.map (fun x => (x.1, x.2.filter (fun p => p.part != part)))).filter (fun x => !x.2.isEmpty)
  let code := fun (t : Tab (List CodeLine)) => (t.map (fun x => (x.1, x.2.filter (fun l => l.part != part)))).filter (fun x => !x.2.isEmpty)
  { s with mem := { s.mem with
      tlb1 := pages s.mem.tlb1, tlb2 := pages s.mem.tlb2, tlbWalk := pages s.mem.tlbWalk, l0 := code s.mem.l0, ccache := code s.mem.ccache } }

/-- Step 4: the partition's queues are unbound; its rings are emptied (R444), messages that its
channels have begun to take are dropped (R461); its debug token lapses (R433). -/
def State.unbindPart (s : State) (part : Nat) : State :=
  { s with
    eloa := s.eloa.filter (fun x => x.2.part != some part)
    rings := s.rings.map (fun x => (x.1, if x.2.part = part then { x.2.emptied with waiters := [] } else x.2))
    chans := s.chans.map (fun x => (x.1, if x.2.part = part then { x.2 with early := [] } else x.2))
    parts := tmod s.parts part (fun p => { p with resetting := false, halted := false, token := none, nonce := [] })
    fw := { s.fw with sessions := s.fw.sessions.filter (· != part) } }

/-- A launch of the partition that waits is removed, as a cancellation removes it (R428). -/
def State.dropLaunches (s : State) (part : Nat) : State :=
  allDies.foldl (fun s d => ((s.die d).pool.filter (fun l => l.part == part)).foldl (fun s l =>
    s.failLaunch d l Admit.cancelled.code 0xFFFFFFFF) s) s

/-- A reset begins: every instance of the partition is cancelled. -/
def State.beginReset (s : State) (part : Nat) : State :=
  ({ s with parts := tmod s.parts part (fun p => { p with resetting := true }) } : State).cancelAll part |>.dropLaunches part

/-- A reset ends once no tread of the partition is left. -/
def State.endReset (s : State) (part : Nat) : State :=
  if s.resetting part && !s.treads.any (fun t => t.2.part == part) then
    ((s.zeroCores (s.coresOf part)).dropTranslations part).unbindPart part
  else s

/-- A partition reset, as far as it can go now. -/
def State.resetPart (s : State) (part : Nat) : State :=
  (if s.resetting part then s else s.beginReset part).endReset part

/-! ## Containment (R418, R419) -/

/-- A device page holds a physical tile. -/
def PageMap.holds (p : PageMap) (tile : Nat) : Bool :=
  !p.host && decide (p.pa / 4096 ≤ tile) && decide (tile < p.pa / 4096 + p.size / 4096)

/-- The nest instances with a tile in their leases. -/
def State.holders (s : State) (tile : Nat) : List (Nat × Nat) :=
  s.runs.flatMap (fun r => (r.2.nests.zipIdx.filter (fun n =>
    !n.1.sealed && n.1.leases.any (fun l => l.pages.any (fun p => p.holds tile)))).map (fun n => (r.1, n.2)))

/-- The partition that a physical tile belongs to (R404). -/
def State.ownerOf (s : State) (tile : Nat) : Option Nat :=
  (s.parts.find? (fun p => p.2.pages.any (fun r => decide (r.1 ≤ tile) && decide (tile < r.1 + r.2)))).map (·.1)

/-- Log a failure (R418). -/
def State.logError (s : State) (tile scope kind : Nat) : State :=
  { s with mem := { s.mem with errors := s.mem.errors ++
      [{ stack := bits tile 25 3, tile := tile, scope := scope, kind := kind, time := tgetD 0 s.cycles (bits tile 25 3 / 2) }] } }

/-- A partition is notified. -/
def State.notePart (s : State) (part : Nat) : State :=
  { s with parts := tmod s.parts part (fun p => { p with notices := p.notices + 1 }) }

/-- R419: contain a failure of a tile. `lost` says that a write was lost or the metadata failed; `by_` is the nest of the tread that
met it. A clean tile of one nest that another agent has met takes the next scope, that of the instance (DESIGN CHOICE, log entry
17). -/
def State.contain (s : State) (tile kind : Nat) (lost : Bool) (by_ : Option (Nat × Nat)) : State :=
  match s.holders tile with
  | [(r, j)] =>
    if lost || by_ != some (r, j) then
      let s1 := (s.logError tile 1 kind).cancelRun r
      match tget s.runs r with
      | some run => s1.notePart run.part
      | none => s1
    else s.logError tile 0 kind
  | _ =>
    match s.ownerOf tile with
    | none => s.logError tile 0 kind
    | some p => ((s.logError tile 2 kind).notePart p).resetPart p

/-- The failures that the last turn met are contained. -/
def State.containFound (s : State) : State :=
  s.mem.found.foldl (fun s x => s.contain x.1 x.2.1 (x.2.1 == 3) x.2.2) { s with mem := { s.mem with found := [] } }

/-! ## GALLERY_FILL -/

/-- A fill of a tile reads its rows (R411: no data is read of an unwritten, stale or poisoned tile). -/
def Memory.readsRows (m : Memory) (t k : Nat) : Bool := !m.blank t k && !(m.metaOf t).poisoned

/-- R402: a request waits for the rows of its bank: a fill that reads them, unless its key id's sub-queue is throttled, a write-back
likewise, the system sub-queue in any case. -/
def Memory.queued (m : Memory) (f : FillReq) : Bool :=
  match f.kind with
  | .fill => m.readsRows f.tile f.key && !m.throttles f.tile f.key
  | .writeBack => !m.throttles f.tile f.key
  | .sweep => true

/-- R402: the requests of a bank that are not in a throttled sub-queue, oldest first. -/
def Memory.bankQueue (m : Memory) (t : Nat) : List FillReq := m.fills.filter (fun f => bankGroup f.tile == bankGroup t && m.queued f)

/-- R402: between two memories rows of a bank have been used for a tile, while older requests wait there for other tiles. The
requests of engines, the host, walks and code fetches, evictions from outside and direct writes all go behind what waits, and hit no
open row ahead of it (DESIGN CHOICE, log entry 96). -/
def Memory.jumpsQueue (m m1 : Memory) : Bool :=
  !m.fills.isEmpty && (m.rowsUsed m1).any (fun x => (m.bankQueue x.1).any (fun f => f.tile != x.1))

/-- R402: the request is the oldest one of its bank. -/
def Memory.oldestAtBank (m : Memory) (t k : Nat) : Bool := (m.bankQueue t).head?.all (fun f => f.tile == t && f.key == k)

/-- R402: the request hits the open row, and fewer than 4 have been served so before the oldest. -/
def Memory.mayHit (m : Memory) (t : Nat) : Bool :=
  match tget m.rowHits (bankGroup t) with
  | some (x, n) => x == t && decide (n < 4)
  | none => false

/-- R402: the bank serves a request for a tile now. -/
def Memory.bankServes (m : Memory) (t k : Nat) : Bool :=
  !m.readsRows t k || (!m.throttles t k && (m.oldestAtBank t k || m.mayHit t))

/-- R402: the bank counts the hits that it has served since the last oldest request. -/
def Memory.countHit (m m1 : Memory) (t k : Nat) : Memory :=
  if !m.readsRows t k || m.oldestAtBank t k then m1
  else { m1 with rowHits := tmod m1.rowHits (bankGroup t) (fun x => (x.1, x.2 + 1)) }

/-- What a fill finds: the worse of what the tile has suffered already and 1 a tag that fails, 2 uncorrectable data, 3 uncorrectable
metadata. -/
def Memory.suffer (m : Memory) (t v : Nat) : Memory := if v = 0 then m else { m with damaged := tmodD 0 m.damaged t (max (min v 3)) }

/-- The priority of a fill: that of the access that asked (R313). -/
def Memory.fillPrio (m : Memory) (t k prio : Nat) : Nat :=
  match m.fills.find? (fun f => f.kind == .fill && f.tile == t && f.key == k) with
  | some f => f.prio
  | none => prio

/-- The nest of the tread that has asked for a fill (R419). -/
def Memory.fillAsker (m : Memory) (t k : Nat) : Option (Nat × Nat) :=
  (m.fills.find? (fun f => f.kind == .fill && f.tile == t && f.key == k)).bind (·.by_)

/-- R402: what a fill's victims have written back takes its place in the sub-queues of its key ids: the rows are activated when the
bank serves it. Its bytes stand in the stack from the fill on, since whatever reads them reads what was written (log entry 96). -/
def Memory.queueWriteBacks (m m1 : Memory) (t k : Nat) : Memory :=
  let a := if (m.dropOther t k).readsRows t k then m.activate t else m
  { m1 with
    acts := a.acts, rowHits := a.rowHits, throttled := a.throttled
    fills := m1.fills ++ (m1.tmeta.filter (fun p => p.2.rewritten (m.metaOf p.1))).map (fun p =>
      { tile := p.1, key := p.2.key, prio := 0, by_ := none, kind := .writeBack }) }

/-- R402: the banks serve the write-backs that come next. -/
def Memory.serveWriteBacks (m : Memory) : Memory :=
  m.fills.foldl (fun m f =>
    if f.kind = .writeBack && (m.bankQueue f.tile).head? == some f then { m.activate f.tile with fills := m.fills.erase f } else m) m

/-- GALLERY_FILL: a tile becomes resident when its bank serves the request; a failure found by the fill is contained. A fill that no
access has asked for brings in a written tile only. The write-backs of earlier victims that come next at their banks are served
first (R402). -/
def State.galleryFill (s0 : State) (tile key prio v : Nat) : State :=
  let s : State := { s0 with mem := s0.mem.serveWriteBacks }
  let asked := s.mem.fills.any (fun f => f.kind == .fill && f.tile == tile && f.key == key)
  let done := fun (m : Memory) => { m with fills := m.fills.filter (fun f => !(f.kind == .fill && f.tile == tile && f.key == key)) }
  if !asked && s0.mem.fills.any (fun f => f.kind == .writeBack && f.tile == tile && f.key == key) then s
  else if (s.mem.resident? tile key).isSome then { s with mem := done s.mem }
  else if !s.mem.bankServes tile key || (!asked && s.mem.blank tile key) then s
  else
    let m := (s.mem.suffer tile v).fillFor (s.mem.fillAsker tile key) tile key (s.mem.fillPrio tile key prio)
    ({ s with mem := done (s.mem.countHit (s.mem.queueWriteBacks m tile key) tile key) } : State).containFound

def execGalleryFill (tile key prio verdict : Nat) (s : State) : Out := .next (s.galleryFill tile key prio verdict)

end Sys2Proof.Machine
end

