-- ==== Sys2Proof/Machine/MemEvents.lean ====
section
/-!
DEFINITION. What happens to the stacks from inside the package (21_memory.md R402, R408, R414–R416, R420; 14_cluster.md R316;
15_nests.md R344): throttles, sweeps, clears, scrubs, page migration, recalibration, losses of links and meshes.
-/

namespace Sys2Proof.Machine

/-! ## Throttles (R402) -/

/-- A row may be throttled: it has been activated often enough, and the key id is its tenant's. -/
def Memory.overActive (m : Memory) (row key : Nat) : Bool :=
  decide (throttleAt ≤ tgetD 0 m.acts (row / 4)) && (m.metaOf (row / 4)).key == key

/-- ROW_THROTTLE, which Memory.activate also does by itself: rows are named by physical tile and quarter, `4 * tile + j` (R401). -/
def execRowThrottle (row key : Nat) (s : State) : Out :=
  .next (if s.mem.throttled.contains (row, key) || !s.mem.overActive row key then s
    else { s with mem := { s.mem with throttled := s.mem.throttled ++ [(row, key)] } })

/-- THROTTLE_RELEASE: the bank has refreshed the row's neighbours. -/
def execThrottleRelease (row key : Nat) (s : State) : Out :=
  .next { s with mem := { s.mem with throttled := s.mem.throttled.filter (· != (row, key)) } }

/-! ## Rotation (R414) -/

/-- A tile of a rotating key id still names the old slot. -/
def namesOldSlot (key : Nat) (e : KeyEntry) (x : TileMeta) : Bool :=
  x.key == key && !x.unwritten && x.gen == e.gen && x.slot != e.cur

/-- The number of the next fresh key. -/
def State.freshKey (s : State) : State × Nat := ({ s with fw := { s.fw with secret := s.fw.secret + 1 } }, s.fw.secret + 1)

/-- Step 1 of R414: a fresh key in the slot other than the current one. -/
def State.rotateKey (s : State) (key : Nat) : State :=
  let e := s.mem.keyOf key
  let f := s.freshKey
  let e1 : KeyEntry := { e with
    state := .rotating, cur := e.cur + 1, slots := if e.cur = 0 then (e.slots.1, f.2) else (f.2, e.slots.2) }
  { f.1 with mem := f.1.mem.setKey key e1 }

/-- R414: a tile is read and written under the current slot with counter 0; a poisoned one stays poisoned, and one whose read
fails becomes poisoned (R418). -/
def Memory.sweepTile (m : Memory) (tile key : Nat) : Memory :=
  let x := m.metaOf tile
  let e := m.keyOf key
  let d := m.fillFault tile key
  let x1 : TileMeta := { x with version := 0, epoch := 0, exhausted := false, slot := e.cur, poisoned := x.poisoned || d != 0 }
  ((m.noteFault tile d).activate tile).setMeta tile (x1.tagged e tile (cellsIn m.stack (tile * 4096) 4096))

/-- When no tile names the old slot, the old key is erased and the key id is assigned. -/
def Memory.endRotation (m : Memory) (key : Nat) : Memory :=
  let e := m.keyOf key
  if e.state = .rotating ∧ !m.tmeta.any (fun x => namesOldSlot key e x.2) then
    m.setKey key { e with state := .assigned, slots := if e.cur = 0 then (e.slots.1, 0) else (0, e.slots.2) }
  else m

/-- R413: the key engine sees an exhausted tile of a key id. -/
def Memory.seesExhausted (m : Memory) (key tile : Nat) : Bool := !m.blank tile key && (m.metaOf tile).exhausted

/-- R402: the request of a sweep in the system sub-queue of a tile's bank. -/
def sweepReq (tile key : Nat) : FillReq := { tile := tile, key := key, prio := 0, by_ := none, kind := .sweep }

/-- R402: the bank serves the sweep's request: nothing older waits there. -/
def Memory.sweepServed (m : Memory) (tile key : Nat) : Bool := (m.bankQueue tile).head?.all (fun f => f == sweepReq tile key)

/-- R402: the sweep's request joins the system sub-queue, where it is not there yet. -/
def Memory.askSweep (m : Memory) (tile key : Nat) : Memory :=
  if m.fills.contains (sweepReq tile key) then m else { m with fills := m.fills ++ [sweepReq tile key] }

/-- ROTATION_SWEEP: the sweep takes one tile, once its request is served by the tile's bank (R402). An exhausted tile of a key id that
no rotation has reached starts one (R413). -/
def State.rotationSweep (s : State) (key tile : Nat) : State :=
  let e := s.mem.keyOf key
  let gone : Memory := { s.mem with fills := s.mem.fills.filter (· != sweepReq tile key) }
  match e.state with
  | .rotating =>
    if namesOldSlot key e (s.mem.metaOf tile) then
      if s.mem.sweepServed tile key then { s with mem := (gone.sweepTile tile key).endRotation key }
      else { s with mem := s.mem.askSweep tile key }
    else { s with mem := gone.endRotation key }
  | .assigned => if s.mem.seesExhausted key tile then s.rotateKey key else s
  | _ => s

def execRotationSweep (key tile : Nat) (s : State) : Out := .next (s.rotationSweep key tile).containFound

/-! ## Clears and scrubs (R415, R416) -/

/-- The unwritten bit of a tile is set. -/
def Memory.clearTile (m : Memory) (tile : Nat) : Memory := m.setMeta tile { m.metaOf tile with unwritten := true }

/-- A tile of a reassigned key id that the clear has not reached. -/
def unclear (key : Nat) (e : KeyEntry) (x : TileMeta) : Bool := x.key == key && x.gen != e.gen && !x.unwritten

/-- BACKGROUND_CLEAR. -/
def State.backgroundClear (s : State) (key tile : Nat) : State :=
  let e := s.mem.keyOf key
  if e.clearing then
    let m := if unclear key e (s.mem.metaOf tile) then s.mem.clearTile tile else s.mem
    { s with mem := if m.tmeta.any (fun x => unclear key e x.2) then m else m.setKey key { e with clearing := false } }
  else s

def execBackgroundClear (key tile : Nat) (s : State) : Out := .next (s.backgroundClear key tile)

/-- The clear of a key id run to its end over every stack (R416). -/
def Memory.clearAll (m : Memory) (key : Nat) : Memory :=
  (m.tmeta.filter (fun x => x.2.key == key)).foldl (fun m x => m.clearTile x.1) m

/-- A partition holds one more key id. -/
def State.giveKey (s : State) (key : Nat) (part : Option Nat) : State :=
  match part with
  | none => s
  | some p => { s with parts := tmod s.parts p (fun x => { x with keys := x.keys.filter (· != key) ++ [key] }) }

/-- SCRUB: the clear runs to its end, then the key id has a fresh key and generation 0, and goes to the partition that its
reassignment names, if one has begun it. -/
def State.scrub (s : State) (key : Nat) : State :=
  if (s.mem.keyOf key).state = .scrubbing then
    let dest := (s.mem.keyOf key).part
    let f := ({ s with mem := s.mem.clearAll key } : State).freshKey
    let e : KeyEntry :=
      { state := if dest.isSome then .assigned else .free, slots := (f.2, 0), cur := 0, gen := 0, part := dest, clearing := false }
    let s1 := { f.1 with mem := f.1.mem.setKey key e, fw := { f.1.fw with nvGen := tputD 0 f.1.fw.nvGen key 0 } }
    s1.giveKey key dest
  else s

def execScrub (key : Nat) (s : State) : Out := .next (s.scrub key)

/-! ## Page migration (R408) -/

/-- The place of the leaf entry of an address below the table of a level, with its own level. -/
def Memory.leafFrom (m : Memory) (e : WalkEnv) (va : Nat) : Nat → Nat → Option (Nat × Nat)
  | 0, tab =>
    let a := tab + 8 * vaIndex va 0
    if entryOk (m.entry e a) && bit (m.entry e a) 1 then some (a, 0) else none
  | l + 1, tab =>
    let a := tab + 8 * vaIndex va (l + 1)
    let x := m.entry e a
    if !entryOk x then none
    else if bit x 1 then (if l + 1 = 1 then some (a, 1) else none)
    else m.leafFrom e va l (bits x 12 36 * 4096)

/-- The place of the leaf entry of an address, with its level; the page that it names need not be the partition's. -/
def Memory.leafPlace (m : Memory) (e : WalkEnv) (va : Nat) : Option (Nat × Nat) := (m.walked e va).leafFrom e va 3 e.root

/-- A range of physical bytes is untouched by leases and by what is on its way. -/
def State.pageFree (s : State) (pa n : Nat) : Bool :=
  let hit := fun (a k : Nat) => decide (a < pa + n) && decide (pa < a + k)
  s.runs.all (fun r => r.2.nests.all (fun x => x.leases.all (fun l => l.pages.all (fun p => p.host || !hit p.pa p.size)))) &&
  s.treads.all (fun t => t.2.leases.all (fun l => l.pages.all (fun p => p.host || !hit p.pa p.size))) &&
  s.mem.accs.all (fun a => !(a.space == .stack && hit a.addr a.size)) &&
  s.mem.outbox.all (fun w => !hit w.addr w.bytes.length) && s.mem.inbox.all (fun w => !hit w.2.addr w.2.bytes.length)

/-- One tile moves: its contents, in its home and in the mirrors; a poisoned tile, or one whose read fails, is poisoned. -/
def Memory.moveTile (m : Memory) (old new k : Nat) : Memory :=
  let d := if (m.resident? old k).isSome then 0 else m.fillFault old k
  let bad := m.poisoned old k || d != 0
  let data := m.tileData old k
  let m1 := { ((m.noteFault old d).wipeMirrors new) with gallery := tdel m.gallery new }
  if bad then m1.setMeta new { m1.metaOf new with key := k, gen := (m1.keyOf k).gen, unwritten := false, poisoned := true }
  else
    let m2 := m1.sealTile new k data
    { m2 with mirror := (allDies.filter (fun d => d != homeDie (new * 4096))).foldl (fun c d =>
        placeCells c (mirrorKey d k (new * 4096)) data) m2.mirror }

/-- The replicas of a leaf entry name the new tile (R405). -/
def State.retarget (s : State) (e : WalkEnv) (place level size new : Nat) : State :=
  let n := size / (if level = 0 then 4096 else 2 ^ 21)
  let first := place / (8 * n) * (8 * n)
  (List.range n).foldl (fun s i =>
    let a := first + 8 * i
    let x := s.mem.entry e a
    (s.applyGlobal a e.tabKey 0 (bytesLE 8 (x - bits x 12 36 * 4096 + new * 4096)) false).1) s

/-- PAGE_MIGRATION: a page that no lease pins, and that nothing on its way touches, moves to a free page of the partition. The
translations and the code lines of the page leave every cache, pinned lines too, as by a tlb.inv of it (DESIGN CHOICE, log entry
91). -/
def State.pageMigration (s0 : State) (part va tile : Nat) : State :=
  let s := s0.virtWalk part va
  let e := s.walkEnv part
  match s.virtPage part va, s.mem.leafPlace e (va % 2 ^ 57) with
  | some p, some (place, level) =>
    let n := p.size / 4096
    let old := p.pa / 4096
    if p.host || tile % n != 0 || !e.owns tile n || !mappedPa (tile * 4096) || !mappedPa (tile * 4096 + p.size - 1) ||
        decide (old < tile + n ∧ tile < old + n) || !s.pageFree p.pa p.size || !s.pageFree (tile * 4096) p.size then s
    else
      let m := (List.range n).foldl (fun m i => m.moveTile (old + i) (tile + i) p.key) s.mem
      let s1 := ({ s with mem := m } : State).clearResv .stack p.pa p.size
      (s1.retarget e place level p.size tile).invalidate { part := part, lo := p.va, len := p.size }
  | _, _ => s

def execPageMigration (part va tile : Nat) (s : State) : Out := .next (s.pageMigration part va tile).containFound

/-! ## Recalibration and losses (R420, R344, R316) -/

/-- RECALIBRATION: the next pseudo-channel of the 160 of each stack, in turn. -/
def execRecalibration (s : State) : Out :=
  .next (if s.fw.power = .run ∨ s.fw.power = .idle then { s with mem := { s.mem with recal := (s.mem.recal + 1) % 1280 } } else s)

def execDieLinkLoss (_a _b : Nat) (s : State) : Out := .next { s with contained := true }
def execClusterMeshLoss (_cluster : Nat) (s : State) : Out := .next { s with contained := true }

end Sys2Proof.Machine
end

