-- ==== Sys2Proof/Machine/Eloa.lean ====
section
/-!
DEFINITION. The host's side of the device (22_host.md R421–R428): Eloa queues and their registers, LAUNCH and CANCEL records,
CXL.mem accesses, the CXL link.
-/

namespace Sys2Proof.Machine

/-! ## Registers of a queue (R424, R425) -/

/-- Change a bound queue; an unbound one ignores writes. -/
def State.modEloa (s : State) (q : Nat) (u : EloaQueue → EloaQueue) : State :=
  { s with eloa := tmod s.eloa q (fun e => if e.part.isNone then e else u e) }

/-- The slots of a queue. -/
def EloaQueue.slots (e : EloaQueue) : Nat := 2 ^ e.size

/-- A stop, with its cause. -/
def EloaQueue.stopped (e : EloaQueue) (cause : Nat) : EloaQueue := { e with stop := cause }

/-- The slots from QHEAD up to QTAIL, modulo the slot count (R425). -/
def EloaQueue.waiting (e : EloaQueue) : Nat := (e.tail % e.slots + e.slots - e.head % e.slots) % e.slots

/-- A queue handles its slots: bound, enabled, not stopped. -/
def EloaQueue.works (e : EloaQueue) : Bool := e.part.isSome && e.enabled && e.stop == 0

/-- R424: the 4-byte word at an offset of a queue's page. -/
def State.queueWord (s : State) (q offset : Nat) : Nat :=
  match tget s.eloa q with
  | none => 0
  | some e =>
    if e.part.isNone then 0
    else
      match offset with
      | 0x00 => bits e.base 0 32
      | 0x04 => bits e.base 32 32
      | 0x08 => e.size
      | 0x0C => if e.enabled then 1 else 0
      | 0x10 => e.tail
      | 0x14 => e.head
      | 0x18 => 1 + (if e.stop = 0 then 0 else 2) + 16 * e.stop
      | _ => 0

/-- A queue stops: its doorbells are forgotten. -/
def State.stopQueue (s : State) (q cause : Nat) : State :=
  { s.modEloa q (fun e => e.stopped cause) with doorbells := s.doorbells.filter (fun b => b.1 != q) }

/-- REGISTER_WRITE: QBASE and QSIZE take a write while the queue is not enabled; the other registers have rows of their own
or ignore writes. -/
def execRegisterWrite (q offset value : Nat) (s : State) : Out :=
  .next (s.modEloa q (fun e =>
    if e.enabled then e
    else if offset = 0x00 then { e with base := value % 2 ^ 64 }
    else if offset = 0x08 then { e with size := value % 2 ^ 32 }
    else e))

/-- QUEUE_ENABLE: QSIZE is checked; after a stop, an enable that follows a disable clears it and sets QHEAD to QTAIL. -/
def execQueueEnable (q : Nat) (s : State) : Out :=
  .next (s.modEloa q (fun e =>
    if e.enabled then e
    else
      let e1 := { e with enabled := true, head := if e.stop ≠ 0 then e.tail else e.head, stop := 0 }
      if 4 ≤ e.size ∧ e.size ≤ 12 then e1 else e1.stopped 1))

def execQueueDisable (q : Nat) (s : State) : Out := .next (s.modEloa q (fun e => { e with enabled := false }))

/-! ## Records (R426, R427) -/

/-- The host address of the slot at QHEAD, modulo the slot count. -/
def EloaQueue.slotAt (e : EloaQueue) : Nat := e.base + 64 * (e.head % e.slots)

/-- The bytes of the slot at QHEAD over CXL.cache; none when the read fails. -/
def State.slotBytes (s : State) (e : EloaQueue) : Option (List Byte) :=
  if !s.mem.linkUp || s.mem.hostBad.contains (e.slotAt / 64) then none else some (readCells s.mem.host e.slotAt 64)

/-- The launcher of a record. -/
def srcOf (q : Nat) (b : List Byte) : HostSrc :=
  { queue := q, tag := field b 4 4, notify := field b 0x20 8, msix := bit (field b 1 1) 0 }

/-- [C, C + 8,320) lies in pages of the partition with write access. -/
def State.recordArea (s : State) (part : Nat) (c : DWord) : Bool :=
  isCanon c && isCanon (c + 8319) && (tileSegs (va57 c) 8320).all (fun p =>
    match s.virtPage part p.1 with
    | some g => g.w && !g.host
    | none => false)

/-- Step 1 of R427. -/
def State.badRecord (s : State) (part : Nat) (b : List Byte) : Bool :=
  let op := field b 0 1
  bits (field b 1 1) 1 7 != 0 || field b 2 2 != 0 || field b 0x28 24 != 0 || (op != 1 && op != 2) ||
  (op == 2 && (bits (field b 8 8) 33 31 != 0 || field b 0x10 8 != 0 || field b 0x18 8 != 0)) ||
  (op == 1 && (field b 0x18 8 % 128 != 0 || !s.recordArea part (BitVec.ofNat 64 (field b 0x18 8))))

/-- The entry PCs that a stairway image names, as far as it can be read. -/
def State.entryPcs (s : State) (die part : Nat) (header : DWord) : State × List DWord :=
  match s.readImage die part header 256 with
  | (s1, none) => (s1, [])
  | (s1, some h) =>
    (List.range (min 64 (field h 4 1))).foldl (fun acc j =>
      match acc.1.readImage die part (header + BitVec.ofNat 64 (256 * (j + 1) + 0x50)) 8 with
      | (s2, some b) => (s2, acc.2 ++ [BitVec.ofNat 64 (field b 0 8)])
      | (s2, none) => (s2, acc.2)) (s1, [])

/-- Some addresses are walked through the galleries of their tables (R406). -/
def State.walkAll (s : State) (part : Nat) (vas : List Nat) : State := vas.foldl (fun s va => s.virtWalk part va) s

/-- The key id of the device page that holds an address, whichever partition the page belongs to. -/
def State.pageKey (s : State) (part va : Nat) : Option Nat :=
  let e := s.walkEnv part
  (s.mem.leafPlace e va).bind (fun p =>
    let x := (s.mem.walked e va).entry e p.1
    if bit x 5 then none else some (bits x 48 10))

/-- Step 2 of R427: a page that an entry PC names is kept under a key id outside the queue's set, or one that is neither assigned
nor rotating. -/
def State.keyRefused (s : State) (part : Nat) (keys : List Nat) (pcs : List DWord) : Bool :=
  pcs.any (fun pc => (s.pageKey part (va57 pc)).any (fun k => !keys.contains k ||
    ((s.mem.keyOf k).state != .assigned && (s.mem.keyOf k).state != .rotating)))

/-- The clock that the acquire read of the slot at QHEAD takes: that of the releases whose writes stand there, and what the host has
written and read over CXL.mem before it (R425, R376, log entry 42). -/
def State.slotClock (s : State) (q : Nat) : List Nat :=
  match tget s.eloa q with
  | some e => joinClock s.hostClock (joinClock (s.mem.hostClock e.slotAt 64) (s.mem.sysClock e.slotAt 64))
  | none => s.hostClock

/-- A launch record's launch. It carries what the read of its slot acquires (R425). -/
def State.hostLaunch (s : State) (q part : Nat) (b : List Byte) : Launch :=
  { header := BitVec.ofNat 64 (field b 8 8), args := BitVec.ofNat 64 (field b 0x10 8), record := BitVec.ofNat 64 (field b 0x18 8),
    depth := 0, part := part, src := some (srcOf q b), waits := false, ready := false, gen := none, clock := s.slotClock q, seq := 0 }

/-- One record fewer waits for a queue's oldest doorbell. -/
def countDoorbell (q : Nat) : List (Nat × Nat) → List (Nat × Nat)
  | [] => []
  | b :: bs => if b.1 = q then (if b.2 ≤ 1 then bs else (q, b.2 - 1) :: bs) else b :: countDoorbell q bs

/-- QHEAD advances past a handled slot. -/
def State.advanceHead (s : State) (q : Nat) : State :=
  { s.modEloa q (fun e => { e with head := (e.head + 1) % e.slots }) with doorbells := countDoorbell q s.doorbells }

/-- R425: the doorbells of a home die whose queues have slots to handle, in order of arrival. -/
def State.ringing (s : State) (die : Nat) : List (Nat × Nat) :=
  s.doorbells.filter (fun b => (tget s.eloa b.1).any (fun e => e.die == die && e.works && e.waiting != 0))

/-- R425: it is a queue's turn on its home die. -/
def State.hasTurn (s : State) (q die : Nat) : Bool := (s.ringing die).head?.all (fun b => b.1 == q)

/-- LAUNCH: the checks, then the pool; a full pool holds QHEAD at the slot. -/
def State.handleLaunch (s0 : State) (q part : Nat) (e : EloaQueue) (b : List Byte) : State :=
  let src := srcOf q b
  let s := s0.walkAll part ((tileSegs (field b 0x18 8 % 2 ^ 57) 8320).map (·.1))
  if s.badRecord part b then (s.notify e.die src 0x30 0xFFFFFFFF).advanceHead q
  else
    let y := s.entryPcs e.die part (BitVec.ofNat 64 (field b 8 8))
    let x := (y.1.walkAll part (y.2.map va57), y.2)
    if x.1.keyRefused part e.keys x.2 then (x.1.notify e.die src 0x31 0xFFFFFFFF).advanceHead q
    else if x.1.poolFull e.die || x.1.resetting part then x.1
    else (x.1.enterPool e.die (x.1.hostLaunch q part b)).advanceHead q

/-! ## CANCEL (R428) -/

/-- The running instances and the waiting launches that a record names. -/
def State.cancelTargets (s : State) (q part : Nat) (b : List Byte) : List Nat × List (Nat × Launch) :=
  let x := field b 8 8
  let byTag := bit x 32
  let mine := fun (o : Option HostSrc) => o.any (fun h => h.queue == q && h.tag == bits x 0 32)
  let runs := (s.runs.filter (fun p => p.2.part == part && !p.2.nests.all (·.sealed) &&
    (if byTag then mine p.2.src else p.2.number == bits x 0 32))).map (·.1)
  let waits := s.dies.flatMap (fun d => (d.2.pool.filter (fun l => byTag && l.part == part && mine l.src)).map (fun l => (d.1, l)))
  (runs, waits)

/-- The instance number that a CANCEL's notice names. -/
def State.cancelNumber (s : State) : List Nat → Nat
  | [] => 0xFFFFFFFF
  | r :: _ => match tget s.runs r with
    | some run => run.number
    | none => 0xFFFFFFFF

def State.handleCancel (s : State) (q part : Nat) (e : EloaQueue) (b : List Byte) : State :=
  let src := srcOf q b
  if s.badRecord part b then (s.notify e.die src 0x30 0xFFFFFFFF).advanceHead q
  else
    let x := s.cancelTargets q part b
    let n := s.cancelNumber x.1
    let s1 := x.1.foldl State.cancelRun s
    let s2 := x.2.foldl (fun s p => s.failLaunch p.1 p.2 Admit.cancelled.code 0xFFFFFFFF) s1
    (s2.notify e.die src (if x.1.isEmpty && x.2.isEmpty then 0x33 else 0) n).advanceHead q

/-! ## Handling slots (R425) -/

/-- The record at QHEAD of a queue that may be handled: enabled, bound, not stopped, not empty, and first in the order of the
doorbells of its home die. -/
def State.handleSlot (s : State) (q : Nat) (only : Nat → Bool) : State :=
  match tget s.eloa q with
  | none => s
  | some e =>
    match e.part with
    | none => s
    | some part =>
      if !e.works || e.waiting == 0 || !s.hasTurn q e.die then s
      else
        match s.slotBytes e with
        | none => s.stopQueue q 3
        | some b =>
          if only (field b 0 1) then
            if field b 0 1 = 2 then s.handleCancel q part e b else s.handleLaunch q part e b
          else s

/-- Handle the slots of a die in the order of its doorbells. The first argument bounds their number. -/
def State.handleDie (die : Nat) : Nat → State → State
  | 0, s => s
  | k + 1, s =>
    match s.ringing die with
    | [] => s
    | b :: _ =>
      let s1 := s.handleSlot b.1 (fun _ => true)
      if s1.doorbells.length + (s1.doorbells.map (·.2)).sum < s.doorbells.length + (s.doorbells.map (·.2)).sum then State.handleDie die k s1
      else s1

/-- QTAIL: the doorbell. -/
def State.qtail (s : State) (q value : Nat) : State :=
  match tget s.eloa q with
  | none => s
  | some e =>
    let v := value % 2 ^ 32
    let e1 := { e with tail := v }
    let s1 := s.modEloa q (fun _ => e1)
    if !e.works then s1
    else if e.slots ≤ v then s1.stopQueue q 2
    else
      let before := ((s.doorbells.filter (fun b => b.1 == q)).map (·.2)).sum
      let s2 := { s1 with doorbells := s1.doorbells ++ (if before < e1.waiting then [(q, e1.waiting - before)] else []) }
      s2.handleDie e.die (s2.doorbells.map (·.2)).sum

def execQtail (q value : Nat) (s : State) : Out := .next (s.qtail q value)

/-- LAUNCH: the record at QHEAD, when it is no CANCEL. -/
def execLaunch (q : Nat) (s : State) : Out := .next (s.handleSlot q (fun op => op != 2))
/-- CANCEL: the record at QHEAD, when it is one. -/
def execCancel (q : Nat) (s : State) : Out := .next (s.handleSlot q (fun op => op == 2))

/-! ## CXL.mem (R423, R376) -/

/-- The window that holds a host physical range. -/
def State.windowOf (s : State) (hpa n : Nat) : Option Window :=
  (s.windows.find? (fun w => decide (w.2.hpa ≤ hpa) && decide (hpa + n ≤ w.2.hpa + w.2.size))).map (·.2)

/-- The tiles of a physical range that are poisoned, or not mapped, for a key id. -/
def Memory.badTiles (m : Memory) (pa n key : Nat) : List Nat :=
  ((tileSegs pa n).filter (fun p => m.poisoned (tileOf p.1) key || !mappedPa p.1)).map (fun p => tileOf p.1)

/-- The tiles of a physical range are filled and used (R313). -/
def Memory.fillRange (m : Memory) (pa n key : Nat) : Memory :=
  (tileSegs pa n).foldl (fun m p => if mappedPa p.1 then m.use (tileOf p.1) key else m) m

/-- The clock of the bytes of a physical range. -/
def Memory.rangeClock (m : Memory) (pa n : Nat) : List Nat :=
  (tileSegs pa n).foldl (fun c p => joinClock c (clockAt (homeDie p.1) (m.stampOf p.1 p.2))) [0, 0, 0, 0]

/-- Write bytes at the homes of a physical range. -/
def State.writePhys (s : State) (pa key : Nat) (bs : List Byte) : State :=
  ((tileSegs pa bs.length).foldl (fun (acc : State × List Byte) p =>
    ((acc.1.applyGlobal p.1 key 0 (acc.2.take p.2) false).1, acc.2.drop p.2)) (s, bs)).1

/-- HOST_MEM_ACCESS: a read answers bytes or poison; an access to a poisoned tile is contained. -/
def State.hostAccess (s : State) (hpa n : Nat) (write : Bool) (bs : List Byte) : State :=
  let k := if write then bs.length else n
  if !s.mem.linkUp then s
  else
    match s.windowOf hpa k with
    | none => if write then s else { s with hostRead := some none }
    | some w =>
      let pa := w.pa + (hpa - w.hpa)
      let s0 := { s with mem := s.mem.fillRange pa k w.key }
      match s0.mem.badTiles pa k w.key with
      | t :: _ =>
        let s1 := { s0 with mem := s0.mem.meet t }
        if write then s1 else { s1 with hostRead := some none }
      | [] =>
        if write then
          let s1 := s0.writePhys pa w.key bs
          { s1 with hostClock := joinClock s1.hostClock (s1.mem.rangeClock pa k) }
        else
          { s0 with
            hostRead := some (some ((tileSegs pa k).flatMap (fun p => s0.mem.atHome .stack p.1 w.key p.2)))
            hostClock := joinClock s0.hostClock (s0.mem.rangeClock pa k) }

def execHostMemAccess (hpa n : Nat) (write : Bool) (bytes : List Byte) (s : State) : Out :=
  .next (s.hostAccess hpa n write bytes).containFound

/-! ## The link (R422) -/

def execLinkDown (s : State) : Out := .next { s with mem := { s.mem with linkUp := false } }
def execLinkUp (s : State) : Out := .next { s with mem := { s.mem with linkUp := true } }

end Sys2Proof.Machine
end

