-- ==== Sys2Proof/Machine/Sha.lean ====
section
/-!
DEFINITION. SHA-256 and HMAC-SHA-256, as FIPS 180-4 and FIPS 198-1 define them, for the digests of an attestation report
(22_host.md R432) and the stored training results (21_memory.md R420). Words are numbers below 2^32.
-/

namespace Sys2Proof.Machine

/-- The round constants. -/
def shaConsts : List Nat :=
  [0x428a2f98, 0x71374491, 0xb5c0fbcf, 0xe9b5dba5, 0x3956c25b, 0x59f111f1, 0x923f82a4, 0xab1c5ed5] ++
  [0xd807aa98, 0x12835b01, 0x243185be, 0x550c7dc3, 0x72be5d74, 0x80deb1fe, 0x9bdc06a7, 0xc19bf174] ++
  [0xe49b69c1, 0xefbe4786, 0x0fc19dc6, 0x240ca1cc, 0x2de92c6f, 0x4a7484aa, 0x5cb0a9dc, 0x76f988da] ++
  [0x983e5152, 0xa831c66d, 0xb00327c8, 0xbf597fc7, 0xc6e00bf3, 0xd5a79147, 0x06ca6351, 0x14292967] ++
  [0x27b70a85, 0x2e1b2138, 0x4d2c6dfc, 0x53380d13, 0x650a7354, 0x766a0abb, 0x81c2c92e, 0x92722c85] ++
  [0xa2bfe8a1, 0xa81a664b, 0xc24b8b70, 0xc76c51a3, 0xd192e819, 0xd6990624, 0xf40e3585, 0x106aa070] ++
  [0x19a4c116, 0x1e376c08, 0x2748774c, 0x34b0bcb5, 0x391c0cb3, 0x4ed8aa4a, 0x5b9cca4f, 0x682e6ff3] ++
  [0x748f82ee, 0x78a5636f, 0x84c87814, 0x8cc70208, 0x90befffa, 0xa4506ceb, 0xbef9a3f7, 0xc67178f2]

/-- The initial hash value. -/
def shaInit : List Nat :=
  [0x6a09e667, 0xbb67ae85, 0x3c6ef372, 0xa54ff53a, 0x510e527f, 0x9b05688c, 0x1f83d9ab, 0x5be0cd19]

/-- Rotation of a word to the right. -/
def rotr (n x : Nat) : Nat := (x / 2 ^ n) ||| (x * 2 ^ (32 - n) % 2 ^ 32)

/-- The next word of the message schedule; `ws` are the words so far, newest first. -/
def shaNextWord (ws : List Nat) : Nat :=
  let a := ws.getD 14 0
  let b := ws.getD 1 0
  let s0 := rotr 7 a ^^^ rotr 18 a ^^^ a / 2 ^ 3
  let s1 := rotr 17 b ^^^ rotr 19 b ^^^ b / 2 ^ 10
  (ws.getD 15 0 + s0 + ws.getD 6 0 + s1) % 2 ^ 32

/-- The 64 words of the message schedule of a block of 16 words. -/
def shaSchedule (block : List Nat) : List Nat :=
  ((List.range 48).foldl (fun ws _ => shaNextWord ws :: ws) block.reverse).reverse

/-- One round: `v` holds the working words a to h, `x` the round constant and the schedule word. -/
def shaRound (v : List Nat) (x : Nat × Nat) : List Nat :=
  let g := fun (i : Nat) => v.getD i 0
  let s1 := rotr 6 (g 4) ^^^ rotr 11 (g 4) ^^^ rotr 25 (g 4)
  let ch := (g 4 &&& g 5) ^^^ ((2 ^ 32 - 1 - g 4) &&& g 6)
  let t1 := g 7 + s1 + ch + x.1 + x.2
  let s0 := rotr 2 (g 0) ^^^ rotr 13 (g 0) ^^^ rotr 22 (g 0)
  let maj := (g 0 &&& g 1) ^^^ (g 0 &&& g 2) ^^^ (g 1 &&& g 2)
  [(t1 + s0 + maj) % 2 ^ 32, g 0, g 1, g 2, (g 3 + t1) % 2 ^ 32, g 4, g 5, g 6]

/-- The hash value after a block. -/
def shaBlock (h block : List Nat) : List Nat :=
  let v := (shaConsts.zip (shaSchedule block)).foldl shaRound h
  List.zipWith (fun x y => (x + y) % 2 ^ 32) h v

/-- The words of bytes, the first byte of each the most significant. The first argument bounds their number. -/
def shaWords : Nat → List Nat → List Nat
  | 0, _ => []
  | n + 1, bs => (bs.take 4).foldl (fun a b => 256 * a + b) 0 :: shaWords n (bs.drop 4)

/-- A message padded to whole blocks. -/
def shaPad (msg : List Nat) : List Nat :=
  let n := msg.length
  msg ++ 0x80 :: List.replicate ((119 - n % 64) % 64) 0 ++ bytesBE 8 (8 * n)

/-- The hash value of `n` blocks of words. -/
def shaBlocks : Nat → List Nat → List Nat → List Nat
  | 0, h, _ => h
  | n + 1, h, ws => shaBlocks n (shaBlock h (ws.take 16)) (ws.drop 16)

/-- The SHA-256 digest of a message. -/
def sha256 (msg : List Nat) : List Nat :=
  let p := shaPad msg
  (shaBlocks (p.length / 64) shaInit (shaWords (p.length / 4) p)).flatMap (bytesBE 4)

/-- HMAC-SHA-256. -/
def hmac (key msg : List Nat) : List Nat :=
  let k0 := if 64 < key.length then sha256 key else key
  let k := k0 ++ List.replicate (64 - k0.length) 0
  sha256 (k.map (fun b => b ^^^ 0x5C) ++ sha256 (k.map (fun b => b ^^^ 0x36) ++ msg))

end Sys2Proof.Machine
end

