-- ==== Sys2Proof/Machine/Newel.lean ====
section
/-!
DEFINITION. What Newel and Balustrade do (22_host.md R429–R435; 21_memory.md R404, R414–R416): partitions, keys, windows,
queues, boot, lifecycle, power. The commands that ask for it are in Machine/Mailbox.lean.
-/

namespace Sys2Proof.Machine

/-! ## Keys (R404, R414–R416) -/

/-- Everything held under a key id in galleries and code caches is dropped, and its windows are unbound (R415, R423). The key id stays
with its partition. -/
def State.dropLines (s : State) (key : Nat) : State :=
  let code := fun (t : Tab (List CodeLine)) => (t.map (fun x => (x.1, x.2.filter (fun l => l.key != key)))).filter (fun x => !x.2.isEmpty)
  { s with
    mem := { s.mem with
      gallery := s.mem.gallery.filter (fun x => x.2.key != key)
      fills := s.mem.fills.filter (fun f => f.key != key)
      l0 := code s.mem.l0, ccache := code s.mem.ccache }
    windows := s.windows.filter (fun w => w.2.key != key) }

/-- R415, R384: the lines of a key id go, which acts as one causal write of zero at each home, after every earlier write to it, and no
partition has it. The host, for which Newel does this, has seen those writes: what it launches from then on acquires them
(log entry 95). -/
def State.dropKey (s : State) (key : Nat) : State :=
  let s0 := allDies.foldl (fun s d => s.stampWipe d key) (s.dropLines key)
  let s1 := { s0 with hostClock := joinClock s0.hostClock (allDies.map (fun d => s0.mem.clock d d)) }
  { s1 with parts := s1.parts.map (fun p => (p.1, { p.2 with keys := p.2.keys.filter (· != key) })) }

/-- An instance of a partition runs, or a tread of it is left. -/
def State.busyPart (s : State) (part : Nat) : Bool := !(s.runsOf part).isEmpty || s.treads.any (fun t => t.2.part == part)

/-- Steps 1 to 5 of R415. -/
def State.assignKey (s : State) (key part : Nat) : State :=
  let g := (s.mem.keyOf key).gen + 1
  let f := (s.dropKey key).freshKey
  let e : KeyEntry := { state := .assigned, slots := (f.2, 0), cur := 0, gen := g, part := some part, clearing := true }
  let s1 := { f.1 with mem := f.1.mem.setKey key e, fw := { f.1.fw with nvGen := tputD 0 f.1.fw.nvGen key g } }
  s1.giveKey key (some part)

/-- R416: a generation about to wrap: the key id is scrubbed first. -/
def State.beginScrub (s : State) (key part : Nat) : State :=
  let s1 := s.dropKey key
  { s1 with mem := s1.mem.setKey key { s1.mem.keyOf key with state := .scrubbing, part := some part } }

/-- Every generation advances and no slot holds a key (R433); with fresh keys when `fresh` (R434). A key id whose generation wraps
is scrubbed (R416): its clear runs to its end first. -/
def State.advanceKeys (s : State) (fresh : Bool) : State :=
  (List.range 1024).foldl (fun s k =>
    let g := tgetD 0 s.fw.nvGen k + 1
    let s0 := if g = 0 then { s with mem := s.mem.clearAll k } else s
    let f := if fresh then s0.freshKey else (s0, 0)
    let e : KeyEntry := { state := .free, slots := (f.2, 0), cur := 0, gen := g, part := none, clearing := false }
    { f.1 with mem := f.1.mem.setKey k e, fw := { f.1.fw with nvGen := tputD 0 f.1.fw.nvGen k g } }) s

/-! ## Partitions (R404) -/

/-- Two ranges of physical tiles share one. -/
def rangesMeet (a b : Nat × Nat) : Bool := decide (a.1 < b.1 + b.2) && decide (b.1 < a.1 + a.2)

/-- A partition of these parts may be made: every core, key id and page belongs to no other. -/
def State.mayCreate (s : State) (x : PartitionSpec) : Bool :=
  x.cores.all (fun c => decide (c < 192) && s.parts.all (fun p => !p.2.cores.contains c)) &&
  x.keys.all (fun k => decide (k < 1024) && (s.mem.keyOf k).part.isNone && (s.mem.keyOf k).state == .free) &&
  x.pages.all (fun r => s.parts.all (fun p => p.2.pages.all (fun q => !rangesMeet r q))) && x.keys.contains x.tabKey

/-- A partition at its creation. -/
def partitionOf (x : PartitionSpec) : Partition :=
  { cores := x.cores, keys := [], pages := x.pages, root := x.root, tabKey := x.tabKey, saveBase := x.saveBase, saveLen := x.saveLen,
    fair := 2048, resetting := false, halted := false, debugKey := x.debugKey, token := none, nonce := [], nextInst := 0, notices := 0 }

/-- A partition is made under a number, and given its key ids; one whose generation would wrap is scrubbed first, and comes to the
partition when its scrub ends (R416). -/
def State.createPart (s : State) (n : Nat) (x : PartitionSpec) : State :=
  x.keys.foldl (fun s k => if (s.mem.keyOf k).gen = 0xFFFF then s.beginScrub k n else s.assignKey k n)
    { s with parts := tput s.parts n (partitionOf x) }

/-! ## Boot (R431, R420) -/

/-- R420: the HMAC of training results under the device key. -/
def trainingMac (results : List Byte) : List Byte :=
  (hmac Config.deviceKey (results.map BitVec.toNat)).map (BitVec.ofNat 8)

/-- R420: full training of every pseudo-channel: its results are used, and stored with their HMAC. -/
def State.train (s : State) : State :=
  let r := Config.trainingResult s.fw.trainings
  { s with
    mem := { s.mem with training := r }
    fw := { s.fw with stored := (r, trainingMac r), trainings := s.fw.trainings + 1 } }

/-- R420: stored results whose HMAC verifies are restored; otherwise full training runs. -/
def State.restoreTraining (s : State) : State :=
  if s.fw.stored.2 = trainingMac s.fw.stored.1 then { s with mem := { s.mem with training := s.fw.stored.1 } } else s.train

/-- Steps 3 to 5 of R431: Newel and Balustrade start, the interfaces are trained, generations are set up. -/
def State.bootUp (s : State) : State :=
  let s1 := s.train.advanceKeys true
  { s1 with fw := { s1.fw with boot := .up, power := .run } }

/-- COLD_BOOT: the image in flash is verified; a bad one leaves the boot ROM waiting. -/
def State.coldBoot (s : State) : State :=
  if s.fw.boot = .off then
    if Config.imageOk s.fw.flash then s.bootUp else { s with fw := { s.fw with boot := .rom, power := .run } }
  else s

def execColdBoot (s : State) : Out := .next s.coldBoot

/-- WARM_RESET: stored training results that verify are restored; otherwise training runs and its results are stored. -/
def execWarmReset (s : State) : Out :=
  .next (if s.fw.boot = .up then s.restoreTraining else s)

/-- The image loaded so far. -/
def Firmware.image (f : Firmware) : List Byte :=
  readCells f.chunks 0 ((f.chunks.map (fun c => c.1 + 1)).foldl max 0)

/-! ## Power (R20, R434, R435) -/

/-- POWER_SAMPLE: the draw and the inlet temperature; the clock is capped while the draw has reached its limit or the inlet is
above 40 °C. -/
def execPowerSample (watts degrees : Nat) (s : State) : Out :=
  .next (if s.fw.boot = .up then
    { s with fw := { s.fw with drawn := watts, inlet := degrees, capped := decide (s.fw.limit ≤ watts) || decide (40 < degrees) } }
  else s)

/-- Every landing of a tread is saved. -/
def State.savedTread (s : State) (t : Tread) : Bool :=
  !t.landings.isEmpty && (t.stage == .saved || t.stage == .parked) &&
  t.landings.all (fun lid => (tget s.landings lid).any (fun l => l.saveAt.isSome))

/-- R434: every running instance has completed or is saved. -/
def State.maySleep (s : State) : Bool :=
  s.treads.all (fun t => s.savedTread t.2) &&
  s.runs.all (fun r => r.2.nests.all (·.sealed) || s.treads.any (fun t => t.2.run == r.1))

/-- Every halt-debug session ends: its partition's landings go on. -/
def State.endSessions (s : State) : State :=
  { s with
    parts := s.parts.map (fun p => (p.1, { p.2 with halted := false }))
    fw := { s.fw with sessions := [] } }

/-- Hall, tiles, Colonnades, activation tables and caches are lost: zero at exit (R434). -/
def State.loseCores (s : State) : State :=
  { s with
    mem := { s.mem with hall := [], hallBad := [], ranges := [], tlb1 := [], tlb2 := [], tlbWalk := [], l0 := [], ccache := [], fills := [] }
    tiles := [], clacs := (List.range 192).map (fun c => (c, Clac.zero)), act := [], hqueues := [] }

/-- Every gallery entry is written back or its poison kept, and the galleries are empty. -/
def State.emptyGalleries (s : State) : State :=
  { s with mem := (s.mem.gallery.map (·.1)).foldl Memory.evict s.mem }

/-- Off: what is left is what needs no power. -/
def State.powerOff (s : State) : State :=
  { State.reset with
    agenda := s.agenda
    mem := { Memory.reset with host := s.mem.host, hostBad := s.mem.hostBad, linkUp := s.mem.linkUp }
    msix := s.msix
    fw := { Firmware.reset with
      flash := s.fw.flash, lifecycle := s.fw.lifecycle, idErased := s.fw.idErased, serial := s.fw.serial, stored := s.fw.stored, trainings := s.fw.trainings,
      nvGen := s.fw.nvGen, secret := s.fw.secret, limit := s.fw.limit, power := .off } }

/-- R420: on leaving retain the training is restored from the retained values. -/
def State.wakeTraining (s : State) : State :=
  if s.fw.power = .retain then { s with mem := { s.mem with training := s.fw.retained } } else s

/-- R434: a power state is entered for the whole device. -/
def State.enterPower (s0 : State) (target : PowerState) : State :=
  let s := s0.wakeTraining
  match target with
  | .run => if s.fw.power = .run then s else { s with fw := { s.fw with power := .run } }
  | .idle => { s.endSessions with fw := { s.endSessions.fw with power := .idle } }
  | .retain =>
    let s1 := s.endSessions.emptyGalleries.loseCores
    { s1 with fw := { s1.fw with power := .retain, retained := s1.mem.training }, mem := { s1.mem with training := [] } }
  | .off => s.powerOff

/-! ## Lifecycle and debug (R433) -/

/-- Entering return: key slots and identity key erased, port keys too, generations advanced, no partition left. -/
def State.enterReturn (s : State) : State :=
  let s1 := s.advanceKeys false
  { s1 with
    mem := { s1.mem with
      gallery := [], mirror := [], fills := []
      outbox := s1.mem.outbox.map (fun w => { w with bytes := [] }), inbox := s1.mem.inbox.map (fun x => (x.1, { x.2 with bytes := [] })) }
    parts := [], windows := [], eloa := [], rings := [], chans := []
    ports := s1.ports.map (fun p => (p.1, { p.2 with streams := [], keys := [] }))
    fw := { s1.fw with lifecycle := 3, idErased := true, sessions := [], unlocked := none } }

/-- Partitions and their keys may be worked on (R433). -/
def Firmware.tenants (f : Firmware) : Bool := f.lifecycle == 1 || f.lifecycle == 2

/-- The clock that a debug token's expiry is measured against: the package's first die. -/
def State.debugClock (s : State) : Nat := tgetD 0 s.cycles 0

/-- R433: halt-debug is open for a partition. -/
def State.debugOpen (s : State) (part : Nat) : Bool :=
  s.fw.power == .run && s.fw.boot == .up &&
  match s.fw.lifecycle with
  | 1 => s.fw.unlocked.any (fun e => decide (s.debugClock < e))
  | 2 => (tget s.parts part).any (fun p => p.token.any (fun e => decide (s.debugClock < e)))
  | _ => true

/-- DEBUG_TOKEN_EXPIRY: the token of a partition lapses, and its session with it. -/
def State.lapse (s : State) (part : Nat) : State :=
  match tget s.parts part with
  | none => s
  | some p =>
    if p.token.any (fun e => decide (e ≤ s.debugClock)) then
      { s with
        parts := tput s.parts part { p with token := none, halted := false }
        fw := { s.fw with sessions := s.fw.sessions.filter (· != part) } }
    else s

/-- The token that has opened device-wide halt-debug lapses, and every session with it. -/
def State.lapseWide (s : State) : State :=
  if s.fw.unlocked.any (fun e => decide (e ≤ s.debugClock)) then
    { s.endSessions with fw := { s.endSessions.fw with unlocked := none } }
  else s

/-- DEBUG_TOKEN_EXPIRY: what has passed its expiry lapses. -/
def State.tokenExpiry (s : State) (part : Nat) : State := (s.lapse part).lapseWide

def execDebugTokenExpiry (part : Nat) (s : State) : Out := .next (s.tokenExpiry part)

/-- R433: halt-debug is device-wide, of no one partition, outside production. -/
def State.debugWide (s : State) : Bool := s.fw.lifecycle != 2

/-- A thread belongs to a landing of a partition; device-wide, to any. What has left its core holds no register there: its state lies in
its phase record or save area (R348, R354). -/
def State.threadOf (s : State) (part key : Nat) : Bool :=
  ((tget s.landings (key / 256)).bind (fun l => tget s.treads l.tid)).any (fun t =>
    (t.stage == .running || t.stage == .saving) && (s.debugWide || t.part == part))

/-- A hall range lies in the slices of a partition; device-wide, in one slice of the package. -/
def State.hallOf (s : State) (part a n : Nat) : Bool :=
  decide (0 < n) && decide (a % 2 ^ 26 / 2 ^ 21 < 24) && decide (hallCore a < 192) &&
  (s.debugWide || (s.coresOf part).contains (hallCore a)) && decide (a / 2 ^ 21 = (a + n - 1) / 2 ^ 21)

/-- A window of the partition's own key ids; device-wide, any window. -/
def State.windowFor (s : State) (part hpa n : Nat) : Bool :=
  (s.windowOf hpa n).any (fun w => s.debugWide || (tget s.parts part).any (fun p => p.keys.contains w.key))

/-- The special registers that hold state of their own: the flags of the flight, what a trap has left (R72, R95). -/
def debugSpecial (r : Nat) : Bool := r == 0x020 || (decide (0x028 ≤ r) && decide (r ≤ 0x02D))

/-- The register exists for a thread of a landing. -/
def Landing.debugHas (l : Landing) (r : DebugReg) : Bool :=
  match r with
  | .v r => decide (r < l.regs)
  | .x k => decide (k < 4)
  | .control r => csrKnown r
  | .special r => debugSpecial r
  | .q k => decide (k < 16)
  | .j k => decide (k < 16)
  | .c k => decide (k < 8)
  | .h k _ => decide (k < 4)
  | _ => true

/-- The bytes that a read answers. -/
def debugBytes (r : DebugReg) : Nat :=
  match r with
  | .pc => 8
  | .q _ => 8
  | .special r => if sregWide r then 8 else 4
  | _ => 4

/-- What a halt-debug holder reads of a thread (R433): a queue register as R355 saves it, a convergence register as R347 records it, a
rejoin mask as jget does (R100). -/
def debugGet (s : State) (c : Ctx) (lane : Nat) (t : Thread) (r : DebugReg) : DWord :=
  match r with
  | .v r => (t.reg r).zeroExtend 64
  | .preds => (t.preds ||| 1#8).zeroExtend 64
  | .x k => (t.xreg k).zeroExtend 64
  | .pc => t.pc
  | .control r => (csrValue c t r).zeroExtend 64
  | .special r => sregValue c s lane t r
  | .q k => BitVec.ofNat 64 (ofBytesLE (bindingBytes (c.fl.qreg k)))
  | .j k => BitVec.ofNat 64 ((c.fl.expected k).toNat + 256 * (c.fl.arrivedAt k).toNat)
  | .c k => BitVec.ofNat 64 (convWord (c.ld.convOf k))
  | .h k seq => if seq then (c.ld.reduction k).seq.zeroExtend 64 else (c.ld.reduction k).value.zeroExtend 64

/-- A special register after a holder's write. What a trap leaves is there in handler mode alone (R95). -/
def debugSpecialSet (s : State) (c : Ctx) (lane : Nat) (r : Nat) (w : DWord) : State :=
  let put := fun (f : Thread → Thread) => s.modThread c.fk lane (fun t => if t.hmode then f t else t)
  match r with
  | 0x020 => s.modFlight c.fk (fun f => { f with fpflags := w.truncate 5 })
  | 0x028 => put (fun t => { t with cause := w.truncate 32 })
  | 0x029 => put (fun t => { t with finfo := w.truncate 32 })
  | 0x02A => put (fun t => { t with fpc := w })
  | 0x02B => put (fun t => { t with fnpc := w })
  | 0x02C => put (fun t => { t with faddr := w })
  | _ => s

/-- The machine after a halt-debug holder's write (R433): p0 stays 1, bits [31:16] of an index register 0 (R92), a pc an address of a
word, at which a hint group may begin; a queue register is unbound and bound as by qbind, a rejoin mask is written as by jset; open rounds
stay (DESIGN CHOICE, log entry 33). -/
def debugSet (s : State) (c : Ctx) (lane : Nat) (r : DebugReg) (w : DWord) : State :=
  match r with
  | .v r => s.modThread c.fk lane (fun t => t.setReg r (w.truncate 32))
  | .preds => s.modThread c.fk lane (fun t => { t with preds := w.truncate 8 &&& 0xFE#8 })
  | .x k => s.modThread c.fk lane (fun t => t.setX k (w.truncate 32 &&& 0xFFFF#32))
  | .pc => (s.leaveHints c.fk [lane]).modThread c.fk lane (fun t => { t with pc := canon w &&& ~~~(3#64) })
  | .control r =>
    if r = 4 then s.modFlight c.fk (fun f => { f with tcount := w.truncate 32 })
    else s.modThread c.fk lane (fun t => if r < 4 || t.hmode then csrWrite t r (w.truncate 32) else t)
  | .special r => debugSpecialSet s c lane r w
  | .q k =>
    let s1 := s.unbindQ c.fk k
    if w.getLsbD 4 && decide (bits w.toNat 0 4 ≤ 8) then s1.bindAs c k (bits w.toNat 0 4) (highHalf w) else s1
  | .j k => releaseMask (s.modFlight c.fk (fun f =>
      (f.setExpected k (w.truncate 8)).setArrived k ((w >>> 8).truncate 8))) c.fk k
  | .c k => s.modConv c.lid k (fun v => { convOfWord (w.truncate 32 : Word).toNat with signs := v.signs })
  | .h k seq => s.modRed c.lid k (fun x =>
      if seq then { x with seq := w.truncate 16 } else { x with value := w.truncate 32 })

/-- HALT_DEBUG: what its holder may do to one partition, or device-wide to any (R433). Threads are named by `256 * landing + thread`; what is read
goes to the host. -/
def State.haltDebug (s : State) (part : Nat) (op : DebugOp) : State :=
  if !s.debugOpen part || !(s.debugWide || (tget s.parts part).isSome) then s
  else
    match op with
    | .stop =>
      { s with
        parts := tmod s.parts part (fun p => { p with halted := true })
        fw := { s.fw with sessions := s.fw.sessions.filter (· != part) ++ [part] } }
    | .resume => { s with parts := tmod s.parts part (fun p => { p with halted := false }) }
    | .readReg th r =>
      match (tget s.threads th).bind (fun t => (s.ctxAt (th / 8) (th % 8) t.pc).map (fun c => (t, c))) with
      | some (t, c) =>
        if s.threadOf part th ∧ c.ld.debugHas r then
          { s with hostRead := some (some (bytesLE (debugBytes r) (debugGet s c (th % 8) t r).toNat)) } else s
      | none => s
    | .writeReg th r w =>
      match (tget s.threads th).bind (fun t => s.ctxAt (th / 8) (th % 8) t.pc) with
      | some c => if s.threadOf part th ∧ c.ld.debugHas r then debugSet s c (th % 8) r w else s
      | none => s
    | .readHall a n => if s.hallOf part a n then { s with hostRead := some (some (readCells s.mem.hall a n)) } else s
    | .writeHall a bs => if s.hallOf part a bs.length then s.applyHall a bs else s
    | .readWindow hpa n =>
      if s.windowFor part hpa n then (s.hostAccess hpa n false []).containFound else s

def execHaltDebug (part : Nat) (op : DebugOp) (s : State) : Out := .next (s.haltDebug part op)

end Sys2Proof.Machine
end

