-- ==== Sys2Proof/Machine/Mailbox.lean ====
section
/-!
DEFINITION. The mailboxes and their commands (22_host.md R430–R434; 23_fabric.md R442, R444, R456; 16_phases.md R352, R355).
-/

namespace Sys2Proof.Machine

/-! ## How a command runs (R430) -/

/-- The statuses of R430. -/
inductive CmdStatus where
  | ok | badCommand | badLength | refused | badImage | noSpace | notFound
  deriving DecidableEq, Repr

def CmdStatus.code : CmdStatus → Nat
  | .ok => 0
  | .badCommand => 1
  | .badLength => 2
  | .refused => 3
  | .badImage => 4
  | .noSpace => 5
  | .notFound => 6

/-- What a command comes to: a status and a reply, or nothing yet. -/
abbrev CmdEnd := Option (CmdStatus × List Byte)

/-- A command that ends with a status alone. -/
def ends (x : CmdStatus) : CmdEnd := some (x, [])

def Firmware.box (f : Firmware) (recovery : Bool) : Mailbox := if recovery then f.recovery else f.mgmt
def Firmware.setBox (f : Firmware) (recovery : Bool) (m : Mailbox) : Firmware :=
  if recovery then { f with recovery := m } else { f with mgmt := m }

def State.setBox (s : State) (recovery : Bool) (m : Mailbox) : State := { s with fw := s.fw.setBox recovery m }

/-- A mailbox is served: the recovery mailbox by the boot ROM, the management mailbox by Balustrade. -/
def Firmware.serves (f : Firmware) (recovery : Bool) : Bool := if recovery then f.boot == .rom else f.boot == .up && f.power != .off

/-- R430: an operand in the payload: the bytes that it takes, its value. -/
abbrev Operand := Nat × Nat

/-- Operands little-endian, one after the other. -/
def operandBytes (fs : List Operand) : List Byte := fs.flatMap (fun f => bytesLE f.1 f.2)

/-- Values that their bytes can hold. -/
def operandsFit (fs : List Operand) : Bool := fs.all (fun f => decide (f.2 < 2 ^ (8 * f.1)))

/-- Operands of 4 bytes, behind their number (DESIGN CHOICE, log entry 98). -/
def listOperands (xs : List Nat) : List Operand := (4, xs.length) :: xs.map (fun x => (4, x))

/-- The size of a mailbox's payload. -/
def payloadSize : Nat := 4088

/-- The payload with bytes laid over it at an offset. -/
def Mailbox.overlay (m : Mailbox) (offset : Nat) (bs : List Byte) : Mailbox :=
  { m with payload := ((m.payload ++ zeros payloadSize).take offset ++ bs ++ m.payload.drop (offset + bs.length)).take payloadSize }

/-- The first bytes of the payload. -/
def Mailbox.operands (m : Mailbox) (n : Nat) : List Byte := (m.payload ++ zeros payloadSize).take n

/-- The mailbox after a command: done, its reply in the payload; or in progress, begun and waiting to end. -/
def boxAfter (m : Mailbox) (word : Nat) (row : Instr) (r : CmdEnd) : Mailbox :=
  match r with
  | some (st, bs) => { m.overlay 0 bs with done := true, status := st.code, rlen := bs.length, cmd := none, begun := none }
  | none => { m with done := false, cmd := some word, begun := some row }

/-- R430: the commands of each mailbox with the operand lengths that they take: least, greatest (log entry 98). -/
def commandTable (recovery : Bool) : List (Nat × Nat × Nat) :=
  if recovery then [(0x001, 4, 4088), (0x002, 0, 0), (0x003, 0, 0), (0x004, 0, 0)]
  else
    [(0x100, 36, 36), (0x101, 4, 4088), (0x102, 12, 4088), (0x110, 424, 4088), (0x111, 4, 4), (0x112, 8, 8), (0x113, 4, 4),
     (0x114, 32, 32), (0x115, 16, 4088), (0x116, 20, 20), (0x117, 28, 28), (0x118, 24, 24), (0x118, 56, 56), (0x119, 52, 52),
     (0x120, 28, 28), (0x121, 4, 4), (0x122, 8, 8), (0x123, 4, 4), (0x124, 4, 4), (0x130, 4, 4), (0x131, 4, 4)]

/-- What is wrong with a command word: an unknown code or a reserved bit gives BAD_COMMAND, a bad length BAD_LENGTH. -/
def wordFault (recovery : Bool) (word : Nat) : Option CmdStatus :=
  let rows := (commandTable recovery).filter (fun x => x.1 == bits word 0 12)
  if rows.isEmpty || bits word 24 8 != 0 then some .badCommand
  else if rows.any (fun x => decide (x.2.1 ≤ bits word 12 12) && decide (bits word 12 12 ≤ x.2.2)) then none
  else some .badLength

/-- The operand bytes that a command of lists takes by the counts that stand in them (log entry 98). -/
def listedLen (code : Nat) (bs : List Byte) : Option Nat :=
  match code with
  | 0x110 =>
    let keys := 4 + 4 * field bs 0 4
    let pages := keys + 4 + 4 * field bs keys 4
    some (pages + 4 + 16 * field bs pages 4 + 412)
  | 0x115 => some (16 + 4 * field bs 8 4)
  | _ => none

/-- Where the operands of a command hold a field of one bit. -/
def flagPlaces (code len : Nat) : List Nat :=
  match code with
  | 0x117 => [8, 24]
  | 0x118 => if len = 56 then [8] else []
  | 0x119 => [28]
  | _ => []

/-- What is wrong with the operands in the payload: lists that take another number of bytes give BAD_LENGTH, a field of one bit that holds
more REFUSED (R430; DESIGN CHOICE, log entry 98). -/
def operandFault (word : Nat) (bs : List Byte) : Option CmdStatus :=
  let code := bits word 0 12
  let len := bits word 12 12
  if (listedLen code bs).any (· != len) then some .badLength
  else if (flagPlaces code len).any (fun o => decide (1 < field bs o 4)) then some .refused
  else none

/-- The command word of a code and a number of operand bytes. -/
def cmdWordOf (code len : Nat) : Nat := code + 4096 * len

/-- The firmware executes the command whose operands stand in its mailbox, and ends it if it can. -/
def State.runCommand (s : State) (recovery : Bool) (word : Nat) (row : Instr) (f : State → State × CmdEnd) : State :=
  let r := f s
  r.1.setBox recovery (boxAfter (s.fw.box recovery) word row r.2)

/-- A command: operands and raw bytes `raw` after them. While its word stands in the mailbox with these operands and has not begun,
it is executed; while another command is in progress its word is discarded and busy is set; else the operands and the word are
written and the command is executed, unless its word has a fault (R430). Values that no operand can hold are no command. -/
def State.command (s : State) (recovery : Bool) (code : Nat) (fs : List Operand) (raw : List Byte) (row : Instr)
    (f : State → State × CmdEnd) : State :=
  let ops := operandBytes fs ++ raw
  let word := cmdWordOf code ops.length
  if !s.fw.serves recovery || !operandsFit fs then s
  else
    let m := s.fw.box recovery
    match m.cmd with
    | some w =>
      if m.begun.isNone && w == word && m.operands ops.length == ops then s.runCommand recovery word row f
      else s.setBox recovery { m with busy := true }
    | none =>
      let m1 := { m.overlay 0 ops with busy := false }
      match wordFault recovery word with
      | some x => s.setBox recovery (boxAfter m1 word row (ends x))
      | none => (s.setBox recovery m1).runCommand recovery word row f

/-- A management command that works on tenants: refused in the lifecycles that have none (R433). -/
def State.tenantCmd (s : State) (code : Nat) (fs : List Operand) (row : Instr) (f : State → State × CmdEnd) : State :=
  s.command false code fs [] row (fun s => if s.fw.tenants then f s else (s, ends .refused))

/-- The host writes into a mailbox's payload (R430). -/
def State.payloadWrite (s : State) (recovery : Bool) (offset : Nat) (bs : List Byte) : State :=
  if s.fw.serves recovery then s.setBox recovery ((s.fw.box recovery).overlay offset bs) else s

/-- COMMAND_WORD: a command word alone, for the operands that stand in the payload. While a command is in progress it is discarded;
one without a fault in itself or its operands is in progress from then on. -/
def State.commandWord (s : State) (recovery : Bool) (word : Nat) : State :=
  if !s.fw.serves recovery then s
  else
    let m := s.fw.box recovery
    if m.cmd.isSome then s.setBox recovery { m with busy := true }
    else
      let m1 := { m with busy := false }
      match (wordFault recovery word).orElse (fun _ => operandFault word m1.payload) with
      | some x => s.setBox recovery (boxAfter m1 word (.commandWord recovery word) (ends x))
      | none => s.setBox recovery { m1 with done := false, cmd := some (word % 2 ^ 24) }

def execCommandWord (recovery : Bool) (word : Nat) (s : State) : Out := .next (s.commandWord recovery word)

/-- R430: the status word of a mailbox. -/
def Mailbox.statusWord (m : Mailbox) : Nat :=
  m.status + 2 ^ 16 * m.rlen + (if m.busy then 2 ^ 30 else 0) + (if m.done then 2 ^ 31 else 0)

/-- R430: the 4-byte word at an offset of a mailbox's page. The command word reads as the command in progress, else 0
(DESIGN CHOICE, log entry 70). -/
def Mailbox.word (m : Mailbox) (offset : Nat) : Nat :=
  match offset with
  | 0 => m.cmd.getD 0
  | 4 => m.statusWord
  | _ => ofBytesLE ((m.payload.drop (offset - 8)).take 4)

/-- R430: the 4-byte word at an offset of the BAR. -/
def State.barWord (s : State) (offset : Nat) : Nat :=
  if offset < 0x400000 then s.queueWord (offset / 4096) (offset % 4096)
  else if offset < 0x401000 then (if s.fw.serves false then s.fw.mgmt.word (offset - 0x400000) else 0)
  else if offset < 0x402000 then s.fw.recovery.word (offset - 0x401000)
  else 0

/-! ## The boot ROM (R431) -/

def execLoadChunk (offset : Nat) (bytes : List Byte) (s : State) : Out :=
  .next (s.command true 0x001 [(4, offset)] bytes (.loadChunk offset bytes) (fun s =>
    ({ s with fw := { s.fw with chunks := writeCells s.fw.chunks offset bytes } }, ends .ok)))

/-- VERIFY: an image that verifies goes to flash, and boot continues. -/
def execVerify (s : State) : Out :=
  .next (s.command true 0x002 [] [] .verify (fun s =>
    let img := s.fw.image
    if Config.imageOk img then (({ s with fw := { s.fw with flash := img, chunks := [] } } : State).bootUp, ends .ok)
    else (s, ends .badImage)))

def execDiscard (s : State) : Out :=
  .next (s.command true 0x003 [] [] .discard (fun s => ({ s with fw := { s.fw with chunks := [] } }, ends .ok)))

/-- ROM_STATE: the ROM that serves the mailbox waits for an image; while it boots or verifies it serves no command of the mailbox
(R430, R431). -/
def execRomState (s : State) : Out := .next (s.command true 0x004 [] [] .romState (fun s => (s, some (.ok, bytesLE 4 1))))

/-! ## Attestation, lifecycle, debug (R432, R433) -/

/-- Bytes brought to a length. -/
def sized (n : Nat) (bs : List Byte) : List Byte := (bs ++ zeros n).take n

/-- R432: the bytes of a partition's configuration: cores, key ids, windows, queues. -/
def State.partConfig (s : State) (part : Nat) (p : Partition) : List Byte :=
  p.cores.flatMap (bytesLE 4) ++ p.keys.flatMap (bytesLE 4) ++
  (s.windows.filter (fun w => p.keys.contains w.2.key)).flatMap (fun w =>
    bytesLE 4 w.1 ++ bytesLE 8 w.2.hpa ++ bytesLE 8 w.2.size ++ bytesLE 8 w.2.pa ++ bytesLE 4 w.2.key) ++
  (s.eloa.filter (fun q => q.2.part == some part)).flatMap (fun q => bytesLE 4 q.1 ++ q.2.keys.flatMap (bytesLE 4) ++ bytesLE 4 q.2.die)

/-- R432: the SHA-256 digest of bytes. -/
def digestOf (bs : List Byte) : List Byte := (sha256 (bs.map BitVec.toNat)).map (BitVec.ofNat 8)

/-- R432: the attestation report. -/
def State.report (s : State) (part : Nat) (p : Partition) (nonce : List Byte) : List Byte :=
  let body := bytesLE 4 1 ++ [BitVec.ofNat 8 s.fw.lifecycle, Config.debugByte (s.fw.lifecycle :: s.fw.unlocked.getD 0 :: p.token.getD 0 :: s.fw.sessions)] ++ zeros 2 ++
    sized 32 nonce ++ digestOf s.fw.flash ++ digestOf (s.partConfig part p) ++
    bytesLE 16 s.fw.serial
  body ++ sized 384 (Config.signature body)

def execAttest (part : Nat) (nonce : List Byte) (s : State) : Out :=
  .next (s.command false 0x100 [(4, part)] nonce (.attest part nonce) (fun s =>
    match tget s.parts part with
    | none => (s, ends .notFound)
    | some p =>
      if s.fw.idErased then (s, ends .refused)
      else ({ s with parts := tput s.parts part { p with nonce := sized 32 nonce } }, some (.ok, s.report part p nonce))))

/-- LIFECYCLE: the next lifecycle, signed by Urwell. Return is entered when no partition is at work. What opened halt-debug in the
lifecycle that is left opens it no longer: its sessions end, and what they have halted goes on. -/
def execLifecycle (target : Nat) (signed : List Byte) (s : State) : Out :=
  .next (s.command false 0x101 [(4, target)] signed (.lifecycle target signed) (fun s =>
    if target ≠ s.fw.lifecycle + 1 ∨ 3 < target ∨ !Config.transitionOk [s.fw.lifecycle, target] signed then (s, ends .refused)
    else if target = 3 then
      if s.parts.any (fun p => s.busyPart p.1) then (s, ends .refused) else (s.enterReturn, ends .ok)
    else ({ s.endSessions with fw := { s.endSessions.fw with lifecycle := target, unlocked := none } }, ends .ok)))

/-- DEBUG_TOKEN: of a partition in production, of Urwell in provisioned. -/
def execDebugToken (part expiry : Nat) (signed : List Byte) (s : State) : Out :=
  .next (s.command false 0x102 [(4, part), (8, expiry)] signed (.debugToken part expiry signed) (fun s =>
    if s.fw.lifecycle = 1 then
      if Config.tokenOk [s.fw.serial, expiry] [] signed then ({ s with fw := { s.fw with unlocked := some expiry } }, ends .ok)
      else (s, ends .refused)
    else if s.fw.lifecycle = 2 then
      match tget s.parts part with
      | none => (s, ends .notFound)
      | some p =>
        if Config.tokenOk [s.fw.serial, expiry, p.debugKey] p.nonce signed then
          ({ s with parts := tput s.parts part { p with token := some expiry } }, ends .ok)
        else (s, ends .refused)
    else (s, ends .refused)))

/-! ## Partitions and keys -/

/-- The operands of PARTITION_CREATE. -/
def createOperands (x : PartitionSpec) : List Operand :=
  listOperands x.cores ++ listOperands x.keys ++ [(4, x.pages.length)] ++ x.pages.flatMap (fun r => [(8, r.1), (8, r.2)]) ++
  [(8, x.root), (4, x.tabKey), (8, x.saveBase), (8, x.saveLen), (384, x.debugKey)]

def execPartitionCreate (spec : PartitionSpec) (s : State) : Out :=
  .next (s.tenantCmd 0x110 (createOperands spec) (.partitionCreate spec) (fun s =>
    if s.mayCreate spec then
      let n := freeKeyFrom 0 s.parts
      (s.createPart n spec, some (.ok, bytesLE 4 n))
    else (s, ends .refused)))

/-- PARTITION_RESET: in progress until the partition's last tread is gone. -/
def execPartitionReset (part : Nat) (s : State) : Out :=
  .next (s.tenantCmd 0x111 [(4, part)] (.partitionReset part) (fun s =>
    if (tget s.parts part).isNone then (s, ends .notFound)
    else
      let s1 := s.resetPart part
      (s1, if s1.resetting part then none else ends .ok)))

/-- KEY_ASSIGN: refused while the previous partition is at work; a generation about to wrap is scrubbed first (R416). -/
def execKeyAssign (key part : Nat) (s : State) : Out :=
  .next (s.tenantCmd 0x112 [(4, key), (4, part)] (.keyAssign key part) (fun s =>
    let e := s.mem.keyOf key
    if 1024 ≤ key ∨ (tget s.parts part).isNone then (s, ends .notFound)
    else if e.state = .scrubbing ∨ e.part.any s.busyPart then (s, ends .refused)
    else if e.gen = 0xFFFF then (s.beginScrub key part, none)
    else (s.assignKey key part, ends .ok)))

/-- A rotation begins; a second one waits for the first (R414). -/
def State.keyRotate (s : State) (key : Nat) : State × CmdEnd :=
  match (s.mem.keyOf key).state with
  | .assigned => if 1024 ≤ key then (s, ends .notFound) else (s.rotateKey key, ends .ok)
  | .rotating => (s, none)
  | _ => (s, ends .refused)

/-- KEY_ROTATE. -/
def execKeyRotate (key : Nat) (s : State) : Out :=
  .next (s.tenantCmd 0x113 [(4, key)] (.keyRotate key) (fun s => s.keyRotate key))

/-- WINDOW_BIND (R423). -/
def execWindowBind (window hpa size pa key : Nat) (s : State) : Out :=
  .next (s.tenantCmd 0x114 [(4, window), (8, hpa), (8, size), (8, pa), (4, key)] (.windowBind window hpa size pa key) (fun s =>
    let st := (s.mem.keyOf key).state
    if 64 ≤ window then (s, ends .notFound)
    else if size = 0 then ({ s with windows := tdel s.windows window }, ends .ok)
    else if hpa % 2 ^ 21 ≠ 0 ∨ size % 2 ^ 21 ≠ 0 ∨ (st ≠ .assigned ∧ st ≠ .rotating) then (s, ends .refused)
    else
      let w : Window := { hpa := hpa, size := size, pa := pa, key := key }
      ({ s with windows := tput s.windows window w }, ends .ok)))

/-- QUEUE_BIND (R424): a queue of another partition is refused. -/
def execQueueBind (q part : Nat) (keys : List Nat) (die : Nat) (s : State) : Out :=
  .next (s.tenantCmd 0x115 ([(4, q), (4, part)] ++ listOperands keys ++ [(4, die)]) (.queueBind q part keys die) (fun s =>
    match tget s.parts part with
    | none => (s, ends .notFound)
    | some p =>
      if 1024 ≤ q then (s, ends .notFound)
      else if 4 ≤ die ∨ !keys.all p.keys.contains ∨ (tget s.eloa q).any (fun e => e.part != some part) then (s, ends .refused)
      else
        let e : EloaQueue :=
          { part := some part, keys := keys, die := die, base := 0, size := 0, enabled := false, tail := 0, head := 0, stop := 0 }
        ({ s with eloa := tput s.eloa q e }, ends .ok)))

/-- SAVE_REGION (R355): the region moves only while no save area of the partition is in use. -/
def execSaveRegion (part base size : Nat) (s : State) : Out :=
  .next (s.tenantCmd 0x116 [(4, part), (8, base), (8, size)] (.saveRegion part base size) (fun s =>
    match tget s.parts part with
    | none => (s, ends .notFound)
    | some p =>
      if !(s.savesOf part p.saveStart).isEmpty then (s, ends .refused)
      else ({ s with parts := tput s.parts part { p with saveBase := base, saveLen := size } }, ends .ok)))

/-! ## Rings, streams, channels (R442, R444, R456) -/

/-- A power of two between two exponents. -/
def powerIn (lo hi n : Nat) : Bool := (List.range (hi + 1)).any (fun k => decide (lo ≤ k) && n == 2 ^ k)

/-- R444: the storage of a ring. -/
def ringOk (x : RingSpec) : Bool :=
  decide (x.ring < 1024) &&
  (if x.hall then
    x.base % 64 == 0 && powerIn 4 15 x.slots && decide (x.base / 2 ^ 26 / 2 = x.ring / 256) && decide (x.base % 2 ^ 26 / 2 ^ 21 < 24) &&
    decide (x.base / 2 ^ 21 = (x.base + 64 * x.slots - 1) / 2 ^ 21)
  else x.base % 4096 == 0 && powerIn 4 24 x.slots)

/-- A ring as configuration leaves it. -/
def ringAt (x : RingSpec) : Ring :=
  { part := x.part, hall := x.hall, base := x.base, slots := x.slots, overwrite := x.overwrite, head := 0, claimed := 0, tail := 0,
    epoch := 0, losses := Losses.zero, pending := Losses.zero, pendEpoch := 0, sealedGap := none, resetDue := none, gaps := 0,
    overrun := false, claims := [], spans := [], kid := 0, waiters := [] }

/-- The operands of RING_CONFIG. -/
def ringOperands (x : RingSpec) : List Operand :=
  [(4, x.ring), (4, x.part), (4, x.hall.toNat), (8, x.base), (4, x.slots), (4, x.overwrite.toNat)]

/-- R442: every key entry that names a ring has a key id of a partition. -/
def State.kidsOf (s : State) (ring part : Nat) : Bool :=
  s.ports.all (fun p => p.2.keys.all (fun k => k.2.ring != ring ||
    (tget s.parts part).any (fun x => x.keys.contains k.2.kid)))

/-- RING_CONFIG: the ring is configured and empty; claims that wait at it go on waiting. -/
def execRingConfig (spec : RingSpec) (s : State) : Out :=
  .next (s.tenantCmd 0x117 (ringOperands spec) (.ringConfig spec) (fun s =>
    if (tget s.parts spec.part).isNone then (s, ends .notFound)
    else if !ringOk spec || !s.kidsOf spec.ring spec.part then (s, ends .refused)
    else
      let ws := match tget s.rings spec.ring with
        | some r => if r.part = spec.part then r.waiters else []
        | none => []
      ({ s with rings := tput s.rings spec.ring { ringAt spec with waiters := ws } }, ends .ok)))

/-- The key id of a port key entry belongs to its ring's partition (R442); a ring that is not configured has none yet. -/
def State.kidOk (s : State) (ring kid : Nat) : Bool :=
  match tget s.rings ring with
  | some r => (tget s.parts r.part).any (fun p => p.keys.contains kid)
  | none => true

/-- The operands of STREAM_TABLE. -/
def streamOperands (x : StreamWrite) : List Operand :=
  match x with
  | .stream port n source stream key => [(4, port), (4, n), (8, source), (4, stream), (4, key)]
  | .key port n valid key ring kid customer =>
    [(4, port), (4, n), (4, valid.toNat), (32, key), (4, ring), (4, kid), (4, customer)]

/-- STREAM_TABLE: an entry of a stream table or of a port key table; a port that an error stopped goes on with its tables
reinstalled (R461). What the 10 bits of a kid or the 16 of a label cannot hold is refused (R442). -/
def execStreamTable (entry : StreamWrite) (s : State) : Out :=
  .next (s.tenantCmd 0x118 (streamOperands entry) (.streamTable entry) (fun s =>
    match entry with
    | .stream port n source stream key =>
      if 12 ≤ port ∨ 16384 ≤ n ∨ 4096 ≤ key then (s, ends .notFound)
      else
        let e : StreamEntry := { source := source, stream := stream, key := key }
        (s.modPort port (fun p => { p with stopped := false, streams := tput p.streams n e }), ends .ok)
    | .key port n valid key ring kid customer =>
      if 12 ≤ port ∨ 4096 ≤ n then (s, ends .notFound)
      else if !valid then (s.modPort port (fun p => { p with stopped := false, keys := tdel p.keys n }), ends .ok)
      else if ring / 256 ≠ port / 3 ∨ 1024 ≤ kid ∨ 2 ^ 16 ≤ customer ∨ !s.kidOk ring kid then (s, ends .refused)
      else
        let e : PortKey := { key := key, ring := ring, kid := kid, customer := customer }
        (s.modPort port (fun p => { p with stopped := false, keys := tput p.keys n e }), ends .ok)))

/-- R456: the fields of a channel: its key entry is one of the port's 4,096 (R442), which the messages consult as they arrive. -/
def State.channelOk (s : State) (x : ChannelSpec) : Bool :=
  decide (x.chan < 1024) && decide (x.port < 12) && decide (x.port / 3 = x.chan / 256) && decide (x.key < 4096) &&
  decide (x.len ≤ 2 ^ 32) &&
  (if x.hall then
    decide (x.base % 2 ^ 26 / 2 ^ 21 < 24) && decide (x.base / 2 ^ 21 = (x.base + x.len - 1) / 2 ^ 21) &&
    (s.coresOf x.part).contains (hallCore x.base)
  else (tget s.parts x.part).any (fun p => p.keys.contains x.kid))

/-- The operands of CHANNEL_CONFIG. -/
def channelOperands (x : ChannelSpec) : List Operand :=
  [(4, x.chan), (4, x.part), (4, x.port), (8, x.peer), (4, x.peerChan), (4, x.key), (4, x.hall.toNat), (8, x.base), (4, x.kid),
   (8, x.len)]

/-- CHANNEL_CONFIG: receives that wait at the channel go on waiting. Channels are named by `256 * die + number`. -/
def execChannelConfig (spec : ChannelSpec) (s : State) : Out :=
  .next (s.tenantCmd 0x119 (channelOperands spec) (.channelConfig spec) (fun s =>
    if (tget s.parts spec.part).isNone then (s, ends .notFound)
    else if !s.channelOk spec then (s, ends .refused)
    else
      let ws := match tget s.chans spec.chan with
        | some x => if x.part = spec.part then x.waiters else []
        | none => []
      let c : Channel :=
        { part := spec.part, port := spec.port, peer := spec.peer, peerChan := spec.peerChan, key := spec.key, hall := spec.hall,
          base := spec.base, kid := spec.kid, len := spec.len, count := 0, notices := [], error := 0, waiters := ws,
          clock := [0, 0, 0, 0], early := [] }
      ({ s with chans := tput s.chans spec.chan c }, ends .ok)))

/-! ## Pre-emption, scheduling, power, telemetry -/

/-- The instance that a partition and a number name can still be pre-empted: it runs, or its number has not been given yet, when
the request waits for it (R352, R324). -/
def State.mayName (s : State) (part inst : Nat) : Bool :=
  match tget s.parts part with
  | none => false
  | some p => decide (p.nextInst ≤ inst) || s.runs.any (fun x => x.2.part == part && x.2.number == inst && !x.2.nests.all (·.sealed))

/-- PREEMPT (R352). -/
def execPreempt (part inst mask kind phase grace : Nat) (s : State) : Out :=
  .next (s.tenantCmd 0x120 [(4, part), (4, inst), (8, mask), (4, kind), (4, phase), (4, grace)] (.preempt part inst mask kind phase grace) (fun s =>
    if 1 < kind ∨ 100000 < grace then (s, ends .refused)
    else if !s.mayName part inst then (s, ends .notFound)
    else
      let n := s.fw.nextReq
      let q : Preempt := { number := n, part := part, inst := inst, mask := mask, move := kind == 1, from_ := phase, grace := grace
                           since := allDies.map (tgetD 0 s.wall), noSpace := false }
      (({ s with fw := { s.fw with nextReq := n + 1 } } : State).addRequest q, some (.ok, bytesLE 4 n))))

def execPreemptWithdraw (request : Nat) (s : State) : Out :=
  .next (s.tenantCmd 0x121 [(4, request)] (.preemptWithdraw request) (fun s =>
    if s.requests.any (fun r => r.number == request) then (s.dropRequest request, ends .ok) else (s, ends .notFound)))

/-- FAIRNESS (R98): a power of two from 256 to 65,536. -/
def execFairness (part period : Nat) (s : State) : Out :=
  .next (s.tenantCmd 0x122 [(4, part), (4, period)] (.fairness part period) (fun s =>
    match tget s.parts part with
    | none => (s, ends .notFound)
    | some p => if powerIn 8 16 period then ({ s with parts := tput s.parts part { p with fair := period } }, ends .ok) else (s, ends .refused)))

/-- POWER_LIMIT (R19, R20): up to 2,500 W. -/
def execPowerLimit (watts : Nat) (s : State) : Out :=
  .next (s.command false 0x123 [(4, watts)] [] (.powerLimit watts) (fun s =>
    if 2500 < watts then (s, ends .refused)
    else ({ s with fw := { s.fw with limit := watts, capped := decide (watts ≤ s.fw.drawn) || decide (40 < s.fw.inlet) } }, ends .ok)))

/-- The power states by number: run, idle, retain, off. -/
def powerOf (n : Nat) : PowerState :=
  match n with
  | 0 => .run
  | 1 => .idle
  | 2 => .retain
  | _ => .off

/-- POWER_STATE (R434). -/
def execPowerState (target : Nat) (s : State) : Out :=
  .next (s.command false 0x124 [(4, target)] [] (.powerState target) (fun s =>
    if 3 < target then (s, ends .refused)
    else if 2 ≤ target ∧ !s.maySleep then (s, ends .refused)
    else (s.enterPower (powerOf target), ends .ok)))

/-- The telemetry counters: corrected errors and roll-overs of each stack, corrected errors of each core, cluster, die and port,
table errors, discarded packets and unclassified records of each port, the last power sample, notifications of partitions. -/
def State.counters (s : State) : List Nat :=
  (List.range 8).map (fun k => tgetD 0 s.mem.soft k) ++ (List.range 8).map (fun k => tgetD 0 s.mem.rollover k) ++
  (List.range 192).map (fun k => tgetD 0 s.mem.softCore k) ++ (List.range 8).map (fun k => tgetD 0 s.mem.softCluster k) ++
  (List.range 4).map (fun k => tgetD 0 s.mem.softDie k) ++ (List.range 12).map (fun k => tgetD 0 s.mem.softFabric k) ++
  (List.range 12).map (fun k => tgetD 0 s.mem.tableErrors k) ++
  (List.range 12).map (fun p => (s.port p).discards) ++ (List.range 12).map (fun p => (s.port p).unclass) ++
  s.ports.flatMap (fun p => p.2.keys.map (fun k => k.2.customer)) ++
  [s.fw.drawn, s.fw.inlet] ++ s.parts.map (fun p => p.2.notices)

/-- TELEMETRY: the counter that the selector names (Config). -/
def execTelemetry (selector : Nat) (s : State) : Out :=
  .next (s.command false 0x130 [(4, selector)] [] (.telemetry selector) (fun s => (s, some (.ok, bytesLE 8 (s.counters.getD (Config.counterOf selector) 0)))))

/-- An entry of the error log: stack, scope, tile. -/
def errorBytes (e : MemError) : List Byte := bytesLE 4 e.stack ++ bytesLE 4 e.scope ++ bytesLE 8 e.tile

/-- ERROR_LOG: the entries from an index that fit a payload. -/
def execErrorLog (start : Nat) (s : State) : Out :=
  .next (s.command false 0x131 [(4, start)] [] (.errorLog start) (fun s => (s, some (.ok, ((s.mem.errors.drop start).take 255).flatMap errorBytes))))

/-! ## Commands that wait (R429, R414, R416) -/

/-- The command that waits in the management mailbox ends. -/
def State.endCommand (s : State) (row : Instr) (r : CmdEnd) : State :=
  match r with
  | none => s
  | some _ => s.setBox false (boxAfter s.fw.mgmt 0 row r)

/-- A command that has begun and waits goes on: a reset until the partition's last tread is gone, an assignment until the scrub has
given the key id to its partition, a rotation until the one before it has ended. -/
def State.goOn (s : State) (row : Instr) : State :=
  match row with
  | .partitionReset part => s.endCommand row (if s.resetting part then none else ends .ok)
  | .keyAssign key _ => s.endCommand row (if (s.mem.keyOf key).state = .scrubbing then none else ends .ok)
  | .keyRotate key =>
    let r := s.keyRotate key
    r.1.endCommand row r.2
  | _ => s

/-- What is due after an event: partition resets whose last tread is gone end, and the command that waits goes on. -/
def State.due (s : State) : State :=
  let s1 := (s.parts.map (·.1)).foldl State.endReset s
  match s1.fw.mgmt.begun with
  | some row => s1.goOn row
  | none => s1

end Sys2Proof.Machine
end

