-- ==== Sys2Proof/Machine/Outside.lean ====
section
/-!
DEFINITION. What reaches the machine from outside, failures of its parts, and the passing of time (`Input`, `Turn.elapse`).
-/

namespace Sys2Proof.Machine

/-- R290: an uncorrectable error in a Colonnade, met by its oldest command: counters and planes are as after a partition reset, and the
entries of the commands up to the next cla.ld or cla.cfg, in acceptance order, are error entries. -/
def State.clacError (s : State) (core : Nat) : State :=
  match (s.clac core).cmds with
  | [] => s
  | c :: cs =>
    (s.modClac core (fun a =>
      { a with
        rest := 127, counters := [], plane := [], other := [], cmds := { c with spoiled := true, finder := true } :: spoil cs
        failed := !(a.cfgd || cs.any (·.cfgd)) })).coreError (landingOf c.who.fk)

/-- R316: an uncorrectable error in a hall queue's state: the queue is deleted, and the tread that made it ends. -/
def State.queueError (s : State) (base : Nat) : State :=
  match tget s.hqueues base with
  | none => s
  | some h =>
    let s1 := s.deleteHq base
    match (tget s.treads h.owner).bind (·.landings.head?) with
    | some lid => s1.coreError lid
    | none => s1

/-- R316: an uncorrectable error in a gallery entry: a clean one is dropped, a dirty or poisoned one becomes poisoned and is
contained. -/
def State.galleryError (s : State) (tile : Nat) : State :=
  match tget s.mem.gallery tile with
  | none => s
  | some e =>
    if e.dirty || e.poisoned then
      let e1 : GalEntry := { e with poisoned := true, dirty := false, data := [] }
      ({ s with mem := { s.mem with gallery := tput s.mem.gallery tile e1 } } : State).contain tile 4 true none
    else { s with mem := { s.mem with gallery := tdel s.mem.gallery tile } }

/-- R56: a code line that is not pinned leaves the caches that serve a core. -/
def State.dropLine (s : State) (core va : Nat) : State :=
  let drop := fun (ls : List CodeLine) => ls.filter (fun l => l.pinned || l.va != va)
  { s with mem := { s.mem with
      l0 := tmodD [] s.mem.l0 core drop
      ccache := tmodD [] s.mem.ccache (core / 24) drop } }

/-- R344: an uncorrectable error in the state that a Stairwell keeps of an instance. -/
def State.runError (s : State) (r : Nat) : State :=
  match tget s.runs r with
  | none => s
  | some run => (s.cancelRun r).notePart run.part

/-- R461: an uncorrectable error in a ring's state. -/
def State.ringError (s : State) (n : Nat) : State :=
  match tget s.rings n with
  | none => s
  | some r => (s.modRing n Ring.emptied).notePart r.part

/-- A corrected error is counted in the telemetry of its unit (R418, R240, R290, R316, R344, R461). -/
def Memory.countSoft (m : Memory) (u : ErrUnit) : Memory :=
  match u with
  | .stack k => { m with soft := tmodD 0 m.soft k (· + 1) }
  | .core k => { m with softCore := tmodD 0 m.softCore k (· + 1) }
  | .cluster k => { m with softCluster := tmodD 0 m.softCluster k (· + 1) }
  | .die k => { m with softDie := tmodD 0 m.softDie k (· + 1) }
  | .port k => { m with softFabric := tmodD 0 m.softFabric k (· + 1) }

/-- An input is taken. -/
def State.input (s : State) (x : Input) : State :=
  match x with
  | .hostWrite a bs => (s.applyHost a bs).stampHost a bs.length [0, 0, 0, 0] s.hostClock
  | .hostAcquire a n => { s with hostClock := joinClock s.hostClock (s.mem.sysClock a n) }
  | .hostPoison u => { s with mem := { s.mem with hostBad := u :: s.mem.hostBad.filter (· != u) } }
  | .hallError a => { s with mem := { s.mem with hallBad := a :: s.mem.hallBad.filter (· != a) } }
  | .evictTile t => if s.mem.victimIn t = some t then { s with mem := s.mem.evict t } else s
  | .dropLine core va => s.dropLine core va
  | .coreError lid => s.coreError lid
  | .clacError core => s.clacError core
  | .queueError base => s.queueError base
  | .galleryError t => s.galleryError t
  | .runError r => s.runError r
  | .ringError n => s.ringError n
  | .portError p =>
    { s.modPort p (fun x => { x with stopped := true }) with mem := { s.mem with tableErrors := tmodD 0 s.mem.tableErrors p (· + 1) } }
  | .softError u => { s with mem := s.mem.countSoft u }
  | .stackError t kind => { s with mem := s.mem.suffer t kind }
  | .trainingStore r mac => { s with fw := { s.fw with stored := (r, mac) } }
  | .payloadWrite recovery offset bs => s.payloadWrite recovery offset bs
  | .barRead offset => { s with hostRead := some (some (bytesLE 4 (s.barWord offset))) }
  | .collUnit die m k => s.collUnit die m k
  | .newelError => { s with contained := true }
  | .trainingError _ => { s with contained := true }

/-- The rows that pass a test among those that extend outer indices by `n` levels. -/
def NestDesc.countKeys (d : NestDesc) (b0 : Nat) (ok : List Int → Bool) : Nat → List Int → Nat
  | 0, pre => if d.rowSize b0 pre != 0 && ok pre then 1 else 0
  | n + 1, pre =>
    let lo := d.low pre.length pre
    ((List.range (d.high b0 pre.length pre - lo).toNat).map (fun (i : Nat) => d.countKeys b0 ok n (pre ++ [lo + i]))).foldl (· + ·) 0

/-- R328: the rows of a nest that exist on a die and find no free slot to open into. -/
def State.rowWaits (s : State) (d r j : Nat) : Nat :=
  match s.nest? r j with
  | none => 0
  | some (run, n) =>
    if n.active && decide (1024 ≤ (s.die d).rows.length) then
      let v := s.view d r j run n
      n.desc.countKeys v.b0 (fun k => n.desc.owner run.die k == d && s.mem.covers d (n.raiseClock k) &&
        (match v.last with
          | some l => lexLt l k
          | none => true)) (n.desc.depth - 1) []
    else 0

/-- A 32 ms refresh window on the wall clock, 2,250 to a microsecond (R402). -/
def refreshWindow : Nat := 72000000

/-- R402: a refresh window of a die's stacks ends: their rows are closed and their activations counted from 0 again. -/
def Memory.refresh (m : Memory) (d : Nat) : Memory :=
  { m with
    acts := m.acts.filter (fun x => decide (bits x.1 26 2 ≠ d))
    rowHits := m.rowHits.filter (fun x => decide (bits x.2.1 26 2 ≠ d)) }

/-- The wall-clock time that `n` cycles take: n at 2.25 GHz; under a cap more, by a free value (R17, log entry 21). -/
def State.wallTime (s : State) (n : Nat) : Nat := n + (if s.fw.capped then Config.slowTime s.frees n else 0)

/-- Cycles pass on a die: its counter (R95), its wall clock (R17), its refresh windows by that clock (R402), and the stalls of rows
that wait (R328). -/
def State.elapse (s : State) (d n : Nat) : State :=
  let w := tgetD 0 s.wall d
  let k := s.wallTime n
  let s1 := { s with
    cycles := tmodD 0 s.cycles d (fun c => (c + n) % 2 ^ 64)
    wall := tputD 0 s.wall d (w + k)
    frees := if s.fw.capped then s.frees + 1 else s.frees
    mem := if (w + k) / refreshWindow = w / refreshWindow then s.mem else s.mem.refresh d }
  (s.runs.flatMap (fun p => (List.range p.2.nests.length).map (fun j => (p.1, j)))).foldl (fun a x =>
    a.modNest x.1 x.2 (fun y => { y with stalls := y.stalls + n * s.rowWaits d x.1 x.2 })) s1

end Sys2Proof.Machine
end

