-- ==== Sys2Proof/Machine/Dispatch.lean ====
section
/-!
DEFINITION. One arm per row of the opcode table: each is one call of that row's meaning.
-/

namespace Sys2Proof.Machine

/-- The effect of one instruction or event on the machine. -/
def exec (i : Instr) (s : State) : Host.Outcome State Fault Refusal :=
  match i with
  | .fairnessTimer fk => Sys2Proof.Machine.execFairnessTimer fk s
  | .deferredSwitch fk => Sys2Proof.Machine.execDeferredSwitch fk s
  | .flightSwap core bay => Sys2Proof.Machine.execFlightSwap core bay s
  | .activeSetFill core bay => Sys2Proof.Machine.execActiveSetFill core bay s
  | .aging core bay => Sys2Proof.Machine.execAging core bay s
  | .loadReturn id => Sys2Proof.Machine.execLoadReturn id s
  | .bind id => Sys2Proof.Machine.execBind id s
  | .drain id => Sys2Proof.Machine.execDrain id s
  | .apply id => Sys2Proof.Machine.execApply id s
  | .send n => Sys2Proof.Machine.execSend n s
  | .mirror n => Sys2Proof.Machine.execMirror n s
  | .mmaComplete core => Sys2Proof.Machine.execMmaComplete core s
  | .accComplete core => Sys2Proof.Machine.execAccComplete core s
  | .claCommandStart core => Sys2Proof.Machine.execClaCommandStart core s
  | .claEvalComplete core => Sys2Proof.Machine.execClaEvalComplete core s
  | .claSweepEnd core => Sys2Proof.Machine.execClaSweepEnd core s
  | .claImageComplete core => Sys2Proof.Machine.execClaImageComplete core s
  | .copyComplete core n => Sys2Proof.Machine.execCopyComplete core n s
  | .hpostComplete n => Sys2Proof.Machine.execHpostComplete n s
  | .creditGrant base => Sys2Proof.Machine.execCreditGrant base s
  | .galleryFill tile key prio verdict => Sys2Proof.Machine.execGalleryFill tile key prio verdict s
  | .treadRetire tid => Sys2Proof.Machine.execTreadRetire tid s
  | .retirementReport n => Sys2Proof.Machine.execRetirementReport n s
  | .raiseApply n => Sys2Proof.Machine.execRaiseApply n s
  | .b0Update die run nest => Sys2Proof.Machine.execB0Update die run nest s
  | .remoteLookup die run nest point => Sys2Proof.Machine.execRemoteLookup die run nest point s
  | .lookupAnswer n => Sys2Proof.Machine.execLookupAnswer n s
  | .watermarkUpdate die run nest => Sys2Proof.Machine.execWatermarkUpdate die run nest s
  | .rowOpen die => Sys2Proof.Machine.execRowOpen die s
  | .treadRelease die => Sys2Proof.Machine.execTreadRelease die s
  | .dispatch die => Sys2Proof.Machine.execDispatch die s
  | .stealRequest die => Sys2Proof.Machine.execStealRequest die s
  | .stealBackoff die => Sys2Proof.Machine.execStealBackoff die s
  | .admission die => Sys2Proof.Machine.execAdmission die s
  | .phaseSpill tid => Sys2Proof.Machine.execPhaseSpill tid s
  | .graceExpiry tid => Sys2Proof.Machine.execGraceExpiry tid s
  | .forcedSave tid => Sys2Proof.Machine.execForcedSave tid s
  | .qtail q value => Sys2Proof.Machine.execQtail q value s
  | .queueEnable q => Sys2Proof.Machine.execQueueEnable q s
  | .queueDisable q => Sys2Proof.Machine.execQueueDisable q s
  | .registerWrite q offset value => Sys2Proof.Machine.execRegisterWrite q offset value s
  | .launch q => Sys2Proof.Machine.execLaunch q s
  | .cancel q => Sys2Proof.Machine.execCancel q s
  | .loadChunk offset bytes => Sys2Proof.Machine.execLoadChunk offset bytes s
  | .verify => Sys2Proof.Machine.execVerify s
  | .discard => Sys2Proof.Machine.execDiscard s
  | .romState => Sys2Proof.Machine.execRomState s
  | .attest part nonce => Sys2Proof.Machine.execAttest part nonce s
  | .lifecycle target signed => Sys2Proof.Machine.execLifecycle target signed s
  | .debugToken part expiry signed => Sys2Proof.Machine.execDebugToken part expiry signed s
  | .partitionCreate spec => Sys2Proof.Machine.execPartitionCreate spec s
  | .partitionReset part => Sys2Proof.Machine.execPartitionReset part s
  | .keyAssign key part => Sys2Proof.Machine.execKeyAssign key part s
  | .keyRotate key => Sys2Proof.Machine.execKeyRotate key s
  | .windowBind window hpa size pa key => Sys2Proof.Machine.execWindowBind window hpa size pa key s
  | .queueBind q part keys die => Sys2Proof.Machine.execQueueBind q part keys die s
  | .saveRegion part base size => Sys2Proof.Machine.execSaveRegion part base size s
  | .ringConfig spec => Sys2Proof.Machine.execRingConfig spec s
  | .streamTable entry => Sys2Proof.Machine.execStreamTable entry s
  | .channelConfig spec => Sys2Proof.Machine.execChannelConfig spec s
  | .preempt part inst mask kind phase grace => Sys2Proof.Machine.execPreempt part inst mask kind phase grace s
  | .preemptWithdraw request => Sys2Proof.Machine.execPreemptWithdraw request s
  | .fairness part period => Sys2Proof.Machine.execFairness part period s
  | .powerLimit watts => Sys2Proof.Machine.execPowerLimit watts s
  | .powerState target => Sys2Proof.Machine.execPowerState target s
  | .telemetry selector => Sys2Proof.Machine.execTelemetry selector s
  | .errorLog start => Sys2Proof.Machine.execErrorLog start s
  | .coldBoot => Sys2Proof.Machine.execColdBoot s
  | .warmReset => Sys2Proof.Machine.execWarmReset s
  | .recalibration => Sys2Proof.Machine.execRecalibration s
  | .powerSample watts degrees => Sys2Proof.Machine.execPowerSample watts degrees s
  | .debugTokenExpiry part => Sys2Proof.Machine.execDebugTokenExpiry part s
  | .rowThrottle row key => Sys2Proof.Machine.execRowThrottle row key s
  | .throttleRelease row key => Sys2Proof.Machine.execThrottleRelease row key s
  | .rotationSweep key tile => Sys2Proof.Machine.execRotationSweep key tile s
  | .backgroundClear key tile => Sys2Proof.Machine.execBackgroundClear key tile s
  | .scrub key => Sys2Proof.Machine.execScrub key s
  | .linkDown => Sys2Proof.Machine.execLinkDown s
  | .hostMemAccess hpa n write bytes => Sys2Proof.Machine.execHostMemAccess hpa n write bytes s
  | .packetReceive port packet => Sys2Proof.Machine.execPacketReceive port packet s
  | .wireRecord port => Sys2Proof.Machine.execWireRecord port s
  | .collMessage die message => Sys2Proof.Machine.execCollMessage die message s
  | .collAck core n answer => Sys2Proof.Machine.execCollAck core n answer s
  | .collRetryExhausted core n => Sys2Proof.Machine.execCollRetryExhausted core n s
  | .portLinkDown port => Sys2Proof.Machine.execPortLinkDown port s
  | .illegalInstruction => Sys2Proof.Machine.execIllegalInstruction s
  | .fetchFailure poisoned => Sys2Proof.Machine.execFetchFailure poisoned s
  | .stealAnswer die => Sys2Proof.Machine.execStealAnswer die s
  | .linkUp => Sys2Proof.Machine.execLinkUp s
  | .portLinkUp port => Sys2Proof.Machine.execPortLinkUp port s
  | .dieLinkLoss a b => Sys2Proof.Machine.execDieLinkLoss a b s
  | .clusterMeshLoss cluster => Sys2Proof.Machine.execClusterMeshLoss cluster s
  | .commandWord recovery word => Sys2Proof.Machine.execCommandWord recovery word s
  | .haltDebug part op => Sys2Proof.Machine.execHaltDebug part op s
  | .pageMigration part va tile => Sys2Proof.Machine.execPageMigration part va tile s
  | .add d a b t g => Sys2Proof.Machine.execAdd d a b t g s
  | .sub d a b t g => Sys2Proof.Machine.execSub d a b t g s
  | .and d a b t g => Sys2Proof.Machine.execAnd d a b t g s
  | .or d a b t g => Sys2Proof.Machine.execOr d a b t g s
  | .xor d a b t g => Sys2Proof.Machine.execXor d a b t g s
  | .andn d a b t g => Sys2Proof.Machine.execAndn d a b t g s
  | .shl d a b t g => Sys2Proof.Machine.execShl d a b t g s
  | .shr d a b t g => Sys2Proof.Machine.execShr d a b t g s
  | .sar d a b t g => Sys2Proof.Machine.execSar d a b t g s
  | .rot d a b t g => Sys2Proof.Machine.execRot d a b t g s
  | .minS d a b t g => Sys2Proof.Machine.execMinS d a b t g s
  | .maxS d a b t g => Sys2Proof.Machine.execMaxS d a b t g s
  | .minN d a b t g => Sys2Proof.Machine.execMinN d a b t g s
  | .maxN d a b t g => Sys2Proof.Machine.execMaxN d a b t g s
  | .mul d a b t g => Sys2Proof.Machine.execMul d a b t g s
  | .mulhiS d a b t g => Sys2Proof.Machine.execMulhiS d a b t g s
  | .mulhiN d a b t g => Sys2Proof.Machine.execMulhiN d a b t g s
  | .clz d a t g => Sys2Proof.Machine.execClz d a t g s
  | .popc d a t g => Sys2Proof.Machine.execPopc d a t g s
  | .brev d a t g => Sys2Proof.Machine.execBrev d a t g s
  | .abs d a t g => Sys2Proof.Machine.execAbs d a t g s
  | .neg d a t g => Sys2Proof.Machine.execNeg d a t g s
  | .extS8 d a t g => Sys2Proof.Machine.execExtS8 d a t g s
  | .extS16 d a t g => Sys2Proof.Machine.execExtS16 d a t g s
  | .extN8 d a t g => Sys2Proof.Machine.execExtN8 d a t g s
  | .extN16 d a t g => Sys2Proof.Machine.execExtN16 d a t g s
  | .addSatS d a b t g => Sys2Proof.Machine.execAddSatS d a b t g s
  | .addSatN d a b t g => Sys2Proof.Machine.execAddSatN d a b t g s
  | .subSatS d a b t g => Sys2Proof.Machine.execSubSatS d a b t g s
  | .absdiff d a b t g => Sys2Proof.Machine.execAbsdiff d a b t g s
  | .bfx d a b t g => Sys2Proof.Machine.execBfx d a b t g s
  | .bfi d a b t g => Sys2Proof.Machine.execBfi d a b t g s
  | .addi d a n g => Sys2Proof.Machine.execAddi d a n g s
  | .andi d a n g => Sys2Proof.Machine.execAndi d a n g s
  | .ori d a n g => Sys2Proof.Machine.execOri d a n g s
  | .xori d a n g => Sys2Proof.Machine.execXori d a n g s
  | .shi d a o n g => Sys2Proof.Machine.execShi d a o n g s
  | .movi d n g => Sys2Proof.Machine.execMovi d n g s
  | .eq p a b g => Sys2Proof.Machine.execEq p a b g s
  | .ne p a b g => Sys2Proof.Machine.execNe p a b g s
  | .ltS p a b g => Sys2Proof.Machine.execLtS p a b g s
  | .leS p a b g => Sys2Proof.Machine.execLeS p a b g s
  | .ltN p a b g => Sys2Proof.Machine.execLtN p a b g s
  | .leN p a b g => Sys2Proof.Machine.execLeN p a b g s
  | .gtS p a b g => Sys2Proof.Machine.execGtS p a b g s
  | .geS p a b g => Sys2Proof.Machine.execGeS p a b g s
  | .gtN p a b g => Sys2Proof.Machine.execGtN p a b g s
  | .geN p a b g => Sys2Proof.Machine.execGeN p a b g s
  | .eqImm p a n g => Sys2Proof.Machine.execEqImm p a n g s
  | .neImm p a n g => Sys2Proof.Machine.execNeImm p a n g s
  | .ltSImm p a n g => Sys2Proof.Machine.execLtSImm p a n g s
  | .leSImm p a n g => Sys2Proof.Machine.execLeSImm p a n g s
  | .gtSImm p a n g => Sys2Proof.Machine.execGtSImm p a n g s
  | .geSImm p a n g => Sys2Proof.Machine.execGeSImm p a n g s
  | .ltNImm p a n g => Sys2Proof.Machine.execLtNImm p a n g s
  | .geNImm p a n g => Sys2Proof.Machine.execGeNImm p a n g s
  | .pand d a b g => Sys2Proof.Machine.execPand d a b g s
  | .por d a b g => Sys2Proof.Machine.execPor d a b g s
  | .pxor d a b g => Sys2Proof.Machine.execPxor d a b g s
  | .pnot d a g => Sys2Proof.Machine.execPnot d a g s
  | .psetNz d a g => Sys2Proof.Machine.execPsetNz d a g s
  | .pget d g => Sys2Proof.Machine.execPget d g s
  | .fadd d a b t g => Sys2Proof.Machine.execFadd d a b t g s
  | .fsub d a b t g => Sys2Proof.Machine.execFsub d a b t g s
  | .fmul d a b t g => Sys2Proof.Machine.execFmul d a b t g s
  | .fma d a b t g => Sys2Proof.Machine.execFma d a b t g s
  | .fms d a b t g => Sys2Proof.Machine.execFms d a b t g s
  | .fnma d a b t g => Sys2Proof.Machine.execFnma d a b t g s
  | .fmin d a b t g => Sys2Proof.Machine.execFmin d a b t g s
  | .fmax d a b t g => Sys2Proof.Machine.execFmax d a b t g s
  | .fminn d a b t g => Sys2Proof.Machine.execFminn d a b t g s
  | .fmaxn d a b t g => Sys2Proof.Machine.execFmaxn d a b t g s
  | .fabs d a t g => Sys2Proof.Machine.execFabs d a t g s
  | .fneg d a t g => Sys2Proof.Machine.execFneg d a t g s
  | .fcopysign d a b t g => Sys2Proof.Machine.execFcopysign d a b t g s
  | .fsat d a t g => Sys2Proof.Machine.execFsat d a t g s
  | .frint d a t g => Sys2Proof.Machine.execFrint d a t g s
  | .ftrunc d a t g => Sys2Proof.Machine.execFtrunc d a t g s
  | .hadd d a b y g => Sys2Proof.Machine.execHadd d a b y g s
  | .hsub d a b y g => Sys2Proof.Machine.execHsub d a b y g s
  | .hmul d a b y g => Sys2Proof.Machine.execHmul d a b y g s
  | .hfma d a b y g => Sys2Proof.Machine.execHfma d a b y g s
  | .hmin d a b y g => Sys2Proof.Machine.execHmin d a b y g s
  | .hmax d a b y g => Sys2Proof.Machine.execHmax d a b y g s
  | .habs d a y g => Sys2Proof.Machine.execHabs d a y g s
  | .hneg d a y g => Sys2Proof.Machine.execHneg d a y g s
  | .rcp d a t g => Sys2Proof.Machine.execRcp d a t g s
  | .rsqrt d a t g => Sys2Proof.Machine.execRsqrt d a t g s
  | .sqrt d a t g => Sys2Proof.Machine.execSqrt d a t g s
  | .exp2 d a t g => Sys2Proof.Machine.execExp2 d a t g s
  | .log2 d a t g => Sys2Proof.Machine.execLog2 d a t g s
  | .sinpi d a t g => Sys2Proof.Machine.execSinpi d a t g s
  | .cospi d a t g => Sys2Proof.Machine.execCospi d a t g s
  | .tanh d a t g => Sys2Proof.Machine.execTanh d a t g s
  | .fdiv d a b t g => Sys2Proof.Machine.execFdiv d a b t g s
  | .cvtF32S32 d a g => Sys2Proof.Machine.execCvtF32S32 d a g s
  | .cvtF32N32 d a g => Sys2Proof.Machine.execCvtF32N32 d a g s
  | .cvtS32F32 d a g => Sys2Proof.Machine.execCvtS32F32 d a g s
  | .cvtN32F32 d a g => Sys2Proof.Machine.execCvtN32F32 d a g s
  | .cvtF32F16 d a k g => Sys2Proof.Machine.execCvtF32F16 d a k g s
  | .cvtF32Bf16 d a k g => Sys2Proof.Machine.execCvtF32Bf16 d a k g s
  | .cvtF16F32 d a k g => Sys2Proof.Machine.execCvtF16F32 d a k g s
  | .cvtBf16F32 d a k g => Sys2Proof.Machine.execCvtBf16F32 d a k g s
  | .cvtF32E4m3 d a k g => Sys2Proof.Machine.execCvtF32E4m3 d a k g s
  | .cvtF32E5m2 d a k g => Sys2Proof.Machine.execCvtF32E5m2 d a k g s
  | .cvtE4m3F32 d a k g => Sys2Proof.Machine.execCvtE4m3F32 d a k g s
  | .cvtE5m2F32 d a k g => Sys2Proof.Machine.execCvtE5m2F32 d a k g s
  | .cvtF32E2m1 d a k g => Sys2Proof.Machine.execCvtF32E2m1 d a k g s
  | .cvtE2m1F32 d a k g => Sys2Proof.Machine.execCvtE2m1F32 d a k g s
  | .cvtS8F32 d a k g => Sys2Proof.Machine.execCvtS8F32 d a k g s
  | .cvtS4F32 d a k g => Sys2Proof.Machine.execCvtS4F32 d a k g s
  | .feq p a b g => Sys2Proof.Machine.execFeq p a b g s
  | .fne p a b g => Sys2Proof.Machine.execFne p a b g s
  | .flt p a b g => Sys2Proof.Machine.execFlt p a b g s
  | .fle p a b g => Sys2Proof.Machine.execFle p a b g s
  | .fgt p a b g => Sys2Proof.Machine.execFgt p a b g s
  | .fge p a b g => Sys2Proof.Machine.execFge p a b g s
  | .funord p a b g => Sys2Proof.Machine.execFunord p a b g s
  | .ford p a b g => Sys2Proof.Machine.execFord p a b g s
  | .fclass d a g => Sys2Proof.Machine.execFclass d a g s
  | .dotS8x4 d a b g => Sys2Proof.Machine.execDotS8x4 d a b g s
  | .dotN8x4 d a b g => Sys2Proof.Machine.execDotN8x4 d a b g s
  | .dotS4x8 d a b g => Sys2Proof.Machine.execDotS4x8 d a b g s
  | .dotN4x8 d a b g => Sys2Proof.Machine.execDotN4x8 d a b g s
  | .dotE4m3x4 d a b g => Sys2Proof.Machine.execDotE4m3x4 d a b g s
  | .dotE5m2x4 d a b g => Sys2Proof.Machine.execDotE5m2x4 d a b g s
  | .dotE2m1x8 d a b g => Sys2Proof.Machine.execDotE2m1x8 d a b g s
  | .scl d a b k g => Sys2Proof.Machine.execScl d a b k g s
  | .scladd d a b k g => Sys2Proof.Machine.execScladd d a b k g s
  | .ftwosum d a b g => Sys2Proof.Machine.execFtwosum d a b g s
  | .ftwoprod d a b g => Sys2Proof.Machine.execFtwoprod d a b g s
  | .faddPair d a g => Sys2Proof.Machine.execFaddPair d a g s
  | .shflIdx d a b g => Sys2Proof.Machine.execShflIdx d a b g s
  | .shflUp d a b g => Sys2Proof.Machine.execShflUp d a b g s
  | .shflDn d a b g => Sys2Proof.Machine.execShflDn d a b g s
  | .shflXor d a b g => Sys2Proof.Machine.execShflXor d a b g s
  | .bcast d a g => Sys2Proof.Machine.execBcast d a g s
  | .voteAny d a g => Sys2Proof.Machine.execVoteAny d a g s
  | .voteAll d a g => Sys2Proof.Machine.execVoteAll d a g s
  | .voteBallot d a g => Sys2Proof.Machine.execVoteBallot d a g s
  | .matchLanes d a g => Sys2Proof.Machine.execMatchLanes d a g s
  | .redAddS32 d a g => Sys2Proof.Machine.execRedAddS32 d a g s
  | .redAddF32 d a g => Sys2Proof.Machine.execRedAddF32 d a g s
  | .redMin d a g => Sys2Proof.Machine.execRedMin d a g s
  | .redMax d a g => Sys2Proof.Machine.execRedMax d a g s
  | .prefixSum d a g => Sys2Proof.Machine.execPrefixAdd d a g s
  | .xset k a g => Sys2Proof.Machine.execXset k a g s
  | .xadd k b g => Sys2Proof.Machine.execXadd k b g s
  | .ldv d w k o g => Sys2Proof.Machine.execLdv d w k o g s
  | .stv d w k o g => Sys2Proof.Machine.execStv d w k o g s
  | .xlim k a g => Sys2Proof.Machine.execXlim k a g s
  | .ldS8 d b o h g => Sys2Proof.Machine.execLdS8 d b o h g s
  | .ldN8 d b o h g => Sys2Proof.Machine.execLdN8 d b o h g s
  | .ldS16 d b o h g => Sys2Proof.Machine.execLdS16 d b o h g s
  | .ldN16 d b o h g => Sys2Proof.Machine.execLdN16 d b o h g s
  | .ldB32 d b o h g => Sys2Proof.Machine.execLdB32 d b o h g s
  | .ldB64 d b o h g => Sys2Proof.Machine.execLdB64 d b o h g s
  | .ldB128 d b o h g => Sys2Proof.Machine.execLdB128 d b o h g s
  | .stB8 d b o h g => Sys2Proof.Machine.execStB8 d b o h g s
  | .stB16 d b o h g => Sys2Proof.Machine.execStB16 d b o h g s
  | .stB32 d b o h g => Sys2Proof.Machine.execStB32 d b o h g s
  | .stB64 d b o h g => Sys2Proof.Machine.execStB64 d b o h g s
  | .stB128 d b o h g => Sys2Proof.Machine.execStB128 d b o h g s
  | .ldaB32 d b c h g => Sys2Proof.Machine.execLdaB32 d b c h g s
  | .ldaB64 d b c h g => Sys2Proof.Machine.execLdaB64 d b c h g s
  | .stlB32 d b c h g => Sys2Proof.Machine.execStlB32 d b c h g s
  | .stlB64 d b c h g => Sys2Proof.Machine.execStlB64 d b c h g s
  | .atomAddS32 d a b h g => Sys2Proof.Machine.execAtomAddS32 d a b h g s
  | .atomAddF32 d a b h g => Sys2Proof.Machine.execAtomAddF32 d a b h g s
  | .atomMinS d a b h g => Sys2Proof.Machine.execAtomMinS d a b h g s
  | .atomMaxS d a b h g => Sys2Proof.Machine.execAtomMaxS d a b h g s
  | .atomMinN d a b h g => Sys2Proof.Machine.execAtomMinN d a b h g s
  | .atomMaxN d a b h g => Sys2Proof.Machine.execAtomMaxN d a b h g s
  | .atomAnd d a b h g => Sys2Proof.Machine.execAtomAnd d a b h g s
  | .atomOr d a b h g => Sys2Proof.Machine.execAtomOr d a b h g s
  | .atomXor d a b h g => Sys2Proof.Machine.execAtomXor d a b h g s
  | .atomExch d a b h g => Sys2Proof.Machine.execAtomExch d a b h g s
  | .atomCas d a b h g => Sys2Proof.Machine.execAtomCas d a b h g s
  | .atomAddS64 d a b h g => Sys2Proof.Machine.execAtomAddS64 d a b h g s
  | .atomExchB64 d a b h g => Sys2Proof.Machine.execAtomExchB64 d a b h g s
  | .atomCasB64 d a b h g => Sys2Proof.Machine.execAtomCasB64 d a b h g s
  | .lrB32 d a h g => Sys2Proof.Machine.execLrB32 d a h g s
  | .scB32 p a b h g => Sys2Proof.Machine.execScB32 p a b h g s
  | .lrB64 d a h g => Sys2Proof.Machine.execLrB64 d a h g s
  | .scB64 p a b h g => Sys2Proof.Machine.execScB64 p a b h g s
  | .clrres g => Sys2Proof.Machine.execClrres g s
  | .fenceAcq c g => Sys2Proof.Machine.execFenceAcq c g s
  | .fenceRel c g => Sys2Proof.Machine.execFenceRel c g s
  | .fenceAr c g => Sys2Proof.Machine.execFenceAr c g s
  | .br o g => Sys2Proof.Machine.execBr o g s
  | .call l o g => Sys2Proof.Machine.execCall l o g s
  | .callr l t g => Sys2Proof.Machine.execCallr l t g s
  | .ret t g => Sys2Proof.Machine.execRet t g s
  | .jmpr t g => Sys2Proof.Machine.execJmpr t g s
  | .jset j g => Sys2Proof.Machine.execJset j g s
  | .jadd j g => Sys2Proof.Machine.execJadd j g s
  | .waitRejoin j g => Sys2Proof.Machine.execWaitRejoin j g s
  | .leave m g => Sys2Proof.Machine.execLeave m g s
  | .exit g => Sys2Proof.Machine.execExit g s
  | .tail g => Sys2Proof.Machine.execTail g s
  | .yield g => Sys2Proof.Machine.execYield g s
  | .jget d j g => Sys2Proof.Machine.execJget d j g s
  | .hintImm p => Sys2Proof.Machine.execHintImm p s
  | .hintMod a o b r c d e sel f k n => Sys2Proof.Machine.execHintMod a o b r c d e sel f k n s
  | .hintSched w sel => Sys2Proof.Machine.execHintSched w sel s
  | .wait l sel c m => Sys2Proof.Machine.execWait l sel c m s
  | .waitr a => Sys2Proof.Machine.execWaitr a s
  | .trap c g => Sys2Proof.Machine.execTrap c g s
  | .eret sel g => Sys2Proof.Machine.execEret sel g s
  | .brk c g => Sys2Proof.Machine.execBrk c g s
  | .halt g => Sys2Proof.Machine.execHalt g s
  | .csrr d r g => Sys2Proof.Machine.execCsrr d r g s
  | .csrw a r g => Sys2Proof.Machine.execCsrw a r g s
  | .sreg d n g => Sys2Proof.Machine.execSreg d n g s
  | .qpush v q p n g => Sys2Proof.Machine.execQpush v q p n g s
  | .qpop v q p n g => Sys2Proof.Machine.execQpop v q p n g s
  | .qbind v q c g => Sys2Proof.Machine.execQbind v q c g s
  | .qstat v q g => Sys2Proof.Machine.execQstat v q g s
  | .qflush q g => Sys2Proof.Machine.execQflush q g s
  | .cset c n z g => Sys2Proof.Machine.execCset c n z g s
  | .csign c g => Sys2Proof.Machine.execCsign c g s
  | .cchk d c g => Sys2Proof.Machine.execCchk d c g s
  | .barL g => Sys2Proof.Machine.execBarL g s
  | .barS g => Sys2Proof.Machine.execBarS g s
  | .arrive sel g => Sys2Proof.Machine.execArrive sel g s
  | .await sel g => Sys2Proof.Machine.execAwait sel g s
  | .barPhase g => Sys2Proof.Machine.execBarPhase g s
  | .mma t a k c r g => Sys2Proof.Machine.execMma t a k c r g s
  | .mmaBs t a k c r g => Sys2Proof.Machine.execMmaBs t a k c r g s
  | .mmaZ t a k c r g => Sys2Proof.Machine.execMmaZ t a k c r g s
  | .accZero t g => Sys2Proof.Machine.execAccZero t g s
  | .accLd t a g => Sys2Proof.Machine.execAccLd t a g s
  | .accSt t a d g => Sys2Proof.Machine.execAccSt t a d g s
  | .accRd t a d g => Sys2Proof.Machine.execAccRd t a d g s
  | .accTab a g => Sys2Proof.Machine.execAccTab a g s
  | .trecMk d a g => Sys2Proof.Machine.execTrecMk d a g s
  | .trecChk d a g => Sys2Proof.Machine.execTrecChk d a g s
  | .trecStep d a b g => Sys2Proof.Machine.execTrecStep d a b g s
  | .cp a e q g => Sys2Proof.Machine.execCp a e q g s
  | .cpGather d a e q g => Sys2Proof.Machine.execCpGather d a e q g s
  | .cpGatherR d a e q g => Sys2Proof.Machine.execCpGatherR d a e q g s
  | .cpScatter d a e q g => Sys2Proof.Machine.execCpScatter d a e q g s
  | .cpFill a e q g => Sys2Proof.Machine.execCpFill a e q g s
  | .cpFlush a e q g => Sys2Proof.Machine.execCpFlush a e q g s
  | .cpPref a e q g => Sys2Proof.Machine.execCpPref a e q g s
  | .claEval v q g => Sys2Proof.Machine.execClaEval v q g s
  | .claFeed v q g => Sys2Proof.Machine.execClaFeed v q g s
  | .claVote v q g => Sys2Proof.Machine.execClaVote v q g s
  | .claLd a sel g => Sys2Proof.Machine.execClaLd a sel g s
  | .claSt a sel g => Sys2Proof.Machine.execClaSt a sel g s
  | .claTab a g => Sys2Proof.Machine.execClaTab a g s
  | .claSeed a g => Sys2Proof.Machine.execClaSeed a g s
  | .claCfg a g => Sys2Proof.Machine.execClaCfg a g s
  | .claStat d g => Sys2Proof.Machine.execClaStat d g s
  | .redz h a o g => Sys2Proof.Machine.execRedz h a o g s
  | .rdz d a p h g => Sys2Proof.Machine.execRdz d a p h g s
  | .hst v q g => Sys2Proof.Machine.execHst v q g s
  | .hpost v q p n g => Sys2Proof.Machine.execHpost v q p n g s
  | .hqtake v q p n g => Sys2Proof.Machine.execHqtake v q p n g s
  | .hqfree v q g => Sys2Proof.Machine.execHqfree v q g s
  | .hqstat v q g => Sys2Proof.Machine.execHqstat v q g s
  | .nbMax p a b g => Sys2Proof.Machine.execNbMax p a b g s
  | .nbMaxP a b g => Sys2Proof.Machine.execNbMaxP a b g s
  | .nGrow d a b g => Sys2Proof.Machine.execNGrow d a b g s
  | .nLaunch p a b g => Sys2Proof.Machine.execNLaunch p a b g s
  | .nSignal a g => Sys2Proof.Machine.execNSignal a g s
  | .nInfo d a b g => Sys2Proof.Machine.execNInfo d a b g s
  | .pfCode l a b g => Sys2Proof.Machine.execPfCode l a b g s
  | .pinCode l p a b g => Sys2Proof.Machine.execPinCode l p a b g s
  | .unpinCode l a b g => Sys2Proof.Machine.execUnpinCode l a b g s
  | .ingClaim v q p n g => Sys2Proof.Machine.execIngClaim v q p n g s
  | .ingRel v q g => Sys2Proof.Machine.execIngRel v q g s
  | .ingStat v q g => Sys2Proof.Machine.execIngStat v q g s
  | .ingGap v q g => Sys2Proof.Machine.execIngGap v q g s
  | .ingLoss v q g => Sys2Proof.Machine.execIngLoss v q g s
  | .collSend v q p n g => Sys2Proof.Machine.execCollSend v q p n g s
  | .collRecv v q p n g => Sys2Proof.Machine.execCollRecv v q p n g s
  | .collRed v q g => Sys2Proof.Machine.execCollRed v q g s
  | .collWait v q g => Sys2Proof.Machine.execCollWait v q g s
  | .ctxSave a g => Sys2Proof.Machine.execCtxSave a g s
  | .ctxLoad p a g => Sys2Proof.Machine.execCtxLoad p a g s
  | .tlbInv a b g => Sys2Proof.Machine.execTlbInv a b g s
  | .partQ d b g => Sys2Proof.Machine.execPartQ d b g s
  | .sel d a b p t g => Sys2Proof.Machine.execSel d a b p t g s
  | .add64 d a b t g => Sys2Proof.Machine.execAdd64 d a b t g s
  | .sub64 d a b t g => Sys2Proof.Machine.execSub64 d a b t g s
  | .lea d a b t g => Sys2Proof.Machine.execLea d a b t g s
  | .cmp64 c p a b g => Sys2Proof.Machine.execCmp64 c p a b g s

end Sys2Proof.Machine
end

