-- ==== Sys2Proof/Machine/Schedule.lean ====
section
/-!
DEFINITION. What one step does: the turn of an agent. The agenda of the state names the agents that move next; with an
empty agenda a schedule of the model's own stands in, which is one of the orders the spec allows (notes/assumptions).
-/

namespace Sys2Proof.Machine

/-! ## A bay issues (R55, R97–R99, R209–R211) -/

/-- R402: between two memories a sub-queue has served what it holds back: a throttled row's, or one whose bank has older requests
waiting. -/
def Memory.unserved (m m1 : Memory) : Bool := m.passedThrottle m1 || m.jumpsQueue m1

/-- A flight's fetch waits at a bank (R402). -/
def State.fetchHeld (s : State) (core : Nat) (x : Resident) : Bool :=
  (!s.mem.throttled.isEmpty || !s.mem.fills.isEmpty) &&
  match ({ s with cur := some x.fk } : State).ctx? with
  | none => false
  | some c => s.mem.unserved (s.fetchWord core x.tr.part x.ld.key c.pc).1.mem

/-- R209: the active flights of a bay that can issue. -/
def State.issuable (s : State) (core bay : Nat) : List Resident :=
  (s.bayFlights core bay).filter (fun x => x.fl.active && s.canIssue x && !s.fetchHeld core x)

/-- Two residents have the same age. -/
def Resident.sameAge (a b : Resident) : Bool :=
  !olderAge (a.tr.age, a.tr.owner) (b.tr.age, b.tr.owner) && !olderAge (b.tr.age, b.tr.owner) (a.tr.age, a.tr.owner)

/-- R209: the flight that issues: the oldest; flights of one age take turns in ascending number, from the one of them that issued
last. -/
def State.chosen (s : State) (core bay : Nat) : Option Resident :=
  match leastBy Resident.older (s.issuable core bay) with
  | none => none
  | some x =>
    let mates := ((s.bayFlights core bay).filter x.sameAge).map (·.fk)
    match (tgetD [] s.lastBay (8 * core + bay)).find? mates.contains with
    | none => some x
    | some k =>
      match leastBy Resident.older ((s.issuable core bay).filter (fun y => x.sameAge y && decide (k < y.fk))) with
      | some y => some y
      | none => some x

/-- The bay notes the flight that it issues for; flights that are no longer there are forgotten. -/
def State.noteBay (s : State) (core bay fk : Nat) : State :=
  let here := (s.bayFlights core bay).map (·.fk)
  { s with lastBay := tmodD [] s.lastBay (8 * core + bay) (fun ks => fk :: ks.filter (fun k => k != fk && here.contains k)) }

/-- The flight that issues, and the nest of its tread, which meets what fails meanwhile (R419). -/
def State.atWork (s : State) (x : Resident) : State :=
  { s with cur := some x.fk, mem := { s.mem with meeter := some (x.tr.run, x.tr.nest) } }

/-- Nobody is at work. -/
def State.atRest (s : State) : State := { s with cur := none, mem := { s.mem with meeter := none } }

/-- R209: in a cycle a bay issues one word; of the bays of a core none issues after one of higher number, so that what they issue in
one cycle is accepted in ascending bay number (R257, R272). -/
def State.slotUsed (s : State) (core bay : Nat) : Bool :=
  (tget s.issued core).any (fun x => x.1 == s.cycleOf core && decide (bay ≤ x.2))

/-- The bay has issued in this cycle. -/
def State.noteIssue (s : State) (core bay : Nat) : State := { s with issued := tput s.issued core (s.cycleOf core, bay) }

/-- All of some lanes of a flight are held. -/
def State.allWait (s : State) (fk : Nat) (lanes : List Nat) : Bool := lanes.all (fun l => (s.thread? fk l).any (fun t => t.held.isSome))

/-- After an issue, the flight that issued is forgotten, and the threads that were held try again. An attempt that leaves the whole
group held is no issue: the group is not ready (R97, R209), and the bay tries again in the same cycle, with what else is ready. -/
def State.settleIssue (core bay : Nat) (lanes : List Nat) (fk : Nat) (s : State) : State :=
  let s1 := s.atRest
  if s1.allWait fk lanes then { s1 with agenda := .issue core bay :: s1.agenda }
  else ((s1.noteBay core bay fk).noteIssue core bay).wakeAll

/-- Apply a function to the next state of an outcome. -/
def thenNext (f : State → State) (o : Out) : Out :=
  match o with
  | .next s => .next (f s)
  | .fault r => .fault r
  | .refused r => .refused r

/-- The instruction that a decoder's answer runs: what it read, or the illegal-instruction trap (R52). -/
def decoded (r : Except DecodeError Instr) : Instr :=
  match r with
  | .ok i => i
  | .error _ => .illegalInstruction

/-- The instruction that a fetch runs (R52, R54). -/
noncomputable def FetchedWord.instr (w : FetchedWord) : Instr :=
  match w with
  | .failed p => .fetchFailure p
  | .word w => decoded (decode (bytesOfWord w.toNat))

/-- One flight of the bay fetches, decodes and executes the word at its group's pc. -/
noncomputable def State.issueWord (s : State) (core bay : Nat) (x : Resident) : Out :=
  let s1 := s.atWork x
  match s1.ctx? with
  | none => .next s1.atRest
  | some c =>
    let f := s1.fetchWord core x.tr.part x.ld.key c.pc
    thenNext (State.settleIssue core bay c.lanes x.fk) (exec f.2.instr f.1)

/-! ## What the bays know of the flights that cannot issue (R210, R211) -/

/-- Every group of a flight tries its next instruction, hints and all, as in an issue slot: the state after the attempts where all
of them are held (R209, R210), nothing where one of them issues. `n` bounds the words tried. -/
noncomputable def State.attempts (s : State) (core fk : Nat) : Nat → Option State
  | 0 => none
  | n + 1 =>
    match s.resident? fk with
    | none => none
    | some x =>
      if x.fl.hint.isNone && (s.readyLanes fk).isEmpty then some s
      else if s.fetchHeld core x then none
      else
        match (s.atWork x).ctx? with
        | none => none
        | some c =>
          let f := (s.atWork x).fetchWord core x.tr.part x.ld.key c.pc
          match exec f.2.instr f.1 with
          | .next t =>
            if ((tget t.flights fk).bind (·.hint)).isSome || t.allWait fk c.lanes then State.attempts t.atRest core fk n else none
          | _ => none

/-- The words of the groups of a flight: eight groups, three hints before each instruction. -/
def attemptWords : Nat := 33

/-- R211: a pending flight none of whose groups can issue, and whose attempts would ask for nothing that has not been asked for, is
not ready: its groups are marked as held. -/
noncomputable def State.markPending (s : State) (core : Nat) (x : Resident) : State :=
  if x.fl.active || !s.canIssue x then s
  else
    match s.attempts core x.fk attemptWords with
    | some t => if t.wakeAll = s.wakeAll then t else s
    | none => s

/-- R211: an active flight all of whose groups are held by long stalls has made its attempts. -/
noncomputable def State.markActive (s : State) (core : Nat) (x : Resident) : State :=
  if s.movable x && s.canIssue x then
    match s.attempts core x.fk attemptWords with
    | some t => if t.longStalled x.fk then t else s
    | none => s
  else s

/-- The flights of a bay that are marked before one of them is moved. -/
noncomputable def State.marked (s : State) (core bay : Nat) : State := (s.bayFlights core bay).foldl (fun s x => s.markPending core x) s

/-- What an event starts from: before a bay moves a flight between its sets, the flights that no group of can issue are known (R210,
R211). Attempts of an active flight stand only where it makes way. -/
noncomputable def State.prepared (e : Instr) (s : State) : State :=
  match e with
  | .flightSwap core bay =>
    if s.mayMove core bay && (s.bayFlights core bay).any (fun x => !x.fl.active) then
      let s1 := s.marked core bay
      let s2 := (s.bayFlights core bay).foldl (fun s x => s.markActive core x) s1
      if (s1.swapOut (s1.bayFlights core bay)).isNone && (s1.pendingReady (s1.bayFlights core bay)).isSome then s2 else s1
    else s
  | .activeSetFill core bay => if (s.bayFlights core bay).any (fun x => !x.fl.active) then s.marked core bay else s
  | .aging core bay => if (s.bayFlights core bay).any (fun x => !x.fl.active) then s.marked core bay else s
  | _ => s

/-- An event happens. -/
noncomputable def State.happen (e : Instr) (s : State) : Out := exec e (s.prepared e)

/-- The issue slot of a bay: advice to swap first (R47, R211), then the oldest ready flight, whose slot passes to another
group when its timer says so (R98, R99). -/
noncomputable def State.issueTurn (s0 : State) (core bay : Nat) : Out :=
  let s := (s0.bayFlights core bay).foldl State.noteYield s0
  if (s.bayFlights core bay).any (fun x => s.movable x && x.fl.advice) then State.happen (.flightSwap core bay) s
  else
    match s.chosen core bay with
    | none => .next s
    | some x =>
      if s.switchDue x && !s.groupTransient x && !s.inSequence x then exec (.fairnessTimer x.fk) s
      else if s.switchDue x && !s.groupTransient x && decide (64 ≤ x.fl.tally) then exec (.deferredSwitch x.fk) s
      else s.issueWord core bay x

/-! ## Turns -/

/-- R434: in the retain and off states nothing of the machine moves but what comes from outside. -/
def State.asleep (s : State) : Bool := s.fw.power == .retain || s.fw.power == .off

/-- The rows of the opcode table that the host, the links and Newel bring about, also while the machine is asleep. -/
def fromOutside (e : Instr) : Bool :=
  match e with
  | .powerState _ => true
  | .coldBoot => true
  | .warmReset => true
  | .powerSample _ _ => true
  | .linkDown => true
  | .linkUp => true
  | .portLinkDown _ => true
  | .portLinkUp _ => true
  | .commandWord _ _ => true
  | .loadChunk _ _ => true
  | .verify => true
  | .discard => true
  | .romState => true
  | .telemetry _ => true
  | .errorLog _ => true
  | .powerLimit _ => true
  | .dieLinkLoss _ _ => true
  | .clusterMeshLoss _ => true
  | _ => false

/-- What a turn comes to: the failures that it met are contained (R419); while a bank does not serve its requests yet it does not
happen (R402). -/
def State.settled (s s1 : State) : State := if s.mem.unserved s1.containFound.mem then s else s1.containFound

/-- The accesses of the system sub-queue, which no throttle of a key id's holds (R402). -/
def ofSystem (e : Instr) : Bool :=
  match e with
  | .rotationSweep _ _ => true
  | .backgroundClear _ _ => true
  | .scrub _ => true
  | _ => false

/-- A fill takes its turn in the bank by itself, and queues what its victim writes back (R402; Memory.queueWriteBacks). -/
def isFill (e : Instr) : Bool :=
  match e with
  | .galleryFill _ _ _ _ => true
  | _ => false

/-- What an event comes to. -/
def State.settledBy (e : Instr) (s s1 : State) : State :=
  let t := s1.containFound
  if !isFill e && ((!ofSystem e && s.mem.passedThrottle t.mem) || s.mem.jumpsQueue t.mem) then s else t

/-- One turn of an agent. -/
noncomputable def State.turn (s : State) (t : Turn) : Out :=
  match t with
  | .issue core bay => if s.asleep || s.slotUsed core bay then .next s else thenNext s.settled (s.issueTurn core bay)
  | .event e =>
    if s.asleep && !fromOutside e then .next s
    else thenNext (fun t => (State.settledBy e s t).due.wakeAll) (State.happen e { s with cur := none })
  | .copyUnit core i unit => if s.asleep then .next s else .next (s.settled (s.copyUnit core i unit)).wakeAll
  | .input x => .next (s.settled (s.input x)).wakeAll
  | .elapse d n => if s.asleep then .next s else .next (s.elapse d n).wakeAll

/-! ## The schedule that stands in for an empty agenda -/

/-- The dies. -/
def fourDies : List Nat := [0, 1, 2, 3]

/-- The steps of memory and of the mirrors that are pending (R313, R370). -/
def State.memoryEvents (s : State) : List Instr :=
  (s.mem.fills.filter (fun f => f.kind != .sweep)).map (fun f => .galleryFill f.tile f.key f.prio 0) ++
  s.mem.accs.flatMap (fun a => [.bind a.id, .drain a.id, .apply a.id, .loadReturn a.id]) ++
  (List.range s.mem.outbox.length).map (fun i => .send i) ++
  (List.range s.mem.inbox.length).map (fun i => .mirror i)

/-- The steps of the engines that are pending. -/
def State.engineEvents (s : State) : List Instr :=
  s.mxq.flatMap (fun p => [.mmaComplete p.1, .accComplete p.1]) ++
  s.clacs.flatMap (fun p => [.claCommandStart p.1, .claEvalComplete p.1, .claSweepEnd p.1, .claImageComplete p.1]) ++
  s.copies.flatMap (fun p => (List.range p.2.length).map (fun i => .copyComplete p.1 i)) ++
  (List.range s.posts.length).map (fun i => .hpostComplete i) ++
  s.hqueues.map (fun p => .creditGrant p.1)

/-- The points that a die may ask about (R330). -/
def State.askable (s : State) (d : Nat) : List Instr :=
  (s.die d).rows.flatMap (fun x =>
    match s.nest? x.run x.nest with
    | none => []
    | some (run, n) => ((x.offsets n).flatMap (fun o => s.needsAnswer d x.run x.nest run n (x.at_ o))).map (fun q =>
        .remoteLookup d x.run x.nest q))

/-- The steps of the Stairwells that are pending. -/
def State.stairwellEvents (s : State) : List Instr :=
  s.treads.map (fun p => .treadRetire p.1) ++
  (List.range s.reports.length).map (fun i => .retirementReport i) ++
  (List.range s.raises.length).map (fun i => .raiseApply i) ++
  s.treads.map (fun p => .phaseSpill p.1) ++
  s.treads.map (fun p => .graceExpiry p.1) ++
  s.treads.map (fun p => .forcedSave p.1) ++
  fourDies.flatMap (fun d =>
    s.runs.flatMap (fun p => (List.range p.2.nests.length).flatMap (fun j => [.b0Update d p.1 j, .watermarkUpdate d p.1 j])) ++
    s.askable d ++ [.rowOpen d, .treadRelease d, .dispatch d, .admission d]) ++
  (List.range s.lookups.length).map (fun i => .lookupAnswer i) ++
  s.eloa.flatMap (fun p => [.launch p.1, .cancel p.1])

/-- The steps of the key engines that are pending (R414–R416). -/
def State.keyEvents (s : State) : List Instr :=
  s.mem.keys.flatMap (fun k => .scrub k.1 :: s.mem.tmeta.flatMap (fun t => [.rotationSweep k.1 t.1, .backgroundClear k.1 t.1]))

/-- The messages whose units are all applied and whose notices wait (R459). -/
def State.fabricEvents (s : State) : List Instr :=
  s.chans.flatMap (fun p => p.2.early.filterMap (fun x =>
    if x.units.length = (CollMessage.units x.msg).length then some (.collMessage (p.1 / 256) x.msg) else none))

/-- The bays that hold a flight. -/
def State.bays (s : State) : List (Nat × Nat) :=
  (s.flights.filterMap (fun p => (tget s.landings (landingOf p.1)).map (fun l => (l.core, p.2.bay)))).eraseDups

/-- The event changes the machine. -/
noncomputable def State.moves (s : State) (e : Instr) : Bool :=
  match State.happen e s with
  | .next t => (State.settledBy e s t).wakeAll != s.wakeAll
  | _ => true

/-- The first of some events that changes the machine, as a turn. -/
noncomputable def State.firstMove (s : State) (es : List Instr) : Option (List Turn) := (es.find? s.moves).map (fun e => [.event e])

/-- R55, R209: in a cycle every bay that can issue does. -/
def State.issueTurns (s : State) : List Turn :=
  (s.bays.filter (fun b => (s.chosen b.1 b.2).isSome)).map (fun b => .issue b.1 b.2)

/-- The events of some list that change the machine as it stands, as turns. -/
noncomputable def State.movingTurns (s : State) (es : List Instr) : List Turn := (es.filter s.moves).map .event

/-- The turns of a machine whose agenda is empty: what is pending, then a cycle of all dies, in which every bay issues and moves a
flight between its sets, and every die may steal. -/
noncomputable def State.defaultTurns (s : State) : List Turn :=
  match s.firstMove (s.memoryEvents ++ s.engineEvents) with
  | some ts => ts
  | none =>
    match s.firstMove (s.stairwellEvents ++ s.keyEvents ++ s.fabricEvents ++
        s.bays.flatMap (fun b => [.activeSetFill b.1 b.2, .aging b.1 b.2])) with
    | some ts => ts
    | none =>
      s.issueTurns ++ s.movingTurns (s.bays.map (fun b => .flightSwap b.1 b.2)) ++
      s.movingTurns (fourDies.flatMap (fun d => [.stealRequest d, .stealAnswer d, .stealBackoff d]) ++
        s.mem.throttled.map (fun x => .throttleRelease x.1 x.2)) ++
      fourDies.map (fun d => .elapse d 1)

/-- The rows that handle records of the host (R425). -/
def handlesRecords (e : Instr) : Bool :=
  match e with
  | .launch _ => true
  | .cancel _ => true
  | .qtail _ _ => true
  | _ => false

/-- Of two turns of one cycle the first gives way to the second: a bay to one of lower number on its core, whose commands are accepted
first (R257, R272), and the handling of records to the reports that may seal an instance (R428). -/
def Turn.givesWay (t u : Turn) : Bool :=
  match t, u with
  | .issue c b, .issue c' b' => c == c' && decide (b' < b)
  | .event e, .event (.retirementReport _) => handlesRecords e
  | _, _ => false

/-- The die whose cycles bound those of a turn; of an event any die's do. -/
def Turn.die? (t : Turn) : Option Nat :=
  match t with
  | .issue core _ => some (core / 48)
  | _ => none

/-- The turns before the next passing of time on the die of a turn: those of its cycle. -/
def sameCycle (t : Turn) (ts : List Turn) : List Turn :=
  ts.takeWhile (fun u => match u with
    | .elapse d _ => t.die?.any (fun k => k != d)
    | _ => true)

/-- The turn of a cycle that comes next where `t` stands first. -/
def firstTurn (t : Turn) (ts : List Turn) : Turn := (sameCycle t ts).foldl (fun b u => if b.givesWay u then u else b) t

/-- R333: what a steal makes way for: the victim's dispatch, while it can take an entry, reaches for it in the same cycle. -/
noncomputable def State.dispatchFirst (s : State) (t : Turn) : Option Turn :=
  match t with
  | .event (.stealRequest d) =>
    match (s.die d).steal.asked with
    | some v => if (s.die d).steal.answer.isNone && s.moves (.dispatch v) then some (.event (.dispatch v)) else none
    | none => none
  | _ => none

/-- The turn that comes next, and the agenda after it. -/
noncomputable def State.nextTurn (s : State) : Turn × List Turn :=
  match (if s.agenda.isEmpty then s.defaultTurns else s.agenda) with
  | t :: ts =>
    let u := firstTurn t ts
    match s.dispatchFirst u with
    | some v => (v, t :: ts)
    | none => (u, (t :: ts).erase u)
  | [] => (.elapse 0 1, [])

/-- One step of the machine that has not stopped. -/
noncomputable def State.advance (s : State) : Out :=
  let t := s.nextTurn
  ({ s with agenda := t.2 } : State).turn t.1

/-! ## A word placed to run -/

/-- The bays of the package. -/
def allBays : List (Nat × Nat) := (List.range 192).flatMap (fun c => (List.range 8).map (fun b => (c, b)))

/-- A bay without a flight; the first bay where every bay has one. -/
def State.emptyBay (s : State) : Nat × Nat := (allBays.find? (fun b => (s.bayFlights b.1 b.2).isEmpty)).getD (0, 0)

/-- The tread of a placed word: one landing of a stairway that is not kept. -/
def placedTread (run part die lid : Nat) : Tread :=
  { run := run, nest := 0, record := 0, point := [0], die := die, owner := die, age := 0, span := 1, landings := [lid],
    part := part, args := 0, sinst := 0, sbar := { gen := 0, arrived := [], phase := false }, leases := [],
    needs := [0, 0, 0, 0], ending := none, cancelled := false, stage := .running, avoid := none, atOnce := false }

/-- The landing of a placed word: one flight, 64 registers, no hall range. -/
def placedLanding (tid core : Nat) (pc : DWord) : Landing :=
  { tid := tid, number := 0, core := core, flights := 1, regs := 64, hallBase := 0, hallLen := 0, entry := pc, handler := none,
    key := 0, conv := [], bar := { gen := 0, arrived := [], phase := false }, red := [], spell := 0, tailed := false, phased := false,
    carry := 0, phases := 0, preempts := 0, boundary := false, placed := 0, freed := false, saveAt := none, applied := [], tiles := [] }

/-- The line of a placed word: the word, then zeros. -/
def placedLine (va part : Nat) (w : Word) : CodeLine :=
  { va := va, key := 0, part := part, pinned := false, words := w :: List.replicate 31 0 }

/-- A fresh landing on an empty bay, all eight threads of its one flight at a line of the core's L0 that holds the word; its
bay has the next turn, alone in its cycle. -/
def State.placeWord (s : State) (w : Word) : State :=
  let b := s.emptyBay
  let lid := s.nextKey
  let tid := s.nextKey + 1
  let part := freeKeyFrom 0 s.parts
  let s1 := { s with
    agenda := .issue b.1 b.2 :: .elapse (b.1 / 48) 0 :: s.agenda, issued := tdel s.issued b.1, contained := false, fw := { s.fw with power := .run }, nextKey := s.nextKey + 2,
    treads := tput s.treads tid (placedTread s.nextRun part (b.1 / 48) lid),
    landings := tput s.landings lid (placedLanding tid b.1 0x1000),
    mem := { s.mem with l0 := tmodD [] s.mem.l0 b.1 (fun (ls : List CodeLine) => placedLine 0x1000 part w :: ls) } }
  s1.addFlights lid b.1 64 0x1000 [0, 0, 0, 0] 0 [b.2]

end Sys2Proof.Machine
end

