-- ==== Sys2Proof/Machine/Step.lean ====
section
/-!
DEFINITION. One step of the machine, and a state whose next step runs one given word.
-/

namespace Sys2Proof.Machine

/-- One step: a turn of the agent whose turn it is. After device-scope containment the package has stopped (R419). -/
noncomputable def step (s : State) : Host.Outcome State Fault Refusal :=
  if s.contained then .fault .contained else s.advance

/-- The machine with the word placed where the next step fetches: stands for a stairway that has been launched and
dispatched (how a program comes to run: notes/assumptions). Nothing is placed where nbits is not one word. -/
def State.withFetchWord (s : State) (nbits w : Nat) : State :=
  if nbits = 32 then s.placeWord (BitVec.ofNat 32 w) else s

end Sys2Proof.Machine
end

