-- ==== Sys2Proof/Safety.lean ====
section
/-!
DEFINITION. What counts as a safe run, and the words the claims are stated in: when an instruction issues, what its lanes
become, what it leaves alone.
-/

namespace Sys2Proof.Machine

/-- The machine goes on: its next step does not stop. -/
def State.goesOn (s : State) : Prop := ∃ t, step s = .next t

/-- A run of `n` steps that no fault and no refusal ends. -/
def safeRun (n : Nat) (s : State) : Prop := ∃ t, Host.Core.run Sys2Proof.core n s = .next t

/-! ## An instruction issues -/

/-- A group is executing, it accepts the hints pending at the instruction, and none of its lanes awaits a predicate that the
instruction reads. -/
structure Issues (s : State) (c : Ctx) (h : HintUse) (g : BitVec 3) (ps : List (BitVec 3)) : Prop where
  ctx   : s.ctx? = some c
  hints : hintsOk c h = true
  preds : awaitsPred s c.fk (g.toNat :: ps.map (·.toNat)) c.lanes = false

/-- In every guard-true lane the registers named are allocated, aligned, not leased and not awaited. -/
def Usable (s : State) (c : Ctx) (g : BitVec 3) (us : List RegUse) : Prop :=
  ∀ l ∈ guardLanes s c g, ∀ th, s.thread? c.fk l = some th →
    regTrap c.ld.regs th us = none ∧ th.awaits (allRegs us) = false

/-- The thread after an instruction that left `th`: the next word, one instruction counted. -/
def Thread.after (c : Ctx) (th : Thread) : Thread := { th.tick with pc := nextPc c.pc }

/-- Every lane of the group goes on at the next word: guard-true ones changed by `v`, the others not. -/
def Lanes (s t : State) (c : Ctx) (g : BitVec 3) (v : Nat → Thread → Thread) : Prop :=
  ∀ l ∈ c.lanes, ∀ th, s.thread? c.fk l = some th →
    t.thread? c.fk l = some ((if th.pred g.toNat then v l th else th).after c)

/-- The flight after the slot: its hints are consumed, its slot has passed, the flags `fl` are raised. -/
def slotted (f f' : Flight) (fl : BitVec 5) : Prop :=
  f' = { f with hint := none, lead := f'.lead, gives := f'.gives, timer := f'.timer, tally := f'.tally, advice := f'.advice
                fpflags := f.fpflags ||| fl }

/-- Nothing changes but the threads of the group and the bookkeeping of its flight. -/
structure Keeps (s t : State) (c : Ctx) (fl : BitVec 5) : Prop where
  rest    : t = { s with threads := t.threads, flights := t.flights }
  threads : ∀ fk l, l < 8 → (fk ≠ c.fk ∨ l ∉ c.lanes) → t.thread? fk l = s.thread? fk l
  flights : ∀ k, k ≠ c.fk → tget t.flights k = tget s.flights k
  flight  : ∀ f, tget s.flights c.fk = some f → ∃ f', tget t.flights c.fk = some f' ∧ slotted f f' fl

/-- The thread of a lane after a lane-local instruction: at the next word, or at the target of a jump. -/
def LaneOut.thread (c : Ctx) (old : Thread) : LaneOut → Thread
  | .ok t _ => t.after c
  | .jump t target => { t.tick with pc := target, lrsc := none }
  | .trap _ => old

/-- The flags that a lane-local instruction raises for a lane. -/
def LaneOut.flags : LaneOut → BitVec 5
  | .ok _ fl => fl
  | .jump _ _ => 0
  | .trap _ => 0

/-- The lane goes on: it takes no trap. -/
def LaneOut.goes : LaneOut → Bool
  | .ok _ _ => true
  | .jump _ _ => true
  | .trap _ => false

/-- The flags that the guard-true lanes raise together. -/
def flagsOf (s : State) (c : Ctx) (g : BitVec 3) (w : Nat → Thread → BitVec 5) : BitVec 5 :=
  (guardLanes s c g).foldl (fun a l => a ||| (s.thread? c.fk l).elim 0 (w l)) 0

/-- Every lane of the group goes on: guard-true ones where the instruction sends them, the others at the next word. -/
def Flows (s t : State) (c : Ctx) (g : BitVec 3) (o : Nat → Thread → LaneOut) : Prop :=
  ∀ l ∈ c.lanes, ∀ th, s.thread? c.fk l = some th →
    t.thread? c.fk l = some (if th.pred g.toNat then (o l th).thread c th else th.after c)

/-- From the state `s` that an instruction left, its whole group goes on at the next word and its slot passes; nothing else
changes. -/
structure Passes (s t : State) (c : Ctx) : Prop where
  rest    : t = { s with threads := t.threads, flights := t.flights }
  lanes   : ∀ l ∈ c.lanes, ∀ th, s.thread? c.fk l = some th → t.thread? c.fk l = some (th.after c)
  threads : ∀ fk l, l < 8 → (fk ≠ c.fk ∨ l ∉ c.lanes) → t.thread? fk l = s.thread? fk l
  flights : ∀ k, k ≠ c.fk → tget t.flights k = tget s.flights k
  flight  : ∀ f, tget s.flights c.fk = some f → ∃ f', tget t.flights c.fk = some f' ∧ slotted f f' 0

/-! ## The shapes of the claims -/

/-- `i` completes: whenever it issues and its registers can be used, exec answers a next state in which every guard-true lane
has become `v`, the flags `w` are raised, and nothing else has changed. -/
def Computes (i : Instr) (h : HintUse) (g : BitVec 3) (ps : List (BitVec 3)) (us : List RegUse)
    (v : Ctx → Nat → Thread → Thread) (w : Ctx → Nat → Thread → BitVec 5) : Prop :=
  ∀ s c, Issues s c h g ps → Usable s c g us →
    ∃ t, exec i s = .next t ∧ Lanes s t c g (v c) ∧ Keeps s t c (flagsOf s c g (w c))

/-- `i` completes over the lanes of its guard as a whole: whenever it issues for the lanes `ls` (at least one) and `pre`
holds, exec answers a next state that passes on from `eff`. -/
def Effects (i : Instr) (h : HintUse) (g : BitVec 3) (ps : List (BitVec 3)) (us : List RegUse)
    (pre : State → Ctx → List Nat → Prop) (eff : State → Ctx → List Nat → State) : Prop :=
  ∀ s c ls, Issues s c h g ps → Usable s c g us → guardLanes s c g = ls → ls ≠ [] → pre s c ls →
    ∃ t, exec i s = .next t ∧ Passes (eff s c ls) t c

/-- From `s`, the lanes `ls` of the group take into the handler `hd` the traps that `x` gives them (R105–R107), `fnpc` the word after
the group's instruction, and the others go on at the next word; the flight counts the entries; nothing else changes. -/
structure EntersEach (fnpc : DWord) (s t : State) (c : Ctx) (ls : List Nat) (hd : DWord) (x : Nat → Thread → Trap) : Prop where
  rest    : t = { s with threads := t.threads, flights := t.flights }
  enters  : ∀ l ∈ ls, ∀ th, s.thread? c.fk l = some th →
    t.thread? c.fk l = some (th.enterHandler hd (x l th) (laneMask ls).toNat c.start fnpc)
  others  : ∀ l ∈ c.lanes, l ∉ ls → ∀ th, s.thread? c.fk l = some th → t.thread? c.fk l = some (th.after c)
  threads : ∀ fk l, l < 8 → (fk ≠ c.fk ∨ l ∉ c.lanes) → t.thread? fk l = s.thread? fk l
  flights : ∀ k, k ≠ c.fk → tget t.flights k = tget s.flights k
  flight  : ∀ f, tget s.flights c.fk = some f → ∃ f', tget t.flights c.fk = some f' ∧
    slotted { f with tcount := BitVec.ofNat 32 (min (f.tcount.toNat + ls.length) (2 ^ 32 - 1)) } f' 0

/-- As EntersEach, one trap for all. -/
abbrev EntersAt (fnpc : DWord) (s t : State) (c : Ctx) (ls : List Nat) (hd : DWord) (x : Trap) : Prop :=
  EntersEach fnpc s t c ls hd (fun _ _ => x)

/-- As EntersAt, the trapping word being the group's instruction. -/
abbrev Enters (s t : State) (c : Ctx) (ls : List Nat) (hd : DWord) (x : Trap) : Prop := EntersAt (nextPc c.pc) s t c ls hd x

/-- `i` traps: whenever it issues for the lanes `ls`, none of them in handler mode, with a handler, and `pre` holds, exec
answers the state in which they have all taken `x`. -/
def Traps (i : Instr) (h : HintUse) (g : BitVec 3) (pre : State → Ctx → List Nat → Prop) (x : Ctx → Trap) : Prop :=
  ∀ s c ls hd, Issues s c h g [] → guardLanes s c g = ls → ls ≠ [] → c.ld.handler = some hd →
    (∀ l ∈ ls, ∀ th, s.thread? c.fk l = some th → th.hmode = false) → pre s c ls →
    ∃ t, exec i s = .next t ∧ Enters s t c ls hd (x c)

/-- From the state `s` that an instruction left, the lanes `ls` stand where the instruction put them (one instruction counted),
the others of the group go on at the next word, the slot passes; nothing else changes. -/
structure Settles (s t : State) (c : Ctx) (ls : List Nat) : Prop where
  rest    : t = { s with threads := t.threads, flights := t.flights }
  placed  : ∀ l ∈ ls, ∀ th, s.thread? c.fk l = some th → t.thread? c.fk l = some th.tick
  others  : ∀ l ∈ c.lanes, l ∉ ls → ∀ th, s.thread? c.fk l = some th → t.thread? c.fk l = some (th.after c)
  threads : ∀ fk l, l < 8 → (fk ≠ c.fk ∨ l ∉ c.lanes) → t.thread? fk l = s.thread? fk l
  flights : ∀ k, k ≠ c.fk → tget t.flights k = tget s.flights k
  flight  : ∀ f, tget s.flights c.fk = some f → ∃ f', tget t.flights c.fk = some f' ∧ slotted f f' 0

/-- As Effects, for an instruction that places its guard-true lanes itself. -/
def Placing (i : Instr) (h : HintUse) (g : BitVec 3) (pre : State → Ctx → List Nat → Prop) (eff : State → Ctx → List Nat → State) :
    Prop :=
  ∀ s c ls, Issues s c h g [] → guardLanes s c g = ls → ls ≠ [] → pre s c ls →
    ∃ t, exec i s = .next t ∧ Settles (eff s c ls) t c ls

/-- The value that lane `k` offers to a cross-lane instruction: none outside the participating lanes (R166). -/
def offered (s : State) (c : Ctx) (g : BitVec 3) (a : BitVec 6) (k : Nat) : Option Word :=
  if k ∈ guardLanes s c g then (s.thread? c.fk k).map (·.reg a.toNat) else none

/-- The participating lanes with the values that they offer, ascending. -/
def offers (s : State) (c : Ctx) (g : BitVec 3) (a : BitVec 6) : List (Nat × Word) :=
  (guardLanes s c g).filterMap (fun l => (s.thread? c.fk l).map (fun t => (l, t.reg a.toNat)))

/-- As Computes, for a cross-lane instruction: what a lane becomes depends on the whole group. -/
def Crosses (i : Instr) (g : BitVec 3) (ps : List (BitVec 3)) (us : List RegUse) (v : State → Ctx → Nat → Thread → Thread)
    (fl : State → Ctx → BitVec 5) : Prop :=
  ∀ s c, Issues s c HintUse.none g ps → Usable s c g us →
    ∃ t, exec i s = .next t ∧ Lanes s t c g (v s c) ∧ Keeps s t c (if guardLanes s c g = [] then 0 else fl s c)

/-- As Effects, for an instruction whose registers only the lowest lane of its guard names. -/
def Leads (i : Instr) (h : HintUse) (g : BitVec 3) (us : List RegUse) (pre : State → Ctx → List Nat → Thread → Prop)
    (eff : State → Ctx → List Nat → Thread → State) : Prop :=
  ∀ s c ls th, Issues s c h g [] → guardLanes s c g = ls → ls ≠ [] → s.thread? c.fk (ls.headD 0) = some th →
    regTrap c.ld.regs th us = none → th.awaits (allRegs us) = false → pre s c ls th →
    ∃ t, exec i s = .next t ∧ Passes (eff s c ls th) t c

/-- From the state `s`, the lanes `ls` of the group are held by `st` at the first word of their hint group, the others go on at the
next word, the slot passes; nothing else changes. -/
structure Holds (s t : State) (c : Ctx) (ls : List Nat) (st : Stall) : Prop where
  rest    : t = { s with threads := t.threads, flights := t.flights }
  held    : ∀ l ∈ ls, ∀ th, s.thread? c.fk l = some th → t.thread? c.fk l = some { th with held := some st, pc := c.start }
  others  : ∀ l ∈ c.lanes, l ∉ ls → ∀ th, s.thread? c.fk l = some th → t.thread? c.fk l = some (th.after c)
  threads : ∀ fk l, l < 8 → (fk ≠ c.fk ∨ l ∉ c.lanes) → t.thread? fk l = s.thread? fk l
  flights : ∀ k, k ≠ c.fk → tget t.flights k = tget s.flights k
  flight  : ∀ f, tget s.flights c.fk = some f → ∃ f', tget t.flights c.fk = some f' ∧ slotted f f' 0

/-- The lanes of a list with their threads. -/
def party (s : State) (c : Ctx) (ls : List Nat) : List (Nat × Thread) :=
  ls.filterMap (fun l => (s.thread? c.fk l).map (fun t => (l, t)))

end Sys2Proof.Machine
end

