-- ==== Sys2Proof/Certificates/Slice0/Obligations.lean ====
section
/-!
DEFINITION. The statements for the provers. Each says in its docstring which rule of the spec it formalises.
-/

section

open Sys2Proof Sys2Proof.Machine

/-! ## Families of the table -/

/-- The loads, with their sizes and whether they sign-extend. -/
noncomputable def Sys2Proof.Machine.loadOps : List ((BitVec 6 → BitVec 6 → BitVec 7 → BitVec 1 → BitVec 3 → Instr) × Nat × Bool) :=
  [(.ldS8, 1, true), (.ldN8, 1, false), (.ldS16, 2, true), (.ldN16, 2, false), (.ldB32, 4, false), (.ldB64, 8, false),
   (.ldB128, 16, false)]

/-- The stores, with their sizes. -/
noncomputable def Sys2Proof.Machine.storeOps : List ((BitVec 6 → BitVec 6 → BitVec 7 → BitVec 1 → BitVec 3 → Instr) × Nat) :=
  [(.stB8, 1), (.stB16, 2), (.stB32, 4), (.stB64, 8), (.stB128, 16)]

/-- The atomics without a comparand, with their sizes and functions. -/
noncomputable def Sys2Proof.Machine.atomOps : List ((BitVec 6 → BitVec 6 → BitVec 6 → BitVec 1 → BitVec 3 → Instr) × Nat × Nat) :=
  [(.atomAddS32, 4, 0), (.atomAddF32, 4, 1), (.atomMinS, 4, 2), (.atomMaxS, 4, 3), (.atomMinN, 4, 4), (.atomMaxN, 4, 5),
   (.atomAnd, 4, 6), (.atomOr, 4, 7), (.atomXor, 4, 8), (.atomExch, 4, 9), (.atomAddS64, 8, 11), (.atomExchB64, 8, 12)]

/-- The atomics with a comparand. -/
noncomputable def Sys2Proof.Machine.casOps : List ((BitVec 6 → BitVec 6 → BitVec 6 → BitVec 1 → BitVec 3 → Instr) × Nat × Nat) :=
  [(.atomCas, 4, 10), (.atomCasB64, 8, 13)]

/-- R168: the source lane of each shuffle, for a lane and its operand B. -/
def Sys2Proof.Machine.shuffleOps : List ((BitVec 6 → BitVec 6 → BitVec 6 → BitVec 3 → Instr) × (Nat → Nat → Option Nat)) :=
  [(.shflIdx, fun _ b => some (b % 8)), (.shflUp, fun l b => if b ≤ l then some (l - b) else none),
   (.shflDn, fun l b => if l + b < 8 then some (l + b) else none), (.shflXor, fun l b => some (l ^^^ (b % 8)))]

/-- The rows of the table that are events and have no word. -/
def Sys2Proof.Machine.isEvent : Instr → Bool
  | .fairnessTimer _ | .deferredSwitch _ | .flightSwap _ _ | .activeSetFill _ _ | .aging _ _ | .loadReturn _ | .bind _
  | .drain _ | .apply _ | .send _ | .mirror _ | .mmaComplete _ | .accComplete _ | .claCommandStart _ | .claEvalComplete _
  | .claSweepEnd _ | .claImageComplete _ | .copyComplete _ _ | .hpostComplete _ | .creditGrant _ | .galleryFill _ _ _ _
  | .treadRetire _ | .retirementReport _ | .raiseApply _ | .b0Update _ _ _ | .remoteLookup _ _ _ _ | .lookupAnswer _
  | .watermarkUpdate _ _ _ | .rowOpen _ | .treadRelease _ | .dispatch _ | .stealRequest _ | .stealBackoff _ | .admission _
  | .phaseSpill _ | .graceExpiry _ | .forcedSave _ | .qtail _ _ | .queueEnable _ | .queueDisable _ | .registerWrite _ _ _
  | .launch _ | .cancel _ | .loadChunk _ _ | .verify | .discard | .romState | .attest _ _ | .lifecycle _ _ | .debugToken _ _ _
  | .partitionCreate _ | .partitionReset _ | .keyAssign _ _ | .keyRotate _ | .windowBind _ _ _ _ _ | .queueBind _ _ _ _
  | .saveRegion _ _ _ | .ringConfig _ | .streamTable _ | .channelConfig _ | .preempt _ _ _ _ _ _ | .preemptWithdraw _
  | .fairness _ _ | .powerLimit _ | .powerState _ | .telemetry _ | .errorLog _ | .coldBoot | .warmReset | .recalibration
  | .powerSample _ _ | .debugTokenExpiry _ | .rowThrottle _ _ | .throttleRelease _ _ | .rotationSweep _ _
  | .backgroundClear _ _ | .scrub _ | .linkDown | .hostMemAccess _ _ _ _ | .packetReceive _ _ | .wireRecord _
  | .collMessage _ _ | .collAck _ _ _ | .collRetryExhausted _ _ | .portLinkDown _ | .illegalInstruction | .fetchFailure _
  | .stealAnswer _ | .linkUp | .portLinkUp _ | .dieLinkLoss _ _ | .clusterMeshLoss _ | .commandWord _ _ | .haltDebug _ _
  | .pageMigration _ _ _ => true
  | _ => false

/-! ## Integer, address and predicate instructions (06_int_instr.md) -/

/-- Two sources, one destination: the value of each member of IOP and IOP2 in the words of R112 and R113. -/
def Sys2Proof.Machine.twoSourceOps : List ((BitVec 6 → BitVec 6 → BitVec 6 → BitVec 1 → BitVec 3 → Instr) × (Word → Word → Word)) :=
  [(.add, fun x y => x + y), (.sub, fun x y => x - y), (.and, fun x y => x &&& y), (.or, fun x y => x ||| y),
   (.xor, fun x y => x ^^^ y), (.andn, fun x y => x &&& ~~~y),
   (.shl, fun x y => if un y < 32 then x <<< un y else 0),
   (.shr, fun x y => if un y < 32 then x >>> un y else 0),
   (.sar, fun x y => if un y < 32 then x.sshiftRight (un y) else if si x < 0 then -1 else 0),
   (.rot, fun x y => x.rotateLeft (un y % 32)),
   (.minS, fun x y => if si x ≤ si y then x else y), (.maxS, fun x y => if si x ≤ si y then y else x),
   (.minN, fun x y => if un x ≤ un y then x else y), (.maxN, fun x y => if un x ≤ un y then y else x),
   (.mul, fun x y => BitVec.ofNat 32 (un x * un y)),
   (.mulhiS, fun x y => word (si x * si y / 2 ^ 32)), (.mulhiN, fun x y => BitVec.ofNat 32 (un x * un y / 2 ^ 32)),
   (.addSatS, fun x y => word (min (max (si x + si y) (-(2 ^ 31))) (2 ^ 31 - 1))),
   (.subSatS, fun x y => word (min (max (si x - si y) (-(2 ^ 31))) (2 ^ 31 - 1))),
   (.addSatN, fun x y => BitVec.ofNat 32 (min (un x + un y) (2 ^ 32 - 1))),
   (.absdiff, fun x y => BitVec.ofNat 32 (si x - si y).natAbs),
   (.bfx, fun x c => BitVec.ofNat 32 (un x / 2 ^ bits (un c) 0 5 % 2 ^ min (bits (un c) 8 6) 32))]

/-- R112, R113: the members of IOP and IOP2 with two sources write v[d] in every guard-true lane, raise no flag and change
nothing else. A transient result (R43) is written to the bypass network instead of the file (R103). -/
def Sys2Proof.Machine.twoSourceResult : Prop :=
  ∀ p ∈ twoSourceOps, ∀ d a b t g, Computes (p.1 d a b t g) HintUse.none g [] [one d, one a, one b]
    (fun _ _ th => th.result (t == 1) d.toNat (p.2 (th.reg a.toNat) (th.reg b.toNat))) (fun _ _ _ => 0)

/-- One source, one destination: the value of each member of IOP2. -/
def Sys2Proof.Machine.oneSourceOps : List ((BitVec 6 → BitVec 6 → BitVec 1 → BitVec 3 → Instr) × (Word → Word)) :=
  [(.clz, fun x => BitVec.ofNat 32 (if x = 0 then 32 else 31 - Nat.log2 (un x))),
   (.popc, fun x => BitVec.ofNat 32 ((List.range 32).filter (fun i => x.getLsbD i)).length),
   (.brev, fun x => x.reverse),
   (.abs, fun x => if si x < 0 then -x else x), (.neg, fun x => -x),
   (.extS8, fun x => (x.truncate 8).signExtend 32), (.extS16, fun x => (x.truncate 16).signExtend 32),
   (.extN8, fun x => (x.truncate 8).zeroExtend 32), (.extN16, fun x => (x.truncate 16).zeroExtend 32)]

/-- R113: the members of IOP2 with one source. -/
def Obligations.OneSourceResult : Prop :=
  ∀ p ∈ oneSourceOps, ∀ d a t g, Computes (p.1 d a t g) HintUse.none g [] [one d, one a]
    (fun _ _ th => th.result (t == 1) d.toNat (p.2 (th.reg a.toNat))) (fun _ _ _ => 0)

/-- R111, R113: bfi takes the inserted value from v[b] and its control word from v[b+1]; the other bits of v[a] stay. -/
def Sys2Proof.Machine.bitFieldInsert : Prop :=
  ∀ d a b t g, ∃ f : Word → Word → Word → Word,
    Computes (.bfi d a b t g) HintUse.none g [] [one d, one a, pair b]
      (fun _ _ th => th.result (t == 1) d.toNat (f (th.reg a.toNat) (th.reg b.toNat) (th.reg (b.toNat + 1))))
      (fun _ _ _ => 0) ∧
    ∀ x v k, ∀ i < 32,
      let p := bits (un k) 0 5
      let n := min (bits (un k) 8 6) 32
      (f x v k).getLsbD i = if p ≤ i ∧ i < p + n then v.getLsbD (i - p) else x.getLsbD i

/-- R110–R121: the two-source integer instructions (twoSourceResult) and bfi (bitFieldInsert). -/
def Obligations.TwoSources : Prop := twoSourceResult ∧ bitFieldInsert

/-- R115, R116: the immediate families; under a hint.imm the immediate is the hint's payload above bits [7:0]. -/
def Sys2Proof.Machine.immediateOps : List ((BitVec 6 → BitVec 6 → BitVec 11 → BitVec 3 → Instr) × (Word → Word → Word)) :=
  [(.addi, fun x y => x + y), (.andi, fun x y => x &&& y), (.ori, fun x y => x ||| y), (.xori, fun x y => x ^^^ y)]

/-- The immediate of a field: sign-extended, or joined below the payload of a hint.imm (R28, R48). -/
def Sys2Proof.Machine.immOf {n : Nat} (c : Ctx) (i : BitVec n) : Word :=
  match c.imm with
  | none => i.signExtend 32
  | some p => BitVec.ofNat 32 (p.toNat * 256 + i.toNat % 256)

/-- R115, R116: addi, andi, ori, xori, shi and movi. -/
def Obligations.ImmediateResult : Prop :=
  (∀ p ∈ immediateOps, ∀ d a i g, Computes (p.1 d a i g) (HintUse.immediate (decide (i.toNat < 256))) g [] [one d, one a]
    (fun c _ th => th.setReg d.toNat (p.2 (th.reg a.toNat) (immOf c i))) (fun _ _ _ => 0)) ∧
  (∀ d i g, Computes (.movi d i g) (HintUse.immediate (decide (i.toNat < 256))) g [] [one d]
    (fun c _ th => th.setReg d.toNat (immOf c i)) (fun _ _ _ => 0)) ∧
  (∀ d a o n g, Computes (.shi d a o n g) HintUse.none g [] [one d, one a]
    (fun _ _ th => th.setReg d.toNat (
      if o = 0 then th.reg a.toNat <<< n.toNat
      else if o = 1 then th.reg a.toNat >>> n.toNat
      else if o = 2 then (th.reg a.toNat).sshiftRight n.toNat
      else (th.reg a.toNat).rotateLeft n.toNat)) (fun _ _ _ => 0))

/-- The relations of ICMP (R119). -/
def Sys2Proof.Machine.compareOps : List ((BitVec 3 → BitVec 6 → BitVec 6 → BitVec 3 → Instr) × (Word → Word → Bool)) :=
  [(.eq, fun x y => x == y), (.ne, fun x y => x != y), (.ltS, fun x y => decide (si x < si y)),
   (.leS, fun x y => decide (si x ≤ si y)), (.ltN, fun x y => decide (un x < un y)), (.leN, fun x y => decide (un x ≤ un y)),
   (.gtS, fun x y => decide (si x > si y)), (.geS, fun x y => decide (si x ≥ si y)),
   (.gtN, fun x y => decide (un x > un y)), (.geN, fun x y => decide (un x ≥ un y))]

/-- The relations of ICMPI (R119). -/
def Sys2Proof.Machine.compareImmOps : List ((BitVec 3 → BitVec 6 → BitVec 11 → BitVec 3 → Instr) × (Word → Word → Bool)) :=
  [(.eqImm, fun x y => x == y), (.neImm, fun x y => x != y), (.ltSImm, fun x y => decide (si x < si y)),
   (.leSImm, fun x y => decide (si x ≤ si y)), (.gtSImm, fun x y => decide (si x > si y)),
   (.geSImm, fun x y => decide (si x ≥ si y)), (.ltNImm, fun x y => decide (un x < un y)),
   (.geNImm, fun x y => decide (un x ≥ un y))]

/-- R118, R119: the comparisons write a predicate only; a write to p0 is discarded (R93). -/
def Obligations.CompareResult : Prop :=
  (∀ p ∈ compareOps, ∀ d a b g, Computes (p.1 d a b g) HintUse.none g [] [one a, one b]
    (fun _ _ th => th.setPred d.toNat (p.2 (th.reg a.toNat) (th.reg b.toNat))) (fun _ _ _ => 0)) ∧
  (∀ p ∈ compareImmOps, ∀ d a i g, Computes (p.1 d a i g) (HintUse.immediate (decide (i.toNat < 256))) g [] [one a]
    (fun c _ th => th.setPred d.toNat (p.2 (th.reg a.toNat) (immOf c i))) (fun _ _ _ => 0))

/-- R93: p0 reads as 1 whatever is written to it; another predicate reads as written, and no other one changes. -/
def Sys2Proof.Machine.predicateWrite : Prop :=
  ∀ (th : Thread) (d k : BitVec 3) (b : Bool),
    (th.setPred d.toNat b).pred k.toNat = (if k = 0 then true else if k = d then b else th.pred k.toNat)

/-- R122, R124: pand, por, pxor, pnot, pset.nz, pget and sel. -/
def Sys2Proof.Machine.predicateResult : Prop :=
  (∀ d a b g, Computes (.pand d a b g) HintUse.none g [a, b] []
    (fun _ _ th => th.setPred d.toNat (th.pred a.toNat && th.pred b.toNat)) (fun _ _ _ => 0)) ∧
  (∀ d a b g, Computes (.por d a b g) HintUse.none g [a, b] []
    (fun _ _ th => th.setPred d.toNat (th.pred a.toNat || th.pred b.toNat)) (fun _ _ _ => 0)) ∧
  (∀ d a b g, Computes (.pxor d a b g) HintUse.none g [a, b] []
    (fun _ _ th => th.setPred d.toNat (th.pred a.toNat ^^ th.pred b.toNat)) (fun _ _ _ => 0)) ∧
  (∀ d a g, Computes (.pnot d a g) HintUse.none g [a] []
    (fun _ _ th => th.setPred d.toNat (!th.pred a.toNat)) (fun _ _ _ => 0)) ∧
  (∀ d a g, Computes (.psetNz d a g) HintUse.none g [] [one a]
    (fun _ _ th => th.setPred d.toNat (decide (th.reg a.toNat ≠ 0))) (fun _ _ _ => 0)) ∧
  (∀ d g, Computes (.pget d g) HintUse.none g [1, 2, 3, 4, 5, 6, 7] [one d]
    (fun _ _ th => th.setReg d.toNat (BitVec.ofNat 32 ((List.range 8).foldl (fun n k => n + (if th.pred k then 2 ^ k else 0)) 0))) (fun _ _ _ => 0)) ∧
  (∀ d a b p t g, Computes (.sel d a b p t g) HintUse.none g [p] [one d, one a, one b]
    (fun _ _ th => th.result (t == 1) d.toNat (if th.pred p.toNat then th.reg a.toNat else th.reg b.toNat)) (fun _ _ _ => 0))

/-- R93: predicate writes (predicateWrite) and predicate instructions (predicateResult). -/
def Obligations.Predicates : Prop := predicateWrite ∧ predicateResult

/-- R125, R126: the 64-bit members work on pairs; lea folds its sum into the 57-bit virtual space; cmp64 writes a predicate. -/
def Obligations.PairResult : Prop :=
  (∀ d a b t g, Computes (.add64 d a b t g) HintUse.none g [] [pair d, pair a, pair b]
    (fun _ _ th => th.resultPair (t == 1) d.toNat (th.pair a.toNat + th.pair b.toNat)) (fun _ _ _ => 0)) ∧
  (∀ d a b t g, Computes (.sub64 d a b t g) HintUse.none g [] [pair d, pair a, pair b]
    (fun _ _ th => th.resultPair (t == 1) d.toNat (th.pair a.toNat - th.pair b.toNat)) (fun _ _ _ => 0)) ∧
  (∀ d a b t g, Computes (.lea d a b t g) HintUse.none g [] [pair d, pair a, one b]
    (fun _ _ th => th.resultPair (t == 1) d.toNat
      (((th.pair a.toNat + (th.reg b.toNat).signExtend 64).truncate 57).signExtend 64)) (fun _ _ _ => 0)) ∧
  (∀ k p a b g, Computes (.cmp64 k p a b g) HintUse.none g [] [pair a, pair b]
    (fun _ _ th => th.setPred p.toNat (
      let x := th.pair a.toNat
      let y := th.pair b.toNat
      if k = 0 then x == y else if k = 1 then x != y
      else if k = 2 then decide (x.toInt < y.toInt) else if k = 3 then decide (x.toInt ≤ y.toInt)
      else if k = 4 then decide (x.toInt > y.toInt) else if k = 5 then decide (x.toInt ≥ y.toInt)
      else if k = 6 then decide (x.toNat < y.toNat) else decide (x.toNat ≥ y.toNat))) (fun _ _ _ => 0))

/-- R92, R128: xset, xadd and xlim change one field of one index register, modulo 256; the other field and the other
registers stay. -/
def Sys2Proof.Machine.indexRegister : Prop :=
  (∀ k a g, Computes (.xset k a g) HintUse.none g [] [one a]
    (fun _ _ th => th.setX k.toNat (BitVec.ofNat 32 (bits (un (th.xreg k.toNat)) 8 8 * 256 + un (th.reg a.toNat) % 256)))
    (fun _ _ _ => 0)) ∧
  (∀ k b g, Computes (.xadd k b g) HintUse.none g [] []
    (fun _ _ th => th.setX k.toNat (BitVec.ofNat 32 (bits (un (th.xreg k.toNat)) 8 8 * 256 +
      (((bits (un (th.xreg k.toNat)) 0 8 : Nat) + b.toInt) % 256).toNat))) (fun _ _ _ => 0)) ∧
  (∀ k a g, Computes (.xlim k a g) HintUse.none g [] [one a]
    (fun _ _ th => th.setX k.toNat (BitVec.ofNat 32 (un (th.reg a.toNat) % 256 * 256 + bits (un (th.xreg k.toNat)) 0 8)))
    (fun _ _ _ => 0))

/-- R129: every guard-true lane forms a register number that is aligned and in bounds, and may use the registers named
directly and formed. -/
def Sys2Proof.Machine.FormOk (s : State) (c : Ctx) (g : BitVec 3) (d : BitVec 6) (w k : BitVec 2) (o : BitVec 6) : Prop :=
  ∀ l ∈ guardLanes s c g, ∀ th, s.thread? c.fk l = some th →
    let n := bits (un (th.xreg k.toNat)) 0 8 + o.toNat
    let lim := bits (un (th.xreg k.toNat)) 8 8
    let rs := (List.range (2 ^ w.toNat)).map (fun i => d.toNat + i) ++ (List.range (2 ^ w.toNat)).map (fun i => n + i)
    d.toNat % 2 ^ w.toNat = 0 ∧ d.toNat + 2 ^ w.toNat ≤ c.ld.regs ∧ n % 2 ^ w.toNat = 0 ∧
    n + 2 ^ w.toNat - 1 < min (if lim = 0 then 256 else lim) c.ld.regs ∧
    (∀ r ∈ rs, th.leased r = false) ∧ th.awaits rs = false

/-- R129: ldv reads the registers an index register names, stv writes them. -/
def Sys2Proof.Machine.indexedRegisters : Prop :=
  ∀ d w k o g s c, w ≠ 3 → Issues s c HintUse.none g [] → FormOk s c g d w k o →
    (∃ t, exec (.ldv d w k o g) s = .next t ∧
      Lanes s t c g (fun _ th => th.setRegs d.toNat
        (th.regList (bits (un (th.xreg k.toNat)) 0 8 + o.toNat) (2 ^ w.toNat))) ∧ Keeps s t c 0) ∧
    (∃ t, exec (.stv d w k o g) s = .next t ∧
      Lanes s t c g (fun _ th => th.setRegs (bits (un (th.xreg k.toNat)) 0 8 + o.toNat)
        (th.regList d.toNat (2 ^ w.toNat))) ∧ Keeps s t c 0)

/-- R92, R129, R217: the traps of ldv and stv. A direct register that is misaligned for the width, or lies at or above the allocation, raises
the illegal-register trap; so does, after it (which of the two goes first is the model's choice, log entry 65), a formed number that is
misaligned, its detail that number modulo 256; a formed number whose last register is not below the effective limit raises the
index-bounds trap, its detail K; a leased register the lease trap. -/
def Sys2Proof.Machine.indexedTraps : Prop :=
  ∀ d w k o g, w ≠ 3 → ∀ i ∈ [Instr.ldv d w k o g, Instr.stv d w k o g], ∀ s c ls hd, Issues s c HintUse.none g [] →
    guardLanes s c g = ls → ls ≠ [] → c.ld.handler = some hd →
    (∀ l ∈ ls, ∀ th, s.thread? c.fk l = some th → th.hmode = false) →
    let W := 2 ^ w.toNat
    let n := fun (th : Thread) => bits (un (th.xreg k.toNat)) 0 8 + o.toNat
    let lim := fun (th : Thread) => min (if bits (un (th.xreg k.toNat)) 8 8 = 0 then 256 else bits (un (th.xreg k.toNat)) 8 8) c.ld.regs
    let rs := fun (th : Thread) => (List.range W).map (fun j => d.toNat + j) ++ (List.range W).map (fun j => n th + j)
    let free := ∀ l ∈ ls, ∀ th, s.thread? c.fk l = some th → th.awaits (rs th) = false
    let direct := d.toNat % W = 0 ∧ d.toNat + W ≤ c.ld.regs
    let all := fun (p : Thread → Prop) => ∀ l ∈ ls, ∀ th, s.thread? c.fk l = some th → p th
    (free → d.toNat % W ≠ 0 → ∃ t, exec i s = .next t ∧ Enters s t c ls hd (trap .illegalRegister d.toNat)) ∧
    (free → d.toNat % W = 0 → c.ld.regs < d.toNat + W →
      ∃ t, exec i s = .next t ∧ Enters s t c ls hd (trap .illegalRegister (max d.toNat c.ld.regs))) ∧
    (direct → all (fun th => n th % W ≠ 0) →
      ∃ t, exec i s = .next t ∧ EntersEach (nextPc c.pc) s t c ls hd (fun _ th => trap .illegalRegister (n th % 256))) ∧
    (direct → all (fun th => n th % W = 0 ∧ lim th ≤ n th + W - 1) →
      ∃ t, exec i s = .next t ∧ Enters s t c ls hd (trap .indexBounds k.toNat)) ∧
    (free → direct → all (fun th => n th % W = 0 ∧ n th + W - 1 < lim th) →
      let first := fun (th : Thread) => (rs th).find? (fun r => th.leases.any (fun x => x.reg == r))
      all (fun th => first th ≠ none) →
      ∃ t, exec i s = .next t ∧ EntersEach (nextPc c.pc) s t c ls hd (fun _ th => trap .lease ((first th).getD 0)))

/-- R92, R128, R129: the index registers (indexRegister), the registers that they name (indexedRegisters) and the traps of a use
of them (indexedTraps). -/
def Obligations.IndexRegisters : Prop := indexRegister ∧ indexedRegisters ∧ indexedTraps

/-! ## Floating-point instructions (07_float_instr.md) -/

/-- FOP, FSPEC: two operands (and v[d] for the fused members) and the mode, to a pattern and its flags. The arithmetic is that
of 04_numbers.md (Machine/Arith.lean, Machine/Special.lean). -/
def Sys2Proof.Machine.floatOps : List ((BitVec 6 → BitVec 6 → BitVec 6 → BitVec 1 → BitVec 3 → Instr) × (Rm → Nat → Nat → Nat → Nat × FFlags)) :=
  [(.fadd, fun rm a b _ => fAdd fp32 rm a b), (.fsub, fun rm a b _ => fSub fp32 rm a b),
   (.fmul, fun rm a b _ => fMul fp32 rm a b), (.fma, fun rm a b d => fFused fp32 rm false false a b d),
   (.fms, fun rm a b d => fFused fp32 rm false true a b d), (.fnma, fun rm a b d => fFused fp32 rm true false a b d),
   (.fmin, fun _ a b _ => fMinMax fp32 false a b), (.fmax, fun _ a b _ => fMinMax fp32 true a b),
   (.fminn, fun _ a b _ => fMinMaxNum fp32 false a b), (.fmaxn, fun _ a b _ => fMinMaxNum fp32 true a b),
   (.fcopysign, fun _ a b _ => fCopySign fp32 a b), (.fdiv, fun rm a b _ => fDiv rm a b)]

/-- FOP, FSPEC: one operand. -/
def Sys2Proof.Machine.floatUnary : List ((BitVec 6 → BitVec 6 → BitVec 1 → BitVec 3 → Instr) × (Rm → Nat → Nat × FFlags)) :=
  [(.fabs, fun _ a => fAbsF fp32 a), (.fneg, fun _ a => fNegF fp32 a), (.fsat, fun _ a => fSat fp32 a),
   (.frint, fun rm a => fRint fp32 rm true a), (.ftrunc, fun _ a => fRint fp32 .rz false a),
   (.rcp, fRcp), (.rsqrt, fRsqrt), (.sqrt, fSqrt), (.exp2, fExp2), (.log2, fLog2), (.sinpi, fSinPi), (.cospi, fCosPi),
   (.tanh, fTanh)]

/-- R131, R132, R134, R141: FOP and FSPEC write the pattern of the result in the mode of a hint.mod, else to nearest even, and
raise its flags in their flight. That exp2, log2, sinpi, cospi, tanh, rsqrt and their kin are rounded from a fixed-point value of 448
fractional bits is the model's presumption (log entry 20). -/
def Obligations.FloatResult : Prop :=
  (∀ p ∈ floatOps, ∀ d a b t g, Computes (p.1 d a b t g) HintUse.rounding g [] [one d, one a, one b]
    (fun c _ th => th.result (t == 1) d.toNat
      (BitVec.ofNat 32 (p.2 c.rm (un (th.reg a.toNat)) (un (th.reg b.toNat)) (un (th.reg d.toNat))).1))
    (fun c _ th => (p.2 c.rm (un (th.reg a.toNat)) (un (th.reg b.toNat)) (un (th.reg d.toNat))).2)) ∧
  (∀ p ∈ floatUnary, ∀ d a t g, Computes (p.1 d a t g) HintUse.rounding g [] [one d, one a]
    (fun c _ th => th.result (t == 1) d.toNat (BitVec.ofNat 32 (p.2 c.rm (un (th.reg a.toNat))).1))
    (fun c _ th => (p.2 c.rm (un (th.reg a.toNat))).2))

/-- HOP: what each member does to one half, given the format, the mode and the halves of v[a], v[b], v[d]. -/
def Sys2Proof.Machine.halfOps : List ((BitVec 6 → BitVec 6 → BitVec 6 → BitVec 1 → BitVec 3 → Instr) ×
    (Fmt → Rm → Nat → Nat → Nat → Nat × FFlags)) :=
  [(.hadd, fun f rm x y _ => fAdd f rm x y), (.hsub, fun f rm x y _ => fSub f rm x y), (.hmul, fun f rm x y _ => fMul f rm x y),
   (.hfma, fun f rm x y z => fFused f rm false false x y z), (.hmin, fun f _ x y _ => fMinMax f false x y),
   (.hmax, fun f _ x y _ => fMinMax f true x y)]

/-- R137, R138: HOP decides each half alone, in FP16 or BF16, and ORs their flags. -/
def Obligations.HalfResult : Prop :=
  (∀ p ∈ halfOps, ∀ d a b y g,
    let f := if y = 1 then bf16 else fp16
    let lo := fun (c : Ctx) (th : Thread) =>
      p.2 f c.rm (un (th.reg a.toNat) % 65536) (un (th.reg b.toNat) % 65536) (un (th.reg d.toNat) % 65536)
    let hi := fun (c : Ctx) (th : Thread) =>
      p.2 f c.rm (un (th.reg a.toNat) / 65536) (un (th.reg b.toNat) / 65536) (un (th.reg d.toNat) / 65536)
    Computes (p.1 d a b y g) HintUse.rounding g [] [one d, one a, one b]
      (fun c _ th => th.setReg d.toNat (BitVec.ofNat 32 ((hi c th).1 * 65536 + (lo c th).1)))
      (fun c _ th => (lo c th).2 ||| (hi c th).2)) ∧
  (∀ d a y g, Computes (.habs d a y g) HintUse.rounding g [] [one d, one a]
    (fun _ _ th => th.setReg d.toNat (BitVec.ofNat 32 (
      (fAbsF (if y = 1 then bf16 else fp16) (un (th.reg a.toNat) / 65536)).1 * 65536 +
      (fAbsF (if y = 1 then bf16 else fp16) (un (th.reg a.toNat) % 65536)).1))) (fun _ _ _ => 0)) ∧
  (∀ d a y g, Computes (.hneg d a y g) HintUse.rounding g [] [one d, one a]
    (fun _ _ th => th.setReg d.toNat (BitVec.ofNat 32 (
      (fNegF (if y = 1 then bf16 else fp16) (un (th.reg a.toNat) / 65536)).1 * 65536 +
      (fNegF (if y = 1 then bf16 else fp16) (un (th.reg a.toNat) % 65536)).1))) (fun _ _ _ => 0))

/-- FCVT: a widening member from part `k` of v[a], exact. -/
def Sys2Proof.Machine.widenOps : List ((BitVec 6 → BitVec 6 → Nat → BitVec 3 → Instr) × Fmt × Nat) :=
  [(fun d a k => .cvtF32F16 d a (.ofNat 1 k), fp16, 2), (fun d a k => .cvtF32Bf16 d a (.ofNat 1 k), bf16, 2),
   (fun d a k => .cvtF32E4m3 d a (.ofNat 2 k), e4m3, 4), (fun d a k => .cvtF32E5m2 d a (.ofNat 2 k), e5m2, 4),
   (fun d a k => .cvtF32E2m1 d a (.ofNat 3 k), e2m1, 8)]

/-- FCVT: a narrowing member into part `k` of v[d]. -/
def Sys2Proof.Machine.narrowOps : List ((BitVec 6 → BitVec 6 → Nat → BitVec 3 → Instr) × Fmt × Nat) :=
  [(fun d a k => .cvtF16F32 d a (.ofNat 1 k), fp16, 2), (fun d a k => .cvtBf16F32 d a (.ofNat 1 k), bf16, 2),
   (fun d a k => .cvtE4m3F32 d a (.ofNat 2 k), e4m3, 4), (fun d a k => .cvtE5m2F32 d a (.ofNat 2 k), e5m2, 4),
   (fun d a k => .cvtE2m1F32 d a (.ofNat 3 k), e2m1, 8)]

/-- A register with its part `k` of `w` bits replaced: the other bits stay as a read returns them (R144). -/
def Sys2Proof.Machine.withPart (x : Word) (w k v : Nat) : Word :=
  BitVec.ofNat 32 (un x - bits (un x) (w * k) w * 2 ^ (w * k) + v % 2 ^ w * 2 ^ (w * k))

/-- R76, R144: the conversions. -/
def Obligations.ConvertResult : Prop :=
  (∀ p ∈ widenOps, ∀ d a g, ∀ k < p.2.2, Computes (p.1 d a k g) HintUse.convert g [] [one d, one a]
    (fun _ _ th => th.setReg d.toNat
      (BitVec.ofNat 32 (fConvert p.2.1 fp32 .rne false (bits (un (th.reg a.toNat)) (32 / p.2.2 * k) (32 / p.2.2))).1))
    (fun _ _ th => (fConvert p.2.1 fp32 .rne false (bits (un (th.reg a.toNat)) (32 / p.2.2 * k) (32 / p.2.2))).2)) ∧
  (∀ p ∈ narrowOps, ∀ d a g, ∀ k < p.2.2, Computes (p.1 d a k g) HintUse.convert g [] [one d, one a]
    (fun c _ th => th.setReg d.toNat
      (withPart (th.reg d.toNat) (32 / p.2.2) k (fConvert fp32 p.2.1 c.rm c.sat (un (th.reg a.toNat))).1))
    (fun c _ th => (fConvert fp32 p.2.1 c.rm c.sat (un (th.reg a.toNat))).2)) ∧
  (∀ d a g, Computes (.cvtF32S32 d a g) HintUse.convert g [] [one d, one a]
    (fun c _ th => th.setReg d.toNat (BitVec.ofNat 32 (fOfInt fp32 c.rm (si (th.reg a.toNat))).1))
    (fun c _ th => (fOfInt fp32 c.rm (si (th.reg a.toNat))).2)) ∧
  (∀ d a g, Computes (.cvtF32N32 d a g) HintUse.convert g [] [one d, one a]
    (fun c _ th => th.setReg d.toNat (BitVec.ofNat 32 (fOfInt fp32 c.rm (un (th.reg a.toNat))).1))
    (fun c _ th => (fOfInt fp32 c.rm (un (th.reg a.toNat))).2)) ∧
  (∀ d a g, Computes (.cvtS32F32 d a g) HintUse.convert g [] [one d, one a]
    (fun c _ th => th.setReg d.toNat (word (fToInt fp32 c.rm (-(2 ^ 31)) (2 ^ 31 - 1) (un (th.reg a.toNat))).1))
    (fun c _ th => (fToInt fp32 c.rm (-(2 ^ 31)) (2 ^ 31 - 1) (un (th.reg a.toNat))).2)) ∧
  (∀ d a g, Computes (.cvtN32F32 d a g) HintUse.convert g [] [one d, one a]
    (fun c _ th => th.setReg d.toNat (word (fToInt fp32 c.rm 0 (2 ^ 32 - 1) (un (th.reg a.toNat))).1))
    (fun c _ th => (fToInt fp32 c.rm 0 (2 ^ 32 - 1) (un (th.reg a.toNat))).2)) ∧
  (∀ d a k g, Computes (.cvtS8F32 d a k g) HintUse.convert g [] [one d, one a]
    (fun c _ th => th.setReg d.toNat (withPart (th.reg d.toNat) 8 k.toNat
      (un (word (fToInt fp32 c.rm (-128) 127 (un (th.reg a.toNat))).1))))
    (fun c _ th => (fToInt fp32 c.rm (-128) 127 (un (th.reg a.toNat))).2)) ∧
  (∀ d a k g, Computes (.cvtS4F32 d a k g) HintUse.convert g [] [one d, one a]
    (fun c _ th => th.setReg d.toNat (withPart (th.reg d.toNat) 4 k.toNat
      (un (word (fToInt fp32 c.rm (-8) 7 (un (th.reg a.toNat))).1))))
    (fun c _ th => (fToInt fp32 c.rm (-8) 7 (un (th.reg a.toNat))).2))

/-- FCMP: each member's relation, and whether it is signalling (R147). -/
def Sys2Proof.Machine.floatCompareOps : List ((BitVec 3 → BitVec 6 → BitVec 6 → BitVec 3 → Instr) × Bool × (Option Ordering → Bool)) :=
  [(.feq, false, fun r => r == some .eq), (.fne, false, fun r => r != some .eq), (.flt, true, fun r => r == some .lt),
   (.fle, true, fun r => r == some .lt || r == some .eq), (.fgt, true, fun r => r == some .gt),
   (.fge, true, fun r => r == some .gt || r == some .eq), (.funord, false, fun r => r == none), (.ford, false, fun r => r != none)]

/-- R147, R148: the floating comparisons and fclass: no relation holds with a NaN but fne and funord. -/
def Obligations.FloatCompareResult : Prop :=
  (∀ p ∈ floatCompareOps, ∀ d a b g, Computes (p.1 d a b g) HintUse.rounding g [] [one a, one b]
    (fun _ _ th => th.setPred d.toNat (p.2.2 (
      if (fp32.val (un (th.reg a.toNat))).isNaN ∨ (fp32.val (un (th.reg b.toNat))).isNaN then none
      else some ((fp32.val (un (th.reg a.toNat))).cmp (fp32.val (un (th.reg b.toNat)))))))
    (fun _ _ th => if (fp32.val (un (th.reg a.toNat))).isSNaN ∨ (fp32.val (un (th.reg b.toNat))).isSNaN ∨
        (p.2.1 ∧ ((fp32.val (un (th.reg a.toNat))).isNaN ∨ (fp32.val (un (th.reg b.toNat))).isNaN)) then fNV else 0)) ∧
  (∀ d a g, Computes (.fclass d a g) HintUse.rounding g [] [one d, one a]
    (fun _ _ th => th.setReg d.toNat (BitVec.ofNat 32 (fClass fp32 (un (th.reg a.toNat))))) (fun _ _ _ => 0))

/-- NDOT, integer members: signed or not, element width, number of elements. -/
def Sys2Proof.Machine.intDotOps : List ((BitVec 6 → BitVec 6 → BitVec 6 → BitVec 3 → Instr) × Bool × Nat × Nat) :=
  [(.dotS8x4, true, 8, 4), (.dotN8x4, false, 8, 4), (.dotS4x8, true, 4, 8), (.dotN4x8, false, 4, 8)]

/-- NDOT, floating members: element format, number of elements. -/
def Sys2Proof.Machine.floatDotOps : List ((BitVec 6 → BitVec 6 → BitVec 6 → BitVec 3 → Instr) × Fmt × Nat) :=
  [(.dotE4m3x4, e4m3, 4), (.dotE5m2x4, e5m2, 4), (.dotE2m1x8, e2m1, 8)]

/-- R151, R152: the dot products add all products to v[d], modulo 2^32 or exactly with one rounding; scl and scladd multiply
by powers of two with one rounding. -/
def Obligations.DotResult : Prop :=
  (∀ p ∈ intDotOps, ∀ d a b g, Computes (p.1 d a b g) HintUse.rounding g [] [one d, one a, one b]
    (fun _ _ th =>
      let e := fun (x : Word) (i : Nat) =>
        if p.2.1 then sign (bits (un x) (p.2.2.1 * i) p.2.2.1) p.2.2.1 else (bits (un x) (p.2.2.1 * i) p.2.2.1 : Nat)
      th.setReg d.toNat (word (un (th.reg d.toNat) +
        ((List.range p.2.2.2).map (fun i => e (th.reg a.toNat) i * e (th.reg b.toNat) i)).sum)))
    (fun _ _ _ => 0)) ∧
  (∀ p ∈ floatDotOps, ∀ d a b g,
    let r := fun (c : Ctx) (th : Thread) =>
      ((List.range p.2.2).foldl (fun (x : XSum) i =>
        x.addMul (p.2.1.val (bits (un (th.reg a.toNat)) (32 / p.2.2 * i) (32 / p.2.2)))
          (p.2.1.val (bits (un (th.reg b.toNat)) (32 / p.2.2 * i) (32 / p.2.2))))
        (XSum.zero.add (fp32.val (un (th.reg d.toNat))))).round fp32 c.rm
    Computes (p.1 d a b g) HintUse.rounding g [] [one d, one a, one b]
      (fun c _ th => th.setReg d.toNat (BitVec.ofNat 32 (r c th).1)) (fun c _ th => (r c th).2)) ∧
  (∀ d a b k g,
    let r := fun (c : Ctx) (th : Thread) =>
      let e := bits (un (th.reg b.toNat)) (8 * k.toNat) 8
      scaleBy c.rm (th.reg a.toNat) ((e : Int) - 127) (decide (e = 255))
    Computes (.scl d a b k g) HintUse.rounding g [] [one d, one a, one b]
      (fun c _ th => th.setReg d.toNat (r c th).1) (fun c _ th => (r c th).2)) ∧
  (∀ d a b k g,
    let r := fun (c : Ctx) (th : Thread) =>
      let x := bits (un (th.reg b.toNat)) (8 * k.toNat) 8
      let y := bits (un (th.reg (b.toNat + 1))) (8 * k.toNat) 8
      scaleBy c.rm (th.reg a.toNat) ((x : Int) + y - 254) (decide (x = 255 ∨ y = 255))
    Computes (.scladd d a b k g) HintUse.rounding g [] [one d, one a, pair b]
      (fun c _ th => th.setReg d.toNat (r c th).1) (fun c _ th => (r c th).2))

/-- R86, R87, R155: the compensated members write the pair d: a sum or product and its error. What fadd.pair gives where its sum
overflows is the model's choice (log entry 64). -/
def Obligations.CompensatedResult : Prop :=
  let two := fun (th : Thread) (d : BitVec 6) (r : Nat × Nat × FFlags) =>
    (th.setReg d.toNat (BitVec.ofNat 32 r.1)).setReg (d.toNat + 1) (BitVec.ofNat 32 r.2.1)
  (∀ d a b g, Computes (.ftwosum d a b g) HintUse.compensated g [] [pair d, one a, one b]
    (fun _ _ th => two th d (twoSum (un (th.reg a.toNat)) (un (th.reg b.toNat))))
    (fun _ _ th => (fAdd fp32 .rne (un (th.reg a.toNat)) (un (th.reg b.toNat))).2)) ∧
  (∀ d a b g, Computes (.ftwoprod d a b g) HintUse.compensated g [] [pair d, one a, one b]
    (fun _ _ th => two th d (twoProd (un (th.reg a.toNat)) (un (th.reg b.toNat))))
    (fun _ _ th => (twoProd (un (th.reg a.toNat)) (un (th.reg b.toNat))).2.2)) ∧
  (∀ d a g, Computes (.faddPair d a g) HintUse.compensated g [] [pair d, one a]
    (fun _ _ th => two th d (addPair (un (th.reg d.toNat)) (un (th.reg (d.toNat + 1))) (un (th.reg a.toNat))))
    (fun _ _ th => (addPair (un (th.reg d.toNat)) (un (th.reg (d.toNat + 1))) (un (th.reg a.toNat))).2.2)) ∧
  (∀ a b, (twoSum a b).1 = (fAdd fp32 .rne a b).1)

/-! ## Control flow (08_flow_instr.md) -/

/-- R53: a target of a transfer is a multiple of 4 and sign-extended from bit 56. -/
def Sys2Proof.Machine.lawful (t : DWord) : Prop := t.toNat % 4 = 0 ∧ (t.truncate 57).signExtend 64 = t

/-- R159, R161: br, call, callr, ret and jmpr send every guard-true lane to its target; call and callr write the address of
the next word to the link pair, the target being read before. The others go on at the next word. -/
def Sys2Proof.Machine.branchTaken : Prop :=
  ∀ s c, 
    (∀ o g, Issues s c HintUse.none g [] → lawful (c.pc + dword (4 * o.toInt)) →
      ∃ t, exec (.br o g) s = .next t ∧ Keeps s t c 0 ∧
        Flows s t c g (fun _ th => .jump th (c.pc + dword (4 * o.toInt)))) ∧
    (∀ l o g, Issues s c HintUse.none g [] → Usable s c g [pair l] → lawful (c.pc + dword (4 * o.toInt)) →
      ∃ t, exec (.call l o g) s = .next t ∧ Keeps s t c 0 ∧
        Flows s t c g (fun _ th => .jump (th.setPair l.toNat (c.pc + 4)) (c.pc + dword (4 * o.toInt)))) ∧
    (∀ l b g, Issues s c HintUse.none g [] → Usable s c g [pair l, pair b] →
      (∀ k ∈ guardLanes s c g, ∀ th, s.thread? c.fk k = some th → lawful (th.pair b.toNat)) →
      ∃ t, exec (.callr l b g) s = .next t ∧ Keeps s t c 0 ∧
        Flows s t c g (fun _ th => .jump (th.setPair l.toNat (c.pc + 4)) (th.pair b.toNat))) ∧
    (∀ b g, Issues s c HintUse.none g [] → Usable s c g [pair b] →
      (∀ k ∈ guardLanes s c g, ∀ th, s.thread? c.fk k = some th → lawful (th.pair b.toNat)) →
      (∃ t, exec (.ret b g) s = .next t ∧ Keeps s t c 0 ∧ Flows s t c g (fun _ th => .jump th (th.pair b.toNat))) ∧
      (∃ t, exec (.jmpr b g) s = .next t ∧ Keeps s t c 0 ∧ Flows s t c g (fun _ th => .jump th (th.pair b.toNat))))

/-- R53, R105: a target that is not lawful raises the misaligned-fetch trap in the lanes that would go there, the link pair
unwritten. -/
def Sys2Proof.Machine.branchMisaligned : Prop :=
  let x := fun (_ : Ctx) => trap .misalignedFetch 0
  (∀ o g, Traps (.br o g) HintUse.none g (fun _ c _ => ¬ lawful (c.pc + dword (4 * o.toInt))) x) ∧
  (∀ l o g, Traps (.call l o g) HintUse.none g
    (fun s c _ => Usable s c g [pair l] ∧ ¬ lawful (c.pc + dword (4 * o.toInt))) x) ∧
  (∀ l b g, Traps (.callr l b g) HintUse.none g (fun s c ls => Usable s c g [pair l, pair b] ∧
    ∀ k ∈ ls, ∀ th, s.thread? c.fk k = some th → ¬ lawful (th.pair b.toNat)) x) ∧
  (∀ b g, Traps (.ret b g) HintUse.none g (fun s c ls => Usable s c g [pair b] ∧
    ∀ k ∈ ls, ∀ th, s.thread? c.fk k = some th → ¬ lawful (th.pair b.toNat)) x) ∧
  (∀ b g, Traps (.jmpr b g) HintUse.none g (fun s c ls => Usable s c g [pair b] ∧
    ∀ k ∈ ls, ∀ th, s.thread? c.fk k = some th → ¬ lawful (th.pair b.toNat)) x)

/-- R53, R105, R159, R161: transfers (branchTaken) and their unlawful targets (branchMisaligned). -/
def Obligations.Branches : Prop := branchTaken ∧ branchMisaligned

/-- R100: jset, jadd and leave change E(j) by the lanes of G and make the release check; wait adds them to A(j), parks them
at the word after it and makes the check; jget reads both. -/
def Sys2Proof.Machine.rejoinMasks : Prop :=
  (∀ j g, Effects (.jset j g) HintUse.none g [] [] (fun _ _ _ => True) (fun s c ls =>
    releaseMask (s.modFlight c.fk (fun f => f.setExpected j.toNat (laneMask ls))) c.fk j.toNat)) ∧
  (∀ j g, Effects (.jadd j g) HintUse.none g [] [] (fun _ _ _ => True) (fun s c ls =>
    releaseMask (s.modFlight c.fk (fun f => f.setExpected j.toNat (f.expected j.toNat ||| laneMask ls))) c.fk j.toNat)) ∧
  (∀ m g, Effects (.leave m g) HintUse.none g [] [] (fun _ _ _ => True) (fun s c ls =>
    ((List.range 16).filter (fun j => m.getLsbD j)).foldl (fun s j =>
      releaseMask (s.modFlight c.fk (fun f => f.setExpected j (f.expected j &&& ~~~(laneMask ls)))) c.fk j) s)) ∧
  (∀ j g, Placing (.waitRejoin j g) HintUse.none g (fun _ _ _ => True) (fun s c ls =>
    releaseMask (ls.foldl (fun s l => s.modThread c.fk l (fun t => { t with cond := .parked, pc := nextPc c.pc, trans := [] }))
      (s.modFlight c.fk (fun f => f.setArrived j.toNat (f.arrivedAt j.toNat ||| laneMask ls)))) c.fk j.toNat)) ∧
  (∀ d j g, Computes (.jget d j g) HintUse.none g [] [one d]
    (fun c _ th => th.setReg d.toNat
      (BitVec.ofNat 32 ((c.fl.expected j.toNat).toNat + 256 * (c.fl.arrivedAt j.toNat).toNat))) (fun _ _ _ => 0))

/-- R100, Release(j): where A(j) is not empty and E(j) has no lane outside it, its parked lanes run again and both masks
become empty; otherwise nothing changes. -/
def Sys2Proof.Machine.releaseCheck : Prop :=
  ∀ (s : State) (fk j : Nat) (f : Flight), tget s.flights fk = some f →
    (f.arrivedAt j ≠ 0 ∧ f.expected j &&& ~~~(f.arrivedAt j) = 0 →
      (∃ f', tget (releaseMask s fk j).flights fk = some f' ∧ f'.expected j = 0 ∧ f'.arrivedAt j = 0 ∧
        ∀ k, k ≠ j → f'.expected k = f.expected k ∧ f'.arrivedAt k = f.arrivedAt k) ∧
      ∀ l < 8, ∀ th, s.thread? fk l = some th → (releaseMask s fk j).thread? fk l =
        some (if (f.arrivedAt j).getLsbD l ∧ th.cond = .parked then { th with cond := .running } else th)) ∧
    (¬ (f.arrivedAt j ≠ 0 ∧ f.expected j &&& ~~~(f.arrivedAt j) = 0) → releaseMask s fk j = s)

/-- R100: the rejoin instructions (rejoinMasks) and the release check (releaseCheck). -/
def Obligations.RejoinRegisters : Prop := rejoinMasks ∧ releaseCheck

/-- R100, R164: the threads `ls` of a flight leave: each loses its transient values, its reservation and its handler mode, and leaves
every E(j), the release check of which follows, in ascending j. -/
def Sys2Proof.Machine.partyLeaves (tl : Bool) (fk : Nat) (ls : List Nat) (s : State) : State :=
  (List.range 16).foldl (fun s j =>
    releaseMask (s.modFlight fk (fun f => f.setExpected j (f.expected j &&& ~~~(laneMask ls)))) fk j)
    (ls.foldl (fun s l => (dropResv fk s l).modThread fk l (·.leave tl)) s)

/-- R100, R227, R229, R234, R239: exit and tail as a whole: the threads leave; then the matrix rounds, the reductions and the barriers
that waited for them are tried; a tail marks its landing, and an emptied landing that is marked frees its registers. -/
def Sys2Proof.Machine.exitEffect (tl : Bool) (c : Ctx) (ls : List Nat) (s : State) : State :=
  let rounds := (List.range 8).foldl (fun s k => s.tryRound c.lid k) (partyLeaves tl c.fk ls s)
  let reductions := (List.range 4).foldl (fun s h => s.tryRed c.lid h) rounds
  let barriers := (reductions.tryBar c.lid c.ld.tid false).tryBar c.lid c.ld.tid true
  (if tl then barriers.modLanding c.lid (fun l => { l with tailed := true }) else barriers).freeTailed c.lid

/-- R100, R164, R239: exit and tail remove the threads of G, as `exitEffect` says; a thread of G becomes exited, and every E(j) loses the
lanes of G: where that lets j release, its masks become empty and its parked threads run, and otherwise nothing else changes; a landing
that tail has emptied frees its registers at once, results bound for them discarded, if the tracker has room. -/
def Obligations.ExitAndTail : Prop :=
  (∀ g, Placing (.exit g) HintUse.none g (fun _ _ _ => True) (fun s c ls => exitEffect false c ls s)) ∧
  (∀ g, Placing (.tail g) HintUse.none g (fun _ _ _ => True) (fun s c ls => exitEffect true c ls s)) ∧
  (∀ (th : Thread) (b : Bool), (th.leave b).cond = .exited ∧ (th.leave b).trans = [] ∧ (th.leave b).resv = none ∧
    (th.leave b).hmode = false ∧ (th.leave b).regs = th.regs ∧ ((th.leave b).exiting = (th.exiting || b))) ∧
  (∀ (tl : Bool) (s : State) (fk : Nat) (ls : List Nat) (f : Flight), tget s.flights fk = some f → (∀ l ∈ ls, l < 8) →
    let left := fun (j : Nat) => f.expected j &&& ~~~(laneMask ls)
    let freed := fun (j : Nat) => f.arrivedAt j ≠ 0 ∧ left j &&& ~~~(f.arrivedAt j) = 0
    (∃ f', tget (partyLeaves tl fk ls s).flights fk = some f' ∧ ∀ j < 16,
      (freed j → f'.expected j = 0 ∧ f'.arrivedAt j = 0) ∧
      (¬ freed j → f'.expected j = left j ∧ f'.arrivedAt j = f.arrivedAt j)) ∧
    ∀ l < 8, ∀ th, s.thread? fk l = some th →
      (l ∈ ls → ∃ th', (partyLeaves tl fk ls s).thread? fk l = some th' ∧ th'.cond = .exited ∧ th'.trans = [] ∧ th'.resv = none ∧
        th'.hmode = false ∧ th'.regs = th.regs) ∧
      (l ∉ ls →
        let runs := th.cond = .parked ∧ ∃ j < 16, freed j ∧ (f.arrivedAt j).getLsbD l = true
        (runs → (partyLeaves tl fk ls s).thread? fk l = some { th with cond := .running }) ∧
        (¬ runs → (partyLeaves tl fk ls s).thread? fk l = some th))) ∧
  (∀ (s : State) (lid : Nat) (l : Landing) (tr : Tread), tget s.landings lid = some l → tget s.treads l.tid = some tr →
    let may := l.tailed = true ∧ l.freed = false ∧ s.liveThreads lid = [] ∧ tr.stage = .running ∧
      (s.owes lid = false ∨ s.tracked l.core < 64)
    (may → tget (s.freeTailed lid).landings lid = some { l with freed := true } ∧
      (∀ k < 256, ∀ th, tget s.threads (256 * lid + k) = some th →
        tget (s.freeTailed lid).threads (256 * lid + k) = some { th with leases := [], loads := [] }) ∧
      ∀ a ∈ (s.freeTailed lid).mem.accs, a.fk / 32 = lid → a.dest = []) ∧
    (¬ may → s.freeTailed lid = s))

/-- R97, R164: yield gives the slot up: the next group of its flight is the next ready one, counting lanes round from the lowest of
the group that gave it up, and the timer starts again; no thread outside the group changes, no other flight, and of its own flight
nothing but what a slot changes; where no other group is ready, the next turn takes the yield as the advice to swap, which is ignored
while a transient value is live. With no guard-true lane it has no effect. -/
def Obligations.YieldPassesSlot : Prop :=
  (∀ s c g ls, Issues s c HintUse.none g [] → guardLanes s c g = ls → ls ≠ [] →
    ∃ t, exec (.yield g) s = .next t ∧ Lanes s t c g (fun _ th => { th with lrsc := none }) ∧ Keeps s t c 0 ∧
      ∃ f', tget t.flights c.fk = some f' ∧ f'.gives = .yield ∧ f'.timer = 0 ∧ f'.tally = 0 ∧
        f'.lead = c.lanes.headD 0 ∧ (c.fl.advice = true → f'.advice = true) ∧
        t.leadLane c.fk f' = nextGroup (t.readyLanes c.fk) (t.holderLow c.fk (c.lanes.headD 0))) ∧
  (∀ s c g, Issues s c HintUse.none g [] → guardLanes s c g = [] → ∃ t, exec (.yield g) s = .next t ∧ Passes s t c) ∧
  (∀ (s : State) (fk : Nat) (x : Resident), s.resident? fk = some x → x.fl.gives = .yield →
    ((∃ l, s.leadLane fk x.fl = some l ∧ l ∉ s.holderLanes x) → s.noteYield x = s) ∧
    ((∀ l, s.leadLane fk x.fl = some l → l ∈ s.holderLanes x) → ∃ f', tget (s.noteYield x).flights fk = some f' ∧
      f' = { x.fl with gives := .no, advice := x.fl.advice || !s.holdsTransient fk }))

/-- R46: some field of a pending hint.mod for which `p` holds is valid. -/
def Sys2Proof.Machine.modPending (c : Ctx) (p : ModHint → Bool) : Prop := ∃ m, c.mods = some m ∧ p m = true

/-- R46, R48, R465: where `bad` holds of the pending hints, `i` raises the illegal-instruction trap in every thread of the group,
whatever its guard; `done` is what exec makes of the state in which they have entered the handler. -/
def Sys2Proof.Machine.refusesHint (i : Instr) (done : State → State) (bad : Ctx → Prop) : Prop :=
  ∀ s c hd, s.ctx? = some c → bad c → c.ld.handler = some hd → (∀ l ∈ c.lanes, ∀ th, s.thread? c.fk l = some th → th.hmode = false) →
    ∃ t, exec i s = .next (done t) ∧ Enters s t c c.lanes hd (trap .illegal 0)

/-- R44, R46, R48: which pending hints the instructions do not accept, family by family: no field of hint.mod and no hint.imm on the
integer, control-flow, system, reservation and fence instructions; on the immediate families a hint.imm only where the immediate has no
bit above [7:0]; on the floating-point families the rounding field alone, on CMPN of it only rne; on FCVT also saturation; the cache
field alone on LD, ST and ORD; order, scope, nr and cache on ATOM. -/
def Sys2Proof.Machine.hintsRefused : Prop :=
  let any := fun (m : ModHint) => m.rv || m.sv || m.ov || m.scv || m.nr || m.cv
  let none' := fun (c : Ctx) => c.imm ≠ none ∨ modPending c any
  let imm := fun {n : Nat} (i : BitVec n) (c : Ctx) => (c.imm ≠ none ∧ 256 ≤ i.toNat) ∨ modPending c any
  let round := fun (c : Ctx) => c.imm ≠ none ∨ modPending c (fun m => m.sv || m.ov || m.scv || m.nr || m.cv)
  let conv := fun (c : Ctx) => c.imm ≠ none ∨ modPending c (fun m => m.ov || m.scv || m.nr || m.cv)
  let cmpn := fun (c : Ctx) => c.imm ≠ none ∨ modPending c (fun m => (m.rv && m.rm != 0) || m.sv || m.ov || m.scv || m.nr || m.cv)
  let cached := fun (c : Ctx) => c.imm ≠ none ∨ modPending c (fun m => m.rv || m.sv || m.ov || m.scv || m.nr)
  let atom := fun (c : Ctx) => c.imm ≠ none ∨ modPending c (fun m => m.rv || m.sv)
  (∀ d a b t g, (∀ p ∈ twoSourceOps, refusesHint (p.1 d a b t g) id none') ∧ (∀ p ∈ oneSourceOps, refusesHint (p.1 d a t g) id none') ∧
    (∀ p ∈ [Instr.add64, .sub64, .lea, .bfi], refusesHint (p d a b t g) id none') ∧
    (∀ p ∈ floatOps, refusesHint (p.1 d a b t g) id round) ∧ (∀ p ∈ floatUnary, refusesHint (p.1 d a t g) id round) ∧
    (∀ p ∈ halfOps, refusesHint (p.1 d a b t g) id round) ∧ (∀ P, ∀ p ∈ compareOps, refusesHint (p.1 P a b g) id none') ∧
    (∀ P, ∀ p ∈ floatCompareOps, refusesHint (p.1 P a b g) id round) ∧ (∀ p ∈ intDotOps, refusesHint (p.1 d a b g) id round) ∧
    (∀ p ∈ floatDotOps, refusesHint (p.1 d a b g) id round) ∧ (∀ p ∈ [Instr.ftwosum, .ftwoprod], refusesHint (p d a b g) id cmpn) ∧
    refusesHint (.faddPair d a g) id cmpn ∧ (∀ p ∈ shuffleOps, refusesHint (p.1 d a b g) id none')) ∧
  (∀ d a g, (∀ p ∈ immediateOps, ∀ i, refusesHint (p.1 d a i g) id (imm i)) ∧ (∀ i, refusesHint (.movi d i g) id (imm i)) ∧
    (∀ P, ∀ p ∈ compareImmOps, ∀ i, refusesHint (p.1 P a i g) id (imm i)) ∧ (∀ o n, refusesHint (.shi d a o n g) id none') ∧
    (∀ p ∈ [Instr.cvtF32S32, .cvtF32N32, .cvtS32F32, .cvtN32F32], refusesHint (p d a g) id conv)) ∧
  (∀ d b o h g, (∀ p ∈ loadOps, refusesHint (p.1 d b o h g) id cached) ∧ (∀ p ∈ storeOps, refusesHint (p.1 d b o h g) id cached)) ∧
  (∀ d b k h g, ∀ p ∈ [Instr.ldaB32, .ldaB64, .stlB32, .stlB64], refusesHint (p d b k h g) id cached) ∧
  (∀ d a b h g, ∀ p ∈ atomOps ++ casOps, refusesHint (p.1 d a b h g) id atom) ∧
  (∀ d a b P h k g, (∀ p ∈ [Instr.lrB32, .lrB64], refusesHint (p d a h g) id none') ∧
    (∀ p ∈ [Instr.scB32, .scB64], refusesHint (p P a b h g) State.tidied none') ∧
    (∀ p ∈ [Instr.fenceAcq, .fenceRel, .fenceAr], refusesHint (p k g) State.tidied none')) ∧
  (∀ o o' l b g, refusesHint (.br o g) id none' ∧ refusesHint (.call l o' g) id none' ∧ refusesHint (.callr l b g) id none' ∧
    refusesHint (.ret b g) id none' ∧ refusesHint (.jmpr b g) id none') ∧
  (∀ j m d g, (∀ p ∈ [Instr.jset, .jadd, .waitRejoin], refusesHint (p j g) id none') ∧ refusesHint (.leave m g) id none' ∧
    refusesHint (.jget d j g) id none') ∧
  (∀ g, ∀ p ∈ [Instr.exit, .tail, .yield, .halt, .clrres], refusesHint (p g) id none') ∧
  (∀ k g, (∀ p ∈ [Instr.trap, .brk], refusesHint (p k g) id none')) ∧ (∀ k g, refusesHint (.eret k g) id none') ∧
  (∀ d i g, sregKnown i.toNat = true → refusesHint (.sreg d i g) id none') ∧
  (∀ d r g, csrKnown r.toNat = true → refusesHint (.csrr d r g) id none')

/-- R44–R49: a hint is kept with its group, which goes on at the next word; the second hint of a kind in a group, and a
hint.mod with value bits under a clear valid bit, raise the illegal-instruction trap in the whole group, s.fnpc being the word after
the group's instruction (R107; log entry 61 where that cannot be fetched). -/
def Sys2Proof.Machine.hintPending : Prop :=
  ∀ s c, s.ctx? = some c →
    let kept := fun (t : State) (h : HintState) =>
      t = { s with threads := t.threads, flights := t.flights } ∧
      (∀ l ∈ c.lanes, ∀ th, s.thread? c.fk l = some th → t.thread? c.fk l = some { th with pc := nextPc c.pc }) ∧
      tget t.flights c.fk = some { c.fl with
        hint := some h, lead := c.lanes.headD 0, gives := .no
        timer := if c.keeps then c.fl.timer + 1 else 1, tally := if c.keeps then c.fl.tally else 0 }
    let traps := fun (t : State) (hd : DWord) => EntersAt (s.groupEnd c 3 c.pc) s t c c.lanes hd (trap .illegal 0)
    let old : HintState := { lanes := c.lanes, start := c.start, imm := c.imm, mods := c.mods, sched := c.sched
                             back := match c.fl.hint with
                               | some h => h.back
                               | none => { lead := c.fl.lead, gives := c.fl.gives, timer := c.fl.timer, tally := c.fl.tally } }
    (∀ p, c.imm = none → ∃ t, exec (.hintImm p) s = .next t ∧ kept t { old with imm := some p }) ∧
    (∀ w st, c.sched = none → ∃ t, exec (.hintSched w st) s = .next t ∧ kept t { old with sched := some (w == 1, st) }) ∧
    (∀ a o b r x y e sc f k n, c.mods = none →
      (a = 1 ∨ o = 0) → (b = 1 ∨ r = 0) → (x = 1 ∨ y = 0) → (e = 1 ∨ sc = 0) → (f = 1 ∨ k = 0) →
      let m : ModHint := { ov := a == 1, order := o, rv := b == 1, rm := r, sv := x == 1, sat := y == 1, scv := e == 1, scope := sc,
                           cv := f == 1, cache := k, nr := n == 1 }
      ∃ t, exec (.hintMod a o b r x y e sc f k n) s = .next t ∧ kept t { old with mods := some m }) ∧
    (∀ hd, c.ld.handler = some hd → (∀ l ∈ c.lanes, ∀ th, s.thread? c.fk l = some th → th.hmode = false) →
      (∀ p, c.imm ≠ none → ∃ t, exec (.hintImm p) s = .next t ∧ traps t hd) ∧
      (∀ w st, c.sched ≠ none → ∃ t, exec (.hintSched w st) s = .next t ∧ traps t hd) ∧
      (∀ a o b r x y e sc f k n, c.mods ≠ none ∨
          ¬ ((a = 1 ∨ o = 0) ∧ (b = 1 ∨ r = 0) ∧ (x = 1 ∨ y = 0) ∧ (e = 1 ∨ sc = 0) ∧ (f = 1 ∨ k = 0)) →
        ∃ t, exec (.hintMod a o b r x y e sc f k n) s = .next t ∧ traps t hd))

/-- R47–R49: an event that sends on a lane held at its instruction ends a hint group that stands pending in it, of a flight that is not
issuing: its lanes stand at the first word of the group again, and the slot as before it. Otherwise nothing changes. -/
def Sys2Proof.Machine.hintsEnd : Prop :=
  ∀ (s : State) (fk : Nat) (ls : List Nat) (f : Flight), tget s.flights fk = some f →
    (∀ h, f.hint = some h → s.cur ≠ some fk → (∃ l ∈ ls, l ∈ h.lanes) → (∀ l ∈ h.lanes, l < 8) →
      tget (s.leaveHints fk ls).flights fk = some { f with
        hint := none, lead := h.back.lead, gives := h.back.gives, timer := h.back.timer, tally := h.back.tally } ∧
      ∀ l < 8, ∀ th, s.thread? fk l = some th →
        (s.leaveHints fk ls).thread? fk l = some (if l ∈ h.lanes then { th with pc := h.start } else th)) ∧
    (s.cur = some fk ∨ (∀ h, f.hint = some h → ∀ l ∈ ls, l ∉ h.lanes) → s.leaveHints fk ls = s)

/-- R44–R49, R465: a hint that is kept (hintPending), the instructions that do not accept it (hintsRefused), and what ends a
hint group from outside (hintsEnd). -/
def Obligations.HintPending : Prop := hintPending ∧ hintsEnd ∧ hintsRefused

/-- R52, R54, R465: an illegal word raises the illegal-instruction trap, a poisoned fetch the integrity trap with the fetch bit and
no data address, in every thread of the group; s.fnpc is the word after the group's instruction: an illegal word may be a hint
(R49, R107); where the group's instruction cannot be fetched, s.fnpc is the model's choice (log entry 61). -/
def Sys2Proof.Machine.illegalWord : Prop :=
  ∀ s c hd, s.ctx? = some c → c.ld.handler = some hd →
    (∀ l ∈ c.lanes, ∀ th, s.thread? c.fk l = some th → th.hmode = false) →
    (∃ t, exec .illegalInstruction s = .next t ∧ EntersAt (s.groupEnd c 3 c.pc) s t c c.lanes hd (trap .illegal 0)) ∧
    (∃ t, exec (.fetchFailure true) s = .next t ∧ Enters s t c c.lanes hd
      { cause := .integrity, detail := 0, addr := 0, write := false, fetch := true })

/-- R108, R109: the lanes `ls` of the group have ended their tread, which holds the record of the lowest of them with the information
`fi`, the fault pc and the address given, unless a thread of a lower number has ended it in the same cycle; the others of the group go
on at the next word; nothing else changes. -/
structure Sys2Proof.Machine.EndsWith (s t : State) (c : Ctx) (ls : List Nat) (fi : Word) (fpc faddr : DWord) : Prop where
  record  : let r : FaultRec := { finfo := fi, thread := (c.fk % 32) * 8 + ls.headD 0, core := c.ld.core, fpc := fpc, faddr := faddr
                                  i0 := word (c.tr.point.getD 0 0), i1 := word (c.tr.point.getD 1 0), i2 := word (c.tr.point.getD 2 0)
                                  i3 := word (c.tr.point.getD 3 0), flags := c.fl.fpflags, order := s.nextEnd
                                  cycle := tgetD 0 s.cycles (c.ld.core / 48) }
            tget t.treads c.ld.tid = some { c.tr with ending := some (match c.tr.ending with
              | none => r
              | some old => if r.thread < old.thread then { r with order := old.order } else old) }
  treads  : ∀ k, k ≠ c.ld.tid → tget t.treads k = tget s.treads k
  rest    : t = { s with threads := t.threads, flights := t.flights, treads := t.treads, nextEnd := t.nextEnd }
  ended   : ∀ l ∈ ls, ∀ th, s.thread? c.fk l = some th →
    ∃ th', t.thread? c.fk l = some th' ∧ th' = { th with trans := th'.trans }
  others  : ∀ l ∈ c.lanes, l ∉ ls → ∀ th, s.thread? c.fk l = some th → t.thread? c.fk l = some (th.after c)
  threads : ∀ fk l, l < 8 → (fk ≠ c.fk ∨ l ∉ c.lanes) → t.thread? fk l = s.thread? fk l
  flights : ∀ k, k ≠ c.fk → tget t.flights k = tget s.flights k
  flight  : ∀ f, tget s.flights c.fk = some f → ∃ f', tget t.flights c.fk = some f' ∧ slotted f f' 0

/-- R54, R108: a fetch that finds no translation ends the tread with end code 0x41, the lanes of the group in its record. -/
def Sys2Proof.Machine.fetchEndsTread : Prop :=
  ∀ s c, s.ctx? = some c → ∃ t, exec (.fetchFailure false) s = .next t ∧
    EndsWith s t c c.lanes (finfoWord 0x41 0 (laneMask c.lanes).toNat false true false) c.pc c.pc

/-- R52, R54, R108, R465: what an illegal word and a failed fetch do (illegalWord, fetchEndsTread). -/
def Obligations.FetchEvents : Prop := illegalWord ∧ fetchEndsTread

/-! ## Cross-lane instructions -/

/-- R166–R168: a shuffle takes the value that its source lane offers; where that lane does not take part, its own. -/
def Sys2Proof.Machine.shuffleResult : Prop :=
  (∀ p ∈ shuffleOps, ∀ d a b g, Crosses (p.1 d a b g) g [] [one d, one a, one b]
    (fun s c l th => th.setReg d.toNat
      (((p.2 l (un (th.reg b.toNat))).bind (offered s c g a)).getD (th.reg a.toNat))) (fun _ _ => 0)) ∧
  (∀ d a g, Crosses (.bcast d a g) g [] [one d, one a]
    (fun s c _ th => th.setReg d.toNat (((guardLanes s c g).head?.bind (offered s c g a)).getD (th.reg a.toNat)))
    (fun _ _ => 0))

/-- R168: the votes over the participating lanes, and match. -/
def Sys2Proof.Machine.voteResult : Prop :=
  let yes := fun (s : State) (c : Ctx) (g : BitVec 3) (a : BitVec 3) =>
    (guardLanes s c g).filter (fun l => (s.thread? c.fk l).any (fun t => t.pred a.toNat))
  (∀ d a g, Crosses (.voteAny d a g) g [a] []
    (fun s c _ th => th.setPred d.toNat (decide (yes s c g a ≠ []))) (fun _ _ => 0)) ∧
  (∀ d a g, Crosses (.voteAll d a g) g [a] []
    (fun s c _ th => th.setPred d.toNat (decide (yes s c g a = guardLanes s c g))) (fun _ _ => 0)) ∧
  (∀ d a g, Crosses (.voteBallot d a g) g [a] [one d]
    (fun s c _ th => th.setReg d.toNat ((laneMask (yes s c g a)).zeroExtend 32)) (fun _ _ => 0)) ∧
  (∀ d a g, Crosses (.matchLanes d a g) g [] [one d, one a]
    (fun s c _ th => th.setReg d.toNat ((laneMask (((offers s c g a).filter (fun p => p.2 == th.reg a.toNat)).map (·.1))).zeroExtend 32))
    (fun _ _ => 0))

/-- R166–R168: shuffles (shuffleResult) and votes (voteResult). -/
def Obligations.ShuffleAndVote : Prop := shuffleResult ∧ voteResult

/-- R168, R82: the reductions give every participating lane one value; prefix.add the sum over the lanes up to its own. The
floating sum is a fixed tree over eight lane values, −0 for lanes outside, rounded to nearest even at each node. -/
def Obligations.ReductionResult : Prop :=
  (∀ d a g, Crosses (.redAddS32 d a g) g [] [one d, one a]
    (fun s c _ th => th.setReg d.toNat (((offers s c g a).map (·.2)).foldl (· + ·) 0)) (fun _ _ => 0)) ∧
  (∀ d a g, Crosses (.redMin d a g) g [] [one d, one a]
    (fun s c _ th => th.setReg d.toNat (((offers s c g a).map (·.2)).foldl (fun x y => if si x ≤ si y then x else y) 0x7FFFFFFF))
    (fun _ _ => 0)) ∧
  (∀ d a g, Crosses (.redMax d a g) g [] [one d, one a]
    (fun s c _ th => th.setReg d.toNat (((offers s c g a).map (·.2)).foldl (fun x y => if si x ≤ si y then y else x) 0x80000000))
    (fun _ _ => 0)) ∧
  (∀ d a g, Crosses (.prefixSum d a g) g [] [one d, one a]
    (fun s c l th => th.setReg d.toNat ((((offers s c g a).filter (fun p => decide (p.1 ≤ l))).map (·.2)).foldl (· + ·) 0))
    (fun _ _ => 0)) ∧
  (∀ d a g, Crosses (.redAddF32 d a g) g [] [one d, one a]
    (fun s c _ th => th.setReg d.toNat (treeOf (offers s c g a)).1) (fun s c => (treeOf (offers s c g a)).2))

/-! ## Special and control registers, traps -/

/-- R95, R173: sreg reads a special register at issue into v[d], a 64-bit one into the pair; a read of s.fpclear clears the
flags of the flight once every lane has read them. -/
def Sys2Proof.Machine.specialRegister : Prop :=
  ∀ d i g s c, sregKnown i.toNat = true → Issues s c HintUse.none g [] →
    Usable s c g [if sregWide i.toNat then pair d else one d] →
    ∃ t, exec (.sreg d i g) s = .next t ∧
      Lanes s t c g (fun l th =>
        let v := sregValue c s l th i.toNat
        if sregWide i.toNat then th.setPair d.toNat v else th.setReg d.toNat (v.truncate 32)) ∧
      (i.toNat ≠ 0x021 ∨ guardLanes s c g = [] → Keeps s t c 0) ∧
      (i.toNat = 0x021 → guardLanes s c g ≠ [] → Keeps (s.modFlight c.fk (fun f => { f with fpflags := 0 })) t c 0)

/-- R95: the value of every special register, by number: thread, lane, flight and landing numbers, flights, landings of the span,
registers; the coordinates of the point, the nest, the instance, the argument block; core, cluster, die and bay; the cycle counter of
the die; the flags, read by either name; the key of the entry word, the fairness period, the lanes of the executing group and those of the flight that
have not exited; the trap registers, which read 0 outside handler mode, and the mode. Every other number is reserved. -/
def Sys2Proof.Machine.specialValues : Prop :=
  ∀ c s l th,
    sregValue c s l th 0x000 = BitVec.ofNat 64 ((c.fk % 32) * 8 + l) ∧ sregValue c s l th 0x001 = BitVec.ofNat 64 l ∧
    sregValue c s l th 0x002 = BitVec.ofNat 64 (c.fk % 32) ∧ sregValue c s l th 0x003 = BitVec.ofNat 64 c.ld.number ∧
    sregValue c s l th 0x004 = BitVec.ofNat 64 c.ld.flights ∧ sregValue c s l th 0x005 = BitVec.ofNat 64 c.tr.span ∧
    sregValue c s l th 0x006 = BitVec.ofNat 64 c.ld.regs ∧
    (∀ i < 4, sregValue c s l th (0x008 + i) = (word (c.tr.point.getD i 0)).zeroExtend 64) ∧
    sregValue c s l th 0x00C = BitVec.ofNat 64 c.tr.nest ∧ sregValue c s l th 0x00D = c.tr.sinst.zeroExtend 64 ∧
    sregValue c s l th 0x00E = c.tr.args ∧
    sregValue c s l th 0x010 = BitVec.ofNat 64 c.ld.core ∧ sregValue c s l th 0x011 = BitVec.ofNat 64 (c.ld.core / 24) ∧
    sregValue c s l th 0x012 = BitVec.ofNat 64 (c.ld.core / 48) ∧ sregValue c s l th 0x013 = BitVec.ofNat 64 c.fl.bay ∧
    sregValue c s l th 0x018 = BitVec.ofNat 64 (tgetD 0 s.cycles (c.ld.core / 48)) ∧
    sregValue c s l th 0x020 = c.fl.fpflags.zeroExtend 64 ∧ sregValue c s l th 0x021 = c.fl.fpflags.zeroExtend 64 ∧
    sregValue c s l th 0x022 = BitVec.ofNat 64 c.ld.key ∧ sregValue c s l th 0x023 = BitVec.ofNat 64 (s.fairPeriod c.tr.part) ∧
    (∀ i, ((sregValue c s l th 0x024).getLsbD i = true ↔ i < 8 ∧ i ∈ c.lanes)) ∧
    (∀ i, ((sregValue c s l th 0x025).getLsbD i = true ↔ i < 8 ∧ ∃ t, s.thread? c.fk i = some t ∧ t.cond ≠ .exited)) ∧
    sregValue c s l th 0x028 = (if th.hmode then th.cause.zeroExtend 64 else 0) ∧
    sregValue c s l th 0x029 = (if th.hmode then th.finfo.zeroExtend 64 else 0) ∧
    sregValue c s l th 0x02A = (if th.hmode then th.fpc else 0) ∧ sregValue c s l th 0x02B = (if th.hmode then th.fnpc else 0) ∧
    sregValue c s l th 0x02C = (if th.hmode then th.faddr else 0) ∧
    sregValue c s l th 0x02D = (if th.hmode then 1 else 0) ∧
    (∀ r < 1024, sregKnown r = true ↔ r ∈ [0x000, 0x001, 0x002, 0x003, 0x004, 0x005, 0x006, 0x008, 0x009, 0x00A, 0x00B, 0x00C, 0x00D,
      0x00E, 0x010, 0x011, 0x012, 0x013, 0x018, 0x020, 0x021, 0x022, 0x023, 0x024, 0x025, 0x028, 0x029, 0x02A, 0x02B, 0x02C, 0x02D]) ∧
    (∀ r, sregWide r = true ↔ r ∈ [0x00E, 0x018, 0x02A, 0x02B, 0x02C]) ∧
    (∀ p, tget s.parts c.tr.part = some p → s.fairPeriod c.tr.part = p.fair)

/-- R95, R173: sreg (specialRegister) and what it reads (specialValues). -/
def Obligations.SpecialRegisters : Prop := specialRegister ∧ specialValues

/-- R176: csrr reads a control register: the trap count, the halves of the saved pcs (0 outside handler mode), the handler
scratch registers. -/
def Sys2Proof.Machine.controlRegisterRead : Prop :=
  ∀ d r g, csrKnown r.toNat = true → Computes (.csrr d r g) HintUse.none g [] [one d]
    (fun c _ th => th.setReg d.toNat (
      if r = 4 then c.fl.tcount
      else if r = 8 then (if th.hmode then th.fpc.truncate 32 else 0)
      else if r = 9 then (if th.hmode then (th.fpc >>> 32).truncate 32 else 0)
      else if r = 10 then (if th.hmode then th.fnpc.truncate 32 else 0)
      else if r = 11 then (if th.hmode then (th.fnpc >>> 32).truncate 32 else 0)
      else tgetD 0 th.hscratch r.toNat)) (fun _ _ _ => 0)

/-- R175, R176: csrw writes a control register in handler mode; outside it, it raises the privileged trap and writes nothing. -/
def Sys2Proof.Machine.controlRegisterWrite : Prop :=
  ∀ a r g, csrKnown r.toNat = true → r ≠ 4 →
    (∀ s c, Issues s c HintUse.none g [] → Usable s c g [one a] →
      (∀ l ∈ guardLanes s c g, ∀ th, s.thread? c.fk l = some th → th.hmode = true) →
      ∃ t, exec (.csrw a r g) s = .next t ∧ Keeps s t c 0 ∧ Lanes s t c g (fun _ th =>
        let w := th.reg a.toNat
        if r = 8 then { th with fpc := (th.fpc >>> 32).truncate 32 ++ w }
        else if r = 9 then { th with fpc := w ++ th.fpc.truncate 32 }
        else if r = 10 then { th with fnpc := (th.fnpc >>> 32).truncate 32 ++ w }
        else if r = 11 then { th with fnpc := w ++ th.fnpc.truncate 32 }
        else { th with hscratch := tputD 0 th.hscratch r.toNat w })) ∧
    Traps (.csrw a r g) HintUse.none g (fun _ _ _ => True) (fun _ => trap .privileged 0)

/-- R175, R176: csrr (controlRegisterRead) and csrw (controlRegisterWrite). -/
def Obligations.ControlRegisters : Prop := controlRegisterRead ∧ controlRegisterWrite

/-- R105, R175: trap and brk raise their exceptions with the detail they name; the entry saves and changes what R107 says. -/
def Sys2Proof.Machine.trapInstructions : Prop :=
  (∀ k g, Traps (.trap k g) HintUse.none g (fun _ _ _ => True) (fun _ => trap .trapInstr k.toNat)) ∧
  (∀ k g, Traps (.brk k g) HintUse.none g (fun _ _ _ => True) (fun _ => trap .breakpoint k.toNat))

/-- R107: the registers that taking a trap saves into, and what it leaves alone. -/
def Sys2Proof.Machine.trapEntry : Prop :=
  ∀ (th : Thread) (hd : DWord) (x : Trap) (m : Nat) (fpc fnpc : DWord),
    th.enterHandler hd x m fpc fnpc = { th with
      cause := BitVec.ofNat 32 x.cause.code
      finfo := BitVec.ofNat 32 (x.cause.code + 256 * (m % 256) + 65536 * (x.detail % 256) +
        (if x.write then 2 ^ 26 else 0) + (if x.fetch then 2 ^ 27 else 0))
      fpc := fpc, fnpc := fnpc, faddr := x.addr, hmode := true, pc := (hd.truncate 57).signExtend 64, trans := [] }

/-- R107, R175: eret leaves handler mode for the saved pc (retry) or the saved next pc (skip), the trap registers reading 0
again; outside handler mode it raises the privileged trap, and an unlawful saved pc the misaligned-fetch trap, which in
handler mode ends the tread. -/
def Obligations.ReturnFromTrap : Prop :=
  (∀ k g, Placing (.eret k g) HintUse.none g
    (fun s c ls => ∀ l ∈ ls, ∀ th, s.thread? c.fk l = some th → th.hmode = true ∧ lawful (if k = 1 then th.fnpc else th.fpc))
    (fun s c ls => ls.foldl (fun s l => s.modThread c.fk l (fun th => { th with
      hmode := false, cause := 0, finfo := 0, fpc := 0, fnpc := 0, faddr := 0
      pc := if k = 1 then th.fnpc else th.fpc })) s)) ∧
  (∀ k g, Traps (.eret k g) HintUse.none g (fun _ _ _ => True) (fun _ => trap .privileged 0)) ∧
  (∀ k g s c ls, Issues s c HintUse.none g [] → guardLanes s c g = ls → ls ≠ [] →
    (∀ l ∈ ls, ∀ th, s.thread? c.fk l = some th → th.hmode = true ∧ ¬ lawful (if k = 1 then th.fnpc else th.fpc)) →
    ∃ t, exec (.eret k g) s = .next t ∧ EndsWith s t c ls (finfoWord 0x07 0 (laneMask ls).toNat false false true) c.start 0)

/-- R108, R109, R175: halt ends the tread, with code 0x42 outside handler mode and with the cause in it; the lanes of the record are
those that halt with the code of the lowest (what else it holds for a halt in handler mode: log entry 62; a cause that reads 0x41, as
only a rewritten phase record can bring, is set apart). trap and brk end the tread with their cause where the nest has no handler,
and, nested, in handler mode. -/
def Sys2Proof.Machine.endsTread : Prop :=
  ∀ g s c ls, Issues s c HintUse.none g [] → guardLanes s c g = ls → ls ≠ [] →
    let code := fun (th : Thread) => if th.hmode then th.cause.toNat else 0x42
    let all := (laneMask ls).toNat
    (∀ th, s.thread? c.fk (ls.headD 0) = some th → code th ≠ 0x41 →
      let same := ls.filter (fun l => (s.thread? c.fk l).any (fun x => code x == code th))
      ∃ t, exec (.halt g) s = .next t ∧ EndsWith s t c ls (finfoWord (code th) 0 (laneMask same).toNat false false false) c.start 0) ∧
    (∀ nested : Bool, (∀ l ∈ ls, ∀ th, s.thread? c.fk l = some th → th.hmode = nested) → (nested = false → c.ld.handler = none) →
      ∀ k, (∃ t, exec (.trap k g) s = .next t ∧ EndsWith s t c ls (finfoWord 0x11 k.toNat all false false nested) c.start 0) ∧
        ∃ t, exec (.brk k g) s = .next t ∧ EndsWith s t c ls (finfoWord 0x10 k.toNat all false false nested) c.start 0)

/-- R105–R108, R175: trap and brk (trapInstructions), what the entry saves and changes (trapEntry), halt and a trap without a handler (endsTread). -/
def Obligations.TrapsAndEndings : Prop := trapInstructions ∧ trapEntry ∧ endsTread

/-- R41, R91, R105, R217: what `i` does whose register fields name `us`, in this order, when none of them is awaited. Where the first use
that is not lawful is misaligned, its lanes take the illegal-register trap with the number that it names; where it lies at or above the
allocation, with that number; where it is a pair or a quad that begins below it, with the first register beyond. Where all are lawful and each
lane has one of them leased, with the lease trap and the number of the first that is. -/
def Sys2Proof.Machine.refusesRegisters (i : Instr) (hu : HintUse) (g : BitVec 3) (us : List RegUse) : Prop :=
  ∀ s c ls hd, Issues s c hu g [] → guardLanes s c g = ls → ls ≠ [] → c.ld.handler = some hd →
    (∀ l ∈ ls, ∀ th, s.thread? c.fk l = some th → th.hmode = false ∧ th.awaits (allRegs us) = false) →
    let lawful := fun (u : RegUse) => u.r % u.n = 0 ∧ u.r + u.n ≤ c.ld.regs
    let traps := fun (k : Nat) => ∃ t, exec i s = .next t ∧ Enters s t c ls hd (trap .illegalRegister k)
    (∀ vs u ws, us = vs ++ u :: ws → (∀ v ∈ vs, lawful v) →
      (u.r % u.n ≠ 0 → traps u.r) ∧
      (u.r % u.n = 0 → c.ld.regs ≤ u.r → traps u.r) ∧
      (u.r % u.n = 0 → u.r < c.ld.regs → c.ld.regs < u.r + u.n → traps c.ld.regs)) ∧
    ((∀ u ∈ us, lawful u) →
      let first := fun (th : Thread) => (us.flatMap (fun u => (List.range u.n).map (fun j => u.r + j))).find?
        (fun r => th.leases.any (fun x => x.reg == r))
      (∀ l ∈ ls, ∀ th, s.thread? c.fk l = some th → first th ≠ none) →
      ∃ t, exec i s = .next t ∧ EntersEach (nextPc c.pc) s t c ls hd (fun _ th => trap .lease ((first th).getD 0)))

/-- R41, R91, R105, R217: the integer, comparison, floating-point, transfer and memory instructions that name registers, pairs and
quads refuse registers as `refusesRegisters` says, and then write none and access nothing. Of several unlawful registers the first in the
order d, a, b is reported, which is the model's choice (log entry 65). -/
def Obligations.IllegalRegister : Prop :=
  (∀ d a b t g, let three := [one d, one a, one b]
    (∀ p ∈ twoSourceOps, refusesRegisters (p.1 d a b t g) HintUse.none g three) ∧
    (∀ p ∈ oneSourceOps, refusesRegisters (p.1 d a t g) HintUse.none g [one d, one a]) ∧
    refusesRegisters (.bfi d a b t g) HintUse.none g [one d, one a, pair b] ∧
    (∀ p ∈ [Instr.add64, .sub64], refusesRegisters (p d a b t g) HintUse.none g [pair d, pair a, pair b]) ∧
    refusesRegisters (.lea d a b t g) HintUse.none g [pair d, pair a, one b] ∧
    (∀ P, ∀ p ∈ compareOps, refusesRegisters (p.1 P a b g) HintUse.none g [one a, one b]) ∧
    (∀ k P, refusesRegisters (.cmp64 k P a b g) HintUse.none g [pair a, pair b]) ∧
    (∀ p ∈ floatOps, refusesRegisters (p.1 d a b t g) HintUse.rounding g three) ∧
    (∀ p ∈ floatUnary, refusesRegisters (p.1 d a t g) HintUse.rounding g [one d, one a]) ∧
    (∀ p ∈ intDotOps, refusesRegisters (p.1 d a b g) HintUse.rounding g three)) ∧
  (∀ d a g, (∀ p ∈ immediateOps, ∀ i, refusesRegisters (p.1 d a i g) (HintUse.immediate (decide (i.toNat < 256))) g [one d, one a]) ∧
    (∀ i, refusesRegisters (.movi d i g) (HintUse.immediate (decide (i.toNat < 256))) g [one d]) ∧
    (∀ o n, refusesRegisters (.shi d a o n g) HintUse.none g [one d, one a]) ∧
    (∀ k, refusesRegisters (.xset k a g) HintUse.none g [one a])) ∧
  (∀ l b g, (∀ o, refusesRegisters (.call l o g) HintUse.none g [pair l]) ∧ refusesRegisters (.callr l b g) HintUse.none g [pair l, pair b] ∧
    refusesRegisters (.ret b g) HintUse.none g [pair b] ∧ refusesRegisters (.jmpr b g) HintUse.none g [pair b]) ∧
  (∀ d b h g, let base := if h = 1 then one b else pair b
    let data := fun (n : Nat) => if n = 16 then quad d else if n = 8 then pair d else one d
    (∀ o, ∀ p ∈ loadOps, refusesRegisters (p.1 d b o h g) HintUse.memory g [data p.2.1, base]) ∧
    (∀ o, ∀ p ∈ storeOps, refusesRegisters (p.1 d b o h g) HintUse.memory g [data p.2, base]) ∧
    (∀ k, ∀ p ∈ [(Instr.ldaB32, 4), (Instr.ldaB64, 8), (Instr.stlB32, 4), (Instr.stlB64, 8)],
      refusesRegisters (p.1 d b k h g) HintUse.memory g [data p.2, base]) ∧
    (∀ p ∈ [(Instr.lrB32, 4), (Instr.lrB64, 8)], refusesRegisters (p.1 d b h g) HintUse.none g [data p.2, base]))

/-! ## Memory instructions (09_memory_instr.md) -/

/-- What a memory instruction leaves: each lane of `ls`, ascending, has entered its access where its check allows it, all as
one operation of the class. -/
def Sys2Proof.Machine.entered (o : Ctx → AccOrder) (k : Cls) (n : Nat) (check : Ctx → State → Thread → Checked) (req : Ctx → Thread → AccReq)
    (s : State) (c : Ctx) (ls : List Nat) : State :=
  (ls.foldl (fun t l =>
    match s.thread? c.fk l with
    | some th =>
      match check c s th with
      | .ok p => enterAccess c (o c) c.cache n (some (k, (c.fl.counter k).issued)) t l th p (req c th)
      | _ => t
    | none => t) s).joinOp c.fk k

/-- The class has room for one more operation, and every lane passes the checks of R182. -/
def Sys2Proof.Machine.accessible (k : Cls) (check : Ctx → State → Thread → Checked) (s : State) (c : Ctx) (ls : List Nat) : Prop :=
  c.fl.full k = false ∧ ∀ l ∈ ls, ∀ th, s.thread? c.fk l = some th → ∃ p, check c s th = .ok p

/-- R181, R187–R190, R196: LD, ST, ORD and lr with every lane past its checks enter one access a lane, in ascending lane order,
as one operation of the LD or ST class, and go on at the next word. -/
def Sys2Proof.Machine.loadStoreIssue : Prop :=
  (∀ p ∈ loadOps, ∀ d b o h g, Effects (p.1 d b o h g) HintUse.memory g [] [dataUse d p.2.1, baseUse h b]
    (accessible .ld (checkAt h b (o.toInt * p.2.1) p.2.1 false))
    (entered (fun _ => relaxed) .ld p.2.1 (checkAt h b (o.toInt * p.2.1) p.2.1 false) (loadReq d p.2.1 p.2.2))) ∧
  (∀ p ∈ storeOps, ∀ d b o h g, Effects (p.1 d b o h g) HintUse.memory g [] [dataUse d p.2, baseUse h b]
    (accessible .st (checkAt h b (o.toInt * p.2) p.2 true))
    (entered (fun _ => relaxed) .st p.2 (checkAt h b (o.toInt * p.2) p.2 true) (storeReq d p.2))) ∧
  (∀ p ∈ [(Instr.ldaB32, 4), (Instr.ldaB64, 8)], ∀ d b k h g,
    Effects (p.1 d b k h g) HintUse.memory g [] [dataUse d p.2, baseUse h b] (accessible .ld (checkAt h b 0 p.2 false))
      (entered (fun _ => { acq := true, rel := false, scope := k.toNat }) .ld p.2 (checkAt h b 0 p.2 false)
        (loadReq d p.2 false))) ∧
  (∀ p ∈ [(Instr.stlB32, 4), (Instr.stlB64, 8)], ∀ d b k h g,
    Effects (p.1 d b k h g) HintUse.memory g [] [dataUse d p.2, baseUse h b] (accessible .st (checkAt h b 0 p.2 true))
      (entered (fun _ => { acq := false, rel := true, scope := k.toNat }) .st p.2 (checkAt h b 0 p.2 true)
        (storeReq d p.2))) ∧
  (∀ p ∈ [(Instr.lrB32, 4), (Instr.lrB64, 8)], ∀ d a h g,
    Effects (p.1 d a h g) HintUse.none g [] [dataUse d p.2, baseUse h a] (accessible .ld (checkAt h a 0 p.2 false))
      (entered (fun _ => relaxed) .ld p.2 (checkAt h a 0 p.2 false)
        (fun _ _ => { kind := .lr, data := 0, cmp := 0, dest := dataRegs d p.2, signed := false })))

/-- R192–R196: an atomic enters one access a lane, with its operand (and, for cas, its comparand from d), as one operation of
the LD class; with .nr of the ST class, with no destination. With .nr, d must be 0 except on cas: otherwise the
illegal-instruction trap. -/
def Sys2Proof.Machine.atomicIssue : Prop :=
  let u := fun (n : Nat) (r : BitVec 6) => if n = 8 then pair r else one r
  let q := fun (fn n : Nat) (b : BitVec 6) (cmp : Thread → Nat) (dest : List Nat) (_ : Ctx) (t : Thread) =>
    ({ kind := .atomic fn, data := operandOf t b n, cmp := cmp t, dest := dest, signed := false } : AccReq)
  (∀ p ∈ atomOps ++ casOps, ∀ d a b h g, Effects (p.1 d a b h g) HintUse.atomic g []
    [u p.2.1 d, baseUse h a, u p.2.1 b] (fun s c ls => c.nr = false ∧ accessible .ld (checkAt h a 0 p.2.1 true) s c ls)
    (entered atomOrder .ld p.2.1 (checkAt h a 0 p.2.1 true)
      (q p.2.2 p.2.1 b (fun t => if p.2.2 = 10 ∨ p.2.2 = 13 then operandOf t d p.2.1 else 0) (dataRegs d p.2.1)))) ∧
  (∀ p ∈ atomOps, ∀ a b h g, Effects (p.1 0 a b h g) HintUse.atomic g [] [baseUse h a, u p.2.1 b]
    (fun s c ls => c.nr = true ∧ accessible .st (checkAt h a 0 p.2.1 true) s c ls)
    (entered atomOrder .st p.2.1 (checkAt h a 0 p.2.1 true) (q p.2.2 p.2.1 b (fun _ => 0) []))) ∧
  (∀ p ∈ casOps, ∀ d a b h g, Effects (p.1 d a b h g) HintUse.atomic g [] [u p.2.1 d, baseUse h a, u p.2.1 b]
    (fun s c ls => c.nr = true ∧ accessible .st (checkAt h a 0 p.2.1 true) s c ls)
    (entered atomOrder .st p.2.1 (checkAt h a 0 p.2.1 true) (q p.2.2 p.2.1 b (fun t => operandOf t d p.2.1) []))) ∧
  (∀ p ∈ atomOps, ∀ d a b h g s c hd, s.ctx? = some c → c.nr = true → d ≠ 0 → c.ld.handler = some hd →
    (∀ l ∈ c.lanes, ∀ th, s.thread? c.fk l = some th → th.hmode = false) →
    ∃ t, exec (p.1 d a b h g) s = .next t ∧ Enters s t c c.lanes hd (trap .illegal 0))

/-- R181, R187–R196: what LD, ST, ORD, lr and the atomics enter (loadStoreIssue, atomicIssue). -/
def Obligations.MemoryIssue : Prop := loadStoreIssue ∧ atomicIssue

/-- R370 Issue, R183: entering an access appends it to the issue queue with its order, location and clock; its destination
registers await it; no byte changes, at any home, in any view. -/
def Obligations.AccessEntered : Prop :=
  ∀ (c : Ctx) (o : AccOrder) (prio n : Nat) (k : Cls) (num : Nat) (s : State) (l : Nat) (th : Thread) (p : Loc) (q : AccReq),
    l < 8 → s.thread? c.fk l = some th →
    let t := enterAccess c o prio n (some (k, num)) s l th p q
    (∃ a, t.mem.accs = s.mem.accs ++ [a] ∧ a.id = s.mem.nextAcc ∧ a.kind = q.kind ∧ a.fk = c.fk ∧ a.lane = l ∧
      (a.acq, a.rel, a.scope) = (o.acq, o.rel, o.scope) ∧ (a.space, a.addr, a.key, a.size) = (p.space, p.addr, p.key, n) ∧
      a.data = q.data ∧ a.cmp = q.cmp ∧ a.dest = q.dest ∧ a.cover = c.fl.cover ∧ a.clock = [0, 0, 0, 0] ∧ a.stage = .issued ∧ a.value = none ∧
      a.seen = [0, 0, 0, 0] ∧ a.flags = 0 ∧ a.returned = false ∧ a.cls = some (k, num) ∧
      (a.sys = true ↔ (o.rel = true ∧ 7 ≤ o.scope) ∨ th.sysFenced = true) ∧
      (a.causal = true ↔ (q.kind ≠ .load ∧ q.kind ≠ .lr ∧ q.kind ≠ .fence) ∧ ((o.rel = true ∧ 6 ≤ o.scope) ∨ th.relFenced = true))) ∧
    t.mem.nextAcc = s.mem.nextAcc + 1 ∧
    t.thread? c.fk l = some { th with
      lrsc := if q.kind = .lr then some 0 else none
      crossed := none
      loads := if k = .ld then q.dest.map (fun r => (r, num)) ++ th.loads else th.loads } ∧
    (∀ fk j, j < 8 → (fk ≠ c.fk ∨ j ≠ l) → t.thread? fk j = s.thread? fk j) ∧
    (∀ sp a key m, t.mem.atHome sp a key m = s.mem.atHome sp a key m) ∧
    (∀ d sp a key m, t.mem.view d sp a key m = s.mem.view d sp a key m) ∧
    t.flights = s.flights ∧ t.treads = s.treads ∧ t.landings = s.landings

/-- The address of an access, hall or global, as a trap gives it. -/
def Sys2Proof.Machine.accessAddr (h : BitVec 1) (b : BitVec 6) (off : Int) (th : Thread) : DWord :=
  if h = 1 then (eaHall th b off).zeroExtend 64 else eaGlobal th b off

/-- A claim about every per-lane memory instruction: its hints, guard, registers, space, size, whether it writes, what it asks of the
pending hints, the address of a lane, and what exec makes of the state in which its lanes have been settled (sc leaves the queue of
accesses tidied). -/
def Sys2Proof.Machine.overAccesses (P : Instr → HintUse → BitVec 3 → List RegUse → BitVec 1 → Nat → Bool → (Ctx → Prop) → (Thread → DWord) →
    (State → State) → Prop) : Prop :=
  let u := fun (n : Nat) (r : BitVec 6) => if n = 8 then pair r else one r
  let any := fun (_ : Ctx) => True
  (∀ p ∈ loadOps, ∀ d b o h g, P (p.1 d b o h g) HintUse.memory g [dataUse d p.2.1, baseUse h b] h p.2.1 false any
    (accessAddr h b (o.toInt * p.2.1)) id) ∧
  (∀ p ∈ storeOps, ∀ d b o h g, P (p.1 d b o h g) HintUse.memory g [dataUse d p.2, baseUse h b] h p.2 true any
    (accessAddr h b (o.toInt * p.2)) id) ∧
  (∀ p ∈ [(Instr.ldaB32, 4, false), (Instr.ldaB64, 8, false), (Instr.stlB32, 4, true), (Instr.stlB64, 8, true)], ∀ d b k h g,
    P (p.1 d b k h g) HintUse.memory g [dataUse d p.2.1, baseUse h b] h p.2.1 p.2.2 any (accessAddr h b 0) id) ∧
  (∀ p ∈ atomOps ++ casOps, ∀ d a b h g, P (p.1 d a b h g) HintUse.atomic g [u p.2.1 d, baseUse h a, u p.2.1 b] h p.2.1 true
    (fun c => c.nr = true → p.2.2 ≠ 10 → p.2.2 ≠ 13 → d = 0) (accessAddr h a 0) id) ∧
  (∀ p ∈ [(Instr.lrB32, 4), (Instr.lrB64, 8)], ∀ d a h g,
    P (p.1 d a h g) HintUse.none g [dataUse d p.2, baseUse h a] h p.2 false any (accessAddr h a 0) id) ∧
  (∀ p ∈ [(Instr.scB32, 4), (Instr.scB64, 8)], ∀ P' a b h g,
    P (p.1 P' a b h g) HintUse.none g [baseUse h a, u p.2 b] h p.2 true any (accessAddr h a 0) State.tidied)

/-- A memory instruction of `n` bytes whose guard-true lanes have addresses, each its own, that are no multiples of `n`, takes the
misaligned-access trap in them. -/
def Sys2Proof.Machine.misaligns (i : Instr) (hu : HintUse) (g : BitVec 3) (us : List RegUse) (_ : BitVec 1) (n : Nat) (w : Bool) (pre : Ctx → Prop)
    (ea : Thread → DWord) (done : State → State) : Prop :=
  ∀ s c ls hd, Issues s c hu g [] → pre c → Usable s c g us → guardLanes s c g = ls → ls ≠ [] → c.ld.handler = some hd →
    (∀ l ∈ ls, ∀ th, s.thread? c.fk l = some th → th.hmode = false ∧ (ea th).toNat % n ≠ 0) →
    ∃ t, exec i s = .next (done t) ∧ EntersEach (nextPc c.pc) s t c ls hd (fun _ th =>
      { cause := .misalignedAccess, detail := n, addr := ea th, write := w, fetch := false })

/-- R105, R106, R182: an access whose address is not a multiple of its size takes the misaligned-access trap, its detail the
size, its address the access's own, the write bit set for a store, an atomic and sc; nothing is entered. -/
def Sys2Proof.Machine.misalignedTrap : Prop := overAccesses misaligns

/-- R182, R408: the lease and the pinned page that an access of `n` bytes at `ea` goes through, and the place there. -/
def Sys2Proof.Machine.reaches (c : Ctx) (ea : DWord) (n : Nat) (w : Bool) (p : PageMap) (pa : Nat) : Prop :=
  (ea.truncate 57).signExtend 64 = ea ∧ ∃ l, leaseFor c.tr.leases (ea.toNat % 2 ^ 57) n (!w) w = some l ∧
    leasePage l (ea.toNat % 2 ^ 57) = some p ∧ (p.at_ (ea.toNat % 2 ^ 57)).2 = pa

/-- The further checks of R182 on aligned addresses, in its order, where one fails in the same way in every guard-true lane. Global: an
address outside every one lease with the access needed ends the tread with 0x40; a tile whose uncorrectable error nobody has met yet, or a
host page that cannot be read or written, traps with memory-error; a poisoned tile with integrity; a write to an exhausted tile with
integrity-exhausted. Hall: an address outside the halls ends the tread with 0x43, an uncorrectable error traps with memory-error. -/
def Sys2Proof.Machine.checksFail (i : Instr) (hu : HintUse) (g : BitVec 3) (us : List RegUse) (h : BitVec 1) (n : Nat) (w : Bool) (pre : Ctx → Prop)
    (ea : Thread → DWord) (done : State → State) : Prop :=
  ∀ s c ls hd, Issues s c hu g [] → pre c → Usable s c g us → guardLanes s c g = ls → ls ≠ [] → c.ld.handler = some hd →
    (∀ l ∈ ls, ∀ th, s.thread? c.fk l = some th → th.hmode = false ∧ (ea th).toNat % n = 0) →
    let all := fun (q : Thread → Prop) => ∀ l ∈ ls, ∀ th, s.thread? c.fk l = some th → q th
    let ends := fun (code : Nat) => ∀ th, s.thread? c.fk (ls.headD 0) = some th → ∃ t, exec i s = .next (done t) ∧
      EndsWith s t c ls (finfoWord code 0 (laneMask ls).toNat w false false) c.start (ea th)
    let traps := fun (x : Cause) => ∃ t, exec i s = .next (done t) ∧ EntersEach (nextPc c.pc) s t c ls hd (fun _ th =>
      { cause := x, detail := 0, addr := ea th, write := w, fetch := false })
    let tile := fun (th : Thread) (q : Nat → Nat → GalEntry → Prop) => ∃ p pa e, reaches c (ea th) n w p pa ∧ p.host = false ∧
      s.mem.resident? (tileOf pa) p.key = some e ∧ e.uncorr = false ∧ q (tileOf pa) p.key e
    (h = 0 → all (fun th => (((ea th).truncate 57).signExtend 64 ≠ ea th ∨ ∀ l ∈ c.tr.leases,
        ¬ (l.base ≤ (ea th).toNat % 2 ^ 57 ∧ (ea th).toNat % 2 ^ 57 + n ≤ l.base + l.len ∧ (w = false → l.r = true) ∧
          (w = true → l.w = true)))) → ends 0x40) ∧
    (h = 0 → all (fun th => ∃ p pa, reaches c (ea th) n w p pa ∧ p.host = true ∧
        (s.mem.linkUp = false ∨ pa / 64 ∈ s.mem.hostBad)) → traps .memoryError) ∧
    (h = 0 → all (fun th => tile th (fun _ _ e => e.poisoned = true)) → traps .integrity) ∧
    (h = 0 → w = true → all (fun th => tile th (fun t k e => e.poisoned = false ∧ s.mem.exhausted t k = true)) → traps .integrityExhausted) ∧
    (h = 1 → all (fun th => 2 ^ 26 ≤ (ea th).toNat ∨ 24 ≤ (ea th).toNat / 2 ^ 21) → ends 0x43) ∧
    (h = 1 → all (fun th => (ea th).toNat / 2 ^ 21 < 24 ∧
        24 * (c.ld.core / 24) + (ea th).toNat / 2 ^ 21 ∈ s.coresOf c.tr.part ∧
        let a := c.ld.core / 24 * 2 ^ 26 + (ea th).toNat
        ((ea th).toNat / 2 ^ 21 = c.ld.core % 24 → ∀ r ∈ tgetD [] s.mem.ranges c.ld.core, ¬ (r.lo < a + n ∧ a < r.hi)) ∧
        ∃ k < n, a + k ∈ s.mem.hallBad) → traps .memoryError)

/-- R182: the same where every lane's tile has an uncorrectable error that no access has met: memory-error, and each such tile is a
poisoned one from then on. -/
def Sys2Proof.Machine.losesTile (i : Instr) (hu : HintUse) (g : BitVec 3) (us : List RegUse) (h : BitVec 1) (n : Nat) (w : Bool) (pre : Ctx → Prop)
    (ea : Thread → DWord) (done : State → State) : Prop :=
  ∀ s c l hd th p pa e, Issues s c hu g [] → pre c → Usable s c g us → guardLanes s c g = [l] → c.ld.handler = some hd → h = 0 →
    s.thread? c.fk l = some th → th.hmode = false → (ea th).toNat % n = 0 → reaches c (ea th) n w p pa → p.host = false →
    s.mem.resident? (tileOf pa) p.key = some e → e.uncorr = true →
    ∃ t, exec i s = .next (done t) ∧ EntersAt (nextPc c.pc) { s with mem := { s.mem with
        gallery := tmod s.mem.gallery (tileOf pa) (fun e => { e with uncorr := false }) } } t c [l] hd
      { cause := .memoryError, detail := 0, addr := ea th, write := w, fetch := false }

/-- R182: the checks that follow alignment, for every per-lane memory instruction. -/
def Sys2Proof.Machine.accessChecks : Prop := overAccesses checksFail ∧ overAccesses losesTile

/-- R105, R106, R182: the checks of an access: alignment (misalignedTrap), then bounds, leases, errors and poison
(accessChecks). -/
def Obligations.MisalignedAccess : Prop := misalignedTrap ∧ accessChecks

/-- R198, R199, R383: sc tests and writes in one step at the home: with a valid reservation on the granule the bytes are
written, the reservation goes and P becomes 1; without one nothing is written and P becomes 0, whatever clocks a write would have to
wait for (R202). What holds the group does so before
any lane takes effect (R238, R182). clrres gives a reservation up. -/
def Obligations.StoreConditional : Prop :=
  (∀ p ∈ [(Instr.scB32, 4), (Instr.scB64, 8)], ∀ P a b h g s c,
    let us := [baseUse h a, if p.2 = 8 then pair b else one b]
    Issues s c HintUse.none g [] → Usable s c g us →
    (∀ ls, guardLanes s c g = ls → ls ≠ [] →
      match (checkLanes us (checkAt h a 0 p.2 true) c ls s).hold c ls s with
      | some (s1, st) => exec (p.1 P a b h g) s = .next (conclude c s1 [(ls.headD 0, .hold st)]).tidied
      | none =>
        let r := ls.foldl (scLane c us h P a b p.2) (s, [])
        exec (p.1 P a b h g) s = .next (conclude c r.1 r.2).tidied) ∧
    (∀ l th k, guardLanes s c g = [l] → s.thread? c.fk l = some th → checkAt h a 0 p.2 true c s th = .ok k →
      (∀ x ∈ s.mem.accs, x.fk = c.fk → x.lane = l → s.mem.performed x = true) →
      (th.reserves k = true → s.mem.covers (c.ld.core / 48) c.fl.cover = true →
        (th.relFenced = true → k.space = .stack → carriedOk s.mem (homeDie k.addr) (s.mem.clockOf (c.ld.core / 48)) = true) →
        let V := fun (b : Bool) => if b then s.mem.clockOf (c.ld.core / 48) else [0, 0, 0, 0]
        let s1 := s.modThread c.fk l (fun t => { t.setPred P.toNat true with resv := none, lrsc := none, crossed := none })
        let r := (s1.applyAt k.space k.addr k.key 0 (bytesLE p.2 (operandOf th b p.2)) th.relFenced
          (V th.relFenced, V (th.relFenced && th.sysFenced))).1
        ∃ t accs n, exec (p.1 P a b h g) s = .next t ∧ Passes { r with mem := { r.mem with accs := accs, nextAcc := n } } t c) ∧
      (th.reserves k = false →
        ∃ t, exec (p.1 P a b h g) s = .next t ∧
          Passes (s.modThread c.fk l (fun t =>
            { t.setPred P.toNat false with resv := none, lrsc := none, crossed := none })).tidied t c))) ∧
  (∀ g, Effects (.clrres g) HintUse.none g [] [] (fun _ _ _ => True) (fun s c ls => ls.foldl (dropResv c.fk) s)) ∧
  (∀ s fk l th, l < 8 → s.thread? fk l = some th → (dropResv fk s l).thread? fk l = some { th with resv := none, lrsc := none })

/-- R201, R202: a fence takes its place in the thread's issue queue; of two accesses of a thread the whole earlier one is ordered before
the later exactly where they share a byte, the earlier is an acquire or the later a release (at more than thread scope), or a fence of the
releasing kind stands before a write; the read part of the earlier one where a fence of the acquiring kind stands between; an access may
go only when all that is ordered before it is performed. -/
def Obligations.FenceOrders : Prop :=
  (∀ k g, Effects (.fenceAcq k g) HintUse.none g [] [] (fun _ _ _ => True)
    (fun s c ls => (ls.foldl (enterFence c true false k.toNat) s).tidied)) ∧
  (∀ k g, Effects (.fenceRel k g) HintUse.none g [] [] (fun _ _ _ => True)
    (fun s c ls => (ls.foldl (enterFence c false true k.toNat) s).tidied)) ∧
  (∀ k g, Effects (.fenceAr k g) HintUse.none g [] [] (fun _ _ _ => True)
    (fun s c ls => (ls.foldl (enterFence c true true k.toNat) s).tidied)) ∧
  (∀ c acq rel k s l th, l < 8 → s.thread? c.fk l = some th →
    let t := enterFence c acq rel k s l
    (∃ a, t.mem = { s.mem with accs := s.mem.accs ++ [a], nextAcc := s.mem.nextAcc + 1 } ∧ a.kind = .fence ∧
      (a.fk, a.lane, a.acq, a.rel, a.scope) = (c.fk, l, acq, rel, k)) ∧
    t.thread? c.fk l = some { th with
      relFenced := th.relFenced || (rel && decide (6 ≤ k)), sysFenced := th.sysFenced || (rel && decide (7 ≤ k)) }) ∧
  (∀ (m : Memory) (y : Access) (pre : List Access), mayGo m (fun _ => false) y pre = true ↔
    ∀ (i : Nat) (x : Access), pre[i]? = some x → x.kind ≠ .fence →
      ((x.overlaps y = true ∨ (x.acq = true ∧ x.scope ≠ 0) ∨ (y.rel = true ∧ y.scope ≠ 0) ∨
        (y.writes = true ∧ ∃ (j : Nat) (f : Access), i < j ∧ pre[j]? = some f ∧ f.kind = .fence ∧ f.rel = true ∧ f.scope ≠ 0)) →
        m.performed x = true) ∧
      ((x.reads = true ∧ ∃ (j : Nat) (f : Access), i < j ∧ pre[j]? = some f ∧ f.kind = .fence ∧ f.acq = true ∧ f.scope ≠ 0) →
        m.readPerformed x = true)) ∧
  (∀ (m : Memory) (x : Access), m.performed x = true → m.readPerformed x = true) ∧
  (∀ (m : Memory) (x : Access) (fn : Nat), x.kind = .atomic fn → x.acq = false → (m.readPerformed x = true ↔ x.stage = .applied))

/-- R370, R371, R193, R183, R374: the steps of the memory machine on an access that is ready. BIND takes the view's bytes for a load,
the home's for lr, which sets its reservation; DRAIN sends a write; APPLY writes the stored value, or the atomic's new value of
the old, at the home, the overlapping bytes of one instruction in ascending lane order (R180); SEND copies a write to the other dies; MIRROR applies it to a mirror; LOAD_RETURN writes the
destination registers and raises the flags of a returning atomic, which one that returns nothing raises as it is applied (R194). The hall
keeps its other bytes, but for the flags and counters of a flight that lies in a phase record (R349). An acquire of host bytes at package scope
takes the clock that they hold for the package, one at system scope both (R372). A read of a tile that has been poisoned since takes a free value (log entry 95). An atomic on host memory leaves
with its bytes, besides its own clocks, those of the write that it reads. -/
def Obligations.MemoryMachine : Prop :=
  ∀ (s : State) (id : Nat) (y : Access), s.mem.access? id = some y →
    let pre := s.mem.earlier y.fk y.lane id
    let ready := y.stage = .issued ∧ s.mem.covers y.die y.cover = true ∧ mayGo s.mem (fun _ => false) y pre = true
    let pack := s.mem.hostClock y.addr y.size
    let sys := s.mem.sysClock y.addr y.size
    let zero := [0, 0, 0, 0]
    let seen := if y.space ≠ .host ∨ y.acq = false ∨ y.scope < 6 then zero else if y.scope = 6 then pack else joinClock pack sys
    (y.kind = .load → ready → forwardFrom pre y = none →
      exec (.bind id) s = .next ({ s with frees := s.freesAfter y, mem := s.mem.modAccess id (fun a => { a with
        stage := .bound
        value := some (s.readValue y (s.mem.view y.die y.space y.addr y.key y.size))
        seen := seen }) } : State).tidied) ∧
    (∀ x, y.kind = .load → y.stage = .issued → s.mem.covers y.die y.cover = true → forwardFrom pre y = some x →
      mayGo s.mem (fun z => z.writes && z.overlaps y && !z.reads && !(z.acq || y.rel)) y pre = true →
      exec (.bind id) s = .next ({ s with mem := s.mem.modAccess id (fun a => { a with
        stage := .bound
        value := some (partOf x y) }) } : State).tidied) ∧
    (y.kind = .lr → ready →
      exec (.bind id) s = .next (({ s with frees := s.freesAfter y, mem := s.mem.modAccess id (fun a => { a with
        stage := .bound
        value := some (s.readValue y (s.mem.atHome y.space y.addr y.key y.size)) }) } : State).modThread y.fk y.lane
        (fun t => { t with resv := some { space := y.space, key := y.key, granule := y.addr / 64 } })).tidied) ∧
    (y.writes = true → ready →
      exec (.drain id) s = .next ({ s with mem := s.mem.modAccess id (fun a => { a with
        stage := .drained
        clock := if y.causal then s.mem.clockOf y.die else [0, 0, 0, 0] }) } : State).tidied) ∧
    (y.stage = .drained →
      (∀ x ∈ s.mem.accs, x.fk = y.fk → x.cls = y.cls → x.cls ≠ none → x.id < y.id → x.overlaps y = true → x.stage = .applied) →
      (y.space = .stack → carriedOk s.mem (homeDie y.addr) y.clock = true) →
      let old := s.readValue y (s.mem.atHome y.space y.addr y.key y.size)
      let nv := match y.kind with
        | .atomic fn => atomicNew fn old y.data y.cmp
        | _ => (y.data, 0)
      let kept := if y.sys then y.clock else zero
      let left := match y.kind, y.space with
        | .atomic _, .host => (joinClock y.clock pack, joinClock kept sys)
        | _, _ => (y.clock, kept)
      let r := (s.applyAt y.space y.addr y.key y.prio (bytesLE y.size nv.1) y.causal left).1.mem
      let away := fun (b : Nat) => ∀ ld tr, tget s.landings (y.fk / 32) = some ld → tget s.treads ld.tid = some tr →
        tr.spilledOut ld = true → ¬ (ld.recordPlace + 0x80 + 64 * (y.fk % 32) ≤ b ∧ b < ld.recordPlace + 0x88 + 64 * (y.fk % 32))
      (y.dest = [] → nv.2 ≠ 0 → ∀ ld tr, tget s.landings (y.fk / 32) = some ld → tget s.treads ld.tid = some tr → tr.stage ≠ .retired) →
      ∃ t, exec (.apply id) s = .next t ∧ t.mem.stack = r.stack ∧ t.mem.gallery = r.gallery ∧ t.mem.host = r.host ∧
        t.mem.clocks = r.clocks ∧ t.mem.outbox = r.outbox ∧ t.mem.hostClocks = r.hostClocks ∧ t.mem.hostSys = r.hostSys ∧
        (y.cls.map (·.1) ≠ some .st → nv.2 = 0 ∨ y.dest ≠ [] → t.mem.hall = r.hall) ∧
        (∀ b, away b → readCell t.mem.hall b = readCell r.hall b) ∧
        (y.writes = true → y.dest ≠ [] → y.returned = false → ∃ z, t.mem.access? id = some z ∧ z.stage = .applied ∧
          z.value = some old ∧ z.seen = seen ∧ z.flags = nv.2) ∧
        (y.dest ≠ [] → y.cls.map (·.1) ≠ some .st → t.flights = s.flights)) ∧
    (∀ v, y.value = some v → y.dest ≠ [] → y.returned = false →
      ∃ t, exec (.loadReturn id) s = .next t ∧
        (∀ th, y.lane < 8 → s.thread? y.fk y.lane = some th →
          ∃ th', t.thread? y.fk y.lane = some th' ∧ th'.trans = (th.setMany y.dest (wordsOf v y.size y.signed)).trans ∧
            th'.regs = (th.setMany y.dest (wordsOf v y.size y.signed)).regs) ∧
        (∀ f ld tr, tget s.flights y.fk = some f → tget s.landings (y.fk / 32) = some ld → tget s.treads ld.tid = some tr →
          tr.spilledOut ld = false → tr.stage ≠ .retired → ∃ f', tget t.flights y.fk = some f' ∧ f'.fpflags = f.fpflags ||| y.flags)) ∧
    (∀ i w, s.mem.outbox[i]? = some w → exec (.send i) s = .next ({ s with mem := { s.mem with
        outbox := s.mem.outbox.eraseIdx i
        inbox := s.mem.inbox ++ (([0, 1, 2, 3].filter (fun d => d != w.home)).map (fun d => (d, w))) } } : State).tidied) ∧
    (∀ i d w, s.mem.inbox[i]? = some (d, w) → mirrorReady s.mem d w = true →
      let m : Memory := { s.mem with
        inbox := s.mem.inbox.eraseIdx i
        mirror := if w.wipe then s.mem.mirror.filter (fun c => !(c.1 / 2 ^ 48 == 1024 * d + w.key && homeDie (c.1 % 2 ^ 48) == w.home))
                  else writeCells s.mem.mirror (mirrorKey d w.key w.addr) w.bytes }
      exec (.mirror i) s = .next ({ s with mem := m.setClock d w.home (w.stamp.getD w.home 0) } : State).tidied) ∧
    (∀ bs, s.readValue y bs = if y.reads ∧ y.space = .stack ∧ s.mem.poisoned (tileOf y.addr) y.key = true
      then Config.lostValue s.frees % 2 ^ (8 * y.size) else ofBytesLE bs)

/-- R312, R370, R375, R376: applying bytes at a home makes them read there, and leaves every other byte: of the hall and the
host anywhere; of the stacks where the tile is resident, neither poisoned nor exhausted; and every byte of the two other memories, cells and
all. -/
def Obligations.AppliedBytes : Prop :=
  ∀ (s : State) (a key prio : Nat) (bs : List Byte) (causal : Bool),
    (∀ b, readCell (s.applyHall a bs).mem.hall b = if a ≤ b ∧ b < a + bs.length then bs.getD (b - a) 0 else readCell s.mem.hall b) ∧
    (s.applyHall a bs).mem.host = s.mem.host ∧ (∀ b k, (s.applyHall a bs).mem.homeByte b k = s.mem.homeByte b k) ∧
    (∀ b, readCell (s.applyHost a bs).mem.host b = if a ≤ b ∧ b < a + bs.length then bs.getD (b - a) 0 else readCell s.mem.host b) ∧
    (s.applyHost a bs).mem.hall = s.mem.hall ∧ (∀ b k, (s.applyHost a bs).mem.homeByte b k = s.mem.homeByte b k) ∧
    (s.applyGlobal a key prio bs causal).1.mem.hall = s.mem.hall ∧ (s.applyGlobal a key prio bs causal).1.mem.host = s.mem.host ∧
    (∀ e, s.mem.resident? (tileOf a) key = some e → e.poisoned = false → s.mem.exhausted (tileOf a) key = false → a < 2 ^ 48 → a % 4096 + bs.length ≤ 4096 →
      ∀ b k, b < 2 ^ 48 → (s.applyGlobal a key prio bs causal).1.mem.homeByte b k =
        if k = key ∧ a ≤ b ∧ b < a + bs.length then bs.getD (b - a) 0 else s.mem.homeByte b k) ∧
    (s.applyGlobal a key prio bs causal).2 = s.mem.clock (homeDie a) (homeDie a) + 1

/-! ## Waiting, barriers, reductions -/

/-- R214, R215, R377: wait and waitr pass when every class counter of the flight is at or below its threshold, the clocks of the
operations they cover then joining the flight's; otherwise they hold the whole group. The thresholds of waitr are the
least of each field over the lanes. -/
def Obligations.WaitCounters : Prop :=
  let passesOr := fun (i : Instr) (s : State) (c : Ctx) (T : Thresholds) =>
    (c.fl.cLd.value ≤ T.ld ∧ c.fl.cSt.value ≤ T.st ∧ c.fl.cCp.value ≤ T.cp ∧ c.fl.cMx.value ≤ T.mx →
      ∃ t, exec i s = .next t ∧ Passes (s.modFlight c.fk (fun f => f.coverOps T)) t c) ∧
    (¬ (c.fl.cLd.value ≤ T.ld ∧ c.fl.cSt.value ≤ T.st ∧ c.fl.cCp.value ≤ T.cp ∧ c.fl.cMx.value ≤ T.mx) →
      ∃ t, exec i s = .next t ∧ Holds s t c c.lanes .counters)
  (∀ l st k m s c, s.ctx? = some c → hintsOk c HintUse.none = true →
    passesOr (.wait l st k m) s c { ld := l.toNat, st := st.toNat, cp := k.toNat, mx := m.toNat }) ∧
  (∀ a s c, s.ctx? = some c → hintsOk c HintUse.none = true →
    (∀ l ∈ c.lanes, ∀ th, s.thread? c.fk l = some th → regTrap c.ld.regs th [one a] = none ∧ th.awaits [a.toNat] = false) →
    let least := fun (lo : Nat) => ((party s c c.lanes).map (fun p => bits (p.2.reg a.toNat).toNat lo 6)).foldl min 63
    passesOr (.waitr a) s c { ld := least 18, st := least 12, cp := least 6, mx := least 0 })

/-- A barrier with the arrivals of some lanes of the group. -/
def Sys2Proof.Machine.arrivedBy (s : State) (c : Ctx) (b : Barrier) (phase : Bool) (ls : List Nat) : Barrier :=
  { b with
    arrived := b.arrived ++ ls.map (fun l =>
      { thread := 256 * c.ld.number + 8 * (c.fk % 32) + l, upto := s.mem.nextAcc, clock := c.fl.cover, npc := nextPc c.pc })
    phase := b.phase || phase }

/-- R228–R231: bar.l, bar.s and bar.phase arrive and wait: where every live thread of the scope has arrived and the arrivals'
accesses are performed, the generation increments and the lanes go on; otherwise they are held with their arrivals made. Lanes, of any
flight, that had arrived in a generation that has completed since pass as they are tried again, and make no further arrival.
In a nest with phases a round that bar.phase has joined ends the phase. -/
def Sys2Proof.Machine.barrierRound : Prop :=
  (∀ s c g ls, Issues s c HintUse.none g [] → guardLanes s c g = ls → ls ≠ [] →
    ∀ x ∈ [(Instr.barL g, false, false), (Instr.barS g, true, false), (Instr.barPhase g, false, true)],
      let b := s.barrier c.lid c.ld.tid x.2.1
      let b' := arrivedBy s c b x.2.2 ls
      (∀ l ∈ ls, ∀ th, s.thread? c.fk l = some th → th.arrival x.2.1 ≠ some b.gen ∧ th.inBar x.2.1 = false) →
      (s.barComplete (s.barScope c.lid c.ld.tid x.2.1) b' = true → ¬ (b'.phase = true ∧ c.ld.phased = true) →
        ∃ t, exec x.1 s = .next t ∧
          t.barrier c.lid c.ld.tid x.2.1 = { gen := (b.gen + 1) % 2 ^ 32, arrived := [], phase := false } ∧
          ∀ l ∈ ls, ∀ th, s.thread? c.fk l = some th →
            t.thread? c.fk l = some (({ th with barNow := none } : Thread).setArrival x.2.1 none |>.after c)) ∧
      (s.barComplete (s.barScope c.lid c.ld.tid x.2.1) b' = true → b'.phase = true → c.ld.phased = true →
        ∃ t l', exec x.1 s = .next t ∧ tget t.landings c.lid = some l' ∧ l'.boundary = true ∧
          t.barrier c.lid c.ld.tid x.2.1 = { gen := (b.gen + 1) % 2 ^ 32, arrived := [], phase := false }) ∧
      (s.barComplete (s.barScope c.lid c.ld.tid x.2.1) b' = false →
        ∃ t, exec x.1 s = .next t ∧ t.barrier c.lid c.ld.tid x.2.1 = b' ∧
          ∀ l ∈ ls, ∀ th, s.thread? c.fk l = some th → t.thread? c.fk l = some { th.setArrival x.2.1 (some b.gen) with
            barNow := some (x.2.1, nextPc c.pc)
            held := some .barrier
            pc := c.start })) ∧
  (∀ s c g ls, Issues s c HintUse.none g [] → guardLanes s c g = ls → ls ≠ [] →
    ∀ x ∈ [(Instr.barL g, false), (Instr.barS g, true), (Instr.barPhase g, false)],
      let b := s.barrier c.lid c.ld.tid x.2
      s.barComplete (s.barScope c.lid c.ld.tid x.2) b = false →
      (∀ l ∈ ls, ∀ th, s.thread? c.fk l = some th → th.inBar x.2 = true ∧ th.arrival x.2 ≠ some b.gen) →
      ∃ t, exec x.1 s = .next t ∧ Keeps s t c 0 ∧
        Lanes s t c g (fun _ th => if x.2 then { th with arrS := none, barNow := none } else { th with arrL := none, barNow := none }))

/-- R228, R229: arrive makes the arrivals and goes on; await goes on where the generation of the arrival has completed, and holds
the lanes whose generation is still open. -/
def Sys2Proof.Machine.arriveAwait : Prop :=
  ∀ (s : State) c g ls (k : BitVec 1), Issues s c HintUse.none g [] → guardLanes s c g = ls → ls ≠ [] →
    let sp := k == 1
    let b := s.barrier c.lid c.ld.tid sp
    let b' := arrivedBy s c b false ls
    s.barComplete (s.barScope c.lid c.ld.tid sp) b = false →
    ((∀ l ∈ ls, ∀ th, s.thread? c.fk l = some th → th.arrival sp ≠ some b.gen) →
      (¬ (b.phase = true ∧ c.ld.phased = true) →
        ∃ t, exec (.arrive k g) s = .next t ∧
          t.barrier c.lid c.ld.tid sp = (if s.barComplete (s.barScope c.lid c.ld.tid sp) b' then
            { gen := (b.gen + 1) % 2 ^ 32, arrived := [], phase := false } else b') ∧
          ∀ l ∈ ls, ∀ th, s.thread? c.fk l = some th → t.thread? c.fk l = some ((th.setArrival sp (some b.gen)).after c)) ∧
      ∃ t, exec (.await k g) s = .next t ∧ Keeps s t c 0 ∧ Lanes s t c g (fun _ th => th.leaveBar sp)) ∧
    ((∀ l ∈ ls, ∀ th, s.thread? c.fk l = some th → th.arrival sp = some b.gen) →
      ∃ t, exec (.await k g) s = .next t ∧ Holds s t c ls .barrier)

/-- R228–R231: barriers (barrierRound), arrive and await (arriveAwait). -/
def Obligations.Barriers : Prop := barrierRound ∧ arriveAwait

/-- The sum of two FP32 values with their flags, rounded to nearest even (R82). -/
def Sys2Proof.Machine.addRne (x y : Word × FFlags) : Word × FFlags :=
  let r := fAdd fp32 .rne (un x.1) (un y.1)
  (BitVec.ofNat 32 r.1, x.2 ||| y.2 ||| r.2)

/-- R83: at level `k` of the tree over `n` flights, the value of the `i`-th place, which stands for the flights from i·2^k on: the sum of
the two places below it, or, where only the first of them has a flight, that one passed up. -/
def Sys2Proof.Machine.levelValue (n : Nat) (flight : Nat → Word × FFlags) : Nat → Nat → Word × FFlags
  | 0, i => flight i
  | k + 1, i => if n ≤ (2 * i + 1) * 2 ^ k then levelValue n flight k (2 * i)
      else addRne (levelValue n flight k (2 * i)) (levelValue n flight k (2 * i + 1))

/-- R233–R236: redz adds the contributions of the group to the open round of a reduction register: the value of a guard-true thread,
the identity of a guard-false one. When every live thread of the landing has contributed, the register takes the combined
value, its number increments and the round closes; add.f32 sums each flight by the tree of R82 and the flights by that of R83, −0 for who
made no contribution. rdz reads the value where the number has passed the one in a, and P says whether it differs; where it has not, the lane
is held. -/
def Obligations.ReductionRound : Prop :=
  (∀ (h : BitVec 2) a (o g : BitVec 3) s c, s.ctx? = some c → hintsOk c HintUse.none = true →
    awaitsPred s c.fk [g.toNat] c.lanes = false →
    (∀ l ∈ guardLanes s c g, ∀ th, s.thread? c.fk l = some th →
      regTrap c.ld.regs th [one a] = none ∧ th.awaits [a.toNat] = false) →
    let r := c.ld.reduction h.toNat
    let op := r.op.getD o.toNat
    (guardLanes s c g = [] ∨ op = o.toNat) → (∀ x ∈ r.contr, ∀ l ∈ c.lanes, x.thread ≠ 8 * (c.fk % 32) + l) →
    let more : List Contribution := (party s c c.lanes).map (fun p =>
      { thread := 8 * (c.fk % 32) + p.1
        value := if p.2.pred g.toNat then p.2.reg a.toNat else redIdentity op
        guarded := p.2.pred g.toNat })
    ∃ t, exec (.redz h a o g) s = .next t ∧
      Passes ((s.modRed c.lid h.toNat (fun r => { r with op := some op, contr := r.contr ++ more })).tryRed c.lid h.toNat) t c) ∧
  (∀ (s : State) (lid h op : Nat) (ld : Landing), tget s.landings lid = some ld → (ld.reduction h).op = some op →
    (∀ i ∈ s.liveThreads lid, ∃ x ∈ (ld.reduction h).contr, x.thread = i) →
    ∃ l', tget (s.tryRed lid h).landings lid = some l' ∧
      l'.reduction h = { value := (roundResult ld.flights op (ld.reduction h)).1, seq := (ld.reduction h).seq + 1, op := none, contr := [] }) ∧
  (∀ n op r, op ≠ 1 → roundResult n op r =
    (((List.range (8 * n)).map (contribution r op)).foldl (redCombine op) (redIdentity op), 0)) ∧
  (∀ d a p (h : BitVec 2) g s c, Issues s c HintUse.none g [] → Usable s c g [one d, one a] →
    let r := c.ld.reduction h.toNat
    (∀ l ∈ guardLanes s c g, ∀ th, s.thread? c.fk l = some th → (r.seq - (th.reg a.toNat).truncate 16).toNat < 32768) →
    (∃ t, exec (.rdz d a p h g) s = .next t ∧ Keeps s t c 0 ∧ Lanes s t c g (fun _ th =>
      (th.setReg d.toNat r.value).setPred p.toNat (r.seq != (th.reg a.toNat).truncate 16)))) ∧
  (∀ d a p (h : BitVec 2) g s c ls, Issues s c HintUse.none g [] → Usable s c g [one d, one a] → guardLanes s c g = ls → ls ≠ [] →
    (∀ l ∈ ls, ∀ th, s.thread? c.fk l = some th → 32768 ≤ ((c.ld.reduction h.toNat).seq - (th.reg a.toNat).truncate 16).toNat) →
    ∃ t, exec (.rdz d a p h g) s = .next t ∧ Holds s t c ls .reduction) ∧
  (∀ n r, 1 ≤ n → n ≤ 32 →
    let v := fun (i : Nat) => (((r.contr.find? (fun x => x.thread == i)).map (·.value)).getD 0x80000000, (0 : FFlags))
    let flight := fun (f : Nat) => addRne
      (addRne (addRne (v (8 * f)) (v (8 * f + 1))) (addRne (v (8 * f + 2)) (v (8 * f + 3))))
      (addRne (addRne (v (8 * f + 4)) (v (8 * f + 5))) (addRne (v (8 * f + 6)) (v (8 * f + 7))))
    roundResult n 1 r = levelValue n flight 5 0)

/-! ## Queues -/

/-- The queue instructions, but coll.send and coll.red, whose queue register is unbound trap with its number (R219), with the registers that they name, whose
checks come first (R105). -/
noncomputable def Sys2Proof.Machine.unboundOps : List ((BitVec 6 → BitVec 4 → BitVec 3 → BitVec 1 → BitVec 3 → Instr) × (BitVec 6 → RegUse)) :=
  [(.qpush, one), (.qpop, one), (.hpost, quad), (.hqtake, quad), (.ingClaim, quad), (.collRecv, quad)]

/-- R218–R224: qpush posts the marker of the lanes of G to an endpoint with room, qpop takes its oldest entry, each lane its slot;
the non-blocking forms write P; a blocking form that cannot go on is held, a pop with its registers leased until it is
served. qbind binds or reports, qstat reports, qflush unbinds. That the endpoints of copies never report status 3 is the model's
choice (log entry 66). An unbound queue register traps in every lane of G after the register checks, and, on coll.send and coll.red, after a
length or an op that R460 makes an illegal instruction, which R105 ranks before it. -/
def Obligations.QueueInstructions : Prop :=
  (∀ v (q : BitVec 4) p n g s c ls cls b, Issues s c HintUse.none g [] → Usable s c g [one v] → guardLanes s c g = ls → ls ≠ [] →
    s.binding c.fl q.toNat = some (cls, b) → qopClass cls = true →
    ((c.fl.endpoint cls).space ≠ 0 →
      ∃ t, exec (.qpush v q p n g) s = .next t ∧
        Passes (setPreds c.fk (nbPred p n) true ls (s.postEntry c.fk cls c.ld.spell false (marker v.toNat (party s c ls)))) t c) ∧
    ((c.fl.endpoint cls).space = 0 → n = 1 →
      ∃ t, exec (.qpush v q p n g) s = .next t ∧ Passes (setPreds c.fk (some p.toNat) false ls s) t c) ∧
    ((c.fl.endpoint cls).space = 0 → n = 0 →
      ∃ t, exec (.qpush v q p n g) s = .next t ∧ Holds s t c c.lanes .queue) ∧
    ((c.fl.qreg q.toNat).pend = none →
      (∀ e es, (c.fl.endpoint cls).entries = e :: es →
        ∃ t, exec (.qpop v q p n g) s = .next t ∧
          Passes (setPreds c.fk (nbPred p n) true ls (ls.foldl (fun s l => s.modThread c.fk l (Thread.takeSlot e v.toNat l))
            (s.modEnd c.fk cls (fun x => { x with entries := es })))) t c) ∧
      ((c.fl.endpoint cls).entries = [] → n = 1 →
        ∃ t, exec (.qpop v q p n g) s = .next t ∧ Passes (setPreds c.fk (some p.toNat) false ls s) t c) ∧
      ((c.fl.endpoint cls).entries = [] → n = 0 →
        ∃ t, exec (.qpop v q p n g) s = .next t ∧
          Holds ((recordPop c q.toNat .entry v.toNat 1 ls s).modEnd c.fk cls (fun e => { e with waiters := e.waiters ++ [q.toNat] }))
            t c c.lanes .queue))) ∧
  (∀ i ∈ unboundOps, ∀ v (q : BitVec 4) p n g, Traps (i.1 v q p n g) HintUse.none g
    (fun s c ls => s.binding c.fl q.toNat = none ∧
      ∀ l ∈ ls, ∀ th, s.thread? c.fk l = some th → regTrap c.ld.regs th [i.2 v] = none)
    (fun _ => trap .queueUnbound q.toNat)) ∧
  (∀ v (q : BitVec 4) p n g, ∀ x ∈ [(Instr.collSend v q p n g, 16, 8), (Instr.collRed v q g, 4, 4)],
    let pre := fun (s : State) (c : Ctx) (ls : List Nat) => s.binding c.fl q.toNat = none ∧ ∀ th, s.thread? c.fk (ls.headD 0) = some th →
      regTrap c.ld.regs th [quad v] = none ∧ th.awaits (allRegs [quad v]) = false
    let legal := fun (s : State) (c : Ctx) (ls : List Nat) => ∀ th, s.thread? c.fk (ls.headD 0) = some th →
      let w := un (th.reg (v.toNat + 3))
      bits w 0 24 % x.2.1 = 0 ∧ bits w 28 3 < x.2.2
    Traps x.1 HintUse.none g (fun s c ls => pre s c ls ∧ legal s c ls) (fun _ => trap .queueUnbound q.toNat) ∧
    Traps x.1 HintUse.none g (fun s c ls => ls.length = 1 ∧ pre s c ls ∧ ¬ legal s c ls) (fun _ => trap .illegal 0)) ∧
  (∀ v (q k : BitVec 4) g, Leads (.qbind v q k g) HintUse.none g [one v] (fun _ _ _ _ => True) (fun s c _ th =>
    match bindTarget (s.unbindQ c.fk q.toNat) c k.toNat (th.reg v.toNat) with
    | .ok b => (s.unbindQ c.fk q.toNat).modQ c.fk q.toNat (fun r =>
        { r with bound := some b, made := (s.unbindQ c.fk q.toNat).madeOf b, status := 0, credit := 0 })
    | .error e => (s.unbindQ c.fk q.toNat).modQ c.fk q.toNat (fun r => { r with status := e }))) ∧
  (∀ v (q : BitVec 4) g s c, Issues s c HintUse.none g [] → Usable s c g [one v] →
    ∃ t, exec (.qstat v q g) s = .next t ∧ Keeps s t c 0 ∧ Lanes s t c g (fun _ th => th.setReg v.toNat (qstatWord s c q.toNat))) ∧
  (∀ (q : BitVec 4) g, Effects (.qflush q g) HintUse.none g [] [] (fun _ _ _ => True) (fun s c _ => s.unbindQ c.fk q.toNat))

/-- R296–R301: hst creates a queue in hall memory, or reports that it may not, or deletes one; hpost spends a credit an entry and
posts its entries, as one ST operation; hqtake takes the oldest entries, or waits for them with its registers leased; hqfree returns credits; hqstat reports.
That an hst of capacity 0 succeeds is read into the rules (log entry 14). -/
def Obligations.HallQueueInstructions : Prop :=
  (∀ v (q : BitVec 4) g, Leads (.hst v q g) HintUse.none g [pair v]
    (fun s c _ th => let k := bits (th.reg (v.toNat + 1)).toNat 0 4
      k = 0 ∨ ((th.reg v.toNat).toNat % 16 = 0 ∧ oneSlice (s.coresOf c.tr.part) c.ld.core (th.reg v.toNat).toNat (16 * 2 ^ k) = true))
    (fun s c _ th =>
      let cfg := (th.reg (v.toNat + 1)).toNat
      let k := bits cfg 0 4
      let base := hallKey c.ld.core (th.reg v.toNat).toNat
      let s1 := s.unbindQ c.fk q.toNat
      if k = 0 then
        (if oneSlice (s.coresOf c.tr.part) c.ld.core (th.reg v.toNat).toNat 1 then s1.deleteHq base else s1).modQ c.fk q.toNat
          (fun r => { r with status := 0 })
      else if k < 4 ∨ 12 < k ∨ bits cfg 16 16 ≠ 0 ∨ bits cfg 4 4 ≠ 0 ∨ hqClash s1 base (16 * 2 ^ k) = true then
        s1.modQ c.fk q.toNat (fun r => { r with status := 1 })
      else
        let new : HallQueue :=
          { made := s1.nextQueue, owner := c.ld.tid, cap := k, batch := if bits cfg 8 8 = 0 then 16 else bits cfg 8 8, pool := 2 ^ k, unret := 0
            head := 0, tail := 0, reqs := [], takers := [] }
        ({ s1 with hqueues := tput s1.hqueues base new, nextQueue := s1.nextQueue + 1 } : State).modQ c.fk q.toNat
          (fun r => { r with bound := some (8, base), made := s1.nextQueue, status := 0, credit := 0 }))) ∧
  (∀ v (q : BitVec 4) p n g s c ls b h, Issues s c HintUse.none g [] → Usable s c g [quad v] → guardLanes s c g = ls → ls ≠ [] →
    s.binding c.fl q.toNat = some (8, b) → tget s.hqueues b = some h →
    let credit := (c.fl.qreg q.toNat).credit
    let post : HallPost :=
      { who := c.issuer (ls.headD 0), q := q.toNat, base := b, made := h.made, clock := c.fl.cover, entries := (party s c ls).map (fun x => x.2.regList v.toNat 4)
        op := c.fl.cSt.issued, lanes := ls, upto := s.mem.nextAcc }
    (ls.length ≤ credit → c.fl.full .st = false →
      ∃ t, exec (.hpost v q p n g) s = .next t ∧
        Passes (setPreds c.fk (nbPred p n) true ls
          { ((s.modQ c.fk q.toNat (fun x => { x with credit := x.credit - ls.length })).joinOp c.fk .st) with
            posts := s.posts ++ [post] }) t c) ∧
    (credit < ls.length → n = 1 →
      ∃ t, exec (.hpost v q p n g) s = .next t ∧
        Passes (setPreds c.fk (some p.toNat) false ls (askCredit s c.fk q.toNat b (ls.length - credit))) t c) ∧
    (credit < ls.length → n = 0 →
      ∃ t, exec (.hpost v q p n g) s = .next t ∧ Holds (askCredit s c.fk q.toNat b (ls.length - credit)) t c c.lanes .hallQueue) ∧
    ((c.fl.qreg q.toNat).pend = none →
      (ls.length ≤ h.held →
        ∃ t, exec (.hqtake v q p n g) s = .next t ∧
          Passes (setPreds c.fk (nbPred p n) true ls
            ((ls.zipIdx.foldl (fun s x => s.modThread c.fk x.1 (fun t =>
                t.setRegs v.toNat (entryWords s.mem.hall (h.slot b (h.head + x.2))))) s).modHq b
              (fun h => ({ h with head := h.head + ls.length, unret := h.unret + ls.length } : HallQueue).autoFree))) t c) ∧
      (h.held < ls.length → n = 1 →
        ∃ t, exec (.hqtake v q p n g) s = .next t ∧ Passes (setPreds c.fk (some p.toNat) false ls s) t c) ∧
      (h.held < ls.length → n = 0 →
        ∃ t, exec (.hqtake v q p n g) s = .next t ∧ Holds ((recordPop c q.toNat .take v.toNat 4 ls s).modHq b
          (fun h => { h with takers := h.takers ++ [(c.fk, q.toNat)] })) t c c.lanes .hallQueue)) ∧
    (∃ t, exec (.hqstat v q g) s = .next t ∧ Keeps s t c 0 ∧ Lanes s t c g (fun _ th =>
      (th.setReg v.toNat (BitVec.ofNat 32 (h.held * 65536 + h.pool))).setReg (v.toNat + 1)
        (BitVec.ofNat 32 (h.unret * 65536 + min credit 255 * 256 + h.cap))))) ∧
  (∀ v (q : BitVec 4) g b, Leads (.hqfree v q g) HintUse.none g [one v]
    (fun s c _ _ => s.binding c.fl q.toNat = some (8, b) ∧ (tget s.hqueues b).isSome)
    (fun s _ _ th => s.modHq b (fun h =>
      { h with
        unret := h.unret - min (th.reg v.toNat).toNat h.unret
        pool := h.pool + min (th.reg v.toNat).toNat h.unret })))

/-! ## Convergence and matrix instructions (11_matrix.md) -/

/-- R225–R227: cset declares a register's set, or leaves an equal one, or traps while a round is open; a set that is not aligned is an
illegal instruction; csign signs for every lane as abstaining and tries the round; cchk reports. -/
def Obligations.ConvergenceRegisters : Prop :=
  (∀ (cr : BitVec 3) (f : BitVec 5) (z : BitVec 2) g, f.toNat % 2 ^ z.toNat = 0 →
    Effects (.cset cr f z g) HintUse.none g [] []
      (fun _ c _ => (c.ld.convOf cr.toNat).decl ≠ some (f.toNat, z.toNat) ∧ (c.ld.convOf cr.toNat).signs = [])
      (fun s c _ => (s.modConv c.lid cr.toNat (fun v => { v with decl := some (f.toNat, z.toNat) })).dropLatch c.ld.core c.lid cr.toNat) ∧
    Effects (.cset cr f z g) HintUse.none g [] [] (fun _ c _ => (c.ld.convOf cr.toNat).decl = some (f.toNat, z.toNat))
      (fun s _ _ => s) ∧
    Traps (.cset cr f z g) HintUse.none g
      (fun _ c _ => (c.ld.convOf cr.toNat).decl ≠ some (f.toNat, z.toNat) ∧ (c.ld.convOf cr.toNat).signs ≠ [])
      (fun _ => trap .uniformity cr.toNat)) ∧
  (∀ (cr : BitVec 3) (f : BitVec 5) (z : BitVec 2) g s c hd, f.toNat % 2 ^ z.toNat ≠ 0 → s.ctx? = some c → c.ld.handler = some hd →
    (∀ l ∈ c.lanes, ∀ th, s.thread? c.fk l = some th → th.hmode = false) →
    ∃ t, exec (.cset cr f z g) s = .next t ∧ Enters s t c c.lanes hd (trap .illegal 0)) ∧
  (∀ (cr g : BitVec 3) s c, s.ctx? = some c → hintsOk c HintUse.none = true → awaitsPred s c.fk [g.toNat] c.lanes = false →
    (c.ld.convOf cr.toNat).decl.isSome →
    (∀ l ∈ c.lanes, (c.ld.convOf cr.toNat).signedBy (8 * (c.fk % 32) + l) = false) →
    ∃ t, exec (.csign cr g) s = .next t ∧ Passes ((s.modConv c.lid cr.toNat (fun v => { v with
      signs := v.signs ++ c.lanes.map (fun l => abstain (8 * (c.fk % 32) + l) c.start (nextPc c.pc)) })).tryRound c.lid cr.toNat) t c) ∧
  (∀ d (cr g : BitVec 3) s c, Issues s c HintUse.none g [] → Usable s c g [one d] →
    ∃ t, exec (.cchk d cr g) s = .next t ∧ Keeps s t c 0 ∧
      Lanes s t c g (fun _ th => th.setReg d.toNat (cchkWord s c.lid c.ld (c.ld.convOf cr.toNat))))

/-- The matrix instructions, by their function. -/
noncomputable def Sys2Proof.Machine.mmaOps : List ((BitVec 7 → BitVec 2 → BitVec 4 → BitVec 3 → BitVec 1 → BitVec 3 → Instr) × Nat) :=
  [(.mma, 0), (.mmaBs, 1), (.mmaZ, 2)]

/-- R243–R246: a matrix instruction signs the open round for every lane of the group, the lanes outside G as abstaining, and the round is
tried: its own lanes are held while it stands open, and stand where the decision has put them once it has closed. -/
def Sys2Proof.Machine.matrixSigns : Prop :=
  ∀ x ∈ mmaOps, ∀ tile (a : BitVec 2) (k : BitVec 4) (cr : BitVec 3) (r : BitVec 1) g s c ls (sig : Nat → Signature),
    let w : MmaWord := { tile := tile.toNat, abase := 16 * a.toNat, kreg := k.toNat, c := cr.toNat, reuse := r == 1, fn := x.2 }
    s.ctx? = some c → hintsOk c HintUse.none = true → awaitsPred s c.fk [g.toNat] c.lanes = false →
    guardLanes s c g = ls → anyAwaits s c.fk (mmaRegs w) ls = false →
    (c.ld.convOf cr.toNat).decl.isSome →
    (∀ l ∈ c.lanes, (c.ld.convOf cr.toNat).signedBy (8 * (c.fk % 32) + l) = false) →
    (∀ l ∈ c.lanes, ∀ th, s.thread? c.fk l = some th →
      if l ∈ ls then mmaSign w c s c.ld l th = .ok (sig l) else sig l = abstain (8 * (c.fk % 32) + l) c.start (nextPc c.pc)) →
    let s1 := (s.modConv c.lid cr.toNat (fun v => { v with signs := v.signs ++ c.lanes.map sig })).tryRound c.lid cr.toNat
    (∀ ld1, tget s1.landings c.lid = some ld1 → (ld1.convOf cr.toNat).signs ≠ [] →
      (ld1.convOf cr.toNat).signs = (c.ld.convOf cr.toNat).signs ++ c.lanes.map sig →
      ∃ t, exec (x.1 tile a k cr r g) s = .next t ∧ Holds s1 t c ls .signature) ∧
    (∀ ld1, tget s1.landings c.lid = some ld1 → (ld1.convOf cr.toNat).signs = [] →
      ∃ t, exec (x.1 tile a k cr r g) s = .next t ∧ t = { s1 with threads := t.threads, flights := t.flights } ∧
        (∀ l ∈ ls, t.thread? c.fk l = s1.thread? c.fk l) ∧
        ∀ l ∈ c.lanes, l ∉ ls → ∀ th, s1.thread? c.fk l = some th → t.thread? c.fk l = some (th.after c))

/-- R227, R246, R251: what lets the open round of register `cr` issue its operation: every thread of the declared set counts as signed;
`p` is the first of the signers `S` that neither abstain nor have exited, and they have signed alike; their record passes, being `t`;
no flight of theirs has its MX class full. -/
structure Sys2Proof.Machine.RoundGoes (s : State) (lid cr : Nat) (ld : Landing) (tr : Tread) (S : List Signature) (p : Signature) (t : Tensor) : Prop where
  landing : tget s.landings lid = some ld
  tread   : tget s.treads ld.tid = some tr
  all     : ∃ d, (ld.convOf cr).decl = some d ∧ (ld.convOf cr).left s lid ld d = 0
  signers : S = (ld.convOf cr).signs.filter (fun q => !q.abst &&
    (s.thread? (32 * lid + q.thread / 8) (q.thread % 8)).any (fun th => th.cond != .exited))
  first   : S.head? = some p
  alike   : ∀ q ∈ S, q.fmt = p.fmt ∧ q.tile = p.tile ∧ q.abase = p.abase ∧ q.kreg = p.kreg ∧ q.fn = p.fn ∧ q.reuse = p.reuse ∧
    q.handle = p.handle ∧ q.index = p.index
  record  : ∃ k, shapeK p.fmt p.fn = some k ∧ recordCheck s ld.core (s.coresOf tr.part) p.fmt k p.handle p.index = some t
  room    : ∀ q ∈ S, ∀ f, tget s.flights (32 * lid + q.thread / 8) = some f → f.full .mx = false

/-- R246, R244: what a round that issues leaves: one operation more in the queue of the core's engine, with the rows, scales, record and
tile of its signers and the number that each flight of theirs gives it; each of those flights has joined MX once; every signer goes on
at the word after its `mma`; the round is closed, one generation on; the latch of the register is gone, or holds the rows used; nothing
else has changed. The scale of a row that was latched without one, and the registers that a row latched at half of them lacks, are free
values (log entry 84). -/
structure Sys2Proof.Machine.RoundIssued (s s' : State) (lid cr : Nat) (ld : Landing) (S : List Signature) (p : Signature) (t : Tensor) : Prop where
  op      : ∃ (op : MxOp) (low : Signature), tgetD [] s'.mxq ld.core = tgetD [] s.mxq ld.core ++ [op] ∧
    op.kind = .mma p.fn ∧ op.tile = p.tile ∧ op.word = p.fmt ∧ op.tensor = some t ∧ op.index = p.index.toNat ∧
    (∃ k, shapeK p.fmt p.fn = some k ∧
      let full := (S.filterMap (·.arow)).map (ARow.filled s.frees (rowRegs p.fmt k))
      op.rows = (if fwBs p.fmt then scaledRows s.frees full else full)) ∧
    op.ops = (S.map (fun q => 32 * lid + q.thread / 8)).eraseDups.map (fun fk => (fk, (tget s.flights fk).elim 0 (·.cMx.issued))) ∧
    low ∈ S ∧ (∀ q ∈ S, low.thread ≤ q.thread) ∧ (∀ d, (ld.convOf cr).decl = some d → op.dest = d.1) ∧
    op.who = { tid := ld.tid, spell := ld.spell, core := ld.core, fk := 32 * lid + low.thread / 8, lane := low.thread % 8, pc := low.pc }
  queues  : ∀ k, k ≠ ld.core → tgetD [] s'.mxq k = tgetD [] s.mxq k
  flights : ∀ fk f, tget s.flights fk = some f → tget s'.flights fk = some
    (if fk ∈ S.map (fun q => 32 * lid + q.thread / 8) then { f with cMx := f.cMx.join } else f)
  signers : ∀ q ∈ S, (S.filter (fun r => r.thread == q.thread)).length = 1 →
    ∀ th, s.thread? (32 * lid + q.thread / 8) (q.thread % 8) = some th →
      s'.thread? (32 * lid + q.thread / 8) (q.thread % 8) = some { th.tick with pc := q.npc, held := none }
  threads : ∀ k, (∀ q ∈ S, k ≠ 256 * lid + q.thread) → tget s'.threads k = tget s.threads k
  round   : ∃ ld', tget s'.landings lid = some ld' ∧ (ld'.convOf cr).signs = [] ∧ (ld'.convOf cr).decl = (ld.convOf cr).decl ∧
    (ld'.convOf cr).gen = ((ld.convOf cr).gen + 1) % 256 ∧ (∀ k, k ≠ cr → ld'.convOf k = ld.convOf k) ∧
    ld' = { ld with conv := ld'.conv, tiles := if ld.tiles.contains p.tile then ld.tiles else ld.tiles ++ [p.tile] }
  latch   : (p.reuse = false → s'.latchOf ld.core lid cr = none) ∧
    (p.reuse = true → ∃ x, s'.latchOf ld.core lid cr = some x ∧ x.abase = p.abase ∧ x.afmt = fwA p.fmt ∧
      ∀ r, r ∈ x.rows ↔ r ∈ p.heldRows ∨ (r ∈ S.filterMap (·.arow) ∧ ∀ y ∈ p.heldRows, y.row ≠ r.row))
  rest    : s' = { s with threads := s'.threads, flights := s'.flights, landings := s'.landings, mxq := s'.mxq, latches := s'.latches
                          frees := s'.frees }

/-- The signers of a round leave the hint groups in which their flights, other than the one that issues, were trying them again
(R48). -/
def Sys2Proof.Machine.unhinted (lid : Nat) (S : List Signature) (s : State) : State :=
  S.foldl (fun s q => s.leaveHints (32 * lid + q.thread / 8) [q.thread % 8]) s

/-- R227, R244–R246, R251: a round whose threads all count as signed and have signed alike, with a record that passes and room in the MX
class, issues its operation, the hints of a signer that was trying its instruction again ending with it; and a matrix instruction that brings the last signatures to such a round completes: the operation is
accepted, and every thread of G stands at the next word. -/
def Sys2Proof.Machine.matrixAccepted : Prop :=
  (∀ (s : State) lid cr ld tr S p t, RoundGoes s lid cr ld tr S p t →
    RoundIssued (unhinted lid S s) (s.tryRound lid cr) lid cr ld S p t) ∧
  ∀ x ∈ mmaOps, ∀ tile (a : BitVec 2) (k : BitVec 4) (cr : BitVec 3) (r : BitVec 1) g s c ls (sig : Nat → Signature) ld S p t,
    let w : MmaWord := { tile := tile.toNat, abase := 16 * a.toNat, kreg := k.toNat, c := cr.toNat, reuse := r == 1, fn := x.2 }
    s.ctx? = some c → hintsOk c HintUse.none = true → awaitsPred s c.fk [g.toNat] c.lanes = false →
    guardLanes s c g = ls → ls ≠ [] → anyAwaits s c.fk (mmaRegs w) ls = false →
    (c.ld.convOf cr.toNat).decl.isSome →
    (∀ l ∈ c.lanes, (c.ld.convOf cr.toNat).signedBy (8 * (c.fk % 32) + l) = false) →
    (∀ l ∈ c.lanes, ∀ th, s.thread? c.fk l = some th →
      if l ∈ ls then mmaSign w c s c.ld l th = .ok (sig l) else sig l = abstain (8 * (c.fk % 32) + l) c.start (nextPc c.pc)) →
    let signed := s.modConv c.lid cr.toNat (fun v => { v with signs := v.signs ++ c.lanes.map sig })
    RoundGoes signed c.lid cr.toNat ld c.tr S p t →
    ∃ u s', exec (x.1 tile a k cr r g) s = .next u ∧ RoundIssued (unhinted c.lid S signed) s' c.lid cr.toNat ld S p t ∧
      u = { s' with threads := u.threads, flights := u.flights } ∧
      (∀ l ∈ ls, ∀ th, s.thread? c.fk l = some th →
        u.thread? c.fk l = some { th.tick with pc := nextPc c.pc, held := none }) ∧
      (∀ l ∈ c.lanes, l ∉ ls → ∀ th, s.thread? c.fk l = some th → u.thread? c.fk l = some (th.after c)) ∧
      (∀ k, (∀ l ∈ c.lanes, k ≠ tkey c.fk l) → tget u.threads k = tget s'.threads k) ∧
      (∀ fk, fk ≠ c.fk → tget u.flights fk = tget s'.flights fk) ∧
      ∀ f, tget s'.flights c.fk = some f → ∃ f', tget u.flights c.fk = some f' ∧ slotted f f' 0

/-- R227, R243–R246, R251: a matrix instruction signs (matrixSigns); a complete round that agrees is accepted (matrixAccepted). -/
def Obligations.MatrixInstructions : Prop := matrixSigns ∧ matrixAccepted

/-- R257, R263: what accepting an accumulator operation leaves: one operation more, the newest, in the queue of the core's engine; one MX
operation more of the flight; a tile that acc.zero or acc.ld writes is one of the landing's; nothing else changes. -/
def Sys2Proof.Machine.accAccepted : Prop :=
  ∀ (c : Ctx) (op : MxOp) (s : State),
    let t := acceptAcc c op s
    tgetD [] t.mxq c.ld.core = tgetD [] s.mxq c.ld.core ++ [op] ∧ (∀ k, k ≠ c.ld.core → tgetD [] t.mxq k = tgetD [] s.mxq k) ∧
    (∀ f, tget s.flights c.fk = some f → tget t.flights c.fk = some { f with cMx := { f.cMx with issued := f.cMx.issued + 1 } }) ∧
    (∀ k, k ≠ c.fk → tget t.flights k = tget s.flights k) ∧
    (∀ ld, tget s.landings c.lid = some ld → tget t.landings c.lid = some
      (if (op.kind = .zero ∨ op.kind = .ld) ∧ op.tile ∉ ld.tiles then { ld with tiles := ld.tiles ++ [op.tile] } else ld)) ∧
    (∀ k, k ≠ c.lid → tget t.landings k = tget s.landings k) ∧
    t = { s with mxq := t.mxq, flights := t.flights, landings := t.landings } ∧
    ∀ kind lane tile, accOp c kind lane tile = {
      kind := kind, who := { tid := c.ld.tid, spell := c.ld.spell, core := c.ld.core, fk := c.fk, lane := lane, pc := c.start }
      ops := [(c.fk, c.fl.cMx.issued)], tile := tile, word := 0, rows := [], tensor := none, index := 0, addr := 0, bias := 0, scale := 0
      dest := 0, sels := [] }

/-- R262–R264: the accumulator instructions are accepted with their operands checked: one MX operation a flight from the lowest lane of G;
acc.rd one for the lanes of G, whose sixteen registers are leased to it. -/
def Sys2Proof.Machine.accumulatorMembers : Prop :=
  (∀ (tile : BitVec 7) g, Leads (.accZero tile g) HintUse.none g [] (fun _ c _ _ => c.fl.full .mx = false)
    (fun s c ls _ => acceptAcc c (accOp c .zero (ls.headD 0) tile.toNat) s)) ∧
  (∀ (tile : BitVec 7) a g, Leads (.accLd tile a g) HintUse.none g [one a] (fun s c _ th => c.fl.full .mx = false ∧
      areaCheck c (s.coresOf c.tr.part) (th.reg a.toNat) 32768 false = none)
    (fun s c ls th => acceptAcc c { accOp c .ld (ls.headD 0) tile.toNat with addr := th.reg a.toNat } s)) ∧
  (∀ a g, Leads (.accTab a g) HintUse.none g [one a] (fun s c _ th => c.fl.full .mx = false ∧
      areaCheck c (s.coresOf c.tr.part) (th.reg a.toNat) 2064 false = none)
    (fun s c ls th => acceptAcc c { accOp c .tab (ls.headD 0) 0 with addr := th.reg a.toNat } s)) ∧
  (∀ (tile : BitVec 7) a d g, Leads (.accSt tile a d g) HintUse.none g [one a, quad d] (fun s c _ th => c.fl.full .mx = false ∧
      let w := th.reg d.toNat
      cwOk w = true ∧ areaCheck c (s.coresOf c.tr.part) (th.reg a.toNat) (1024 * outWidth (cwOfmt w)) true = none ∧
      (cwBias w = true → areaCheck c (s.coresOf c.tr.part) (th.reg (d.toNat + 1)) 512 false = none) ∧
      (cwRq w = true → areaCheck c (s.coresOf c.tr.part) (th.reg (d.toNat + 2)) 256 true = none))
    (fun s c ls th => acceptAcc c { accOp c .st (ls.headD 0) tile.toNat with
      word := th.reg d.toNat
      addr := th.reg a.toNat
      bias := th.reg (d.toNat + 1)
      scale := th.reg (d.toNat + 2) } s)) ∧
  (∀ (tile : BitVec 7) a d g, d.toNat % 16 = 0 → Effects (.accRd tile a d g) HintUse.none g []
    [one a, { r := d.toNat, n := 16 }] (fun _ c _ => c.fl.full .mx = false)
    (fun s c ls => acceptAcc c
      { accOp c .rd (ls.headD 0) tile.toNat with
        dest := d.toNat
        sels := (party s c ls).map (fun p => (p.1, p.2.reg a.toNat)) }
      (ls.foldl (fun s l => s.modThread c.fk l (fun th => { th with
        leases := th.leases ++ (List.range 16).map (fun i => { reg := d.toNat + i, by_ := .op .mx c.fl.cMx.issued }) })) s)))

/-- R257, R262–R264: the accumulator instructions (accumulatorMembers) and what their acceptance leaves (accAccepted). -/
def Obligations.AccumulatorAccept : Prop := accAccepted ∧ accumulatorMembers

/-- R253, R254: trec.mk writes the check's status into the record and its first words, the reserved bits as zeros (R4); trec.chk reads
it, trec.step gives the next tile's index; the lanes of G take their turns in ascending order, once nothing holds the group (R238) and
the record's relaxed access may act (R202, R377). -/
def Obligations.TensorRecords : Prop :=
  (∀ x ∈ [((fun d a _ g => Instr.trecMk d a g), 0), ((fun d a _ g => Instr.trecChk d a g), 1), (Instr.trecStep, 2)], ∀ d a b g s c ls,
    Issues s c HintUse.none g [] → guardLanes s c g = ls → ls ≠ [] → anyAwaits s c.fk [d.toNat, a.toNat, b.toNat] ls = false →
    let b' := if x.2 = 2 then b else a
    let us := if x.2 = 2 then [one d, one a, one b] else [one d, one a]
    let check := fun (c : Ctx) (s : State) (t : Thread) =>
      checkHall c (s.coresOf c.tr.part) s.mem t (t.reg a.toNat) 128 (x.2 == 0)
    match (checkLanes us check c ls s).hold c ls s with
    | some (s1, st) => exec (x.1 d a b g) s = .next (conclude c s1 [(ls.headD 0, .hold st)])
    | none =>
      let r := ls.foldl (trecLane c x.2 d a b') (s, [])
      exec (x.1 d a b g) s = .next (conclude c r.1 r.2)) ∧
  ∀ d a b g s c l th p, Issues s c HintUse.none g [] → guardLanes s c g = [l] → s.thread? c.fk l = some th →
    regTrap c.ld.regs th [one d, one a, one b] = none → th.awaits [d.toNat, a.toNat, b.toNat] = false →
    checkHall c (s.coresOf c.tr.part) s.mem th (th.reg a.toNat) 128 true = .ok p →
    checkHall c (s.coresOf c.tr.part) s.mem th (th.reg a.toNat) 128 false = .ok p →
    slotMayGo c s l .load false 128 p = true →
    let bs := recordAt s.mem c.ld.core (th.reg a.toNat).toNat
    let st := (tensorOf bs).status (s.coresOf c.tr.part) c.ld.core
    let put_ := fun (s : State) (w : Word) => s.modThread c.fk l (fun t => { t.setReg d.toNat w with lrsc := none, crossed := none })
    (slotMayGo c s l .store false 8 p = true →
      ∃ t, exec (.trecMk d a g) s = .next t ∧ Passes (put_ (s.applyHall p.addr
        (bytesLE 4 (field bs 0 4 % 2 ^ 16 + (if st = 0 then 2 ^ 31 else 0)) ++
          bytesLE 4 (if st = 0 then (tensorOf bs).count else 0))) (BitVec.ofNat 32 st)) t c) ∧
    (∃ t, exec (.trecChk d a g) s = .next t ∧ Passes (put_ s (BitVec.ofNat 32 st)) t c) ∧
    (∃ t, exec (.trecStep d a b g) s = .next t ∧ Passes (put_ s
      (if bit (field bs 0 4) 31 = true ∧ field bs 4 4 ≠ 0 then BitVec.ofNat 32 (((th.reg b.toNat).toNat + 1) % field bs 4 4)
       else 0xFFFFFFFF)) t c)

/-! ## Copies and the Colonnade -/

/-- The copies that name no registers for elements. -/
noncomputable def Sys2Proof.Machine.copyOps : List ((BitVec 6 → BitVec 1 → BitVec 4 → BitVec 3 → Instr) × CopyKind) :=
  [(.cp, .cp), (.cpFill, .fill), (.cpFlush, .flush), (.cpPref, .pref)]

/-- The operation a copy enters. -/
def Sys2Proof.Machine.copyOp (c : Ctx) (kind : CopyKind) (e : BitVec 1) (d : CopyDesc) (ls : List Nat) (dest : Option Nat) : CopyOp :=
  { kind := kind, who := c.issuer (ls.headD 0), op := c.fl.cCp.issued, cache := c.cache, ga := d.ga, h := d.h, hd := d.hd
    toGlobal := d.toGlobal, len := if kind.elems then d.count else d.len, esz := d.esz, dest := dest, lanes := ls
    entry := if e = 1 then some (if kind.elems then 5 else 4) else none, chan := 0, offset := 0, spaceHall := false, moved := [], got := [], sent := none
    clock := [0, 0, 0, 0] }

/-- The queue, the checks and the room that a copy needs (R305, R306). -/
def Sys2Proof.Machine.copyGoes (s : State) (c : Ctx) (kind : CopyKind) (toRegs : Bool) (e : BitVec 1) (q : BitVec 4) (d : CopyDesc) : Prop :=
  let cls := if kind.elems then 5 else 4
  (e = 1 → (s.binding c.fl q.toNat).map (·.1) = some cls ∧ (c.fl.endpoint cls).space ≠ 0) ∧
  copyChecks c s kind toRegs d = none ∧ c.fl.full .cp = false ∧ (tgetD [] s.copies c.ld.core).length < 64 ∧
  rangesFull s c.ld.core = false

/-- R237, R305–R307: what accepting a copy leaves. One that moves bytes is the newest of the core's copy engine, has joined the CP class of its
flight, has reserved its completion entry, and, where its destination lies in the core's own slice, has its range recorded; one of length 0
completes at once, and posts its entry if it has one. Nothing else changes. -/
def Sys2Proof.Machine.copyAccepted : Prop :=
  ∀ (c : Ctx) (op : CopyOp) (own : Bool) (dst : Nat × Nat) (s : State) (f : Flight), tget s.flights c.fk = some f →
    tget s.landings (c.fk / 32) = some c.ld → (∀ tr, tget s.treads c.ld.tid = some tr → tr.spilledOut c.ld = false) →
    let t := acceptCopy c op own dst s
    (∀ k, k ≠ c.fk → tget t.flights k = tget s.flights k) ∧
    (op.len ≠ 0 →
      t = { s with flights := t.flights, copies := t.copies, mem := { s.mem with ranges := t.mem.ranges } } ∧
      tgetD [] t.copies c.ld.core = tgetD [] s.copies c.ld.core ++ [op] ∧
      (∀ k, k ≠ c.ld.core → tgetD [] t.copies k = tgetD [] s.copies k) ∧
      tgetD [] t.mem.ranges c.ld.core = tgetD [] s.mem.ranges c.ld.core ++
        (if own then [{ fk := c.fk, op := op.op, lo := hallKey c.ld.core dst.1, hi := hallKey c.ld.core dst.1 + dst.2 }] else []) ∧
      (∀ k, k ≠ c.ld.core → tgetD [] t.mem.ranges k = tgetD [] s.mem.ranges k) ∧
      ∃ f', tget t.flights c.fk = some f' ∧ f' = { f with cCp := { f.cCp with issued := f.cCp.issued + 1 }, ends := f'.ends } ∧
        ∀ k, f'.endpoint k = if op.entry = some k then { f.endpoint k with reserved := (f.endpoint k).reserved + 1 } else f.endpoint k) ∧
    (op.len = 0 → (∀ k, op.entry = some k → (f.endpoint k).waiters = []) →
      t = { s with flights := t.flights } ∧
      ∃ f', tget t.flights c.fk = some f' ∧ f' = { f with
          cCp := ({ f.cCp with issued := f.cCp.issued + 1 } : Counter).complete op.op
          opStamps := f.opStamps ++ [(.cp, op.op, [0, 0, 0, 0])]
          ends := f'.ends } ∧
        ∀ k, f'.endpoint k = if op.entry = some k then { f.endpoint k with entries := (f.endpoint k).entries ++
          [{ slots := [0, 0, BitVec.ofNat 32 op.op, 0, 0, 0, 0, 0], valid := 7 }] } else f.endpoint k)

/-- R304–R308: a copy is checked and accepted as one CP operation of the flight; one of length 0 completes at once. The registers of a
.r gather are leased to it in every lane of G. -/
def Sys2Proof.Machine.copyMembers : Prop :=
  let desc := fun (th : Thread) (a : BitVec 6) (hd : Word) =>
    ({ ga := th.pair a.toNat, h := th.reg (a.toNat + 2), ctl := (th.reg (a.toNat + 3)).toNat, hd := hd } : CopyDesc)
  let accept := fun (s : State) (c : Ctx) (kind : CopyKind) (toRegs : Bool) (e : BitVec 1) (d : CopyDesc) (ls : List Nat) (dest : Option Nat) =>
    let dst := copyDest kind toRegs d
    acceptCopy c (copyOp c kind e d ls dest) (ownRange c dst.1 dst.2) dst s
  (∀ x ∈ copyOps, ∀ a e q g, Leads (x.1 a e q g) HintUse.memory g [quad a]
    (fun s c _ th => copyGoes s c x.2 false e q (desc th a 0))
    (fun s c ls th => accept s c x.2 false e (desc th a 0) ls none)) ∧
  (∀ x ∈ [(Instr.cpGather, CopyKind.gather), (Instr.cpScatter, CopyKind.scatter)], ∀ d a e q g,
    Leads (x.1 d a e q g) HintUse.memory g [quad a, one d]
      (fun s c _ th => copyGoes s c x.2 false e q (desc th a (th.reg d.toNat)))
      (fun s c ls th => accept s c x.2 false e (desc th a (th.reg d.toNat)) ls none)) ∧
  (∀ d a e q g, Leads (.cpGatherR d a e q g) HintUse.memory g [quad a]
    (fun s c ls th =>
      let x := desc th a (th.reg d.toNat)
      copyGoes s c .gather true e q x ∧ ∀ l ∈ ls, ∀ t, s.thread? c.fk l = some t →
        gatherTrap c.ld.regs d.toNat x t = none ∧ t.awaits ((List.range (gatherRegs x)).map (fun i => d.toNat + i)) = false)
    (fun s c ls th =>
      let x := desc th a (th.reg d.toNat)
      accept (if x.count = 0 then s else ls.foldl (fun s l => s.modThread c.fk l (fun t => { t with
        leases := t.leases ++ (List.range (gatherRegs x)).map (fun i => { reg := d.toNat + i, by_ := .op .cp c.fl.cCp.issued }) })) s)
        c .gather true e x ls (some d.toNat)))

/-- R237, R304–R308: the copy instructions (copyMembers) and what their acceptance leaves (copyAccepted). -/
def Obligations.CopyAccept : Prop := copyAccepted ∧ copyMembers

/-- R275, R276, R282–R288: cla.eval and cla.feed enter a command with the sample of the lanes of G and reserve its entry (v60 has no fifth register: the illegal-register trap); cla.vote takes a
clamped entry; cla.ld, cla.st and cla.tab enter an image command; cla.seed and cla.cfg write the engine's registers;
cla.stat reads its step and status. -/
def Obligations.ColonnadeAccept : Prop :=
  (∀ x ∈ [(Instr.claEval, ClaKind.eval), (Instr.claFeed, ClaKind.feed)], ∀ v (q : BitVec 4) g s c ls th,
    Issues s c HintUse.none g [] → guardLanes s c g = ls → ls ≠ [] → s.thread? c.fk (ls.headD 0) = some th →
    v.toNat % 4 = 0 → Usable s c g ((List.range 5).map (fun i => { r := v.toNat + i, n := 1 })) → v.toNat + 4 < 64 →
    (s.binding c.fl q.toNat).map (·.1) = some 3 → (s.clac c.ld.core).cmds.length < 64 → (c.fl.endpoint 3).space ≠ 0 →
    c.fl.full .mx = false →
    ∃ t, exec (x.1 v q g) s = .next t ∧ Passes (((s.modClac c.ld.core (fun a => { a with
      cmds := a.cmds ++ [{ claCmd a c x.2 (ls.headD 0) c.fl.cMx.issued with
        sample := sampleOf (party s c ls) v.toNat
        desc := th.reg (v.toNat + 4) }]
      cfgd := false
      step := if x.2 = .feed then a.step + 1 else a.step })).modEnd c.fk 3 (fun e => { e with reserved := e.reserved + 1 })).joinOp
        c.fk .mx) t c) ∧
  (∀ x ∈ [Instr.claEval, Instr.claFeed], ∀ (q : BitVec 4) g, Traps (x 60 q g) HintUse.none g
    (fun s c ls => 64 ≤ c.ld.regs ∧ (s.binding c.fl q.toNat).map (·.1) = some 3 ∧ anyAwaits s c.fk [60, 61, 62, 63, 64] ls = false)
    (fun _ => trap .illegalRegister 64)) ∧
  (∀ v (q : BitVec 4) g, Effects (.claVote v q g) HintUse.none g [] [one v]
    (fun s c _ => (s.binding c.fl q.toNat).map (·.1) = some 3 ∧ (c.fl.qreg q.toNat).pend = none ∧
      ∃ e es, (c.fl.endpoint 3).entries = e :: es ∧ e ≠ errorEntry)
    (fun s c ls =>
      let e := (c.fl.endpoint 3).entries.headD errorEntry
      ls.foldl (fun t l => t.modThread c.fk l (Thread.takeSlot
        { e with slots := e.slots.map (clampVotes (cfgThr (s.clac c.ld.core).cfg)) } v.toNat l))
        (s.modEnd c.fk 3 (fun x => { x with entries := x.entries.tail })))) ∧
  (∀ x ∈ [((fun a h g => Instr.claLd a h g), ClaKind.ld), ((fun a h g => Instr.claSt a h g), ClaKind.st),
      ((fun a _ g => Instr.claTab a g), ClaKind.tab)], ∀ a (h : BitVec 1) g, (x.2 = .tab → h = 1) →
    let len := fun (s : State) (c : Ctx) => if x.2 = .tab then 64 else imageLen (s.clac c.ld.core).cfg
    let k : Cls := if x.2 = .tab then .mx else .cp
    Leads (x.1 a h g) HintUse.none g [baseUse h a]
      (fun s c _ th => (claAddr c s h a th (len s c) (x.2 == .st)).1 = none ∧ (s.clac c.ld.core).cmds.length < 64 ∧
        c.fl.full k = false ∧ rangesFull s c.ld.core = false)
      (fun s c ls th =>
        let p := claAddr c s h a th (len s c) (x.2 == .st)
        let num := (c.fl.counter k).issued
        let s1 := s.modClac c.ld.core (fun a => { a with
          cmds := a.cmds ++ [{ claCmd a c x.2 (ls.headD 0) num with
            space := p.2.1
            addr := p.2.2 }]
          cfgd := false })
        (if x.2 = .st ∧ h = 1 ∧ ownRange c p.2.2 (len s c) = true then addRange c p.2.2 (len s c) num s1 else s1).joinOp c.fk k)) ∧
  (∀ a g, Leads (.claSeed a g) HintUse.none g [one a] (fun s c _ _ => (s.clac c.ld.core).cmds.length < 64)
    (fun s c _ th => s.modClac c.ld.core (fun x => { x with seed := th.reg a.toNat, step := 0 }))) ∧
  (∀ a g, Leads (.claCfg a g) HintUse.none g [one a]
    (fun s c _ th => cfgOk (th.reg a.toNat) = true ∧ (s.clac c.ld.core).cmds.length < 64)
    (fun s c _ th => s.modClac c.ld.core (fun x => { x with cfg := th.reg a.toNat, failed := false, cfgd := true }))) ∧
  (∀ d g s c, Issues s c HintUse.none g [] → Usable s c g [pair d] → ∃ t, exec (.claStat d g) s = .next t ∧ Keeps s t c 0 ∧
    Lanes s t c g (fun _ th => (th.setReg d.toNat (s.clac c.ld.core).step).setReg (d.toNat + 1) (claStatus (s.clac c.ld.core))))

/-! ## Nests, code caches, rings, collectives, privileged instructions -/

/-- The register checks of NEST (R342): `every` in each lane of G, `low` in its lowest lane besides. -/
def Sys2Proof.Machine.nestReady (s : State) (c : Ctx) (ls : List Nat) (low every : List RegUse) : Prop :=
  (∀ l ∈ ls, ∀ th, s.thread? c.fk l = some th → regTrap c.ld.regs th every = none ∧ th.awaits (allRegs every) = false) ∧
  ∀ th, s.thread? c.fk (ls.headD 0) = some th → regTrap c.ld.regs th (every ++ low) = none ∧ th.awaits (allRegs low) = false

/-- As Leads, for a member of NEST. -/
def Sys2Proof.Machine.nestActs (i : Instr) (g : BitVec 3) (low every : List RegUse) (pre : State → Ctx → List Nat → Thread → Prop)
    (eff : State → Ctx → List Nat → Thread → State) : Prop :=
  ∀ s c ls th, Issues s c HintUse.none g [] → guardLanes s c g = ls → ls ≠ [] → s.thread? c.fk (ls.headD 0) = some th →
    nestReady s c ls low every → pre s c ls th → ∃ t, exec i s = .next t ∧ Passes (eff s c ls th) t c

/-- R339–R342: nb.max and n.grow raise a bound of the instance once for the flight: as a tracked ST operation whose result P or d awaits,
nb.max.p untracked; a target that may not be raised is refused at once with its code recorded. n.launch hands a launch to
the die's pool, or its refusal to the record; n.signal adds the sum of G to the progress word as a release; n.info reads.
That n.launch and n.signal are held until what they release is performed, and that an n.signal whose progress word does not translate
adds nothing and completes, is read into the rules (log entries 11, 54). -/
def Obligations.NestInstructions : Prop :=
  (∀ p a b g, nestActs (.nbMax p a b g) g [one a] [one b]
    (fun s c _ th => raiseTarget s c (th.reg a.toNat).toNat ≠ none ∨ c.fl.full .st = false) (fun s c ls th =>
    match raiseTarget s c (th.reg a.toNat).toNat with
    | some code => setPreds c.fk (some p.toNat) false ls (setRaise c code ls s)
    | none => ls.foldl (fun s l => s.modThread c.fk l (fun t =>
          if p = 0 then t else { t with pwait := t.pwait ++ [(p.toNat, c.fl.cSt.issued)] }))
        (s.trackRaise c (.max (maxOf (laneValues s c ls b))) (th.reg a.toNat).toNat ls p.toNat))) ∧
  (∀ a b g, nestActs (.nbMaxP a b g) g [one a] [one b] (fun _ _ _ _ => True) (fun s c ls th =>
    match raiseTarget s c (th.reg a.toNat).toNat with
    | some code => setRaise c code ls s
    | none => setRaise c 0 ls { s with
        raises := s.raises ++ [raiseOf s c (.max (maxOf (laneValues s c ls b))) (th.reg a.toNat).toNat ls none 0] })) ∧
  (∀ d a b g, nestActs (.nGrow d a b g) g [one b] [one d, one a]
    (fun s c _ th => raiseTarget s c (th.reg b.toNat).toNat ≠ none ∨ c.fl.full .st = false) (fun s c ls th =>
    match raiseTarget s c (th.reg b.toNat).toNat with
    | some code => ls.foldl (fun s l => s.modThread c.fk l (fun t => t.setReg d.toNat 0xFFFFFFFF)) (setRaise c code ls s)
    | none => ls.foldl (fun s l => s.modThread c.fk l (fun t => { t with
          leases := t.leases ++ [{ reg := d.toNat, by_ := .op .st c.fl.cSt.issued }]
          trans := t.trans.filter (fun x => decide (x.reg ≠ d.toNat)) }))
        (s.trackRaise c (.grow (laneValues s c ls a)) (th.reg b.toNat).toNat ls d.toNat))) ∧
  (∀ p a b g, nestActs (.nLaunch p a b g) g [quad a, pair b] []
    (fun s c ls th =>
      let r := th.pair b.toNat
      let die := c.ld.core / 48
      r.toNat % 128 = 0 ∧ isCanon r = true ∧ (leaseFor c.tr.leases (va57 r) 8320 false true).isSome ∧
      s.releasedUpto c.fk ls s.mem.nextAcc = true ∧ s.mem.covers die c.fl.cover = true ∧
      (launchStatus s die (launchDepth s c + 1) = 0 ∨ s.homesCover c.tr.part (va57 r) 128 (s.mem.clockOf die) = true))
    (fun s c ls th =>
      let depth := launchDepth s c + 1
      let st := launchStatus s (c.ld.core / 48) depth
      if st = 0 then setPreds c.fk (some p.toNat) true ls
        (s.enterPool (c.ld.core / 48) (launchOf s c (th.pair a.toNat) (th.pair (a.toNat + 2)) (th.pair b.toNat) depth))
      else setPreds c.fk (some p.toNat) false ls
        (s.stairwayRecord (c.ld.core / 48) c.tr.part (th.pair b.toNat) st 0xFFFFFFFF 0 0xFFFFFFFF depth))) ∧
  (∀ a g, nestActs (.nSignal a g) g [] [one a]
    (fun s c ls _ => c.fl.full .st = false ∧ s.releasedUpto c.fk ls s.mem.nextAcc = true)
    (fun s c ls th =>
      let sum := ((laneValues s c ls a).map (·.2)).foldl (· + ·) 0
      let word := va57 (c.tr.record + 0x38)
      let s := s.virtWalk c.tr.part word
      match s.placeOf c.tr.part word with
      | none => (s.joinOp c.fk .st).completeOp c.fk .st c.fl.cSt.issued
      | some x => (enterAccess c { acq := false, rel := true, scope := 6 } 0 8 (some (.st, c.fl.cSt.issued)) s (ls.headD 0) th x
          { kind := .atomic 11, data := sum, cmp := 0, dest := [], signed := false }).joinOp c.fk .st)) ∧
  (∀ d a b g s c, b.toNat ≤ 4 → Issues s c HintUse.none g [] → Usable s c g [one d, one a] →
    ∃ t, exec (.nInfo d a b g) s = .next t ∧ Keeps s t c 0 ∧
      Lanes s t c g (fun _ th => th.setReg d.toNat (infoValue s c th (th.reg a.toNat).toNat b.toNat))) ∧
  (∀ d a b g s c hd, ¬ b.toNat ≤ 4 → s.ctx? = some c → c.ld.handler = some hd →
    (∀ l ∈ c.lanes, ∀ th, s.thread? c.fk l = some th → th.hmode = false) →
    ∃ t, exec (.nInfo d a b g) s = .next t ∧ Enters s t c c.lanes hd (trap .illegal 0))

/-- R59, R60: over the lanes of G in ascending order, pf.code requests the good lines of its range, unpin.code clears the pins of its
lines, and pin.code pins all of its lines or none, as P says: an empty range holds, one that would pass the limit or has a
bad line does not. -/
def Obligations.CodeCaches : Prop :=
  let each := fun (c : Ctx) (a b : BitVec 6) (f : DWord → List Nat → State → State) (ls : List Nat) (s : State) =>
    ls.foldl (fun s l => match s.thread? c.fk l with
      | some t => f (t.pair a.toNat) (pfcLines (t.pair a.toNat) (t.reg b.toNat).toNat) s
      | none => s) s
  (∀ k a b g, Effects (.pfCode k a b g) HintUse.none g [] [pair a, one b] (fun _ _ _ => True) (fun s c ls =>
    each c a b (fun x vas s => if isCanon x then (vas.filter (lineGood s c)).foldl (fun s v => (fillCode k c s v).1) s else s) ls s)) ∧
  (∀ k a b g, Effects (.unpinCode k a b g) HintUse.none g [] [pair a, one b] (fun _ _ _ => True) (fun s c ls =>
    each c a b (fun x vas s => if isCanon x then setPins k c false vas s else s) ls s)) ∧
  (∀ k p a b g s c l th, Issues s c HintUse.none g [] → Usable s c g [pair a, one b] → guardLanes s c g = [l] →
    s.thread? c.fk l = some th →
    let vas := pfcLines (th.pair a.toNat) (th.reg b.toNat).toNat
    let sh := if k = 1 then ccShape else l0Shape
    let answer := fun (b : Bool) (s : State) => s.modThread c.fk l (fun t => t.setPred p.toNat b)
    (vas = [] → ∃ t, exec (.pinCode k p a b g) s = .next t ∧ Passes (answer true s) t c) ∧
    (vas ≠ [] → pinsOver sh c (codeOf k c s) vas = true ∨ rangeGood s c (th.pair a.toNat) vas = false →
      ∃ t, exec (.pinCode k p a b g) s = .next t ∧ Passes (answer false s) t c) ∧
    (vas ≠ [] → pinsOver sh c (codeOf k c s) vas = false → rangeGood s c (th.pair a.toNat) vas = true →
      let chain := fun (vs : List Nat) => vs.foldl (fun s v => setPins k c true [v] (fillCode k c (setPins k c true [v] s) v).1) s
      (∀ v ws, ws ++ [v] <+: vas → ∃ x, (fillCode k c (setPins k c true [v] (chain ws)) v).2 = .line x) →
      ∃ t, exec (.pinCode k p a b g) s = .next t ∧ Passes (answer true (chain vas)) t c)) ∧
  (∀ k p a b g s c ls, Issues s c HintUse.none g [] → Usable s c g [pair a, one b] → guardLanes s c g = ls → ls ≠ [] →
    ∃ t, exec (.pinCode k p a b g) s = .next t)

/-- R450–R454: ing.claim takes the next chunk of a ring, ing.rel releases the claim of a ticket and the head moves, ing.stat, ing.gap and
ing.loss read a ring's counters. The detail of the trap of an ing.loss whose registers pass v63 is the model's choice (log entry 97). -/
def Sys2Proof.Machine.ringInstructions : Prop :=
  (∀ v (q : BitVec 4) p n g s c ls k r th, Issues s c HintUse.none g [] → Usable s c g [quad v] → guardLanes s c g = ls →
    s.thread? c.fk (ls.headD 0) = some th → ls ≠ [] → ringOf s c q.toNat = some (k, r) →
    ((c.fl.qreg q.toNat).pend = none →
      (r.noClaim = false →
        let y := s.claim k r (th.reg v.toNat) c.ld.tid c.fk
        ∃ t, exec (.ingClaim v q p n g) s = .next t ∧ Passes (setPreds c.fk (nbPred p n) true ls
          (ls.foldl (fun s l => s.modThread c.fk l (fun t => t.setRegs v.toNat y.2)) y.1)) t c) ∧
      (r.noClaim = true → n = 1 →
        ∃ t, exec (.ingClaim v q p n g) s = .next t ∧ Passes (setPreds c.fk (some p.toNat) false ls s) t c) ∧
      (r.noClaim = true → n = 0 →
        ∃ t, exec (.ingClaim v q p n g) s = .next t ∧ Holds ((recordPop c q.toNat .claim v.toNat 4 ls s).modRing k
          (fun r => { r with waiters := r.waiters ++ [(c.fk, q.toNat)] })) t c c.lanes .queue)) ∧
    (∃ t, exec (.ingStat v q g) s = .next t ∧ Keeps s t c 0 ∧ Lanes s t c g (fun _ th => th.setRegs v.toNat
      [BitVec.ofNat 32 r.head, BitVec.ofNat 32 r.claimed, BitVec.ofNat 32 r.tail, BitVec.ofNat 32 r.epoch])) ∧
    (∃ t, exec (.ingGap v q g) s = .next t ∧ Keeps s t c 0 ∧ Lanes s t c g (fun _ th => th.setRegs v.toNat
      [BitVec.ofNat 32 r.gaps, BitVec.ofNat 32 ((if r.pending = Losses.zero ∧ r.sealedGap = none then 0 else 1) +
        (if r.resetDue.isSome then 2 else 0))])) ∧
    (v.toNat + 7 < 64 → Usable s c g [quad v, { r := v.toNat + 4, n := 4 }] →
      ∃ t, exec (.ingLoss v q g) s = .next t ∧ Keeps s t c 0 ∧ Lanes s t c g (fun _ th => th.setRegs v.toNat
        (counterWords r.losses.recs ++ counterWords r.losses.bytes ++ counterWords r.losses.auth ++ counterWords r.losses.bad)))) ∧
  (∀ v (q : BitVec 4) g, 64 ≤ v.toNat + 7 → Traps (.ingLoss v q g) HintUse.none g (fun _ _ _ => True)
    (fun _ => trap .illegalRegister (if v.toNat % 4 = 0 then 64 else v.toNat))) ∧
  (∀ v (q : BitVec 4) g k r, Leads (.ingRel v q g) HintUse.none g [one v]
    (fun s c _ th => ringOf s c q.toNat = some (k, r) ∧ c.fl.cLd.value = 0 ∧ s.releasedUpto c.fk lanes8 s.mem.nextAcc = true ∧
      ∃ x ∈ r.claims, x.released = false ∧ x.ticket = (th.reg v.toNat).toNat)
    (fun s _ _ th => s.releaseClaims k (fun x => decide (x.ticket = (th.reg v.toNat).toNat))))

/-- R456–R460: coll.send and coll.red enter one CP operation of the flight to a channel; coll.recv takes the oldest notice, coll.wait
passes when the channel's count has come up to V or the channel has an error, which it gives. -/
def Sys2Proof.Machine.collectiveInstructions : Prop :=
  (∀ x ∈ [((fun v q p n g => Instr.collSend v q p n g), false), ((fun v q _ _ g => Instr.collRed v q g), true)],
    ∀ v (q : BitVec 4) p (n : BitVec 1) g k ch, Leads (x.1 v q p n g) HintUse.none g [quad v]
    (fun s c _ th => chanOf s c q.toNat = some (k, ch) ∧ c.fl.full .cp = false ∧ (tgetD [] s.copies c.ld.core).length < 64 ∧
      collChecks c s x.2 { ga := th.pair v.toNat, h := th.reg v.toNat, offset := (th.reg (v.toNat + 2)).toNat
                           ctl := (th.reg (v.toNat + 3)).toNat } = none)
    (fun s c ls th =>
      let d : CollDesc :=
        { ga := th.pair v.toNat, h := th.reg v.toNat, offset := (th.reg (v.toNat + 2)).toNat, ctl := (th.reg (v.toNat + 3)).toNat }
      let op : CopyOp :=
        { kind := .send (if x.2 then some d.op else none), who := c.issuer (ls.headD 0), op := c.fl.cCp.issued, cache := 0, ga := d.ga
          h := d.h, hd := 0, toGlobal := false, len := d.len, esz := 4, dest := none, lanes := ls, entry := none
          chan := k, offset := d.offset, spaceHall := d.hall, moved := [], got := [], sent := none, clock := [0, 0, 0, 0] }
      setPreds c.fk (if x.2 then none else nbPred p n) true ls (acceptCopy c op false (0, 0) s))) ∧
  (∀ v (q : BitVec 4) p n g s c ls k ch, Issues s c HintUse.none g [] → Usable s c g [quad v] → guardLanes s c g = ls → ls ≠ [] →
    chanOf s c q.toNat = some (k, ch) → (c.fl.qreg q.toNat).pend = none →
    (∀ y ys, ch.notices = y :: ys →
      ∃ t, exec (.collRecv v q p n g) s = .next t ∧ Passes (setPreds c.fk (nbPred p n) true ls
        (ls.foldl (fun s l => s.modThread c.fk l (fun t => t.setRegs v.toNat (noticeWords y)))
          ((s.modChan k (fun ch => { ch with notices := ys })).modFlight c.fk (fun f => { f with
            cover := joinClock f.cover y.clock })))) t c) ∧
    (ch.notices = [] → n = 1 →
      ∃ t, exec (.collRecv v q p n g) s = .next t ∧ Passes (setPreds c.fk (some p.toNat) false ls s) t c) ∧
    (ch.notices = [] → n = 0 →
      ∃ t, exec (.collRecv v q p n g) s = .next t ∧ Holds ((recordPop c q.toNat .recv v.toNat 4 ls s).modChan k
        (fun ch => { ch with waiters := ch.waiters ++ [(c.fk, q.toNat)] })) t c c.lanes .queue)) ∧
  (∀ v (q : BitVec 4) g s c ls k ch th, Issues s c HintUse.none g [] → Usable s c g [one v] → guardLanes s c g = ls → ls ≠ [] →
    s.thread? c.fk (ls.headD 0) = some th → chanOf s c q.toNat = some (k, ch) →
    (ch.error ≠ 0 ∨ (ch.count - th.reg v.toNat).toNat < 2 ^ 31 →
      ∃ t, exec (.collWait v q g) s = .next t ∧ Passes
        (ls.foldl (fun s l => s.modThread c.fk l (fun t => t.setReg v.toNat (BitVec.ofNat 32 ch.error)))
          (s.modFlight c.fk (fun f => { f with cover := joinClock f.cover ch.clock }))) t c) ∧
    (¬ (ch.error ≠ 0 ∨ (ch.count - th.reg v.toNat).toNat < 2 ^ 31) →
      ∃ t, exec (.collWait v q g) s = .next t ∧ Holds s t c c.lanes .queue))

/-- R450–R460: RING (ringInstructions) and COLL (collectiveInstructions). -/
def Obligations.FabricInstructions : Prop := ringInstructions ∧ collectiveInstructions

/-- R357–R359, R436, R437: in handler mode ctx.save writes the image of a thread at its address and ends its reservation, ctx.load takes one
that is well formed (P says so), tlb.inv drops what its range names, part.q reads, an unknown selector being illegal. Outside handler mode all four raise the
privileged trap. An image is stored and read in the slot of its instruction, once its pieces may be performed (log entry 9); tlb.inv
takes the range of the lowest lane of G and is held until the accesses of that thread are performed, leased pages being walked again (log
entry 13). The range is that of the canonical addresses from the start on, whatever the start is. -/
def Obligations.PrivilegedInstructions : Prop :=
  (∀ a p g s c ls, Issues s c HintUse.none g [] → guardLanes s c g = ls → ls ≠ [] →
    let r := ls.foldl (ctxSaveLane a c) (s, [])
    let r' := ls.foldl (ctxLoadLane p a c) (s, [])
    exec (.ctxSave a g) s = .next (conclude c r.1 r.2).tidied ∧ exec (.ctxLoad p a g) s = .next (conclude c r'.1 r'.2).tidied) ∧
  (∀ a g s c l th ls, Issues s c HintUse.none g [] → guardLanes s c g = [l] → s.thread? c.fk l = some th →
    th.hmode = true → regTrap c.ld.regs th [pair a] = none → th.leases = [] → th.loads = [] →
    let bs := saveImage c.ld.regs th
    imageAt c s (th.pair a.toNat) bs.length bs.length true = .ok ls → piecesMayGo c s l .store th.relFenced ls = true →
    ∃ t, exec (.ctxSave a g) s = .next t ∧ Passes (dropResv c.fk ((ls.zip (chunks16 ls.length bs)).foldl
      (storePiece c l th.relFenced) s) l).tidied t c) ∧
  (∀ p a g s c l th l1 l2, Issues s c HintUse.none g [] → guardLanes s c g = [l] → s.thread? c.fk l = some th →
    th.hmode = true → regTrap c.ld.regs th [pair a] = none → th.leases = [] → th.loads = [] →
    let n := c.ld.regs
    imageAt c s (th.pair a.toNat) (blockLen n) 128 false = .ok l1 → piecesMayGo c s l .load false l1 = true →
    imageAt c s (th.pair a.toNat) (blockLen n) (blockLen n) false = .ok l2 → piecesMayGo c s l .load false l2 = true →
    let h := viewPieces c s l1
    ∃ t, exec (.ctxLoad p a g) s = .next t ∧ Passes (s.modThread c.fk l (fun t =>
      { (if field h 0x0C 2 = n ∧ reservedClear h = true then (t.loadContext n (viewPieces c s l2)).setPred p.toNat true
         else t.setPred p.toNat false) with lrsc := none })).tidied t c) ∧
  (∀ a b g, Leads (.tlbInv a b g) HintUse.none g [pair a, one b]
    (fun s c ls _ => (∀ l ∈ ls, ∀ th, s.thread? c.fk l = some th → th.hmode = true) ∧
      s.releasedUpto c.fk [ls.headD 0] s.mem.nextAcc = true)
    (fun s c _ th =>
      let r := invRange c.tr.part (th.pair a.toNat) (th.reg b.toNat).toNat
      if r.len = 0 then s else s.invalidate r)) ∧
  (∀ part (x : DWord) n va, n < 2 ^ 32 → ((invRange part x n).lo ≤ va ∧ va < (invRange part x n).lo + (invRange part x n).len ↔
    ∃ i < n, x.toNat + i < 2 ^ 64 ∧ isCanon (BitVec.ofNat 64 (x.toNat + i)) = true ∧ va57 (BitVec.ofNat 64 (x.toNat + i)) = va)) ∧
  (∀ d b g s c, b.toNat ≤ 5 → Issues s c HintUse.none g [] → Usable s c g [one d] →
    (∀ l ∈ guardLanes s c g, ∀ th, s.thread? c.fk l = some th → th.hmode = true) →
    ∃ t, exec (.partQ d b g) s = .next t ∧ Keeps s t c 0 ∧
      Lanes s t c g (fun _ th => th.setReg d.toNat (BitVec.ofNat 32 (partValue s c b.toNat)))) ∧
  (∀ d b g s c hd, ¬ b.toNat ≤ 5 → s.ctx? = some c → c.ld.handler = some hd →
    (∀ l ∈ c.lanes, ∀ th, s.thread? c.fk l = some th → th.hmode = false) →
    ∃ t, exec (.partQ d b g) s = .next t ∧ Enters s t c c.lanes hd (trap .illegal 0)) ∧
  (∀ a b g, Traps (.tlbInv a b g) HintUse.none g (fun _ _ _ => True) (fun _ => trap .privileged 0)) ∧
  (∀ d b g, b.toNat ≤ 5 → Traps (.partQ d b g) HintUse.none g (fun s c ls => anyAwaits s c.fk [d.toNat] ls = false)
    (fun _ => trap .privileged 0)) ∧
  (∀ P, ∀ i ∈ [Instr.ctxSave, Instr.ctxLoad P], ∀ a g s c ls hd, Issues s c HintUse.none g [] → guardLanes s c g = ls → ls ≠ [] →
    c.ld.handler = some hd → (∀ l ∈ ls, ∀ th, s.thread? c.fk l = some th → th.hmode = false) →
    ∃ t, exec (i a g) s = .next t ∧ Enters s.tidied t c ls hd (trap .privileged 0))

/-! ## The host and the firmware (22_host.md) -/

/-- The state in which the operands of a command stand in the payload of a mailbox that is free (R430). -/
def Sys2Proof.Machine.loaded (s : State) (recovery : Bool) (ops : List Byte) : State :=
  s.setBox recovery { (s.fw.box recovery).overlay 0 ops with busy := false }

/-- The state in which a command has run: `f` says what it does to the state and how it ends: a status and a reply, which then stand in
the mailbox, or in progress (R430). -/
def Sys2Proof.Machine.answered (s : State) (recovery : Bool) (code : Nat) (ops : List Byte) (row : Instr) (f : State → State × CmdEnd) : State :=
  let s1 := loaded s recovery ops
  (f s1).1.setBox recovery (boxAfter (s1.fw.box recovery) (cmdWordOf code ops.length) row (f s1).2)

/-- A command, written to a free mailbox that is served, runs: its operands fit their bytes and the payload. How the operands are laid
out is the model's choice (log entry 98). -/
def Sys2Proof.Machine.commandRuns (s : State) (recovery : Bool) (code : Nat) (fs : List Operand) (raw : List Byte) (row : Instr)
    (f : State → State × CmdEnd) : Prop :=
  operandsFit fs = true → (operandBytes fs ++ raw).length ≤ 4088 →
    exec row s = .next (answered s recovery code (operandBytes fs ++ raw) row f)

/-- The management mailbox is served and free. -/
def Sys2Proof.Machine.mailFree (s : State) : Prop := s.fw.serves false = true ∧ s.fw.mgmt.cmd = none

/-- What a command does that changes nothing and ends with a status. -/
def Sys2Proof.Machine.onlyEnds (st : CmdStatus) : State → State × CmdEnd := fun s => (s, some (st, []))

/-- R430–R434: commands of a served, free mailbox run and report: the boot ROM's LOAD_CHUNK, VERIFY, DISCARD, ROM_STATE; ATTEST, LIFECYCLE,
DEBUG_TOKEN; POWER_LIMIT, POWER_STATE, TELEMETRY, ERROR_LOG. A command written while another is in progress is discarded
and sets busy; a command word alone is in progress from then on, and its command runs when it comes with the operands that stand in the
payload; a word with an unknown code or a reserved bit, or with a bad length, is answered so, as is one with which the counts of the
operands' lists do not agree, and one with more than one bit in a field of one bit is refused (log entry 98). An image that verifies is booted to its
end at once (log entry 46). -/
def Sys2Proof.Machine.mailboxCommands : Prop :=
  (∀ s : State, s.fw.serves true = true → s.fw.recovery.cmd = none →
    (∀ o bs, commandRuns s true 1 [(4, o)] bs (.loadChunk o bs) (fun s =>
      ({ s with fw := { s.fw with chunks := writeCells s.fw.chunks o bs } }, some (.ok, [])))) ∧
    (Config.imageOk s.fw.image = true → commandRuns s true 2 [] [] .verify (fun s =>
      (({ s with fw := { s.fw with flash := s.fw.image, chunks := [] } } : State).bootUp, some (.ok, [])))) ∧
    (Config.imageOk s.fw.image = false → commandRuns s true 2 [] [] .verify (onlyEnds .badImage)) ∧
    commandRuns s true 3 [] [] .discard (fun s => ({ s with fw := { s.fw with chunks := [] } }, some (.ok, []))) ∧
    commandRuns s true 4 [] [] .romState (fun s => (s, some (.ok, [1, 0, 0, 0])))) ∧
  (∀ s : State, mailFree s →
    (∀ part nonce p, nonce.length = 32 → tget s.parts part = some p → s.fw.idErased = false →
      commandRuns s false 0x100 [(4, part)] nonce (.attest part nonce) (fun s =>
        ({ s with parts := tput s.parts part { p with nonce := nonce } }, some (.ok, s.report part p nonce)))) ∧
    (∀ signed, s.fw.lifecycle < 2 → Config.transitionOk [s.fw.lifecycle, s.fw.lifecycle + 1] signed = true →
      commandRuns s false 0x101 [(4, s.fw.lifecycle + 1)] signed (.lifecycle (s.fw.lifecycle + 1) signed) (fun s =>
        ({ s.endSessions with fw := { s.endSessions.fw with lifecycle := s.fw.lifecycle + 1, unlocked := none } }, some (.ok, [])))) ∧
    (∀ signed, s.fw.lifecycle = 2 → Config.transitionOk [2, 3] signed = true →
      ((∀ p ∈ s.parts, s.busyPart p.1 = false) →
        commandRuns s false 0x101 [(4, 3)] signed (.lifecycle 3 signed) (fun s => (s.enterReturn, some (.ok, [])))) ∧
      ((∃ p ∈ s.parts, s.busyPart p.1 = true) →
        commandRuns s false 0x101 [(4, 3)] signed (.lifecycle 3 signed) (onlyEnds .refused))) ∧
    (∀ target signed, target ≠ s.fw.lifecycle + 1 ∨ 3 < target ∨ Config.transitionOk [s.fw.lifecycle, target] signed = false →
      commandRuns s false 0x101 [(4, target)] signed (.lifecycle target signed) (onlyEnds .refused)) ∧
    (∀ part expiry signed,
      (∀ p, s.fw.lifecycle = 2 → tget s.parts part = some p →
        commandRuns s false 0x102 [(4, part), (8, expiry)] signed (.debugToken part expiry signed) (fun s =>
          if Config.tokenOk [s.fw.serial, expiry, p.debugKey] p.nonce signed then
            ({ s with parts := tput s.parts part { p with token := some expiry } }, some (.ok, [])) else (s, some (.refused, [])))) ∧
      (s.fw.lifecycle = 1 →
        commandRuns s false 0x102 [(4, part), (8, expiry)] signed (.debugToken part expiry signed) (fun s =>
          if Config.tokenOk [s.fw.serial, expiry] [] signed then
            ({ s with fw := { s.fw with unlocked := some expiry } }, some (.ok, [])) else (s, some (.refused, [])))) ∧
      (s.fw.lifecycle ≠ 1 → s.fw.lifecycle ≠ 2 →
        commandRuns s false 0x102 [(4, part), (8, expiry)] signed (.debugToken part expiry signed) (onlyEnds .refused))) ∧
    (∀ w, (w ≤ 2500 → commandRuns s false 0x123 [(4, w)] [] (.powerLimit w) (fun s => ({ s with fw := { s.fw with
        limit := w
        capped := decide (w ≤ s.fw.drawn) || decide (40 < s.fw.inlet) } }, some (.ok, [])))) ∧
      (2500 < w → commandRuns s false 0x123 [(4, w)] [] (.powerLimit w) (onlyEnds .refused))) ∧
    (∀ n, n ≤ 3 → (2 ≤ n → s.maySleep = true) →
      commandRuns s false 0x124 [(4, n)] [] (.powerState n) (fun s => (s.enterPower (powerOf n), some (.ok, [])))) ∧
    (∀ k, commandRuns s false 0x130 [(4, k)] [] (.telemetry k) (fun s =>
      (s, some (.ok, bytesLE 8 (s.counters.getD (Config.counterOf k) 0))))) ∧
    (∀ k, commandRuns s false 0x131 [(4, k)] [] (.errorLog k) (fun s =>
      (s, some (.ok, ((s.mem.errors.drop k).take 255).flatMap errorBytes))))) ∧
  (∀ (s : State) k w, s.fw.serves false = true → s.fw.mgmt.cmd = some w → k < 2 ^ 32 →
    (s.fw.mgmt.begun.isSome ∨ w ≠ 0x4130 ∨ s.fw.mgmt.operands 4 ≠ bytesLE 4 k →
      exec (.telemetry k) s = .next (s.setBox false { s.fw.mgmt with busy := true })) ∧
    (s.fw.mgmt.begun = none → w = 0x4130 → s.fw.mgmt.operands 4 = bytesLE 4 k →
      exec (.telemetry k) s = .next (s.setBox false (boxAfter s.fw.mgmt w (.telemetry k)
        (some (.ok, bytesLE 8 (s.counters.getD (Config.counterOf k) 0))))))) ∧
  (∀ (s : State) b w, s.fw.serves b = true → (s.fw.box b).cmd = none →
    let rows := (commandTable b).filter (fun x => x.1 == bits w 0 12)
    let fits := ∃ x ∈ rows, x.2.1 ≤ bits w 12 12 ∧ bits w 12 12 ≤ x.2.2
    let m : Mailbox := { s.fw.box b with busy := false }
    let agrees := ∀ n, listedLen (bits w 0 12) m.payload = some n → n = bits w 12 12
    let oneBit := ∀ o ∈ flagPlaces (bits w 0 12) (bits w 12 12), field m.payload o 4 ≤ 1
    (w < 2 ^ 24 → fits → agrees → oneBit → exec (.commandWord b w) s = .next (s.setBox b { m with done := false, cmd := some w })) ∧
    (w < 2 ^ 24 → fits → ¬ agrees →
      exec (.commandWord b w) s = .next (s.setBox b (boxAfter m w (.commandWord b w) (some (.badLength, []))))) ∧
    (w < 2 ^ 24 → fits → agrees → ¬ oneBit →
      exec (.commandWord b w) s = .next (s.setBox b (boxAfter m w (.commandWord b w) (some (.refused, []))))) ∧
    (rows = [] ∨ bits w 24 8 ≠ 0 →
      exec (.commandWord b w) s = .next (s.setBox b (boxAfter m w (.commandWord b w) (some (.badCommand, []))))) ∧
    (rows ≠ [] → bits w 24 8 = 0 → ¬ fits →
      exec (.commandWord b w) s = .next (s.setBox b (boxAfter m w (.commandWord b w) (some (.badLength, []))))))

/-- R352, R355, R404, R410, R414–R416, R423, R424, R442, R444, R456, R461: commands on tenants, in a lifecycle that has them. A
PARTITION_RESET is in progress until the last tread of its partition is gone (log entry 30); a STREAM_TABLE write starts a stopped port
again (log entry 38); what the 10 bits of a kid or the 16 of a label cannot hold is refused (log entry 98). -/
def Sys2Proof.Machine.tenantCommands : Prop :=
  ∀ s : State, mailFree s → s.fw.tenants = true →
    (∀ spec, s.mayCreate spec = true → commandRuns s false 0x110 (createOperands spec) [] (.partitionCreate spec) (fun s =>
      (s.createPart (freeKeyFrom 0 s.parts) spec, some (.ok, bytesLE 4 (freeKeyFrom 0 s.parts))))) ∧
    (∀ part p, tget s.parts part = some p → commandRuns s false 0x111 [(4, part)] [] (.partitionReset part) (fun s =>
      (s.resetPart part, if (s.resetPart part).resetting part then none else some (.ok, [])))) ∧
    (∀ key part p, key < 1024 → tget s.parts part = some p → (s.mem.keyOf key).state ≠ .scrubbing →
      (s.mem.keyOf key).part.any s.busyPart = false → (s.mem.keyOf key).gen ≠ 0xFFFF →
      commandRuns s false 0x112 [(4, key), (4, part)] [] (.keyAssign key part) (fun s => (s.assignKey key part, some (.ok, [])))) ∧
    (∀ key, key < 1024 →
      ((s.mem.keyOf key).state = .assigned →
        commandRuns s false 0x113 [(4, key)] [] (.keyRotate key) (fun s => (s.rotateKey key, some (.ok, [])))) ∧
      ((s.mem.keyOf key).state = .rotating → commandRuns s false 0x113 [(4, key)] [] (.keyRotate key) (fun s => (s, none)))) ∧
    (∀ n hpa size pa key, n < 64 → size ≠ 0 → hpa % 2 ^ 21 = 0 → size % 2 ^ 21 = 0 →
      ((s.mem.keyOf key).state = .assigned ∨ (s.mem.keyOf key).state = .rotating) →
      commandRuns s false 0x114 [(4, n), (8, hpa), (8, size), (8, pa), (4, key)] [] (.windowBind n hpa size pa key) (fun s =>
        ({ s with windows := tput s.windows n { hpa := hpa, size := size, pa := pa, key := key } }, some (.ok, [])))) ∧
    (∀ q part keys die p, tget s.parts part = some p → q < 1024 → die < 4 → keys.all p.keys.contains = true →
      tget s.eloa q = none → ∃ e : EloaQueue, e.part = some part ∧ e.keys = keys ∧ e.die = die ∧
        e.base = 0 ∧ e.size = 0 ∧ e.enabled = false ∧ e.head = 0 ∧ e.tail = 0 ∧ e.stop = 0 ∧
        commandRuns s false 0x115 ([(4, q), (4, part)] ++ listOperands keys ++ [(4, die)]) [] (.queueBind q part keys die) (fun s =>
          ({ s with eloa := tput s.eloa q e }, some (.ok, [])))) ∧
    (∀ part base size p, tget s.parts part = some p → s.savesOf part p.saveStart = [] →
      commandRuns s false 0x116 [(4, part), (8, base), (8, size)] [] (.saveRegion part base size) (fun s =>
        ({ s with parts := tput s.parts part { p with saveBase := base, saveLen := size } }, some (.ok, [])))) ∧
    (∀ x : RingSpec, (tget s.parts x.part).isSome → ringOk x = true → s.kidsOf x.ring x.part = true → tget s.rings x.ring = none →
      commandRuns s false 0x117 (ringOperands x) [] (.ringConfig x) (fun s =>
        ({ s with rings := tput s.rings x.ring (ringAt x) }, some (.ok, [])))) ∧
    (∀ port n src st key, port < 12 → n < 16384 → key < 4096 →
      commandRuns s false 0x118 (streamOperands (.stream port n src st key)) [] (.streamTable (.stream port n src st key)) (fun s =>
        (s.modPort port (fun p => { p with stopped := false, streams := tput p.streams n { source := src, stream := st, key := key } }),
          some (.ok, [])))) ∧
    (∀ port n key ring kid customer, port < 12 → n < 4096 → 1024 ≤ kid ∨ 2 ^ 16 ≤ customer →
      commandRuns s false 0x118 (streamOperands (.key port n true key ring kid customer)) []
        (.streamTable (.key port n true key ring kid customer)) (onlyEnds .refused)) ∧
    (∀ port n key ring kid customer, port < 12 → n < 4096 → ring / 256 = port / 3 → kid < 1024 → customer < 2 ^ 16 →
      (∀ r p, tget s.rings ring = some r → tget s.parts r.part = some p → kid ∈ p.keys) →
      (∀ r, tget s.rings ring = some r → (tget s.parts r.part).isSome) →
      commandRuns s false 0x118 (streamOperands (.key port n true key ring kid customer)) []
        (.streamTable (.key port n true key ring kid customer)) (fun s =>
        (s.modPort port (fun p => { p with stopped := false, keys := tput p.keys n { key := key, ring := ring, kid := kid, customer := customer } }),
          some (.ok, [])))) ∧
    (∀ x : ChannelSpec, (tget s.parts x.part).isSome → s.channelOk x = true →
      ∃ ch : Channel, ch.part = x.part ∧ ch.base = x.base ∧ ch.len = x.len ∧
        ch.hall = x.hall ∧ ch.kid = x.kid ∧ ch.key = x.key ∧ ch.count = 0 ∧ ch.error = 0 ∧ ch.notices = [] ∧
        commandRuns s false 0x119 (channelOperands x) [] (.channelConfig x) (fun s =>
          ({ s with chans := tput s.chans x.chan ch }, some (.ok, [])))) ∧
    (∀ part inst mask kind phase grace, kind ≤ 1 → grace ≤ 100000 → s.mayName part inst = true →
      commandRuns s false 0x120 [(4, part), (4, inst), (8, mask), (4, kind), (4, phase), (4, grace)] []
        (.preempt part inst mask kind phase grace) (fun s =>
        (({ s with fw := { s.fw with nextReq := s.fw.nextReq + 1 } } : State).addRequest
          { number := s.fw.nextReq, part := part, inst := inst, mask := mask, move := kind == 1, from_ := phase, grace := grace
            since := [tgetD 0 s.wall 0, tgetD 0 s.wall 1, tgetD 0 s.wall 2, tgetD 0 s.wall 3], noSpace := false },
          some (.ok, bytesLE 4 s.fw.nextReq)))) ∧
    (∀ n, (∃ r ∈ s.requests, r.number = n) →
      commandRuns s false 0x121 [(4, n)] [] (.preemptWithdraw n) (fun s => (s.dropRequest n, some (.ok, [])))) ∧
    (∀ part k p, tget s.parts part = some p → 8 ≤ k → k ≤ 16 →
      commandRuns s false 0x122 [(4, part), (4, 2 ^ k)] [] (.fairness part (2 ^ k)) (fun s =>
        ({ s with parts := tput s.parts part { p with fair := 2 ^ k } }, some (.ok, []))))

/-- R430–R434 and the commands on tenants (mailboxCommands, tenantCommands). -/
def Obligations.FirmwareCommands : Prop := mailboxCommands ∧ tenantCommands

/-- R422–R427, R376: the registers of an Eloa queue and what they read as, its doorbell, a LAUNCH record at its head when the turn is
its queue's (R425), with the notices BAD_RECORD and KEY_REFUSED, CXL.mem accesses that meet no poison, the link. An unbound queue takes no
write. The launch carries the clock of the releases that its slot holds and of what the host has written and read over CXL.mem
(log entry 42); a key id is refused of a page whichever partition it belongs to, an entry pc without a page is refused later
(log entry 18). -/
def Sys2Proof.Machine.hostQueues : Prop :=
  (∀ (s : State) q e, tget s.eloa q = some e → e.part.isSome → e.enabled = false →
    (∀ v, exec (.registerWrite q 0 v) s = .next { s with eloa := tput s.eloa q { e with base := v % 2 ^ 64 } }) ∧
    (∀ v, exec (.registerWrite q 8 v) s = .next { s with eloa := tput s.eloa q { e with size := v % 2 ^ 32 } }) ∧
    (4 ≤ e.size → e.size ≤ 12 → exec (.queueEnable q) s = .next { s with eloa := tput s.eloa q { e with
      enabled := true
      head := if e.stop ≠ 0 then e.tail else e.head
      stop := 0 } }) ∧
    (¬ (4 ≤ e.size ∧ e.size ≤ 12) → exec (.queueEnable q) s = .next { s with eloa := tput s.eloa q { e with
      enabled := true
      head := if e.stop ≠ 0 then e.tail else e.head
      stop := 1 } }) ∧
    (∀ v, exec (.qtail q v) s = .next { s with eloa := tput s.eloa q { e with tail := v % 2 ^ 32 } })) ∧
  (∀ (s : State) q e, tget s.eloa q = some e → e.part.isSome → e.enabled = true →
    (∀ o v, exec (.registerWrite q o v) s = .next { s with eloa := tput s.eloa q e }) ∧
    exec (.queueDisable q) s = .next { s with eloa := tput s.eloa q { e with enabled := false } } ∧
    (∀ v, e.stop = 0 → 2 ^ e.size ≤ v % 2 ^ 32 →
      exec (.qtail q v) s = .next { s with
        eloa := tput s.eloa q { e with tail := v % 2 ^ 32, stop := 2 }
        doorbells := s.doorbells.filter (fun b => b.1 != q) })) ∧
  (∀ (s : State) q o v, (tget s.eloa q = none →
      exec (.registerWrite q o v) s = .next s ∧ exec (.queueEnable q) s = .next s ∧ exec (.queueDisable q) s = .next s ∧
      exec (.qtail q v) s = .next s ∧ s.queueWord q o = 0) ∧
    (∀ e, tget s.eloa q = some e → e.part = none → s.queueWord q o = 0 ∧
      ∀ i ∈ [Instr.registerWrite q o v, .queueEnable q, .queueDisable q, .qtail q v], exec i s = .next { s with eloa := tput s.eloa q e })) ∧
  (∀ (s : State) q e, tget s.eloa q = some e → e.part.isSome → e.enabled = true → e.stop = 0 →
    ∀ v, v % 2 ^ 32 < 2 ^ e.size →
      let e1 := { e with tail := v % 2 ^ 32 }
      let rung := ((s.doorbells.filter (fun b => b.1 == q)).map (·.2)).sum
      let s1 : State := { s with
        eloa := tput s.eloa q e1
        doorbells := s.doorbells ++ (if rung < e1.waiting then [(q, e1.waiting - rung)] else []) }
      exec (.qtail q v) s = .next (s1.handleDie e.die (s1.doorbells.map (·.2)).sum)) ∧
  (∀ (s : State) q e, tget s.eloa q = some e → e.part.isSome →
    s.queueWord q 0x10 = e.tail ∧ s.queueWord q 0x14 = e.head ∧
    s.queueWord q 0x18 = 1 + (if e.stop = 0 then 0 else 2) + 16 * e.stop) ∧
  (∀ (s : State) q e part b, tget s.eloa q = some e → e.part = some part → e.enabled = true → e.stop = 0 → e.waiting ≠ 0 →
    s.hasTurn q e.die = true →
    (s.slotBytes e = none → ∀ i ∈ [Instr.launch q, .cancel q], exec i s = .next { s with
      eloa := tput s.eloa q { e with stop := 3 }
      doorbells := s.doorbells.filter (fun b => b.1 != q) }) ∧
    let s1 := s.walkAll part ((tileSegs (field b 0x18 8 % 2 ^ 57) 8320).map (·.1))
    (s.slotBytes e = some b → s1.badRecord part b = true → field b 0 1 ≠ 2 →
      exec (.launch q) s = .next ((s1.notify e.die (srcOf q b) 0x30 0xFFFFFFFF).advanceHead q)) ∧
    (s.slotBytes e = some b → s1.badRecord part b = false → field b 0 1 = 1 →
      let y := s1.entryPcs e.die part (BitVec.ofNat 64 (field b 8 8))
      let s2 := y.1.walkAll part (y.2.map va57)
      (s2.keyRefused part e.keys y.2 = true →
        exec (.launch q) s = .next ((s2.notify e.die (srcOf q b) 0x31 0xFFFFFFFF).advanceHead q)) ∧
      (s2.keyRefused part e.keys y.2 = false → s2.poolFull e.die = true ∨ s2.resetting part = true →
        exec (.launch q) s = .next s2) ∧
      (s2.keyRefused part e.keys y.2 = false → s2.poolFull e.die = false → s2.resetting part = false →
        exec (.launch q) s = .next ((s2.enterPool e.die (s2.hostLaunch q part b)).advanceHead q) ∧
        (s2.hostLaunch q part b).clock = s2.slotClock q))) ∧
  (∀ (s : State) q e, tget s.eloa q = some e → ∀ d < 4, (s.slotClock q).getD d 0 =
    let a := e.base + 64 * (e.head % 2 ^ e.size)
    max (s.hostClock.getD d 0) (max ((s.mem.hostClock a 64).getD d 0) ((s.mem.sysClock a 64).getD d 0))) ∧
  (∀ (s : State) hpa n w, s.mem.linkUp = true → s.windowOf hpa n = some w →
    let pa := w.pa + (hpa - w.hpa)
    let m := s.mem.fillRange pa n w.key
    m.badTiles pa n w.key = [] → m.found = [] → ∃ t, exec (.hostMemAccess hpa n false []) s = .next t ∧ t.mem = m ∧
      t.hostRead = some (some ((tileSegs pa n).flatMap (fun p => m.atHome .stack p.1 w.key p.2)))) ∧
  (∀ (s : State) hpa n w t ts, s.mem.linkUp = true → s.windowOf hpa n = some w →
    let pa := w.pa + (hpa - w.hpa)
    let m := s.mem.fillRange pa n w.key
    m.badTiles pa n w.key = t :: ts → exec (.hostMemAccess hpa n false []) s = .next
      ({ s with mem := m.meet t, hostRead := some none } : State).containFound) ∧
  (∀ (s : State) hpa n bs w, s.mem.linkUp = true → s.windowOf hpa bs.length = some w →
    let pa := w.pa + (hpa - w.hpa)
    let s0 : State := { s with mem := s.mem.fillRange pa bs.length w.key }
    let s1 := s0.writePhys pa w.key bs
    s0.mem.badTiles pa bs.length w.key = [] → s1.mem.found = [] → exec (.hostMemAccess hpa n true bs) s =
      .next { s1 with hostClock := joinClock s1.hostClock (s1.mem.rangeClock pa bs.length) }) ∧
  (∀ s : State, exec .linkDown s = .next { s with mem := { s.mem with linkUp := false } } ∧
    exec .linkUp s = .next { s with mem := { s.mem with linkUp := true } })

/-- R344: what cancelling instance `r` makes of the state: it and its nests that have not sealed are cancelled, no point of theirs stays
reserved; each of its treads that waits in a queue is gone from every queue, and any other that has neither ended nor retired is to end
without a record; then what can be sealed is. -/
def Sys2Proof.Machine.cancelled (r : Nat) (s : State) : State :=
  let s1 := s.modRun r (fun run =>
    { run with cancel := true, nests := run.nests.map (fun n => if n.sealed then n else { n with cancel := true, reserved := [] }) })
  (((s1.treads.filter (fun t => t.2.run == r)).map (·.1)).foldl (fun s tid =>
    match tget s.treads tid with
    | none => s
    | some t =>
      if t.stage = .queued then
        { s with
          treads := tdel s.treads tid
          dies := s.dies.map (fun (p : Nat × Die) => (p.1, { p.2 with
            queue := p.2.queue.filter (· != tid)
            steal := { p.2.steal with answer := p.2.steal.answer.map (fun l => l.filter (· != tid)) } })) }
      else if t.ending.isSome ∨ t.stage = .retired then s
      else s.modTread tid (fun t => { t with cancelled := true })) s1).settle r

/-- R344, R427, R428: a CANCEL record at the head of its queue, when the turn is its queue's, cancels every running instance that it names
and removes every waiting launch that it names, whose stairway record and notice say CANCELLED; its own notice reports 0, or
NO_INSTANCE where it names nothing, and the head advances. By number it names the instance of the queue's partition, by tag the
launches of the same queue that carry the tag, waiting or admitted; an instance all of whose nests are sealed is named by neither. A
record that is not well formed is answered BAD_RECORD. The notice of a launch follows its stairway record: it waits until the done word
is performed for the die that writes it, and releases all that the die has (R381). -/
def Sys2Proof.Machine.cancelRecord : Prop :=
  (∀ (s : State) q e part b, tget s.eloa q = some e → e.part = some part → e.enabled = true → e.stop = 0 → e.waiting ≠ 0 →
    s.hasTurn q e.die = true → s.slotBytes e = some b → field b 0 1 = 2 →
    (s.badRecord part b = true →
      exec (.cancel q) s = .next ((s.notify e.die (srcOf q b) 0x30 0xFFFFFFFF).advanceHead q)) ∧
    (s.badRecord part b = false →
      let x := s.cancelTargets q part b
      let runs := x.1.foldl (fun s r => if (tget s.runs r).any (fun run => run.nests.any (fun n => !n.sealed)) then cancelled r s else s) s
      let waits := x.2.foldl (fun s p => ((s.leavePool p.1 p.2.seq).launchEnds p.1 p.2.part p.2.record 0x22 0xFFFFFFFF 0 0xFFFFFFFF
        p.2.depth p.2.src).wakeSerial p.2.header p.2.part) runs
      exec (.cancel q) s = .next ((waits.notify e.die (srcOf q b) (if x.1 = [] ∧ x.2 = [] then 0x33 else 0)
        (s.cancelNumber x.1)).advanceHead q))) ∧
  (∀ (s : State) q part b,
    let x := field b 8 8
    let mine := fun (o : Option HostSrc) => ∃ h, o = some h ∧ h.queue = q ∧ h.tag = x % 2 ^ 32
    (∀ r, r ∈ (s.cancelTargets q part b).1 ↔ ∃ run, (r, run) ∈ s.runs ∧ run.part = part ∧ (∃ n ∈ run.nests, n.sealed = false) ∧
      (x / 2 ^ 32 % 2 = 1 → mine run.src) ∧ (x / 2 ^ 32 % 2 = 0 → run.number = x % 2 ^ 32)) ∧
    (∀ d l, (d, l) ∈ (s.cancelTargets q part b).2 ↔ ∃ die, (d, die) ∈ s.dies ∧ l ∈ die.pool ∧ x / 2 ^ 32 % 2 = 1 ∧ l.part = part ∧
      mine l.src)) ∧
  (∀ (s : State) die (h : HostSrc) st n, h.notify ≠ 0 → s.mem.linkUp = true →
    let k := s.mem.clockOf die
    let t := (s.applyHost h.notify (bytesLE 4 h.tag ++ bytesLE 4 st ++ bytesLE 4 n ++ zeros 4)).stampHost h.notify 16 k k
    s.notify die h st n = (if h.msix then { t with msix := tmodD 0 t.msix h.queue (· + 1) } else t)) ∧
  (∀ (s : State) die part c st idx done num depth,
    let s1 := s.stairwayRecord die part c st idx done num depth
    s.launchEnds die part c st idx done num depth none = s1 ∧
    ∀ h, s.launchEnds die part c st idx done num depth (some h) = { s1 with reports := s1.reports ++
      [{ die := die, home := false, run := 0, nest := 0, point := [], ended := false, fault := none, flags := 0
         clock := s1.virtClock part (va57 c) 8, sequel := some (.notice h st num) }] }) ∧
  (∀ (s : State) i p h st n, s.reports[i]? = some p → p.sequel = some (.notice h st n) →
    (s.mem.covers p.die p.clock = true →
      exec (.retirementReport i) s = .next (({ s with reports := s.reports.eraseIdx i } : State).notify p.die h st n)) ∧
    (s.mem.covers p.die p.clock = false → exec (.retirementReport i) s = .next s))

/-- R422–R428, R344, R376: Eloa queues, their LAUNCH and CANCEL records, CXL.mem (hostQueues, cancelRecord). The launch clock
is log 42, what is refused of a key id log 18. -/
def Obligations.HostInterface : Prop := hostQueues ∧ cancelRecord

/-! ## Events of the machine -/

/-- R97, R98, R99, R104, R209, R211: the switches of groups and flights. FAIRNESS_TIMER and DEFERRED_SWITCH complete with the mark that
the group gives the slot up where a switch is due (the period has passed, another group is ready), no thread of the group holds a
transient value and its constrained sequence, if any, has ended or reached 64 instructions; FLIGHT_SWAP exchanges a flight that leaves
for the oldest ready pending one; ACTIVE_SET_FILL and AGING let a pending flight in, where there is room, or where it has waited
65,536 cycles, for the youngest active one (of flights that R211 does not tell apart the model takes those of log entry 63), each once
a cycle at most for a bay. What is not due changes nothing. -/
def Obligations.FlightEvents : Prop :=
  (∀ (s : State) fk x, s.resident? fk = some x → s.groupTransient x = false → s.switchDue x = true →
    (s.inSequence x = false →
      exec (.fairnessTimer fk) s = .next (s.modFlight fk (fun f => { f with gives := .timer })) ∧
      exec (.deferredSwitch fk) s = .next (s.modFlight fk (fun f => { f with gives := .timer }))) ∧
    (s.inSequence x = true → 64 ≤ x.fl.tally →
      exec (.deferredSwitch fk) s = .next (s.modFlight fk (fun f => { f with gives := .timer }))) ∧
    (s.inSequence x = true → exec (.fairnessTimer fk) s = .next s)) ∧
  (∀ (s : State) fk x, s.resident? fk = some x →
    (x.fl.timer < s.fairPeriod x.tr.part ∨ s.groupTransient x = true ∨
      (∀ p ∈ s.readyLanes fk, s.together fk x.fl.lead p.1 = true ∧ p.1 < 8) ∨ x.fl.hint.isSome = true) →
    x.fk = fk → exec (.fairnessTimer fk) s = .next s ∧ exec (.deferredSwitch fk) s = .next s) ∧
  (∀ (s : State) core bay, tget s.moved (8 * core + bay) ≠ some (tgetD 0 s.cycles (core / 48)) →
    let once := fun (t : State) => { t with moved := tput t.moved (8 * core + bay) (tgetD 0 s.cycles (core / 48)) }
    (∀ x y, s.swapOut (s.bayFlights core bay) = some x → s.pendingReady (s.bayFlights core bay) = some y →
      exec (.flightSwap core bay) s = .next (once ((s.toPending core x.fk).toActive y.fk))) ∧
    (∀ y, s.activeRoom core bay = true → s.pendingReady (s.bayFlights core bay) = some y →
      exec (.activeSetFill core bay) s = .next (once (s.toActive y.fk))) ∧
    (∀ x y,
      leastBy Resident.older ((s.bayFlights core bay).filter (fun x => !x.fl.active && s.canIssue x &&
        decide (x.fl.since + 65536 ≤ tgetD 0 s.cycles (core / 48)))) = some y →
      leastBy (fun a b => Resident.older b a) ((s.bayFlights core bay).filter s.movable) = some x →
      exec (.aging core bay) s = .next (once ((s.toPending core x.fk).toActive y.fk)))) ∧
  (∀ (s : State) core bay, tget s.moved (8 * core + bay) = some (tgetD 0 s.cycles (core / 48)) →
    ∀ i ∈ [Instr.flightSwap core bay, .activeSetFill core bay, .aging core bay], exec i s = .next s) ∧
  (∀ (s : State) core bay,
    (∀ x ∈ s.bayFlights core bay, x.fl.active = false → tgetD 0 s.cycles (core / 48) < x.fl.since + 65536) →
    exec (.aging core bay) s = .next s) ∧
  (∀ (s : State) core fk f, tget s.flights fk = some f →
    tget (s.toActive fk).flights fk = some { f with active := true } ∧
    tget (s.toPending core fk).flights fk =
      some { f with active := false, advice := false, since := tgetD 0 s.cycles (core / 48) } ∧
    ∀ k, k ≠ fk → tget (s.toActive fk).flights k = tget s.flights k ∧ tget (s.toPending core fk).flights k = tget s.flights k)

/-- R327–R331, R339: B0_UPDATE, WATERMARK_UPDATE, REMOTE_LOOKUP, LOOKUP_ANSWER, ROW_OPEN and TREAD_RELEASE complete: a die learns the
bound and the watermark, asks about a point and is answered, opens the next row, releases the next point. -/
def Sys2Proof.Machine.releaseEvents : Prop :=
  (∀ (s : State) r j run n die, s.nest? r j = some (run, n) → die < 4 →
    exec (.b0Update die r j) s = .next (s.modView die r j (fun v => { v with b0 := n.b0 })) ∧
    exec (.watermarkUpdate die r j) s = .next ((s.modView die r j (fun v => { v with w := n.w })).freeSlots die r j) ∧
    (∀ q, s.mayAsk die r j run n q = true → exec (.remoteLookup die r j q) s = .next { s with
      lookups := s.lookups ++ [{ die := die, run := r, nest := j, point := q, stage := .asked }] })) ∧
  (∀ (s : State) i l run n, s.lookups[i]? = some l → s.nest? l.run l.nest = some (run, n) →
    s.retiredAt (n.desc.owner run.die (n.desc.keyOf l.point)) l.run l.nest run n l.point = true →
    exec (.lookupAnswer i) s = .next (({ s with lookups := s.lookups.eraseIdx i } : State).modView l.die l.run l.nest
      (fun v => { v with yes := v.yes ++ [l.point] }))) ∧
  (∀ (s : State) die r j k rest run n, die < 4 → (s.die die).rows.length < 1024 → s.openable die = (r, j, k) :: rest →
    s.nest? r j = some (run, n) →
    let b := n.desc.inner (s.view die r j run n).b0 k
    exec (.rowOpen die) s = .next ((s.modDie die (fun y => { y with
      rows := y.rows ++ [{ run := r, nest := j, key := k, lo := b.1, hi := b.2, pre := 0, done := 0, out := 0, count := 0, opened := true }] })).modView
        die r j (fun v => { v with last := some k }))) ∧
  (∀ (s : State) die c run n, (s.die die).queue.length < 1024 → s.nextRelease die = some c → s.nest? c.run c.nest = some (run, n) →
    ∃ t, exec (.treadRelease die) s = .next t ∧ t.nextKey = s.nextKey + 1 ∧
      tget t.treads s.nextKey = some (freshTread c run n die (s.die die).releases) ∧ s.nextKey ∈ (t.die die).queue)

/-- R326, R332, R333, R352: DISPATCH resumes what a move request has taken off its cores ahead of the queue, where a core fits it, and
else has it wait in the queue; then it places the oldest tread of the queue, a fresh one where it fits; STEAL_REQUEST asks the next die, and the
die asked hands over up to eight treads; STEAL_ANSWER takes them, or counts an empty answer and, after three, waits; STEAL_BACKOFF ends the
wait of 256 cycles; ADMISSION begins and ends the admission of the next launch, and answers an unaligned header with IMAGE_FAULT.
Which treads a steal may take, and which core a resumption leaves out after a move request, is read into the rules (log entries
26, 25); that a span counts as placed
on its last core is the model's choice (log entry 93). -/
def Sys2Proof.Machine.dispatchEvents : Prop :=
  (∀ (s : State) die tid rest t n ps, s.movers die = [] → (s.die die).queue = tid :: rest → tget s.treads tid = some t → s.nestOf t = some n →
    t.ending = none → t.cancelled = false → t.stage = .queued → s.mem.covers die t.needs = true → n.desc.cls ≠ 2 →
    s.findPlace die (s.die die).lastCore t.part t.span n.desc.header.regs n.desc.header.flights
      (n.desc.header.hall + n.desc.header.recordLen) = some ps →
    exec (.dispatch die) s = .next (((((s.dequeue die tid).modNest t.run t.nest (fun n => n.takePlaces t.point)).startTread n.desc tid ps
      [0, 0, 0, 0]).placedOn die (ps.map (·.core))))) ∧
  (∀ (s : State) die tid rest t n, s.movers die = tid :: rest → tget s.treads tid = some t → s.nestOf t = some n →
    (∀ s1, s.dispatchResumed die tid t n = some s1 → exec (.dispatch die) s = .next s1) ∧
    (s.dispatchResumed die tid t n = none → rest = [] →
      let s1 := if s.mem.covers die t.needs ∧ n.desc.cls ≠ 2 then s.modTread tid (fun t => { t with atOnce := false }) else s
      exec (.dispatch die) s = .next (s1.dispatchFrom die (s1.die die).queue))) ∧
  (∀ (s : State) die tid, tid ∈ s.movers die ↔ tid ∈ (s.die die).queue ∧
    ∃ t, tget s.treads tid = some t ∧ t.atOnce = true ∧ t.ending = none ∧ t.cancelled = false) ∧
  (∀ (s : State) die tid rest t n s1, s.movers die = [] → (s.die die).queue = tid :: rest → tget s.treads tid = some t → s.nestOf t = some n →
    t.ending = none → t.cancelled = false → s.dispatchEntry die tid t n = some s1 → exec (.dispatch die) s = .next s1) ∧
  (∀ (s : State) die, die < 4 → (s.die die).queue = [] → (s.die die).steal = Steal.idle →
    exec (.stealRequest die) s = .next (s.modDie die (fun y => { y with steal := { y.steal with asked := some (ringNext die) } }))) ∧
  (∀ (s : State) die v, (s.die die).steal.asked = some v → (s.die die).steal.answer = none →
    let ts := ((s.die v).queue.filter (s.stealable die)).take 8
    exec (.stealRequest die) s = .next ((s.modDie v (fun d => { d with queue := d.queue.filter (fun k => !ts.contains k) })).modDie die
      (fun d => { d with steal := { d.steal with answer := some ts } }))) ∧
  (∀ (s : State) die, (s.die die).steal.answer = some [] → exec (.stealAnswer die) s = .next (s.modDie die (fun y => { y with
    steal := { empties := (y.steal.empties + 1) % 3, asked := none, answer := none,
               backoff := if y.steal.empties + 1 = 3 then some (tgetD 0 s.cycles die) else none } }))) ∧
  (∀ (s : State) die t ts, (s.die die).steal.answer = some (t :: ts) →
    exec (.stealAnswer die) s = .next ((t :: ts).foldl (fun s k => s.takeStolen die k) (s.modDie die (fun y => { y with steal := Steal.idle })))) ∧
  (∀ (s : State) die c, (s.die die).steal.backoff = some c → c + 256 ≤ tgetD 0 s.cycles die →
    exec (.stealBackoff die) s = .next (s.modDie die (fun y => { y with steal := Steal.idle }))) ∧
  (∀ (s : State) die l, (s.die die).nextLaunch = some l →
    (l.gen = none → exec (.admission die) s = .next (s.beginAdmission die l)) ∧
    (∀ g, l.gen = some g → exec (.admission die) s = .next (s.endAdmission die l g)) ∧
    (l.gen = none → l.header.toNat % 256 ≠ 0 → exec (.admission die) s = .next (s.failLaunch die l Admit.imageFault.code 0xFFFFFFFF)))

/-- R348, R350, R352–R355: GRACE_EXPIRY, PHASE_SPILL and FORCED_SAVE complete, alone or, in a concurrent nest, for all that are
pre-empted together: a tread whose grace has passed is to be saved, one at its boundary is spilled, one to be saved cancels what is open
and, once drained, is saved into the areas allocated. What a request has so taken off its cores goes to the queue of its die, to
resume at once on another core, where the request moves, and is parked where it does not. -/
def Sys2Proof.Machine.leaveEvents : Prop :=
  ∀ (s : State) tid t, tget s.treads tid = some t →
    (t.stage = .running → (s.overdue t).isSome → s.finished t = false → s.concurrent t = false →
      (s.atBoundary t = false → exec (.graceExpiry tid) s = .next (s.modTread tid (fun t => { t with stage := .saving }))) ∧
      (s.atBoundary t = true → exec (.graceExpiry tid) s = .next s)) ∧
    (t.stage = .running → (s.overdue t).isSome → s.finished t = false → s.concurrent t = true →
      (∃ p ∈ s.preemptGroup tid t, s.atBoundary p.2 = false) →
      exec (.graceExpiry tid) s = .next ((s.preemptGroup tid t).foldl (fun s p => s.modTread p.1 (fun t => { t with stage := .saving })) s)) ∧
    (s.spillReady t = true → s.boundaryRequest t = none → exec (.phaseSpill tid) s = .next
      (((t.landings.foldl (fun s lid => s.spillLanding t.sbar.gen lid) s).keepPlaces t).leaveCores tid t .spilled none)) ∧
    (∀ r, s.spillReady t = true → s.boundaryRequest t = some r → s.concurrent t = false → exec (.phaseSpill tid) s = .next
      (((t.landings.foldl (fun s lid => s.spillLanding t.sbar.gen lid) (s.countPreempt t r)).keepPlaces t).leaveCores tid t .spilled (some r))) ∧
    (∀ r, s.spillReady t = true → s.boundaryRequest t = some r → s.concurrent t = true →
      (∀ p ∈ s.preemptGroup tid t, s.spillReady p.2 = true ∧ (s.boundaryRequest p.2).isSome = true) →
      exec (.phaseSpill tid) s = .next ((s.preemptGroup tid t).foldl (fun s p => s.spillTread p.1 p.2 (some r)) s)) ∧
    (t.stage ≠ .saving → exec (.forcedSave tid) s = .next s) ∧
    (t.stage = .saving → t.ending = none → t.cancelled = false → s.concurrent t = false → s.stopped_ t = true →
      ((s.cancelOpen t).saveDrained t = false → exec (.forcedSave tid) s = .next (s.cancelOpen t)) ∧
      (∀ r p offs, (s.cancelOpen t).saveDrained t = true → (s.cancelOpen t).overdue t = some r →
        tget (s.cancelOpen t).parts t.part = some p →
        allocSaves p.saveRoom ((s.cancelOpen t).saveLens t.landings) ((s.cancelOpen t).savesOf t.part p.saveStart) = some offs →
        exec (.forcedSave tid) s = .next
          ((s.cancelOpen t).saveTread (t.landings.zip (offs.map (p.saveStart + ·))) r tid t))) ∧
    (∀ stage (r : Preempt),
      (r.move = true → s.leaveCores tid t stage (some r) = (s.modTread tid (fun x => { x with
        stage := stage, avoid := (s.headLanding t).map (·.core), atOnce := true })).enqueue t.die tid) ∧
      (r.move = false → s.leaveCores tid t stage (some r) = s.modTread tid (fun x => { x with stage := .parked })) ∧
      s.leaveCores tid t stage none = (s.modTread tid (fun x => { x with stage := stage, avoid := none, atOnce := false })).enqueue t.die tid)

/-- R334–R336, R340, R342, R382: TREAD_RETIRE, RETIREMENT_REPORT and RAISE_APPLY complete: a finished, drained tread frees what it holds and
sends its two reports; the owner die marks the point, the home die counts it and seals; the copy of a seal's done word follows once
record and done word are performed; a raise drains and is applied. -/
def Sys2Proof.Machine.retireEvents : Prop :=
  (∀ (s : State) tid t, tget s.treads tid = some t →
    (t.stage = .running ∨ t.stage = .saving ∨ t.stage = .spilled ∨ t.stage = .parked ∨ t.stage = .saved → s.finished t = true →
      (∀ p ∈ s.treadFlights t, s.drained t p.1 p.2 = true) →
      let fs := s.treadFlights t
      let homeDie := match tget s.runs t.run with
        | some r => r.die
        | none => t.owner
      let own : Report := { die := t.owner, home := false, run := t.run, nest := t.nest, point := t.point, ended := t.ending.isSome,
                            fault := t.ending, flags := fs.foldl (fun (b : BitVec 5) (p : Nat × Flight) => b ||| s.flagsOf t p.1 p.2) 0,
                            clock := s.retireClock t }
      let s1 := t.landings.foldl (fun s lid => match tget s.landings lid with
        | some l => s.dropLatches l.core lid
        | none => s) ((fs.foldl (fun s p => s.unbindAll p.1) s).releaseTreadClaims tid)
      let s2 := ({ s1 with
        reports := s1.reports ++ [own, { own with die := homeDie, home := true }]
        dies := s1.dies.map (fun (p : Nat × Die) => (p.1, { p.2 with queue := p.2.queue.filter (· != tid) })) } : State).modNest t.run t.nest
          (fun n => { n with past := n.past ++ [(t.point, own.clock)] })
      exec (.treadRetire tid) s = .next
        ((t.landings.filterMap (fun lid => (tget s.landings lid).map (·.core))).eraseDups.foldl (fun s core =>
          (s.landings.filter (fun p => p.2.core == core)).foldl (fun s p => s.freeTailed p.1) s)
          (if fs.all (fun p => p.2.cMx.value == 0) then s2.removeTread tid t
           else s2.modTread tid (fun t => { t with stage := .retired })))) ∧
    ((t.stage = .running ∧ s.finished t = false ∨
      t.stage ≠ .retired ∧ t.stage ≠ .queued ∧ (∃ p ∈ s.treadFlights t, s.drained t p.1 p.2 = false)) →
      exec (.treadRetire tid) s = .next (t.landings.foldl (fun s lid => (s.freeExited lid).freeTailed lid) s))) ∧
  (∀ (s : State) i p run n, s.reports[i]? = some p → p.sequel = none → p.home = true → tget s.runs p.run = some run → run.nests[p.nest]? = some n →
    s.reportReady i run n p = true →
    exec (.retirementReport i) s = .next ((((({ s with reports := s.reports.eraseIdx i } : State).modNest p.run p.nest (fun n => n.take p)).freeSlots
      run.die p.run p.nest).settle p.run).dropRun p.run)) ∧
  (∀ (s : State) i p run n, s.reports[i]? = some p → p.sequel = none → p.home = false → tget s.runs p.run = some run → run.nests[p.nest]? = some n →
    exec (.retirementReport i) s = .next ((({ s with reports := s.reports.eraseIdx i } : State).modDie p.die (fun d =>
      d.modSlot p.run p.nest (n.desc.keyOf p.point) (fun x => x.retire (p.point.getD (n.desc.depth - 1) 0 - x.lo).toNat))).dropRun p.run)) ∧
  (∀ (s : State) r j run n, s.nest? r j = some (run, n) →
    let s1 := s.nestRecord run j n
    let ck := s1.virtClock run.part (run.recordOf j) 8
    let s2 := if n.desc.signal = 0 then s1 else { s1 with reports := s1.reports ++
      [{ die := run.die, home := false, run := 0, nest := 0, point := [], ended := false, fault := none, flags := 0, clock := ck
         sequel := some (.copy run.part (va57 n.desc.signal) n.status) }] }
    s.sealOne r j = (s2.modNest r j (fun n => { n with
      sealed := true, live := true, leases := [], reserved := [], doneClock := ck })).forgetNest r j) ∧
  (∀ (s : State) i p part a status, s.reports[i]? = some p → p.sequel = some (.copy part a status) →
    (s.mem.covers p.die p.clock = true → s.homesCover part a 8 (s.mem.clockOf p.die) = true →
      exec (.retirementReport i) s = .next (({ s with reports := s.reports.eraseIdx i } : State).writeVirt (some (s.mem.clockOf p.die)) part a
        (bytesLE 8 (2 ^ 63 + status)))) ∧
    (s.mem.covers p.die p.clock = false ∨ s.homesCover part a 8 (s.mem.clockOf p.die) = false →
      exec (.retirementReport i) s = .next s)) ∧
  (∀ (s : State) i q run n c op, s.raises[i]? = some q → s.nest? q.run q.target = some (run, n) → q.op = some op →
    (q.clock = none → s.raiseDrains q = some c →
      exec (.raiseApply i) s = .next { s with raises := s.raises.set i { q with clock := some c } }) ∧
    (q.clock = some c → s.mem.covers run.die c = true → (n.sealed = true → s.homesCover run.part (run.recordOf q.target) 8 (s.mem.clockOf run.die) = true) →
      exec (.raiseApply i) s = .next (s.applyRaise i q run.die n))) ∧
  (∀ (s : State) i q run n, s.raises[i]? = some q → s.nest? q.run q.target = some (run, n) → q.op = none → s.behindReport q = true →
    (n.sealed = true → s.homesCover run.part (run.recordOf q.target) 8 (s.mem.clockOf run.die) = true) →
    exec (.raiseApply i) s = .next (s.applyRaise i q run.die n)) ∧
  (∀ n x, n.sealed = false → raiseOutcome n (.max x) = if n.b0 < x then (some x, 0) else (none, 1))

/-- R326–R336, R339–R342, R348–R355: the steps of the Stairwells: releases, placement, pre-emption, retirement. -/
def Obligations.StairwellEvents : Prop := releaseEvents ∧ dispatchEvents ∧ leaveEvents ∧ retireEvents

/-- R258, R260, R273, R274, R278, R279, R287: MMA_COMPLETE, ACC_COMPLETE, CLA_COMMAND_START, CLA_EVAL_COMPLETE, CLA_SWEEP_END and
CLA_IMAGE_COMPLETE complete: the operation at the front of its engine has its effect and posts its entry. That
matrix, accumulator and Colonnade operations have their whole effect in the step that completes them is read into the rules (log
entry 9); how a Colonnade's errors spread is in log entry 87. -/
def Sys2Proof.Machine.coreEngineEvents : Prop :=
  (∀ (s : State) core op rest, tgetD [] s.mxq core = op :: rest →
    let x := runAcc op { s with mxq := tputD [] s.mxq core rest }
    let ends := fun (cls : Nat) (slot : Word) => op.ops.foldl (fun s p =>
      let s2 := s.orEngineFlags p.1 x.2
      let s3 := if (tget s2.flights p.1).any (fun f => (f.endpoint cls).space == 0) then s2
        else s2.postEntry p.1 cls op.who.spell false { slots := slot :: List.replicate 7 0, valid := 3 }
      s3.completeEng p.1 .mx p.2 x.1.clock) ((x.1.settle op.who).noteTile op)
    (∀ fn, op.kind = .mma fn → exec (.mmaComplete core) s = .next (ends 0 (BitVec.ofNat 32 op.tile))) ∧
    (op.kind = .zero ∨ op.kind = .ld ∨ op.kind = .st ∨ op.kind = .rd → exec (.accComplete core) s = .next (ends 1 (BitVec.ofNat 32 op.tile))) ∧
    (op.kind = .tab → exec (.accComplete core) s = .next (ends 1 0xFFFFFFFF))) ∧
  (∀ (s : State) core cmd cmds, (s.clac core).cmds = cmd :: cmds →
    (cmd.started = false → exec (.claCommandStart core) s = .next (s.modClac core (fun a => { a with cmds := startCmd a cmd :: cmds }))) ∧
    (cmd.kind = .eval → cmd.started = true → exec (.claEvalComplete core) s = .next
      (((s.modClac core (fun a => { a with cmds := cmds })).postResult cmd.who (if cmd.spoiled then errorEntry
        else { slots := cmd.slots.drop 1, valid := (cmd.slots.headD 0).truncate 8 })).completeEng cmd.who.fk .mx cmd.op [0, 0, 0, 0])) ∧
    (cmd.kind = .feed → cmd.started = true → cmdError cmd = false → cmd.spoiled = false →
      let r := runFeed { s.clac core with cmds := cmds } cmd
      exec (.claSweepEnd core) s = .next
        (((s.modClac core (fun _ => r.1)).postResult cmd.who (voteEntry r.2)).completeEng cmd.who.fk .mx cmd.op [0, 0, 0, 0])) ∧
    (cmd.kind = .st → cmd.started = true →
      let k := match cmd.space with
        | .hall => (Work.start (s.modClac core (fun a => { a with cmds := cmds }))).writeHall
            ((s.modClac core (fun a => { a with cmds := cmds })).reach cmd.who 0) cmd.addr cmd.image
        | _ => (Work.start (s.modClac core (fun a => { a with cmds := cmds }))).writeGlobal
            ((s.modClac core (fun a => { a with cmds := cmds })).reach cmd.who 0) (canon (BitVec.ofNat 64 cmd.addr)) cmd.image
      exec (.claImageComplete core) s = .next
        (((k.settle cmd.who).dropRange core cmd.who.fk cmd.op).completeEng cmd.who.fk .cp cmd.op k.clock)) ∧
    (cmd.kind = .ld → cmd.started = true →
      let x := readImage (s.modClac core (fun a => { a with cmds := cmds })) cmd (imageLen cmd.cfg)
      x.1.err = none → exec (.claImageComplete core) s = .next ((x.1.st.modClac core (fun a =>
        { a with counters := loadImage a.rest cmd.cfg a.counters x.2, plane := planeOf (loadImage a.rest cmd.cfg a.counters x.2),
                 other := planeOf (loadImage a.rest cmd.cfg a.counters x.2), failed := cmd.finder && a.failed })).completeEng
          cmd.who.fk .cp cmd.op x.1.clock)) ∧
    (cmd.kind = .ld → cmd.started = true →
      let x := readImage (s.modClac core (fun a => { a with cmds := cmds })) cmd (imageLen cmd.cfg)
      x.1.err.isSome → exec (.claImageComplete core) s = .next (((x.1.settle cmd.who).modClac core (fun a =>
        if cmd.spoiled then { a with cmds := spoil a.cmds } else a)).completeEng cmd.who.fk .cp cmd.op x.1.clock)) ∧
    (cmd.kind = .tab → cmd.started = true →
      let x := readImage (s.modClac core (fun a => { a with cmds := cmds })) cmd 64
      x.1.err = none → exec (.claImageComplete core) s = .next ((x.1.st.modClac core (fun a =>
        { a with table := tableOf (wordsLE x.2) })).completeEng cmd.who.fk .mx cmd.op x.1.clock)))

/-- R297, R299, R300, R307, R308, R458: COPY_COMPLETE, CREDIT_GRANT, HPOST_COMPLETE, COLL_ACK and COLL_RETRY_EXHAUSTED complete: a copy
moves and posts its status, a request receives credits, a post arrives at its queue, a collective operation is answered. -/
def Sys2Proof.Machine.clusterEvents : Prop :=
  (∀ (s : State) core i op, (tgetD [] s.copies core)[i]? = some op → (∀ r, op.kind ≠ .send r) →
    exec (.copyComplete core i) s = .next
      (finishCopy op (runCopy op { s with copies := tputD [] s.copies core ((tgetD [] s.copies core).eraseIdx i) }))) ∧
  (∀ (s : State) base h r rs, tget s.hqueues base = some h → h.reqs = r :: rs →
    let g := min (max h.batch r.need) h.pool
    exec (.creditGrant base) s = .next ((s.modHq base (fun h => { h with
      pool := h.pool - g
      reqs := if r.need ≤ g then rs else { r with need := r.need - g } :: rs })).modQ r.fk r.q (fun x => { x with credit := x.credit + g }))) ∧
  (∀ (s : State) p h, s.posts = [p] → s.releasedUpto p.who.fk p.lanes p.upto = true →
    s.mem.covers (p.who.core / 48) p.clock = true → h.made = p.made →
    let s1 := ({ s with posts := [] } : State).completeOp p.who.fk .st p.op
    tget s.hqueues p.base = some h →
    exec (.hpostComplete 0) s = .next (((placeEntries h p.base h.tail p.entries s1).modHq p.base (fun h => { h with
      tail := h.tail + p.entries.length })).serveHq p.base (h.takers.length + 1))) ∧
  (∀ (s : State) core i op a, (tgetD [] s.copies core)[i]? = some op → op.sent.isSome →
    (s.chanServes op.chan = true →
    (∀ fl, op.kind ≠ .send (some 1) → exec (.collAck core i (.applied fl)) s = .next (s.endSend core i op)) ∧
    (∀ fl, op.kind = .send (some 1) → exec (.collAck core i (.applied fl)) s = .next ((s.orEngineFlags op.who.fk fl).endSend core i op)) ∧
    (a ∈ [1, 2, 4] → exec (.collAck core i (.refused a)) s = .next ((s.modChan op.chan (fun x => { x with error := a })).endSend core i op))) ∧
    (s.chanServes op.chan = false → ∀ y, exec (.collAck core i y) s = .next s) ∧
    exec (.collRetryExhausted core i) s = .next ((s.modChan op.chan (fun x => { x with error := 3 })).endSend core i op))

/-- R439, R443–R448, R458, R459: COLL_MESSAGE, PACKET_RECEIVE, WIRE_RECORD, PORT_LINK_DOWN and PORT_LINK_UP complete: a message is
applied, and noticed once it is performed, and is left by a port that is down or has stopped; a packet joins its message in the receive
buffer, or is discarded with a count or left; a message that comes whole in one packet gives its records; a record is counted, dropped
with its cause, placed in its ring, or resets it. A packet that finds the buffer full is discarded with a count when it is unreliable and
left when it is reliable; that nothing held gives way to it is the model's choice (log entry 76). -/
def Sys2Proof.Machine.fabricEvents : Prop :=
  (∀ (s : State) die m ch, tget s.chans (256 * die + m.chan) = some ch → s.oversized ch m = false → s.takesMessage ch m = true →
    ch.earlyOf m = { msg := m, units := [], clock := [0, 0, 0, 0] } →
    let r := (CollMessage.units m).foldl (applyUnit ch m.red) (s, 0, [0, 0, 0, 0])
    exec (.collMessage die m) s = .next ((r.1.modChan (256 * die + m.chan) (fun ch => { ch with
      early := ch.early.filter (fun y => y.msg != m) ++
        [{ msg := m, units := List.range (CollMessage.units m).length, clock := r.2.2 }] })).noticeMessage die m r.2.2)) ∧
  (∀ (s : State) die m ck ch, tget s.chans (256 * die + m.chan) = some ch →
    (s.mem.covers die ck = true → ch.notices.length < 256 →
      s.noticeMessage die m ck = (s.modChan (256 * die + m.chan) (fun ch => { ch with
        count := ch.count + 1
        notices := ch.notices ++ [{ offset := m.offset, len := m.bytes.length, red := m.red.isSome, status := 0, clock := ck }]
        clock := joinClock ch.clock ck, early := ch.early.filter (fun y => y.msg != m) })).serveChan (256 * die + m.chan) (ch.waiters.length + 1)) ∧
    (s.mem.covers die ck = false ∨ 256 ≤ ch.notices.length → s.noticeMessage die m ck = s)) ∧
  (∀ (s : State) die m ch, tget s.chans (256 * die + m.chan) = some ch →
    (s.oversized ch m = true → exec (.collMessage die m) s = .next (s.modPort ch.port (fun x => { x with discards := x.discards + 1 }))) ∧
    (s.oversized ch m = false → s.takesMessage ch m = false → exec (.collMessage die m) s = .next s) ∧
    ((s.port ch.port).linkUp = false ∨ (s.port ch.port).stopped = true → exec (.collMessage die m) s = .next s)) ∧
  (∀ (s : State) port (p : Packet),
    ((s.port port).linkUp = false ∨ (s.port port).stopped = true → exec (.packetReceive port p) s = .next s) ∧
    ((s.port port).linkUp = true → (s.port port).stopped = false →
      (packetOk p = false → exec (.packetReceive port p) s = .next (s.modPort port (fun x => { x with discards := x.discards + 1 }))) ∧
      (packetOk p = true → p.rud = true → s.contextFor port p.source = false → exec (.packetReceive port p) s = .next s) ∧
      (packetOk p = true → (p.rud = true → s.contextFor port p.source = true) →
        ((s.port port).held + p.body.length ≤ 4 * 2 ^ 20 → exec (.packetReceive port p) s = .next (s.modPort port (fun x => x.take p))) ∧
        (4 * 2 ^ 20 < (s.port port).held + p.body.length → exec (.packetReceive port p) s = .next
          (if p.uud then s.modPort port (fun x => { x with discards := x.discards + 1 }) else s))))) ∧
  (∀ (x : Port) (p : Packet), (∀ m ∈ x.messages, m.source ≠ p.source) → p.offset = 0 → p.body.length = p.message →
    (x.take p).messages = x.messages ∧
    (x.take p).buffer = x.buffer ++ (recordsGo p.source true (p.body.length / 36 + 1) p.body).1) ∧
  (∀ (s : State) port w ws, (s.port port).buffer = w :: ws → (s.port port).stopped = false →
    (∀ e, (s.port port).entryOf w = some e → w.complete = false ∨ tget s.rings e.ring = none) →
    exec (.wireRecord port) s = .next ((s.modPort port (fun p => { p with buffer := ws })).modPort port (fun p => { p with
      unclass := p.unclass + 1 }))) ∧
  (∀ (s : State) port w ws e r, (s.port port).buffer = w :: ws → (s.port port).stopped = false → (s.port port).entryOf w = some e →
    w.complete = true → tget s.rings e.ring = some r → s.resetting r.part = false →
    let s2 := (s.modPort port (fun p => { p with buffer := ws })).modRing e.ring (fun r => { r with kid := e.kid })
    ((w.overrun || decide (8176 < w.len) || w.reserved || (w.reset && w.len != 0)) = true →
      exec (.wireRecord port) s = .next ((s2.modRing e.ring (fun r => r.drop w.len .malformed)).ringStep e.ring)) ∧
    ((w.overrun || decide (8176 < w.len) || w.reserved || (w.reset && w.len != 0)) = false →
      (w.authentic e.key = false → exec (.wireRecord port) s = .next ((s2.modRing e.ring (fun r => r.drop w.len .auth)).ringStep e.ring)) ∧
      (w.authentic e.key = true → w.reset = true → exec (.wireRecord port) s = .next ((s2.ringReset e.ring).ringStep e.ring)) ∧
      (w.authentic e.key = true → w.reset = false →
        exec (.wireRecord port) s = .next ((s2.place e.ring (w.plain e.key)).ringStep e.ring)))) ∧
  (∀ (s : State) port, exec (.portLinkDown port) s = .next (s.modPort port (fun x => { x with linkUp := false })) ∧
    exec (.portLinkUp port) s = .next (s.modPort port (fun x => { x with linkUp := true })))

/-- R258–R308, R439–R459: the engines of the cores and clusters and the fabric. -/
def Obligations.EngineEvents : Prop := coreEngineEvents ∧ clusterEvents ∧ fabricEvents

/-- R313, R402, R408, R414–R416, R418–R420, R431–R435, R344, R316: the memory's own events, boot, power and debug.
The clock that the expiry of a debug token is measured on, and that a lapse lets what its session has halted go on, are the model's
choice (log entry 33), as are the code lines and pins that a migration drops (log entry 91); when the draw caps the clock, and that
a migrated page has its contents in every view, is read into the rules (log entries 36, 44). -/
def Obligations.PackageEvents : Prop :=
  (∀ (s0 : State) tile key prio v f,
    let s : State := { s0 with mem := s0.mem.serveWriteBacks }
    s.mem.fills.find? (fun f => f.kind == .fill && f.tile == tile && f.key == key) = some f → s.mem.resident? tile key = none →
    (s.mem.bankServes tile key = true →
      let m := s.mem.countHit (s.mem.queueWriteBacks ((s.mem.suffer tile v).fillFor f.by_ tile key f.prio) tile key) tile key
      exec (.galleryFill tile key prio v) s0 = .next ({ s with mem := { m with
        fills := m.fills.filter (fun g => !(g.kind == .fill && g.tile == tile && g.key == key)) } } : State).containFound) ∧
    (s.mem.bankServes tile key = false → exec (.galleryFill tile key prio v) s0 = .next s)) ∧
  (∀ m : Memory, (∀ f ∈ m.fills, f.kind ≠ .writeBack) → m.serveWriteBacks = m) ∧
  (∀ (m : Memory) t, m.rowIsOpen t = false → (m.activate t).acts = tmodD 0 m.acts t (· + 1) ∧
    (m.activate t).throttled = if tgetD 0 m.acts t + 1 = 2048 then m.throttleRows t else m.throttled) ∧
  (∀ (s : State) row key, (row, key) ∉ s.mem.throttled → s.mem.overActive row key = true →
    exec (.rowThrottle row key) s = .next { s with mem := { s.mem with throttled := s.mem.throttled ++ [(row, key)] } }) ∧
  (∀ (s : State) row key, exec (.throttleRelease row key) s = .next { s with mem := { s.mem with
    throttled := s.mem.throttled.filter (· != (row, key)) } }) ∧
  (∀ (s : State) key tile, (s.mem.keyOf key).state = .rotating → namesOldSlot key (s.mem.keyOf key) (s.mem.metaOf tile) = true →
    let gone : Memory := { s.mem with fills := s.mem.fills.filter (· != sweepReq tile key) }
    (s.mem.sweepServed tile key = true →
      exec (.rotationSweep key tile) s = .next ({ s with mem := (gone.sweepTile tile key).endRotation key } : State).containFound) ∧
    (s.mem.sweepServed tile key = false → sweepReq tile key ∉ s.mem.fills →
      exec (.rotationSweep key tile) s = .next ({ s with mem := { s.mem with
        fills := s.mem.fills ++ [sweepReq tile key] } } : State).containFound)) ∧
  (∀ (m : Memory) tile key, m.sweepServed tile key = true ↔ m.bankQueue tile = [] ∨ (m.bankQueue tile).head? = some (sweepReq tile key)) ∧
  (∀ (s : State) key tile, (s.mem.keyOf key).state = .assigned → s.mem.seesExhausted key tile = true →
    exec (.rotationSweep key tile) s = .next (s.rotateKey key).containFound) ∧
  (∀ (s : State) key tile, (s.mem.keyOf key).clearing = true → unclear key (s.mem.keyOf key) (s.mem.metaOf tile) = true →
    ∃ t, exec (.backgroundClear key tile) s = .next t ∧ (t.mem.metaOf tile).unwritten = true) ∧
  (∀ (s : State) key, (s.mem.keyOf key).state = .scrubbing → ∃ t, exec (.scrub key) s = .next t ∧
    (t.mem.keyOf key).gen = 0 ∧ (t.mem.keyOf key).part = (s.mem.keyOf key).part ∧
    (t.mem.keyOf key).state = if (s.mem.keyOf key).part.isSome then .assigned else .free) ∧
  (∀ (s0 : State) part va tile, (s0.virtWalk part va).virtPage part va = none →
    exec (.pageMigration part va tile) s0 = .next (s0.virtWalk part va).containFound) ∧
  (∀ (s0 s : State) part va tile p place level, s = s0.virtWalk part va → s.virtPage part va = some p →
    s.mem.leafPlace (s.walkEnv part) (va % 2 ^ 57) = some (place, level) → p.host = false →
    let n := p.size / 4096
    let old := p.pa / 4096
    tile % n = 0 → (s.walkEnv part).owns tile n = true → mappedPa (tile * 4096) = true → mappedPa (tile * 4096 + p.size - 1) = true →
    ¬ (old < tile + n ∧ tile < old + n) → s.pageFree p.pa p.size = true → s.pageFree (tile * 4096) p.size = true →
    exec (.pageMigration part va tile) s0 = .next (((({ s with
      mem := (List.range n).foldl (fun m i => m.moveTile (old + i) (tile + i) p.key) s.mem } : State).clearResv .stack p.pa p.size).retarget
        (s.walkEnv part) place level p.size tile).invalidate { part := part, lo := p.va, len := p.size }).containFound) ∧
  (∀ s : State, s.fw.power = .run ∨ s.fw.power = .idle →
    exec .recalibration s = .next { s with mem := { s.mem with recal := (s.mem.recal + 1) % 1280 } }) ∧
  (∀ (s : State) a b, exec (.dieLinkLoss a b) s = .next { s with contained := true } ∧
    exec (.clusterMeshLoss a) s = .next { s with contained := true }) ∧
  (∀ s : State, s.fw.boot = .off →
    (Config.imageOk s.fw.flash = true → exec .coldBoot s = .next s.bootUp) ∧
    (Config.imageOk s.fw.flash = false → exec .coldBoot s = .next { s with fw := { s.fw with boot := .rom, power := .run } })) ∧
  (∀ s : State, s.fw.boot = .up →
    (s.fw.stored.2 = trainingMac s.fw.stored.1 →
      exec .warmReset s = .next { s with mem := { s.mem with training := s.fw.stored.1 } }) ∧
    (s.fw.stored.2 ≠ trainingMac s.fw.stored.1 → exec .warmReset s = .next s.train)) ∧
  (∀ (s : State) w d, s.fw.boot = .up → ∃ t, exec (.powerSample w d) s = .next t ∧ t.fw.drawn = w ∧ t.fw.inlet = d ∧
    (40 < d → t.fw.capped = true)) ∧
  (∀ (s : State) part p e, tget s.parts part = some p → p.token = some e → e ≤ s.debugClock →
    exec (.debugTokenExpiry part) s = .next ({ s with
      parts := tput s.parts part { p with token := none, halted := false }
      fw := { s.fw with sessions := s.fw.sessions.filter (· != part) } } : State).lapseWide) ∧
  (∀ (s : State) part, (∀ p, tget s.parts part = some p → ∀ e, p.token = some e → s.debugClock < e) →
    exec (.debugTokenExpiry part) s = .next s.lapseWide) ∧
  (∀ s : State,
    (∀ e, s.fw.unlocked = some e → e ≤ s.debugClock → s.lapseWide =
      { s with parts := s.parts.map (fun p => (p.1, { p.2 with halted := false })), fw := { s.fw with sessions := [], unlocked := none } }) ∧
    (s.fw.unlocked = none → s.lapseWide = s) ∧ (∀ e, s.fw.unlocked = some e → s.debugClock < e → s.lapseWide = s)) ∧
  (∀ (s : State) part p, tget s.parts part = some p → s.debugOpen part = true →
    (∀ th t c, s.threadOf part th = true → tget s.threads th = some t → s.ctxAt (th / 8) (th % 8) t.pc = some c →
      let reads := fun (r : DebugReg) (n : Nat) (v : Nat) =>
        exec (.haltDebug part (.readReg th r)) s = .next { s with hostRead := some (some (bytesLE n v)) }
      let writes := fun (r : DebugReg) (w : DWord) (u : State) => exec (.haltDebug part (.writeReg th r w)) s = .next u
      let mod := fun (f : Thread → Thread) => s.modThread (th / 8) (th % 8) f
      (∀ r, r < c.ld.regs → reads (.v r) 4 (t.reg r).toNat ∧ ∀ w, writes (.v r) w (mod (fun t => t.setReg r (w.truncate 32)))) ∧
      reads .preds 4 (t.preds ||| 1#8).toNat ∧ (∀ w, writes .preds w (mod (fun t => { t with preds := w.truncate 8 &&& 0xFE#8 }))) ∧
      (∀ k, k < 4 → reads (.x k) 4 (t.xreg k).toNat ∧ ∀ w, writes (.x k) w (mod (fun t => t.setX k (w.truncate 32 &&& 0xFFFF#32)))) ∧
      reads .pc 8 t.pc.toNat ∧ (∀ w, writes .pc w ((s.leaveHints (th / 8) [th % 8]).modThread (th / 8) (th % 8) (fun t =>
        { t with pc := canon w &&& ~~~(3#64) }))) ∧
      (∀ r, csrKnown r = true → reads (.control r) 4 (csrValue c t r).toNat ∧
        (r < 4 → ∀ w, writes (.control r) w (mod (fun t => csrWrite t r (w.truncate 32)))) ∧
        (8 ≤ r → ∀ w, writes (.control r) w (mod (fun t => if t.hmode then csrWrite t r (w.truncate 32) else t)))) ∧
      (∀ r, r = 0x020 ∨ (0x028 ≤ r ∧ r ≤ 0x02D) →
        reads (.special r) (if sregWide r then 8 else 4) (sregValue c s (th % 8) t r).toNat ∧
        ∀ w, writes (.special r) w (debugSpecialSet s c (th % 8) r w)) ∧
      (∀ k, k < 16 →
        reads (.q k) 8 (BitVec.ofNat 64 (ofBytesLE (bindingBytes (c.fl.qreg k)))).toNat ∧
        (∀ w : DWord, writes (.q k) w (if w.getLsbD 4 = true ∧ bits w.toNat 0 4 ≤ 8 then (s.unbindQ c.fk k).bindAs c k (bits w.toNat 0 4) (highHalf w)
          else s.unbindQ c.fk k)) ∧
        reads (.j k) 4 ((c.fl.expected k).toNat + 256 * (c.fl.arrivedAt k).toNat) ∧
        (∀ w, writes (.j k) w (releaseMask (s.modFlight c.fk (fun f =>
          (f.setExpected k (w.truncate 8)).setArrived k ((w >>> 8).truncate 8))) c.fk k))) ∧
      (∀ k, k < 8 → reads (.c k) 4 (convWord (c.ld.convOf k)) ∧
        ∀ w : DWord, writes (.c k) w (s.modConv c.lid k (fun v => { convOfWord (w.truncate 32 : Word).toNat with signs := v.signs }))) ∧
      (∀ k, k < 4 →
        reads (.h k false) 4 (c.ld.reduction k).value.toNat ∧ reads (.h k true) 4 (c.ld.reduction k).seq.toNat ∧
        (∀ w, writes (.h k false) w (s.modRed c.lid k (fun x => { x with value := w.truncate 32 })) ∧
          writes (.h k true) w (s.modRed c.lid k (fun x => { x with seq := w.truncate 16 }))))) ∧
    (∀ a n, s.hallOf part a n = true →
      exec (.haltDebug part (.readHall a n)) s = .next { s with hostRead := some (some (readCells s.mem.hall a n)) }) ∧
    (∀ a bs, s.hallOf part a bs.length = true → exec (.haltDebug part (.writeHall a bs)) s = .next (s.applyHall a bs)) ∧
    (∀ hpa n w, s.windowOf hpa n = some w → w.key ∈ p.keys →
      exec (.haltDebug part (.readWindow hpa n)) s = .next (s.hostAccess hpa n false []).containFound) ∧
    exec (.haltDebug part .resume) s = .next { s with parts := tput s.parts part { p with halted := false } } ∧
    exec (.haltDebug part .stop) s = .next { s with
      parts := tput s.parts part { p with halted := true }
      fw := { s.fw with sessions := s.fw.sessions.filter (· != part) ++ [part] } })

/-! ## The machine: a step, the decoder, the start of a landing, the invariant -/

/-- The word that a fetch gives at `pc` when the core's L0 holds the line. -/
def Sys2Proof.Machine.lineWord (l : CodeLine) (pc : DWord) : Word := l.words.getD (va57 pc % 128 / 4) 0

/-- R39, R52, R54, R97, R209: on the turn of a bay, the flight that issues fetches the word at its group's pc; a word that decodes
is executed by exec as the instruction that it decodes to, any other as an illegal instruction, and a failed fetch as a fetch
failure; afterwards nobody is at work, and the bay notes the flight and the threads that waited try again, or, where the whole group
was held, which is no issue, the bay tries again in the same cycle (`settleIssue`); the failures that the turn met are contained
(`settled`: nothing more, where none was met, no row is throttled and no fill waits). A word that a line of the core's L0 holds is
fetched from there and changes nothing. In a cycle a bay issues once, and none after one of higher number on its core (`slotUsed`). An
event on its turn is exec of it (`settledBy`); before a bay moves a flight between its sets, those of its flights whose groups are all held
have been tried and are marked so (`prepared`, log entry 10). Every constructor of Instr answers a next
state in every state. That a turn which a bank does not serve yet changes nothing is the model's choice (log entry 96), as is the new
attempt (log entry 10). -/
def Obligations.StepRunsDecoded : Prop :=
  (∀ (s : State) ts core bay x, s.contained = false → s.nextTurn = (.issue core bay, ts) →
    let s0 : State := { s with agenda := ts }
    let sy := (s0.bayFlights core bay).foldl State.noteYield s0
    s0.asleep = false → s0.slotUsed core bay = false → (sy.bayFlights core bay).any (fun y => sy.movable y && y.fl.advice) = false →
    sy.chosen core bay = some x → sy.switchDue x = false →
    let s1 : State := { sy with cur := some x.fk, mem := { sy.mem with meeter := some (x.tr.run, x.tr.nest) } }
    ∀ c, s1.ctx? = some c →
      let f := s1.fetchWord core x.tr.part x.ld.key c.pc
      (∀ w i, f.2 = .word w → decode (bytesOfWord w.toNat) = .ok i →
        step s = thenNext s0.settled (thenNext (State.settleIssue core bay c.lanes x.fk) (exec i f.1))) ∧
      (∀ w e, f.2 = .word w → decode (bytesOfWord w.toNat) = .error e →
        step s = thenNext s0.settled (thenNext (State.settleIssue core bay c.lanes x.fk) (exec .illegalInstruction f.1))) ∧
      (∀ p, f.2 = .failed p → step s = thenNext s0.settled (thenNext (State.settleIssue core bay c.lanes x.fk) (exec (.fetchFailure p) f.1)))) ∧
  (∀ (s : State) core bay, (∀ y ∈ s.bayFlights core bay, y.fl.gives ≠ .yield) → (s.bayFlights core bay).foldl State.noteYield s = s) ∧
  (∀ (s : State) core bay ls fk,
    let t : State := { s with cur := none, mem := { s.mem with meeter := none } }
    ((∀ l ∈ ls, ∃ th, t.thread? fk l = some th ∧ th.held.isSome = true) →
      State.settleIssue core bay ls fk s = { t with agenda := .issue core bay :: s.agenda }) ∧
    ((∃ l ∈ ls, ∀ th, t.thread? fk l = some th → th.held = none) →
      State.settleIssue core bay ls fk s = ((t.noteBay core bay fk).noteIssue core bay).wakeAll)) ∧
  (∀ (s : State) ts core bay, s.contained = false → s.nextTurn = (.issue core bay, ts) →
    ({ s with agenda := ts } : State).slotUsed core bay = true → step s = .next { s with agenda := ts }) ∧
  (∀ (s : State) core bay b, (s.noteIssue core bay).slotUsed core b = decide (b ≤ bay)) ∧
  (∀ s t : State, s.mem.throttled = [] → s.mem.fills = [] → t.mem.found = [] →
    s.settled t = t ∧ ∀ e, State.settledBy e s t = t) ∧
  (∀ (s : State) core part key pc l, lineOf (s.mem.l0Of core) part key (va57 pc / 128 * 128) = some l →
    s.fetchWord core part key pc = (s, .word (lineWord l pc))) ∧
  (∀ (s : State) e ts, s.contained = false → s.nextTurn = (.event e, ts) → ({ s with agenda := ts } : State).asleep = false →
    step s = thenNext (fun t => (State.settledBy e { s with agenda := ts } t).due.wakeAll)
      (exec e (State.prepared e { s with agenda := ts, cur := none }))) ∧
  (∀ (s : State) e, (∀ core bay, e ≠ .flightSwap core bay ∧ e ≠ .activeSetFill core bay ∧ e ≠ .aging core bay) → State.prepared e s = s) ∧
  (∀ (s : State) core bay, (State.prepared (.activeSetFill core bay) s).wakeAll = s.wakeAll ∧
    (State.prepared (.aging core bay) s).wakeAll = s.wakeAll) ∧
  (∀ (i : Instr) (s : State), ∃ t, exec i s = .next t) ∧
  (∀ s : State, s.contained = true → step s = .fault .contained)

/-- R40, R50, R51: words written out from the encodings, with the instructions that they stand for; the words of the table after
R52, and words that are no instruction. -/
def Obligations.DecodeTableWords : Prop :=
  decodeTableWord 32 0x20100000 = some (.movi 1 0 0) ∧
  decodeTableWord 32 0x2B100020 = some (.ltNImm 1 0 4 0) ∧
  decodeTableWord 32 0x30208101 = some (.fadd 2 2 1 0 1) ∧
  decodeTableWord 32 0x787FC000 = some (.hintImm 0x7FC000) ∧
  decodeTableWord 32 0x79002800 = some (.hintMod 0 0 1 1 0 0 0 0 0 0 0) ∧
  decodeTableWord 32 0x546100D0 = some (.ldB64 6 4 1 0 0) ∧
  decodeTableWord 32 0x58210240 = some (.stB32 2 4 4 0 0) ∧
  decodeTableWord 32 0x7FFFC0FC = some (.wait 63 63 0 63) ∧
  decodeTableWord 32 0x6DFFFFFA = some (.br 0x3FFFFF 2) ∧
  decodeTableWord 32 0 = none ∧ decodeTableWord 32 0xFFFFFFFF = none ∧ decodeTableWord 16 0 = none

/-- R40, R50, R51: no bit of an encoding is dropped: for every well-formed instruction, with every operand at every value, the
encoder gives one word of 32 bits, and the decoder gives the instruction back; an event has no word. -/
def Obligations.RoundTrip : Prop :=
  (∀ i, i.wf = true → isEvent i = false → ∃ w, encodeWord i = some w ∧
    w < 2 ^ 32 ∧ decodeWord w = .ok i ∧ decode (bytesOfWord w) = .ok i ∧ decodeTableWord 32 w = some i) ∧
  (∀ i, isEvent i = true → encodeWord i = none)

/-- R92, R94: the flights of a landing that starts: every thread is at the entry with its registers and predicates 0, its index
registers at index 0 and limit N mod 256, not in handler mode, with no reservation, lease or transient value; the rejoin masks and
s.fpflags of the flight are 0. -/
def Obligations.LandingStart : Prop :=
  ∀ (s : State) lid core n entry cover (f : Nat) (bs : List Nat) (j l : Nat), j < bs.length → l < 8 →
    let t := s.addFlights lid core n entry cover f bs
    ∃ fl th, tget t.flights (32 * lid + (f + j)) = some fl ∧ t.thread? (32 * lid + (f + j)) l = some th ∧
      th.pc = entry ∧ th.cond = .running ∧ (∀ r, th.reg r = 0) ∧ (∀ k, 0 < k → k < 8 → th.pred k = false) ∧
      (∀ x ∈ [th.x0, th.x1, th.x2, th.x3], x.toNat = n % 256 * 256) ∧ th.hmode = false ∧ th.resv = none ∧ th.leases = [] ∧ th.trans = [] ∧
      (∀ m, tgetD 0 fl.expect m = 0 ∧ tgetD 0 fl.arrived m = 0) ∧ fl.fpflags = 0

/-- The model's reset (notes/assumptions: where the spec gives no reset value): every memory is in its canonical form and lists
nothing, every byte of hall, host and stack memory reads 0 (R294, R411), nothing is resident, no partition exists and both
mailboxes are ready (R430). -/
def Obligations.ResetState : Prop :=
  State.reset.mem.wf = true ∧
  (∀ a, readCell State.reset.mem.hall a = 0 ∧ readCell State.reset.mem.host a = 0 ∧ ∀ k, State.reset.mem.homeByte a k = 0) ∧
  State.reset.threads = [] ∧ State.reset.flights = [] ∧ State.reset.landings = [] ∧ State.reset.parts = [] ∧
  State.reset.fw.mgmt.done = true ∧ State.reset.fw.recovery.done = true ∧ core.reset = State.reset

/-- The invariant of the machine: unless device-scope containment has stopped it (R419), it goes on, whatever it executes, and a
step keeps the canonical form of its memories, so that equal memories are equal data. -/
def Obligations.MachineInvariant : Prop :=
  ∀ s : State, s.contained = false → s.mem.wf = true → ∃ t, step s = .next t ∧ t.mem.wf = true

end
end

