-- ==== Sys2Proof/Laws/State.lean ====
section
/-!
SUPPORT. What each update of the state leaves of each of its fields.
-/

namespace Sys2Proof.Machine

/-! ## modThread -/
@[simp] theorem State.modThread_agenda (s : State) (fk l : Nat) (f : Thread → Thread) : (s.modThread fk l f).agenda = s.agenda := rfl
@[simp] theorem State.modThread_cur (s : State) (fk l : Nat) (f : Thread → Thread) : (s.modThread fk l f).cur = s.cur := rfl
@[simp] theorem State.modThread_cycles (s : State) (fk l : Nat) (f : Thread → Thread) : (s.modThread fk l f).cycles = s.cycles := rfl
@[simp] theorem State.modThread_wall (s : State) (fk l : Nat) (f : Thread → Thread) : (s.modThread fk l f).wall = s.wall := rfl
@[simp] theorem State.modThread_frees (s : State) (fk l : Nat) (f : Thread → Thread) : (s.modThread fk l f).frees = s.frees := rfl
@[simp] theorem State.modThread_threads (s : State) (fk l : Nat) (f : Thread → Thread) : (s.modThread fk l f).threads = tmod s.threads (tkey fk l) f := rfl
@[simp] theorem State.modThread_flights (s : State) (fk l : Nat) (f : Thread → Thread) : (s.modThread fk l f).flights = s.flights := rfl
@[simp] theorem State.modThread_landings (s : State) (fk l : Nat) (f : Thread → Thread) : (s.modThread fk l f).landings = s.landings := rfl
@[simp] theorem State.modThread_treads (s : State) (fk l : Nat) (f : Thread → Thread) : (s.modThread fk l f).treads = s.treads := rfl
@[simp] theorem State.modThread_mem (s : State) (fk l : Nat) (f : Thread → Thread) : (s.modThread fk l f).mem = s.mem := rfl
@[simp] theorem State.modThread_lastBay (s : State) (fk l : Nat) (f : Thread → Thread) : (s.modThread fk l f).lastBay = s.lastBay := rfl
@[simp] theorem State.modThread_issued (s : State) (fk l : Nat) (f : Thread → Thread) : (s.modThread fk l f).issued = s.issued := rfl
@[simp] theorem State.modThread_moved (s : State) (fk l : Nat) (f : Thread → Thread) : (s.modThread fk l f).moved = s.moved := rfl
@[simp] theorem State.modThread_tiles (s : State) (fk l : Nat) (f : Thread → Thread) : (s.modThread fk l f).tiles = s.tiles := rfl
@[simp] theorem State.modThread_latches (s : State) (fk l : Nat) (f : Thread → Thread) : (s.modThread fk l f).latches = s.latches := rfl
@[simp] theorem State.modThread_act (s : State) (fk l : Nat) (f : Thread → Thread) : (s.modThread fk l f).act = s.act := rfl
@[simp] theorem State.modThread_mxq (s : State) (fk l : Nat) (f : Thread → Thread) : (s.modThread fk l f).mxq = s.mxq := rfl
@[simp] theorem State.modThread_clacs (s : State) (fk l : Nat) (f : Thread → Thread) : (s.modThread fk l f).clacs = s.clacs := rfl
@[simp] theorem State.modThread_copies (s : State) (fk l : Nat) (f : Thread → Thread) : (s.modThread fk l f).copies = s.copies := rfl
@[simp] theorem State.modThread_hqueues (s : State) (fk l : Nat) (f : Thread → Thread) : (s.modThread fk l f).hqueues = s.hqueues := rfl
@[simp] theorem State.modThread_nextQueue (s : State) (fk l : Nat) (f : Thread → Thread) : (s.modThread fk l f).nextQueue = s.nextQueue := rfl
@[simp] theorem State.modThread_posts (s : State) (fk l : Nat) (f : Thread → Thread) : (s.modThread fk l f).posts = s.posts := rfl
@[simp] theorem State.modThread_dies (s : State) (fk l : Nat) (f : Thread → Thread) : (s.modThread fk l f).dies = s.dies := rfl
@[simp] theorem State.modThread_runs (s : State) (fk l : Nat) (f : Thread → Thread) : (s.modThread fk l f).runs = s.runs := rfl
@[simp] theorem State.modThread_nextRun (s : State) (fk l : Nat) (f : Thread → Thread) : (s.modThread fk l f).nextRun = s.nextRun := rfl
@[simp] theorem State.modThread_nextKey (s : State) (fk l : Nat) (f : Thread → Thread) : (s.modThread fk l f).nextKey = s.nextKey := rfl
@[simp] theorem State.modThread_nextEnd (s : State) (fk l : Nat) (f : Thread → Thread) : (s.modThread fk l f).nextEnd = s.nextEnd := rfl
@[simp] theorem State.modThread_lookups (s : State) (fk l : Nat) (f : Thread → Thread) : (s.modThread fk l f).lookups = s.lookups := rfl
@[simp] theorem State.modThread_raises (s : State) (fk l : Nat) (f : Thread → Thread) : (s.modThread fk l f).raises = s.raises := rfl
@[simp] theorem State.modThread_reports (s : State) (fk l : Nat) (f : Thread → Thread) : (s.modThread fk l f).reports = s.reports := rfl
@[simp] theorem State.modThread_requests (s : State) (fk l : Nat) (f : Thread → Thread) : (s.modThread fk l f).requests = s.requests := rfl
@[simp] theorem State.modThread_eloa (s : State) (fk l : Nat) (f : Thread → Thread) : (s.modThread fk l f).eloa = s.eloa := rfl
@[simp] theorem State.modThread_doorbells (s : State) (fk l : Nat) (f : Thread → Thread) : (s.modThread fk l f).doorbells = s.doorbells := rfl
@[simp] theorem State.modThread_windows (s : State) (fk l : Nat) (f : Thread → Thread) : (s.modThread fk l f).windows = s.windows := rfl
@[simp] theorem State.modThread_msix (s : State) (fk l : Nat) (f : Thread → Thread) : (s.modThread fk l f).msix = s.msix := rfl
@[simp] theorem State.modThread_hostClock (s : State) (fk l : Nat) (f : Thread → Thread) : (s.modThread fk l f).hostClock = s.hostClock := rfl
@[simp] theorem State.modThread_hostRead (s : State) (fk l : Nat) (f : Thread → Thread) : (s.modThread fk l f).hostRead = s.hostRead := rfl
@[simp] theorem State.modThread_fw (s : State) (fk l : Nat) (f : Thread → Thread) : (s.modThread fk l f).fw = s.fw := rfl
@[simp] theorem State.modThread_ports (s : State) (fk l : Nat) (f : Thread → Thread) : (s.modThread fk l f).ports = s.ports := rfl
@[simp] theorem State.modThread_rings (s : State) (fk l : Nat) (f : Thread → Thread) : (s.modThread fk l f).rings = s.rings := rfl
@[simp] theorem State.modThread_chans (s : State) (fk l : Nat) (f : Thread → Thread) : (s.modThread fk l f).chans = s.chans := rfl
@[simp] theorem State.modThread_parts (s : State) (fk l : Nat) (f : Thread → Thread) : (s.modThread fk l f).parts = s.parts := rfl
@[simp] theorem State.modThread_contained (s : State) (fk l : Nat) (f : Thread → Thread) : (s.modThread fk l f).contained = s.contained := rfl

/-! ## putThread -/
@[simp] theorem State.putThread_agenda (s : State) (fk l : Nat) (t : Thread) : (s.putThread fk l t).agenda = s.agenda := rfl
@[simp] theorem State.putThread_cur (s : State) (fk l : Nat) (t : Thread) : (s.putThread fk l t).cur = s.cur := rfl
@[simp] theorem State.putThread_cycles (s : State) (fk l : Nat) (t : Thread) : (s.putThread fk l t).cycles = s.cycles := rfl
@[simp] theorem State.putThread_wall (s : State) (fk l : Nat) (t : Thread) : (s.putThread fk l t).wall = s.wall := rfl
@[simp] theorem State.putThread_frees (s : State) (fk l : Nat) (t : Thread) : (s.putThread fk l t).frees = s.frees := rfl
@[simp] theorem State.putThread_threads (s : State) (fk l : Nat) (t : Thread) : (s.putThread fk l t).threads = tput s.threads (tkey fk l) t := rfl
@[simp] theorem State.putThread_flights (s : State) (fk l : Nat) (t : Thread) : (s.putThread fk l t).flights = s.flights := rfl
@[simp] theorem State.putThread_landings (s : State) (fk l : Nat) (t : Thread) : (s.putThread fk l t).landings = s.landings := rfl
@[simp] theorem State.putThread_treads (s : State) (fk l : Nat) (t : Thread) : (s.putThread fk l t).treads = s.treads := rfl
@[simp] theorem State.putThread_mem (s : State) (fk l : Nat) (t : Thread) : (s.putThread fk l t).mem = s.mem := rfl
@[simp] theorem State.putThread_lastBay (s : State) (fk l : Nat) (t : Thread) : (s.putThread fk l t).lastBay = s.lastBay := rfl
@[simp] theorem State.putThread_issued (s : State) (fk l : Nat) (t : Thread) : (s.putThread fk l t).issued = s.issued := rfl
@[simp] theorem State.putThread_moved (s : State) (fk l : Nat) (t : Thread) : (s.putThread fk l t).moved = s.moved := rfl
@[simp] theorem State.putThread_tiles (s : State) (fk l : Nat) (t : Thread) : (s.putThread fk l t).tiles = s.tiles := rfl
@[simp] theorem State.putThread_latches (s : State) (fk l : Nat) (t : Thread) : (s.putThread fk l t).latches = s.latches := rfl
@[simp] theorem State.putThread_act (s : State) (fk l : Nat) (t : Thread) : (s.putThread fk l t).act = s.act := rfl
@[simp] theorem State.putThread_mxq (s : State) (fk l : Nat) (t : Thread) : (s.putThread fk l t).mxq = s.mxq := rfl
@[simp] theorem State.putThread_clacs (s : State) (fk l : Nat) (t : Thread) : (s.putThread fk l t).clacs = s.clacs := rfl
@[simp] theorem State.putThread_copies (s : State) (fk l : Nat) (t : Thread) : (s.putThread fk l t).copies = s.copies := rfl
@[simp] theorem State.putThread_hqueues (s : State) (fk l : Nat) (t : Thread) : (s.putThread fk l t).hqueues = s.hqueues := rfl
@[simp] theorem State.putThread_nextQueue (s : State) (fk l : Nat) (t : Thread) : (s.putThread fk l t).nextQueue = s.nextQueue := rfl
@[simp] theorem State.putThread_posts (s : State) (fk l : Nat) (t : Thread) : (s.putThread fk l t).posts = s.posts := rfl
@[simp] theorem State.putThread_dies (s : State) (fk l : Nat) (t : Thread) : (s.putThread fk l t).dies = s.dies := rfl
@[simp] theorem State.putThread_runs (s : State) (fk l : Nat) (t : Thread) : (s.putThread fk l t).runs = s.runs := rfl
@[simp] theorem State.putThread_nextRun (s : State) (fk l : Nat) (t : Thread) : (s.putThread fk l t).nextRun = s.nextRun := rfl
@[simp] theorem State.putThread_nextKey (s : State) (fk l : Nat) (t : Thread) : (s.putThread fk l t).nextKey = s.nextKey := rfl
@[simp] theorem State.putThread_nextEnd (s : State) (fk l : Nat) (t : Thread) : (s.putThread fk l t).nextEnd = s.nextEnd := rfl
@[simp] theorem State.putThread_lookups (s : State) (fk l : Nat) (t : Thread) : (s.putThread fk l t).lookups = s.lookups := rfl
@[simp] theorem State.putThread_raises (s : State) (fk l : Nat) (t : Thread) : (s.putThread fk l t).raises = s.raises := rfl
@[simp] theorem State.putThread_reports (s : State) (fk l : Nat) (t : Thread) : (s.putThread fk l t).reports = s.reports := rfl
@[simp] theorem State.putThread_requests (s : State) (fk l : Nat) (t : Thread) : (s.putThread fk l t).requests = s.requests := rfl
@[simp] theorem State.putThread_eloa (s : State) (fk l : Nat) (t : Thread) : (s.putThread fk l t).eloa = s.eloa := rfl
@[simp] theorem State.putThread_doorbells (s : State) (fk l : Nat) (t : Thread) : (s.putThread fk l t).doorbells = s.doorbells := rfl
@[simp] theorem State.putThread_windows (s : State) (fk l : Nat) (t : Thread) : (s.putThread fk l t).windows = s.windows := rfl
@[simp] theorem State.putThread_msix (s : State) (fk l : Nat) (t : Thread) : (s.putThread fk l t).msix = s.msix := rfl
@[simp] theorem State.putThread_hostClock (s : State) (fk l : Nat) (t : Thread) : (s.putThread fk l t).hostClock = s.hostClock := rfl
@[simp] theorem State.putThread_hostRead (s : State) (fk l : Nat) (t : Thread) : (s.putThread fk l t).hostRead = s.hostRead := rfl
@[simp] theorem State.putThread_fw (s : State) (fk l : Nat) (t : Thread) : (s.putThread fk l t).fw = s.fw := rfl
@[simp] theorem State.putThread_ports (s : State) (fk l : Nat) (t : Thread) : (s.putThread fk l t).ports = s.ports := rfl
@[simp] theorem State.putThread_rings (s : State) (fk l : Nat) (t : Thread) : (s.putThread fk l t).rings = s.rings := rfl
@[simp] theorem State.putThread_chans (s : State) (fk l : Nat) (t : Thread) : (s.putThread fk l t).chans = s.chans := rfl
@[simp] theorem State.putThread_parts (s : State) (fk l : Nat) (t : Thread) : (s.putThread fk l t).parts = s.parts := rfl
@[simp] theorem State.putThread_contained (s : State) (fk l : Nat) (t : Thread) : (s.putThread fk l t).contained = s.contained := rfl

/-! ## modFlight -/
@[simp] theorem State.modFlight_agenda (s : State) (fk : Nat) (f : Flight → Flight) : (s.modFlight fk f).agenda = s.agenda := rfl
@[simp] theorem State.modFlight_cur (s : State) (fk : Nat) (f : Flight → Flight) : (s.modFlight fk f).cur = s.cur := rfl
@[simp] theorem State.modFlight_cycles (s : State) (fk : Nat) (f : Flight → Flight) : (s.modFlight fk f).cycles = s.cycles := rfl
@[simp] theorem State.modFlight_wall (s : State) (fk : Nat) (f : Flight → Flight) : (s.modFlight fk f).wall = s.wall := rfl
@[simp] theorem State.modFlight_frees (s : State) (fk : Nat) (f : Flight → Flight) : (s.modFlight fk f).frees = s.frees := rfl
@[simp] theorem State.modFlight_threads (s : State) (fk : Nat) (f : Flight → Flight) : (s.modFlight fk f).threads = s.threads := rfl
@[simp] theorem State.modFlight_flights (s : State) (fk : Nat) (f : Flight → Flight) : (s.modFlight fk f).flights = tmod s.flights fk f := rfl
@[simp] theorem State.modFlight_landings (s : State) (fk : Nat) (f : Flight → Flight) : (s.modFlight fk f).landings = s.landings := rfl
@[simp] theorem State.modFlight_treads (s : State) (fk : Nat) (f : Flight → Flight) : (s.modFlight fk f).treads = s.treads := rfl
@[simp] theorem State.modFlight_mem (s : State) (fk : Nat) (f : Flight → Flight) : (s.modFlight fk f).mem = s.mem := rfl
@[simp] theorem State.modFlight_lastBay (s : State) (fk : Nat) (f : Flight → Flight) : (s.modFlight fk f).lastBay = s.lastBay := rfl
@[simp] theorem State.modFlight_issued (s : State) (fk : Nat) (f : Flight → Flight) : (s.modFlight fk f).issued = s.issued := rfl
@[simp] theorem State.modFlight_moved (s : State) (fk : Nat) (f : Flight → Flight) : (s.modFlight fk f).moved = s.moved := rfl
@[simp] theorem State.modFlight_tiles (s : State) (fk : Nat) (f : Flight → Flight) : (s.modFlight fk f).tiles = s.tiles := rfl
@[simp] theorem State.modFlight_latches (s : State) (fk : Nat) (f : Flight → Flight) : (s.modFlight fk f).latches = s.latches := rfl
@[simp] theorem State.modFlight_act (s : State) (fk : Nat) (f : Flight → Flight) : (s.modFlight fk f).act = s.act := rfl
@[simp] theorem State.modFlight_mxq (s : State) (fk : Nat) (f : Flight → Flight) : (s.modFlight fk f).mxq = s.mxq := rfl
@[simp] theorem State.modFlight_clacs (s : State) (fk : Nat) (f : Flight → Flight) : (s.modFlight fk f).clacs = s.clacs := rfl
@[simp] theorem State.modFlight_copies (s : State) (fk : Nat) (f : Flight → Flight) : (s.modFlight fk f).copies = s.copies := rfl
@[simp] theorem State.modFlight_hqueues (s : State) (fk : Nat) (f : Flight → Flight) : (s.modFlight fk f).hqueues = s.hqueues := rfl
@[simp] theorem State.modFlight_nextQueue (s : State) (fk : Nat) (f : Flight → Flight) : (s.modFlight fk f).nextQueue = s.nextQueue := rfl
@[simp] theorem State.modFlight_posts (s : State) (fk : Nat) (f : Flight → Flight) : (s.modFlight fk f).posts = s.posts := rfl
@[simp] theorem State.modFlight_dies (s : State) (fk : Nat) (f : Flight → Flight) : (s.modFlight fk f).dies = s.dies := rfl
@[simp] theorem State.modFlight_runs (s : State) (fk : Nat) (f : Flight → Flight) : (s.modFlight fk f).runs = s.runs := rfl
@[simp] theorem State.modFlight_nextRun (s : State) (fk : Nat) (f : Flight → Flight) : (s.modFlight fk f).nextRun = s.nextRun := rfl
@[simp] theorem State.modFlight_nextKey (s : State) (fk : Nat) (f : Flight → Flight) : (s.modFlight fk f).nextKey = s.nextKey := rfl
@[simp] theorem State.modFlight_nextEnd (s : State) (fk : Nat) (f : Flight → Flight) : (s.modFlight fk f).nextEnd = s.nextEnd := rfl
@[simp] theorem State.modFlight_lookups (s : State) (fk : Nat) (f : Flight → Flight) : (s.modFlight fk f).lookups = s.lookups := rfl
@[simp] theorem State.modFlight_raises (s : State) (fk : Nat) (f : Flight → Flight) : (s.modFlight fk f).raises = s.raises := rfl
@[simp] theorem State.modFlight_reports (s : State) (fk : Nat) (f : Flight → Flight) : (s.modFlight fk f).reports = s.reports := rfl
@[simp] theorem State.modFlight_requests (s : State) (fk : Nat) (f : Flight → Flight) : (s.modFlight fk f).requests = s.requests := rfl
@[simp] theorem State.modFlight_eloa (s : State) (fk : Nat) (f : Flight → Flight) : (s.modFlight fk f).eloa = s.eloa := rfl
@[simp] theorem State.modFlight_doorbells (s : State) (fk : Nat) (f : Flight → Flight) : (s.modFlight fk f).doorbells = s.doorbells := rfl
@[simp] theorem State.modFlight_windows (s : State) (fk : Nat) (f : Flight → Flight) : (s.modFlight fk f).windows = s.windows := rfl
@[simp] theorem State.modFlight_msix (s : State) (fk : Nat) (f : Flight → Flight) : (s.modFlight fk f).msix = s.msix := rfl
@[simp] theorem State.modFlight_hostClock (s : State) (fk : Nat) (f : Flight → Flight) : (s.modFlight fk f).hostClock = s.hostClock := rfl
@[simp] theorem State.modFlight_hostRead (s : State) (fk : Nat) (f : Flight → Flight) : (s.modFlight fk f).hostRead = s.hostRead := rfl
@[simp] theorem State.modFlight_fw (s : State) (fk : Nat) (f : Flight → Flight) : (s.modFlight fk f).fw = s.fw := rfl
@[simp] theorem State.modFlight_ports (s : State) (fk : Nat) (f : Flight → Flight) : (s.modFlight fk f).ports = s.ports := rfl
@[simp] theorem State.modFlight_rings (s : State) (fk : Nat) (f : Flight → Flight) : (s.modFlight fk f).rings = s.rings := rfl
@[simp] theorem State.modFlight_chans (s : State) (fk : Nat) (f : Flight → Flight) : (s.modFlight fk f).chans = s.chans := rfl
@[simp] theorem State.modFlight_parts (s : State) (fk : Nat) (f : Flight → Flight) : (s.modFlight fk f).parts = s.parts := rfl
@[simp] theorem State.modFlight_contained (s : State) (fk : Nat) (f : Flight → Flight) : (s.modFlight fk f).contained = s.contained := rfl

/-! ## modLanding -/
@[simp] theorem State.modLanding_agenda (s : State) (k : Nat) (f : Landing → Landing) : (s.modLanding k f).agenda = s.agenda := rfl
@[simp] theorem State.modLanding_cur (s : State) (k : Nat) (f : Landing → Landing) : (s.modLanding k f).cur = s.cur := rfl
@[simp] theorem State.modLanding_cycles (s : State) (k : Nat) (f : Landing → Landing) : (s.modLanding k f).cycles = s.cycles := rfl
@[simp] theorem State.modLanding_wall (s : State) (k : Nat) (f : Landing → Landing) : (s.modLanding k f).wall = s.wall := rfl
@[simp] theorem State.modLanding_frees (s : State) (k : Nat) (f : Landing → Landing) : (s.modLanding k f).frees = s.frees := rfl
@[simp] theorem State.modLanding_threads (s : State) (k : Nat) (f : Landing → Landing) : (s.modLanding k f).threads = s.threads := rfl
@[simp] theorem State.modLanding_flights (s : State) (k : Nat) (f : Landing → Landing) : (s.modLanding k f).flights = s.flights := rfl
@[simp] theorem State.modLanding_landings (s : State) (k : Nat) (f : Landing → Landing) : (s.modLanding k f).landings = tmod s.landings k f := rfl
@[simp] theorem State.modLanding_treads (s : State) (k : Nat) (f : Landing → Landing) : (s.modLanding k f).treads = s.treads := rfl
@[simp] theorem State.modLanding_mem (s : State) (k : Nat) (f : Landing → Landing) : (s.modLanding k f).mem = s.mem := rfl
@[simp] theorem State.modLanding_lastBay (s : State) (k : Nat) (f : Landing → Landing) : (s.modLanding k f).lastBay = s.lastBay := rfl
@[simp] theorem State.modLanding_issued (s : State) (k : Nat) (f : Landing → Landing) : (s.modLanding k f).issued = s.issued := rfl
@[simp] theorem State.modLanding_moved (s : State) (k : Nat) (f : Landing → Landing) : (s.modLanding k f).moved = s.moved := rfl
@[simp] theorem State.modLanding_tiles (s : State) (k : Nat) (f : Landing → Landing) : (s.modLanding k f).tiles = s.tiles := rfl
@[simp] theorem State.modLanding_latches (s : State) (k : Nat) (f : Landing → Landing) : (s.modLanding k f).latches = s.latches := rfl
@[simp] theorem State.modLanding_act (s : State) (k : Nat) (f : Landing → Landing) : (s.modLanding k f).act = s.act := rfl
@[simp] theorem State.modLanding_mxq (s : State) (k : Nat) (f : Landing → Landing) : (s.modLanding k f).mxq = s.mxq := rfl
@[simp] theorem State.modLanding_clacs (s : State) (k : Nat) (f : Landing → Landing) : (s.modLanding k f).clacs = s.clacs := rfl
@[simp] theorem State.modLanding_copies (s : State) (k : Nat) (f : Landing → Landing) : (s.modLanding k f).copies = s.copies := rfl
@[simp] theorem State.modLanding_hqueues (s : State) (k : Nat) (f : Landing → Landing) : (s.modLanding k f).hqueues = s.hqueues := rfl
@[simp] theorem State.modLanding_nextQueue (s : State) (k : Nat) (f : Landing → Landing) : (s.modLanding k f).nextQueue = s.nextQueue := rfl
@[simp] theorem State.modLanding_posts (s : State) (k : Nat) (f : Landing → Landing) : (s.modLanding k f).posts = s.posts := rfl
@[simp] theorem State.modLanding_dies (s : State) (k : Nat) (f : Landing → Landing) : (s.modLanding k f).dies = s.dies := rfl
@[simp] theorem State.modLanding_runs (s : State) (k : Nat) (f : Landing → Landing) : (s.modLanding k f).runs = s.runs := rfl
@[simp] theorem State.modLanding_nextRun (s : State) (k : Nat) (f : Landing → Landing) : (s.modLanding k f).nextRun = s.nextRun := rfl
@[simp] theorem State.modLanding_nextKey (s : State) (k : Nat) (f : Landing → Landing) : (s.modLanding k f).nextKey = s.nextKey := rfl
@[simp] theorem State.modLanding_nextEnd (s : State) (k : Nat) (f : Landing → Landing) : (s.modLanding k f).nextEnd = s.nextEnd := rfl
@[simp] theorem State.modLanding_lookups (s : State) (k : Nat) (f : Landing → Landing) : (s.modLanding k f).lookups = s.lookups := rfl
@[simp] theorem State.modLanding_raises (s : State) (k : Nat) (f : Landing → Landing) : (s.modLanding k f).raises = s.raises := rfl
@[simp] theorem State.modLanding_reports (s : State) (k : Nat) (f : Landing → Landing) : (s.modLanding k f).reports = s.reports := rfl
@[simp] theorem State.modLanding_requests (s : State) (k : Nat) (f : Landing → Landing) : (s.modLanding k f).requests = s.requests := rfl
@[simp] theorem State.modLanding_eloa (s : State) (k : Nat) (f : Landing → Landing) : (s.modLanding k f).eloa = s.eloa := rfl
@[simp] theorem State.modLanding_doorbells (s : State) (k : Nat) (f : Landing → Landing) : (s.modLanding k f).doorbells = s.doorbells := rfl
@[simp] theorem State.modLanding_windows (s : State) (k : Nat) (f : Landing → Landing) : (s.modLanding k f).windows = s.windows := rfl
@[simp] theorem State.modLanding_msix (s : State) (k : Nat) (f : Landing → Landing) : (s.modLanding k f).msix = s.msix := rfl
@[simp] theorem State.modLanding_hostClock (s : State) (k : Nat) (f : Landing → Landing) : (s.modLanding k f).hostClock = s.hostClock := rfl
@[simp] theorem State.modLanding_hostRead (s : State) (k : Nat) (f : Landing → Landing) : (s.modLanding k f).hostRead = s.hostRead := rfl
@[simp] theorem State.modLanding_fw (s : State) (k : Nat) (f : Landing → Landing) : (s.modLanding k f).fw = s.fw := rfl
@[simp] theorem State.modLanding_ports (s : State) (k : Nat) (f : Landing → Landing) : (s.modLanding k f).ports = s.ports := rfl
@[simp] theorem State.modLanding_rings (s : State) (k : Nat) (f : Landing → Landing) : (s.modLanding k f).rings = s.rings := rfl
@[simp] theorem State.modLanding_chans (s : State) (k : Nat) (f : Landing → Landing) : (s.modLanding k f).chans = s.chans := rfl
@[simp] theorem State.modLanding_parts (s : State) (k : Nat) (f : Landing → Landing) : (s.modLanding k f).parts = s.parts := rfl
@[simp] theorem State.modLanding_contained (s : State) (k : Nat) (f : Landing → Landing) : (s.modLanding k f).contained = s.contained := rfl

/-! ## modTread -/
@[simp] theorem State.modTread_agenda (s : State) (k : Nat) (f : Tread → Tread) : (s.modTread k f).agenda = s.agenda := rfl
@[simp] theorem State.modTread_cur (s : State) (k : Nat) (f : Tread → Tread) : (s.modTread k f).cur = s.cur := rfl
@[simp] theorem State.modTread_cycles (s : State) (k : Nat) (f : Tread → Tread) : (s.modTread k f).cycles = s.cycles := rfl
@[simp] theorem State.modTread_wall (s : State) (k : Nat) (f : Tread → Tread) : (s.modTread k f).wall = s.wall := rfl
@[simp] theorem State.modTread_frees (s : State) (k : Nat) (f : Tread → Tread) : (s.modTread k f).frees = s.frees := rfl
@[simp] theorem State.modTread_threads (s : State) (k : Nat) (f : Tread → Tread) : (s.modTread k f).threads = s.threads := rfl
@[simp] theorem State.modTread_flights (s : State) (k : Nat) (f : Tread → Tread) : (s.modTread k f).flights = s.flights := rfl
@[simp] theorem State.modTread_landings (s : State) (k : Nat) (f : Tread → Tread) : (s.modTread k f).landings = s.landings := rfl
@[simp] theorem State.modTread_treads (s : State) (k : Nat) (f : Tread → Tread) : (s.modTread k f).treads = tmod s.treads k f := rfl
@[simp] theorem State.modTread_mem (s : State) (k : Nat) (f : Tread → Tread) : (s.modTread k f).mem = s.mem := rfl
@[simp] theorem State.modTread_lastBay (s : State) (k : Nat) (f : Tread → Tread) : (s.modTread k f).lastBay = s.lastBay := rfl
@[simp] theorem State.modTread_issued (s : State) (k : Nat) (f : Tread → Tread) : (s.modTread k f).issued = s.issued := rfl
@[simp] theorem State.modTread_moved (s : State) (k : Nat) (f : Tread → Tread) : (s.modTread k f).moved = s.moved := rfl
@[simp] theorem State.modTread_tiles (s : State) (k : Nat) (f : Tread → Tread) : (s.modTread k f).tiles = s.tiles := rfl
@[simp] theorem State.modTread_latches (s : State) (k : Nat) (f : Tread → Tread) : (s.modTread k f).latches = s.latches := rfl
@[simp] theorem State.modTread_act (s : State) (k : Nat) (f : Tread → Tread) : (s.modTread k f).act = s.act := rfl
@[simp] theorem State.modTread_mxq (s : State) (k : Nat) (f : Tread → Tread) : (s.modTread k f).mxq = s.mxq := rfl
@[simp] theorem State.modTread_clacs (s : State) (k : Nat) (f : Tread → Tread) : (s.modTread k f).clacs = s.clacs := rfl
@[simp] theorem State.modTread_copies (s : State) (k : Nat) (f : Tread → Tread) : (s.modTread k f).copies = s.copies := rfl
@[simp] theorem State.modTread_hqueues (s : State) (k : Nat) (f : Tread → Tread) : (s.modTread k f).hqueues = s.hqueues := rfl
@[simp] theorem State.modTread_nextQueue (s : State) (k : Nat) (f : Tread → Tread) : (s.modTread k f).nextQueue = s.nextQueue := rfl
@[simp] theorem State.modTread_posts (s : State) (k : Nat) (f : Tread → Tread) : (s.modTread k f).posts = s.posts := rfl
@[simp] theorem State.modTread_dies (s : State) (k : Nat) (f : Tread → Tread) : (s.modTread k f).dies = s.dies := rfl
@[simp] theorem State.modTread_runs (s : State) (k : Nat) (f : Tread → Tread) : (s.modTread k f).runs = s.runs := rfl
@[simp] theorem State.modTread_nextRun (s : State) (k : Nat) (f : Tread → Tread) : (s.modTread k f).nextRun = s.nextRun := rfl
@[simp] theorem State.modTread_nextKey (s : State) (k : Nat) (f : Tread → Tread) : (s.modTread k f).nextKey = s.nextKey := rfl
@[simp] theorem State.modTread_nextEnd (s : State) (k : Nat) (f : Tread → Tread) : (s.modTread k f).nextEnd = s.nextEnd := rfl
@[simp] theorem State.modTread_lookups (s : State) (k : Nat) (f : Tread → Tread) : (s.modTread k f).lookups = s.lookups := rfl
@[simp] theorem State.modTread_raises (s : State) (k : Nat) (f : Tread → Tread) : (s.modTread k f).raises = s.raises := rfl
@[simp] theorem State.modTread_reports (s : State) (k : Nat) (f : Tread → Tread) : (s.modTread k f).reports = s.reports := rfl
@[simp] theorem State.modTread_requests (s : State) (k : Nat) (f : Tread → Tread) : (s.modTread k f).requests = s.requests := rfl
@[simp] theorem State.modTread_eloa (s : State) (k : Nat) (f : Tread → Tread) : (s.modTread k f).eloa = s.eloa := rfl
@[simp] theorem State.modTread_doorbells (s : State) (k : Nat) (f : Tread → Tread) : (s.modTread k f).doorbells = s.doorbells := rfl
@[simp] theorem State.modTread_windows (s : State) (k : Nat) (f : Tread → Tread) : (s.modTread k f).windows = s.windows := rfl
@[simp] theorem State.modTread_msix (s : State) (k : Nat) (f : Tread → Tread) : (s.modTread k f).msix = s.msix := rfl
@[simp] theorem State.modTread_hostClock (s : State) (k : Nat) (f : Tread → Tread) : (s.modTread k f).hostClock = s.hostClock := rfl
@[simp] theorem State.modTread_hostRead (s : State) (k : Nat) (f : Tread → Tread) : (s.modTread k f).hostRead = s.hostRead := rfl
@[simp] theorem State.modTread_fw (s : State) (k : Nat) (f : Tread → Tread) : (s.modTread k f).fw = s.fw := rfl
@[simp] theorem State.modTread_ports (s : State) (k : Nat) (f : Tread → Tread) : (s.modTread k f).ports = s.ports := rfl
@[simp] theorem State.modTread_rings (s : State) (k : Nat) (f : Tread → Tread) : (s.modTread k f).rings = s.rings := rfl
@[simp] theorem State.modTread_chans (s : State) (k : Nat) (f : Tread → Tread) : (s.modTread k f).chans = s.chans := rfl
@[simp] theorem State.modTread_parts (s : State) (k : Nat) (f : Tread → Tread) : (s.modTread k f).parts = s.parts := rfl
@[simp] theorem State.modTread_contained (s : State) (k : Nat) (f : Tread → Tread) : (s.modTread k f).contained = s.contained := rfl

end Sys2Proof.Machine
end

