-- ==== Sys2Proof/Laws/Table.lean ====
section
/-!
SUPPORT. The laws of finite tables: a read after a write, and that the canonical form is kept.
-/

namespace Sys2Proof.Machine

variable {α : Type}

/-! ## Read after write -/

@[simp] theorem tget_nil (k : Nat) : tget ([] : Tab α) k = none := rfl

theorem tget_tput (t : Tab α) (k j : Nat) (v : α) : tget (tput t k v) j = if k = j then some v else tget t j := by
  induction t with
  | nil => simp [tput, tget]
  | cons p t ih =>
    obtain ⟨i, w⟩ := p
    simp only [tput]
    split
    · subst i; simp only [tget]; split <;> simp_all
    · split
      · simp only [tget]
      · simp only [tget, ih]
        by_cases h : i = j
        · subst h; simp [Ne.symm (by assumption : ¬ i = k)]
        · simp [h]

@[simp] theorem tget_tput_self (t : Tab α) (k : Nat) (v : α) : tget (tput t k v) k = some v := by simp [tget_tput]

theorem tget_tput_ne {t : Tab α} {k j : Nat} {v : α} (h : k ≠ j) : tget (tput t k v) j = tget t j := by
  simp [tget_tput, h]

theorem tget_tdel (t : Tab α) (k j : Nat) : tget (tdel t k) j = if k = j then none else tget t j := by
  induction t with
  | nil => simp [tdel]
  | cons p t ih =>
    obtain ⟨i, w⟩ := p
    simp only [tdel]
    split
    · subst i; simp only [ih, tget]; split <;> simp_all
    · simp only [tget, ih]
      by_cases h : i = j
      · subst h; simp [Ne.symm (by assumption : ¬ i = k)]
      · simp [h]

theorem tget_tmod (t : Tab α) (k j : Nat) (f : α → α) :
    tget (tmod t k f) j = if k = j then (tget t k).map f else tget t j := by
  unfold tmod
  cases h : tget t k with
  | none => simp only [Option.map_none]; split <;> simp_all
  | some v => simp [tget_tput]

@[simp] theorem tget_tmod_self (t : Tab α) (k : Nat) (f : α → α) : tget (tmod t k f) k = (tget t k).map f := by
  simp [tget_tmod]

theorem tget_tmod_ne {t : Tab α} {k j : Nat} {f : α → α} (h : k ≠ j) : tget (tmod t k f) j = tget t j := by
  simp [tget_tmod, h]

theorem tgetD_tputD [DecidableEq α] (d : α) (t : Tab α) (k j : Nat) (v : α) :
    tgetD d (tputD d t k v) j = if k = j then v else tgetD d t j := by
  unfold tgetD tputD
  by_cases hv : v = d
  · subst hv; simp only [if_true, tget_tdel]; split <;> rfl
  · simp only [hv, if_false, tget_tput]; split <;> rfl

theorem tget_map (t : Tab α) (f : α → α) (k : Nat) :
    tget (t.map (fun p => (p.1, f p.2))) k = (tget t k).map f := by
  induction t with
  | nil => rfl
  | cons p t ih =>
    obtain ⟨i, w⟩ := p
    simp only [List.map_cons, tget, ih]
    split <;> rfl

/-! ## The canonical form -/

/-- The keys of a table rise strictly. -/
abbrev Rising (t : Tab α) : Prop := t.Pairwise (fun a b => a.1 < b.1)

theorem risingFrom_some (t : Tab α) (lo : Nat) :
    risingFrom (some lo) t = true ↔ Rising t ∧ ∀ p ∈ t, lo < p.1 := by
  induction t generalizing lo with
  | nil => simp [risingFrom]
  | cons p t ih =>
    obtain ⟨i, w⟩ := p
    simp only [risingFrom, Bool.and_eq_true, decide_eq_true_eq, ih, List.pairwise_cons, List.mem_cons,
      forall_eq_or_imp]
    constructor
    · rintro ⟨h, hr, ha⟩
      exact ⟨⟨ha, hr⟩, h, fun p hp => Nat.lt_trans h (ha p hp)⟩
    · rintro ⟨⟨ha, hr⟩, h, _⟩
      exact ⟨h, hr, ha⟩

theorem risingFrom_none (t : Tab α) : risingFrom none t = true ↔ Rising t := by
  cases t with
  | nil => simp [risingFrom]
  | cons p t =>
    obtain ⟨i, w⟩ := p
    simp only [risingFrom, risingFrom_some, List.pairwise_cons]
    exact And.comm

theorem canonical_iff [DecidableEq α] (d : α) (t : Tab α) :
    canonical d t = true ↔ Rising t ∧ ∀ p ∈ t, p.2 ≠ d := by
  simp [canonical, risingFrom_none, List.all_eq_true]

theorem mem_tput {t : Tab α} {k : Nat} {v : α} {p : Nat × α} (h : p ∈ tput t k v) : p = (k, v) ∨ p ∈ t := by
  induction t with
  | nil => simpa [tput] using h
  | cons q t ih =>
    obtain ⟨i, w⟩ := q
    simp only [tput] at h
    split at h
    · rcases List.mem_cons.mp h with h | h
      · exact .inl h
      · exact .inr (List.mem_cons_of_mem _ h)
    · split at h
      · exact (List.mem_cons.mp h).imp id id
      · rcases List.mem_cons.mp h with h | h
        · exact .inr (h ▸ List.mem_cons_self)
        · exact (ih h).imp id (List.mem_cons_of_mem _)

theorem tput_rising {t : Tab α} (k : Nat) (v : α) (h : Rising t) : Rising (tput t k v) := by
  induction t with
  | nil => simp [tput]
  | cons q t ih =>
    obtain ⟨i, w⟩ := q
    obtain ⟨ha, hr⟩ := List.pairwise_cons.mp h
    simp only [tput]
    split
    · subst i; exact List.pairwise_cons.mpr ⟨ha, hr⟩
    · split
      · refine List.pairwise_cons.mpr ⟨fun p hp => ?_, h⟩
        rcases List.mem_cons.mp hp with rfl | hp
        · assumption
        · exact Nat.lt_trans (by assumption) (ha p hp)
      · refine List.pairwise_cons.mpr ⟨fun p hp => ?_, ih hr⟩
        rcases mem_tput hp with rfl | hp
        · change i < k; omega
        · exact ha p hp

theorem tdel_sublist (t : Tab α) (k : Nat) : (tdel t k).Sublist t := by
  induction t with
  | nil => exact .slnil
  | cons q t ih =>
    obtain ⟨i, w⟩ := q
    simp only [tdel]
    split
    · exact ih.cons _
    · exact ih.cons_cons _

theorem tdel_rising {t : Tab α} (k : Nat) (h : Rising t) : Rising (tdel t k) := h.sublist (tdel_sublist t k)

theorem tputD_canonical [DecidableEq α] (d : α) {t : Tab α} (k : Nat) (v : α) (h : canonical d t = true) :
    canonical d (tputD d t k v) = true := by
  rw [canonical_iff] at h ⊢
  unfold tputD
  split
  · exact ⟨tdel_rising k h.1, fun p hp => h.2 p ((tdel_sublist t k).mem hp)⟩
  · refine ⟨tput_rising k v h.1, fun p hp => ?_⟩
    rcases mem_tput hp with rfl | hp
    · assumption
    · exact h.2 p hp

theorem canonical_sublist [DecidableEq α] (d : α) {t u : Tab α} (hs : u.Sublist t) (h : canonical d t = true) :
    canonical d u = true := by
  rw [canonical_iff] at h ⊢
  exact ⟨h.1.sublist hs, fun p hp => h.2 p (hs.mem hp)⟩

/-- Two canonical tables that read alike are equal: equal contents are equal data. -/
theorem tget_mem {t : Tab α} {k : Nat} {v : α} (hr : Rising t) : tget t k = some v ↔ (k, v) ∈ t := by
  induction t with
  | nil => simp
  | cons q t ih =>
    obtain ⟨i, w⟩ := q
    obtain ⟨ha, hr⟩ := List.pairwise_cons.mp hr
    simp only [tget]
    split
    · subst i
      constructor
      · rintro h; cases h; exact List.mem_cons_self
      · intro h
        rcases List.mem_cons.mp h with h | h
        · cases h; rfl
        · exact absurd (ha _ h) (Nat.lt_irrefl _)
    · rw [ih hr]
      constructor
      · exact List.mem_cons_of_mem _
      · intro h
        rcases List.mem_cons.mp h with h | h
        · cases h; contradiction
        · exact h

end Sys2Proof.Machine
end

