-- ==== Sys2Proof/Laws/Issue.lean ====
section
/-!
SUPPORT. What the frame of one issue slot does: the executing group, the threads after it, what stays.
-/

namespace Sys2Proof.Machine

/-! ## Threads by lane -/

theorem tkey_inj {a b l m : Nat} (hl : l < 8) (hm : m < 8) : tkey a l = tkey b m ↔ a = b ∧ l = m := by
  unfold tkey; omega

theorem thread_modThread {s : State} {fk fk' l l' : Nat} (f : Thread → Thread) (hl : l < 8) (hl' : l' < 8) :
    (s.modThread fk l f).thread? fk' l' = if fk = fk' ∧ l = l' then (s.thread? fk' l').map f else s.thread? fk' l' := by
  simp only [State.thread?, State.modThread_threads, tget_tmod, tkey_inj hl hl']
  split
  · next h => obtain ⟨rfl, rfl⟩ := h; rfl
  · rfl

theorem thread_putThread {s : State} {fk fk' l l' : Nat} (t : Thread) (hl : l < 8) (hl' : l' < 8) :
    (s.putThread fk l t).thread? fk' l' = if fk = fk' ∧ l = l' then some t else s.thread? fk' l' := by
  simp only [State.thread?, State.putThread_threads, tget_tput, tkey_inj hl hl']

@[simp] theorem thread_modFlight (s : State) (k : Nat) (f : Flight → Flight) (fk l : Nat) :
    (s.modFlight k f).thread? fk l = s.thread? fk l := rfl

@[simp] theorem thread_orFlags (s : State) (k : Nat) (f : BitVec 5) (fk l : Nat) :
    (s.orFlags k f).thread? fk l = s.thread? fk l := rfl

/-! ## The executing group -/

theorem lanes8_lt {l : Nat} (h : l ∈ lanes8) : l < 8 := by
  simp [lanes8] at h; omega

theorem lanes8_nodup : lanes8.Nodup := by decide

theorem readyLanes_fst (s : State) (fk : Nat) :
    (s.readyLanes fk).map (·.1) = lanes8.filter (fun l => match s.thread? fk l with
      | some t => t.ready
      | none => false) := by
  unfold State.readyLanes
  generalize lanes8 = ls
  induction ls with
  | nil => rfl
  | cons l ls ih =>
    simp only [List.filterMap_cons, List.filter_cons]
    cases h : s.thread? fk l with
    | none => simpa using ih
    | some t => cases h2 : t.ready <;> simp [h2, ih]

theorem readyLanes_mem {s : State} {fk : Nat} {p : Nat × Thread} (h : p ∈ s.readyLanes fk) :
    p.1 ∈ lanes8 ∧ s.thread? fk p.1 = some p.2 ∧ p.2.ready = true := by
  unfold State.readyLanes at h
  obtain ⟨l, hl, h⟩ := List.mem_filterMap.mp h
  cases ht : s.thread? fk l with
  | none => simp [ht] at h
  | some t =>
    cases hr : t.ready with
    | false => simp [ht, hr] at h
    | true => simp [ht, hr] at h; subst h; exact ⟨hl, ht, hr⟩

theorem groupLanes_sub (s : State) (fk : Nat) (fl : Flight) : (s.groupLanes fk fl).Sublist lanes8 := by
  unfold State.groupLanes
  split
  · exact List.filter_sublist
  · split
    · exact List.nil_sublist _
    · split
      · exact List.nil_sublist _
      · refine List.Sublist.trans (List.Sublist.map _ List.filter_sublist) ?_
        rw [readyLanes_fst]; exact List.filter_sublist

theorem groupLanes_thread {s : State} {fk : Nat} {fl : Flight} {l : Nat} (h : l ∈ s.groupLanes fk fl) :
    ∃ t, s.thread? fk l = some t := by
  unfold State.groupLanes at h
  split at h
  · simp only [List.mem_filter, Bool.and_eq_true, Option.isSome_iff_exists] at h
    exact h.2.2
  · split at h
    · simp at h
    · split at h
      · simp at h
      · obtain ⟨p, hp, rfl⟩ := List.mem_map.mp h
        exact ⟨p.2, (readyLanes_mem (List.mem_filter.mp hp).1).2.1⟩

/-- What a context is: the issuing flight with its landing and tread, and the lanes of its group. -/
theorem ctx_spec {s : State} {c : Ctx} (h : s.ctx? = some c) :
    s.cur = some c.fk ∧ tget s.flights c.fk = some c.fl ∧ tget s.landings c.lid = some c.ld ∧ c.lid = landingOf c.fk ∧
    tget s.treads c.ld.tid = some c.tr ∧ c.lanes = s.groupLanes c.fk c.fl ∧ c.lanes ≠ [] := by
  unfold State.ctx? at h
  split at h
  · cases h
  · next fk hc =>
    split at h
    · next fl ld hf hl =>
      split at h
      · cases h
      · next tr ht =>
        split at h
        · cases h
        · split at h
          · cases h
          · next l ls hg =>
            split at h
            · cases h
            · cases h
              exact ⟨hc, hf, hl, rfl, ht, hg.symm, by simp⟩
    · cases h

theorem ctx_sub {s : State} {c : Ctx} (h : s.ctx? = some c) : c.lanes.Sublist lanes8 := by
  rw [(ctx_spec h).2.2.2.2.2.1]; exact groupLanes_sub _ _ _

theorem ctx_lt {s : State} {c : Ctx} (h : s.ctx? = some c) {l : Nat} (hl : l ∈ c.lanes) : l < 8 :=
  lanes8_lt ((ctx_sub h).mem hl)

theorem ctx_nodup {s : State} {c : Ctx} (h : s.ctx? = some c) : c.lanes.Nodup := lanes8_nodup.sublist (ctx_sub h)

theorem ctx_thread {s : State} {c : Ctx} (h : s.ctx? = some c) {l : Nat} (hl : l ∈ c.lanes) :
    ∃ t, s.thread? c.fk l = some t := by
  rw [(ctx_spec h).2.2.2.2.2.1] at hl; exact groupLanes_thread hl

/-! ## The end of the slot -/

/-- A result that neither holds nor stops a thread. -/
def Res.smooth : Res → Bool
  | .done => true
  | .goto _ => true
  | .still => true
  | .gone => true
  | .hold _ => false
  | .trap _ => false
  | .ends _ _ _ => false

theorem resOf_smooth {rs : List (Nat × Res)} (h : ∀ p ∈ rs, p.2.smooth = true) (k : Nat) : (resOf rs k).smooth = true := by
  induction rs with
  | nil => rfl
  | cons p rs ih =>
    obtain ⟨l, r⟩ := p
    simp only [resOf]
    split
    · exact h _ List.mem_cons_self
    · exact ih (fun q hq => h q (List.mem_cons_of_mem _ hq))

theorem groupStall_smooth {rs : List (Nat × Res)} (h : ∀ p ∈ rs, p.2.smooth = true) : groupStall rs = none := by
  induction rs with
  | nil => rfl
  | cons p rs ih =>
    obtain ⟨l, r⟩ := p
    have hp := h (l, r) List.mem_cons_self
    have hi := ih (fun q hq => h q (List.mem_cons_of_mem _ hq))
    cases r with
    | done => exact hi
    | goto _ => exact hi
    | still => exact hi
    | gone => exact hi
    | hold _ => exact absurd hp Bool.false_ne_true
    | trap _ => exact absurd hp Bool.false_ne_true
    | ends _ _ _ => exact absurd hp Bool.false_ne_true

theorem takeOutcomes_smooth (c : Ctx) (fnpc : DWord) (s : State) {rs : List (Nat × Res)} (h : ∀ p ∈ rs, p.2.smooth = true) :
    takeOutcomes c fnpc rs s = s := by
  unfold takeOutcomes
  generalize c.lanes = ls
  induction ls with
  | nil => rfl
  | cons l ls ih =>
    have hr := resOf_smooth h l
    have e : takeOutcome c fnpc rs s l = s := by
      unfold takeOutcome
      cases hx : resOf rs l with
      | trap _ => rw [hx] at hr; exact absurd hr Bool.false_ne_true
      | ends _ _ _ => rw [hx] at hr; exact absurd hr Bool.false_ne_true
      | _ => rfl
    rw [List.foldl_cons, e, ih]

/-- An instruction that nothing holds or stops: its lanes settle, the slot passes, the advice is noted. -/
theorem conclude_smooth (c : Ctx) (s : State) {rs : List (Nat × Res)} (h : ∀ p ∈ rs, p.2.smooth = true) :
    conclude c s rs = adviseSwap c rs (passSlot c rs (c.lanes.foldl (settleLane c rs) s)) := by
  unfold conclude concludeAt wholeGroup
  simp only [groupStall_smooth h, takeOutcomes_smooth c _ _ h]

/-- Threads of some lanes changed one after another. -/
theorem foldl_modThread (fk : Nat) (F : Nat → Thread → Thread) (ls : List Nat) (hn : ls.Nodup) (hl : ∀ l ∈ ls, l < 8)
    (s : State) :
    let t := ls.foldl (fun s l => s.modThread fk l (F l)) s
    t = { s with threads := t.threads } ∧
    ∀ k l, l < 8 → t.thread? k l = if k = fk ∧ l ∈ ls then (s.thread? k l).map (F l) else s.thread? k l := by
  induction ls generalizing s with
  | nil => exact ⟨rfl, fun k l _ => by simp⟩
  | cons a ls ih =>
    obtain ⟨ha, hn⟩ := List.nodup_cons.mp hn
    have hl' : ∀ l ∈ ls, l < 8 := fun l h => hl l (List.mem_cons_of_mem _ h)
    have h8 : a < 8 := hl a List.mem_cons_self
    obtain ⟨h1, h2⟩ := ih hn hl' (s.modThread fk a (F a))
    refine ⟨?_, fun k l hk => ?_⟩
    · simp only [List.foldl_cons]
      rw [h1]; rfl
    · simp only [List.foldl_cons]
      rw [h2 k l hk, thread_modThread _ h8 hk]
      by_cases hkf : k = fk
      · subst hkf
        by_cases hal : a = l
        · subst hal; simp [ha]
        · simp [hal, Ne.symm hal]
      · simp [hkf, Ne.symm hkf]

/-- The flight of an issue slot once it has passed. -/
theorem passSlot_spec (c : Ctx) (rs : List (Nat × Res)) (s : State) :
    let t := adviseSwap c rs (passSlot c rs s)
    t = { s with flights := t.flights } ∧ (∀ k, k ≠ c.fk → tget t.flights k = tget s.flights k) ∧
    ∀ f, tget s.flights c.fk = some f → ∃ f', tget t.flights c.fk = some f' ∧ slotted f f' 0 := by
  refine ⟨rfl, fun k hk => ?_, fun f hf => ?_⟩
  · simp [adviseSwap, passSlot, tget_tmod_ne (Ne.symm hk)]
  · simp only [adviseSwap, passSlot, State.modFlight_flights, tget_tmod_self, hf, Option.map_some, Option.some.injEq,
      exists_eq_left']
    unfold slotted
    split
    · cases hh : f.hint <;> simp [Flight.turnedAway, hh]
    · simp [Flight.passed]

/-- The state after an instruction that nothing holds or stops, from the state `s1` that its body left. -/
theorem conclude_spec {s s1 : State} {c : Ctx} (hc : s.ctx? = some c) {rs : List (Nat × Res)}
    (hs : ∀ p ∈ rs, p.2.smooth = true) :
    let t := conclude c s1 rs
    t = { s1 with threads := t.threads, flights := t.flights } ∧
    (∀ k l, l < 8 → t.thread? k l =
      if k = c.fk ∧ l ∈ c.lanes then (s1.thread? k l).map (settleThread c (resOf rs l)) else s1.thread? k l) ∧
    (∀ k, k ≠ c.fk → tget t.flights k = tget s1.flights k) ∧
    (∀ f, tget s1.flights c.fk = some f → ∃ f', tget t.flights c.fk = some f' ∧ slotted f f' 0) := by
  obtain ⟨h1, h2⟩ := foldl_modThread c.fk (fun l => settleThread c (resOf rs l)) c.lanes (ctx_nodup hc)
    (fun l hl => ctx_lt hc hl) s1
  have he : conclude c s1 rs = adviseSwap c rs (passSlot c rs
      (c.lanes.foldl (fun s l => s.modThread c.fk l (settleThread c (resOf rs l))) s1)) := conclude_smooth c s1 hs
  simp only [he]
  generalize c.lanes.foldl (fun s l => s.modThread c.fk l (settleThread c (resOf rs l))) s1 = w at *
  obtain ⟨p1, p2, p3⟩ := passSlot_spec c rs w
  generalize adviseSwap c rs (passSlot c rs w) = t at *
  have hth : t.threads = w.threads := by rw [p1]
  have hfl : w.flights = s1.flights := by rw [h1]
  refine ⟨?_, ?_, ?_, ?_⟩
  · rw [p1, h1]
  · intro k l hl
    have := h2 k l hl
    simpa [State.thread?, hth] using this
  · rw [← hfl]; exact p2
  · rw [← hfl]; exact p3

/-! ## Lane-local instructions -/

theorem guardLanes_sub (s : State) (c : Ctx) (g : BitVec 3) : (guardLanes s c g).Sublist c.lanes := List.filter_sublist

theorem guardLanes_mem {s : State} {c : Ctx} {g : BitVec 3} {l : Nat} {th : Thread} (ht : s.thread? c.fk l = some th) :
    l ∈ guardLanes s c g ↔ l ∈ c.lanes ∧ th.pred g.toNat = true := by
  simp [guardLanes, ht]

/-- The lanes of a lane-local instruction, run one after another, none of which traps. -/
theorem foldl_runLane (n fk : Nat) (us : List RegUse) (f : Nat → Thread → LaneOut) (ls : List Nat) (hn : ls.Nodup)
    (hl : ∀ l ∈ ls, l < 8) (s : State) (rs : List (Nat × Res))
    (hx : ∀ l ∈ ls, ∃ th, s.thread? fk l = some th ∧ regTrap n th us = none ∧ (f l th).goes = true) :
    let r := ls.foldl (runLane n fk us f) (s, rs)
    r.1 = { s with threads := r.1.threads, flights := r.1.flights } ∧
    (∀ k l, l < 8 → r.1.thread? k l = if k = fk ∧ l ∈ ls then
        (s.thread? k l).map (fun th => match f l th with
          | .ok t _ => t
          | .jump t _ => t
          | .trap _ => th) else s.thread? k l) ∧
    (∀ k, k ≠ fk → tget r.1.flights k = tget s.flights k) ∧
    (∀ fl, tget s.flights fk = some fl → tget r.1.flights fk = some { fl with
      fpflags := ls.foldl (fun a l => a ||| (s.thread? fk l).elim 0 (fun th => (f l th).flags)) fl.fpflags }) ∧
    r.2 = rs ++ ls.map (fun l => (l, match (s.thread? fk l).map (f l) with
      | some (.jump _ target) => .goto target
      | _ => .done)) := by
  induction ls generalizing s rs with
  | nil => exact ⟨rfl, fun k l _ => by simp, fun _ _ => rfl, fun fl h => h, by simp⟩
  | cons a ls ih =>
    obtain ⟨ha, hn⟩ := List.nodup_cons.mp hn
    have hl' : ∀ l ∈ ls, l < 8 := fun l h => hl l (List.mem_cons_of_mem _ h)
    have h8 : a < 8 := hl a List.mem_cons_self
    obtain ⟨th, ht, hr, hg⟩ := hx a List.mem_cons_self
    -- the state and results after lane a
    have step : ∃ s1, runLane n fk us f (s, rs) a = (s1, rs ++ [(a, match f a th with
          | .jump _ target => .goto target
          | _ => .done)]) ∧
        s1 = { s with threads := s1.threads, flights := s1.flights } ∧
        (∀ k l, l < 8 → s1.thread? k l = if k = fk ∧ l = a then some (match f l th with
          | .ok t _ => t
          | .jump t _ => t
          | .trap _ => th) else s.thread? k l) ∧
        (∀ k, k ≠ fk → tget s1.flights k = tget s.flights k) ∧
        (∀ fl, tget s.flights fk = some fl → tget s1.flights fk = some { fl with fpflags := fl.fpflags ||| (f a th).flags }) := by
      cases hf : f a th with
      | trap x => rw [hf] at hg; exact absurd hg Bool.false_ne_true
      | ok t' fl =>
        refine ⟨(s.putThread fk a t').orFlags fk fl, by simp [runLane, ht, hr, hf], rfl, fun k l hk => ?_, fun k hk => ?_,
          fun x hx => ?_⟩
        · rw [thread_orFlags, thread_putThread _ h8 hk]
          by_cases h : k = fk ∧ l = a
          · obtain ⟨rfl, rfl⟩ := h; simp [hf]
          · rw [if_neg h, if_neg (fun h' => h ⟨h'.1.symm, h'.2.symm⟩)]
        · simp [State.orFlags, tget_tmod_ne (Ne.symm hk)]
        · simp [State.orFlags, hx, LaneOut.flags]
      | jump t' target =>
        refine ⟨s.putThread fk a t', by simp [runLane, ht, hr, hf], rfl, fun k l hk => ?_, fun k hk => rfl, fun x hx => ?_⟩
        · rw [thread_putThread _ h8 hk]
          by_cases h : k = fk ∧ l = a
          · obtain ⟨rfl, rfl⟩ := h; simp [hf]
          · rw [if_neg h, if_neg (fun h' => h ⟨h'.1.symm, h'.2.symm⟩)]
        · simp [hx, LaneOut.flags]
    obtain ⟨s1, e1, q1, q2, q3, q4⟩ := step
    have same : ∀ l ∈ ls, s1.thread? fk l = s.thread? fk l := by
      intro l h
      rw [q2 fk l (hl' l h), if_neg]
      rintro ⟨_, rfl⟩; exact ha h
    obtain ⟨i1, i2, i3, i4, i5⟩ := ih hn hl' s1 _ (fun l h => by
      obtain ⟨x, x1, x2, x3⟩ := hx l (List.mem_cons_of_mem _ h)
      exact ⟨x, (same l h).trans x1, x2, x3⟩)
    simp only [List.foldl_cons, e1]
    refine ⟨?_, fun k l hk => ?_, fun k hk => ?_, fun fl hfl => ?_, ?_⟩
    · rw [i1, q1]
    · rw [i2 k l hk]
      by_cases hkf : k = fk
      · subst hkf
        by_cases hla : l = a
        · subst hla; simp only [ha, and_false, if_false, q2 k l hk, List.mem_cons, true_or, if_true, ht,
            Option.map_some, and_self]
        · by_cases hls : l ∈ ls
          · simp only [hls, if_true, List.mem_cons, or_true, same l hls, and_self]
          · simp [hls, hla, q2 k l hk]
      · simp [hkf, q2 k l hk]
    · rw [i3 k hk, q3 k hk]
    · rw [i4 _ (q4 fl hfl)]
      have e : ∀ (ms : List Nat) (b : BitVec 5), (∀ l ∈ ms, l ∈ ls) →
          ms.foldl (fun a l => a ||| (s1.thread? fk l).elim 0 (fun th => (f l th).flags)) b =
          ms.foldl (fun a l => a ||| (s.thread? fk l).elim 0 (fun th => (f l th).flags)) b := by
        intro ms
        induction ms with
        | nil => intro b _; rfl
        | cons m ms im =>
          intro b hm
          simp only [List.foldl_cons, same m (hm m List.mem_cons_self)]
          exact im _ (fun l h => hm l (List.mem_cons_of_mem _ h))
      simp only [e ls _ (fun _ h => h), ht, Option.elim_some]
    · rw [i5]
      have e : ls.map (fun l => (l, match (s1.thread? fk l).map (f l) with
            | some (.jump _ target) => Res.goto target
            | _ => .done)) = ls.map (fun l => (l, match (s.thread? fk l).map (f l) with
            | some (.jump _ target) => Res.goto target
            | _ => .done)) := List.map_congr_left (fun l h => by rw [same l h])
      rw [e]
      simp only [List.map_cons, ht, Option.map_some, List.append_assoc, List.singleton_append]
      cases f a th <;> rfl

theorem resOf_map (ls : List Nat) (r : Nat → Res) (l : Nat) :
    resOf (ls.map (fun l => (l, r l))) l = if l ∈ ls then r l else .done := by
  induction ls with
  | nil => simp [resOf]
  | cons a ls ih =>
    simp only [List.map_cons, resOf, ih, List.mem_cons]
    by_cases h : a = l
    · subst h; simp
    · simp [h, Ne.symm h]

theorem foldl_or (ls : List Nat) (w : Nat → BitVec 5) (a : BitVec 5) :
    ls.foldl (fun a l => a ||| w l) a = a ||| ls.foldl (fun a l => a ||| w l) 0 := by
  induction ls generalizing a with
  | nil => simp
  | cons b ls ih =>
    simp only [List.foldl_cons]
    rw [ih, ih (0 ||| w b)]
    simp [BitVec.or_assoc]

/-- An instruction whose body runs its guard-true lanes one after another, none of which traps: where its lanes go, and what
stays. -/
theorem issueP_flows {s : State} {c : Ctx} {h : HintUse} {g : BitVec 3} {ps : List (BitVec 3)} {us : List RegUse} {body : Body}
    {f : Nat → Thread → LaneOut} (hi : Issues s c h g ps)
    (hb : ∀ ls, guardLanes s c g = ls → ls ≠ [] → body c ls s = ls.foldl (runLane c.ld.regs c.fk us f) (s, []))
    (hf : ∀ l ∈ guardLanes s c g, ∀ th, s.thread? c.fk l = some th → regTrap c.ld.regs th us = none ∧ (f l th).goes = true) :
    Flows s (issueP s h g ps body) c g f ∧
    Keeps s (issueP s h g ps body) c (flagsOf s c g (fun l th => (f l th).flags)) := by
  have hc := hi.ctx
  -- the body
  have hb : ∃ s1 rs, issueP s h g ps body = conclude c s1 rs ∧ (∀ p ∈ rs, p.2.smooth = true) ∧
      s1 = { s with threads := s1.threads, flights := s1.flights } ∧
      (∀ k l, l < 8 → s1.thread? k l = if k = c.fk ∧ l ∈ guardLanes s c g then
        (s.thread? k l).map (fun th => match f l th with
          | .ok t _ => t
          | .jump t _ => t
          | .trap _ => th) else s.thread? k l) ∧
      (∀ k, k ≠ c.fk → tget s1.flights k = tget s.flights k) ∧
      (∀ fl, tget s.flights c.fk = some fl → tget s1.flights c.fk = some { fl with
        fpflags := fl.fpflags ||| flagsOf s c g (fun l th => (f l th).flags) }) ∧
      (∀ l, resOf rs l = if l ∈ guardLanes s c g then (match (s.thread? c.fk l).map (f l) with
        | some (.jump _ target) => .goto target
        | _ => .done) else .done) := by
    unfold issueP issueRaw
    simp only [hc, hi.hints, if_true, hi.preds, Bool.false_eq_true, if_false]
    cases hgl : guardLanes s c g with
    | nil =>
      exact ⟨s, [], rfl, by simp, rfl, fun k l _ => by simp, fun _ _ => rfl, fun fl hfl => by simp [flagsOf, hgl, hfl],
        fun l => by simp [resOf]⟩
    | cons a as =>
      have hsub := (guardLanes_sub s c g)
      have hbody := hb (a :: as) hgl (List.cons_ne_nil _ _)
      obtain ⟨r1, r2, r3, r4, r5⟩ := foldl_runLane c.ld.regs c.fk us f (guardLanes s c g)
        ((ctx_nodup hc).sublist hsub) (fun l hl => ctx_lt hc (hsub.mem hl)) s []
        (fun l hl => by
          obtain ⟨th, ht⟩ := ctx_thread hc (hsub.mem hl)
          exact ⟨th, ht, hf l hl th ht⟩)
      have hfl' : flagsOf s c g (fun l th => (f l th).flags) =
          (a :: as).foldl (fun x l => x ||| (s.thread? c.fk l).elim 0 (fun th => (f l th).flags)) 0 := by
        rw [← hgl]; rfl
      rw [hgl] at r1 r2 r3 r4 r5
      refine ⟨((a :: as).foldl (runLane c.ld.regs c.fk us f) (s, [])).1,
        ((a :: as).foldl (runLane c.ld.regs c.fk us f) (s, [])).2, ?_, ?_, r1, r2, r3, fun fl hfl => ?_, ?_⟩
      · simp only [hbody]
      · rw [r5]
        simp only [List.nil_append, List.mem_map]
        rintro p ⟨l, _, rfl⟩
        dsimp only
        split <;> rfl
      · rw [r4 fl hfl, foldl_or, hfl']
      · intro l
        rw [r5, List.nil_append, resOf_map]
  obtain ⟨s1, rs, e, hsm, b1, b2, b3, b4, b5⟩ := hb
  obtain ⟨c1, c2, c3, c4⟩ := conclude_spec hc (s1 := s1) hsm
  rw [e]
  refine ⟨fun l hl th ht => ?_, ⟨?_, fun k l hk hn => ?_, fun k hk => ?_, fun fl hfl => ?_⟩⟩
  · have h8 := ctx_lt hc hl
    rw [c2 c.fk l h8, b2 c.fk l h8, b5, ht]
    have hm := guardLanes_mem (g := g) ht
    by_cases hp : th.pred g.toNat = true
    · have hg : l ∈ guardLanes s c g := hm.mpr ⟨hl, hp⟩
      have hgo := (hf l hg th ht).2
      simp only [hl, hg, and_self, if_true, hp, Option.map_some, Option.some.injEq]
      cases ho : f l th with
      | ok t' fl => rfl
      | jump t' target => rfl
      | trap x => rw [ho] at hgo; exact absurd hgo Bool.false_ne_true
    · have hg : ¬ l ∈ guardLanes s c g := fun h => hp (hm.mp h).2
      simp only [hl, hg, and_true, and_false, if_true, if_false, hp, Option.map_some]
      rfl
  · rw [c1, b1]
  · have : ¬ (k = c.fk ∧ l ∈ c.lanes) := fun h => hn.elim (fun h1 => h1 h.1) (fun h1 => h1 h.2)
    rw [c2 k l hk, if_neg this, b2 k l hk, if_neg]
    exact fun h => this ⟨h.1, (guardLanes_sub s c g).mem h.2⟩
  · rw [c3 k hk, b3 k hk]
  · obtain ⟨f', h1, h2⟩ := c4 _ (b4 fl hfl)
    refine ⟨f', h1, ?_⟩
    unfold slotted at h2 ⊢
    rw [h2]
    simp

/-- A lane-local instruction of which no guard-true lane traps: where its lanes go, and what stays. -/
theorem laneOp_flows {s : State} {c : Ctx} {h : HintUse} {g : BitVec 3} {ps : List (BitVec 3)} {us : List RegUse}
    {f : Ctx → State → Nat → Thread → LaneOut} (hi : Issues s c h g ps) (hu : Usable s c g us)
    (hf : ∀ l ∈ guardLanes s c g, ∀ th, s.thread? c.fk l = some th → (f c s l th).goes = true) :
    Flows s (issueP s h g ps (laneBody us f)) c g (f c s) ∧
    Keeps s (issueP s h g ps (laneBody us f)) c (flagsOf s c g (fun l th => (f c s l th).flags)) := by
  refine issueP_flows (us := us) hi (fun ls hls _ => ?_) (fun l hl th ht => ⟨(hu l hl th ht).1, hf l hl th ht⟩)
  have hna : anyAwaits s c.fk (allRegs us) ls = false := by
    unfold anyAwaits
    rw [List.any_eq_false]
    intro l hl
    cases ht : s.thread? c.fk l with
    | none => simp
    | some th => simpa using (hu l (hls ▸ hl) th ht).2
  simp only [laneBody, hna, Bool.false_eq_true, if_false]

/-- A lane-local instruction that changes its thread and goes on at the next word. -/
theorem laneOp_lanes {s : State} {c : Ctx} {h : HintUse} {g : BitVec 3} {ps : List (BitVec 3)} {us : List RegUse}
    {f : Ctx → State → Nat → Thread → LaneOut} {v : Nat → Thread → Thread} {w : Nat → Thread → BitVec 5}
    (hi : Issues s c h g ps) (hu : Usable s c g us)
    (hf : ∀ l ∈ guardLanes s c g, ∀ th, s.thread? c.fk l = some th → f c s l th = .ok (v l th) (w l th)) :
    Lanes s (issueP s h g ps (laneBody us f)) c g v ∧
    Keeps s (issueP s h g ps (laneBody us f)) c (flagsOf s c g w) := by
  obtain ⟨h1, h2⟩ := laneOp_flows (f := f) hi hu (fun l hl th ht => by rw [hf l hl th ht]; rfl)
  refine ⟨fun l hl th ht => ?_, ?_⟩
  · rw [h1 l hl th ht]
    by_cases hp : th.pred g.toNat = true
    · simp [hp, hf l ((guardLanes_mem ht).mpr ⟨hl, hp⟩) th ht, LaneOut.thread]
    · simp [hp]
  · have e : flagsOf s c g (fun l th => (f c s l th).flags) = flagsOf s c g w := by
      unfold flagsOf
      have : ∀ (ls : List Nat) (a : BitVec 5), (∀ l ∈ ls, l ∈ guardLanes s c g) →
          ls.foldl (fun a l => a ||| (s.thread? c.fk l).elim 0 (fun th => (f c s l th).flags)) a =
          ls.foldl (fun a l => a ||| (s.thread? c.fk l).elim 0 (w l)) a := by
        intro ls
        induction ls with
        | nil => intro a _; rfl
        | cons m ms im =>
          intro a hm
          have hm0 := hm m List.mem_cons_self
          simp only [List.foldl_cons]
          cases ht : s.thread? c.fk m with
          | none => exact im _ (fun l h => hm l (List.mem_cons_of_mem _ h))
          | some th =>
            simp only [Option.elim_some, hf m hm0 th ht, LaneOut.flags]
            exact im _ (fun l h => hm l (List.mem_cons_of_mem _ h))
      exact this _ _ (fun _ h => h)
    rw [← e]; exact h2

/-- An instruction whose lanes all go on at the next word. -/
theorem conclude_passes {s s1 : State} {c : Ctx} (hc : s.ctx? = some c) {rs : List (Nat × Res)}
    (hd : ∀ p ∈ rs, p.2 = .done) : Passes s1 (conclude c s1 rs) c := by
  have hs : ∀ p ∈ rs, p.2.smooth = true := fun p hp => by rw [hd p hp]; rfl
  have hr : ∀ l, resOf rs l = .done := by
    intro l
    clear hs
    induction rs with
    | nil => rfl
    | cons q rs ih =>
      obtain ⟨k, r⟩ := q
      simp only [resOf]
      split
      · exact hd (k, r) List.mem_cons_self
      · exact ih (fun p hp => hd p (List.mem_cons_of_mem _ hp))
  obtain ⟨c1, c2, c3, c4⟩ := conclude_spec hc (s1 := s1) hs
  refine ⟨c1, fun l hl th ht => ?_, fun k l hk hn => ?_, c3, c4⟩
  · rw [c2 c.fk l (ctx_lt hc hl), if_pos ⟨rfl, hl⟩, ht, hr]; rfl
  · rw [c2 k l hk, if_neg]
    exact fun h => hn.elim (fun h1 => h1 h.1) (fun h1 => h1 h.2)

/-- An instruction over the lanes of its guard as a whole, all of whose results let the lane go on. -/
theorem issueP_passes {s : State} {c : Ctx} {h : HintUse} {g : BitVec 3} {ps : List (BitVec 3)} {body : Body} {ls : List Nat}
    (hi : Issues s c h g ps) (hls : guardLanes s c g = ls) (hne : ls ≠ []) (hd : ∀ p ∈ (body c ls s).2, p.2 = .done) :
    Passes (body c ls s).1 (issueP s h g ps body) c := by
  have e : issueP s h g ps body = conclude c (body c ls s).1 (body c ls s).2 := by
    unfold issueP issueRaw
    simp only [hi.ctx, hi.hints, if_true, hi.preds, Bool.false_eq_true, if_false, hls]
    cases ls with
    | nil => exact absurd rfl hne
    | cons a as => rfl
  rw [e]
  exact conclude_passes hi.ctx hd

/-! ## Traps -/

theorem countTrap_n (n : Nat) (f : Flight) :
    (List.range n).foldl (fun f _ => f.countTrap) f =
      { f with tcount := BitVec.ofNat 32 (min (f.tcount.toNat + n) (2 ^ 32 - 1)) } := by
  induction n with
  | zero =>
    have : min (f.tcount.toNat + 0) (2 ^ 32 - 1) = f.tcount.toNat := by have := f.tcount.isLt; omega
    rw [this, BitVec.ofNat_toNat, BitVec.setWidth_eq, List.range_zero, List.foldl_nil]
  | succ n ih =>
    rw [List.range_succ, List.foldl_append, ih]
    simp only [List.foldl_cons, List.foldl_nil, Flight.countTrap]
    congr 1
    have h := f.tcount.isLt
    by_cases hc : 2 ^ 32 - 1 ≤ f.tcount.toNat + n
    · have e1 : min (f.tcount.toNat + n) (2 ^ 32 - 1) = 2 ^ 32 - 1 := by omega
      have e2 : min (f.tcount.toNat + (n + 1)) (2 ^ 32 - 1) = 2 ^ 32 - 1 := by omega
      rw [e1, e2]; rfl
    · have e1 : min (f.tcount.toNat + n) (2 ^ 32 - 1) = f.tcount.toNat + n := by omega
      have e2 : min (f.tcount.toNat + (n + 1)) (2 ^ 32 - 1) = f.tcount.toNat + n + 1 := by omega
      rw [e1, e2, if_neg]
      · apply BitVec.eq_of_toNat_eq; simp [BitVec.toNat_ofNat, BitVec.toNat_add]
      · intro hx
        have := congrArg BitVec.toNat hx
        simp [BitVec.toNat_ofNat] at this
        omega

/-- Lanes that enter the handler one after another. -/
theorem foldl_takeTrap {c : Ctx} {hd : DWord} (hh : c.ld.handler = some hd) (fnpc : DWord) (m : Nat) (x : Trap) (ls : List Nat)
    (hn : ls.Nodup) (hl : ∀ l ∈ ls, l < 8) (s : State)
    (hx : ∀ l ∈ ls, ∃ th, s.thread? c.fk l = some th ∧ th.hmode = false) :
    let t := ls.foldl (fun s l => takeTrap c fnpc m s l x) s
    t = { s with threads := t.threads, flights := t.flights } ∧
    (∀ k l, l < 8 → t.thread? k l = if k = c.fk ∧ l ∈ ls then
      (s.thread? k l).map (fun th => th.enterHandler hd x m c.start fnpc) else s.thread? k l) ∧
    (∀ k, k ≠ c.fk → tget t.flights k = tget s.flights k) ∧
    (∀ f, tget s.flights c.fk = some f → tget t.flights c.fk = some ((List.range ls.length).foldl (fun f _ => f.countTrap) f)) := by
  induction ls generalizing s with
  | nil => exact ⟨rfl, fun k l _ => by simp, fun _ _ => rfl, fun f h => h⟩
  | cons a ls ih =>
    obtain ⟨ha, hn⟩ := List.nodup_cons.mp hn
    have hl' : ∀ l ∈ ls, l < 8 := fun l h => hl l (List.mem_cons_of_mem _ h)
    have h8 : a < 8 := hl a List.mem_cons_self
    obtain ⟨th, ht, hm⟩ := hx a List.mem_cons_self
    have e : takeTrap c fnpc m s a x =
        (s.putThread c.fk a (th.enterHandler hd x m c.start fnpc)).modFlight c.fk Flight.countTrap := by
      simp only [takeTrap, ht, hh, hm]
    have q : ∀ k l, l < 8 → (takeTrap c fnpc m s a x).thread? k l = if k = c.fk ∧ l = a then
        some (th.enterHandler hd x m c.start fnpc) else s.thread? k l := by
      intro k l hk
      rw [e, thread_modFlight, thread_putThread _ h8 hk]
      by_cases h : k = c.fk ∧ l = a
      · obtain ⟨rfl, rfl⟩ := h; simp
      · rw [if_neg h, if_neg (fun h' => h ⟨h'.1.symm, h'.2.symm⟩)]
    have same : ∀ l ∈ ls, (takeTrap c fnpc m s a x).thread? c.fk l = s.thread? c.fk l := by
      intro l h
      rw [q c.fk l (hl' l h), if_neg]
      rintro ⟨_, rfl⟩; exact ha h
    obtain ⟨i1, i2, i3, i4⟩ := ih hn hl' (takeTrap c fnpc m s a x) (fun l h => by
      obtain ⟨y, y1, y2⟩ := hx l (List.mem_cons_of_mem _ h)
      exact ⟨y, (same l h).trans y1, y2⟩)
    simp only [List.foldl_cons]
    refine ⟨?_, fun k l hk => ?_, fun k hk => ?_, fun f hf => ?_⟩
    · rw [i1, e]; rfl
    · rw [i2 k l hk]
      by_cases hkf : k = c.fk
      · subst hkf
        by_cases hla : l = a
        · subst hla; simp [ha, q _ _ hk, ht]
        · by_cases hls : l ∈ ls
          · simp [hls, same l hls]
          · simp [hls, hla, q _ l hk]
      · simp [hkf, q k l hk]
    · rw [i3 k hk, e]; simp [tget_tmod_ne (Ne.symm hk)]
    · have hf1 : tget (takeTrap c fnpc m s a x).flights c.fk = some f.countTrap := by rw [e]; simp [hf]
      rw [i4 _ hf1]
      simp only [List.length_cons, List.range_succ_eq_map, List.foldl_cons, List.foldl_map]

/-- A fold over lanes that only those of a part change. -/
theorem foldl_sublist {ls ms : List Nat} {f g : State → Nat → State} (h : ls.Sublist ms) (hn : ms.Nodup)
    (hin : ∀ s, ∀ l ∈ ls, f s l = g s l) (hout : ∀ s, ∀ l ∈ ms, l ∉ ls → f s l = s) {s : State} : ms.foldl f s = ls.foldl g s := by
  induction h generalizing s with
  | slnil => rfl
  | @cons ls ms a h ih =>
    obtain ⟨ha, hn⟩ := List.nodup_cons.mp hn
    rw [List.foldl_cons, hout s a List.mem_cons_self (fun h' => ha (h.mem h'))]
    exact ih hn hin (fun s l hl => hout s l (List.mem_cons_of_mem _ hl))
  | @cons_cons ls ms a h ih =>
    obtain ⟨ha, hn⟩ := List.nodup_cons.mp hn
    rw [List.foldl_cons, List.foldl_cons, hin s a List.mem_cons_self]
    exact ih hn (fun s l hl => hin s l (List.mem_cons_of_mem _ hl)) (fun s l hl hx => hout s l (List.mem_cons_of_mem _ hl)
      (fun h' => (List.mem_cons.mp h').elim (fun h2 => ha (h2 ▸ hl)) hx))

/-- An instruction whose guard-true lanes `ls` all take the trap `x` (R105–R107). -/
theorem conclude_enters {s : State} {c : Ctx} {ls : List Nat} {hd : DWord} {x : Trap} (hc : s.ctx? = some c)
    (hsub : ls.Sublist c.lanes) (hh : c.ld.handler = some hd)
    (hm : ∀ l ∈ ls, ∀ th, s.thread? c.fk l = some th → th.hmode = false) :
    Enters s (conclude c s (ls.map (fun l => (l, Res.trap x)))) c ls hd x := by
  have hn : ls.Nodup := (ctx_nodup hc).sublist hsub
  have hl8 : ∀ l ∈ ls, l < 8 := fun l h => ctx_lt hc (hsub.mem h)
  have g1 : groupStall (ls.map (fun l => (l, Res.trap x))) = none := by
    clear hsub hm hn hl8
    induction ls with
    | nil => rfl
    | cons a ls ih => exact ih
  have g2 : trapLanes (ls.map (fun l => (l, Res.trap x))) = ls.map (fun l => (l, x)) := by
    clear hsub hm hn hl8 g1
    induction ls with
    | nil => rfl
    | cons a ls ih => exact congrArg ((a, x) :: ·) ih
  obtain ⟨a1, a2⟩ := foldl_modThread c.fk (fun l => settleThread c (resOf (ls.map (fun l => (l, Res.trap x))) l)) c.lanes
    (ctx_nodup hc) (fun l hl => ctx_lt hc hl) s
  have e : conclude c s (ls.map (fun l => (l, Res.trap x))) =
      adviseSwap c (ls.map (fun l => (l, Res.trap x))) (passSlot c (ls.map (fun l => (l, Res.trap x)))
      (ls.foldl (fun s l => takeTrap c (nextPc c.pc) (laneMask ls).toNat s l x)
        (c.lanes.foldl (fun s l => s.modThread c.fk l (settleThread c (resOf (ls.map (fun l => (l, Res.trap x))) l))) s))) := by
    unfold conclude concludeAt wholeGroup
    simp only [g1]
    have hm : (trapLanes (ls.map (fun l => (l, Res.trap x)))).map (·.1) = ls := by
      rw [g2, List.map_map]; exact List.map_id ls
    unfold takeOutcomes
    rw [foldl_sublist (g := fun s l => takeTrap c (nextPc c.pc) (laneMask ls).toNat s l x) hsub (ctx_nodup hc)
      (fun s l hl => by simp only [takeOutcome, resOf_map, if_pos hl, hm])
      (fun s l _ hl => by simp only [takeOutcome, resOf_map, if_neg hl])]
    rfl
  rw [e]
  generalize c.lanes.foldl (fun s l => s.modThread c.fk l (settleThread c (resOf (ls.map (fun l => (l, Res.trap x))) l))) s = w at *
  have keep : ∀ l ∈ ls, w.thread? c.fk l = s.thread? c.fk l := by
    intro l hl
    rw [a2 c.fk l (hl8 l hl), if_pos ⟨rfl, hsub.mem hl⟩, resOf_map, if_pos hl]
    cases s.thread? c.fk l <;> rfl
  obtain ⟨b1, b2, b3, b4⟩ := foldl_takeTrap hh (nextPc c.pc) (laneMask ls).toNat x ls hn hl8 w (fun l hl => by
    obtain ⟨th, ht⟩ := ctx_thread hc (hsub.mem hl)
    exact ⟨th, (keep l hl).trans ht, hm l hl th ht⟩)
  generalize ls.foldl (fun s l => takeTrap c (nextPc c.pc) (laneMask ls).toNat s l x) w = v at *
  obtain ⟨p1, p2, p3⟩ := passSlot_spec c (ls.map (fun l => (l, Res.trap x))) v
  generalize adviseSwap c (ls.map (fun l => (l, Res.trap x))) (passSlot c (ls.map (fun l => (l, Res.trap x))) v) = t at *
  have hth : ∀ k l, t.thread? k l = v.thread? k l := by intro k l; rw [p1]; rfl
  have hfl : w.flights = s.flights := by rw [a1]
  refine ⟨?_, fun l hl th ht => ?_, fun l hl hnl th ht => ?_, fun k l hk hn' => ?_, fun k hk => ?_, fun f hf => ?_⟩
  · rw [p1, b1, a1]
  · rw [hth, b2 c.fk l (hl8 l hl), if_pos ⟨rfl, hl⟩, keep l hl, ht]; rfl
  · have h8 := ctx_lt hc hl
    rw [hth, b2 c.fk l h8, if_neg (fun h => hnl h.2), a2 c.fk l h8, if_pos ⟨rfl, hl⟩, ht, resOf_map, if_neg hnl]; rfl
  · have : ¬ (k = c.fk ∧ l ∈ c.lanes) := fun h => hn'.elim (fun h1 => h1 h.1) (fun h1 => h1 h.2)
    rw [hth, b2 k l hk, if_neg (fun h => this ⟨h.1, hsub.mem h.2⟩), a2 k l hk, if_neg this]
  · rw [p2 k hk, b3 k hk, hfl]
  · rw [← hfl] at hf
    obtain ⟨f', h1, h2⟩ := p3 _ (b4 f hf)
    exact ⟨f', h1, by rw [countTrap_n] at h2; exact h2⟩

/-- A lane-local instruction whose guard-true lanes all take the trap `x`. -/
theorem laneOp_traps {s : State} {c : Ctx} {h : HintUse} {g : BitVec 3} {ps : List (BitVec 3)} {us : List RegUse}
    {f : Ctx → State → Nat → Thread → LaneOut} {ls : List Nat} {hd : DWord} {x : Trap} (hi : Issues s c h g ps)
    (hls : guardLanes s c g = ls) (hne : ls ≠ []) (hh : c.ld.handler = some hd)
    (hm : ∀ l ∈ ls, ∀ th, s.thread? c.fk l = some th → th.hmode = false)
    (hw : ∀ l ∈ ls, ∀ th, s.thread? c.fk l = some th → th.awaits (allRegs us) = false)
    (hf : ∀ l ∈ ls, ∀ th, s.thread? c.fk l = some th →
      regTrap c.ld.regs th us = some x ∨ (regTrap c.ld.regs th us = none ∧ f c s l th = .trap x)) :
    Enters s (issueP s h g ps (laneBody us f)) c ls hd x := by
  have hsub : ls.Sublist c.lanes := hls ▸ guardLanes_sub s c g
  have e : issueP s h g ps (laneBody us f) = conclude c s (ls.map (fun l => (l, Res.trap x))) := by
    have hna : anyAwaits s c.fk (allRegs us) ls = false := by
      unfold anyAwaits
      rw [List.any_eq_false]
      intro l hl
      cases ht : s.thread? c.fk l with
      | none => simp
      | some th => simpa using hw l hl th ht
    have hr : ∀ (ms : List Nat) (rs : List (Nat × Res)), (∀ l ∈ ms, l ∈ ls) →
        ms.foldl (runLane c.ld.regs c.fk us (f c s)) (s, rs) = (s, rs ++ ms.map (fun l => (l, Res.trap x))) := by
      intro ms
      induction ms with
      | nil => intro rs _; simp
      | cons m ms im =>
        intro rs hm'
        have hml := hm' m List.mem_cons_self
        obtain ⟨th, ht⟩ := ctx_thread hi.ctx (hsub.mem hml)
        have e1 : runLane c.ld.regs c.fk us (f c s) (s, rs) m = (s, rs ++ [(m, Res.trap x)]) := by
          rcases hf m hml th ht with h1 | ⟨h1, h2⟩
          · simp [runLane, ht, h1]
          · simp [runLane, ht, h1, h2]
        rw [List.foldl_cons, e1, im _ (fun l h => hm' l (List.mem_cons_of_mem _ h))]
        simp
    have hb : laneBody us f c ls s = (s, ls.map (fun l => (l, Res.trap x))) := by
      simp only [laneBody, hna, Bool.false_eq_true, if_false, hr ls [] (fun _ h => h), List.nil_append]
    unfold issueP issueRaw
    simp only [hi.ctx, hi.hints, if_true, hi.preds, Bool.false_eq_true, if_false, hls]
    cases ls with
    | nil => exact absurd rfl hne
    | cons a as => simp only [hb]
  rw [e]
  exact conclude_enters hi.ctx hsub hh hm

/-! ## Instructions over the whole group -/

theorem resOf_still (ls : List Nat) (l : Nat) : resOf (ls.map (fun l => (l, Res.still))) l = if l ∈ ls then .still else .done :=
  resOf_map ls (fun _ => .still) l

/-- An instruction that places its guard-true lanes itself. -/
theorem issueP_settles {s : State} {c : Ctx} {h : HintUse} {g : BitVec 3} {ps : List (BitVec 3)} {body : Body} {ls : List Nat}
    (hi : Issues s c h g ps) (hls : guardLanes s c g = ls) (hne : ls ≠ [])
    (hd : (body c ls s).2 = ls.map (fun l => (l, .still))) :
    Settles (body c ls s).1 (issueP s h g ps body) c ls := by
  have e : issueP s h g ps body = conclude c (body c ls s).1 (ls.map (fun l => (l, .still))) := by
    unfold issueP issueRaw
    simp only [hi.ctx, hi.hints, if_true, hi.preds, Bool.false_eq_true, if_false, hls]
    cases ls with
    | nil => exact absurd rfl hne
    | cons a as => rw [← hd]
  have hs : ∀ p ∈ ls.map (fun l => (l, Res.still)), p.2.smooth = true := by
    intro p hp
    obtain ⟨l, _, rfl⟩ := List.mem_map.mp hp
    rfl
  obtain ⟨c1, c2, c3, c4⟩ := conclude_spec hi.ctx (s1 := (body c ls s).1) hs
  have hsub : ls.Sublist c.lanes := hls ▸ guardLanes_sub s c g
  rw [e]
  refine ⟨c1, fun l hl th ht => ?_, fun l hl hn th ht => ?_, fun k l hk hn => ?_, c3, c4⟩
  · rw [c2 c.fk l (ctx_lt hi.ctx (hsub.mem hl)), if_pos ⟨rfl, hsub.mem hl⟩, ht, resOf_still, if_pos hl]; rfl
  · rw [c2 c.fk l (ctx_lt hi.ctx hl), if_pos ⟨rfl, hl⟩, ht, resOf_still, if_neg hn]; rfl
  · rw [c2 k l hk, if_neg]
    exact fun h => hn.elim (fun h1 => h1 h.1) (fun h1 => h1 h.2)

/-- Threads of some lanes written one after another. -/
theorem foldl_putThread (fk : Nat) (F : Nat → Thread → Thread) (q : List (Nat × Thread)) (hn : (q.map (·.1)).Nodup)
    (hl : ∀ p ∈ q, p.1 < 8) (s : State) :
    let t := q.foldl (fun s p => s.putThread fk p.1 (F p.1 p.2)) s
    t = { s with threads := t.threads } ∧
    (∀ p ∈ q, t.thread? fk p.1 = some (F p.1 p.2)) ∧
    ∀ k l, l < 8 → (k ≠ fk ∨ l ∉ q.map (·.1)) → t.thread? k l = s.thread? k l := by
  induction q generalizing s with
  | nil => exact ⟨rfl, by simp, fun _ _ _ _ => rfl⟩
  | cons a q ih =>
    rw [List.map_cons, List.nodup_cons] at hn
    have h8 := hl a List.mem_cons_self
    obtain ⟨h1, h2, h3⟩ := ih hn.2 (fun p h => hl p (List.mem_cons_of_mem _ h)) (s.putThread fk a.1 (F a.1 a.2))
    simp only [List.foldl_cons]
    refine ⟨?_, fun p hp => ?_, fun k l hk hne => ?_⟩
    · rw [h1]; rfl
    · rcases List.mem_cons.mp hp with rfl | hp
      · rw [h3 fk p.1 h8 (.inr hn.1), thread_putThread _ h8 h8]; simp
      · exact h2 p hp
    · rw [List.map_cons, List.mem_cons, not_or] at hne
      rw [h3 k l hk (hne.imp id (·.2)), thread_putThread _ h8 hk, if_neg]
      rintro ⟨rfl, rfl⟩
      rcases hne with h | h
      · exact h rfl
      · exact h.1 rfl

theorem party_fst {s : State} {c : Ctx} {ls : List Nat} (h : ∀ l ∈ ls, ∃ t, s.thread? c.fk l = some t) :
    (party s c ls).map (·.1) = ls := by
  induction ls with
  | nil => rfl
  | cons a ls ih =>
    obtain ⟨t, ht⟩ := h a List.mem_cons_self
    have := ih (fun l hl => h l (List.mem_cons_of_mem _ hl))
    simp only [party, List.filterMap_cons, ht, Option.map_some, List.map_cons] at this ⊢
    rw [this]

theorem party_mem {s : State} {c : Ctx} {ls : List Nat} {p : Nat × Thread} :
    p ∈ party s c ls ↔ p.1 ∈ ls ∧ s.thread? c.fk p.1 = some p.2 := by
  simp only [party, List.mem_filterMap, Option.map_eq_some_iff]
  constructor
  · rintro ⟨l, hl, t, ht, rfl⟩; exact ⟨hl, ht⟩
  · rintro ⟨hl, ht⟩; exact ⟨p.1, hl, p.2, ht, rfl⟩

/-- A cross-lane instruction of which no lane traps. -/
theorem xlaneP_lanes {s : State} {c : Ctx} {g : BitVec 3} {ps : List (BitVec 3)} {us : List RegUse}
    {f : List (Nat × Thread) → Nat → Thread → Thread} {fl : List (Nat × Thread) → FFlags} {t : State}
    (ht : xlaneP ps us g f fl s = .next t) (hi : Issues s c HintUse.none g ps) (hu : Usable s c g us) :
    Lanes s t c g (f (party s c (guardLanes s c g))) ∧
    Keeps s t c (if guardLanes s c g = [] then 0 else fl (party s c (guardLanes s c g))) := by
  have hc := hi.ctx
  have hsub := guardLanes_sub s c g
  have hth : ∀ l ∈ guardLanes s c g, ∃ t, s.thread? c.fk l = some t := fun l hl => ctx_thread hc (hsub.mem hl)
  -- the state that the body leaves
  have hb : ∃ s1 rs, t = conclude c s1 rs ∧ (∀ p ∈ rs, p.2 = .done) ∧ s1 = { s with threads := s1.threads, flights := s1.flights } ∧
      (∀ l ∈ guardLanes s c g, ∀ th, s.thread? c.fk l = some th →
        s1.thread? c.fk l = some (f (party s c (guardLanes s c g)) l th)) ∧
      (∀ k l, l < 8 → (k ≠ c.fk ∨ l ∉ guardLanes s c g) → s1.thread? k l = s.thread? k l) ∧
      (∀ k, k ≠ c.fk → tget s1.flights k = tget s.flights k) ∧
      (∀ x, tget s.flights c.fk = some x → tget s1.flights c.fk = some { x with
        fpflags := x.fpflags ||| (if guardLanes s c g = [] then 0 else fl (party s c (guardLanes s c g))) }) := by
    unfold xlaneP issueP issueRaw at ht
    simp only [hc, hi.hints, if_true, hi.preds, Bool.false_eq_true, if_false] at ht
    cases hgl : guardLanes s c g with
    | nil =>
      rw [hgl] at ht
      refine ⟨s, [], (Host.Outcome.next.inj ht).symm, (fun p h => by cases h), rfl, (by simp), fun _ _ _ _ => rfl, fun _ _ => rfl, fun x hx => by simp [hx]⟩
    | cons a as =>
      rw [hgl] at ht hth hsub
      have hna : anyAwaits s c.fk (allRegs us) (a :: as) = false := by
        unfold anyAwaits
        rw [List.any_eq_false]
        intro l hl
        cases h1 : s.thread? c.fk l with
        | none => simp
        | some th => simpa using (hu l (hgl ▸ hl) th h1).2
      have hq : (party s c (a :: as)).filter (fun p => (regTrap c.ld.regs p.2 us).isNone) = party s c (a :: as) := by
        rw [List.filter_eq_self]
        intro p hp
        have := party_mem.mp hp
        rw [(hu p.1 (hgl ▸ this.1) p.2 this.2).1]; rfl
      have hbad : (party s c (a :: as)).filterMap (fun p => (regTrap c.ld.regs p.2 us).map (fun x => (p.1, Res.trap x))) = [] := by
        rw [List.filterMap_eq_nil_iff]
        intro p hp
        have := party_mem.mp hp
        rw [(hu p.1 (hgl ▸ this.1) p.2 this.2).1]; rfl
      have hpar : (a :: as).filterMap (fun l => (s.thread? c.fk l).map (fun t => (l, t))) = party s c (a :: as) := rfl
      simp only [hna, Bool.false_eq_true, if_false, hpar, hq, hbad] at ht
      obtain ⟨p1, p2, p3⟩ := foldl_putThread c.fk (fun l th => f (party s c (a :: as)) l th) (party s c (a :: as))
        (by rw [party_fst hth]; exact (ctx_nodup hc).sublist hsub)
        (fun p hp => ctx_lt hc (hsub.mem (party_mem.mp hp).1)) s
      refine ⟨_, _, (Host.Outcome.next.inj ht).symm, (fun p hp => ?_), ?_, fun l hl th h1 => ?_, fun k l hk hn => ?_, fun k hk => ?_, fun x hx => ?_⟩
      · simp only [List.append_nil, allDone, List.mem_map] at hp
        obtain ⟨_, _, rfl⟩ := hp
        rfl
      · conv => lhs; rw [State.orFlags]
        rw [p1]; rfl
      · rw [thread_orFlags]
        exact p2 (l, th) (party_mem.mpr ⟨hl, h1⟩)
      · rw [thread_orFlags]
        exact p3 k l hk (by rw [party_fst hth]; exact hn)
      · rw [p1]; simp [State.orFlags, tget_tmod_ne (Ne.symm hk)]
      · rw [p1]; simp [State.orFlags, hx]
  obtain ⟨s1, rs, e, hrs, b1, b2, b3, b4, b5⟩ := hb
  have hp := conclude_passes hc (s1 := s1) hrs
  rw [← e] at hp
  refine ⟨fun l hl th h1 => ?_, ⟨?_, fun k l hk hn => ?_, fun k hk => ?_, fun x hx => ?_⟩⟩
  · have hm := guardLanes_mem (g := g) h1
    by_cases hpr : th.pred g.toNat = true
    · rw [if_pos hpr]
      exact hp.lanes l hl _ (b2 l (hm.mpr ⟨hl, hpr⟩) th h1)
    · rw [if_neg hpr]
      exact hp.lanes l hl _ ((b3 c.fk l (ctx_lt hc hl) (.inr (fun h => hpr (hm.mp h).2))).trans h1)
  · rw [hp.rest, b1]
  · rw [hp.threads k l hk hn]
    exact b3 k l hk (hn.imp id (fun h h2 => h (hsub.mem h2)))
  · rw [hp.flights k hk, b4 k hk]
  · obtain ⟨x', h1, h2⟩ := hp.flight _ (b5 x hx)
    refine ⟨x', h1, ?_⟩
    unfold slotted at h2 ⊢
    rw [h2]
    simp

end Sys2Proof.Machine
end

