-- ==== Sys2Proof/Laws/Access.lean ====
section
/-!
SUPPORT. What a memory instruction leaves when every lane passes its checks.
-/

namespace Sys2Proof.Machine

/-- A lane that passes the checks of an access. -/
def passes (s : State) (c : Ctx) (us : List RegUse) (check : Ctx → State → Thread → Checked) (l : Nat) : Prop :=
  ∃ th p, s.thread? c.fk l = some th ∧ regTrap c.ld.regs th us = none ∧ check c s th = .ok p

/-- What the checks of lanes that all pass come to: nothing is held, trapped or lost. -/
theorem checks_pass {s : State} {c : Ctx} {us : List RegUse} {check : Ctx → State → Thread → Checked}
    (E : State → Nat → Thread → Loc → State) (ls : List Nat) (h : ∀ l ∈ ls, passes s c us check l) :
    let k := checkLanes us check c ls s
    (∀ p ∈ k, ∃ x, p.2.2 = .ok x) ∧ k.oks.length = ls.length ∧
    ∀ t0, k.oks.foldl (fun s p => E s p.1 p.2.1 p.2.2) t0 = ls.foldl (fun t l =>
      match s.thread? c.fk l with
      | some th =>
        match check c s th with
        | .ok p => E t l th p
        | _ => t
      | none => t) t0 := by
  induction ls with
  | nil => exact ⟨by simp [checkLanes], rfl, fun _ => rfl⟩
  | cons a ls ih =>
    obtain ⟨th, p, h1, h2, h3⟩ := h a List.mem_cons_self
    obtain ⟨i1, i2, i3⟩ := ih (fun l hl => h l (List.mem_cons_of_mem _ hl))
    have e : checkLanes us check c (a :: ls) s = (a, th, .ok p) :: checkLanes us check c ls s := by
      simp [checkLanes, h1, h2, h3]
    simp only [e]
    refine ⟨fun q hq => ?_, ?_, fun t0 => ?_⟩
    · rcases List.mem_cons.mp hq with rfl | hq
      · exact ⟨p, rfl⟩
      · exact i1 q hq
    · simpa [Checks.oks] using i2
    · simpa [Checks.oks, h1, h3] using i3 (E t0 a th p)

theorem filterMap_ok {β : Type} {k : Checks} {f : Nat × Thread × Checked → Option β} (h : ∀ p ∈ k, ∃ x, p.2.2 = .ok x)
    (hf : ∀ p, (∃ x, p.2.2 = Checked.ok x) → f p = none) : k.filterMap f = [] := by
  rw [List.filterMap_eq_nil_iff]
  exact fun p hp => hf p (h p hp)

theorem bads_ok {k : Checks} (h : ∀ p ∈ k, ∃ x, p.2.2 = .ok x) : k.bads = [] :=
  filterMap_ok h (by rintro p ⟨x, hx⟩; simp [hx])

theorem losses_ok {k : Checks} (h : ∀ p ∈ k, ∃ x, p.2.2 = .ok x) : k.losses = [] :=
  filterMap_ok h (by rintro p ⟨x, hx⟩; simp [hx])

theorem hold_ok {k : Checks} (c : Ctx) (g : List Nat) (s : State) (h : ∀ p ∈ k, ∃ x, p.2.2 = .ok x) : k.hold c g s = none := by
  have h1 : k.any (fun p => p.2.2 == .cross) = false := by
    rw [List.any_eq_false]
    intro p hp
    obtain ⟨x, hx⟩ := h p hp
    simp [hx]
  unfold Checks.hold
  simp only
  rw [filterMap_ok h (by rintro p ⟨x, hx⟩; simp [hx]), filterMap_ok h (by rintro p ⟨x, hx⟩; simp [hx])]
  simp [h1]

/-- A memory instruction whose lanes all pass: they enter their accesses as one operation, and nothing is held or trapped. -/
theorem accessBody_enters {s : State} {c : Ctx} {us : List RegUse} {o : Ctx → AccOrder} {k : Cls} {n : Nat}
    {check : Ctx → State → Thread → Checked} {req : Ctx → Thread → AccReq} {ls : List Nat} (hne : ls ≠ [])
    (hw : anyAwaits s c.fk (allRegs us) ls = false) (h : ∀ l ∈ ls, passes s c us check l) (hf : c.fl.full k = false) :
    accessBody us o (some k) n check req c ls s =
      (State.joinOp (ls.foldl (fun t l =>
        match s.thread? c.fk l with
        | some th =>
          match check c s th with
          | .ok p => enterAccess c (o c) c.cache n (some (k, (c.fl.counter k).issued)) t l th p (req c th)
          | _ => t
        | none => t) s) c.fk k, allDone ((checkLanes us check c ls s).oks.map (·.1))) := by
  obtain ⟨i1, i2, i3⟩ := checks_pass
    (fun t l th p => enterAccess c (o c) c.cache n (some (k, (c.fl.counter k).issued)) t l th p (req c th)) ls h
  unfold accessBody
  simp only [hw, Bool.false_eq_true, if_false, hold_ok c ls s i1, losses_ok i1, Checks.results, bads_ok i1, List.foldl_nil,
    List.nil_append]
  cases ho : (checkLanes us check c ls s).oks with
  | nil => rw [ho] at i2; exact absurd (List.length_eq_zero_iff.mp i2.symm) hne
  | cons a as =>
    simp only [hf, Bool.false_eq_true, if_false]
    rw [← ho, i3 s]

end Sys2Proof.Machine
end

