-- ==== Sys2Proof/Laws/Bodies.lean ====
section
/-!
SUPPORT. What the checks of an instruction over a whole group come to when every lane passes them; what a hold leaves.
-/

namespace Sys2Proof.Machine

/-! ## Checks that every lane passes -/

theorem tput_tput {α : Type} (t : Tab α) (k : Nat) (v w : α) : tput (tput t k v) k w = tput t k w := by
  induction t with
  | nil => simp [tput]
  | cons p t ih =>
    obtain ⟨j, u⟩ := p
    simp only [tput]
    split
    · simp [tput]
    · split
      · simp [tput]
      · next h1 h2 => simp [tput, h1, h2, ih]

theorem tmod_of_get {α : Type} {t : Tab α} {k : Nat} {v : α} (f : α → α) (h : tget t k = some v) :
    tmod t k f = tput t k (f v) := by
  simp [tmod, h]

theorem anyAwaits_false {s : State} {fk : Nat} {rs ls : List Nat}
    (h : ∀ l ∈ ls, ∀ th, s.thread? fk l = some th → th.awaits rs = false) : anyAwaits s fk rs ls = false := by
  unfold anyAwaits
  rw [List.any_eq_false]
  intro l hl
  cases ht : s.thread? fk l with
  | none => simp
  | some th => simpa using h l hl th ht

theorem anyAwaits_usable {s : State} {c : Ctx} {g : BitVec 3} {us : List RegUse} {ls : List Nat} (hu : Usable s c g us)
    (hls : guardLanes s c g = ls) : anyAwaits s c.fk (allRegs us) ls = false :=
  anyAwaits_false (fun l hl th ht => (hu l (hls ▸ hl) th ht).2)

theorem splitLanes_all {s : State} {c : Ctx} {ls : List Nat} {chk : Thread → Option Trap}
    (h : ∀ l ∈ ls, ∀ th, s.thread? c.fk l = some th → chk th = none) : splitLanes s c.fk ls chk = (party s c ls, []) := by
  have hp : ls.filterMap (fun l => (s.thread? c.fk l).map (fun t => (l, t))) = party s c ls := rfl
  have hm : ∀ p ∈ party s c ls, chk p.2 = none := fun p hp => h p.1 (party_mem.mp hp).1 p.2 (party_mem.mp hp).2
  unfold splitLanes
  rw [hp]
  refine Prod.ext ?_ ?_
  · rw [List.filter_eq_self]
    intro p hp
    rw [hm p hp]; rfl
  · rw [List.filterMap_eq_nil_iff]
    intro p hp
    rw [hm p hp]; rfl

theorem splitLanes_usable {s : State} {c : Ctx} {g : BitVec 3} {us : List RegUse} {ls : List Nat} (hu : Usable s c g us)
    (hls : guardLanes s c g = ls) : splitLanes s c.fk ls (fun t => regTrap c.ld.regs t us) = (party s c ls, []) :=
  splitLanes_all (fun l hl th ht => (hu l (hls ▸ hl) th ht).1)

/-- The lanes of the guard have threads, and their party lists them. -/
theorem party_guard {s : State} {c : Ctx} {g : BitVec 3} {ls : List Nat} (hc : s.ctx? = some c) (hls : guardLanes s c g = ls) :
    (party s c ls).map (·.1) = ls :=
  party_fst (fun _ hl => ctx_thread hc ((hls ▸ guardLanes_sub s c g).mem hl))

theorem allDone_done {ls : List Nat} : ∀ p ∈ allDone ls, p.2 = Res.done := by
  intro p hp
  obtain ⟨l, _, rfl⟩ := List.mem_map.mp hp
  rfl

/-! ## One issue of a guarded instruction -/

/-- An instruction that issues for at least one lane runs its body and concludes. -/
theorem issueP_eq {s : State} {c : Ctx} {h : HintUse} {g : BitVec 3} {ps : List (BitVec 3)} {body : Body} {ls : List Nat}
    (hi : Issues s c h g ps) (hls : guardLanes s c g = ls) (hne : ls ≠ []) :
    issueP s h g ps body = conclude c (body c ls s).1 (body c ls s).2 := by
  unfold issueP issueRaw
  simp only [hi.ctx, hi.hints, if_true, hi.preds, Bool.false_eq_true, if_false, hls]
  cases ls with
  | nil => exact absurd rfl hne
  | cons a as => rfl

/-! ## Holds -/

/-- Lanes that are only held take no trap and end nothing. -/
theorem takeOutcomes_holds (c : Ctx) (fnpc : DWord) (s : State) (ls : List Nat) (st : Stall) :
    takeOutcomes c fnpc (ls.map (fun l => (l, Res.hold st))) s = s := by
  unfold takeOutcomes
  generalize c.lanes = ms
  induction ms with
  | nil => rfl
  | cons m ms ih =>
    have e : takeOutcome c fnpc (ls.map (fun l => (l, Res.hold st))) s m = s := by
      unfold takeOutcome
      rw [resOf_map ls (fun _ => Res.hold st)]
      split <;> rename_i h <;> first | rfl | (split at h <;> cases h)
    rw [List.foldl_cons, e, ih]

/-- The end of a slot whose results, spread over the group, hold the lanes `ls`. -/
theorem conclude_holds_of {s s1 : State} {c : Ctx} {rs : List (Nat × Res)} {ls : List Nat} {st : Stall} (hc : s.ctx? = some c)
    (hsub : ∀ l ∈ ls, l ∈ c.lanes) (hw : wholeGroup c rs = ls.map (fun l => (l, Res.hold st))) :
    Holds s1 (conclude c s1 rs) c ls st := by
  obtain ⟨h1, h2⟩ := foldl_modThread c.fk (fun l => settleThread c (resOf (ls.map (fun l => (l, Res.hold st))) l)) c.lanes
    (ctx_nodup hc) (fun l hl => ctx_lt hc hl) s1
  have e : conclude c s1 rs = adviseSwap c (ls.map (fun l => (l, Res.hold st))) (passSlot c (ls.map (fun l => (l, Res.hold st)))
      (c.lanes.foldl (fun s l => s.modThread c.fk l (settleThread c (resOf (ls.map (fun l => (l, Res.hold st))) l))) s1)) := by
    unfold conclude concludeAt
    simp only [hw, takeOutcomes_holds]
    rfl
  rw [e]
  generalize c.lanes.foldl (fun s l => s.modThread c.fk l (settleThread c (resOf (ls.map (fun l => (l, Res.hold st))) l))) s1 = w at *
  obtain ⟨p1, p2, p3⟩ := passSlot_spec c (ls.map (fun l => (l, Res.hold st))) w
  generalize adviseSwap c (ls.map (fun l => (l, Res.hold st))) (passSlot c (ls.map (fun l => (l, Res.hold st))) w) = t at *
  have hth : ∀ k l, t.thread? k l = w.thread? k l := by intro k l; rw [p1]; rfl
  have hfl : w.flights = s1.flights := by rw [h1]
  refine ⟨?_, fun l hl th ht => ?_, fun l hl hn th ht => ?_, fun k l hk hn => ?_, fun k hk => ?_, fun f hf => ?_⟩
  · rw [p1, h1]
  · rw [hth, h2 c.fk l (ctx_lt hc (hsub l hl)), if_pos ⟨rfl, hsub l hl⟩, ht, resOf_map, if_pos hl]; rfl
  · rw [hth, h2 c.fk l (ctx_lt hc hl), if_pos ⟨rfl, hl⟩, ht, resOf_map, if_neg hn]; rfl
  · rw [hth, h2 k l hk, if_neg]
    exact fun h => hn.elim (fun h1 => h1 h.1) (fun h1 => h1 h.2)
  · rw [p2 k hk, hfl]
  · rw [← hfl] at hf; exact p3 f hf

/-- Under a stall of the group a lane that does not trap is held. -/
theorem heldRes_hold {st : Stall} {r : Res} (h : ∀ x, r ≠ .trap x) : heldRes st r = .hold st := by
  cases r <;> first | rfl | exact absurd rfl (h _)

/-- A stall of the group holds every lane of it, where none of them traps. -/
theorem conclude_holds {s s1 : State} {c : Ctx} {rs : List (Nat × Res)} {st : Stall} (hc : s.ctx? = some c)
    (hg : groupStall rs = some st) (ht : ∀ l x, resOf rs l ≠ .trap x) : Holds s1 (conclude c s1 rs) c c.lanes st :=
  conclude_holds_of hc (fun _ h => h) (by
    unfold wholeGroup; rw [hg]
    exact List.map_congr_left (fun l _ => by rw [heldRes_hold (ht l)]))

/-- A stall of single lanes holds those lanes. -/
theorem conclude_holds_some {s s1 : State} {c : Ctx} {ls : List Nat} {st : Stall} (hc : s.ctx? = some c)
    (hsub : ∀ l ∈ ls, l ∈ c.lanes) (hg : st.group = false) :
    Holds s1 (conclude c s1 (ls.map (fun l => (l, Res.hold st)))) c ls st := by
  refine conclude_holds_of hc hsub ?_
  have : groupStall (ls.map (fun l => (l, Res.hold st))) = none := by
    induction ls with
    | nil => rfl
    | cons a as ih =>
      simp only [List.map_cons, groupStall, hg, Bool.false_eq_true, if_false]
      exact ih (fun l h => hsub l (List.mem_cons_of_mem _ h))
  unfold wholeGroup; rw [this]

/-! ## Instructions of the lowest lane -/

/-- An instruction that acts once, from its lowest guard-true lane, whose registers can be used. -/
theorem clactl_eq {s : State} {c : Ctx} {g : BitVec 3} {us : List RegUse} {th : Thread} {ls : List Nat}
    {f : Ctx → State → Thread → Nat → List Nat → State × List (Nat × Res)} (hi : Issues s c HintUse.none g [])
    (hls : guardLanes s c g = ls) (hne : ls ≠ []) (ht : s.thread? c.fk (ls.headD 0) = some th)
    (hr : regTrap c.ld.regs th us = none) (ha : th.awaits (allRegs us) = false) :
    clactl us g f s = .next (conclude c (f c s th (ls.headD 0) ls).1 (f c s th (ls.headD 0) ls).2) := by
  have hna : anyAwaits s c.fk (allRegs us) [ls.headD 0] = false :=
    anyAwaits_false (fun l hl t h1 => by
      rw [List.mem_singleton] at hl; subst hl; rw [ht] at h1; cases h1; exact ha)
  unfold clactl issue
  rw [issueP_eq hi hls hne]
  simp only [ht, hna, Bool.false_eq_true, if_false, hr]

/-- The same, when every lane goes on. -/
theorem clactl_passes {s : State} {c : Ctx} {g : BitVec 3} {us : List RegUse} {th : Thread} {ls : List Nat}
    {f : Ctx → State → Thread → Nat → List Nat → State × List (Nat × Res)} (hi : Issues s c HintUse.none g [])
    (hls : guardLanes s c g = ls) (hne : ls ≠ []) (ht : s.thread? c.fk (ls.headD 0) = some th)
    (hr : regTrap c.ld.regs th us = none) (ha : th.awaits (allRegs us) = false)
    (hd : ∀ p ∈ (f c s th (ls.headD 0) ls).2, p.2 = Res.done) :
    ∃ t, clactl us g f s = .next t ∧ Passes (f c s th (ls.headD 0) ls).1 t c :=
  ⟨_, clactl_eq hi hls hne ht hr ha, conclude_passes hi.ctx hd⟩

end Sys2Proof.Machine
end

