-- ==== Sys2Proof/Laws/Exec.lean ====
section
/-!
SUPPORT. Every instruction of the table has a next state: no meaning faults and none refuses.
-/

namespace Sys2Proof.Machine

theorem exec_next (i : Instr) (s : State) : ∃ t, exec i s = .next t := by
  cases i <;> first
    | exact ⟨_, rfl⟩
    | (simp only [exec, execCsrr, execCsrw, execSreg, execCset, execNInfo, execIngLoss, execPartQ]
       first
       | exact ⟨_, rfl⟩
       | (split <;> exact ⟨_, rfl⟩))

theorem thenNext_next {f : State → State} {o : Out} (h : ∃ t, o = .next t) : ∃ t, thenNext f o = .next t := by
  obtain ⟨t, rfl⟩ := h; exact ⟨_, rfl⟩

theorem issueWord_next (s : State) (core bay : Nat) (x : Resident) : ∃ t, s.issueWord core bay x = .next t := by
  unfold State.issueWord
  simp only
  split
  · exact ⟨_, rfl⟩
  · exact thenNext_next (exec_next _ _)

theorem issueTurn_next (s : State) (core bay : Nat) : ∃ t, s.issueTurn core bay = .next t := by
  unfold State.issueTurn
  simp only
  split
  · exact exec_next _ _
  · split
    · exact ⟨_, rfl⟩
    · split
      · exact exec_next _ _
      · split
        · exact exec_next _ _
        · exact issueWord_next _ _ _ _

theorem turn_next (s : State) (t : Turn) : ∃ u, s.turn t = .next u := by
  cases t with
  | issue core bay => simp only [State.turn]; split <;> first | exact ⟨_, rfl⟩ | exact thenNext_next (issueTurn_next _ _ _)
  | event e => simp only [State.turn]; split <;> first | exact ⟨_, rfl⟩ | exact thenNext_next (exec_next _ _)
  | copyUnit core i unit => simp only [State.turn]; split <;> exact ⟨_, rfl⟩
  | input x => exact ⟨_, rfl⟩
  | elapse d n => simp only [State.turn]; split <;> exact ⟨_, rfl⟩

end Sys2Proof.Machine
end

