-- ==== Sys2Proof/Laws/Memory.lean ====
section
/-!
SUPPORT. The laws of the memories: a read after a write, and that every operation keeps the canonical form.
-/

namespace Sys2Proof.Machine

/-! ## Byte memories: read after write -/

theorem readCell_writeCell (m : List Host.Cell) (a c : Nat) (b : Byte) :
    readCell (writeCell m a b) c = if a = c then b else readCell m c := tgetD_tputD 0 m a c b

theorem readCell_writeCells (m : List Host.Cell) (a c : Nat) (bs : List Byte) :
    readCell (writeCells m a bs) c = if a ≤ c ∧ c < a + bs.length then bs.getD (c - a) 0 else readCell m c := by
  induction bs generalizing m a with
  | nil => simp only [writeCells, List.length_nil]; split <;> first | omega | rfl
  | cons b bs ih =>
    simp only [writeCells, ih, readCell_writeCell, List.length_cons]
    by_cases h : a = c
    · subst h; rw [if_neg (by omega), if_pos rfl, if_pos (by omega), Nat.sub_self]; rfl
    · by_cases h2 : a + 1 ≤ c ∧ c < a + 1 + bs.length
      · have h3 : a ≤ c ∧ c < a + (bs.length + 1) := by omega
        have h4 : c - a = c - (a + 1) + 1 := by omega
        simp only [h2, and_self, if_true, h3, h4, List.getD_cons_succ]
      · have h3 : ¬ (a ≤ c ∧ c < a + (bs.length + 1)) := by omega
        simp only [h2, h3, if_false, h]

theorem length_readCells (m : List Host.Cell) (a n : Nat) : (readCells m a n).length = n := by
  induction n generalizing a with
  | zero => rfl
  | succ n ih => simp [readCells, ih]

theorem getElem?_readCells (m : List Host.Cell) (a n i : Nat) :
    (readCells m a n)[i]? = if i < n then some (readCell m (a + i)) else none := by
  induction n generalizing a i with
  | zero => simp [readCells]
  | succ n ih =>
    cases i with
    | zero => simp [readCells]
    | succ i =>
      simp only [readCells, List.getElem?_cons_succ, ih, Nat.add_lt_add_iff_right]
      have h : a + 1 + i = a + (i + 1) := by omega
      rw [h]

/-- The bytes written are the bytes read. -/
theorem readCells_writeCells (m : List Host.Cell) (a : Nat) (bs : List Byte) :
    readCells (writeCells m a bs) a bs.length = bs := by
  apply List.ext_getElem?
  intro i
  rw [getElem?_readCells]
  split
  · next h =>
    rw [readCell_writeCells, if_pos (by omega), List.getElem?_eq_getElem h]
    simp [List.getD_eq_getElem?_getD, List.getElem?_eq_getElem h]
  · next h => rw [List.getElem?_eq_none (by omega)]

/-! ## Byte memories: the canonical form -/

theorem canonical_nil : canonical (0 : Byte) [] = true := rfl

theorem canonical_filter {m : Tab Byte} (p : Nat × Byte → Bool) (h : canonical 0 m = true) : canonical 0 (m.filter p) = true :=
  canonical_sublist 0 List.filter_sublist h

theorem canonical_writeCell {m : List Host.Cell} (a : Nat) (b : Byte) (h : canonical 0 m = true) :
    canonical 0 (writeCell m a b) = true := tputD_canonical 0 a b h

theorem canonical_writeCells {m : List Host.Cell} (a : Nat) (bs : List Byte) (h : canonical 0 m = true) :
    canonical 0 (writeCells m a bs) = true := by
  induction bs generalizing m a with
  | nil => exact h
  | cons b bs ih => exact ih _ (canonical_writeCell a b h)

theorem canonical_placeCells {m : List Host.Cell} (lo : Nat) (t : Tab Byte) (h : canonical 0 m = true) :
    canonical 0 (placeCells m lo t) = true := by
  induction t generalizing m with
  | nil => exact h
  | cons p t ih => exact ih (canonical_writeCell _ _ h)

theorem canonical_dropCells {m : List Host.Cell} (lo n : Nat) (h : canonical 0 m = true) : canonical 0 (dropCells m lo n) = true :=
  canonical_filter _ h

theorem canonical_cellsIn {m : List Host.Cell} (lo n : Nat) (h : canonical 0 m = true) : canonical 0 (cellsIn m lo n) = true := by
  rw [canonical_iff] at h ⊢
  unfold cellsIn
  constructor
  · rw [Rising, List.pairwise_map]
    refine (h.1.sublist List.filter_sublist).imp_of_mem ?_
    intro a b ha hb hab
    simp only [List.mem_filter, Bool.and_eq_true, decide_eq_true_eq] at ha hb
    simp only; omega
  · intro p hp
    simp only [List.mem_map, List.mem_filter] at hp
    obtain ⟨q, hq, rfl⟩ := hp
    exact h.2 q hq.1

/-! ## The canonical form of the memory -/

/-- What the canonical form of the memory says. -/
structure Memory.Form (m : Memory) : Prop where
  stack   : canonical 0 m.stack = true
  hall    : canonical 0 m.hall = true
  host    : canonical 0 m.host = true
  mirror  : canonical 0 m.mirror = true
  rising  : Rising m.gallery
  entries : ∀ p ∈ m.gallery, canonical 0 p.2.data = true

theorem Memory.wf_iff (m : Memory) : m.wf = true ↔ m.Form := by
  simp only [Memory.wf, Bool.and_eq_true, risingFrom_none, List.all_eq_true]
  constructor
  · rintro ⟨⟨⟨⟨⟨h1, h2⟩, h3⟩, h4⟩, h5⟩, h6⟩; exact ⟨h1, h2, h3, h4, h5, h6⟩
  · rintro ⟨h1, h2, h3, h4, h5, h6⟩; exact ⟨⟨⟨⟨⟨h1, h2⟩, h3⟩, h4⟩, h5⟩, h6⟩

/-- The canonical form depends on five of the memory's fields. -/
theorem Memory.wf_congr {m n : Memory} (h1 : n.stack = m.stack) (h2 : n.hall = m.hall) (h3 : n.host = m.host)
    (h4 : n.mirror = m.mirror) (h5 : n.gallery = m.gallery) : n.wf = m.wf := by
  simp only [Memory.wf, h1, h2, h3, h4, h5]

theorem reset_mem_wf : Memory.reset.wf = true := rfl

theorem Memory.entry_wf {m : Memory} {t : Nat} {e : GalEntry} (h : m.wf = true) (he : tget m.gallery t = some e) :
    canonical 0 e.data = true :=
  have f := (Memory.wf_iff m).mp h
  f.entries _ ((tget_mem f.rising).mp he)

theorem Memory.resident?_eq {m : Memory} {t k : Nat} {e : GalEntry} (h : m.resident? t k = some e) : tget m.gallery t = some e := by
  unfold Memory.resident? at h
  split at h
  · next h1 => split at h <;> simp_all
  · cases h

theorem Memory.resident_wf {m : Memory} {t k : Nat} {e : GalEntry} (h : m.wf = true) (he : m.resident? t k = some e) :
    canonical 0 e.data = true := Memory.entry_wf h (Memory.resident?_eq he)

/-- Putting an entry whose bytes are canonical keeps the form. -/
theorem Memory.wf_put {m : Memory} (t : Nat) {e : GalEntry} (h : m.wf = true) (he : canonical 0 e.data = true) :
    ({ m with gallery := tput m.gallery t e } : Memory).wf = true := by
  have f := (Memory.wf_iff m).mp h
  refine (Memory.wf_iff _).mpr ⟨f.stack, f.hall, f.host, f.mirror, tput_rising _ _ f.rising, fun p hp => ?_⟩
  rcases mem_tput hp with rfl | hp
  · exact he
  · exact f.entries p hp

/-- Dropping entries keeps the form. -/
theorem Memory.wf_gallery {m : Memory} {g : Tab GalEntry} (h : m.wf = true) (hg : g.Sublist m.gallery) :
    ({ m with gallery := g } : Memory).wf = true := by
  have f := (Memory.wf_iff m).mp h
  exact (Memory.wf_iff _).mpr ⟨f.stack, f.hall, f.host, f.mirror, f.rising.sublist hg, fun p hp => f.entries p (hg.mem hp)⟩

theorem Memory.wf_del {m : Memory} (t : Nat) (h : m.wf = true) : ({ m with gallery := tdel m.gallery t } : Memory).wf = true :=
  Memory.wf_gallery h (tdel_sublist _ _)

theorem Memory.wf_stack {m : Memory} {c : List Host.Cell} (h : m.wf = true) (hc : canonical 0 c = true) :
    ({ m with stack := c } : Memory).wf = true := by
  have f := (Memory.wf_iff m).mp h
  exact (Memory.wf_iff _).mpr ⟨hc, f.hall, f.host, f.mirror, f.rising, f.entries⟩

theorem Memory.wf_hall {m : Memory} {c : List Host.Cell} (h : m.wf = true) (hc : canonical 0 c = true) :
    ({ m with hall := c } : Memory).wf = true := by
  have f := (Memory.wf_iff m).mp h
  exact (Memory.wf_iff _).mpr ⟨f.stack, hc, f.host, f.mirror, f.rising, f.entries⟩

theorem Memory.wf_host {m : Memory} {c : List Host.Cell} (h : m.wf = true) (hc : canonical 0 c = true) :
    ({ m with host := c } : Memory).wf = true := by
  have f := (Memory.wf_iff m).mp h
  exact (Memory.wf_iff _).mpr ⟨f.stack, f.hall, hc, f.mirror, f.rising, f.entries⟩

theorem Memory.wf_mirror {m : Memory} {c : List Host.Cell} (h : m.wf = true) (hc : canonical 0 c = true) :
    ({ m with mirror := c } : Memory).wf = true := by
  have f := (Memory.wf_iff m).mp h
  exact (Memory.wf_iff _).mpr ⟨f.stack, f.hall, f.host, hc, f.rising, f.entries⟩

/-! ## Each operation keeps it -/

@[simp] theorem Memory.wf_setMeta (m : Memory) (t : Nat) (x : TileMeta) : (m.setMeta t x).wf = m.wf := rfl
@[simp] theorem Memory.wf_setKey (m : Memory) (k : Nat) (e : KeyEntry) : (m.setKey k e).wf = m.wf := rfl
@[simp] theorem Memory.wf_setClock (m : Memory) (d e n : Nat) : (m.setClock d e n).wf = m.wf := rfl

@[simp] theorem Memory.wf_activate (m : Memory) (t : Nat) : (m.activate t).wf = m.wf := by
  unfold Memory.activate; split <;> rfl

@[simp] theorem Memory.wf_readRows (m : Memory) (t k : Nat) : (m.readRows t k).wf = m.wf := by
  unfold Memory.readRows; split <;> simp

@[simp] theorem Memory.wf_noteFault (m : Memory) (t d : Nat) : (m.noteFault t d).wf = m.wf := by
  unfold Memory.noteFault; split <;> rfl

@[simp] theorem Memory.wf_meet (m : Memory) (t : Nat) : (m.meet t).wf = m.wf := by
  unfold Memory.meet; split <;> rfl

theorem Memory.activate_stack (m : Memory) (t : Nat) : (m.activate t).stack = m.stack := by
  unfold Memory.activate; split <;> rfl

theorem Memory.wf_sealTile {m : Memory} (t k : Nat) (data : Tab Byte) (h : m.wf = true) : (m.sealTile t k data).wf = true := by
  have h1 : ((m.setMeta t (m.sealMeta t k data)).activate t).wf = true := by simpa using h
  have f := (Memory.wf_iff _).mp h1
  exact (Memory.wf_iff _).mpr ⟨canonical_placeCells _ _ (canonical_dropCells _ _ ((Memory.wf_iff m).mp h).stack), f.hall, f.host,
    f.mirror, f.rising, f.entries⟩

theorem Memory.wf_writeBack {m : Memory} (t : Nat) (h : m.wf = true) : (m.writeBack t).wf = true := by
  unfold Memory.writeBack
  split
  · exact h
  · next e he =>
    split
    · exact Memory.wf_put t (m := m.sealTile t e.key e.data) (Memory.wf_sealTile t _ _ h) (Memory.entry_wf (e := e) h he)
    · exact h

theorem Memory.wf_evict {m : Memory} (t : Nat) (h : m.wf = true) : (m.evict t).wf = true := by
  unfold Memory.evict
  split
  · exact h
  · apply Memory.wf_del
    split
    · exact Memory.wf_writeBack t h
    · exact Memory.wf_writeBack t h

theorem Memory.wf_dropOther {m : Memory} (t k : Nat) (h : m.wf = true) : (m.dropOther t k).wf = true := by
  unfold Memory.dropOther
  split
  · split
    · exact h
    · exact Memory.wf_evict t h
  · exact h

theorem Memory.wf_makeRoom {m : Memory} (t : Nat) (h : m.wf = true) : (m.makeRoom t).wf = true := by
  unfold Memory.makeRoom
  split
  · exact h
  · split
    · exact Memory.wf_evict _ h
    · exact h

theorem Memory.wf_wipeMirrors {m : Memory} (t : Nat) (h : m.wf = true) : (m.wipeMirrors t).wf = true :=
  Memory.wf_mirror h (canonical_filter _ ((Memory.wf_iff m).mp h).mirror)

theorem Memory.wf_fillEntry {m : Memory} (t k prio : Nat) (h : m.wf = true) :
    canonical 0 (m.fillEntry t k prio).data = true := by
  unfold Memory.fillEntry
  dsimp only
  split
  · rfl
  · exact canonical_cellsIn _ _ ((Memory.wf_iff m).mp h).stack

theorem Memory.wf_fill {m : Memory} (t k prio : Nat) (h : m.wf = true) : (m.fill t k prio).wf = true := by
  unfold Memory.fill
  split
  · exact h
  · have h0 := Memory.wf_makeRoom t (Memory.wf_dropOther t k h)
    exact Memory.wf_put t (by simpa using h0) (Memory.wf_fillEntry t k prio h0)

theorem Memory.wf_touch {m : Memory} (t k prio : Nat) (h : m.wf = true) : (m.touch t k prio).wf = true := by
  unfold Memory.touch
  split
  · exact h
  · next e he => exact Memory.wf_put t h (Memory.resident_wf (e := e) h he)

theorem Memory.wf_writeEntry {m : Memory} (pa k : Nat) (bs : List Byte) (h : m.wf = true) : (m.writeEntry pa k bs).wf = true := by
  unfold Memory.writeEntry
  split
  · exact h
  · next e he =>
    split
    · exact Memory.wf_put _ h (canonical_writeCells _ _ (Memory.resident_wf (e := e) h he))
    · exact h

@[simp] theorem State.clearResv_mem (s : State) (sp : Space) (a n : Nat) : (s.clearResv sp a n).mem = s.mem := rfl

theorem applyGlobal_wf {s : State} (pa k prio : Nat) (bs : List Byte) (causal : Bool) (h : s.mem.wf = true) :
    (s.applyGlobal pa k prio bs causal).1.mem.wf = true := by
  exact Memory.wf_writeEntry pa k bs (Memory.wf_touch (tileOf pa) k prio (Memory.wf_fill (tileOf pa) k prio h))

theorem applyHall_wf {s : State} (a : Nat) (bs : List Byte) (h : s.mem.wf = true) : (s.applyHall a bs).mem.wf = true :=
  Memory.wf_hall h (canonical_writeCells _ _ ((Memory.wf_iff _).mp h).hall)

theorem applyHost_wf {s : State} (a : Nat) (bs : List Byte) (h : s.mem.wf = true) : (s.applyHost a bs).mem.wf = true :=
  Memory.wf_host h (canonical_writeCells _ _ ((Memory.wf_iff _).mp h).host)

@[simp] theorem State.modFlight_mem' (s : State) (k : Nat) (f : Flight → Flight) : (s.modFlight k f).mem = s.mem := rfl

theorem completeOp_wf {s : State} (fk : Nat) (k : Cls) (n : Nat) (h : s.mem.wf = true) : (s.completeOp fk k n).mem.wf = true := by
  unfold State.completeOp
  simp only
  split
  · split
    · exact applyHall_wf _ _ h
    · exact h
  · exact h

/-! ## Reads after writes at the home (R311, R368) -/

theorem hall_read_write (s : State) (a k : Nat) (bs : List Byte) :
    (s.applyHall a bs).mem.atHome .hall a k bs.length = bs := readCells_writeCells _ _ _

theorem host_read_write (s : State) (a k : Nat) (bs : List Byte) :
    (s.applyHost a bs).mem.atHome .host a k bs.length = bs := readCells_writeCells _ _ _

end Sys2Proof.Machine
end

