-- ==== Sys2Proof/Laws/PerInstr.lean ====
section
/-!
SUPPORT. A family of facts about the instructions as syntax, one lemma per constructor: the word of an instruction has 32
bits (R39). It is one half of what the round trip of decoder and encoder needs.
-/

namespace Sys2Proof.Laws.Fits

/-- The word that the encoder gives an instruction fits in 32 bits. -/
def Statement (i : Instr) : Prop := ∀ w, encodeWord i = some w → w < 2 ^ 32

theorem fairnessTimer (fk : Nat) : Statement (.fairnessTimer fk) := fun _ h => nomatch h
theorem deferredSwitch (fk : Nat) : Statement (.deferredSwitch fk) := fun _ h => nomatch h
theorem flightSwap (core bay : Nat) : Statement (.flightSwap core bay) := fun _ h => nomatch h
theorem activeSetFill (core bay : Nat) : Statement (.activeSetFill core bay) := fun _ h => nomatch h
theorem aging (core bay : Nat) : Statement (.aging core bay) := fun _ h => nomatch h
theorem loadReturn (id : Nat) : Statement (.loadReturn id) := fun _ h => nomatch h
theorem bind (id : Nat) : Statement (.bind id) := fun _ h => nomatch h
theorem drain (id : Nat) : Statement (.drain id) := fun _ h => nomatch h
theorem apply (id : Nat) : Statement (.apply id) := fun _ h => nomatch h
theorem send (i : Nat) : Statement (.send i) := fun _ h => nomatch h
theorem mirror (i : Nat) : Statement (.mirror i) := fun _ h => nomatch h
theorem mmaComplete (core : Nat) : Statement (.mmaComplete core) := fun _ h => nomatch h
theorem accComplete (core : Nat) : Statement (.accComplete core) := fun _ h => nomatch h
theorem claCommandStart (core : Nat) : Statement (.claCommandStart core) := fun _ h => nomatch h
theorem claEvalComplete (core : Nat) : Statement (.claEvalComplete core) := fun _ h => nomatch h
theorem claSweepEnd (core : Nat) : Statement (.claSweepEnd core) := fun _ h => nomatch h
theorem claImageComplete (core : Nat) : Statement (.claImageComplete core) := fun _ h => nomatch h
theorem copyComplete (core i : Nat) : Statement (.copyComplete core i) := fun _ h => nomatch h
theorem hpostComplete (i : Nat) : Statement (.hpostComplete i) := fun _ h => nomatch h
theorem creditGrant (base : Nat) : Statement (.creditGrant base) := fun _ h => nomatch h
theorem galleryFill (tile key prio verdict : Nat) : Statement (.galleryFill tile key prio verdict) := fun _ h => nomatch h
theorem treadRetire (tid : Nat) : Statement (.treadRetire tid) := fun _ h => nomatch h
theorem retirementReport (i : Nat) : Statement (.retirementReport i) := fun _ h => nomatch h
theorem raiseApply (i : Nat) : Statement (.raiseApply i) := fun _ h => nomatch h
theorem b0Update (die run nest : Nat) : Statement (.b0Update die run nest) := fun _ h => nomatch h
theorem remoteLookup (die run nest : Nat) (point : List Int) : Statement (.remoteLookup die run nest point) := fun _ h => nomatch h
theorem lookupAnswer (i : Nat) : Statement (.lookupAnswer i) := fun _ h => nomatch h
theorem watermarkUpdate (die run nest : Nat) : Statement (.watermarkUpdate die run nest) := fun _ h => nomatch h
theorem rowOpen (die : Nat) : Statement (.rowOpen die) := fun _ h => nomatch h
theorem treadRelease (die : Nat) : Statement (.treadRelease die) := fun _ h => nomatch h
theorem dispatch (die : Nat) : Statement (.dispatch die) := fun _ h => nomatch h
theorem stealRequest (die : Nat) : Statement (.stealRequest die) := fun _ h => nomatch h
theorem stealBackoff (die : Nat) : Statement (.stealBackoff die) := fun _ h => nomatch h
theorem admission (die : Nat) : Statement (.admission die) := fun _ h => nomatch h
theorem phaseSpill (tid : Nat) : Statement (.phaseSpill tid) := fun _ h => nomatch h
theorem graceExpiry (tid : Nat) : Statement (.graceExpiry tid) := fun _ h => nomatch h
theorem forcedSave (tid : Nat) : Statement (.forcedSave tid) := fun _ h => nomatch h
theorem qtail (q value : Nat) : Statement (.qtail q value) := fun _ h => nomatch h
theorem queueEnable (q : Nat) : Statement (.queueEnable q) := fun _ h => nomatch h
theorem queueDisable (q : Nat) : Statement (.queueDisable q) := fun _ h => nomatch h
theorem registerWrite (q offset value : Nat) : Statement (.registerWrite q offset value) := fun _ h => nomatch h
theorem launch (q : Nat) : Statement (.launch q) := fun _ h => nomatch h
theorem cancel (q : Nat) : Statement (.cancel q) := fun _ h => nomatch h
theorem loadChunk (offset : Nat) (bytes : List Byte) : Statement (.loadChunk offset bytes) := fun _ h => nomatch h
theorem verify : Statement .verify := fun _ h => nomatch h
theorem discard : Statement .discard := fun _ h => nomatch h
theorem romState : Statement .romState := fun _ h => nomatch h
theorem attest (part : Nat) (nonce : List Byte) : Statement (.attest part nonce) := fun _ h => nomatch h
theorem lifecycle (target : Nat) (signed : List Byte) : Statement (.lifecycle target signed) := fun _ h => nomatch h
theorem debugToken (part expiry : Nat) (signed : List Byte) : Statement (.debugToken part expiry signed) := fun _ h => nomatch h
theorem partitionCreate (spec : PartitionSpec) : Statement (.partitionCreate spec) := fun _ h => nomatch h
theorem partitionReset (part : Nat) : Statement (.partitionReset part) := fun _ h => nomatch h
theorem keyAssign (key part : Nat) : Statement (.keyAssign key part) := fun _ h => nomatch h
theorem keyRotate (key : Nat) : Statement (.keyRotate key) := fun _ h => nomatch h
theorem windowBind (window hpa size pa key : Nat) : Statement (.windowBind window hpa size pa key) := fun _ h => nomatch h
theorem queueBind (q part : Nat) (keys : List Nat) (die : Nat) : Statement (.queueBind q part keys die) := fun _ h => nomatch h
theorem saveRegion (part base size : Nat) : Statement (.saveRegion part base size) := fun _ h => nomatch h
theorem ringConfig (spec : RingSpec) : Statement (.ringConfig spec) := fun _ h => nomatch h
theorem streamTable (entry : StreamWrite) : Statement (.streamTable entry) := fun _ h => nomatch h
theorem channelConfig (spec : ChannelSpec) : Statement (.channelConfig spec) := fun _ h => nomatch h
theorem preempt (part inst mask kind phase grace : Nat) : Statement (.preempt part inst mask kind phase grace) := fun _ h => nomatch h
theorem preemptWithdraw (request : Nat) : Statement (.preemptWithdraw request) := fun _ h => nomatch h
theorem fairness (part period : Nat) : Statement (.fairness part period) := fun _ h => nomatch h
theorem powerLimit (watts : Nat) : Statement (.powerLimit watts) := fun _ h => nomatch h
theorem powerState (target : Nat) : Statement (.powerState target) := fun _ h => nomatch h
theorem telemetry (selector : Nat) : Statement (.telemetry selector) := fun _ h => nomatch h
theorem errorLog (start : Nat) : Statement (.errorLog start) := fun _ h => nomatch h
theorem coldBoot : Statement .coldBoot := fun _ h => nomatch h
theorem warmReset : Statement .warmReset := fun _ h => nomatch h
theorem recalibration : Statement .recalibration := fun _ h => nomatch h
theorem powerSample (watts degrees : Nat) : Statement (.powerSample watts degrees) := fun _ h => nomatch h
theorem debugTokenExpiry (part : Nat) : Statement (.debugTokenExpiry part) := fun _ h => nomatch h
theorem rowThrottle (row key : Nat) : Statement (.rowThrottle row key) := fun _ h => nomatch h
theorem throttleRelease (row key : Nat) : Statement (.throttleRelease row key) := fun _ h => nomatch h
theorem rotationSweep (key tile : Nat) : Statement (.rotationSweep key tile) := fun _ h => nomatch h
theorem backgroundClear (key tile : Nat) : Statement (.backgroundClear key tile) := fun _ h => nomatch h
theorem scrub (key : Nat) : Statement (.scrub key) := fun _ h => nomatch h
theorem linkDown : Statement .linkDown := fun _ h => nomatch h
theorem hostMemAccess (hpa n : Nat) (write : Bool) (bytes : List Byte) : Statement (.hostMemAccess hpa n write bytes) := fun _ h => nomatch h
theorem packetReceive (port : Nat) (packet : Packet) : Statement (.packetReceive port packet) := fun _ h => nomatch h
theorem wireRecord (port : Nat) : Statement (.wireRecord port) := fun _ h => nomatch h
theorem collMessage (die : Nat) (message : CollMessage) : Statement (.collMessage die message) := fun _ h => nomatch h
theorem collAck (core i : Nat) (answer : CollAnswer) : Statement (.collAck core i answer) := fun _ h => nomatch h
theorem collRetryExhausted (core i : Nat) : Statement (.collRetryExhausted core i) := fun _ h => nomatch h
theorem portLinkDown (port : Nat) : Statement (.portLinkDown port) := fun _ h => nomatch h
theorem illegalInstruction : Statement .illegalInstruction := fun _ h => nomatch h
theorem fetchFailure (poisoned : Bool) : Statement (.fetchFailure poisoned) := fun _ h => nomatch h
theorem stealAnswer (die : Nat) : Statement (.stealAnswer die) := fun _ h => nomatch h
theorem linkUp : Statement .linkUp := fun _ h => nomatch h
theorem portLinkUp (port : Nat) : Statement (.portLinkUp port) := fun _ h => nomatch h
theorem dieLinkLoss (a b : Nat) : Statement (.dieLinkLoss a b) := fun _ h => nomatch h
theorem clusterMeshLoss (cluster : Nat) : Statement (.clusterMeshLoss cluster) := fun _ h => nomatch h
theorem commandWord (recovery : Bool) (word : Nat) : Statement (.commandWord recovery word) := fun _ h => nomatch h
theorem haltDebug (part : Nat) (op : DebugOp) : Statement (.haltDebug part op) := fun _ h => nomatch h
theorem pageMigration (part va tile : Nat) : Statement (.pageMigration part va tile) := fun _ h => nomatch h
theorem add (d a b : BitVec 6) (t : BitVec 1) (g : BitVec 3) : Statement (.add d a b t g) := fun w h => by
  obtain rfl := Option.some.inj h
  simp only [put]; omega
theorem sub (d a b : BitVec 6) (t : BitVec 1) (g : BitVec 3) : Statement (.sub d a b t g) := fun w h => by
  obtain rfl := Option.some.inj h
  simp only [put]; omega
theorem and (d a b : BitVec 6) (t : BitVec 1) (g : BitVec 3) : Statement (.and d a b t g) := fun w h => by
  obtain rfl := Option.some.inj h
  simp only [put]; omega
theorem or (d a b : BitVec 6) (t : BitVec 1) (g : BitVec 3) : Statement (.or d a b t g) := fun w h => by
  obtain rfl := Option.some.inj h
  simp only [put]; omega
theorem xor (d a b : BitVec 6) (t : BitVec 1) (g : BitVec 3) : Statement (.xor d a b t g) := fun w h => by
  obtain rfl := Option.some.inj h
  simp only [put]; omega
theorem andn (d a b : BitVec 6) (t : BitVec 1) (g : BitVec 3) : Statement (.andn d a b t g) := fun w h => by
  obtain rfl := Option.some.inj h
  simp only [put]; omega
theorem shl (d a b : BitVec 6) (t : BitVec 1) (g : BitVec 3) : Statement (.shl d a b t g) := fun w h => by
  obtain rfl := Option.some.inj h
  simp only [put]; omega
theorem shr (d a b : BitVec 6) (t : BitVec 1) (g : BitVec 3) : Statement (.shr d a b t g) := fun w h => by
  obtain rfl := Option.some.inj h
  simp only [put]; omega
theorem sar (d a b : BitVec 6) (t : BitVec 1) (g : BitVec 3) : Statement (.sar d a b t g) := fun w h => by
  obtain rfl := Option.some.inj h
  simp only [put]; omega
theorem rot (d a b : BitVec 6) (t : BitVec 1) (g : BitVec 3) : Statement (.rot d a b t g) := fun w h => by
  obtain rfl := Option.some.inj h
  simp only [put]; omega
theorem minS (d a b : BitVec 6) (t : BitVec 1) (g : BitVec 3) : Statement (.minS d a b t g) := fun w h => by
  obtain rfl := Option.some.inj h
  simp only [put]; omega
theorem maxS (d a b : BitVec 6) (t : BitVec 1) (g : BitVec 3) : Statement (.maxS d a b t g) := fun w h => by
  obtain rfl := Option.some.inj h
  simp only [put]; omega
theorem minN (d a b : BitVec 6) (t : BitVec 1) (g : BitVec 3) : Statement (.minN d a b t g) := fun w h => by
  obtain rfl := Option.some.inj h
  simp only [put]; omega
theorem maxN (d a b : BitVec 6) (t : BitVec 1) (g : BitVec 3) : Statement (.maxN d a b t g) := fun w h => by
  obtain rfl := Option.some.inj h
  simp only [put]; omega
theorem mul (d a b : BitVec 6) (t : BitVec 1) (g : BitVec 3) : Statement (.mul d a b t g) := fun w h => by
  obtain rfl := Option.some.inj h
  simp only [put]; omega
theorem mulhiS (d a b : BitVec 6) (t : BitVec 1) (g : BitVec 3) : Statement (.mulhiS d a b t g) := fun w h => by
  obtain rfl := Option.some.inj h
  simp only [put]; omega
theorem mulhiN (d a b : BitVec 6) (t : BitVec 1) (g : BitVec 3) : Statement (.mulhiN d a b t g) := fun w h => by
  obtain rfl := Option.some.inj h
  simp only [put]; omega
theorem clz (d a : BitVec 6) (t : BitVec 1) (g : BitVec 3) : Statement (.clz d a t g) := fun w h => by
  obtain rfl := Option.some.inj h
  simp only [put]; omega
theorem popc (d a : BitVec 6) (t : BitVec 1) (g : BitVec 3) : Statement (.popc d a t g) := fun w h => by
  obtain rfl := Option.some.inj h
  simp only [put]; omega
theorem brev (d a : BitVec 6) (t : BitVec 1) (g : BitVec 3) : Statement (.brev d a t g) := fun w h => by
  obtain rfl := Option.some.inj h
  simp only [put]; omega
theorem abs (d a : BitVec 6) (t : BitVec 1) (g : BitVec 3) : Statement (.abs d a t g) := fun w h => by
  obtain rfl := Option.some.inj h
  simp only [put]; omega
theorem neg (d a : BitVec 6) (t : BitVec 1) (g : BitVec 3) : Statement (.neg d a t g) := fun w h => by
  obtain rfl := Option.some.inj h
  simp only [put]; omega
theorem extS8 (d a : BitVec 6) (t : BitVec 1) (g : BitVec 3) : Statement (.extS8 d a t g) := fun w h => by
  obtain rfl := Option.some.inj h
  simp only [put]; omega
theorem extS16 (d a : BitVec 6) (t : BitVec 1) (g : BitVec 3) : Statement (.extS16 d a t g) := fun w h => by
  obtain rfl := Option.some.inj h
  simp only [put]; omega
theorem extN8 (d a : BitVec 6) (t : BitVec 1) (g : BitVec 3) : Statement (.extN8 d a t g) := fun w h => by
  obtain rfl := Option.some.inj h
  simp only [put]; omega
theorem extN16 (d a : BitVec 6) (t : BitVec 1) (g : BitVec 3) : Statement (.extN16 d a t g) := fun w h => by
  obtain rfl := Option.some.inj h
  simp only [put]; omega
theorem addSatS (d a b : BitVec 6) (t : BitVec 1) (g : BitVec 3) : Statement (.addSatS d a b t g) := fun w h => by
  obtain rfl := Option.some.inj h
  simp only [put]; omega
theorem addSatN (d a b : BitVec 6) (t : BitVec 1) (g : BitVec 3) : Statement (.addSatN d a b t g) := fun w h => by
  obtain rfl := Option.some.inj h
  simp only [put]; omega
theorem subSatS (d a b : BitVec 6) (t : BitVec 1) (g : BitVec 3) : Statement (.subSatS d a b t g) := fun w h => by
  obtain rfl := Option.some.inj h
  simp only [put]; omega
theorem absdiff (d a b : BitVec 6) (t : BitVec 1) (g : BitVec 3) : Statement (.absdiff d a b t g) := fun w h => by
  obtain rfl := Option.some.inj h
  simp only [put]; omega
theorem bfx (d a b : BitVec 6) (t : BitVec 1) (g : BitVec 3) : Statement (.bfx d a b t g) := fun w h => by
  obtain rfl := Option.some.inj h
  simp only [put]; omega
theorem bfi (d a b : BitVec 6) (t : BitVec 1) (g : BitVec 3) : Statement (.bfi d a b t g) := fun w h => by
  obtain rfl := Option.some.inj h
  simp only [put]; omega
theorem addi (d a : BitVec 6) (i : BitVec 11) (g : BitVec 3) : Statement (.addi d a i g) := fun w h => by
  obtain rfl := Option.some.inj h
  simp only [put]; omega
theorem andi (d a : BitVec 6) (i : BitVec 11) (g : BitVec 3) : Statement (.andi d a i g) := fun w h => by
  obtain rfl := Option.some.inj h
  simp only [put]; omega
theorem ori (d a : BitVec 6) (i : BitVec 11) (g : BitVec 3) : Statement (.ori d a i g) := fun w h => by
  obtain rfl := Option.some.inj h
  simp only [put]; omega
theorem xori (d a : BitVec 6) (i : BitVec 11) (g : BitVec 3) : Statement (.xori d a i g) := fun w h => by
  obtain rfl := Option.some.inj h
  simp only [put]; omega
theorem shi (d a : BitVec 6) (o : BitVec 2) (n : BitVec 5) (g : BitVec 3) : Statement (.shi d a o n g) := fun w h => by
  obtain rfl := Option.some.inj h
  simp only [put]; omega
theorem movi (d : BitVec 6) (i : BitVec 17) (g : BitVec 3) : Statement (.movi d i g) := fun w h => by
  obtain rfl := Option.some.inj h
  simp only [put]; omega
theorem eq (p : BitVec 3) (a b : BitVec 6) (g : BitVec 3) : Statement (.eq p a b g) := fun w h => by
  obtain rfl := Option.some.inj h
  simp only [put]; omega
theorem ne (p : BitVec 3) (a b : BitVec 6) (g : BitVec 3) : Statement (.ne p a b g) := fun w h => by
  obtain rfl := Option.some.inj h
  simp only [put]; omega
theorem ltS (p : BitVec 3) (a b : BitVec 6) (g : BitVec 3) : Statement (.ltS p a b g) := fun w h => by
  obtain rfl := Option.some.inj h
  simp only [put]; omega
theorem leS (p : BitVec 3) (a b : BitVec 6) (g : BitVec 3) : Statement (.leS p a b g) := fun w h => by
  obtain rfl := Option.some.inj h
  simp only [put]; omega
theorem ltN (p : BitVec 3) (a b : BitVec 6) (g : BitVec 3) : Statement (.ltN p a b g) := fun w h => by
  obtain rfl := Option.some.inj h
  simp only [put]; omega
theorem leN (p : BitVec 3) (a b : BitVec 6) (g : BitVec 3) : Statement (.leN p a b g) := fun w h => by
  obtain rfl := Option.some.inj h
  simp only [put]; omega
theorem gtS (p : BitVec 3) (a b : BitVec 6) (g : BitVec 3) : Statement (.gtS p a b g) := fun w h => by
  obtain rfl := Option.some.inj h
  simp only [put]; omega
theorem geS (p : BitVec 3) (a b : BitVec 6) (g : BitVec 3) : Statement (.geS p a b g) := fun w h => by
  obtain rfl := Option.some.inj h
  simp only [put]; omega
theorem gtN (p : BitVec 3) (a b : BitVec 6) (g : BitVec 3) : Statement (.gtN p a b g) := fun w h => by
  obtain rfl := Option.some.inj h
  simp only [put]; omega
theorem geN (p : BitVec 3) (a b : BitVec 6) (g : BitVec 3) : Statement (.geN p a b g) := fun w h => by
  obtain rfl := Option.some.inj h
  simp only [put]; omega
theorem eqImm (p : BitVec 3) (a : BitVec 6) (i : BitVec 11) (g : BitVec 3) : Statement (.eqImm p a i g) := fun w h => by
  obtain rfl := Option.some.inj h
  simp only [put]; omega
theorem neImm (p : BitVec 3) (a : BitVec 6) (i : BitVec 11) (g : BitVec 3) : Statement (.neImm p a i g) := fun w h => by
  obtain rfl := Option.some.inj h
  simp only [put]; omega
theorem ltSImm (p : BitVec 3) (a : BitVec 6) (i : BitVec 11) (g : BitVec 3) : Statement (.ltSImm p a i g) := fun w h => by
  obtain rfl := Option.some.inj h
  simp only [put]; omega
theorem leSImm (p : BitVec 3) (a : BitVec 6) (i : BitVec 11) (g : BitVec 3) : Statement (.leSImm p a i g) := fun w h => by
  obtain rfl := Option.some.inj h
  simp only [put]; omega
theorem gtSImm (p : BitVec 3) (a : BitVec 6) (i : BitVec 11) (g : BitVec 3) : Statement (.gtSImm p a i g) := fun w h => by
  obtain rfl := Option.some.inj h
  simp only [put]; omega
theorem geSImm (p : BitVec 3) (a : BitVec 6) (i : BitVec 11) (g : BitVec 3) : Statement (.geSImm p a i g) := fun w h => by
  obtain rfl := Option.some.inj h
  simp only [put]; omega
theorem ltNImm (p : BitVec 3) (a : BitVec 6) (i : BitVec 11) (g : BitVec 3) : Statement (.ltNImm p a i g) := fun w h => by
  obtain rfl := Option.some.inj h
  simp only [put]; omega
theorem geNImm (p : BitVec 3) (a : BitVec 6) (i : BitVec 11) (g : BitVec 3) : Statement (.geNImm p a i g) := fun w h => by
  obtain rfl := Option.some.inj h
  simp only [put]; omega
theorem pand (d a b g : BitVec 3) : Statement (.pand d a b g) := fun w h => by
  obtain rfl := Option.some.inj h
  simp only [put]; omega
theorem por (d a b g : BitVec 3) : Statement (.por d a b g) := fun w h => by
  obtain rfl := Option.some.inj h
  simp only [put]; omega
theorem pxor (d a b g : BitVec 3) : Statement (.pxor d a b g) := fun w h => by
  obtain rfl := Option.some.inj h
  simp only [put]; omega
theorem pnot (d a g : BitVec 3) : Statement (.pnot d a g) := fun w h => by
  obtain rfl := Option.some.inj h
  simp only [put]; omega
theorem psetNz (d : BitVec 3) (a : BitVec 6) (g : BitVec 3) : Statement (.psetNz d a g) := fun w h => by
  obtain rfl := Option.some.inj h
  simp only [put]; omega
theorem pget (d : BitVec 6) (g : BitVec 3) : Statement (.pget d g) := fun w h => by
  obtain rfl := Option.some.inj h
  simp only [put]; omega
theorem fadd (d a b : BitVec 6) (t : BitVec 1) (g : BitVec 3) : Statement (.fadd d a b t g) := fun w h => by
  obtain rfl := Option.some.inj h
  simp only [put]; omega
theorem fsub (d a b : BitVec 6) (t : BitVec 1) (g : BitVec 3) : Statement (.fsub d a b t g) := fun w h => by
  obtain rfl := Option.some.inj h
  simp only [put]; omega
theorem fmul (d a b : BitVec 6) (t : BitVec 1) (g : BitVec 3) : Statement (.fmul d a b t g) := fun w h => by
  obtain rfl := Option.some.inj h
  simp only [put]; omega
theorem fma (d a b : BitVec 6) (t : BitVec 1) (g : BitVec 3) : Statement (.fma d a b t g) := fun w h => by
  obtain rfl := Option.some.inj h
  simp only [put]; omega
theorem fms (d a b : BitVec 6) (t : BitVec 1) (g : BitVec 3) : Statement (.fms d a b t g) := fun w h => by
  obtain rfl := Option.some.inj h
  simp only [put]; omega
theorem fnma (d a b : BitVec 6) (t : BitVec 1) (g : BitVec 3) : Statement (.fnma d a b t g) := fun w h => by
  obtain rfl := Option.some.inj h
  simp only [put]; omega
theorem fmin (d a b : BitVec 6) (t : BitVec 1) (g : BitVec 3) : Statement (.fmin d a b t g) := fun w h => by
  obtain rfl := Option.some.inj h
  simp only [put]; omega
theorem fmax (d a b : BitVec 6) (t : BitVec 1) (g : BitVec 3) : Statement (.fmax d a b t g) := fun w h => by
  obtain rfl := Option.some.inj h
  simp only [put]; omega
theorem fminn (d a b : BitVec 6) (t : BitVec 1) (g : BitVec 3) : Statement (.fminn d a b t g) := fun w h => by
  obtain rfl := Option.some.inj h
  simp only [put]; omega
theorem fmaxn (d a b : BitVec 6) (t : BitVec 1) (g : BitVec 3) : Statement (.fmaxn d a b t g) := fun w h => by
  obtain rfl := Option.some.inj h
  simp only [put]; omega
theorem fabs (d a : BitVec 6) (t : BitVec 1) (g : BitVec 3) : Statement (.fabs d a t g) := fun w h => by
  obtain rfl := Option.some.inj h
  simp only [put]; omega
theorem fneg (d a : BitVec 6) (t : BitVec 1) (g : BitVec 3) : Statement (.fneg d a t g) := fun w h => by
  obtain rfl := Option.some.inj h
  simp only [put]; omega
theorem fcopysign (d a b : BitVec 6) (t : BitVec 1) (g : BitVec 3) : Statement (.fcopysign d a b t g) := fun w h => by
  obtain rfl := Option.some.inj h
  simp only [put]; omega
theorem fsat (d a : BitVec 6) (t : BitVec 1) (g : BitVec 3) : Statement (.fsat d a t g) := fun w h => by
  obtain rfl := Option.some.inj h
  simp only [put]; omega
theorem frint (d a : BitVec 6) (t : BitVec 1) (g : BitVec 3) : Statement (.frint d a t g) := fun w h => by
  obtain rfl := Option.some.inj h
  simp only [put]; omega
theorem ftrunc (d a : BitVec 6) (t : BitVec 1) (g : BitVec 3) : Statement (.ftrunc d a t g) := fun w h => by
  obtain rfl := Option.some.inj h
  simp only [put]; omega
theorem hadd (d a b : BitVec 6) (y : BitVec 1) (g : BitVec 3) : Statement (.hadd d a b y g) := fun w h => by
  obtain rfl := Option.some.inj h
  simp only [put]; omega
theorem hsub (d a b : BitVec 6) (y : BitVec 1) (g : BitVec 3) : Statement (.hsub d a b y g) := fun w h => by
  obtain rfl := Option.some.inj h
  simp only [put]; omega
theorem hmul (d a b : BitVec 6) (y : BitVec 1) (g : BitVec 3) : Statement (.hmul d a b y g) := fun w h => by
  obtain rfl := Option.some.inj h
  simp only [put]; omega
theorem hfma (d a b : BitVec 6) (y : BitVec 1) (g : BitVec 3) : Statement (.hfma d a b y g) := fun w h => by
  obtain rfl := Option.some.inj h
  simp only [put]; omega
theorem hmin (d a b : BitVec 6) (y : BitVec 1) (g : BitVec 3) : Statement (.hmin d a b y g) := fun w h => by
  obtain rfl := Option.some.inj h
  simp only [put]; omega
theorem hmax (d a b : BitVec 6) (y : BitVec 1) (g : BitVec 3) : Statement (.hmax d a b y g) := fun w h => by
  obtain rfl := Option.some.inj h
  simp only [put]; omega
theorem habs (d a : BitVec 6) (y : BitVec 1) (g : BitVec 3) : Statement (.habs d a y g) := fun w h => by
  obtain rfl := Option.some.inj h
  simp only [put]; omega
theorem hneg (d a : BitVec 6) (y : BitVec 1) (g : BitVec 3) : Statement (.hneg d a y g) := fun w h => by
  obtain rfl := Option.some.inj h
  simp only [put]; omega
theorem rcp (d a : BitVec 6) (t : BitVec 1) (g : BitVec 3) : Statement (.rcp d a t g) := fun w h => by
  obtain rfl := Option.some.inj h
  simp only [put]; omega
theorem rsqrt (d a : BitVec 6) (t : BitVec 1) (g : BitVec 3) : Statement (.rsqrt d a t g) := fun w h => by
  obtain rfl := Option.some.inj h
  simp only [put]; omega
theorem sqrt (d a : BitVec 6) (t : BitVec 1) (g : BitVec 3) : Statement (.sqrt d a t g) := fun w h => by
  obtain rfl := Option.some.inj h
  simp only [put]; omega
theorem exp2 (d a : BitVec 6) (t : BitVec 1) (g : BitVec 3) : Statement (.exp2 d a t g) := fun w h => by
  obtain rfl := Option.some.inj h
  simp only [put]; omega
theorem log2 (d a : BitVec 6) (t : BitVec 1) (g : BitVec 3) : Statement (.log2 d a t g) := fun w h => by
  obtain rfl := Option.some.inj h
  simp only [put]; omega
theorem sinpi (d a : BitVec 6) (t : BitVec 1) (g : BitVec 3) : Statement (.sinpi d a t g) := fun w h => by
  obtain rfl := Option.some.inj h
  simp only [put]; omega
theorem cospi (d a : BitVec 6) (t : BitVec 1) (g : BitVec 3) : Statement (.cospi d a t g) := fun w h => by
  obtain rfl := Option.some.inj h
  simp only [put]; omega
theorem tanh (d a : BitVec 6) (t : BitVec 1) (g : BitVec 3) : Statement (.tanh d a t g) := fun w h => by
  obtain rfl := Option.some.inj h
  simp only [put]; omega
theorem fdiv (d a b : BitVec 6) (t : BitVec 1) (g : BitVec 3) : Statement (.fdiv d a b t g) := fun w h => by
  obtain rfl := Option.some.inj h
  simp only [put]; omega
theorem cvtF32S32 (d a : BitVec 6) (g : BitVec 3) : Statement (.cvtF32S32 d a g) := fun w h => by
  obtain rfl := Option.some.inj h
  simp only [put]; omega
theorem cvtF32N32 (d a : BitVec 6) (g : BitVec 3) : Statement (.cvtF32N32 d a g) := fun w h => by
  obtain rfl := Option.some.inj h
  simp only [put]; omega
theorem cvtS32F32 (d a : BitVec 6) (g : BitVec 3) : Statement (.cvtS32F32 d a g) := fun w h => by
  obtain rfl := Option.some.inj h
  simp only [put]; omega
theorem cvtN32F32 (d a : BitVec 6) (g : BitVec 3) : Statement (.cvtN32F32 d a g) := fun w h => by
  obtain rfl := Option.some.inj h
  simp only [put]; omega
theorem cvtF32F16 (d a : BitVec 6) (k : BitVec 1) (g : BitVec 3) : Statement (.cvtF32F16 d a k g) := fun w h => by
  obtain rfl := Option.some.inj h
  simp only [put]; omega
theorem cvtF32Bf16 (d a : BitVec 6) (k : BitVec 1) (g : BitVec 3) : Statement (.cvtF32Bf16 d a k g) := fun w h => by
  obtain rfl := Option.some.inj h
  simp only [put]; omega
theorem cvtF16F32 (d a : BitVec 6) (k : BitVec 1) (g : BitVec 3) : Statement (.cvtF16F32 d a k g) := fun w h => by
  obtain rfl := Option.some.inj h
  simp only [put]; omega
theorem cvtBf16F32 (d a : BitVec 6) (k : BitVec 1) (g : BitVec 3) : Statement (.cvtBf16F32 d a k g) := fun w h => by
  obtain rfl := Option.some.inj h
  simp only [put]; omega
theorem cvtF32E4m3 (d a : BitVec 6) (k : BitVec 2) (g : BitVec 3) : Statement (.cvtF32E4m3 d a k g) := fun w h => by
  obtain rfl := Option.some.inj h
  simp only [put]; omega
theorem cvtF32E5m2 (d a : BitVec 6) (k : BitVec 2) (g : BitVec 3) : Statement (.cvtF32E5m2 d a k g) := fun w h => by
  obtain rfl := Option.some.inj h
  simp only [put]; omega
theorem cvtE4m3F32 (d a : BitVec 6) (k : BitVec 2) (g : BitVec 3) : Statement (.cvtE4m3F32 d a k g) := fun w h => by
  obtain rfl := Option.some.inj h
  simp only [put]; omega
theorem cvtE5m2F32 (d a : BitVec 6) (k : BitVec 2) (g : BitVec 3) : Statement (.cvtE5m2F32 d a k g) := fun w h => by
  obtain rfl := Option.some.inj h
  simp only [put]; omega
theorem cvtF32E2m1 (d a : BitVec 6) (k g : BitVec 3) : Statement (.cvtF32E2m1 d a k g) := fun w h => by
  obtain rfl := Option.some.inj h
  simp only [put]; omega
theorem cvtE2m1F32 (d a : BitVec 6) (k g : BitVec 3) : Statement (.cvtE2m1F32 d a k g) := fun w h => by
  obtain rfl := Option.some.inj h
  simp only [put]; omega
theorem cvtS8F32 (d a : BitVec 6) (k : BitVec 2) (g : BitVec 3) : Statement (.cvtS8F32 d a k g) := fun w h => by
  obtain rfl := Option.some.inj h
  simp only [put]; omega
theorem cvtS4F32 (d a : BitVec 6) (k g : BitVec 3) : Statement (.cvtS4F32 d a k g) := fun w h => by
  obtain rfl := Option.some.inj h
  simp only [put]; omega
theorem feq (p : BitVec 3) (a b : BitVec 6) (g : BitVec 3) : Statement (.feq p a b g) := fun w h => by
  obtain rfl := Option.some.inj h
  simp only [put]; omega
theorem fne (p : BitVec 3) (a b : BitVec 6) (g : BitVec 3) : Statement (.fne p a b g) := fun w h => by
  obtain rfl := Option.some.inj h
  simp only [put]; omega
theorem flt (p : BitVec 3) (a b : BitVec 6) (g : BitVec 3) : Statement (.flt p a b g) := fun w h => by
  obtain rfl := Option.some.inj h
  simp only [put]; omega
theorem fle (p : BitVec 3) (a b : BitVec 6) (g : BitVec 3) : Statement (.fle p a b g) := fun w h => by
  obtain rfl := Option.some.inj h
  simp only [put]; omega
theorem fgt (p : BitVec 3) (a b : BitVec 6) (g : BitVec 3) : Statement (.fgt p a b g) := fun w h => by
  obtain rfl := Option.some.inj h
  simp only [put]; omega
theorem fge (p : BitVec 3) (a b : BitVec 6) (g : BitVec 3) : Statement (.fge p a b g) := fun w h => by
  obtain rfl := Option.some.inj h
  simp only [put]; omega
theorem funord (p : BitVec 3) (a b : BitVec 6) (g : BitVec 3) : Statement (.funord p a b g) := fun w h => by
  obtain rfl := Option.some.inj h
  simp only [put]; omega
theorem ford (p : BitVec 3) (a b : BitVec 6) (g : BitVec 3) : Statement (.ford p a b g) := fun w h => by
  obtain rfl := Option.some.inj h
  simp only [put]; omega
theorem fclass (d a : BitVec 6) (g : BitVec 3) : Statement (.fclass d a g) := fun w h => by
  obtain rfl := Option.some.inj h
  simp only [put]; omega
theorem dotS8x4 (d a b : BitVec 6) (g : BitVec 3) : Statement (.dotS8x4 d a b g) := fun w h => by
  obtain rfl := Option.some.inj h
  simp only [put]; omega
theorem dotN8x4 (d a b : BitVec 6) (g : BitVec 3) : Statement (.dotN8x4 d a b g) := fun w h => by
  obtain rfl := Option.some.inj h
  simp only [put]; omega
theorem dotS4x8 (d a b : BitVec 6) (g : BitVec 3) : Statement (.dotS4x8 d a b g) := fun w h => by
  obtain rfl := Option.some.inj h
  simp only [put]; omega
theorem dotN4x8 (d a b : BitVec 6) (g : BitVec 3) : Statement (.dotN4x8 d a b g) := fun w h => by
  obtain rfl := Option.some.inj h
  simp only [put]; omega
theorem dotE4m3x4 (d a b : BitVec 6) (g : BitVec 3) : Statement (.dotE4m3x4 d a b g) := fun w h => by
  obtain rfl := Option.some.inj h
  simp only [put]; omega
theorem dotE5m2x4 (d a b : BitVec 6) (g : BitVec 3) : Statement (.dotE5m2x4 d a b g) := fun w h => by
  obtain rfl := Option.some.inj h
  simp only [put]; omega
theorem dotE2m1x8 (d a b : BitVec 6) (g : BitVec 3) : Statement (.dotE2m1x8 d a b g) := fun w h => by
  obtain rfl := Option.some.inj h
  simp only [put]; omega
theorem scl (d a b : BitVec 6) (k : BitVec 2) (g : BitVec 3) : Statement (.scl d a b k g) := fun w h => by
  obtain rfl := Option.some.inj h
  simp only [put]; omega
theorem scladd (d a b : BitVec 6) (k : BitVec 2) (g : BitVec 3) : Statement (.scladd d a b k g) := fun w h => by
  obtain rfl := Option.some.inj h
  simp only [put]; omega
theorem ftwosum (d a b : BitVec 6) (g : BitVec 3) : Statement (.ftwosum d a b g) := fun w h => by
  obtain rfl := Option.some.inj h
  simp only [put]; omega
theorem ftwoprod (d a b : BitVec 6) (g : BitVec 3) : Statement (.ftwoprod d a b g) := fun w h => by
  obtain rfl := Option.some.inj h
  simp only [put]; omega
theorem faddPair (d a : BitVec 6) (g : BitVec 3) : Statement (.faddPair d a g) := fun w h => by
  obtain rfl := Option.some.inj h
  simp only [put]; omega
theorem shflIdx (d a b : BitVec 6) (g : BitVec 3) : Statement (.shflIdx d a b g) := fun w h => by
  obtain rfl := Option.some.inj h
  simp only [put]; omega
theorem shflUp (d a b : BitVec 6) (g : BitVec 3) : Statement (.shflUp d a b g) := fun w h => by
  obtain rfl := Option.some.inj h
  simp only [put]; omega
theorem shflDn (d a b : BitVec 6) (g : BitVec 3) : Statement (.shflDn d a b g) := fun w h => by
  obtain rfl := Option.some.inj h
  simp only [put]; omega
theorem shflXor (d a b : BitVec 6) (g : BitVec 3) : Statement (.shflXor d a b g) := fun w h => by
  obtain rfl := Option.some.inj h
  simp only [put]; omega
theorem bcast (d a : BitVec 6) (g : BitVec 3) : Statement (.bcast d a g) := fun w h => by
  obtain rfl := Option.some.inj h
  simp only [put]; omega
theorem voteAny (d a g : BitVec 3) : Statement (.voteAny d a g) := fun w h => by
  obtain rfl := Option.some.inj h
  simp only [put]; omega
theorem voteAll (d a g : BitVec 3) : Statement (.voteAll d a g) := fun w h => by
  obtain rfl := Option.some.inj h
  simp only [put]; omega
theorem voteBallot (d : BitVec 6) (a g : BitVec 3) : Statement (.voteBallot d a g) := fun w h => by
  obtain rfl := Option.some.inj h
  simp only [put]; omega
theorem matchLanes (d a : BitVec 6) (g : BitVec 3) : Statement (.matchLanes d a g) := fun w h => by
  obtain rfl := Option.some.inj h
  simp only [put]; omega
theorem redAddS32 (d a : BitVec 6) (g : BitVec 3) : Statement (.redAddS32 d a g) := fun w h => by
  obtain rfl := Option.some.inj h
  simp only [put]; omega
theorem redAddF32 (d a : BitVec 6) (g : BitVec 3) : Statement (.redAddF32 d a g) := fun w h => by
  obtain rfl := Option.some.inj h
  simp only [put]; omega
theorem redMin (d a : BitVec 6) (g : BitVec 3) : Statement (.redMin d a g) := fun w h => by
  obtain rfl := Option.some.inj h
  simp only [put]; omega
theorem redMax (d a : BitVec 6) (g : BitVec 3) : Statement (.redMax d a g) := fun w h => by
  obtain rfl := Option.some.inj h
  simp only [put]; omega
theorem prefixSum (d a : BitVec 6) (g : BitVec 3) : Statement (.prefixSum d a g) := fun w h => by
  obtain rfl := Option.some.inj h
  simp only [put]; omega
theorem xset (k : BitVec 2) (a : BitVec 6) (g : BitVec 3) : Statement (.xset k a g) := fun w h => by
  obtain rfl := Option.some.inj h
  simp only [put]; omega
theorem xadd (k : BitVec 2) (b : BitVec 6) (g : BitVec 3) : Statement (.xadd k b g) := fun w h => by
  obtain rfl := Option.some.inj h
  simp only [put]; omega
theorem ldv (d : BitVec 6) (w k : BitVec 2) (o : BitVec 6) (g : BitVec 3) : Statement (.ldv d w k o g) := fun w h => by
  obtain rfl := Option.some.inj h
  simp only [put]; omega
theorem stv (d : BitVec 6) (w k : BitVec 2) (o : BitVec 6) (g : BitVec 3) : Statement (.stv d w k o g) := fun w h => by
  obtain rfl := Option.some.inj h
  simp only [put]; omega
theorem xlim (k : BitVec 2) (a : BitVec 6) (g : BitVec 3) : Statement (.xlim k a g) := fun w h => by
  obtain rfl := Option.some.inj h
  simp only [put]; omega
theorem ldS8 (d b : BitVec 6) (o : BitVec 7) (h : BitVec 1) (g : BitVec 3) : Statement (.ldS8 d b o h g) := fun w h => by
  obtain rfl := Option.some.inj h
  simp only [put]; omega
theorem ldN8 (d b : BitVec 6) (o : BitVec 7) (h : BitVec 1) (g : BitVec 3) : Statement (.ldN8 d b o h g) := fun w h => by
  obtain rfl := Option.some.inj h
  simp only [put]; omega
theorem ldS16 (d b : BitVec 6) (o : BitVec 7) (h : BitVec 1) (g : BitVec 3) : Statement (.ldS16 d b o h g) := fun w h => by
  obtain rfl := Option.some.inj h
  simp only [put]; omega
theorem ldN16 (d b : BitVec 6) (o : BitVec 7) (h : BitVec 1) (g : BitVec 3) : Statement (.ldN16 d b o h g) := fun w h => by
  obtain rfl := Option.some.inj h
  simp only [put]; omega
theorem ldB32 (d b : BitVec 6) (o : BitVec 7) (h : BitVec 1) (g : BitVec 3) : Statement (.ldB32 d b o h g) := fun w h => by
  obtain rfl := Option.some.inj h
  simp only [put]; omega
theorem ldB64 (d b : BitVec 6) (o : BitVec 7) (h : BitVec 1) (g : BitVec 3) : Statement (.ldB64 d b o h g) := fun w h => by
  obtain rfl := Option.some.inj h
  simp only [put]; omega
theorem ldB128 (d b : BitVec 6) (o : BitVec 7) (h : BitVec 1) (g : BitVec 3) : Statement (.ldB128 d b o h g) := fun w h => by
  obtain rfl := Option.some.inj h
  simp only [put]; omega
theorem stB8 (d b : BitVec 6) (o : BitVec 7) (h : BitVec 1) (g : BitVec 3) : Statement (.stB8 d b o h g) := fun w h => by
  obtain rfl := Option.some.inj h
  simp only [put]; omega
theorem stB16 (d b : BitVec 6) (o : BitVec 7) (h : BitVec 1) (g : BitVec 3) : Statement (.stB16 d b o h g) := fun w h => by
  obtain rfl := Option.some.inj h
  simp only [put]; omega
theorem stB32 (d b : BitVec 6) (o : BitVec 7) (h : BitVec 1) (g : BitVec 3) : Statement (.stB32 d b o h g) := fun w h => by
  obtain rfl := Option.some.inj h
  simp only [put]; omega
theorem stB64 (d b : BitVec 6) (o : BitVec 7) (h : BitVec 1) (g : BitVec 3) : Statement (.stB64 d b o h g) := fun w h => by
  obtain rfl := Option.some.inj h
  simp only [put]; omega
theorem stB128 (d b : BitVec 6) (o : BitVec 7) (h : BitVec 1) (g : BitVec 3) : Statement (.stB128 d b o h g) := fun w h => by
  obtain rfl := Option.some.inj h
  simp only [put]; omega
theorem ldaB32 (d b : BitVec 6) (c : BitVec 3) (h : BitVec 1) (g : BitVec 3) : Statement (.ldaB32 d b c h g) := fun w h => by
  obtain rfl := Option.some.inj h
  simp only [put]; omega
theorem ldaB64 (d b : BitVec 6) (c : BitVec 3) (h : BitVec 1) (g : BitVec 3) : Statement (.ldaB64 d b c h g) := fun w h => by
  obtain rfl := Option.some.inj h
  simp only [put]; omega
theorem stlB32 (d b : BitVec 6) (c : BitVec 3) (h : BitVec 1) (g : BitVec 3) : Statement (.stlB32 d b c h g) := fun w h => by
  obtain rfl := Option.some.inj h
  simp only [put]; omega
theorem stlB64 (d b : BitVec 6) (c : BitVec 3) (h : BitVec 1) (g : BitVec 3) : Statement (.stlB64 d b c h g) := fun w h => by
  obtain rfl := Option.some.inj h
  simp only [put]; omega
theorem atomAddS32 (d a b : BitVec 6) (h : BitVec 1) (g : BitVec 3) : Statement (.atomAddS32 d a b h g) := fun w h => by
  obtain rfl := Option.some.inj h
  simp only [put]; omega
theorem atomAddF32 (d a b : BitVec 6) (h : BitVec 1) (g : BitVec 3) : Statement (.atomAddF32 d a b h g) := fun w h => by
  obtain rfl := Option.some.inj h
  simp only [put]; omega
theorem atomMinS (d a b : BitVec 6) (h : BitVec 1) (g : BitVec 3) : Statement (.atomMinS d a b h g) := fun w h => by
  obtain rfl := Option.some.inj h
  simp only [put]; omega
theorem atomMaxS (d a b : BitVec 6) (h : BitVec 1) (g : BitVec 3) : Statement (.atomMaxS d a b h g) := fun w h => by
  obtain rfl := Option.some.inj h
  simp only [put]; omega
theorem atomMinN (d a b : BitVec 6) (h : BitVec 1) (g : BitVec 3) : Statement (.atomMinN d a b h g) := fun w h => by
  obtain rfl := Option.some.inj h
  simp only [put]; omega
theorem atomMaxN (d a b : BitVec 6) (h : BitVec 1) (g : BitVec 3) : Statement (.atomMaxN d a b h g) := fun w h => by
  obtain rfl := Option.some.inj h
  simp only [put]; omega
theorem atomAnd (d a b : BitVec 6) (h : BitVec 1) (g : BitVec 3) : Statement (.atomAnd d a b h g) := fun w h => by
  obtain rfl := Option.some.inj h
  simp only [put]; omega
theorem atomOr (d a b : BitVec 6) (h : BitVec 1) (g : BitVec 3) : Statement (.atomOr d a b h g) := fun w h => by
  obtain rfl := Option.some.inj h
  simp only [put]; omega
theorem atomXor (d a b : BitVec 6) (h : BitVec 1) (g : BitVec 3) : Statement (.atomXor d a b h g) := fun w h => by
  obtain rfl := Option.some.inj h
  simp only [put]; omega
theorem atomExch (d a b : BitVec 6) (h : BitVec 1) (g : BitVec 3) : Statement (.atomExch d a b h g) := fun w h => by
  obtain rfl := Option.some.inj h
  simp only [put]; omega
theorem atomCas (d a b : BitVec 6) (h : BitVec 1) (g : BitVec 3) : Statement (.atomCas d a b h g) := fun w h => by
  obtain rfl := Option.some.inj h
  simp only [put]; omega
theorem atomAddS64 (d a b : BitVec 6) (h : BitVec 1) (g : BitVec 3) : Statement (.atomAddS64 d a b h g) := fun w h => by
  obtain rfl := Option.some.inj h
  simp only [put]; omega
theorem atomExchB64 (d a b : BitVec 6) (h : BitVec 1) (g : BitVec 3) : Statement (.atomExchB64 d a b h g) := fun w h => by
  obtain rfl := Option.some.inj h
  simp only [put]; omega
theorem atomCasB64 (d a b : BitVec 6) (h : BitVec 1) (g : BitVec 3) : Statement (.atomCasB64 d a b h g) := fun w h => by
  obtain rfl := Option.some.inj h
  simp only [put]; omega
theorem lrB32 (d a : BitVec 6) (h : BitVec 1) (g : BitVec 3) : Statement (.lrB32 d a h g) := fun w h => by
  obtain rfl := Option.some.inj h
  simp only [put]; omega
theorem scB32 (p : BitVec 3) (a b : BitVec 6) (h : BitVec 1) (g : BitVec 3) : Statement (.scB32 p a b h g) := fun w h => by
  obtain rfl := Option.some.inj h
  simp only [put]; omega
theorem lrB64 (d a : BitVec 6) (h : BitVec 1) (g : BitVec 3) : Statement (.lrB64 d a h g) := fun w h => by
  obtain rfl := Option.some.inj h
  simp only [put]; omega
theorem scB64 (p : BitVec 3) (a b : BitVec 6) (h : BitVec 1) (g : BitVec 3) : Statement (.scB64 p a b h g) := fun w h => by
  obtain rfl := Option.some.inj h
  simp only [put]; omega
theorem clrres (g : BitVec 3) : Statement (.clrres g) := fun w h => by
  obtain rfl := Option.some.inj h
  simp only [put]; omega
theorem fenceAcq (c g : BitVec 3) : Statement (.fenceAcq c g) := fun w h => by
  obtain rfl := Option.some.inj h
  simp only [put]; omega
theorem fenceRel (c g : BitVec 3) : Statement (.fenceRel c g) := fun w h => by
  obtain rfl := Option.some.inj h
  simp only [put]; omega
theorem fenceAr (c g : BitVec 3) : Statement (.fenceAr c g) := fun w h => by
  obtain rfl := Option.some.inj h
  simp only [put]; omega
theorem br (o : BitVec 23) (g : BitVec 3) : Statement (.br o g) := fun w h => by
  obtain rfl := Option.some.inj h
  simp only [put]; omega
theorem call (l : BitVec 6) (o : BitVec 15) (g : BitVec 3) : Statement (.call l o g) := fun w h => by
  obtain rfl := Option.some.inj h
  simp only [put]; omega
theorem callr (l t : BitVec 6) (g : BitVec 3) : Statement (.callr l t g) := fun w h => by
  obtain rfl := Option.some.inj h
  simp only [put]; omega
theorem ret (t : BitVec 6) (g : BitVec 3) : Statement (.ret t g) := fun w h => by
  obtain rfl := Option.some.inj h
  simp only [put]; omega
theorem jmpr (t : BitVec 6) (g : BitVec 3) : Statement (.jmpr t g) := fun w h => by
  obtain rfl := Option.some.inj h
  simp only [put]; omega
theorem jset (j : BitVec 4) (g : BitVec 3) : Statement (.jset j g) := fun w h => by
  obtain rfl := Option.some.inj h
  simp only [put]; omega
theorem jadd (j : BitVec 4) (g : BitVec 3) : Statement (.jadd j g) := fun w h => by
  obtain rfl := Option.some.inj h
  simp only [put]; omega
theorem waitRejoin (j : BitVec 4) (g : BitVec 3) : Statement (.waitRejoin j g) := fun w h => by
  obtain rfl := Option.some.inj h
  simp only [put]; omega
theorem leave (m : BitVec 16) (g : BitVec 3) : Statement (.leave m g) := fun w h => by
  obtain rfl := Option.some.inj h
  simp only [put]; omega
theorem exit (g : BitVec 3) : Statement (.exit g) := fun w h => by
  obtain rfl := Option.some.inj h
  simp only [put]; omega
theorem tail (g : BitVec 3) : Statement (.tail g) := fun w h => by
  obtain rfl := Option.some.inj h
  simp only [put]; omega
theorem yield (g : BitVec 3) : Statement (.yield g) := fun w h => by
  obtain rfl := Option.some.inj h
  simp only [put]; omega
theorem jget (d : BitVec 6) (j : BitVec 4) (g : BitVec 3) : Statement (.jget d j g) := fun w h => by
  obtain rfl := Option.some.inj h
  simp only [put]; omega
theorem hintImm (p : BitVec 24) : Statement (.hintImm p) := fun w h => by
  obtain rfl := Option.some.inj h
  simp only [put]; omega
theorem hintMod (a : BitVec 1) (o : BitVec 2) (b : BitVec 1) (r : BitVec 2) (c d e : BitVec 1) (s : BitVec 3) (f : BitVec 1) (k : BitVec 2) (n : BitVec 1) : Statement (.hintMod a o b r c d e s f k n) := fun w h => by
  obtain rfl := Option.some.inj h
  simp only [put]; omega
theorem hintSched (w : BitVec 1) (s : BitVec 8) : Statement (.hintSched w s) := fun w h => by
  obtain rfl := Option.some.inj h
  simp only [put]; omega
theorem wait (l s c m : BitVec 6) : Statement (.wait l s c m) := fun w h => by
  obtain rfl := Option.some.inj h
  simp only [put]; omega
theorem waitr (a : BitVec 6) : Statement (.waitr a) := fun w h => by
  obtain rfl := Option.some.inj h
  simp only [put]; omega
theorem trap (c : BitVec 8) (g : BitVec 3) : Statement (.trap c g) := fun w h => by
  obtain rfl := Option.some.inj h
  simp only [put]; omega
theorem eret (s : BitVec 1) (g : BitVec 3) : Statement (.eret s g) := fun w h => by
  obtain rfl := Option.some.inj h
  simp only [put]; omega
theorem brk (c : BitVec 8) (g : BitVec 3) : Statement (.brk c g) := fun w h => by
  obtain rfl := Option.some.inj h
  simp only [put]; omega
theorem halt (g : BitVec 3) : Statement (.halt g) := fun w h => by
  obtain rfl := Option.some.inj h
  simp only [put]; omega
theorem csrr (d : BitVec 6) (r : BitVec 8) (g : BitVec 3) : Statement (.csrr d r g) := fun w h => by
  obtain rfl := Option.some.inj h
  simp only [put]; omega
theorem csrw (a : BitVec 6) (r : BitVec 8) (g : BitVec 3) : Statement (.csrw a r g) := fun w h => by
  obtain rfl := Option.some.inj h
  simp only [put]; omega
theorem sreg (d : BitVec 6) (i : BitVec 10) (g : BitVec 3) : Statement (.sreg d i g) := fun w h => by
  obtain rfl := Option.some.inj h
  simp only [put]; omega
theorem qpush (v : BitVec 6) (q : BitVec 4) (p : BitVec 3) (n : BitVec 1) (g : BitVec 3) : Statement (.qpush v q p n g) := fun w h => by
  obtain rfl := Option.some.inj h
  simp only [put]; omega
theorem qpop (v : BitVec 6) (q : BitVec 4) (p : BitVec 3) (n : BitVec 1) (g : BitVec 3) : Statement (.qpop v q p n g) := fun w h => by
  obtain rfl := Option.some.inj h
  simp only [put]; omega
theorem qbind (v : BitVec 6) (q c : BitVec 4) (g : BitVec 3) : Statement (.qbind v q c g) := fun w h => by
  obtain rfl := Option.some.inj h
  simp only [put]; omega
theorem qstat (v : BitVec 6) (q : BitVec 4) (g : BitVec 3) : Statement (.qstat v q g) := fun w h => by
  obtain rfl := Option.some.inj h
  simp only [put]; omega
theorem qflush (q : BitVec 4) (g : BitVec 3) : Statement (.qflush q g) := fun w h => by
  obtain rfl := Option.some.inj h
  simp only [put]; omega
theorem cset (c : BitVec 3) (n : BitVec 5) (z : BitVec 2) (g : BitVec 3) : Statement (.cset c n z g) := fun w h => by
  obtain rfl := Option.some.inj h
  simp only [put]; omega
theorem csign (c g : BitVec 3) : Statement (.csign c g) := fun w h => by
  obtain rfl := Option.some.inj h
  simp only [put]; omega
theorem cchk (d : BitVec 6) (c g : BitVec 3) : Statement (.cchk d c g) := fun w h => by
  obtain rfl := Option.some.inj h
  simp only [put]; omega
theorem barL (g : BitVec 3) : Statement (.barL g) := fun w h => by
  obtain rfl := Option.some.inj h
  simp only [put]; omega
theorem barS (g : BitVec 3) : Statement (.barS g) := fun w h => by
  obtain rfl := Option.some.inj h
  simp only [put]; omega
theorem arrive (s : BitVec 1) (g : BitVec 3) : Statement (.arrive s g) := fun w h => by
  obtain rfl := Option.some.inj h
  simp only [put]; omega
theorem await (s : BitVec 1) (g : BitVec 3) : Statement (.await s g) := fun w h => by
  obtain rfl := Option.some.inj h
  simp only [put]; omega
theorem barPhase (g : BitVec 3) : Statement (.barPhase g) := fun w h => by
  obtain rfl := Option.some.inj h
  simp only [put]; omega
theorem mma (t : BitVec 7) (a : BitVec 2) (k : BitVec 4) (c : BitVec 3) (r : BitVec 1) (g : BitVec 3) : Statement (.mma t a k c r g) := fun w h => by
  obtain rfl := Option.some.inj h
  simp only [put]; omega
theorem mmaBs (t : BitVec 7) (a : BitVec 2) (k : BitVec 4) (c : BitVec 3) (r : BitVec 1) (g : BitVec 3) : Statement (.mmaBs t a k c r g) := fun w h => by
  obtain rfl := Option.some.inj h
  simp only [put]; omega
theorem mmaZ (t : BitVec 7) (a : BitVec 2) (k : BitVec 4) (c : BitVec 3) (r : BitVec 1) (g : BitVec 3) : Statement (.mmaZ t a k c r g) := fun w h => by
  obtain rfl := Option.some.inj h
  simp only [put]; omega
theorem accZero (t : BitVec 7) (g : BitVec 3) : Statement (.accZero t g) := fun w h => by
  obtain rfl := Option.some.inj h
  simp only [put]; omega
theorem accLd (t : BitVec 7) (a : BitVec 6) (g : BitVec 3) : Statement (.accLd t a g) := fun w h => by
  obtain rfl := Option.some.inj h
  simp only [put]; omega
theorem accSt (t : BitVec 7) (a d : BitVec 6) (g : BitVec 3) : Statement (.accSt t a d g) := fun w h => by
  obtain rfl := Option.some.inj h
  simp only [put]; omega
theorem accRd (t : BitVec 7) (a d : BitVec 6) (g : BitVec 3) : Statement (.accRd t a d g) := fun w h => by
  obtain rfl := Option.some.inj h
  simp only [put]; omega
theorem accTab (a : BitVec 6) (g : BitVec 3) : Statement (.accTab a g) := fun w h => by
  obtain rfl := Option.some.inj h
  simp only [put]; omega
theorem trecMk (d a : BitVec 6) (g : BitVec 3) : Statement (.trecMk d a g) := fun w h => by
  obtain rfl := Option.some.inj h
  simp only [put]; omega
theorem trecChk (d a : BitVec 6) (g : BitVec 3) : Statement (.trecChk d a g) := fun w h => by
  obtain rfl := Option.some.inj h
  simp only [put]; omega
theorem trecStep (d a b : BitVec 6) (g : BitVec 3) : Statement (.trecStep d a b g) := fun w h => by
  obtain rfl := Option.some.inj h
  simp only [put]; omega
theorem cp (a : BitVec 6) (e : BitVec 1) (q : BitVec 4) (g : BitVec 3) : Statement (.cp a e q g) := fun w h => by
  obtain rfl := Option.some.inj h
  simp only [put]; omega
theorem cpGather (d a : BitVec 6) (e : BitVec 1) (q : BitVec 4) (g : BitVec 3) : Statement (.cpGather d a e q g) := fun w h => by
  obtain rfl := Option.some.inj h
  simp only [put]; omega
theorem cpGatherR (d a : BitVec 6) (e : BitVec 1) (q : BitVec 4) (g : BitVec 3) : Statement (.cpGatherR d a e q g) := fun w h => by
  obtain rfl := Option.some.inj h
  simp only [put]; omega
theorem cpScatter (d a : BitVec 6) (e : BitVec 1) (q : BitVec 4) (g : BitVec 3) : Statement (.cpScatter d a e q g) := fun w h => by
  obtain rfl := Option.some.inj h
  simp only [put]; omega
theorem cpFill (a : BitVec 6) (e : BitVec 1) (q : BitVec 4) (g : BitVec 3) : Statement (.cpFill a e q g) := fun w h => by
  obtain rfl := Option.some.inj h
  simp only [put]; omega
theorem cpFlush (a : BitVec 6) (e : BitVec 1) (q : BitVec 4) (g : BitVec 3) : Statement (.cpFlush a e q g) := fun w h => by
  obtain rfl := Option.some.inj h
  simp only [put]; omega
theorem cpPref (a : BitVec 6) (e : BitVec 1) (q : BitVec 4) (g : BitVec 3) : Statement (.cpPref a e q g) := fun w h => by
  obtain rfl := Option.some.inj h
  simp only [put]; omega
theorem claEval (v : BitVec 6) (q : BitVec 4) (g : BitVec 3) : Statement (.claEval v q g) := fun w h => by
  obtain rfl := Option.some.inj h
  simp only [put]; omega
theorem claFeed (v : BitVec 6) (q : BitVec 4) (g : BitVec 3) : Statement (.claFeed v q g) := fun w h => by
  obtain rfl := Option.some.inj h
  simp only [put]; omega
theorem claVote (v : BitVec 6) (q : BitVec 4) (g : BitVec 3) : Statement (.claVote v q g) := fun w h => by
  obtain rfl := Option.some.inj h
  simp only [put]; omega
theorem claLd (a : BitVec 6) (s : BitVec 1) (g : BitVec 3) : Statement (.claLd a s g) := fun w h => by
  obtain rfl := Option.some.inj h
  simp only [put]; omega
theorem claSt (a : BitVec 6) (s : BitVec 1) (g : BitVec 3) : Statement (.claSt a s g) := fun w h => by
  obtain rfl := Option.some.inj h
  simp only [put]; omega
theorem claTab (a : BitVec 6) (g : BitVec 3) : Statement (.claTab a g) := fun w h => by
  obtain rfl := Option.some.inj h
  simp only [put]; omega
theorem claSeed (a : BitVec 6) (g : BitVec 3) : Statement (.claSeed a g) := fun w h => by
  obtain rfl := Option.some.inj h
  simp only [put]; omega
theorem claCfg (a : BitVec 6) (g : BitVec 3) : Statement (.claCfg a g) := fun w h => by
  obtain rfl := Option.some.inj h
  simp only [put]; omega
theorem claStat (d : BitVec 6) (g : BitVec 3) : Statement (.claStat d g) := fun w h => by
  obtain rfl := Option.some.inj h
  simp only [put]; omega
theorem redz (h : BitVec 2) (a : BitVec 6) (o g : BitVec 3) : Statement (.redz h a o g) := fun w h => by
  obtain rfl := Option.some.inj h
  simp only [put]; omega
theorem rdz (d a : BitVec 6) (p : BitVec 3) (h : BitVec 2) (g : BitVec 3) : Statement (.rdz d a p h g) := fun w h => by
  obtain rfl := Option.some.inj h
  simp only [put]; omega
theorem hst (v : BitVec 6) (q : BitVec 4) (g : BitVec 3) : Statement (.hst v q g) := fun w h => by
  obtain rfl := Option.some.inj h
  simp only [put]; omega
theorem hpost (v : BitVec 6) (q : BitVec 4) (p : BitVec 3) (n : BitVec 1) (g : BitVec 3) : Statement (.hpost v q p n g) := fun w h => by
  obtain rfl := Option.some.inj h
  simp only [put]; omega
theorem hqtake (v : BitVec 6) (q : BitVec 4) (p : BitVec 3) (n : BitVec 1) (g : BitVec 3) : Statement (.hqtake v q p n g) := fun w h => by
  obtain rfl := Option.some.inj h
  simp only [put]; omega
theorem hqfree (v : BitVec 6) (q : BitVec 4) (g : BitVec 3) : Statement (.hqfree v q g) := fun w h => by
  obtain rfl := Option.some.inj h
  simp only [put]; omega
theorem hqstat (v : BitVec 6) (q : BitVec 4) (g : BitVec 3) : Statement (.hqstat v q g) := fun w h => by
  obtain rfl := Option.some.inj h
  simp only [put]; omega
theorem nbMax (p : BitVec 3) (a b : BitVec 6) (g : BitVec 3) : Statement (.nbMax p a b g) := fun w h => by
  obtain rfl := Option.some.inj h
  simp only [put]; omega
theorem nbMaxP (a b : BitVec 6) (g : BitVec 3) : Statement (.nbMaxP a b g) := fun w h => by
  obtain rfl := Option.some.inj h
  simp only [put]; omega
theorem nGrow (d a b : BitVec 6) (g : BitVec 3) : Statement (.nGrow d a b g) := fun w h => by
  obtain rfl := Option.some.inj h
  simp only [put]; omega
theorem nLaunch (p : BitVec 3) (a b : BitVec 6) (g : BitVec 3) : Statement (.nLaunch p a b g) := fun w h => by
  obtain rfl := Option.some.inj h
  simp only [put]; omega
theorem nSignal (a : BitVec 6) (g : BitVec 3) : Statement (.nSignal a g) := fun w h => by
  obtain rfl := Option.some.inj h
  simp only [put]; omega
theorem nInfo (d a b : BitVec 6) (g : BitVec 3) : Statement (.nInfo d a b g) := fun w h => by
  obtain rfl := Option.some.inj h
  simp only [put]; omega
theorem pfCode (l : BitVec 1) (a b : BitVec 6) (g : BitVec 3) : Statement (.pfCode l a b g) := fun w h => by
  obtain rfl := Option.some.inj h
  simp only [put]; omega
theorem pinCode (l : BitVec 1) (p : BitVec 3) (a b : BitVec 6) (g : BitVec 3) : Statement (.pinCode l p a b g) := fun w h => by
  obtain rfl := Option.some.inj h
  simp only [put]; omega
theorem unpinCode (l : BitVec 1) (a b : BitVec 6) (g : BitVec 3) : Statement (.unpinCode l a b g) := fun w h => by
  obtain rfl := Option.some.inj h
  simp only [put]; omega
theorem ingClaim (v : BitVec 6) (q : BitVec 4) (p : BitVec 3) (n : BitVec 1) (g : BitVec 3) : Statement (.ingClaim v q p n g) := fun w h => by
  obtain rfl := Option.some.inj h
  simp only [put]; omega
theorem ingRel (v : BitVec 6) (q : BitVec 4) (g : BitVec 3) : Statement (.ingRel v q g) := fun w h => by
  obtain rfl := Option.some.inj h
  simp only [put]; omega
theorem ingStat (v : BitVec 6) (q : BitVec 4) (g : BitVec 3) : Statement (.ingStat v q g) := fun w h => by
  obtain rfl := Option.some.inj h
  simp only [put]; omega
theorem ingGap (v : BitVec 6) (q : BitVec 4) (g : BitVec 3) : Statement (.ingGap v q g) := fun w h => by
  obtain rfl := Option.some.inj h
  simp only [put]; omega
theorem ingLoss (v : BitVec 6) (q : BitVec 4) (g : BitVec 3) : Statement (.ingLoss v q g) := fun w h => by
  obtain rfl := Option.some.inj h
  simp only [put]; omega
theorem collSend (v : BitVec 6) (q : BitVec 4) (p : BitVec 3) (n : BitVec 1) (g : BitVec 3) : Statement (.collSend v q p n g) := fun w h => by
  obtain rfl := Option.some.inj h
  simp only [put]; omega
theorem collRecv (v : BitVec 6) (q : BitVec 4) (p : BitVec 3) (n : BitVec 1) (g : BitVec 3) : Statement (.collRecv v q p n g) := fun w h => by
  obtain rfl := Option.some.inj h
  simp only [put]; omega
theorem collRed (v : BitVec 6) (q : BitVec 4) (g : BitVec 3) : Statement (.collRed v q g) := fun w h => by
  obtain rfl := Option.some.inj h
  simp only [put]; omega
theorem collWait (v : BitVec 6) (q : BitVec 4) (g : BitVec 3) : Statement (.collWait v q g) := fun w h => by
  obtain rfl := Option.some.inj h
  simp only [put]; omega
theorem ctxSave (a : BitVec 6) (g : BitVec 3) : Statement (.ctxSave a g) := fun w h => by
  obtain rfl := Option.some.inj h
  simp only [put]; omega
theorem ctxLoad (p : BitVec 3) (a : BitVec 6) (g : BitVec 3) : Statement (.ctxLoad p a g) := fun w h => by
  obtain rfl := Option.some.inj h
  simp only [put]; omega
theorem tlbInv (a b : BitVec 6) (g : BitVec 3) : Statement (.tlbInv a b g) := fun w h => by
  obtain rfl := Option.some.inj h
  simp only [put]; omega
theorem partQ (d b : BitVec 6) (g : BitVec 3) : Statement (.partQ d b g) := fun w h => by
  obtain rfl := Option.some.inj h
  simp only [put]; omega
theorem sel (d a b : BitVec 6) (p : BitVec 3) (t : BitVec 1) (g : BitVec 3) : Statement (.sel d a b p t g) := fun w h => by
  obtain rfl := Option.some.inj h
  simp only [put]; omega
theorem add64 (d a b : BitVec 6) (t : BitVec 1) (g : BitVec 3) : Statement (.add64 d a b t g) := fun w h => by
  obtain rfl := Option.some.inj h
  simp only [put]; omega
theorem sub64 (d a b : BitVec 6) (t : BitVec 1) (g : BitVec 3) : Statement (.sub64 d a b t g) := fun w h => by
  obtain rfl := Option.some.inj h
  simp only [put]; omega
theorem lea (d a b : BitVec 6) (t : BitVec 1) (g : BitVec 3) : Statement (.lea d a b t g) := fun w h => by
  obtain rfl := Option.some.inj h
  simp only [put]; omega
theorem cmp64 (c p : BitVec 3) (a b : BitVec 6) (g : BitVec 3) : Statement (.cmp64 c p a b g) := fun w h => by
  obtain rfl := Option.some.inj h
  simp only [put]; omega

end Sys2Proof.Laws.Fits
end

