-- ==== Sys2Proof/Laws/Step.lean ====
section
/-!
SUPPORT. What one step comes to: the turn that is next, the issue turn of a bay as one word fetched and executed, what is left
of a turn that met no failure.
-/

namespace Sys2Proof.Machine

/-- A step of a machine that goes on is the next turn. -/
theorem step_turn {s : State} {t : Turn} {ts : List Turn} (h : s.contained = false) (hn : s.nextTurn = (t, ts)) :
    step s = ({ s with agenda := ts } : State).turn t := by
  unfold step
  rw [if_neg (by rw [h]; exact Bool.false_ne_true)]
  unfold State.advance
  rw [hn]

/-- The turn of a bay of a machine that is awake, and that has not issued in this cycle, nor has a higher bay of its core. -/
theorem turn_issue {s : State} (core bay : Nat) (h : s.asleep = false) (hu : s.slotUsed core bay = false) :
    s.turn (.issue core bay) = thenNext s.settled (s.issueTurn core bay) := by
  unfold State.turn
  simp [h, hu]

/-- The turn of a bay whose slot of this cycle is used. -/
theorem turn_issue_used {s : State} (core bay : Nat) (hu : s.slotUsed core bay = true) : s.turn (.issue core bay) = .next s := by
  unfold State.turn
  simp [hu]

/-- The turn of an event of a machine that is awake. -/
theorem turn_event {s : State} (e : Instr) (h : s.asleep = false) :
    s.turn (.event e) =
      thenNext (fun t => (State.settledBy e s t).due.wakeAll) (exec e (State.prepared e { s with cur := none })) := by
  unfold State.turn State.happen
  simp [h]

/-- A bay that has no flight in its pending set moves none: its events start from the state as it is. -/
theorem prepared_idle {s : State} {core bay : Nat} (h : (s.bayFlights core bay).any (fun x => !x.fl.active) = false) :
    State.prepared (.flightSwap core bay) s = s ∧ State.prepared (.activeSetFill core bay) s = s ∧
    State.prepared (.aging core bay) s = s := by
  refine ⟨?_, ?_, ?_⟩ <;> unfold State.prepared <;> simp [h]

/-- The issue slot of a bay in which nobody has advice to swap, and whose flight needs no switch. -/
theorem issueTurn_word {s0 s : State} {core bay : Nat} {x : Resident} (hs : (s0.bayFlights core bay).foldl State.noteYield s0 = s)
    (ha : (s.bayFlights core bay).any (fun y => s.movable y && y.fl.advice) = false) (hc : s.chosen core bay = some x)
    (hd : s.switchDue x = false) : s0.issueTurn core bay = s.issueWord core bay x := by
  subst hs
  unfold State.issueTurn
  simp only [ha, hc, hd]
  simp

/-- The word that a flight issues is executed as the instruction of its fetch. -/
theorem issueWord_exec {s : State} {core bay : Nat} {x : Resident} {c : Ctx} (h : (s.atWork x).ctx? = some c) :
    s.issueWord core bay x = thenNext (State.settleIssue core bay c.lanes x.fk)
      (exec ((s.atWork x).fetchWord core x.tr.part x.ld.key c.pc).2.instr ((s.atWork x).fetchWord core x.tr.part x.ld.key c.pc).1) := by
  unfold State.issueWord
  simp only [h]

theorem FetchedWord.instr_word (w : Word) : (FetchedWord.word w).instr = decoded (decode (bytesOfWord w.toNat)) := by
  unfold FetchedWord.instr
  rfl

theorem FetchedWord.instr_failed (p : Bool) : (FetchedWord.failed p).instr = .fetchFailure p := by
  unfold FetchedWord.instr
  rfl

/-- A state in which no failure is to be contained is as it is. -/
theorem containFound_none {s : State} (h : s.mem.found = []) : s.containFound = s := by
  have : ({ s.mem with found := [] } : Memory) = s.mem := by rw [← h]
  unfold State.containFound
  rw [h, this]
  rfl

/-- Where no row is throttled and no fill waits, a turn that met no failure stands as it is. -/
theorem settled_plain {s t : State} (hn : s.mem.throttled = []) (hf : s.mem.fills = []) (ht : t.mem.found = []) : s.settled t = t := by
  unfold State.settled
  rw [containFound_none ht]
  simp [Memory.unserved, Memory.passedThrottle, Memory.jumpsQueue, hn, hf]

/-- The same of an event. -/
theorem settledBy_plain {s t : State} (e : Instr) (hn : s.mem.throttled = []) (hf : s.mem.fills = []) (ht : t.mem.found = []) :
    State.settledBy e s t = t := by
  unfold State.settledBy
  rw [containFound_none ht]
  simp [Memory.passedThrottle, Memory.jumpsQueue, hn, hf]

end Sys2Proof.Machine
end

