-- ==== Sys2Proof/Tests/Slice0.lean ====
section
/-!
SUPPORT. Tests. The words are written from the encodings of 03_encoding.md (R40, R50, R51) and from the lines with words that
the chapters of the spec give; the results from the tables and worked examples of the spec. The witnesses show a state and
operands that meet the hypotheses of each statement.
-/

set_option Elab.async false

namespace Sys2Proof.Tests

open Sys2Proof Sys2Proof.Machine

/-! ## Decoding -/

/-- The formats of R40. -/
def fR (major d a b fn t g : Nat) : Nat :=
  major * 2 ^ 26 + d * 2 ^ 20 + a * 2 ^ 14 + b * 2 ^ 8 + fn * 2 ^ 4 + t * 2 ^ 3 + g
def fI (major d a imm g : Nat) : Nat := major * 2 ^ 26 + d * 2 ^ 20 + a * 2 ^ 14 + imm * 2 ^ 3 + g
def fM (major d base off width space g : Nat) : Nat :=
  major * 2 ^ 26 + d * 2 ^ 20 + base * 2 ^ 14 + off * 2 ^ 7 + width * 2 ^ 4 + space * 2 ^ 3 + g
def fB (major off g : Nat) : Nat := major * 2 ^ 26 + off * 2 ^ 3 + g
def fH (kind payload : Nat) : Nat := 0x1E * 2 ^ 26 + kind * 2 ^ 24 + payload

/-- Each word decodes to the instruction beside it. -/
noncomputable def reads (l : List (Nat × Instr)) : Bool :=
  l.all (fun p => match decode (bytesOfWord p.1) with
    | .ok i => i == p.2
    | .error _ => false)

/-- Each word is refused for the reason beside it. -/
noncomputable def refuses (l : List (Nat × DecodeError)) : Bool :=
  l.all (fun p => match decode (bytesOfWord p.1) with
    | .ok _ => false
    | .error e => e == p.2)

theorem test_decode_iop : reads [
    (fR 0x01 13 40 37 0 1 3, .add 13 40 37 1 3),
    (fR 0x01 61 56 21 1 1 5, .sub 61 56 21 1 5),
    (fR 0x01 45 8 5 2 1 7, .and 45 8 5 1 7),
    (fR 0x01 29 24 53 3 1 1, .or 29 24 53 1 1),
    (fR 0x01 13 40 37 4 1 3, .xor 13 40 37 1 3),
    (fR 0x01 61 56 21 5 1 5, .andn 61 56 21 1 5),
    (fR 0x01 45 8 5 6 1 7, .shl 45 8 5 1 7),
    (fR 0x01 29 24 53 7 1 1, .shr 29 24 53 1 1),
    (fR 0x01 13 40 37 8 1 3, .sar 13 40 37 1 3),
    (fR 0x01 61 56 21 9 1 5, .rot 61 56 21 1 5),
    (fR 0x01 45 8 5 10 1 7, .minS 45 8 5 1 7),
    (fR 0x01 29 24 53 11 1 1, .maxS 29 24 53 1 1),
    (fR 0x01 13 40 37 12 1 3, .minN 13 40 37 1 3),
    (fR 0x01 61 56 21 13 1 5, .maxN 61 56 21 1 5),
    (fR 0x01 45 8 5 14 1 7, .mul 45 8 5 1 7),
    (fR 0x01 29 24 53 15 1 1, .mulhiS 29 24 53 1 1)] = true := by decide +kernel

theorem test_decode_iop2 : reads [
    (fR 0x02 13 40 37 0 1 3, .mulhiN 13 40 37 1 3),
    (fR 0x02 61 56 0 1 1 1, .clz 61 56 1 1),
    (fR 0x02 32 45 0 2 1 2, .popc 32 45 1 2),
    (fR 0x02 5 48 0 3 1 2, .brev 5 48 1 2),
    (fR 0x02 24 53 0 4 1 1, .abs 24 53 1 1),
    (fR 0x02 13 40 0 5 1 3, .neg 13 40 1 3),
    (fR 0x02 16 61 0 6 1 1, .extS8 16 61 1 1),
    (fR 0x02 21 32 0 7 1 4, .extS16 21 32 1 4),
    (fR 0x02 8 5 0 8 1 7, .extN8 8 5 1 7),
    (fR 0x02 29 24 0 9 1 5, .extN16 29 24 1 5),
    (fR 0x02 0 13 40 10 1 3, .addSatS 0 13 40 1 3),
    (fR 0x02 16 61 56 11 1 1, .addSatN 16 61 56 1 1),
    (fR 0x02 32 45 8 12 1 6, .subSatS 32 45 8 1 6),
    (fR 0x02 48 29 24 13 1 5, .absdiff 48 29 24 1 5),
    (fR 0x02 0 13 40 14 1 3, .bfx 0 13 40 1 3),
    (fR 0x02 16 61 56 15 1 1, .bfi 16 61 56 1 1)] = true := by decide +kernel

theorem test_decode_fop : reads [
    (fR 0x0C 32 45 8 0 1 6, .fadd 32 45 8 1 6),
    (fR 0x0C 48 29 24 1 1 5, .fsub 48 29 24 1 5),
    (fR 0x0C 0 13 40 2 1 3, .fmul 0 13 40 1 3),
    (fR 0x0C 16 61 56 3 1 1, .fma 16 61 56 1 1),
    (fR 0x0C 32 45 8 4 1 6, .fms 32 45 8 1 6),
    (fR 0x0C 48 29 24 5 1 5, .fnma 48 29 24 1 5),
    (fR 0x0C 0 13 40 6 1 3, .fmin 0 13 40 1 3),
    (fR 0x0C 16 61 56 7 1 1, .fmax 16 61 56 1 1),
    (fR 0x0C 32 45 8 8 1 6, .fminn 32 45 8 1 6),
    (fR 0x0C 48 29 24 9 1 5, .fmaxn 48 29 24 1 5),
    (fR 0x0C 0 13 0 10 1 6, .fabs 0 13 1 6),
    (fR 0x0C 37 16 0 11 1 6, .fneg 37 16 1 6),
    (fR 0x0C 56 21 32 12 1 4, .fcopysign 56 21 32 1 4),
    (fR 0x0C 8 5 0 13 1 7, .fsat 8 5 1 7),
    (fR 0x0C 29 24 0 14 1 5, .frint 29 24 1 5),
    (fR 0x0C 0 13 0 15 1 6, .ftrunc 0 13 1 6)] = true := by decide +kernel

theorem test_decode_fspec : reads [
    (fR 0x0E 37 16 0 0 1 6, .rcp 37 16 1 6),
    (fR 0x0E 56 21 0 1 1 5, .rsqrt 56 21 1 5),
    (fR 0x0E 45 8 0 2 1 6, .sqrt 45 8 1 6),
    (fR 0x0E 48 29 0 3 1 4, .exp2 48 29 1 4),
    (fR 0x0E 53 0 0 4 1 7, .log2 53 0 1 7),
    (fR 0x0E 40 37 0 5 1 3, .sinpi 40 37 1 3),
    (fR 0x0E 61 56 0 6 1 1, .cospi 61 56 1 1),
    (fR 0x0E 32 45 0 7 1 2, .tanh 32 45 1 2),
    (fR 0x0E 5 48 29 8 1 4, .fdiv 5 48 29 1 4)] = true := by decide +kernel

theorem test_decode_cmpn : reads [
    (fR 0x12 53 0 13 0 0 6, .ftwosum 53 0 13 6),
    (fR 0x12 37 16 61 1 0 1, .ftwoprod 37 16 61 1),
    (fR 0x12 21 32 0 2 0 4, .faddPair 21 32 4)] = true := by decide +kernel

theorem test_decode_immediate : reads [
    (fI 0x03 8 5 1072 2, .addi 8 5 1072 2),
    (fI 0x04 24 53 1024 7, .andi 24 53 1024 7),
    (fI 0x05 40 37 1040 6, .ori 40 37 1040 6),
    (fI 0x06 56 21 1056 4, .xori 56 21 1056 4),
    (fI 0x07 9 33 (0 * 32 + 17) 5, .shi 9 33 0 17 5),
    (fI 0x07 9 33 (1 * 32 + 18) 5, .shi 9 33 1 18 5),
    (fI 0x07 9 33 (2 * 32 + 19) 5, .shi 9 33 2 19 5),
    (fI 0x07 9 33 (3 * 32 + 20) 5, .shi 9 33 3 20 5),
    (0x08 * 2 ^ 26 + 41 * 2 ^ 20 + 0x1ABCD * 2 ^ 3 + 6, .movi 41 109517 6)] = true := by decide +kernel

theorem test_decode_icmp : reads [
    (fR 0x09 0 5 48 0 0 5, .eq 0 5 48 5),
    (fR 0x09 0 53 0 1 0 5, .ne 0 53 0 5),
    (fR 0x09 0 37 16 2 0 5, .ltS 0 37 16 5),
    (fR 0x09 0 21 32 3 0 5, .leS 0 21 32 5),
    (fR 0x09 0 5 48 4 0 5, .ltN 0 5 48 5),
    (fR 0x09 0 53 0 5 0 5, .leN 0 53 0 5),
    (fR 0x09 0 37 16 6 0 5, .gtS 0 37 16 5),
    (fR 0x09 0 21 32 7 0 5, .geS 0 21 32 5),
    (fR 0x09 0 5 48 8 0 5, .gtN 0 5 48 5),
    (fR 0x09 0 53 0 9 0 5, .geN 0 53 0 5)] = true := by decide +kernel

theorem test_decode_icmpi : reads [
    (0x0A * 2 ^ 26 + 0 * 2 ^ 23 + 0 * 2 ^ 20 + 37 * 2 ^ 14 + 1516 * 2 ^ 3 + 5, .eqImm 0 37 1516 5),
    (0x0A * 2 ^ 26 + 1 * 2 ^ 23 + 0 * 2 ^ 20 + 21 * 2 ^ 14 + 1532 * 2 ^ 3 + 5, .neImm 0 21 1532 5),
    (0x0A * 2 ^ 26 + 2 * 2 ^ 23 + 0 * 2 ^ 20 + 5 * 2 ^ 14 + 1548 * 2 ^ 3 + 5, .ltSImm 0 5 1548 5),
    (0x0A * 2 ^ 26 + 3 * 2 ^ 23 + 0 * 2 ^ 20 + 53 * 2 ^ 14 + 1500 * 2 ^ 3 + 5, .leSImm 0 53 1500 5),
    (0x0A * 2 ^ 26 + 4 * 2 ^ 23 + 0 * 2 ^ 20 + 37 * 2 ^ 14 + 1516 * 2 ^ 3 + 5, .gtSImm 0 37 1516 5),
    (0x0A * 2 ^ 26 + 5 * 2 ^ 23 + 0 * 2 ^ 20 + 21 * 2 ^ 14 + 1532 * 2 ^ 3 + 5, .geSImm 0 21 1532 5),
    (0x0A * 2 ^ 26 + 6 * 2 ^ 23 + 0 * 2 ^ 20 + 5 * 2 ^ 14 + 1548 * 2 ^ 3 + 5, .ltNImm 0 5 1548 5),
    (0x0A * 2 ^ 26 + 7 * 2 ^ 23 + 0 * 2 ^ 20 + 53 * 2 ^ 14 + 1500 * 2 ^ 3 + 5, .geNImm 0 53 1500 5)] = true := by decide +kernel

theorem test_decode_pred : reads [
    (fR 0x0B 0 5 0 0 0 5, .pand 0 5 0 5),
    (fR 0x0B 0 5 0 1 0 5, .por 0 5 0 5),
    (fR 0x0B 0 5 0 2 0 5, .pxor 0 5 0 5),
    (fR 0x0B 0 5 0 3 0 0, .pnot 0 5 0),
    (fR 0x0B 5 61 0 4 0 5, .psetNz 5 61 5),
    (fR 0x0B 50 0 0 5 0 5, .pget 50 5)] = true := by decide +kernel

theorem test_decode_hop : reads [
    (fR 0x0D 56 21 32 (0 * 8 + 0) 0 4, .hadd 56 21 32 0 4),
    (fR 0x0D 8 5 48 (1 * 8 + 1) 0 2, .hsub 8 5 48 1 2),
    (fR 0x0D 24 53 0 (0 * 8 + 2) 0 7, .hmul 24 53 0 0 7),
    (fR 0x0D 40 37 16 (1 * 8 + 3) 0 6, .hfma 40 37 16 1 6),
    (fR 0x0D 56 21 32 (0 * 8 + 4) 0 4, .hmin 56 21 32 0 4),
    (fR 0x0D 8 5 48 (1 * 8 + 5) 0 2, .hmax 8 5 48 1 2),
    (fR 0x0D 24 53 0 (0 * 8 + 6) 0 1, .habs 24 53 0 1),
    (fR 0x0D 13 40 0 (1 * 8 + 7) 0 3, .hneg 13 40 1 3)] = true := by decide +kernel

theorem test_decode_fcvt : reads [
    (fR 0x0F 16 61 0 0 0 0, .cvtF32S32 16 61 0),
    (fR 0x0F 21 32 0 1 0 5, .cvtF32N32 21 32 5),
    (fR 0x0F 8 5 0 2 0 0, .cvtS32F32 8 5 0),
    (fR 0x0F 29 24 0 3 0 5, .cvtN32F32 29 24 5),
    (fR 0x0F 0 13 1 4 0 0, .cvtF32F16 0 13 1 0),
    (fR 0x0F 37 16 1 5 0 5, .cvtF32Bf16 37 16 1 5),
    (fR 0x0F 56 21 1 6 0 0, .cvtF16F32 56 21 1 0),
    (fR 0x0F 45 8 1 7 0 5, .cvtBf16F32 45 8 1 5),
    (fR 0x0F 48 29 3 8 0 0, .cvtF32E4m3 48 29 3 0),
    (fR 0x0F 53 0 3 9 0 5, .cvtF32E5m2 53 0 3 5),
    (fR 0x0F 40 37 3 10 0 0, .cvtE4m3F32 40 37 3 0),
    (fR 0x0F 61 56 3 11 0 5, .cvtE5m2F32 61 56 3 5),
    (fR 0x0F 32 45 7 12 0 0, .cvtF32E2m1 32 45 7 0),
    (fR 0x0F 5 48 7 13 0 5, .cvtE2m1F32 5 48 7 5),
    (fR 0x0F 24 53 3 14 0 0, .cvtS8F32 24 53 3 0),
    (fR 0x0F 13 40 7 15 0 5, .cvtS4F32 13 40 7 5)] = true := by decide +kernel

theorem test_decode_fcmp : reads [
    (fR 0x10 0 61 56 0 0 5, .feq 0 61 56 5),
    (fR 0x10 0 45 8 1 0 5, .fne 0 45 8 5),
    (fR 0x10 0 29 24 2 0 5, .flt 0 29 24 5),
    (fR 0x10 0 13 40 3 0 5, .fle 0 13 40 5),
    (fR 0x10 0 61 56 4 0 5, .fgt 0 61 56 5),
    (fR 0x10 0 45 8 5 0 5, .fge 0 45 8 5),
    (fR 0x10 0 29 24 6 0 5, .funord 0 29 24 5),
    (fR 0x10 0 13 40 7 0 5, .ford 0 13 40 5),
    (fR 0x10 55 61 0 8 0 5, .fclass 55 61 5)] = true := by decide +kernel

theorem test_decode_ndot : reads [
    (fR 0x11 32 45 8 0 0 6, .dotS8x4 32 45 8 6),
    (fR 0x11 48 29 24 1 0 5, .dotN8x4 48 29 24 5),
    (fR 0x11 0 13 40 2 0 3, .dotS4x8 0 13 40 3),
    (fR 0x11 16 61 56 3 0 1, .dotN4x8 16 61 56 1),
    (fR 0x11 32 45 8 4 0 6, .dotE4m3x4 32 45 8 6),
    (fR 0x11 48 29 24 5 0 5, .dotE5m2x4 48 29 24 5),
    (fR 0x11 0 13 40 6 0 3, .dotE2m1x8 0 13 40 3),
    (fR 0x11 1 2 3 (8 + 2) 0 4, .scl 1 2 3 2 4),
    (fR 0x11 1 2 4 (12 + 3) 0 4, .scladd 1 2 4 3 4)] = true := by decide +kernel

theorem test_decode_xlane : reads [
    (fR 0x13 16 61 56 0 0 1, .shflIdx 16 61 56 1),
    (fR 0x13 32 45 8 1 0 6, .shflUp 32 45 8 6),
    (fR 0x13 48 29 24 2 0 5, .shflDn 48 29 24 5),
    (fR 0x13 0 13 40 3 0 3, .shflXor 0 13 40 3),
    (fR 0x13 16 61 0 4 0 1, .bcast 16 61 1),
    (fR 0x13 5 0 0 5 0 4, .voteAny 5 0 4),
    (fR 0x13 0 5 0 6 0 7, .voteAll 0 5 7),
    (fR 0x13 29 0 0 7 0 5, .voteBallot 29 0 5),
    (fR 0x13 0 13 0 8 0 6, .matchLanes 0 13 6),
    (fR 0x13 37 16 0 9 0 6, .redAddS32 37 16 6),
    (fR 0x13 56 21 0 10 0 5, .redAddF32 56 21 5),
    (fR 0x13 45 8 0 11 0 6, .redMin 45 8 6),
    (fR 0x13 48 29 0 12 0 4, .redMax 48 29 4),
    (fR 0x13 53 0 0 13 0 7, .prefixSum 53 0 7)] = true := by decide +kernel

theorem test_decode_idx : reads [
    (fR 0x14 2 15 0 0 0 3, .xset 2 15 3),
    (fR 0x14 3 0 35 1 0 5, .xadd 3 35 5),
    (0x50904320, .ldv 9 0 1 3 0),
    (fR 0x14 4 (2 * 16 + 1) 6 2 0 7, .ldv 4 2 1 6 7),
    (0x51700033, .stv 23 0 0 0 3),
    (0x50050040, .xlim 0 20 0)] = true := by decide +kernel

theorem test_decode_ld : reads [
    (fM 0x15 2 4 127 0 0 1, .ldS8 2 4 127 0 1),
    (0x5420C298, .ldN8 2 3 5 1 0),
    (fM 0x15 2 4 64 2 1 0, .ldS16 2 4 64 1 0),
    (fM 0x15 3 5 1 3 1 6, .ldN16 3 5 1 1 6),
    (0x5492BCC3, .ldB32 9 10 121 0 3),
    (0x546100D0, .ldB64 6 4 1 0 0),
    (0x54813FE0, .ldB128 8 4 127 0 0)] = true := by decide +kernel

theorem test_decode_st : reads [
    (fM 0x16 9 4 5 0 0 1, .stB8 9 4 5 0 1),
    (0x5870C0A8, .stB16 7 3 1 1 0),
    (0x58210240, .stB32 2 4 4 0 0),
    (fM 0x16 8 6 2 5 1 3, .stB64 8 6 2 1 3),
    (0x5A8100E7, .stB128 40 4 1 0 7)] = true := by decide +kernel

theorem test_decode_ord : reads [
    (0x5D528301, .ldaB32 21 10 6 0 1),
    (fM 0x17 8 6 5 1 1 0, .ldaB64 8 6 5 1 0),
    (0x5C20C128, .stlB32 2 3 2 1 0),
    (fM 0x17 8 6 7 3 0 2, .stlB64 8 6 7 0 2)] = true := by decide +kernel

theorem test_decode_atom : reads [
    (0x60518700, .atomAddS32 5 6 7 0 0),
    (fR 0x18 5 6 7 1 0 1, .atomAddF32 5 6 7 0 1),
    (fR 0x18 5 6 7 2 1 0, .atomMinS 5 6 7 1 0),
    (fR 0x18 5 6 7 3 0 0, .atomMaxS 5 6 7 0 0),
    (fR 0x18 5 6 7 4 0 0, .atomMinN 5 6 7 0 0),
    (fR 0x18 5 6 7 5 0 2, .atomMaxN 5 6 7 0 2),
    (fR 0x18 5 6 7 6 0 0, .atomAnd 5 6 7 0 0),
    (fR 0x18 5 6 7 7 0 0, .atomOr 5 6 7 0 0),
    (fR 0x18 5 6 7 8 0 0, .atomXor 5 6 7 0 0),
    (fR 0x18 5 6 7 9 0 0, .atomExch 5 6 7 0 0),
    (0x6050C7A8, .atomCas 5 3 7 1 0),
    (fR 0x18 4 6 8 11 0 0, .atomAddS64 4 6 8 0 0),
    (fR 0x18 4 6 8 12 0 0, .atomExchB64 4 6 8 0 0),
    (fR 0x18 4 6 8 13 1 5, .atomCasB64 4 6 8 1 5)] = true := by decide +kernel

theorem test_decode_lrsc : reads [
    (0x64518000, .lrB32 5 6 0 0),
    (0x64218710, .scB32 2 6 7 0 0),
    (fR 0x19 4 6 0 2 1 1, .lrB64 4 6 1 1),
    (fR 0x19 3 6 8 3 1 2, .scB64 3 6 8 1 2),
    (0x64000040, .clrres 0)] = true := by decide +kernel

theorem test_decode_fence : reads [
    (fR 0x1A 0 7 0 0 0 1, .fenceAcq 7 1),
    (0x68010010, .fenceRel 4 0),
    (0x68018020, .fenceAr 6 0)] = true := by decide +kernel

theorem test_decode_br : reads [
    (fB 0x1B 0x7FFFFE 2, .br 0x7FFFFE 2),
    (fB 0x1B 5 0, .br 5 0)] = true := by decide +kernel

theorem test_decode_call : reads [
    (0x1C * 2 ^ 26 + 60 * 2 ^ 18 + 0x7FFF * 2 ^ 3 + 4, .call 60 0x7FFF 4),
    (0x71F08000, .callr 60 8 0),
    (0x7203C000, .ret 60 0),
    (0x73008000, .jmpr 8 0)] = true := by decide +kernel

theorem test_decode_flow : reads [
    (0x74000100, .jset 1 0),
    (fR 0x1D 0 0 15 1 0 6, .jadd 15 6),
    (0x74000120, .waitRejoin 1 0),
    (0x74000832, .leave 2 2),
    (0x74000040, .exit 0),
    (0x74000050, .tail 0),
    (0x74000060, .yield 0),
    (0x74300170, .jget 3 1 0)] = true := by decide +kernel

theorem test_decode_hint : reads [
    (0x787FC000, .hintImm 0x7FC000),
    (0x79014182, .hintMod 1 1 0 0 0 0 1 4 0 0 1),
    (0x79002800, .hintMod 0 0 1 1 0 0 0 0 0 0 0),
    (fH 1 (2 ^ 16 + 2 ^ 14 * 2 + 2 ^ 10 + 2 ^ 9 + 2 ^ 4 + 3 * 2 ^ 2), .hintMod 1 2 0 0 1 1 0 0 1 3 0),
    (0x7A00000C, .hintSched 0 12),
    (0x7A000100, .hintSched 1 0)] = true := by decide +kernel

theorem test_decode_wait : reads [
    (0x7FFFC0FC, .wait 63 63 0 63),
    (0x7C003FFC, .wait 0 0 63 63),
    (0x7FFFFF04, .wait 63 63 63 1),
    (0x7C500001, .waitr 5)] = true := by decide +kernel

theorem test_decode_sys : reads [
    (0x80000028, .trap 5 0),
    (0x80000800, .eret 0 0),
    (0x80000808, .eret 1 0),
    (0x80001000, .brk 0 0),
    (0x80001800, .halt 0),
    (0x80402020, .csrr 4 4 0),
    (0x8001A840, .csrw 6 8 0)] = true := by decide +kernel

theorem test_decode_sreg : reads [
    (0x84000008, .sreg 0 1 0),
    (0x84600070, .sreg 6 14 0)] = true := by decide +kernel

theorem test_decode_qop : reads [
    (0x88645000, .qpush 6 4 2 1 0),
    (0x88530010, .qpop 5 3 0 0 0),
    (0x88533010, .qpop 5 3 1 1 0)] = true := by decide +kernel

theorem test_decode_qctl : reads [
    (0x8C630086, .qbind 6 3 8 6),
    (0x8C320060, .qbind 3 2 6 0),
    (0x8C430100, .qstat 4 3 0),
    (0x8C030200, .qflush 3 0)] = true := by decide +kernel

theorem test_decode_conv : reads [
    (0x90220200, .cset 2 8 2 0),
    (0x90200010, .csign 2 0),
    (0x90400220, .cchk 4 2 0)] = true := by decide +kernel

theorem test_decode_bar : reads [
    (0x94000000, .barL 0),
    (0x94000010, .barS 0),
    (0x94000020, .arrive 0 0),
    (0x94000120, .arrive 1 0),
    (0x94000030, .await 0 0),
    (0x94000130, .await 1 0),
    (0x94000040, .barPhase 0)] = true := by decide +kernel

theorem test_decode_mma : reads [
    (0x98188000, .mma 3 0 4 0 0 0),
    (0x98008280, .mmaBs 0 0 4 0 1 0),
    (0x9AFF7D00, .mmaZ 95 3 11 7 0 0),
    (0x98004300, .mmaZ 0 0 2 0 1 0)] = true := by decide +kernel

theorem test_decode_acc : reads [
    (0x9C280000, .accZero 5 0),
    (0x27 * 2 ^ 26 + 90 * 2 ^ 19 + 33 * 2 ^ 13 + 1 * 2 ^ 4 + 3, .accLd 90 33 3),
    (0x9C1AAC20, .accSt 3 21 24 0),
    (0x9C184830, .accRd 3 2 16 0),
    (0x9C014040, .accTab 10 0)] = true := by decide +kernel

theorem test_decode_trec : reads [
    (0xA0544000, .trecMk 5 17 0),
    (0xA0544010, .trecChk 5 17 0),
    (0xA0744720, .trecStep 7 17 7 0)] = true := by decide +kernel

theorem test_decode_copy : reads [
    (0xA4020000, .cp 8 0 0 0),
    (0xA4021400, .cp 8 1 4 0),
    (0xA5421510, .cpGather 20 8 1 5 0),
    (0xA6022010, .cpGatherR 32 8 0 0 0),
    (fR 0x29 20 8 (16 + 5) 2 0 1, .cpScatter 20 8 1 5 1),
    (0xA4020030, .cpFill 8 0 0 0),
    (0xA4020040, .cpFlush 8 0 0 0),
    (0xA4020050, .cpPref 8 0 0 0)] = true := by decide +kernel

theorem test_decode_cla : reads [
    (0xA8820000, .claEval 8 2 0),
    (0xA8820010, .claFeed 8 2 0),
    (0xA8520020, .claVote 5 2 0)] = true := by decide +kernel

theorem test_decode_clactl : reads [
    (0xAC028100, .claLd 10 1 0),
    (0xAC018010, .claSt 6 0 0),
    (0xAC030020, .claTab 12 0),
    (0xAC00C030, .claSeed 3 0),
    (0xAC008040, .claCfg 2 0),
    (0xAC600050, .claStat 6 0)] = true := by decide +kernel

theorem test_decode_redz : reads [
    (0xB0114010, .redz 1 5 1 0),
    (fR 0x2C 3 5 0 7 0 2, .redz 3 5 7 2),
    (0xB061CD80, .rdz 6 7 3 1 0)] = true := by decide +kernel

theorem test_decode_hall : reads [
    (0xB4630005, .hst 6 3 5),
    (0xB4835010, .hpost 8 3 2 1 0),
    (0xB4C30020, .hqtake 12 3 0 0 0),
    (0xB4530030, .hqfree 5 3 0),
    (0xB4430040, .hqstat 4 3 0)] = true := by decide +kernel

theorem test_decode_nest : reads [
    (0xB8630D04, .nbMax 6 12 13 4),
    (0xB800C410, .nbMaxP 3 4 0),
    (0xB8518720, .nGrow 5 6 7 0),
    (0xB8120C30, .nLaunch 1 8 12 0),
    (0xB8008040, .nSignal 2 0),
    (0xB8E30254, .nInfo 14 12 2 4)] = true := by decide +kernel

theorem test_decode_pfc : reads [
    (0x2F * 2 ^ 26 + 2 ^ 23 + 6 * 2 ^ 14 + 8 * 2 ^ 8 + 1, .pfCode 1 6 8 1),
    (0xBC218810, .pinCode 0 2 6 8 0),
    (0xBCA18810, .pinCode 1 2 6 8 0),
    (0x2F * 2 ^ 26 + 6 * 2 ^ 14 + 8 * 2 ^ 8 + 2 * 2 ^ 4, .unpinCode 0 6 8 0)] = true := by decide +kernel

theorem test_decode_ring : reads [
    (0xC0823000, .ingClaim 8 2 1 1 0),
    (0xC0920010, .ingRel 9 2 0),
    (0xC0420020, .ingStat 4 2 0),
    (0xC0420030, .ingGap 4 2 0),
    (0xC1820040, .ingLoss 24 2 0)] = true := by decide +kernel

theorem test_decode_coll : reads [
    (0xC4855000, .collSend 8 5 2 1 0),
    (0xC4C53010, .collRecv 12 5 1 1 0),
    (0xC4850020, .collRed 8 5 0),
    (0xC4350030, .collWait 3 5 0)] = true := by decide +kernel

theorem test_decode_priv : reads [
    (0xC8018000, .ctxSave 6 0),
    (0xC8218010, .ctxLoad 2 6 0),
    (0xC8018820, .tlbInv 6 8 0),
    (0xC8400130, .partQ 4 1 0)] = true := by decide +kernel

theorem test_decode_sel : reads [
    (0xCC404240, .sel 4 1 2 2 0 0),
    (0x33 * 2 ^ 26 + 4 * 2 ^ 20 + 1 * 2 ^ 14 + 2 * 2 ^ 8 + 7 * 2 ^ 5 + 2 ^ 3 + 6, .sel 4 1 2 7 1 6)] = true := by decide +kernel

theorem test_decode_a64 : reads [
    (fR 0x34 4 6 8 0 1 2, .add64 4 6 8 1 2),
    (fR 0x34 4 6 8 1 0 0, .sub64 4 6 8 0 0),
    (0xD0418220, .lea 4 6 2 0 0),
    (0xD3310630, .cmp64 6 3 4 6 0)] = true := by decide +kernel

theorem test_decode_spec_lines : reads [
    (0x04404200, .add 4 1 2 0 0),
    (0x045042F0, .mulhiS 5 1 2 0 0),
    (0x04504208, .add 5 1 2 1 0),
    (0x0C30FFF8, .addi 3 3 0x7FF 0),
    (0x1C21C228, .shi 2 7 2 5 0),
    (0x205FFFE8, .movi 5 0x1FFFD 0),
    (0x2420C470, .geS 2 3 4 0),
    (0x2B100020, .ltNImm 1 0 4 0),
    (0x2C304200, .pand 3 1 2 0),
    (0x30208101, .fadd 2 2 1 0 1),
    (0x30404230, .fma 4 1 2 0 0),
    (0x30504258, .fnma 5 1 2 1 0),
    (0x306040A0, .fabs 6 1 0 0),
    (0x344042B0, .hfma 4 1 2 1 0),
    (0x38504000, .rcp 5 1 0 0),
    (0x38504280, .fdiv 5 1 2 0 0),
    (0x3C70C2A0, .cvtE4m3F32 7 3 2 0),
    (0x40204320, .flt 2 1 3 0),
    (0x44404240, .dotE4m3x4 4 1 2 0),
    (0x44504290, .scl 5 1 2 1 0),
    (0x445042C0, .scladd 5 1 2 0 0),
    (0x48404200, .ftwosum 4 1 2 0),
    (0x48420020, .faddPair 4 8 0),
    (0x4C404200, .shflIdx 4 1 2 0),
    (0x4C204050, .voteAny 2 1 0),
    (0x4C704070, .voteBallot 7 1 0),
    (0x4C5040A0, .redAddF32 5 1 0),
    (0x4C7040D0, .prefixSum 7 1 0)] = true := by decide +kernel

/-- R52: words that are no instruction. -/
theorem test_decode_refused : refuses [
    (0, .unusedMajor), (0xFFFFFFFF, .unusedMajor), (0x35 * 2 ^ 26, .unusedMajor), (0x3E * 2 ^ 26, .unusedMajor),
    (fR 0x0B 1 1 1 6 0 0, .unusedMember), (fR 0x13 1 1 1 14 0 0, .unusedMember), (fM 0x16 2 4 0 1 0 0, .unusedMember),
    (fM 0x15 2 4 0 7 0 0, .unusedMember), (fH 3 0, .unusedMember), (fI 0x20 0 0 (6 * 256) 0, .unusedMember),
    (fR 0x0B 1 1 1 0 1 0, .reservedBits), (fR 0x09 9 1 1 0 0 0, .reservedBits), (fR 0x19 1 0 0 4 0 0, .reservedBits),
    (fR 0x0F 1 1 1 0 0 0, .reservedBits), (fR 0x0F 1 1 2 4 0 0, .reservedBits), (0x9C000040 + 2 ^ 19, .reservedBits),
    (0x26 * 2 ^ 26 + 96 * 2 ^ 19, .illFormed .tile), (fR 0x14 4 (3 * 16) 0 2 0 0, .illFormed .indexWidth),
    (fI 0x21 2 0 7 0, .illFormed .specialRegister)] = true := by decide +kernel

/-! ## Well-formedness: an ill-formed term for each check -/

theorem test_wf_predicateWithoutNb : (Instr.qpush 1 2 3 0 0).illFormed = some .predicateWithoutNb := rfl
theorem test_wf_tile : (Instr.accZero 96 0).illFormed = some .tile := rfl
theorem test_wf_completionWithoutEntry : (Instr.cp 8 0 4 0).illFormed = some .completionWithoutEntry := rfl
theorem test_wf_indexWidth : (Instr.ldv 4 3 0 0 0).illFormed = some .indexWidth := rfl
theorem test_wf_endpointClass : (Instr.qbind 1 2 9 0).illFormed = some .endpointClass := rfl
theorem test_wf_clusterStart : (Instr.cset 1 3 1 0).illFormed = some .clusterStart := rfl
theorem test_wf_specialRegister : (Instr.sreg 1 7 0).illFormed = some .specialRegister := rfl
theorem test_wf_controlRegister : (Instr.csrw 1 4 0).illFormed = some .controlRegister := rfl
theorem test_wf_selector : (Instr.nInfo 1 2 5 0).illFormed = some .selector := rfl
theorem test_wf_accepts : (Instr.accZero 95 0).wf = true ∧ (Instr.sreg 1 6 0).wf = true ∧ Instr.coldBoot.wf = true :=
  ⟨rfl, rfl, rfl⟩

/-! ## States for the tests -/

/-- One landing of one flight on core 0, about to issue: all eight threads at 0x1000, 64 registers each. -/
def bench : State := { State.reset.placeWord 0 with cur := some 0 }

/-- A partition with core 0 and two pages of stack 0. -/
def partition0 : Partition :=
  { cores := [0, 1], keys := [5], pages := [(16, 16)], root := 0x10000, tabKey := 5, saveBase := 0, saveLen := 0, fair := 2048,
    resetting := false, halted := false, debugKey := 0, token := none, nonce := [], nextInst := 0, notices := 0 }

/-- The machine with that partition. -/
def owned : State := { bench with parts := [(0, partition0)] }

/-- Change every thread. -/
def eachThread (f : Thread → Thread) (s : State) : State := { s with threads := s.threads.map (fun p => (p.1, f p.2)) }
/-- Change the landing. -/
def onLanding (f : Landing → Landing) (s : State) : State := { s with landings := tmod s.landings 0 f }
/-- Change the tread. -/
def onTread (f : Tread → Tread) (s : State) : State := s.modTread 1 f
/-- Change the flight. -/
def onFlight (f : Flight → Flight) (s : State) : State := s.modFlight 0 f
/-- Give registers of every thread values. -/
def withRegs (rs : Tab Word) (s : State) : State := eachThread (fun t => { t with regs := rs }) s
/-- A nest with a handler. -/
def handled (s : State) : State := onLanding (fun l => { l with handler := some 0x2000 }) s
/-- Threads in handler mode. -/
def inHandler (s : State) : State := eachThread (fun t => { t with hmode := true, fpc := 0x1000, fnpc := 0x1004 }) s
/-- p1 is set in lane 0 alone. -/
def lane0 (s : State) : State := s.modThread 0 0 (fun t => { t with preds := 2 })

/-- Tile 16 resident under key id 5. -/
def resident16 : State :=
  { owned with mem := { owned.mem with gallery := [(16, { key := 5, dirty := false, poisoned := false, uncorr := false, prio := 0, used := 0, data := [] })] } }

/-- Lanes 4 to 7 elsewhere: the group is lanes 0 to 3. -/
def halved (s : State) : State := [4, 5, 6, 7].foldl (fun s l => s.modThread 0 l (fun t => { t with pc := 0x3000 })) s

/-- Pages of partition 0 at virtual address 0x40000: tile 16 under key id 5. -/
def page0 : PageMap :=
  { va := 0x40000, size := 65536, pa := 0x10000, key := 5, host := false, x := true, w := true, r := true, part := 0 }
def lease0 : LeaseRange := { base := 0x40000, len := 65536, r := true, w := true, pages := [page0] }

/-- A tread with a lease on it, tile 16 resident. -/
def leasing (s : State) : State := onTread (fun t => { t with leases := [lease0] }) { s with mem := { s.mem with gallery := resident16.mem.gallery } }

/-- A key id in rotation. -/
def key0 : KeyEntry := { state := .rotating, slots := (1, 2), cur := 1, gen := 3, part := some 0, clearing := true }
/-- A tile's metadata under key id 5. -/
def meta0 (g : BitVec 16) : TileMeta := { TileMeta.fresh with key := 5, gen := g, unwritten := false }

/-! ## The hypotheses of the statements are met -/

/-- Every thread of the lanes passes a test. -/
def lanesAll (s : State) (c : Ctx) (ls : List Nat) (p : Nat → Thread → Bool) : Bool := ls.all (fun l => (s.thread? c.fk l).all (p l))

theorem lanesAll_iff (s : State) (c : Ctx) (ls : List Nat) (p : Nat → Thread → Bool) :
    lanesAll s c ls p = true ↔ ∀ l ∈ ls, ∀ th, s.thread? c.fk l = some th → p l th = true := by
  simp [lanesAll, List.all_eq_true, Option.all_eq_true]

/-- The group issues, may use its registers, has a guard-true lane, and `pre` holds. -/
def meets (s : State) (h : HintUse) (g : BitVec 3) (ps : List (BitVec 3)) (us : List RegUse) (pre : Ctx → List Nat → Bool) : Bool :=
  match s.ctx? with
  | none => false
  | some c => hintsOk c h && !awaitsPred s c.fk (g.toNat :: ps.map (·.toNat)) c.lanes &&
      lanesAll s c (guardLanes s c g) (fun _ th => (regTrap c.ld.regs th us).isNone && !th.awaits (allRegs us)) &&
      !(guardLanes s c g).isEmpty && pre c (guardLanes s c g)

/-- The hypotheses of Computes, Effects, Leads, Traps and Placing, with what a statement asks besides. -/
abbrev Meets (s : State) (h : HintUse) (g : BitVec 3) (ps : List (BitVec 3)) (us : List RegUse) (pre : Ctx → List Nat → Bool) : Prop :=
  ∃ c ls, Issues s c h g ps ∧ Usable s c g us ∧ guardLanes s c g = ls ∧ ls ≠ [] ∧ pre c ls = true

theorem met {s : State} {h : HintUse} {g : BitVec 3} {ps : List (BitVec 3)} {us : List RegUse} {pre : Ctx → List Nat → Bool}
    (hm : meets s h g ps us pre = true) : Meets s h g ps us pre := by
  unfold meets at hm
  split at hm
  · cases hm
  · next c hc =>
    simp only [Bool.and_eq_true, Bool.not_eq_true', lanesAll_iff, Option.isNone_iff_eq_none, List.isEmpty_eq_false_iff] at hm
    obtain ⟨⟨⟨⟨h1, h2⟩, h3⟩, h4⟩, h5⟩ := hm
    exact ⟨c, _, ⟨hc, h1, h2⟩, h3, rfl, h4, h5⟩

/-- The executing group, where a statement asks for no more. -/
def grouped (s : State) (pre : Ctx → Bool) : Bool := s.ctx?.any pre

theorem group {s : State} {pre : Ctx → Bool} (h : grouped s pre = true) : ∃ c, s.ctx? = some c ∧ pre c = true := by
  simpa [grouped, Option.any_eq_true] using h

theorem witness_OneSourceResult : Meets bench HintUse.none 0 [] [one 1, one 2] (fun _ _ => true) := met (by decide +kernel)
theorem witness_TwoSources : Meets bench HintUse.none 0 [] [one 1, one 2, pair 4] (fun _ _ => true) := met (by decide +kernel)
theorem witness_ImmediateResult : Meets bench (HintUse.immediate true) 0 [] [one 1, one 2] (fun _ _ => true) := met (by decide +kernel)
theorem witness_CompareResult : Meets (lane0 bench) (HintUse.immediate true) 1 [] [one 1, one 2] (fun _ _ => true) :=
  met (by decide +kernel)
theorem witness_Predicates : Meets bench HintUse.none 0 [1, 2, 3, 4, 5, 6, 7] [one 1, one 2, one 3] (fun _ _ => true) :=
  met (by decide +kernel)
theorem witness_PairResult : Meets bench HintUse.none 0 [] [pair 2, pair 4, pair 62] (fun _ _ => true) := met (by decide +kernel)
theorem witness_IndexRegisters : Meets bench HintUse.none 0 [] [one 1] (fun _ _ => true) := met (by decide +kernel)

/-- `ldv.b64 v4, x0, #6` reads registers 6 and 7. -/
theorem witness_IndexRegisters_form : ∃ c, Issues bench c HintUse.none 0 [] ∧ FormOk bench c 0 4 1 0 6 := by
  obtain ⟨c, ls, hi, -, hg, -, h⟩ : Meets bench HintUse.none 0 [] [] (fun c ls => lanesAll bench c ls (fun _ th => decide (
    let n := bits (un (th.xreg 0)) 0 8 + 6
    let lim := bits (un (th.xreg 0)) 8 8
    let rs := (List.range 2).map (fun i => 4 + i) ++ (List.range 2).map (fun i => n + i)
    4 % 2 = 0 ∧ 4 + 2 ≤ c.ld.regs ∧ n % 2 = 0 ∧ n + 2 - 1 < min (if lim = 0 then 256 else lim) c.ld.regs ∧
    (∀ r ∈ rs, th.leased r = false) ∧ th.awaits rs = false))) := met (by decide +kernel)
  refine ⟨c, hi, fun l hl th ht => ?_⟩
  exact of_decide_eq_true ((lanesAll_iff _ _ _ _).mp h l (hg ▸ hl) th ht)

theorem witness_FloatResult : Meets bench HintUse.rounding 0 [] [one 1, one 2, one 3] (fun _ _ => true) := met (by decide +kernel)
theorem witness_HalfResult : Meets bench HintUse.rounding 0 [] [one 1, one 2, one 3] (fun _ _ => true) := met (by decide +kernel)
theorem witness_ConvertResult : Meets bench HintUse.convert 0 [] [one 1, one 2] (fun _ _ => true) := met (by decide +kernel)
theorem witness_FloatCompareResult : Meets bench HintUse.rounding 0 [] [one 1, one 2] (fun _ _ => true) := met (by decide +kernel)
theorem witness_DotResult : Meets bench HintUse.rounding 0 [] [one 1, one 2, pair 4] (fun _ _ => true) := met (by decide +kernel)
theorem witness_CompensatedResult : Meets bench HintUse.compensated 0 [] [pair 4, one 1, one 2] (fun _ _ => true) :=
  met (by decide +kernel)

/-! ### Flow, traps -/

/-- R53: a target that a transfer may take. -/
def mayGoTo (t : DWord) : Bool := decide (t.toNat % 4 = 0 ∧ (t.truncate 57).signExtend 64 = t)

/-- No thread of the lanes is in handler mode, and there is a handler. -/
def trappable (s : State) (c : Ctx) (ls : List Nat) : Bool := c.ld.handler.isSome && lanesAll s c ls (fun _ th => !th.hmode)

/-- All threads at the last word of the lower half of the address space. -/
def atEdge : State := handled (eachThread (fun t => { t with pc := 0x00FFFFFFFFFFFFFC }) bench)

theorem witness_Branches_br : Meets bench HintUse.none 0 [] [] (fun c _ => mayGoTo (c.pc + dword (4 * (1 : BitVec 23).toInt))) :=
  met (by decide +kernel)
theorem witness_Branches_callr : Meets (withRegs [(8, 0x2000)] bench) HintUse.none 0 [] [pair 60, pair 8]
    (fun c ls => lanesAll (withRegs [(8, 0x2000)] bench) c ls (fun _ th => mayGoTo (th.pair 8))) := met (by decide +kernel)
theorem witness_Branches_misaligned : Meets atEdge HintUse.none 0 [] [pair 60] (fun c ls => trappable atEdge c ls &&
    !mayGoTo (c.pc + dword (4 * (1 : BitVec 23).toInt))) := met (by decide +kernel)
theorem witness_Branches_misalignedPair : Meets (handled (withRegs [(8, 2)] bench)) HintUse.none 0 [] [pair 60, pair 8]
    (fun c ls => trappable (handled (withRegs [(8, 2)] bench)) c ls &&
      lanesAll (handled (withRegs [(8, 2)] bench)) c ls (fun _ th => !mayGoTo (th.pair 8))) := met (by decide +kernel)
theorem witness_RejoinRegisters : Meets (lane0 bench) HintUse.none 1 [] [one 3] (fun _ _ => true) := met (by decide +kernel)

/-- A flight with a rejoin mask that may be released, and its next ones that may not. -/
def rejoining : State := onFlight (fun f => ((f.setArrived 3 0xFF).setExpected 3 0x0F).setArrived 4 1 |>.setExpected 4 3) bench

theorem witness_RejoinRegisters_release : ((tget rejoining.flights 0).any (fun f =>
    decide (f.arrivedAt 3 ≠ 0 ∧ f.expected 3 &&& ~~~(f.arrivedAt 3) = 0) &&
    decide (¬ (f.arrivedAt 4 ≠ 0 ∧ f.expected 4 &&& ~~~(f.arrivedAt 4) = 0)))) = true := by decide +kernel
theorem witness_ExitAndTail : Meets (lane0 bench) HintUse.none 1 [] [] (fun _ _ => true) := met (by decide +kernel)
/-- Lanes 1 and 2 wait at rejoin register 3 for lane 0, and lane 1 at register 4 for lane 5 too; lane 0 leaves. -/
def parting : State :=
  ([1, 2].foldl (fun s l => s.modThread 0 l (fun t => { t with cond := .parked })) bench).modFlight 0 (fun f =>
    { f with expect := [(3, 7), (4, 0x23)], arrived := [(3, 6), (4, 2)] })

theorem witness_ExitAndTail_leaves : (tget parting.flights 0).any (fun f =>
    let left := fun (j : Nat) => f.expected j &&& ~~~(laneMask [0])
    f.arrivedAt 3 != 0 && left 3 &&& ~~~(f.arrivedAt 3) == 0 && f.arrivedAt 4 != 0 && left 4 &&& ~~~(f.arrivedAt 4) != 0) = true ∧
    ((partyLeaves false 0 [0] parting).thread? 0 0).any (fun t => t.cond == .exited) = true ∧
    ((partyLeaves false 0 [0] parting).thread? 0 2).any (fun t => t.cond == .running) = true := by decide +kernel

/-- A landing that tail has emptied. -/
def emptied : State := eachThread (fun t => { t with cond := .exited }) (onLanding (fun l => { l with tailed := true }) bench)

theorem witness_ExitAndTail_frees : (tget emptied.landings 0).any (fun l => l.tailed && !l.freed && decide (emptied.liveThreads 0 = []) &&
    (tget emptied.treads l.tid).any (fun t => t.stage == .running) && (!emptied.owes 0 || decide (emptied.tracked l.core < 64))) = true ∧
    (tget bench.landings 0).any (fun l => !l.tailed) = true := by decide +kernel
theorem witness_YieldPassesSlot : Meets bench HintUse.none 0 [] [] (fun _ _ => true) := met (by decide +kernel)
theorem witness_YieldPassesSlot_none : ∃ c, bench.ctx? = some c ∧ (hintsOk c HintUse.none && (guardLanes bench c 3).isEmpty &&
    !awaitsPred bench c.fk [3] c.lanes) = true := group (by decide +kernel)

/-- The flight has yielded; lanes 4 to 7 are another ready group, or there is none. -/
def yielded (two : Bool) : State := onFlight (fun f => { f with gives := .yield }) (if two then halved bench else bench)

theorem witness_YieldPassesSlot_due : ((yielded true).resident? 0).any (fun x => x.fl.gives == .yield &&
      ((yielded true).leadLane 0 x.fl).any (fun l => !((yielded true).holderLanes x).contains l)) = true ∧
    ((yielded false).resident? 0).any (fun x => x.fl.gives == .yield &&
      ((yielded false).leadLane 0 x.fl).all (fun l => ((yielded false).holderLanes x).contains l)) = true := by decide +kernel
theorem witness_HintPending : ∃ c, bench.ctx? = some c ∧ (c.imm.isNone && c.mods.isNone && c.sched.isNone) = true :=
  group (by decide +kernel)

/-- A slot that has just passed to lane 0's group. -/
def slot0 : SlotState := { lead := 0, gives := .no, timer := 0, tally := 0 }

/-- A group with all three hints pending. -/
def hinted (m : ModHint) (s : State) : State :=
  onFlight (fun f => { f with hint := some { lanes := lanes8, start := 0x0FF4, imm := some 1, mods := some m, sched := some (false, 1), back := slot0 } }) s

/-- A hint.mod without a valid bit. -/
def noMod : ModHint :=
  { ov := false, order := 0, rv := false, rm := 0, sv := false, sat := false, scv := false, scope := 0, cv := false, cache := 0, nr := false }

theorem witness_HintPending_second : ∃ c, (handled (hinted noMod bench)).ctx? = some c ∧ (c.imm.isSome && c.mods.isSome &&
    c.sched.isSome && trappable (handled (hinted noMod bench)) c c.lanes) = true := group (by decide +kernel)

/-- Every field of a pending hint.mod is valid, its rounding mode not rne; the hint.imm that pends too asks for an immediate of 8 bits. -/
def allMod : ModHint := { noMod with ov := true, rv := true, rm := 1, sv := true, scv := true, cv := true, nr := true }

theorem witness_HintPending_refused : ∃ c, (handled (hinted allMod bench)).ctx? = some c ∧ (c.imm.isSome && c.mods == some allMod &&
    trappable (handled (hinted allMod bench)) c c.lanes && decide (256 ≤ (256 : BitVec 11).toNat)) = true := group (by decide +kernel)

/-- The flight of the bench with pending hints, while it does not issue, and while it does. -/
theorem witness_HintPending_ends : (tget (hinted noMod bench).flights 0).any (fun f => f.hint.any (fun h =>
      [3].all h.lanes.contains && h.lanes.all (fun l => decide (l < 8)))) = true ∧
    ({ hinted noMod bench with cur := none } : State).cur ≠ some 0 ∧ (hinted noMod bench).cur = some 0 := by decide +kernel
theorem witness_FetchEvents : ∃ c, (handled bench).ctx? = some c ∧ trappable (handled bench) c c.lanes = true :=
  group (by decide +kernel)
theorem witness_ShuffleAndVote : Meets (lane0 bench) HintUse.none 1 [2] [one 1, one 2, one 3] (fun _ _ => true) :=
  met (by decide +kernel)
theorem witness_ReductionResult : Meets bench HintUse.none 0 [] [one 1, one 2] (fun _ _ => true) := met (by decide +kernel)
theorem witness_SpecialRegisters : Meets bench HintUse.none 0 [] [pair 4, one 5] (fun _ _ => sregKnown 0x00E && sregKnown 0x021 &&
    sregWide 0x00E && !sregWide 0x021) := met (by decide +kernel)
theorem witness_ControlRegisters : Meets (inHandler bench) HintUse.none 0 [] [one 6] (fun c ls => csrKnown 8 &&
    lanesAll (inHandler bench) c ls (fun _ th => th.hmode)) := met (by decide +kernel)
theorem witness_ControlRegisters_trap : Meets (handled bench) HintUse.none 0 [] [] (trappable (handled bench)) := met (by decide +kernel)
theorem witness_ReturnFromTrap : Meets (inHandler bench) HintUse.none 0 [] [] (fun c ls => lanesAll (inHandler bench) c ls
    (fun _ th => th.hmode && mayGoTo th.fpc && mayGoTo th.fnpc)) := met (by decide +kernel)
theorem witness_ReturnFromTrap_trap : Meets (handled bench) HintUse.none 0 [] [] (trappable (handled bench)) := met (by decide +kernel)
theorem witness_TrapsAndEndings : Meets (handled bench) HintUse.none 0 [] [] (trappable (handled bench)) := met (by decide +kernel)
theorem witness_TrapsAndEndings_ending : Meets bench HintUse.none 0 [] [] (fun c ls => c.ld.handler.isNone &&
    lanesAll bench c ls (fun _ th => !th.hmode)) := met (by decide +kernel)

/-- Threads in handler mode whose saved pcs are no lawful targets. -/
def strayed : State := eachThread (fun t => { t with fpc := 2, fnpc := 6 }) (inHandler bench)

theorem witness_ReturnFromTrap_unlawful : Meets strayed HintUse.none 0 [] [] (fun c ls => lanesAll strayed c ls
    (fun _ th => th.hmode && !mayGoTo th.fpc && !mayGoTo th.fnpc)) := met (by decide +kernel)
theorem witness_TrapsAndEndings_nested : Meets (inHandler bench) HintUse.none 0 [] [] (fun c ls => lanesAll (inHandler bench) c ls
    (fun _ th => th.hmode && th.cause.toNat != 0x41)) := met (by decide +kernel)

/-- A landing with 32 registers. -/
def narrow : State := handled (onLanding (fun l => { l with regs := 32 }) bench)

/-- Register 30 of it is leased too. -/
def leased30 : State := eachThread (fun t => { t with leases := [{ reg := 30, by_ := .op .cp 0 }] }) narrow

/-- v40 lies beyond the 32 registers, the pair v3 is misaligned, the quad of 28 registers at v28 lies inside. -/
theorem witness_IllegalRegister : Meets narrow HintUse.none 0 [] [] (fun c ls => trappable narrow c ls &&
    decide (c.ld.regs ≤ (one 40).r) && decide ((pair 3).r % (pair 3).n ≠ 0) && decide ((one 1).r % 1 = 0 ∧ (one 1).r + 1 ≤ c.ld.regs) &&
    lanesAll narrow c ls (fun _ th => !th.awaits (allRegs [one 40, one 1, pair 3]))) := met (by decide +kernel)

/-- A landing of 30 registers: the quad at v28 begins inside and ends beyond. -/
theorem witness_IllegalRegister_beyond : Meets (onLanding (fun l => { l with regs := 30 }) narrow) HintUse.none 0 [] [] (fun c ls =>
    trappable (onLanding (fun l => { l with regs := 30 }) narrow) c ls &&
    decide ((quad 28).r % (quad 28).n = 0 ∧ (quad 28).r < c.ld.regs ∧ c.ld.regs < (quad 28).r + (quad 28).n)) := met (by decide +kernel)
theorem witness_IllegalRegister_leased : Meets leased30 HintUse.none 0 [] [] (fun c ls => trappable leased30 c ls &&
    decide ((quad 28).r % (quad 28).n = 0 ∧ (quad 28).r + (quad 28).n ≤ c.ld.regs) &&
    lanesAll leased30 c ls (fun _ th => !th.awaits (allRegs [quad 28]) && ([28, 29, 30, 31].find? (fun r =>
      th.leases.any (fun x => x.reg == r)) == some 30))) := met (by decide +kernel)

/-- Index register 0 at index 2 with limit 8, the landing of 32 registers with a handler; register 5 leased or not. -/
def indexed (l : Bool) : State :=
  eachThread (fun t => { t with x0 := 0x0802, leases := if l then [{ reg := 5, by_ := .op .cp 0 }] else [] }) narrow

/-- What the traps of `ldv` of width `w` from v`d` by index register 0 and offset `o` ask: the place of the formed number. -/
def indexHas (s : State) (d w o : Nat) (p : Ctx → Nat → Nat → Bool) : Ctx → List Nat → Bool := fun c ls => trappable s c ls &&
  lanesAll s c ls (fun _ th =>
    let n := bits (un (th.xreg 0)) 0 8 + o
    let rs := (List.range w).map (fun j => d + j) ++ (List.range w).map (fun j => n + j)
    !th.awaits rs && p c n (min (if bits (un (th.xreg 0)) 8 8 = 0 then 256 else bits (un (th.xreg 0)) 8 8) c.ld.regs))

theorem witness_IndexRegisters_direct : Meets (indexed false) HintUse.none 0 [] [] (indexHas (indexed false) 3 2 0 (fun c _ _ =>
    decide (3 % 2 ≠ 0) && decide (c.ld.regs < 40 + 1))) := met (by decide +kernel)
theorem witness_IndexRegisters_misaligned : Meets (indexed false) HintUse.none 0 [] [] (indexHas (indexed false) 4 2 1 (fun c n _ =>
    decide (4 % 2 = 0 ∧ 4 + 2 ≤ c.ld.regs) && decide (n % 2 ≠ 0))) := met (by decide +kernel)
theorem witness_IndexRegisters_bounds : Meets (indexed false) HintUse.none 0 [] [] (indexHas (indexed false) 4 2 6 (fun c n lim =>
    decide (4 % 2 = 0 ∧ 4 + 2 ≤ c.ld.regs) && decide (n % 2 = 0 ∧ lim ≤ n + 2 - 1))) := met (by decide +kernel)
theorem witness_IndexRegisters_leased : Meets (indexed true) HintUse.none 0 [] [] (indexHas (indexed true) 4 2 0 (fun c n lim =>
    decide (4 % 2 = 0 ∧ 4 + 2 ≤ c.ld.regs) && decide (n % 2 = 0 ∧ n + 2 - 1 < lim) &&
    (indexed true).threads.all (fun t => t.2.leases.any (fun x => x.reg == 5)))) := met (by decide +kernel)

/-! ### Memory -/

/-- The check passes. -/
def passed : Checked → Bool
  | .ok _ => true
  | _ => false

/-- v4 names hall byte 0x40 of core 0's slice. -/
def atHall : State := withRegs [(4, 0x40)] owned

theorem witness_MemoryIssue : Meets atHall HintUse.memory 0 [] [dataUse 2 4, baseUse 1 4] (fun c ls => !c.nr && !c.fl.full .ld &&
    !c.fl.full .st && lanesAll atHall c ls (fun _ th => passed (checkAt 1 4 0 4 false c atHall th) &&
      passed (checkAt 1 4 0 16 true c atHall th))) := met (by decide +kernel)

/-- The same under a hint.mod with nr. -/
def noReturn : State :=
  onFlight (fun f => { f with hint := some { lanes := lanes8, start := 0x0FFC, imm := none, mods := some { noMod with nr := true }, sched := none, back := slot0 } }) (handled atHall)

theorem witness_MemoryIssue_noReturn : Meets noReturn HintUse.atomic 0 [] [one 2, baseUse 1 4, one 7] (fun c ls => c.nr &&
    !c.fl.full .st && lanesAll noReturn c ls (fun _ th => passed (checkAt 1 4 0 4 true c noReturn th))) := met (by decide +kernel)
theorem witness_MemoryIssue_illegal : ∃ c, noReturn.ctx? = some c ∧ (c.nr && trappable noReturn c c.lanes) = true :=
  group (by decide +kernel)
theorem witness_AccessEntered : (bench.thread? 0 3).isSome = true := by decide +kernel

/-- v4 names byte 1. -/
def odd : State := handled (withRegs [(4, 1)] owned)

theorem witness_MisalignedAccess_load : Meets odd HintUse.memory 0 [] [dataUse 2 2, baseUse 0 4] (fun c ls => trappable odd c ls &&
    lanesAll odd c ls (fun _ th => decide (eaGlobal th 4 0 = 1))) := met (by decide +kernel)
theorem witness_MisalignedAccess_store : Meets odd HintUse.memory 0 [] [dataUse 4 16, baseUse 1 4] (fun c ls => trappable odd c ls &&
    lanesAll odd c ls (fun _ th => decide (eaHall th 4 0 = 1))) := met (by decide +kernel)

theorem witness_MisalignedAccess_atomic : Meets odd HintUse.atomic 0 [] [one 2, baseUse 0 4, one 7] (fun c ls => trappable odd c ls &&
    !c.nr && lanesAll odd c ls (fun _ th => decide (eaGlobal th 4 0 = 1))) := met (by decide +kernel)
theorem witness_MisalignedAccess_reserve : Meets odd HintUse.none 0 [] [dataUse 2 4, baseUse 1 4, one 7] (fun c ls => trappable odd c ls &&
    lanesAll odd c ls (fun _ th => decide (eaHall th 4 0 = 1))) := met (by decide +kernel)

/-- Each thread has its own byte address: no two alike, none a multiple of 4. -/
def scattered : State := { odd with threads := odd.threads.map (fun p => (p.1, { p.2 with regs := [(4, BitVec.ofNat 32 (8 * p.1 + 2))] })) }

theorem witness_MisalignedAccess_each : Meets scattered HintUse.memory 0 [] [dataUse 2 4, baseUse 0 4] (fun c ls => trappable scattered c ls &&
    lanesAll scattered c ls (fun l th => decide ((accessAddr 0 4 0 th).toNat = 8 * l + 2) && decide ((accessAddr 0 4 0 th).toNat % 4 ≠ 0))) :=
  met (by decide +kernel)

/-- v4 and v5 name an address beyond every lease of the tread, which has one. -/
def unleased : State := handled (withRegs [(4, 0x80000)] (leasing owned))
/-- They name tile 16, which the lease maps, with this entry. -/
def tiled (e : GalEntry → GalEntry) (s : State) : State := { s with mem := { s.mem with gallery := s.mem.gallery.map (fun p => (p.1, e p.2)) } }
def reaching : State := handled (withRegs [(4, 0x40000)] (leasing owned))

/-- Lane addresses of `ldB32 v2, [v4:v5]`, and what the tread reaches there. -/
def reachesTile (s : State) (w : Bool) (q : GalEntry → Bool) : Ctx → List Nat → Bool := fun c ls => trappable s c ls &&
  lanesAll s c ls (fun _ th => decide ((accessAddr 0 4 0 th).toNat % 4 = 0) && isCanon (accessAddr 0 4 0 th) &&
    (leaseFor c.tr.leases ((accessAddr 0 4 0 th).toNat % 2 ^ 57) 4 (!w) w).any (fun l =>
      (leasePage l ((accessAddr 0 4 0 th).toNat % 2 ^ 57)).any (fun p => !p.host &&
        (s.mem.resident? (tileOf (p.at_ ((accessAddr 0 4 0 th).toNat % 2 ^ 57)).2) p.key).any q)))

theorem witness_MisalignedAccess_unleased : Meets unleased HintUse.memory 0 [] [dataUse 2 4, baseUse 0 4] (fun c ls => trappable unleased c ls &&
    lanesAll unleased c ls (fun _ th => decide ((accessAddr 0 4 0 th).toNat % 4 = 0) && c.tr.leases.all (fun l =>
      !decide (l.base ≤ (accessAddr 0 4 0 th).toNat % 2 ^ 57 ∧ (accessAddr 0 4 0 th).toNat % 2 ^ 57 + 4 ≤ l.base + l.len)))) :=
  met (by decide +kernel)
theorem witness_MisalignedAccess_poisoned : Meets (tiled (fun e => { e with poisoned := true }) reaching) HintUse.memory 0 []
    [dataUse 2 4, baseUse 0 4] (reachesTile (tiled (fun e => { e with poisoned := true }) reaching) false (fun e => !e.uncorr && e.poisoned)) :=
  met (by decide +kernel)
theorem witness_MisalignedAccess_lost : Meets (lane0 (tiled (fun e => { e with uncorr := true }) reaching)) HintUse.memory 1 []
    [dataUse 2 4, baseUse 0 4] (fun c ls => decide (ls = [0]) &&
      reachesTile (lane0 (tiled (fun e => { e with uncorr := true }) reaching)) false (fun e => e.uncorr) c ls) := met (by decide +kernel)

/-- Tile 16 can be written no more. -/
def exhausting : State :=
  { reaching with mem := { reaching.mem with tmeta := [(16, { meta0 0 with exhausted := true })], keys := [(5, { key0 with state := .assigned, gen := 0 })] } }

theorem witness_MisalignedAccess_exhausted : exhausting.mem.exhausted 16 5 = true ∧ Meets exhausting HintUse.memory 0 []
    [dataUse 2 4, baseUse 0 4] (reachesTile exhausting true (fun e => !e.uncorr && !e.poisoned)) := ⟨by decide +kernel, met (by decide +kernel)⟩

/-- The lease maps a host page; the link is down. -/
def hosting : State :=
  let s := onTread (fun t => { t with leases := [{ lease0 with pages := [{ page0 with host := true }] }] }) reaching
  { s with mem := { s.mem with linkUp := false } }

theorem witness_MisalignedAccess_host : Meets hosting HintUse.memory 0 [] [dataUse 2 4, baseUse 0 4] (fun c ls => trappable hosting c ls &&
    !hosting.mem.linkUp && lanesAll hosting c ls (fun _ th => decide ((accessAddr 0 4 0 th).toNat % 4 = 0) &&
      (leaseFor c.tr.leases ((accessAddr 0 4 0 th).toNat % 2 ^ 57) 4 true false).any (fun l =>
        (leasePage l ((accessAddr 0 4 0 th).toNat % 2 ^ 57)).any (fun p => p.host)))) := met (by decide +kernel)

/-- v4 names a hall address beyond the 24 halls; byte 0x40 of the own hall is lost. -/
def beyondHall : State := handled (withRegs [(4, 24 * 2 ^ 21)] owned)
def lostHall : State := { handled atHall with mem := { atHall.mem with hallBad := [0x40] } }

theorem witness_MisalignedAccess_hall : Meets beyondHall HintUse.memory 0 [] [dataUse 2 4, baseUse 1 4] (fun c ls => trappable beyondHall c ls &&
    lanesAll beyondHall c ls (fun _ th => decide ((accessAddr 1 4 0 th).toNat % 4 = 0 ∧ 24 ≤ (accessAddr 1 4 0 th).toNat / 2 ^ 21))) :=
  met (by decide +kernel)
theorem witness_MisalignedAccess_hallLost : Meets lostHall HintUse.memory 0 [] [dataUse 2 4, baseUse 1 4] (fun c ls => trappable lostHall c ls &&
    lanesAll lostHall c ls (fun _ th => decide ((accessAddr 1 4 0 th).toNat = 0x40) &&
      (lostHall.coresOf c.tr.part).contains (24 * (c.ld.core / 24) + (accessAddr 1 4 0 th).toNat / 2 ^ 21) &&
      lostHall.mem.hallBad.contains (c.ld.core / 24 * 2 ^ 26 + (accessAddr 1 4 0 th).toNat) && decide (tgetD [] lostHall.mem.ranges c.ld.core = []))) :=
  met (by decide +kernel)

/-- Lane 0 alone, with a reservation on its granule. -/
def reserving : State := lane0 (eachThread (fun t => { t with resv := some { space := .hall, key := 0, granule := 1 } }) atHall)

/-- The reservation is on the place of the check. -/
def reservesAt (th : Thread) : Checked → Bool
  | .ok k => th.reserves k
  | _ => false

theorem witness_StoreConditional : Meets reserving HintUse.none 1 [] [baseUse 1 4, one 7] (fun c ls => decide (ls = [0]) &&
    decide (reserving.mem.accs = []) && reserving.mem.covers (c.ld.core / 48) c.fl.cover &&
    lanesAll reserving c ls (fun _ th => !th.relFenced && reservesAt th (checkAt 1 4 0 4 true c reserving th))) := met (by decide +kernel)
theorem witness_StoreConditional_none : Meets (lane0 atHall) HintUse.none 1 [] [baseUse 1 4, one 7] (fun c ls => decide (ls = [0]) &&
    lanesAll (lane0 atHall) c ls (fun _ th => passed (checkAt 1 4 0 4 true c (lane0 atHall) th) &&
      !reservesAt th (checkAt 1 4 0 4 true c (lane0 atHall) th))) := met (by decide +kernel)
theorem witness_FenceOrders : Meets bench HintUse.none 0 [] [] (fun _ _ => true) := met (by decide +kernel)

/-- An access to hall byte 0x40 by lane 0. -/
def accessOf (id : Nat) (k : AccKind) (st : AccStage) : Access :=
  { id := id, fk := 0, lane := 0, kind := k, acq := false, rel := false, scope := 0, space := .hall, addr := 0x40, size := 4, key := 0,
    prio := 0, data := 7, cmp := 0, signed := false, dest := if k = .load then [3] else [], cls := some (if k = .store then .st else .ld, 0),
    core := 0, stage := st, causal := false, clock := [0, 0, 0, 0], value := if st = .bound then some 9 else none, stamp := none,
    returned := false, cover := [0, 0, 0, 0], seen := [0, 0, 0, 0], sys := false, flags := 0 }

/-- A machine with these accesses. -/
def withAccs (l : List Access) : State := { owned with mem := { owned.mem with accs := l, nextAcc := 9 } }

/-- The access is ready for its next step (R370). -/
def isReady (s : State) (y : Access) : Bool :=
  decide (s.mem.access? y.id = some y) && decide (y.stage = .issued) && s.mem.covers y.die y.cover &&
  mayGo s.mem (fun _ => false) y (s.mem.earlier y.fk y.lane y.id)

theorem witness_MemoryMachine_bind : isReady (withAccs [accessOf 1 .load .issued]) (accessOf 1 .load .issued) = true ∧
    forwardFrom [] (accessOf 1 .load .issued) = none := by decide +kernel
theorem witness_MemoryMachine_forward :
    let y := accessOf 1 .load .issued
    let s := withAccs [accessOf 0 .store .issued, y]
    s.mem.access? 1 = some y ∧ y.stage = .issued ∧ s.mem.covers y.die y.cover = true ∧
    forwardFrom (s.mem.earlier 0 0 1) y = some (accessOf 0 .store .issued) ∧
    mayGo s.mem (fun z => z.writes && z.overlaps y && !z.reads && !(z.acq || y.rel)) y (s.mem.earlier 0 0 1) = true := by decide +kernel
theorem witness_MemoryMachine_lr : isReady (withAccs [accessOf 1 .lr .issued]) (accessOf 1 .lr .issued) = true := by decide +kernel
theorem witness_MemoryMachine_drain : isReady (withAccs [accessOf 1 .store .issued]) (accessOf 1 .store .issued) = true ∧
    (accessOf 1 .store .issued).writes = true := by decide +kernel
theorem witness_MemoryMachine_store : (withAccs [accessOf 1 .store .drained]).mem.access? 1 = some (accessOf 1 .store .drained) ∧
    (accessOf 1 .store .drained).dest = [] ∧ carriedOk bench.mem 0 [0, 0, 0, 0] = true ∧
    (tget (withAccs []).landings 0).any (fun ld => (tget (withAccs []).treads ld.tid).any (fun tr => decide (tr.stage ≠ .retired) &&
      !tr.spilledOut ld)) = true := by decide +kernel
theorem witness_MemoryMachine_apply : (withAccs [accessOf 1 (.atomic 0) .drained]).mem.access? 1 = some (accessOf 1 (.atomic 0) .drained) ∧
    (accessOf 1 (.atomic 0) .drained).cls.map (·.1) ≠ some .st := by decide +kernel
theorem witness_MemoryMachine_return : (withAccs [accessOf 1 .load .bound]).mem.access? 1 = some (accessOf 1 .load .bound) ∧
    (accessOf 1 .load .bound).value = some 9 ∧ (accessOf 1 .load .bound).dest ≠ [] := by decide +kernel

/-- A write of die 0 that waits to be sent, and one that has come to die 1. -/
def sent : MirrorWrite := { home := 0, stamp := [1, 0, 0, 0], addr := 0x10000, key := 5, bytes := [1], wipe := false }

theorem witness_MemoryMachine_mirror :
    let m : Memory := { owned.mem with outbox := [sent], inbox := [(1, sent)] }
    m.outbox[0]? = some sent ∧ m.inbox[0]? = some (1, sent) ∧ mirrorReady m 1 sent = true := by decide +kernel

theorem witness_AppliedBytes : (resident16.mem.resident? (tileOf 0x10000) 5).any (fun e => !e.poisoned) = true := by decide +kernel

/-! ### Waiting, barriers, reductions -/

/-- One LD operation is outstanding. -/
def outstanding : State := onFlight (fun f => { f with cLd := { f.cLd with issued := 1 } }) bench

theorem witness_WaitCounters : ∃ c, bench.ctx? = some c ∧ (hintsOk c HintUse.none && decide (c.fl.cLd.value ≤ 0 ∧ c.fl.cSt.value ≤ 0 ∧
    c.fl.cCp.value ≤ 0 ∧ c.fl.cMx.value ≤ 0) && lanesAll bench c c.lanes (fun _ th => (regTrap c.ld.regs th [one 5]).isNone &&
      !th.awaits [5])) = true := group (by decide +kernel)
theorem witness_WaitCounters_hold : ∃ c, outstanding.ctx? = some c ∧ (hintsOk c HintUse.none && decide (¬ c.fl.cLd.value ≤ 0)) = true :=
  group (by decide +kernel)

/-- The lanes may arrive, and whether their arrivals complete the barrier. -/
def arrives (s : State) (sp phase done : Bool) (c : Ctx) (ls : List Nat) : Bool :=
  let b := s.barrier c.lid c.ld.tid sp
  lanesAll s c ls (fun _ th => th.arrival sp != some b.gen && !th.inBar sp) &&
  s.barComplete (s.barScope c.lid c.ld.tid sp) (arrivedBy s c b phase ls) == done &&
  s.barComplete (s.barScope c.lid c.ld.tid sp) b == false

/-- A landing with phases. -/
def inPhases : State := onLanding (fun l => { l with phased := true }) bench

theorem witness_Barriers_complete : Meets bench HintUse.none 0 [] [] (arrives bench false false true) := met (by decide +kernel)
theorem witness_Barriers_span : Meets bench HintUse.none 0 [] [] (arrives bench true false true) := met (by decide +kernel)
theorem witness_Barriers_phase : Meets inPhases HintUse.none 0 [] [] (fun c ls => c.ld.phased && arrives inPhases false true true c ls) :=
  met (by decide +kernel)
theorem witness_Barriers_open : Meets (lane0 bench) HintUse.none 1 [] [] (arrives (lane0 bench) false false false) := met (by decide +kernel)

/-- The lanes have arrived and the generation is open. -/
def arrived0 : State := eachThread (fun t => { t with arrL := some 0 }) (lane0 bench)

theorem witness_Barriers_await : Meets arrived0 HintUse.none 1 [] [] (fun c ls =>
    let b := arrived0.barrier c.lid c.ld.tid false
    !arrived0.barComplete (arrived0.barScope c.lid c.ld.tid false) b &&
    lanesAll arrived0 c ls (fun _ th => th.arrival false == some b.gen)) := met (by decide +kernel)
/-- The lanes have arrived in generation 0, which has completed: that of the barrier is 1. -/
def passed0 : State := eachThread (fun t => { t with arrL := some 0, barNow := some (false, 0x1004) })
  (onLanding (fun l => { l with bar := { gen := 1, arrived := [], phase := false } }) bench)

theorem witness_Barriers_passed : Meets passed0 HintUse.none 0 [] [] (fun c ls =>
    let b := passed0.barrier c.lid c.ld.tid false
    !passed0.barComplete (passed0.barScope c.lid c.ld.tid false) b &&
    lanesAll passed0 c ls (fun _ th => th.inBar false && th.arrival false != some b.gen)) := met (by decide +kernel)
theorem witness_ReductionRound : Meets bench HintUse.none 0 [] [one 5] (fun c _ => decide ((c.ld.reduction 1).op = none ∧
    (c.ld.reduction 1).contr = [])) := met (by decide +kernel)

/-- A round that every thread has contributed to. -/
def reduced : State :=
  let each : List Contribution := (List.range 8).map (fun i => { thread := i, value := 2, guarded := true })
  onLanding (fun l => { l with red := [(1, { value := 0, seq := 5, op := some 0, contr := each })] }) bench

theorem witness_ReductionRound_close : ((tget reduced.landings 0).any (fun ld => (ld.reduction 1).op == some 0 &&
    (reduced.liveThreads 0).all (fun i => (ld.reduction 1).contr.any (fun x => x.thread == i)))) = true := by decide +kernel
theorem witness_ReductionRound_read : Meets reduced HintUse.none 0 [] [one 6, one 7] (fun c ls =>
    lanesAll reduced c ls (fun _ th => decide (((c.ld.reduction 1).seq - (th.reg 7).truncate 16).toNat < 32768))) := met (by decide +kernel)

/-- The number in v7 is beyond that of the register. -/
def ahead : State := withRegs [(7, 6)] reduced

theorem witness_ReductionRound_hold : Meets ahead HintUse.none 0 [] [one 6, one 7] (fun c ls =>
    lanesAll ahead c ls (fun _ th => decide (32768 ≤ ((c.ld.reduction 1).seq - (th.reg 7).truncate 16).toNat))) := met (by decide +kernel)

-- 04_numbers.md R83: three flights: the first two are added, the third is passed up and added to that sum.
theorem test_tree_of_three : levelValue 3 (fun f => ((([0x3F800000, 0x40000000, 0x40400000] : List Word).getD f 0), 0)) 2 0 =
    ((0x40C00000 : Word), (0 : FFlags)) := by decide +kernel

/-! ### Queues -/

/-- Queue register 3 bound to an endpoint. -/
def boundTo (cls b : Nat) (s : State) : State :=
  onFlight (fun f => { f with queues := [(3, { bound := some (cls, b), made := 0, status := 0, pend := none, credit := 0 })] }) s

/-- An entry of eight slots. -/
def entry8 : Entry := { slots := [1, 2, 3, 4, 5, 6, 7, 8], valid := 255 }

/-- The endpoint of a class holds entries. -/
def holding (cls : Nat) (es : List Entry) (r : Nat) (s : State) : State :=
  onFlight (fun f => { f with ends := [(cls, { entries := es, reserved := r, error := false, waiters := [] })] }) s

/-- The endpoint that queue register 3 names, and whether no pop of it is pending. -/
def queued (s : State) (c : Ctx) (cls b : Nat) (p : Endpoint → Bool) : Bool :=
  s.binding c.fl 3 == some (cls, b) && (c.fl.qreg 3).pend.isNone && p (c.fl.endpoint cls)

theorem witness_QueueInstructions_empty : Meets (boundTo 4 0 bench) HintUse.none 0 [] [one 5] (fun c _ =>
    queued (boundTo 4 0 bench) c 4 0 (fun e => e.space != 0 && e.entries.isEmpty) && qopClass 4) := met (by decide +kernel)
theorem witness_QueueInstructions_full : Meets (holding 4 [entry8] 15 (boundTo 4 0 bench)) HintUse.none 0 [] [one 5] (fun c _ =>
    queued (holding 4 [entry8] 15 (boundTo 4 0 bench)) c 4 0 (fun e => e.space == 0 && e.entries == [entry8])) := met (by decide +kernel)
theorem witness_QueueInstructions_unbound : Meets (handled bench) HintUse.none 0 [] [] (fun c ls => trappable (handled bench) c ls &&
    (bench.binding c.fl 3).isNone) := met (by decide +kernel)

/-- coll.send and coll.red on an unbound queue register: v11 a length of 64 and op 0, legal for both, or a length of 2. -/
def unboundColl (w : Word) : State := handled (withRegs [(11, w)] bench)

theorem witness_QueueInstructions_coll : Meets (unboundColl 64) HintUse.none 0 [] [quad 8] (fun c ls => trappable (unboundColl 64) c ls &&
    ((unboundColl 64).binding c.fl 3).isNone && lanesAll (unboundColl 64) c ls (fun _ th => decide (bits (un (th.reg 11)) 0 24 % 16 = 0 ∧
      bits (un (th.reg 11)) 0 24 % 4 = 0 ∧ bits (un (th.reg 11)) 28 3 < 4))) := met (by decide +kernel)
theorem witness_QueueInstructions_collIllegal : Meets (lane0 (unboundColl 2)) HintUse.none 1 [] [quad 8] (fun c ls => trappable (lane0 (unboundColl 2)) c ls &&
    ((unboundColl 2).binding c.fl 3).isNone && decide (ls.length = 1) && lanesAll (lane0 (unboundColl 2)) c ls (fun _ th =>
      decide (bits (un (th.reg 11)) 0 24 % 16 ≠ 0 ∧ bits (un (th.reg 11)) 0 24 % 4 ≠ 0))) := met (by decide +kernel)

/-- A hall queue of 16 entries in core 0's slice, owned by the tread, with its entries. -/
def hallQueue (n : Nat) : HallQueue :=
  { made := 1, owner := 1, cap := 4, batch := 16, pool := 16, unret := 0, head := 0, tail := n, reqs := [], takers := [] }

/-- Queue register 3 bound to it with a credit. -/
def hallBound (n credit : Nat) (s : State) : State :=
  onFlight (fun f => { f with queues := [(3, { bound := some (8, 0x100), made := 1, status := 0, pend := none, credit := credit })] })
    { s with hqueues := [(0x100, hallQueue n)] }

/-- The queue, its binding and its credit. -/
def hallHeld (s : State) (c : Ctx) (p : HallQueue → Nat → Bool) : Bool :=
  s.binding c.fl 3 == some (8, 0x100) && (c.fl.qreg 3).pend.isNone && (tget s.hqueues 0x100).any (fun h => p h (c.fl.qreg 3).credit)

theorem witness_HallQueueInstructions_hst : Meets (withRegs [(6, 0x100), (7, 4)] owned) HintUse.none 0 [] [pair 6] (fun c ls =>
    lanesAll (withRegs [(6, 0x100), (7, 4)] owned) c ls (fun _ th => decide ((th.reg 6).toNat % 16 = 0) &&
      oneSlice (owned.coresOf c.tr.part) c.ld.core (th.reg 6).toNat (16 * 2 ^ 4))) := met (by decide +kernel)
theorem witness_HallQueueInstructions_some : Meets (hallBound 9 8 bench) HintUse.none 0 [] [quad 8] (fun c ls => !c.fl.full .st &&
    hallHeld (hallBound 9 8 bench) c (fun h k => decide (ls.length ≤ k) && decide (ls.length ≤ h.held))) := met (by decide +kernel)
theorem witness_HallQueueInstructions_none : Meets (hallBound 2 3 bench) HintUse.none 0 [] [quad 8] (fun c ls =>
    hallHeld (hallBound 2 3 bench) c (fun h k => decide (k < ls.length) && decide (h.held < ls.length))) := met (by decide +kernel)

/-! ### Convergence, matrix, accumulators -/

/-- Convergence register 2 with a set and signatures. -/
def declared (d : Option (Nat × Nat)) (ss : List Signature) (s : State) : State :=
  handled (onLanding (fun l => { l with conv := [(2, { decl := d, signs := ss, gen := 0 })] }) s)

/-- What the register holds. -/
def convHas (s : State) (c : Ctx) (ls : List Nat) (d : Option (Nat × Nat)) (open_ : Bool) : Bool :=
  trappable s c ls && (c.ld.convOf 2).decl == d && (c.ld.convOf 2).signs.isEmpty == !open_

theorem witness_ConvergenceRegisters_new : Meets (declared none [] bench) HintUse.none 0 [] [] (fun c ls =>
    convHas (declared none [] bench) c ls none false) := met (by decide +kernel)
theorem witness_ConvergenceRegisters_same : Meets (declared (some (0, 0)) [] bench) HintUse.none 0 [] [] (fun c ls =>
    convHas (declared (some (0, 0)) [] bench) c ls (some (0, 0)) false &&
    c.lanes.all (fun l => !(c.ld.convOf 2).signedBy (8 * (c.fk % 32) + l))) := met (by decide +kernel)
theorem witness_ConvergenceRegisters_open : Meets (declared (some (0, 1)) [abstain 9 0 0] bench) HintUse.none 0 [] [one 4] (fun c ls =>
    convHas (declared (some (0, 1)) [abstain 9 0 0] bench) c ls (some (0, 1)) true) := met (by decide +kernel)
theorem witness_ConvergenceRegisters_illegal : (3 : BitVec 5).toNat % 2 ^ (1 : BitVec 2).toNat ≠ 0 ∧
    ∃ c, (handled bench).ctx? = some c ∧ trappable (handled bench) c c.lanes = true := ⟨by decide, group (by decide +kernel)⟩

/-- A tensor record of rank 2 in FP16 at hall address 0x80: four tiles of 32 by 128. -/
def recordHall : List Host.Cell :=
  writeCells (writeCells (writeCells [] 0x80 (bytesLE 4 (2 ^ 31 + 32 * 256 + 8 * 16 + 2) ++ bytesLE 4 4)) 0x90 (bytesLE 4 128)) 0x94
    (bytesLE 4 128)

/-- The operands of `mma a3, v0, v16, c2` in every thread. -/
def mmaReady : State :=
  declared (some (0, 0)) [] (withRegs [(16, 0x88), (17, 0x80)] { owned with mem := { owned.mem with hall := recordHall } })

def mma3 : MmaWord := { tile := 3, abase := 0, kreg := 4, c := 2, reuse := false, fn := 0 }

/-- Every lane of the group signs, and whether the round then stays open. -/
def signs (s : State) (stays : Bool) : Bool :=
  s.ctx?.any (fun c =>
    let sig := fun (l : Nat) => match s.thread? c.fk l with
      | some th => (match mmaSign mma3 c s c.ld l th with
        | .ok x => some x
        | .error _ => none)
      | none => none
    let s1 := (s.modConv c.lid 2 (fun v => { v with signs := v.signs ++ c.lanes.filterMap sig })).tryRound c.lid 2
    hintsOk c HintUse.none && !awaitsPred s c.fk [0] c.lanes && !anyAwaits s c.fk (mmaRegs mma3) c.lanes &&
    (c.ld.convOf 2).decl.isSome && c.lanes.all (fun l => !(c.ld.convOf 2).signedBy (8 * (c.fk % 32) + l) && (sig l).isSome) &&
    (tget s1.landings c.lid).any (fun ld1 => (ld1.convOf 2).signs == if stays then c.lanes.filterMap sig else []))

theorem witness_MatrixInstructions_signs : signs (halved mmaReady) true = true := by decide +kernel
theorem witness_MatrixInstructions_decides : signs mmaReady false = true := by decide +kernel

/-- The signature of thread `i`. -/
def signature3 (i : Nat) : Signature :=
  { thread := i, abst := false, fn := 0, tile := 3, abase := 0, kreg := 4, reuse := false, fmt := 0x88, handle := 0x80, index := 0,
    arow := some { row := i, words := List.replicate 16 0, scale := none }, latch := none, pc := 0x1000, npc := 0x1004 }

theorem witness_MatrixInstructions_accepted :
    let ps := (List.range 8).map signature3
    let s := declared (some (0, 0)) ps mmaReady
    (tget s.landings 0).any (fun ld => (tget s.treads ld.tid).any (fun tr =>
      (ld.convOf 2).decl == some (0, 0) && (ld.convOf 2).signs == ps && (ld.convOf 2).left s 0 ld (0, 0) == 0 &&
      ps.all (fun q => (s.thread? (q.thread / 8) (q.thread % 8)).any (fun th => th.cond == .running)) &&
      shapeK 0x88 0 == some 32 && (recordCheck s ld.core (s.coresOf tr.part) 0x88 32 0x80 0).isSome &&
      (tget s.flights 0).any (fun f => !f.full .mx))) = true := by decide +kernel

/-- Every lane signs, all alike, with a record that passes and room for the operation: the round goes. -/
def completes (s : State) : Bool :=
  s.ctx?.any (fun c =>
    let sig := fun (l : Nat) => match s.thread? c.fk l with
      | some th => (match mmaSign mma3 c s c.ld l th with
        | .ok x => some x
        | .error _ => none)
      | none => none
    let ps := c.lanes.filterMap sig
    let u := s.modConv c.lid 2 (fun v => { v with signs := v.signs ++ ps })
    ps.length == 8 && c.lanes == guardLanes s c 0 && !anyAwaits s c.fk (mmaRegs mma3) c.lanes && (tget u.landings c.lid).any (fun ld =>
      (ld.convOf 2).decl == some (0, 0) && (ld.convOf 2).left u c.lid ld (0, 0) == 0 && (ld.convOf 2).signs == ps &&
      match ps with
      | p :: _ => ps.all (fun q => !q.abst && q.fmt == p.fmt && q.tile == p.tile && q.abase == p.abase && q.kreg == p.kreg && q.fn == p.fn &&
          q.reuse == p.reuse && q.handle == p.handle && q.index == p.index &&
          (u.thread? (q.thread / 8) (q.thread % 8)).any (fun th => th.cond == .running)) &&
          (shapeK p.fmt p.fn).any (fun k => (recordCheck u ld.core (u.coresOf c.tr.part) p.fmt k p.handle p.index).isSome) &&
          (tget u.flights 0).any (fun f => !f.full .mx)
      | [] => false))

theorem witness_MatrixInstructions_completes : completes mmaReady = true := by decide +kernel

/-- v4 names hall byte 0, v8 a command word for FP8 with bias and scales, v9 and v10 their areas. -/
def accReady : State := withRegs [(8, 0x3005), (9, 0x10000), (10, 0x10200)] owned

theorem witness_AccumulatorAccept : Meets accReady HintUse.none 0 [] [one 4, quad 8, { r := 16, n := 16 }] (fun c ls => !c.fl.full .mx &&
    lanesAll accReady c ls (fun _ th => (areaCheck c (owned.coresOf c.tr.part) (th.reg 4) 32768 false).isNone &&
      (areaCheck c (owned.coresOf c.tr.part) (th.reg 4) 2064 false).isNone)) := met (by decide +kernel)
theorem witness_AccumulatorAccept_st : Meets accReady HintUse.none 0 [] [one 4, quad 8] (fun c ls => !c.fl.full .mx &&
    lanesAll accReady c ls (fun _ th =>
      let w := th.reg 8
      let own := owned.coresOf c.tr.part
      cwOk w && (areaCheck c own (th.reg 4) (1024 * outWidth (cwOfmt w)) true).isNone &&
      (!cwBias w || (areaCheck c own (th.reg 9) 512 false).isNone) && (!cwRq w || (areaCheck c own (th.reg 10) 256 true).isNone))) :=
  met (by decide +kernel)

/-- Lane 0 alone, v17 at the record. -/
def recording : State := lane0 mmaReady

theorem witness_TensorRecords : Meets recording HintUse.none 1 [] [one 5, one 17, one 7] (fun c ls => decide (ls = [0]) &&
    !anyAwaits recording c.fk [5, 17, 7] ls &&
    lanesAll recording c ls (fun l th => match checkHall c (recording.coresOf c.tr.part) recording.mem th (th.reg 17) 128 true with
      | .ok p => decide (checkHall c (recording.coresOf c.tr.part) recording.mem th (th.reg 17) 128 false = .ok p) &&
        slotMayGo c recording l .load false 128 p && slotMayGo c recording l .store false 8 p
      | _ => false)) := met (by decide +kernel)

/-! ### Copies, Colonnade, nests, code, fabric, privileged instructions -/

/-- v8 and the next three: copy 4096 bytes from 0x40000 to hall byte 0. -/
def copying : State := withRegs [(8, 0x40000), (11, 4096)] (leasing owned)

theorem witness_CopyAccept : Meets copying HintUse.memory 0 [] [quad 8] (fun c ls => !c.fl.full .cp && !rangesFull copying c.ld.core &&
    decide ((tgetD [] copying.copies c.ld.core).length < 64) && lanesAll copying c ls (fun _ th =>
      (copyChecks c copying .cp false { ga := th.pair 8, h := th.reg 10, ctl := (th.reg 11).toNat, hd := 0 }).isNone)) := met (by decide +kernel)

/-- A copy of some bytes that has been accepted. -/
def copyOp0 (n : Nat) : CopyOp :=
  { kind := .cp, who := { tid := 1, core := 0, fk := 0, lane := 0, pc := 0x1000, spell := 0 }, op := 0, cache := 0, ga := 0x40000, h := 0, hd := 0, toGlobal := false,
    len := n, esz := 4, dest := none, lanes := [0], entry := some 4, chan := 0, offset := 0, spaceHall := false, moved := [], got := [], sent := none, clock := [0, 0, 0, 0] }

/-- The same quad for a gather of 16 words. -/
def gathering : State := withRegs [(8, 0x40000), (11, 16)] (leasing owned)

theorem witness_CopyAccept_gather : Meets gathering HintUse.memory 0 [] [quad 8, one 20] (fun c ls => !c.fl.full .cp && !rangesFull gathering c.ld.core &&
    lanesAll gathering c ls (fun _ th =>
      let d : CopyDesc := { ga := th.pair 8, h := th.reg 10, ctl := (th.reg 11).toNat, hd := th.reg 20 }
      (copyChecks c gathering .gather false d).isNone && (copyChecks c gathering .gather true d).isNone && decide (d.count = 16) &&
      (gatherTrap c.ld.regs 32 d th).isNone)) := met (by decide +kernel)

/-- The flight and the landing that copies and accumulator operations are accepted for. -/
theorem witness_CopyAccept_leaves : (tget bench.flights 0).any (fun f => (f.endpoint 4).waiters.isEmpty && (tget bench.landings (0 / 32)).any (fun l =>
    (tget bench.treads l.tid).any (fun tr => !tr.spilledOut l))) = true ∧ (copyOp0 0).len = 0 ∧ (copyOp0 64).len ≠ 0 := by decide +kernel

theorem witness_ColonnadeAccept_eval : Meets (boundTo 3 0 bench) HintUse.none 0 [] ((List.range 5).map (fun i => { r := 8 + i, n := 1 }))
    (fun c _ => ((boundTo 3 0 bench).binding c.fl 3).map (·.1) == some 3 && decide ((bench.clac c.ld.core).cmds.length < 64) &&
      (c.fl.endpoint 3).space != 0 && !c.fl.full .mx) := met (by decide +kernel)
theorem witness_ColonnadeAccept_vote : Meets (holding 3 [entry8] 0 (boundTo 3 0 bench)) HintUse.none 0 [] [one 5]
    (fun c _ => queued (holding 3 [entry8] 0 (boundTo 3 0 bench)) c 3 0 (fun e => e.entries == [entry8] && entry8 != errorEntry)) :=
  met (by decide +kernel)
theorem witness_ColonnadeAccept_beyond : Meets (handled (boundTo 3 0 bench)) HintUse.none 0 [] [] (fun c ls =>
    trappable (handled (boundTo 3 0 bench)) c ls && decide (64 ≤ c.ld.regs) &&
    ((handled (boundTo 3 0 bench)).binding c.fl 3).map (·.1) == some 3 &&
    !anyAwaits (handled (boundTo 3 0 bench)) c.fk [60, 61, 62, 63, 64] ls) := met (by decide +kernel)

/-- v2 holds a configuration word with threshold 1. -/
def configuring : State := withRegs [(2, 0x100000)] owned

theorem witness_ColonnadeAccept_image : Meets configuring HintUse.none 0 [] [baseUse 1 10] (fun c ls => !c.fl.full .cp && !c.fl.full .mx &&
    !rangesFull configuring c.ld.core && lanesAll configuring c ls (fun _ th =>
      (claAddr c configuring 1 10 th (imageLen (configuring.clac c.ld.core).cfg) false).1.isNone &&
      (claAddr c configuring 1 10 th (imageLen (configuring.clac c.ld.core).cfg) true).1.isNone && (claAddr c configuring 1 10 th 64 false).1.isNone &&
      cfgOk (th.reg 2))) := met (by decide +kernel)

/-- A nest of one dimension, 0 to 7, that may be grown. -/
def desc0 : NestDesc :=
  { depth := 1, dyn := true, migr := true, cls := 0, span := 1, b0 := 8, lo := [0], hi := [7], ca := [], cb := [], deps := [], preds := 0,
    writers := 0, entry := 0x40000, handler := none, signal := 0, args := 0,
    header := { regs := 64, flights := 1, phased := true, hall := 0, carry := 0 }, ranges := [] }

def nest0 : Nest :=
  { desc := desc0, live := true, sealed := false, cancel := false, b0 := 8, b0Log := [], w := [0], partial_ := [], past := [], released := 0,
    executed := 0, steals := 0, stalls := 0, late := 0, ended := 0, flags := 0, fault := none, leases := [lease0], reserved := [],
    doneClock := [0, 0, 0, 0] }

/-- An instance of one nest on die 0. -/
def run0 : Run :=
  { header := 0x40000, args := 0, record := 0x42000, depth := 1, part := 0, die := 0, number := 0, order := 0, serial := false, src := none,
    nests := [nest0], cancel := false, clock := [0, 0, 0, 0] }

/-- A tread of it that may launch: v8 a header, v12 a record area. -/
def nesting : State := { withRegs [(3, 0), (7, 9), (12, 0x42000)] (leasing owned) with runs := [(0, run0)], nextRun := 1 }

theorem witness_NestInstructions_raise : Meets nesting HintUse.none 0 [] [one 3, one 4] (fun c ls => !c.fl.full .st &&
    nesting.releasedUpto c.fk ls nesting.mem.nextAcc && lanesAll nesting c ls (fun _ th => (raiseTarget nesting c (th.reg 3).toNat).isNone &&
      (raiseTarget nesting c (th.reg 7).toNat).isSome)) := met (by decide +kernel)
theorem witness_NestInstructions_launch : Meets nesting HintUse.none 0 [] [quad 8, pair 12] (fun c ls =>
    nesting.releasedUpto c.fk ls nesting.mem.nextAcc && nesting.mem.covers (c.ld.core / 48) c.fl.cover &&
    launchStatus nesting (c.ld.core / 48) (launchDepth nesting c + 1) == 0 && lanesAll nesting c ls (fun _ th =>
      decide ((th.pair 12).toNat % 128 = 0) && isCanon (th.pair 12) && (leaseFor c.tr.leases (va57 (th.pair 12)) 8320 false true).isSome)) :=
  met (by decide +kernel)
theorem witness_NestInstructions_info : Meets bench HintUse.none 0 [] [one 2, one 9] (fun _ _ => true) := met (by decide +kernel)
theorem witness_NestInstructions_illegal : ∃ c, (handled bench).ctx? = some c ∧ trappable (handled bench) c c.lanes = true :=
  group (by decide +kernel)

/-- A translation of the page is cached, the landing's key id is its key id; v6 and v8 name one line, lane 0 alone. -/
def pinning : State :=
  onLanding (fun l => { l with key := 5 }) (lane0 (withRegs [(6, 0x40000), (8, 128)] { owned with mem :=
    { owned.mem with gallery := resident16.mem.gallery, tlb1 := [(0, [page0])] } }))

theorem witness_CodeCaches : Meets pinning HintUse.none 1 [] [pair 6, one 8] (fun c ls => decide (ls = [0]) &&
    lanesAll pinning c ls (fun _ th => pfcLines (th.pair 6) (th.reg 8).toNat == [0x40000] && !pinsOver l0Shape c (codeOf 0 c pinning) [0x40000] &&
      rangeGood pinning c (th.pair 6) [0x40000] && (match (fillCode 0 c (setPins 0 c true [0x40000] pinning) 0x40000).2 with
        | .line _ => true
        | _ => false))) := met (by decide +kernel)
theorem witness_CodeCaches_empty : Meets (lane0 bench) HintUse.none 1 [] [pair 6, one 8] (fun c ls => decide (ls = [0]) &&
    lanesAll (lane0 bench) c ls (fun _ th => pfcLines (th.pair 6) (th.reg 8).toNat == [])) := met (by decide +kernel)
theorem witness_CodeCaches_bad : Meets (lane0 (withRegs [(8, 128)] bench)) HintUse.none 1 [] [pair 6, one 8] (fun c ls => decide (ls = [0]) &&
    lanesAll (lane0 (withRegs [(8, 128)] bench)) c ls (fun _ th => pfcLines (th.pair 6) (th.reg 8).toNat == [0] &&
      !rangeGood (lane0 (withRegs [(8, 128)] bench)) c (th.pair 6) [0])) := met (by decide +kernel)

/-! ### Fabric -/

/-- Ring 5: four records of one slot each have come, none is claimed; one claim is out. -/
def ring5 (claimed : Nat) : Ring :=
  { part := 0, hall := true, base := 0x1000, slots := 16, overwrite := false, head := 0, claimed := claimed, tail := 4, epoch := 0,
    losses := Losses.zero, pending := Losses.zero, pendEpoch := 0, sealedGap := none, resetDue := none, gaps := 0, overrun := false,
    claims := [{ ticket := 0, stop := 1, released := false, tid := 1 }],
    spans := (List.range 4).map (fun i => { first := i, skip := 0, slots := 1, kind := .data, bytes := 48, clock := [0, 0, 0, 0] }),
    kid := 5, waiters := [] }

/-- Queue register 3 bound to it. -/
def ringed (claimed : Nat) : State := { boundTo 6 5 owned with rings := [(5, ring5 claimed)] }

/-- The ring that queue register 3 names, and whether it has nothing to claim. -/
def ringHas (s : State) (c : Ctx) (p : Ring → Bool) : Bool :=
  (ringOf s c 3).any (fun x => x.1 == 5 && p x.2) && (c.fl.qreg 3).pend.isNone

theorem witness_FabricInstructions_claim : Meets (ringed 1) HintUse.none 0 [] [quad 8, { r := 12, n := 4 }] (fun c ls =>
    ringHas (ringed 1) c (fun r => !r.noClaim) && lanesAll (ringed 1) c ls (fun _ _ => true)) := met (by decide +kernel)
theorem witness_FabricInstructions_empty : Meets (ringed 4) HintUse.none 0 [] [quad 8] (fun c _ =>
    ringHas (ringed 4) c (fun r => r.noClaim)) := met (by decide +kernel)
theorem witness_FabricInstructions_rel : Meets (ringed 1) HintUse.none 0 [] [one 8] (fun c ls => ringHas (ringed 1) c (fun r =>
    lanesAll (ringed 1) c ls (fun _ th => r.claims.any (fun x => !x.released && x.ticket == (th.reg 8).toNat))) &&
    c.fl.cLd.value == 0 && (ringed 1).releasedUpto c.fk lanes8 (ringed 1).mem.nextAcc) := met (by decide +kernel)

/-- A notice of 64 bytes. -/
def notice0 : Notice := { offset := 0, len := 64, red := false, status := 0, clock := [0, 0, 0, 0] }

/-- A channel of 4096 bytes at hall byte 0. -/
def channel0 (ns : List Notice) : Channel :=
  { part := 0, port := 0, peer := 0, peerChan := 0, key := 0, hall := true, base := 0, kid := 5, len := 4096, count := 3, notices := ns,
    error := 0, waiters := [], clock := [0, 0, 0, 0], early := [] }

/-- Queue register 3 bound to channel 9; v8 and the next three: 64 bytes of hall byte 0; v20 a count that has come, v21 one that has not. -/
def channeled (ns : List Notice) : State :=
  { boundTo 7 9 (withRegs [(11, 64 + 2 ^ 31), (20, 3), (21, 4)] owned) with chans := [(9, channel0 ns)] }

/-- The channel that queue register 3 names. -/
def chanHas (s : State) (c : Ctx) (p : Channel → Bool) : Bool := (chanOf s c 3).any (fun x => x.1 == 9 && p x.2) && (c.fl.qreg 3).pend.isNone

theorem witness_FabricInstructions_send : Meets (channeled []) HintUse.none 0 [] [quad 8] (fun c ls =>
    chanHas (channeled []) c (fun _ => true) && !c.fl.full .cp && decide ((tgetD [] (channeled []).copies c.ld.core).length < 64) &&
    lanesAll (channeled []) c ls (fun _ th =>
      let d : CollDesc := { ga := th.pair 8, h := th.reg 8, offset := (th.reg 10).toNat, ctl := (th.reg 11).toNat }
      (collChecks c (channeled []) false d).isNone && (collChecks c (channeled []) true d).isNone)) := met (by decide +kernel)
theorem witness_FabricInstructions_recv : Meets (channeled [notice0]) HintUse.none 0 [] [quad 8] (fun c _ =>
    chanHas (channeled [notice0]) c (fun ch => ch.notices == [notice0])) := met (by decide +kernel)
theorem witness_FabricInstructions_none : Meets (channeled []) HintUse.none 0 [] [quad 8] (fun c _ =>
    chanHas (channeled []) c (fun ch => ch.notices == [])) := met (by decide +kernel)
theorem witness_FabricInstructions_wait : Meets (channeled []) HintUse.none 0 [] [one 20, one 21] (fun c ls =>
    chanHas (channeled []) c (fun ch => lanesAll (channeled []) c ls (fun _ th => decide ((ch.count - th.reg 20).toNat < 2 ^ 31) &&
      ch.error == 0 && !decide ((ch.count - th.reg 21).toNat < 2 ^ 31)))) := met (by decide +kernel)

/-! ### Privileged instructions -/

/-- Lane 0 of a handler, v6 at a leased page. -/
def saving : State := lane0 (inHandler (withRegs [(6, 0x40000)] (leasing owned)))

theorem witness_PrivilegedInstructions : Meets saving HintUse.none 1 [] [pair 6, one 7] (fun c ls => decide (ls = [0]) &&
    saving.releasedUpto c.fk [0] saving.mem.nextAcc && lanesAll saving c ls (fun _ th => th.hmode && th.leases.isEmpty && th.loads.isEmpty &&
      (match imageAt c saving (th.pair 6) (saveImage c.ld.regs th).length (saveImage c.ld.regs th).length true with
        | .ok l => piecesMayGo c saving 0 .store th.relFenced l
        | .error _ => false))) := met (by decide +kernel)
theorem witness_PrivilegedInstructions_load : Meets saving HintUse.none 1 [] [pair 6] (fun c ls => decide (ls = [0]) &&
    lanesAll saving c ls (fun _ th => match imageAt c saving (th.pair 6) (blockLen c.ld.regs) 128 false,
        imageAt c saving (th.pair 6) (blockLen c.ld.regs) (blockLen c.ld.regs) false with
      | .ok l1, .ok l2 => piecesMayGo c saving 0 .load false l1 && piecesMayGo c saving 0 .load false l2
      | _, _ => false)) := met (by decide +kernel)
theorem witness_PrivilegedInstructions_trap : Meets (handled bench) HintUse.none 0 [] [] (fun c ls => trappable (handled bench) c ls &&
    !anyAwaits (handled bench) c.fk [5] ls) := met (by decide +kernel)

/-! ### The firmware and the host -/

/-- The boot ROM waits for an image. -/
def inRom : State := { State.reset with fw := { Firmware.reset with boot := .rom } }
/-- The machine is up, in lifecycle state `n`. -/
def up (n : Nat) (s : State) : State := { s with fw := { Firmware.reset with boot := .up, lifecycle := n } }

theorem witness_FirmwareCommands_rom : inRom.fw.serves true = true ∧ inRom.fw.recovery.cmd = none ∧
    (Config.imageOk inRom.fw.image = true ∨ Config.imageOk inRom.fw.image = false) :=
  ⟨by decide +kernel, by decide +kernel, (Bool.eq_false_or_eq_true _)⟩
theorem witness_FirmwareCommands_free : mailFree (up 1 owned) ∧ (tget (up 1 owned).parts 0).isSome = true ∧ (up 1 owned).fw.idErased = false ∧
    (up 1 owned).fw.lifecycle < 2 ∧ ((3 : Nat) ≠ (up 1 owned).fw.lifecycle + 1) ∧ (up 1 State.reset).maySleep = true := by
  refine ⟨⟨?_, ?_⟩, ?_⟩ <;> decide +kernel
theorem witness_FirmwareCommands_transition (signed : List Byte) :
    Config.transitionOk [1, 2] signed = true ∨ Config.transitionOk [1, 2] signed = false := Bool.eq_false_or_eq_true _
theorem witness_FirmwareCommands_production : mailFree (up 2 owned) ∧ (up 2 owned).fw.lifecycle = 2 ∧ (tget (up 2 owned).parts 0).isSome = true := by
  refine ⟨⟨?_, ?_⟩, ?_⟩ <;> decide +kernel
theorem witness_FirmwareCommands_busy :
    let s := (up 1 owned).setBox false { Mailbox.reset with cmd := some 0x4100 }
    let u := (up 1 owned).setBox false { (Mailbox.reset.overlay 0 [7, 0, 0, 0]) with cmd := some 0x4130 }
    s.fw.serves false = true ∧ s.fw.mgmt.cmd = some 0x4100 ∧ (0x4100 : Nat) ≠ 0x4130 ∧
    u.fw.serves false = true ∧ u.fw.mgmt.cmd = some 0x4130 ∧ u.fw.mgmt.begun = none ∧ u.fw.mgmt.operands 4 = bytesLE 4 7 := by decide +kernel
theorem witness_FirmwareCommands_word :
    let rows := (commandTable false).filter (fun x => x.1 == 0x123)
    (up 1 owned).fw.serves false = true ∧ ((up 1 owned).fw.box false).cmd = none ∧ bits (0x123 + 4 * 4096) 0 12 = 0x123 ∧
    rows.any (fun x => decide (x.2.1 ≤ bits (0x123 + 4 * 4096) 12 12 ∧ bits (0x123 + 4 * 4096) 12 12 ≤ x.2.2)) = true ∧
    rows.any (fun x => decide (x.2.1 ≤ bits (0x123 + 5 * 4096) 12 12 ∧ bits (0x123 + 5 * 4096) 12 12 ≤ x.2.2)) = false ∧
    (commandTable false).filter (fun x => x.1 == bits 0xFFF 0 12) = [] := by decide +kernel

/-- A QUEUE_BIND of 17 operand bytes whose list holds one key id, and one of 20; a RING_CONFIG whose hall word is 2. -/
theorem witness_FirmwareCommands_lists :
    let m := Mailbox.reset.overlay 0 (bytesLE 4 3 ++ bytesLE 4 0 ++ bytesLE 4 1 ++ bytesLE 4 5 ++ bytesLE 4 0)
    let u := Mailbox.reset.overlay 0 (bytesLE 4 5 ++ bytesLE 4 0 ++ bytesLE 4 2)
    listedLen (bits (0x115 + 17 * 4096) 0 12) m.payload = some 20 ∧ bits (0x115 + 17 * 4096) 12 12 ≠ 20 ∧
    bits (0x115 + 20 * 4096) 12 12 = 20 ∧ (∀ o ∈ flagPlaces (bits (0x115 + 20 * 4096) 0 12) 20, field m.payload o 4 ≤ 1) ∧
    listedLen (bits (0x117 + 28 * 4096) 0 12) u.payload = none ∧
    ¬ (∀ o ∈ flagPlaces (bits (0x117 + 28 * 4096) 0 12) (bits (0x117 + 28 * 4096) 12 12), field u.payload o 4 ≤ 1) := by decide +kernel
/-- Operands that fit, of a fixed length and of any that the payload holds. -/
theorem witness_FirmwareCommands_operands : operandsFit [(4, 3), (8, 0x200000), (8, 0x200000), (8, 0), (4, 5)] = true ∧
    (operandBytes [(4, 3), (8, 0x200000), (8, 0x200000), (8, 0), (4, 5)]).length = 32 ∧ operandsFit [(4, 0)] = true ∧
    (operandBytes [(4, 0)] ++ [1, 2, 3]).length ≤ 4088 ∧ operandsFit (listOperands [5, 6]) = true := by decide +kernel

/-- A partition with core 2 and key id 6. -/
def spec1 : PartitionSpec :=
  { cores := [2], keys := [6], pages := [(64, 64)], root := 0x40000, tabKey := 6, saveBase := 0, saveLen := 0, debugKey := 0 }

/-- The partition of the tests with its key id. -/
def tenant : State := up 1 { owned with mem := { owned.mem with keys := [(5,
  { state := .assigned, slots := (1, 0), cur := 0, gen := 1, part := some 0, clearing := true })] } }

def ringSpec : RingSpec := { ring := 5, part := 0, hall := true, base := 0x1000, slots := 16, overwrite := false }
def chanSpec : ChannelSpec :=
  { chan := 9, part := 0, port := 0, peer := 0, peerChan := 0, key := 0, hall := true, base := 0, kid := 5, len := 4096 }

theorem witness_FirmwareCommands_tenants : mailFree tenant ∧ tenant.fw.tenants = true ∧ tenant.mayCreate spec1 = true ∧
    (tget tenant.parts 0).isSome = true ∧ ((tenant.mem.keyOf 7).state ≠ .scrubbing ∧ (tenant.mem.keyOf 7).part.any tenant.busyPart = false ∧
      (tenant.mem.keyOf 7).gen ≠ 0xFFFF) ∧ (tenant.mem.keyOf 5).state = .assigned ∧
    (0x200000 % 2 ^ 21 = 0) ∧ tenant.eloa = [] ∧ tenant.savesOf 0 0 = [] ∧
    ringOk ringSpec = true ∧ tenant.kidsOf 5 0 = true ∧ tget tenant.rings 5 = none ∧ tenant.channelOk chanSpec = true := by
  refine ⟨⟨?_, ?_⟩, ?_⟩ <;> decide +kernel
theorem witness_FirmwareCommands_preempt : mailFree (up 1 nesting) ∧ (up 1 nesting).fw.tenants = true ∧
    (up 1 nesting).mayName 0 0 = true := by
  refine ⟨⟨?_, ?_⟩, ?_⟩ <;> decide +kernel

/-- A pre-emption request for instance 0. -/
def request0 : Preempt := { number := 2, part := 0, inst := 0, mask := 1, move := false, from_ := 0, grace := 10, since := [0, 0, 0, 0], noSpace := false }

theorem witness_FirmwareCommands_withdraw : ∃ r ∈ ({ up 1 nesting with requests := [request0] } : State).requests, r.number = 2 :=
  ⟨request0, by simp, rfl⟩

/-- Queue 3 of partition 0 on die 0, of 16 slots. -/
def queue3 (on : Bool) : EloaQueue :=
  { part := some 0, keys := [5], die := 0, base := 0x1000, size := 4, enabled := on, tail := if on then 1 else 0, head := 0, stop := 0 }

/-- A machine with the queue; its first slot holds these bytes, and the page tables of the partition map nothing. -/
def doored (on : Bool) (slot : List Byte) : State :=
  up 1 { owned with eloa := [(3, queue3 on)], mem := { owned.mem with host := writeCells [] 0x1000 slot } }

theorem witness_HostInterface_disabled : (tget (doored false []).eloa 3).any (fun e => !e.enabled && decide (4 ≤ e.size) &&
    decide (e.size ≤ 12)) = true := by decide +kernel
theorem witness_HostInterface_enabled : (tget (doored true []).eloa 3).any (fun e => e.enabled && e.stop == 0 &&
    decide (2 ^ e.size ≤ 16 % 2 ^ 32) && e.part == some 0 && e.waiting != 0 && decide (3 % 2 ^ 32 < 2 ^ e.size)) = true ∧ (doored true []).hasTurn 3 0 = true := by decide +kernel

/-- The record at the head, and whether it is bad. -/
def headRecord (s : State) (bad : Bool) (op : Nat) : Bool :=
  (tget s.eloa 3).any (fun e => match s.slotBytes e with
    | some b => s.badRecord 0 b == bad && field b 0 1 == op
    | none => false)

theorem witness_HostInterface_unreadable :
    let s := { doored true [] with mem := { (doored true []).mem with linkUp := false } }
    (tget s.eloa 3).any (fun e => s.slotBytes e == none) = true := by decide +kernel
theorem witness_HostInterface_badLaunch : headRecord (doored true []) true 0 = true := by decide +kernel
theorem witness_HostInterface_badCancel : headRecord (doored true [2, 0, 1]) true 2 = true := by decide +kernel
theorem witness_HostInterface_cancel : headRecord (doored true [2]) false 2 = true ∧
    (doored true [2]).cancelTargets 3 0 (readCells (doored true [2]).mem.host 0x1000 64) = ([], []) := by decide +kernel

/-- A resident tile under key id 5. -/
def tileOf5 (t : Nat) (data : Tab Byte) : Nat × GalEntry :=
  (t, { key := 5, dirty := true, poisoned := false, uncorr := false, prio := 0, used := 0, data := data })

/-- Page tables of partition 0 in tiles 16 to 19: virtual pages 0x20000 to 0x22FFF are tiles 24 to 26. -/
def tables (slot : List Byte) : State :=
  let s := doored true slot
  { s with
    mem := { s.mem with
      keys := tenant.mem.keys
      gallery := [tileOf5 16 [(0, 1), (1, 0x10), (2, 1)], tileOf5 17 [(0, 1), (1, 0x20), (2, 1)], tileOf5 18 [(0, 1), (1, 0x30), (2, 1)],
        tileOf5 19 [(0x100, 0x1F), (0x101, 0x80), (0x102, 1), (0x106, 5), (0x108, 0x1F), (0x109, 0x90), (0x10A, 1), (0x10E, 5),
          (0x110, 0x1F), (0x111, 0xA0), (0x112, 1), (0x116, 5)]] } }

/-- A launch record: the header at 0x30000, which does not translate, the record area at 0x20000. -/
def launchSlot : List Byte := bytesLE 8 1 ++ bytesLE 8 0x30000 ++ bytesLE 8 0 ++ bytesLE 8 0x20000

theorem witness_HostInterface_launch : headRecord (tables launchSlot) false 1 = true ∧
    (let s1 := (tables launchSlot).walkAll 0 ((tileSegs (0x20000 % 2 ^ 57) 8320).map (·.1))
     let y := s1.entryPcs 0 0 0x30000
     let s2 := y.1.walkAll 0 (y.2.map va57)
     s1.badRecord 0 (readCells s1.mem.host 0x1000 64) || s2.keyRefused 0 [5] y.2 || s2.poolFull 0 || s2.resetting 0) = false := by decide +kernel
theorem witness_HostInterface_memory :
    let s : State := { tables [] with windows := [(0, { hpa := 0x200000, size := 0x200000, pa := 0, key := 5 })] }
    s.mem.linkUp = true ∧ (s.windowOf 0x210000 64).any (fun w => (s.mem.fillRange (w.pa + (0x210000 - w.hpa)) 64 w.key).badTiles
      (w.pa + (0x210000 - w.hpa)) 64 w.key == []) = true ∧
    (s.windowOf 0x210000 64).any (fun w => (s.mem.fillRange (w.pa + (0x210000 - w.hpa)) 64 w.key).found == [] &&
      (({ s with mem := s.mem.fillRange (w.pa + (0x210000 - w.hpa)) 64 w.key } : State).writePhys (w.pa + (0x210000 - w.hpa)) w.key
        (List.replicate 64 1)).mem.found == []) = true := by decide +kernel
theorem witness_HostInterface_poison :
    let s : State := { tables [] with windows := [(0, { hpa := 0x200000, size := 0x200000, pa := 0, key := 5 })] }
    let u : State := { s with mem := { s.mem with gallery := [(16, { key := 5, dirty := false, poisoned := true, uncorr := false, prio := 0, used := 0, data := [] })] } }
    u.mem.linkUp = true ∧ (u.windowOf 0x210000 64).any (fun w => (u.mem.fillRange (w.pa + (0x210000 - w.hpa)) 64 w.key).badTiles
      (w.pa + (0x210000 - w.hpa)) 64 w.key == [16]) = true := by decide +kernel

theorem witness_HostInterface_notice : (7 : Nat) ≠ 0 ∧ (doored true [2]).mem.linkUp = true ∧ (tget (doored true [2]).eloa 3).any (fun e =>
    e.part == some 0 && e.enabled && e.stop == 0 && e.waiting != 0) = true := by decide +kernel

/-- A CANCEL record that names instance 0 of the partition. -/
def cancels : State := { doored true [2] with runs := [(0, run0)] }

theorem witness_HostInterface_cancels : cancels.badRecord 0 (readCells cancels.mem.host 0x1000 64) = false ∧
    (cancels.cancelTargets 3 0 (readCells cancels.mem.host 0x1000 64)).1 = [0] ∧
    run0.nests.any (fun n => !n.sealed) = true := by decide +kernel

/-- The launcher of a record in queue 3. -/
def src3 : HostSrc := { queue := 3, tag := 7, notify := 0x9000, msix := false }

/-- A report after which a notice, or the copy of a done word, is written. -/
def later (x : Sequel) (k : List Nat) : Report :=
  { die := 0, home := false, run := 0, nest := 0, point := [], ended := false, fault := none, flags := 0, clock := k, sequel := some x }

theorem witness_HostInterface_follows : bench.mem.covers 0 (later (.notice src3 0 0) [0, 0, 0, 0]).clock = true ∧
    bench.mem.covers 0 (later (.notice src3 0 0) [0, 1, 0, 0]).clock = false ∧ src3.notify ≠ 0 ∧
    ({ bench with reports := [later (.notice src3 0 0) [0, 0, 0, 0]] } : State).reports[0]? = some (later (.notice src3 0 0) [0, 0, 0, 0]) := by
  decide +kernel

/-! ### Events -/

/-- Two groups, the timer of the executing one full; `q` puts its threads into a constrained sequence. -/
def dueState (q : Bool) : State :=
  onFlight (fun f => { f with timer := 2048, tally := 64 }) (halved (if q then eachThread (fun t => { t with lrsc := some 3 }) bench else bench))

theorem witness_FlightEvents_due : ((dueState false).resident? 0).any (fun x => !(dueState false).groupTransient x &&
    (dueState false).switchDue x && !(dueState false).inSequence x) = true := by decide +kernel
theorem witness_FlightEvents_sequence : ((dueState true).resident? 0).any (fun x => !(dueState true).groupTransient x &&
    (dueState true).switchDue x && (dueState true).inSequence x && decide (64 ≤ x.fl.tally)) = true := by decide +kernel

/-- A second flight on the bay, pending; the first one is advised to leave. -/
def swapping : State :=
  (onFlight (fun f => { f with advice := true }) (bench.addFlights 0 0 64 0x1000 [0, 0, 0, 0] 1 [0])).modFlight 1 (fun f => { f with active := false })

theorem witness_FlightEvents_swap : (swapping.swapOut (swapping.bayFlights 0 0)).any (fun x => x.fk == 0) = true ∧
    (swapping.pendingReady (swapping.bayFlights 0 0)).any (fun y => y.fk == 1) = true ∧ swapping.activeRoom 0 0 = true ∧
    tget swapping.moved (8 * 0 + 0) ≠ some (tgetD 0 swapping.cycles (0 / 48)) ∧
    tget ({ swapping with moved := [(0, 0)] } : State).moved (8 * 0 + 0) = some (tgetD 0 swapping.cycles (0 / 48)) := by decide +kernel
theorem witness_FlightEvents_young : (bench.bayFlights 0 0).all (fun x => x.fl.active) = true ∧ (tget bench.flights 0).isSome = true := by
  decide +kernel
theorem witness_FlightEvents_notDue : (bench.resident? 0).any (fun x => decide (x.fl.timer < bench.fairPeriod x.tr.part) && x.fk == 0) = true := by
  decide +kernel

/-- The pending flight has waited 65,536 cycles. -/
def aged : State := { swapping with cycles := [(0, 65536)] }

theorem witness_FlightEvents_aging :
    (leastBy Resident.older ((aged.bayFlights 0 0).filter (fun x => !x.fl.active && aged.canIssue x &&
      decide (x.fl.since + 65536 ≤ tgetD 0 aged.cycles (0 / 48))))).isSome = true ∧
    (leastBy (fun a b => Resident.older b a) ((aged.bayFlights 0 0).filter aged.movable)).isSome = true ∧
    tget aged.moved (8 * 0 + 0) ≠ some (tgetD 0 aged.cycles (0 / 48)) := by decide +kernel

/-- A nest of two dimensions, each point (i, j) waiting for (i - 1, j). -/
def nest1 : Nest := { nest0 with desc := { desc0 with depth := 2, dyn := false, lo := [0, 0], hi := [4, 8], ca := [0], cb := [0], deps := [[1, 0]] } }

/-- An instance of it: die 0 has retired row 0, die 1 has row 1 open. -/
def rowed : State :=
  { bench with
    runs := [(0, { run0 with nests := [nest1] })]
    dies := [(0, { Die.fresh with rows := [{ run := 0, nest := 0, key := [0], lo := 0, hi := 8, pre := 8, done := 0, out := 0, count := 8, opened := true }] }),
      (1, { Die.fresh with rows := [{ run := 0, nest := 0, key := [1], lo := 0, hi := 8, pre := 0, done := 0, out := 0, count := 0, opened := true }] })] }

theorem witness_StairwellEvents_ask : (rowed.nest? 0 0).any (fun x => rowed.mayAsk 1 0 0 x.1 x.2 [0, 3]) = true := by decide +kernel
theorem witness_StairwellEvents_answer :
    let s := { rowed with lookups := [{ die := 1, run := 0, nest := 0, point := [0, 3], stage := .asked }] }
    (s.nest? 0 0).any (fun x => s.retiredAt (x.2.desc.owner x.1.die (x.2.desc.keyOf [0, 3])) 0 0 x.1 x.2 [0, 3]) = true := by decide +kernel
theorem witness_StairwellEvents_open : (nesting.openable 0).any (fun x => x == (0, 0, [])) = true ∧ (nesting.nest? 0 0).isSome = true ∧
    (nesting.die 0).rows.length < 1024 := by decide +kernel

/-- The one row of the nest is open on die 0. -/
def opened : State := nesting.rowOpen 0

theorem witness_StairwellEvents_release : (opened.nextRelease 0).any (fun c => (opened.nest? c.run c.nest).isSome) = true ∧
    (opened.die 0).queue.length < 1024 := by decide +kernel

/-- Its first tread is released. -/
def released : State := opened.treadRelease 0

theorem witness_StairwellEvents_dispatch : (match (released.die 0).queue with
    | tid :: _ => (tget released.treads tid).any (fun t => (released.nestOf t).any (fun n => (released.dispatchEntry 0 tid t n).isSome))
    | [] => false) = true := by decide +kernel
theorem witness_StairwellEvents_steal : (bench.die 0).queue = [] ∧ (bench.die 0).steal = Steal.idle := by decide +kernel

/-- A die with this state of stealing and pool. -/
def stealing (st : Steal) (ls : List Launch) : State := { bench with cycles := [(0, 300)], dies := [(0, { Die.fresh with steal := st, pool := ls })] }
def launch0 (g : Option Word) : Launch :=
  { header := 0x40001, args := 0, record := 0x42000, depth := 0, part := 0, src := none, waits := false, ready := false, gen := g,
    clock := [0, 0, 0, 0], seq := 0 }

theorem witness_StairwellEvents_asked : ((stealing { Steal.idle with asked := some 1 } []).die 0).steal.asked = some 1 ∧
    ((stealing { Steal.idle with asked := some 1 } []).die 0).steal.answer = none ∧
    ((stealing { Steal.idle with answer := some [] } []).die 0).steal.answer = some [] := by decide +kernel
theorem witness_StairwellEvents_fresh : (match (released.die 0).queue with
    | tid :: _ => (tget released.treads tid).any (fun t => decide (t.ending = none ∧ t.cancelled = false ∧ t.stage = .queued) &&
        released.mem.covers 0 t.needs && (released.nestOf t).any (fun n => n.desc.cls != 2 &&
          (released.findPlace 0 (released.die 0).lastCore t.part t.span n.desc.header.regs n.desc.header.flights
            (n.desc.header.hall + n.desc.header.recordLen)).isSome))
    | [] => false) = true := by decide +kernel
theorem witness_StairwellEvents_answered : ((stealing { Steal.idle with answer := some [1] } []).die 0).steal.answer = some [1] := by decide +kernel
theorem witness_StairwellEvents_backoff : ((stealing { Steal.idle with backoff := some 40 } []).die 0).steal.backoff = some 40 ∧
    40 + 256 ≤ tgetD 0 (stealing { Steal.idle with backoff := some 40 } []).cycles 0 := by decide +kernel
theorem witness_StairwellEvents_admission : ((stealing Steal.idle [launch0 none]).die 0).nextLaunch = some (launch0 none) ∧
    ((stealing Steal.idle [launch0 (some 2)]).die 0).nextLaunch = some (launch0 (some 2)) ∧ (launch0 none).header.toNat % 256 ≠ 0 := by decide +kernel

/-- A request names the tread; its landing stands at a boundary, or not; its threads have ended, or not. -/
def asked (at_ gone : Bool) (st : TreadStage) : State :=
  eachThread (fun t => if gone then { t with cond := .exited } else t)
    (onLanding (fun l => { l with boundary := at_ }) (onTread (fun t => { t with stage := st })
      { nesting with requests := [request0], cycles := [(0, 22500)], wall := [(0, 22500)] }))

/-- The tread of a state. -/
def treadHas (s : State) (p : Tread → Bool) : Bool := (tget s.treads 1).any p

theorem witness_StairwellEvents_grace : treadHas (asked false false .running) (fun t => decide (t.stage = .running ∧ t.ending = none ∧
    t.cancelled = false) && ((asked false false .running).overdue t).isSome && !(asked false false .running).atBoundary t &&
    (asked true false .running).atBoundary t && !(asked false false .running).concurrent t &&
    !(asked false false .running).finished t) = true := by decide +kernel
theorem witness_StairwellEvents_spill : treadHas (asked true false .running) (fun t => (asked true false .running).spillReady t &&
    ((asked true false .running).boundaryRequest t).isSome &&
    (({ asked true false .running with requests := [] } : State).boundaryRequest t).isNone) = true := by decide +kernel
theorem witness_StairwellEvents_save : treadHas (onFlight (fun f => { f with cLd := { f.cLd with issued := 1 } }) (asked false false .saving)) (fun t =>
    decide (t.stage = .saving ∧ t.ending = none ∧ t.cancelled = false) &&
    (onFlight (fun f => { f with cLd := { f.cLd with issued := 1 } }) (asked false false .saving)).stopped_ t &&
    !((onFlight (fun f => { f with cLd := { f.cLd with issued := 1 } }) (asked false false .saving)).cancelOpen t).saveDrained t) = true := by
  decide +kernel
/-- The nest of a state is concurrent. -/
def concurring (s : State) : State := s.modNest 0 0 (fun n => { n with desc := { n.desc with cls := 2 } })

theorem witness_StairwellEvents_together :
    let s := concurring (asked false false .running)
    let u := concurring (asked true false .running)
    treadHas s (fun t => (s.overdue t).isSome && s.concurrent t && !s.finished t && (s.preemptGroup 1 t).any (fun p => !s.atBoundary p.2)) = true ∧
    treadHas u (fun t => u.spillReady t && u.concurrent t && (u.boundaryRequest t).isSome && (u.preemptGroup 1 t).all (fun p =>
      u.spillReady p.2 && (u.boundaryRequest p.2).isSome)) = true := by decide +kernel

/-- A tread at a forced save, with a save region of a mebibyte. -/
def savable : State := { asked false false .saving with parts := [(0, { partition0 with saveBase := 0x50000, saveLen := 0x100000 })] }

theorem witness_StairwellEvents_saved : treadHas savable (fun t => savable.stopped_ t && (savable.cancelOpen t).saveDrained t &&
    ((savable.cancelOpen t).overdue t).isSome && (tget (savable.cancelOpen t).parts t.part).any (fun p =>
      (allocSaves p.saveRoom ((savable.cancelOpen t).saveLens t.landings) ((savable.cancelOpen t).savesOf t.part p.saveStart)).isSome)) = true := by
  decide +kernel
theorem witness_StairwellEvents_running : treadHas bench (fun t => decide (t.stage = .running) && !bench.finished t) = true := by decide +kernel
theorem witness_StairwellEvents_undrained :
    let s := onFlight (fun f => { f with cSt := { f.cSt with issued := 1 } }) (asked false true .running)
    treadHas s (fun t => decide (t.stage ≠ .retired) && decide (t.stage ≠ .queued) && (s.treadFlights t).any (fun p => !s.drained t p.1 p.2)) = true := by
  decide +kernel

/-- A tread that a move request has just taken off its core, or has met spilled; core 1 is free. -/
def moving (once : Bool) : State :=
  onTread (fun t => { t with avoid := some 0, stage := .spilled, atOnce := once }) { nesting with dies := [(0, { Die.fresh with queue := [1] })] }

theorem witness_StairwellEvents_moved : (moving true).movers 0 = [1] ∧ (moving false).movers 0 = [] ∧ (released.movers 0) = [] ∧
    treadHas (moving true) (fun t => ((moving true).nestOf t).any (fun n => ((moving true).dispatchResumed 0 1 t n).isSome &&
      (({ moving true with parts := [(0, { partition0 with cores := [0] })] } : State).dispatchResumed 0 1 t n).isNone)) = true ∧
    request0.move = false ∧ ({ request0 with move := true } : Preempt).move = true := by decide +kernel
theorem witness_StairwellEvents_retire : treadHas (asked false true .running) (fun t => decide (t.stage = .running) &&
    (asked false true .running).finished t && ((asked false true .running).treadFlights t).all (fun p =>
      (asked false true .running).drained t p.1 p.2)) = true := by decide +kernel

/-- A report of point 0 on its way to the home die. -/
def report0 : Report :=
  { die := 0, home := true, run := 0, nest := 0, point := [0], ended := false, fault := none, flags := 0, clock := [0, 0, 0, 0] }

theorem witness_StairwellEvents_report :
    let s := { nesting with reports := [report0] }
    (tget s.runs 0).any (fun run => (run.nests[0]?).any (fun n => s.reportReady 0 run n report0)) = true := by decide +kernel

theorem witness_StairwellEvents_sequel : report0.sequel = none ∧ (later (.copy 0 0x42000 0) [0, 0, 0, 0]).sequel = some (.copy 0 0x42000 0) ∧
    bench.mem.covers 0 [0, 0, 0, 0] = true ∧ nesting.homesCover 0 0x42000 8 (nesting.mem.clockOf 0) = true ∧
    bench.mem.covers 0 (later (.copy 0 0x42000 0) [0, 1, 0, 0]).clock = false ∧ (nesting.nest? 0 0).isSome = true := by decide +kernel

/-- A tracked raise of the nest to 12, drained or not. -/
def raise0 (k : Option (List Nat)) : Raise :=
  { kind := .max 12, run := 0, target := 0, tid := 1, fk := 0, lanes := lanes8, op := some 0, dest := 1, upto := 0, clock := k, after := none, from_ := 0 }

theorem witness_StairwellEvents_raise : ({ nesting with raises := [raise0 none] } : State).raiseDrains (raise0 none) = some [0, 0, 0, 0] ∧
    (nesting.nest? 0 0).isSome = true ∧ nesting.mem.covers 0 [0, 0, 0, 0] = true := by decide +kernel

theorem witness_StairwellEvents_posted :
    ({ nesting with treads := [], raises := [{ raise0 none with op := none }] } : State).behindReport { raise0 none with op := none } = true ∧
    (nest1.sealed = false) ∧ (nest1.sealed = true → nesting.homesCover 0 (run0.recordOf 0) 128 [0, 0, 0, 0] = true) :=
  ⟨by decide +kernel, rfl, fun h => Bool.noConfusion h⟩

/-- An operation of the matrix engine that zeroes tile 3. -/
def mxOf (k : MxKind) : MxOp :=
  { kind := k, who := { tid := 1, core := 0, fk := 0, lane := 0, pc := 0x1000, spell := 0 }, ops := [(0, 0)], tile := 3, word := 0, rows := [], tensor := none,
    index := 0, addr := 0, bias := 0, scale := 0, dest := 0, sels := [] }

theorem witness_EngineEvents_mx : (mxOf (.mma 2)).kind = .mma 2 ∧ (mxOf .tab).kind = .tab ∧ (mxOf .zero).kind = .zero ∧
    tgetD [] ({ bench with mxq := [(0, [mxOf .tab])] } : State).mxq 0 = [mxOf .tab] := by decide +kernel

/-- A command of the Colonnade. -/
def cmd0 (k : ClaKind) (on : Bool) : ClaCmd :=
  { kind := k, who := { tid := 1, core := 0, fk := 0, lane := 0, pc := 0x1000, spell := 0 }, op := 0, cfg := 0x100000 + 0x10000, seed := 0, step := 0,
    sample := 0, desc := 0x100000 + 8, space := .hall, addr := 0, started := on, spoiled := false, cfgd := false, finder := false, slots := [], image := [] }
def claHas (k : ClaKind) (on : Bool) : State := bench.modClac 0 (fun a => { a with cmds := [cmd0 k on] })

theorem witness_EngineEvents_cla : ((claHas .eval false).clac 0).cmds = [cmd0 .eval false] ∧ ((claHas .eval true).clac 0).cmds = [cmd0 .eval true] ∧
    ((claHas .st true).clac 0).cmds = [cmd0 .st true] ∧ ((claHas .feed true).clac 0).cmds = [cmd0 .feed true] ∧
    cmdError (cmd0 .feed true) = false ∧ (cmd0 .feed true).spoiled = false := by decide +kernel

/-- An image that can be read, and one in a hall byte that is lost. -/
theorem witness_EngineEvents_image :
    let s := (claHas .ld true).modClac 0 (fun a => { a with cmds := [] })
    let u : State := { s with mem := { s.mem with hallBad := [0] } }
    (readImage { s with parts := owned.parts } (cmd0 .ld true) (imageLen (cmd0 .ld true).cfg)).1.err = none ∧
    (readImage { u with parts := owned.parts } (cmd0 .ld true) (imageLen (cmd0 .ld true).cfg)).1.err.isSome = true := by decide +kernel

/-- A copy of core 0, or a send that has gone out. -/
def copy0 (k : CopyKind) : CopyOp :=
  { kind := k, who := { tid := 1, core := 0, fk := 0, lane := 0, pc := 0x1000, spell := 0 }, op := 0, cache := 0, ga := 0x40000, h := 0, hd := 0, toGlobal := false,
    len := 64, esz := 4, dest := none, lanes := [0], entry := none, chan := 9, offset := 0, spaceHall := true, moved := [], got := [], sent := some [], clock := [0, 0, 0, 0] }

theorem witness_EngineEvents_copy : (tgetD [] ({ bench with copies := [(0, [copy0 .cp])] } : State).copies 0)[0]? = some (copy0 .cp) ∧
    (∀ r, (copy0 .cp).kind ≠ .send r) ∧ (copy0 (.send none)).sent.isSome = true :=
  ⟨by decide +kernel, fun _ h => CopyKind.noConfusion h, rfl⟩

theorem witness_EngineEvents_credit :
    (tget ({ bench with hqueues := [(0x100, { hallQueue 0 with reqs := [{ fk := 0, q := 3, need := 8 }] })] } : State).hqueues 0x100).any
      (fun h => h.reqs == [{ fk := 0, q := 3, need := 8 }]) = true := by decide +kernel

/-- A post of one entry to the queue. -/
def post0 : HallPost :=
  { who := { tid := 1, core := 0, fk := 0, lane := 0, pc := 0x1000, spell := 0 }, q := 3, base := 0x100, made := 1, entries := [[1, 2, 3, 4]], op := 0, lanes := [0], upto := 0,
    clock := [0, 0, 0, 0] }

theorem witness_EngineEvents_post :
    let s : State := { hallBound 2 3 bench with posts := [post0] }
    s.releasedUpto post0.who.fk post0.lanes post0.upto = true ∧
    s.mem.covers (post0.who.core / 48) post0.clock = true ∧ (tget s.hqueues 0x100).any (fun h => h.made == post0.made) = true := by decide +kernel
/-- A message of one byte for channel 9, whose port has its key entry. -/
def msg0 : CollMessage := { id := 0, chan := 9, offset := 0, red := none, authentic := true, bytes := [1] }
def fabricked (ns : List Notice) : State :=
  (channeled ns).modPort 0 (fun p => { p with keys := [(0, { key := 9, ring := 5, kid := 5, customer := 0 })] })

theorem witness_EngineEvents_message : (tget (fabricked []).chans (256 * 0 + 9)).any (fun ch =>
    (fabricked []).takesMessage ch msg0 && !(fabricked []).oversized ch msg0 && decide (ch.notices.length < 256) &&
    (fabricked []).mem.covers 0 [0, 0, 0, 0] && ch.earlyOf msg0 == { msg := msg0, units := [], clock := [0, 0, 0, 0] }) = true := by decide +kernel
theorem witness_EngineEvents_notYet : bench.mem.covers 0 [0, 1, 0, 0] = false := by decide +kernel
theorem witness_EngineEvents_refused : (tget (channeled []).chans (256 * 0 + 9)).any (fun ch =>
    !(channeled []).takesMessage ch msg0 && !(channeled []).oversized ch msg0) = true ∧
    ((channeled []).chanServes 9) = true ∧ (bench.chanServes 9) = false ∧
    (((channeled []).modPort 0 (fun p => { p with stopped := true })).port 0).stopped = true := by decide +kernel
theorem witness_EngineEvents_oversized :
    ∀ bs : List Byte, bs.length = 2 ^ 24 + 1 → (channeled []).oversized (channel0 []) { msg0 with bytes := bs } = true := by
  intro bs h
  have hp : ((channeled []).port 0).serves = true := by decide +kernel
  have hn : (16 * 2 ^ 20 < bs.length) := by omega
  show (((channeled []).port 0).serves && decide (16 * 2 ^ 20 < bs.length)) = true
  rw [hp, decide_eq_true hn]; rfl

/-- A record that no stream table names, and a packet with it. -/
def record0 : WireRecord := { source := 1, bytes := [2, 0, 0, 0] ++ zeros 32 }

/-- The same record with the tag of key 9, and with RESET. -/
def record1 (reset : Bool) : WireRecord :=
  let head : List Byte := [2, 0, 0, 0, 0, 0, if reset then 1 else 0, 0]
  { source := 1, bytes := head ++ zeros 12 ++
      (bytesBE 16 (gcmTag (roundKeys (bytesBE 32 9)) (List.replicate 12 0) (head.map BitVec.toNat) [])).map (BitVec.ofNat 8) }
def packet0 (f : Bool) : Packet :=
  { rud := true, uud := false, write := false, frame := 9216, message := 2 ^ 20, foreign := f, source := 1, id := 0, offset := 0, body := record0.bytes }

/-- A packet that carries the whole of its message, one record. -/
def whole0 : Packet := { packet0 false with message := 36 }

theorem witness_EngineEvents_packet : (bench.port 0).linkUp = true ∧ (bench.port 0).stopped = false ∧ packetOk (packet0 true) = false ∧
    packetOk (packet0 false) = true ∧ bench.contextFor 0 1 = true ∧ (bench.port 0).held + (packet0 false).body.length ≤ 4 * 2 ^ 20 ∧
    packetOk whole0 = true ∧ whole0.offset = 0 ∧ whole0.body.length = whole0.message ∧ (bench.port 0).messages = [] ∧
    ((bench.port 0).take whole0).buffer = [record0] ∧ ((bench.port 0).take (packet0 false)).buffer = [record0] ∧
    (bench.port 0).entryOf record0 = none ∧ ((bench.modPort 0 (fun p => { p with buffer := [record0] })).port 0).buffer = [record0] := by
  decide +kernel
theorem witness_EngineEvents_down : ((bench.modPort 0 (fun p => { p with linkUp := false })).port 0).linkUp = false := by decide +kernel

/-- A port whose buffer is full of a record `bs`, and one that holds `ps` of an unreliable message that is not whole. -/
def fullPort (bs : List Byte) : Port := { Port.fresh with buffer := [{ source := 1, bytes := bs }] }
def partPort (ps : Tab Byte) : Port :=
  { Port.fresh with messages := [{ source := 2, id := 0, rud := false, size := 2 ^ 23, base := 0, parts := ps }] }

theorem witness_EngineEvents_noRoom (bs : List Byte) (ps : Tab Byte) (hb : bs.length = 2 ^ 22) (hp : ps.length = 2 ^ 22) :
    4 * 2 ^ 20 < (fullPort bs).held + (packet0 false).body.length ∧
    4 * 2 ^ 20 < (partPort ps).held + (packet0 false).body.length := by
  have h : (packet0 false).body.length = 36 := by decide +kernel
  have e1 : (fullPort bs).held = 0 + bs.length + 0 := rfl
  have e3 : (partPort ps).held = 0 + (0 + ps.length) := rfl
  rw [e1, e3]
  omega

/-- Port 0 holds a record of stream 2 of source 1, whose key entry names ring 5. -/
def streamed (w : WireRecord) : State := (ringed 1).modPort 0 (fun p =>
  { p with buffer := [w], streams := [(7, { source := 1, stream := 2, key := 3 })], keys := [(3, { key := 9, ring := 5, kid := 5, customer := 0 })] })

theorem witness_EngineEvents_record : ((streamed record0).port 0).stopped = false ∧ (((streamed record0).port 0).entryOf record0).any (fun e =>
    (tget (streamed record0).rings e.ring).any (fun r => !(streamed record0).resetting r.part)) = true ∧
    (record0.overrun || decide (8176 < record0.len) || record0.reserved || (record0.reset && record0.len != 0)) = false ∧
    (let w : WireRecord := { record0 with bytes := record0.bytes.take 35 }
     (((streamed w).port 0).entryOf w).isSome = true ∧ (w.overrun || decide (8176 < w.len)) = true) ∧
    record0.authentic 9 = false := by decide +kernel
theorem witness_EngineEvents_authentic : (record1 false).authentic 9 = true ∧ (record1 false).reset = false ∧
    (record1 true).authentic 9 = true ∧ (record1 true).reset = true ∧ (record1 true).overrun = false ∧
    ((record1 true).reset && (record1 true).len != 0) = false := by decide +kernel

/-- NIST's one-block example of SHA-256. -/
theorem test_sha256 : sha256 [0x61, 0x62, 0x63] =
    bytesBE 32 0xba7816bf8f01cfea414140de5dae2223b00361a396177a9cb410ff61f20015ad := by decide +kernel
/-- NIST's test case 13 of AES-256-GCM: the zero key and IV, no text. -/
theorem test_gcm_tag : gcmTag (roundKeys (List.replicate 32 0)) (List.replicate 12 0) [] [] = 0x530f8afbc74536b9a963b4f1c4cb738b := by
  decide +kernel
/-- NIST's test case 14: one zero block. -/
theorem test_gcm_text : gcmText (roundKeys (List.replicate 32 0)) (List.replicate 12 0) (List.replicate 16 0) =
    bytesBE 16 0xcea7403d4d606b6e074ec5d3baf39d18 := by decide +kernel
/-- A machine whose memory holds one key id and one tile's metadata. -/
def keyed (k : KeyEntry) (x : TileMeta) : State := { bench with mem := { bench.mem with keys := [(5, k)], tmeta := [(16, x)] } }
/-- A request for tile 16. -/
def fill16 (k : BankReq) : FillReq := { tile := 16, key := 5, prio := 0, by_ := none, kind := k }

theorem witness_PackageEvents_fill :
    let m : Memory := { bench.mem with fills := [fill16 .fill] }
    m.serveWriteBacks.bankServes 16 5 = true ∧ m.serveWriteBacks.resident? 16 5 = none ∧ (∀ f ∈ m.fills, f.kind ≠ .writeBack) ∧
    m.serveWriteBacks.fills.find? (fun f => f.kind == .fill && f.tile == 16 && f.key == 5) = some (fill16 .fill) := by decide +kernel

/-- Tile 16 is written; the sub-queue of its key id is throttled, or an older request of a sweep waits at its bank. -/
theorem witness_PackageEvents_unserved :
    let m : Memory := { (keyed key0 (meta0 3)).mem with throttled := [(64, 5)], fills := [fill16 .fill] }
    m.serveWriteBacks.bankServes 16 5 = false ∧ m.serveWriteBacks.resident? 16 5 = none ∧
    m.serveWriteBacks.fills.find? (fun f => f.kind == .fill && f.tile == 16 && f.key == 5) = some (fill16 .fill) ∧
    m.rowIsOpen 16 = false := by decide +kernel
theorem witness_PackageEvents_throttle :
    let m : Memory := { (keyed key0 (meta0 3)).mem with acts := [(16, 2048)] }
    (64, 5) ∉ m.throttled ∧ m.overActive 64 5 = true := by decide +kernel
theorem witness_PackageEvents_exhausted :
    let s := keyed { key0 with state := .assigned } { meta0 3 with exhausted := true }
    (s.mem.keyOf 5).state = .assigned ∧ s.mem.seesExhausted 5 16 = true := by decide +kernel
theorem witness_PackageEvents_training (r : List Byte) :
    (up 1 bench).fw.boot = .up ∧ (r, trainingMac r).2 = trainingMac (r, trainingMac r).1 ∧
    (r, 0 :: trainingMac r).2 ≠ trainingMac (r, 0 :: trainingMac r).1 :=
  ⟨rfl, rfl, fun h => absurd (congrArg List.length h) (by simp)⟩
theorem witness_PackageEvents_sweep : ((keyed key0 (meta0 3)).mem.keyOf 5).state = .rotating ∧
    namesOldSlot 5 ((keyed key0 (meta0 3)).mem.keyOf 5) ((keyed key0 (meta0 3)).mem.metaOf 16) = true ∧
    (keyed key0 (meta0 3)).mem.sweepServed 16 5 = true ∧ sweepReq 16 5 ∉ (keyed key0 (meta0 3)).mem.fills ∧
    ({ (keyed key0 (meta0 3)).mem with fills := [fill16 .fill] } : Memory).sweepServed 16 5 = false ∧
    sweepReq 16 5 ∉ ({ (keyed key0 (meta0 3)).mem with fills := [fill16 .fill] } : Memory).fills := by decide +kernel
theorem witness_PackageEvents_clear : ((keyed key0 (meta0 2)).mem.keyOf 5).clearing = true ∧
    unclear 5 ((keyed key0 (meta0 2)).mem.keyOf 5) ((keyed key0 (meta0 2)).mem.metaOf 16) = true := by decide +kernel
theorem witness_PackageEvents_scrub : ((keyed { key0 with state := .scrubbing } (meta0 2)).mem.keyOf 5).state = .scrubbing := by decide +kernel
theorem witness_PackageEvents_unmapped : bench.virtPage 0 0x20000 = none := by decide +kernel
theorem witness_PackageEvents_migration : ((tables []).virtPage 0 0x20000).any (fun p => !p.host && (28 % (p.size / 4096) == 0) &&
    ((tables []).mem.leafPlace ((tables []).walkEnv 0) (0x20000 % 2 ^ 57)).isSome && ((tables []).walkEnv 0).owns 28 (p.size / 4096) &&
    mappedPa (28 * 4096) && mappedPa (28 * 4096 + p.size - 1) && !(decide (p.pa / 4096 < 28 + p.size / 4096 ∧ 28 < p.pa / 4096 + p.size / 4096)) &&
    (tables []).pageFree p.pa p.size && (tables []).pageFree (28 * 4096) p.size) = true := by decide +kernel
theorem witness_PackageEvents_boot : State.reset.fw.boot = .off ∧ (Config.imageOk State.reset.fw.flash = true ∨
    Config.imageOk State.reset.fw.flash = false) ∧ (up 1 bench).fw.boot = .up ∧ (up 1 bench).fw.power = .run ∧ (40 : Nat) < 41 :=
  ⟨rfl, Bool.eq_false_or_eq_true _, rfl, rfl, by decide⟩
theorem witness_PackageEvents_lapse :
    let s : State := { up 1 owned with fw := { (up 1 owned).fw with unlocked := some 7 } }
    s.fw.unlocked = some 7 ∧ 7 ≤ ({ s with cycles := [(0, 9)] } : State).debugClock ∧ s.debugClock < 7 ∧ (up 1 owned).fw.unlocked = none := by
  decide +kernel
theorem witness_PackageEvents_debug :
    let p := { partition0 with token := some 7 }
    let s : State := { up 2 owned with parts := [(0, p)] }
    (tget s.threads 0).any (fun t => (s.ctxAt (0 / 8) (0 % 8) t.pc).any (fun c => decide (5 < c.ld.regs))) = true ∧ s.threadOf 0 0 = true ∧
    csrKnown 2 = true ∧ csrKnown 9 = true ∧
    s.hallOf 0 0x40 4 = true ∧ tget s.parts 0 = some p ∧ 5 ∈ p.keys ∧
    ({ s with windows := [(0, { hpa := 0x200000, size := 0x200000, pa := 0, key := 5 })] } : State).windowOf 0x200000 4 =
      some { hpa := 0x200000, size := 0x200000, pa := 0, key := 5 } ∧ s.debugOpen 0 = true ∧ (7 : Nat) ≤ ({ s with cycles := [(0, 9)] } : State).debugClock := by decide +kernel

/-! ### The machine -/

theorem witness_StepRunsDecoded_issue :
    let s := State.reset.placeWord 0x20100000
    s.contained = false ∧ s.nextTurn = (.issue 0 0, [.elapse 0 0]) ∧
    (let s0 : State := { s with agenda := [.elapse 0 0] }
     s0.asleep = false ∧ s0.slotUsed 0 0 = false ∧ (s0.bayFlights 0 0).foldl State.noteYield s0 = s0 ∧
     (s0.bayFlights 0 0).any (fun y => s0.movable y && y.fl.advice) = false ∧
     (s0.chosen 0 0).any (fun x => !s0.switchDue x &&
       (({ s0 with cur := some x.fk, mem := { s0.mem with meeter := some (x.tr.run, x.tr.nest) } } : State).ctx?).any (fun c =>
         (s0.fetchWord 0 x.tr.part x.ld.key c.pc).2 == .word 0x20100000)) = true) := by decide +kernel
/-- Lane 0 is held. -/
def heldLane : State := bench.modThread 0 0 (fun t => { t with held := some .register })

theorem witness_StepRunsDecoded_settle : (heldLane.thread? 0 0).any (fun th => th.held.isSome) = true ∧
    (heldLane.thread? 0 1).any (fun th => th.held == none) = true ∧ (bench.bayFlights 0 0).all (fun y => y.fl.gives != .yield) = true ∧
    bench.mem.throttled = [] ∧ bench.mem.fills = [] ∧ bench.mem.found = [] := by decide +kernel
theorem witness_StepRunsDecoded_used :
    let s : State := { bench with agenda := [.issue 0 0, .elapse 0 0], issued := [(0, (0, 3))] }
    s.contained = false ∧ s.nextTurn = (.issue 0 0, [.elapse 0 0]) ∧ ({ s with agenda := [.elapse 0 0] } : State).slotUsed 0 0 = true ∧
    (∀ core bay, Instr.recalibration ≠ .flightSwap core bay ∧ Instr.recalibration ≠ .activeSetFill core bay ∧
      Instr.recalibration ≠ .aging core bay) :=
  ⟨by decide +kernel, by decide +kernel, by decide +kernel, fun _ _ => ⟨Instr.noConfusion, Instr.noConfusion, Instr.noConfusion⟩⟩
theorem witness_StepRunsDecoded_failed : (match (State.reset.fetchWord 0 0 0 0x1000).2 with
    | .failed _ => true
    | .word _ => false) = true := by decide +kernel
theorem witness_StepRunsDecoded_line :
    (lineOf ((State.reset.placeWord 0).mem.l0Of 0) 0 0 (va57 0x1000 / 128 * 128)).isSome = true := by decide +kernel
theorem witness_StepRunsDecoded_event : ({ State.reset with agenda := [.event .recalibration] } : State).nextTurn = (.event .recalibration, []) ∧
    State.reset.asleep = false ∧ ({ State.reset with contained := true } : State).contained = true := by decide +kernel
theorem witness_RoundTrip : (Instr.movi 1 0 0).wf = true ∧ isEvent (.movi 1 0 0) = false ∧ encodeWord (.movi 1 0 0) = some 0x20100000 ∧
    isEvent .coldBoot = true := by decide +kernel
theorem witness_LandingStart : 0 < [0].length ∧ (7 : Nat) < 8 := by decide
theorem witness_MachineInvariant : State.reset.contained = false ∧ State.reset.mem.wf = true := by decide +kernel

/-! ## Results: one step each, the expected values from the examples and tables of the spec -/

/-- The state after an instruction. -/
noncomputable def ran (i : Instr) (s : State) : Option State :=
  match exec i s with
  | .next t => some t
  | _ => none

/-- Register `r` of each lane listed holds the value beside it. -/
noncomputable def holds (i : Instr) (s : State) (r : Nat) (vs : List (Nat × Word)) : Bool :=
  (ran i s).any (fun t => vs.all (fun p => (t.thread? 0 p.1).any (fun th => th.reg r == p.2)))

/-- Registers 1 to 3 of every thread. -/
def with123 (x y z : Word) : State := withRegs [(1, x), (2, y), (3, z)] bench

/-- The example of XLANE: v1 = 10 + lane, v2 = 1, p1 in lanes 0, 1 and 3, lanes 4 to 7 in another group. -/
def xlane : State :=
  halved { bench with threads := bench.threads.map (fun p => (p.1, { p.2 with
    regs := [(1, BitVec.ofNat 32 (10 + p.1)), (2, 1)]
    preds := if p.1 == 2 then 0 else 2 })) }

-- 08_flow_instr.md, the example before R169.
theorem test_shfl_xor : holds (.shflXor 4 1 2 1) xlane 4 [(0, 11), (1, 10), (2, 0), (3, 13)] = true := by decide +kernel
theorem test_shfl_up : holds (.shflUp 4 1 2 1) xlane 4 [(0, 10), (1, 10), (2, 0), (3, 13)] = true := by decide +kernel
theorem test_bcast : holds (.bcast 8 1 1) xlane 8 [(0, 10), (1, 10), (2, 0), (3, 10)] = true := by decide +kernel
theorem test_red_add : holds (.redAddS32 5 1 1) xlane 5 [(0, 34), (1, 34), (2, 0), (3, 34)] = true := by decide +kernel
theorem test_prefix_add : holds (.prefixSum 6 1 1) xlane 6 [(0, 10), (1, 21), (2, 0), (3, 34)] = true := by decide +kernel
theorem test_ballot : holds (.voteBallot 7 1 1) xlane 7 [(0, 0x0B), (2, 0), (3, 0x0B), (4, 0)] = true := by decide +kernel
theorem test_match : holds (.matchLanes 9 1 1) xlane 9 [(0, 1), (1, 2), (2, 0), (3, 8)] = true := by decide +kernel
-- 07_float_instr.md, the examples under R138, R146, R152 and R155.
theorem test_hadd : holds (.hadd 4 1 2 0 0) (with123 0x3C007BFF 0x3C003C00 0) 4 [(0, 0x40007BFF), (7, 0x40007BFF)] = true := by decide +kernel
theorem test_fclass_subnormal : holds (.fclass 5 1 0) (with123 0x80000001 0 0) 5 [(0, 0x10)] = true := by decide +kernel
theorem test_fclass_signalling : holds (.fclass 5 1 0) (with123 0x7FA00000 0 0) 5 [(0, 0x01)] = true := by decide +kernel
theorem test_scladd : holds (.scladd 5 1 2 0 0) (with123 0x51C40000 0x2F 0x2F) 5 [(0, 0x01C40000)] = true := by decide +kernel
theorem test_ftwosum : holds (.ftwosum 4 1 2 0) (with123 0x4B800000 0x3F800000 0) 4 [(0, 0x4B800000)] = true ∧
    holds (.ftwosum 4 1 2 0) (with123 0x4B800000 0x3F800000 0) 5 [(0, 0x3F800000)] = true := by decide +kernel
theorem test_fadd_pair : holds (.faddPair 4 8 0) (withRegs [(4, 0x4B800000), (5, 0x3F800000), (8, 0x3F800000)] bench) 4 [(0, 0x4B800001)] = true ∧
    holds (.faddPair 4 8 0) (withRegs [(4, 0x4B800000), (5, 0x3F800000), (8, 0x3F800000)] bench) 5 [(0, 0)] = true := by decide +kernel
-- 06_int_instr.md: R110, R112: arithmetic is modulo 2^32; 05_thread.md R95: the lane number.
theorem test_add_wraps : holds (.add 4 1 2 0 0) (with123 0xFFFFFFFF 2 0) 4 [(3, 1)] = true := by decide +kernel
theorem test_sub_borrows : holds (.sub 4 1 2 0 0) (with123 1 2 0) 4 [(3, 0xFFFFFFFF)] = true := by decide +kernel
theorem test_sreg_lane : holds (.sreg 4 1 0) bench 4 [(0, 0), (7, 7)] = true := by decide +kernel
-- 04_numbers.md, the examples under R78 and R85.
theorem test_round_e4m3 : (roundTo e4m3 .rne true false 320 0).1 = 0x7A ∧ (roundTo e4m3 .rne true false 9830 (-10)).1 = 0x52 ∧
    (roundTo e4m3 .rne true true 1049 (-15)).1 = 0x90 := by decide +kernel
theorem test_segment : segmentOf [(0, 0xC0800000), (1, BitVec.ofInt 32 (-5))] false 734 (-10) = 150 ∧
    segmentOf [(0, 0xC0800000), (1, BitVec.ofInt 32 (-5))] false 9 0 = 255 := by decide +kernel
-- 21_memory.md, the examples under R399 and R406.
theorem test_address : stackOf 0x00A000015000 = 5 ∧ tileOf 0x00A000015000 = 0x00A000015 ∧ homeDie 0x00A000015000 = 2 := by decide +kernel
theorem test_leaf : leafMap { part := 0, root := 0, tabKey := 3, keys := [3], pages := [(0xA000200, 512)] } 0x40000000 1 0x000300A00020041F =
    some { va := 0x40000000, size := 2 ^ 21, pa := 0x00A000200000, key := 3, host := false, x := true, w := true, r := true, part := 0 } := by
  decide +kernel

end Sys2Proof.Tests
end

/-!
SUPPORT. The integer, address and predicate-writing instructions (06_int_instr.md): each is a lane-local body, and the word
function of its meaning is the value that its table row states.
-/

namespace Sys2Proof.Machine

/-! ## Lane-local instructions complete -/

/-- An instruction whose meaning is a lane-local body that never traps completes with what the body answers. -/
theorem computes_of_laneBody {i : Instr} {h : HintUse} {g : BitVec 3} {ps : List (BitVec 3)} {us : List RegUse}
    {f : Ctx → State → Nat → Thread → LaneOut} {v : Ctx → Nat → Thread → Thread} {w : Ctx → Nat → Thread → BitVec 5}
    (he : ∀ s, exec i s = .next (issueP s h g ps (laneBody us f))) (hf : ∀ c s l th, f c s l th = .ok (v c l th) (w c l th)) :
    Computes i h g ps us v w := by
  intro s c hi hu
  exact ⟨_, he s, laneOp_lanes hi hu (fun l _ th _ => hf c s l th)⟩

/-- An instruction that writes a function of its thread completes with it and raises no flag. -/
theorem computes_of_laneSet {i : Instr} {h : HintUse} {g : BitVec 3} {us : List RegUse} {f : Thread → Thread}
    (he : ∀ s, exec i s = .next (laneSet s h g us f)) : Computes i h g [] us (fun _ _ => f) (fun _ _ _ => 0) :=
  computes_of_laneBody he (fun _ _ _ _ => rfl)

/-! ## Bits of naturals -/

theorem bit_eq_testBit (x i : Nat) : bit x i = x.testBit i := by
  rw [Nat.testBit_eq_decide_div_mod_eq]; rfl

/-- The leading zeros among `n` bits count down from the highest bit set. -/
theorem leadingZeros_eq {a n : Nat} (h : a < 2 ^ n) : leadingZeros a n = if a = 0 then n else n - 1 - Nat.log2 a := by
  induction n with
  | zero => simp [leadingZeros]
  | succ n ih =>
    rw [leadingZeros, bit_eq_testBit]
    by_cases hn : a < 2 ^ n
    · -- bit `n` is clear: the bits below decide
      rw [Nat.testBit_lt_two_pow hn, ih hn]
      by_cases ha : a = 0
      · simp [ha]
      · have := (Nat.log2_lt ha).mpr hn
        simp only [Bool.false_eq_true, if_false, ha]
        omega
    · -- bit `n` is the highest one
      have ha : a ≠ 0 := by have := Nat.two_pow_pos n; omega
      have hl : Nat.log2 a = n := (Nat.log2_eq_iff ha).mpr ⟨by omega, h⟩
      have ht : a.testBit n = true := by rw [← hl]; exact Nat.testBit_log2 ha
      simp [ha, hl, ht]

theorem popCount_eq (a n : Nat) : popCount a n = ((List.range n).filter (fun i => a.testBit i)).length := by
  induction n with
  | zero => rfl
  | succ n ih =>
    rw [popCount, ih, bit_eq_testBit, List.range_succ, List.filter_append, List.length_append, Nat.add_comm]
    cases h : a.testBit n <;> simp [h]

theorem bitReverse_lt (a n : Nat) : bitReverse a n < 2 ^ n := by
  induction n generalizing a with
  | zero => simp [bitReverse]
  | succ n ih =>
    have h := ih (a / 2)
    have hb : bits a 0 1 ≤ 1 := by simp [bits]; omega
    have hm := Nat.mul_le_mul_right (2 ^ n) hb
    rw [bitReverse, Nat.pow_succ]
    omega

theorem testBit_bitReverse {a n i : Nat} (h : i < n) : (bitReverse a n).testBit i = a.testBit (n - 1 - i) := by
  induction n generalizing a i with
  | zero => omega
  | succ n ih =>
    rw [bitReverse, Nat.mul_comm, Nat.testBit_two_pow_mul_add _ (bitReverse_lt _ _)]
    split
    · next hi =>
      rw [ih hi, Nat.testBit_div_two]
      congr 1; omega
    · obtain rfl : i = n := by omega
      simp [bits, Nat.testBit_zero]

/-! ## The word functions of R113 -/

theorem fClz_eq (x : Word) : fClz x = BitVec.ofNat 32 (if x = 0 then 32 else 31 - Nat.log2 (un x)) := by
  have h0 : x.toNat = 0 ↔ x = 0 := by rw [← BitVec.toNat_inj]; rfl
  simp only [fClz, leadingZeros_eq x.isLt, h0, un]

theorem fPopc_eq (x : Word) : fPopc x = BitVec.ofNat 32 ((List.range 32).filter (fun i => x.getLsbD i)).length := by
  rw [fPopc, popCount_eq]; rfl

theorem fBrev_eq (x : Word) : fBrev x = x.reverse := by
  refine BitVec.eq_of_getLsbD_eq (fun i hi => ?_)
  rw [fBrev, BitVec.getLsbD_ofNat, testBit_bitReverse hi, BitVec.getLsbD_reverse, BitVec.getMsbD_eq_getLsbD]
  rfl

/-- `Sign` of R8 is the signed value of the low bits. -/
theorem sign_eq_toInt {n w : Nat} (x : BitVec n) (hw : 0 < w) : sign x.toNat w = (x.truncate w).toInt := by
  obtain ⟨k, rfl⟩ : ∃ k, w = k + 1 := ⟨w - 1, by omega⟩
  rw [BitVec.toInt_eq_toNat_cond, BitVec.truncate_eq_setWidth, BitVec.toNat_setWidth]
  have hp : 2 ^ (k + 1) = 2 * 2 ^ k := by rw [Nat.pow_succ, Nat.mul_comm]
  simp only [sign, Nat.add_sub_cancel, hp]
  split <;> split <;> omega

theorem fExtS_eq {w : Nat} (x : Word) (hw : 0 < w) : fExtS w x = (x.truncate w).signExtend 32 := by
  rw [fExtS, sign_eq_toInt x hw]; rfl

theorem fExtN_eq {w : Nat} (x : Word) : fExtN w x = (x.truncate w).zeroExtend 32 := by
  apply BitVec.eq_of_toNat_eq
  simp [fExtN]

theorem mul_eq_ofNat (x y : Word) : BitVec.ofNat 32 (un x * un y) = x * y := (BitVec.mul_def).symm

/-! ## One source (R113) -/

/-- Every one-source member means its row of the table. -/
theorem exec_oneSource : ∀ p ∈ oneSourceOps, ∀ d a t g s, exec (p.1 d a t g) s = alu1 d a t g p.2 s := by
  simp only [oneSourceOps, ← fClz_eq, ← fPopc_eq, ← fBrev_eq, ← fExtS_eq (w := 8) _ (by decide),
    ← fExtS_eq (w := 16) _ (by decide), ← fExtN_eq, List.forall_mem_cons, List.not_mem_nil, false_imp_iff, implies_true, and_true]
  and_intros
  all_goals intros; rfl

/-- Settles O1: every member is a one-source lane-local write whose word function is its row. -/
theorem oneSourceResult : Obligations.OneSourceResult := by
  intro p hp d a t g
  exact computes_of_laneSet (exec_oneSource p hp d a t g)

/-! ## Two sources (R112, R113) and bfi -/

/-- Every two-source member means its row of the table. -/
theorem exec_twoSource : ∀ p ∈ twoSourceOps, ∀ d a b t g s, exec (p.1 d a b t g) s = alu2 d a b t g p.2 s := by
  simp only [twoSourceOps, mul_eq_ofNat, List.forall_mem_cons, List.not_mem_nil, false_imp_iff, implies_true, and_true]
  and_intros
  all_goals intros; rfl

theorem twoSourceResult_holds : twoSourceResult := by
  intro p hp d a b t g
  exact computes_of_laneSet (exec_twoSource p hp d a b t g)

/-- The bits that the control word of bfi selects are those of the value, moved to the field; the others stay. -/
theorem getLsbD_fBfi (x v k : Word) {i : Nat} (hi : i < 32) :
    (fBfi x v k).getLsbD i =
      if fieldPos k ≤ i ∧ i < fieldPos k + fieldWidth k then v.getLsbD (i - fieldPos k) else x.getLsbD i := by
  have hm : (decide (fieldPos k ≤ i) && decide (i - fieldPos k < fieldWidth k)) =
      decide (fieldPos k ≤ i ∧ i < fieldPos k + fieldWidth k) := by
    rw [← Bool.decide_and]
    exact decide_eq_decide.mpr (by omega)
  simp only [fBfi, BitVec.getLsbD_or, BitVec.getLsbD_and, BitVec.getLsbD_not, BitVec.getLsbD_ofNat, BitVec.getLsbD_shiftLeft,
    Nat.testBit_mul_two_pow, Nat.testBit_two_pow_sub_one, hm, hi, decide_true, Bool.true_and]
  split
  · next h => simp [h, Nat.not_lt.mpr h.1]
  · next h => simp [h]

theorem bitFieldInsert_holds : bitFieldInsert := by
  intro d a b t g
  exact ⟨fBfi, computes_of_laneSet (fun _ => rfl), fun x v k i hi => getLsbD_fBfi x v k hi⟩

/-- Settles O2: the table of the two-source members, and bfi bit by bit. -/
theorem twoSources : Obligations.TwoSources := ⟨twoSourceResult_holds, bitFieldInsert_holds⟩

/-! ## The immediate families (R115, R116) -/

theorem exec_immediate : ∀ p ∈ immediateOps, ∀ d a i g s, exec (p.1 d a i g) s = aluImm d a i g p.2 s := by
  simp only [immediateOps, List.forall_mem_cons, List.not_mem_nil, false_imp_iff, implies_true, and_true]
  and_intros
  all_goals intros; rfl

theorem immediate_eq_immOf {n : Nat} (c : Ctx) (i : BitVec n) : immediate c i = immOf c i := rfl

/-- The amount of shi has five bits, so each of its four shifts is below the word's width. -/
theorem shiftOp_eq (o : BitVec 2) (x : Word) (n : BitVec 5) :
    shiftOp o x (n.zeroExtend 32) =
      if o = 0 then x <<< n.toNat else if o = 1 then x >>> n.toNat else if o = 2 then x.sshiftRight n.toNat
      else x.rotateLeft n.toNat := by
  have hlt : n.toNat < 32 := n.isLt
  have hn : (n.zeroExtend 32).toNat = n.toNat := by
    rw [BitVec.toNat_setWidth]; exact Nat.mod_eq_of_lt (by omega)
  obtain rfl | rfl | rfl | rfl : o = 0 ∨ o = 1 ∨ o = 2 ∨ o = 3 := by revert o; decide
  · simp [shiftOp, fShl, hn, hlt]
  · simp [shiftOp, fShr, hn, hlt]
  · simp [shiftOp, fSar, hn, hlt]
  · simp [shiftOp, fRot, hn, Nat.mod_eq_of_lt hlt]

/-- Settles O3: the four families with a source, movi, and shi by its four operations. -/
theorem immediateResult : Obligations.ImmediateResult := by
  refine ⟨fun p hp d a i g => ?_, fun d i g => ?_, fun d a o n g => ?_⟩
  · exact computes_of_laneBody (exec_immediate p hp d a i g) (fun c _ _ th => by rw [immediate_eq_immOf])
  · exact computes_of_laneBody (fun _ => rfl) (fun c _ _ th => by rw [immediate_eq_immOf])
  · simp only [← shiftOp_eq]
    exact computes_of_laneSet (fun _ => rfl)

/-! ## Comparisons (R118, R119) -/

theorem exec_compare : ∀ p ∈ compareOps, ∀ d a b g s, exec (p.1 d a b g) s = cmp2 d a b g p.2 s := by
  simp only [compareOps, List.forall_mem_cons, List.not_mem_nil, false_imp_iff, implies_true, and_true]
  and_intros
  all_goals intros; rfl

theorem exec_compareImm : ∀ p ∈ compareImmOps, ∀ d a i g s, exec (p.1 d a i g) s = cmpImm d a i g p.2 s := by
  simp only [compareImmOps, List.forall_mem_cons, List.not_mem_nil, false_imp_iff, implies_true, and_true]
  and_intros
  all_goals intros; rfl

/-- Settles O4: every condition is its row, on two registers and on a register and the immediate. -/
theorem compareResult : Obligations.CompareResult := by
  refine ⟨fun p hp d a b g => ?_, fun p hp d a i g => ?_⟩
  · exact computes_of_laneSet (exec_compare p hp d a b g)
  · exact computes_of_laneBody (exec_compareImm p hp d a i g) (fun c _ _ th => by rw [immediate_eq_immOf])

/-! ## The 64-bit members (R125, R126) -/

theorem cond64_eq (k : BitVec 3) (x y : DWord) :
    cond64 k x y =
      if k = 0 then x == y else if k = 1 then x != y
      else if k = 2 then decide (x.toInt < y.toInt) else if k = 3 then decide (x.toInt ≤ y.toInt)
      else if k = 4 then decide (x.toInt > y.toInt) else if k = 5 then decide (x.toInt ≥ y.toInt)
      else if k = 6 then decide (x.toNat < y.toNat) else decide (x.toNat ≥ y.toNat) := by
  obtain rfl | rfl | rfl | rfl | rfl | rfl | rfl | rfl :
    k = 0 ∨ k = 1 ∨ k = 2 ∨ k = 3 ∨ k = 4 ∨ k = 5 ∨ k = 6 ∨ k = 7 := by revert k; decide
  all_goals rfl

/-- Settles O6: add64, sub64 and lea are pair writes by their definition, cmp64 by the eight conditions. -/
theorem pairResult : Obligations.PairResult := by
  refine ⟨fun d a b t g => ?_, fun d a b t g => ?_, fun d a b t g => ?_, fun k p a b g => ?_⟩
  · exact computes_of_laneSet (fun _ => rfl)
  · exact computes_of_laneSet (fun _ => rfl)
  · exact computes_of_laneSet (fun _ => rfl)
  · simp only [← cond64_eq]
    exact computes_of_laneSet (fun _ => rfl)

end Sys2Proof.Machine

/-!
SUPPORT. Lanes that trap with details of their own, and the index registers (R92, R128, R129): the fields they hold, the number
an indexed access forms, what one lane of it does.
-/

namespace Sys2Proof.Machine

/-! ## Lanes that trap, each with a trap of its own -/

/-- The trap of a lane, given by its thread. -/
def laneTrap (s : State) (fk : Nat) (x : Nat → Thread → Trap) (l : Nat) : Trap :=
  (s.thread? fk l).elim (trap .illegal 0) (x l)

/-- The results of lanes that all trap. -/
def trapResults (s : State) (fk : Nat) (x : Nat → Thread → Trap) (ls : List Nat) : List (Nat × Res) :=
  ls.map (fun l => (l, .trap (laneTrap s fk x l)))

theorem laneTrap_of_thread {s : State} {fk l : Nat} {th : Thread} (x : Nat → Thread → Trap) (h : s.thread? fk l = some th) :
    laneTrap s fk x l = x l th := by
  simp [laneTrap, h]

theorem resOf_trapResults (s : State) (fk : Nat) (x : Nat → Thread → Trap) (ls : List Nat) (l : Nat) :
    resOf (trapResults s fk x ls) l = if l ∈ ls then .trap (laneTrap s fk x l) else .done :=
  resOf_map ls (fun l => .trap (laneTrap s fk x l)) l

theorem groupStall_trapResults (s : State) (fk : Nat) (x : Nat → Thread → Trap) (ls : List Nat) :
    groupStall (trapResults s fk x ls) = none := by
  induction ls with
  | nil => rfl
  | cons a ls ih => exact ih

theorem trapLanes_trapResults (s : State) (fk : Nat) (x : Nat → Thread → Trap) (ls : List Nat) :
    (trapLanes (trapResults s fk x ls)).map (·.1) = ls := by
  induction ls with
  | nil => rfl
  | cons a ls ih => exact congrArg (a :: ·) ih

/-- Lanes of a lane-local instruction that all trap leave the state as it is. -/
theorem foldl_runLane_traps {n fk : Nat} {us : List RegUse} {f : Nat → Thread → LaneOut} {s : State} {x : Nat → Thread → Trap}
    {ls : List Nat} (h : ∀ l ∈ ls, ∃ th, s.thread? fk l = some th ∧ regTrap n th us = none ∧ f l th = .trap (x l th))
    (rs : List (Nat × Res)) : ls.foldl (runLane n fk us f) (s, rs) = (s, rs ++ trapResults s fk x ls) := by
  induction ls generalizing rs with
  | nil => simp [trapResults]
  | cons a ls ih =>
    obtain ⟨th, ht, hr, hf⟩ := h a List.mem_cons_self
    have e : runLane n fk us f (s, rs) a = (s, rs ++ [(a, .trap (laneTrap s fk x a))]) := by
      simp [runLane, ht, hr, hf, laneTrap]
    rw [List.foldl_cons, e, ih (fun l hl => h l (List.mem_cons_of_mem _ hl))]
    simp [trapResults]

/-- Lanes that enter the handler one after another, each with its own trap. -/
theorem foldl_takeTrapEach {c : Ctx} {hd : DWord} (hh : c.ld.handler = some hd) (fnpc : DWord) (m : Nat) (x : Nat → Trap)
    (ls : List Nat) (hn : ls.Nodup) (hl : ∀ l ∈ ls, l < 8) (s : State)
    (hx : ∀ l ∈ ls, ∃ th, s.thread? c.fk l = some th ∧ th.hmode = false) :
    let t := ls.foldl (fun s l => takeTrap c fnpc m s l (x l)) s
    t = { s with threads := t.threads, flights := t.flights } ∧
    (∀ k l, l < 8 → t.thread? k l = if k = c.fk ∧ l ∈ ls then
      (s.thread? k l).map (fun th => th.enterHandler hd (x l) m c.start fnpc) else s.thread? k l) ∧
    (∀ k, k ≠ c.fk → tget t.flights k = tget s.flights k) ∧
    (∀ f, tget s.flights c.fk = some f → tget t.flights c.fk = some ((List.range ls.length).foldl (fun f _ => f.countTrap) f)) := by
  induction ls generalizing s with
  | nil => exact ⟨rfl, fun k l _ => by simp, fun _ _ => rfl, fun f h => h⟩
  | cons a ls ih =>
    obtain ⟨ha, hn⟩ := List.nodup_cons.mp hn
    have hl' : ∀ l ∈ ls, l < 8 := fun l h => hl l (List.mem_cons_of_mem _ h)
    -- lane `a` by itself
    obtain ⟨a1, a2, a3, a4⟩ := foldl_takeTrap hh fnpc m (x a) [a] (List.pairwise_singleton _ a)
      (fun l h => hl l (List.mem_singleton.mp h ▸ List.mem_cons_self)) s
      (fun l h => hx l (List.mem_singleton.mp h ▸ List.mem_cons_self))
    simp only [List.foldl_cons, List.foldl_nil, List.mem_singleton, List.length_singleton] at a1 a2 a3 a4 ⊢
    have same : ∀ l ∈ ls, (takeTrap c fnpc m s a (x a)).thread? c.fk l = s.thread? c.fk l := by
      intro l h
      rw [a2 c.fk l (hl' l h), if_neg]
      rintro ⟨_, rfl⟩; exact ha h
    obtain ⟨i1, i2, i3, i4⟩ := ih hn hl' (takeTrap c fnpc m s a (x a)) (fun l h => by
      obtain ⟨y, y1, y2⟩ := hx l (List.mem_cons_of_mem _ h)
      exact ⟨y, (same l h).trans y1, y2⟩)
    refine ⟨?_, fun k l hk => ?_, fun k hk => ?_, fun f hf => ?_⟩
    · rw [i1, a1]
    · rw [i2 k l hk, a2 k l hk]
      by_cases hla : l = a
      · subst hla; simp [ha]
      · simp [hla]
    · rw [i3 k hk, a3 k hk]
    · rw [i4 _ (a4 f hf)]
      simp only [List.length_cons, List.range_succ_eq_map, List.foldl_cons, List.foldl_map, List.range_zero, List.map_nil,
        List.foldl_nil]

/-- The traps of an instruction whose trapping lanes are `ls`: they are taken lane by lane. -/
theorem takeOutcomes_traps {s0 s : State} {c : Ctx} {ls : List Nat} (fnpc : DWord) (x : Nat → Thread → Trap)
    (hn : c.lanes.Nodup) (hsub : ls.Sublist c.lanes) :
    takeOutcomes c fnpc (trapResults s0 c.fk x ls) s =
      ls.foldl (fun s l => takeTrap c fnpc (laneMask ls).toNat s l (laneTrap s0 c.fk x l)) s := by
  unfold takeOutcomes
  refine foldl_sublist hsub hn (fun s l hl => ?_) (fun s l _ hl => ?_)
  · simp only [takeOutcome, resOf_trapResults, if_pos hl, trapLanes_trapResults]
  · simp only [takeOutcome, resOf_trapResults, if_neg hl]

/-- An instruction whose guard-true lanes `ls` all trap, each as its thread says (R105–R107). -/
theorem conclude_entersEach {s : State} {c : Ctx} {ls : List Nat} {hd : DWord} {x : Nat → Thread → Trap}
    (hc : s.ctx? = some c) (hsub : ls.Sublist c.lanes) (hh : c.ld.handler = some hd)
    (hm : ∀ l ∈ ls, ∀ th, s.thread? c.fk l = some th → th.hmode = false) :
    EntersEach (nextPc c.pc) s (conclude c s (trapResults s c.fk x ls)) c ls hd x := by
  have hl8 : ∀ l ∈ ls, l < 8 := fun l h => ctx_lt hc (hsub.mem h)
  -- the lanes settle, then trap, then the slot passes
  have e : conclude c s (trapResults s c.fk x ls) =
      adviseSwap c (trapResults s c.fk x ls) (passSlot c (trapResults s c.fk x ls)
        (ls.foldl (fun t l => takeTrap c (nextPc c.pc) (laneMask ls).toNat t l (laneTrap s c.fk x l))
          (c.lanes.foldl (fun t l => t.modThread c.fk l (settleThread c (resOf (trapResults s c.fk x ls) l))) s))) := by
    unfold conclude concludeAt wholeGroup
    simp only [groupStall_trapResults, takeOutcomes_traps _ x (ctx_nodup hc) hsub]
    rfl
  rw [e]
  obtain ⟨a1, a2⟩ := foldl_modThread c.fk (fun l => settleThread c (resOf (trapResults s c.fk x ls) l)) c.lanes
    (ctx_nodup hc) (fun l hl => ctx_lt hc hl) s
  generalize c.lanes.foldl (fun t l => t.modThread c.fk l (settleThread c (resOf (trapResults s c.fk x ls) l))) s = w at *
  have keep : ∀ l ∈ ls, w.thread? c.fk l = s.thread? c.fk l := by
    intro l hl
    rw [a2 c.fk l (hl8 l hl), if_pos ⟨rfl, hsub.mem hl⟩, resOf_trapResults, if_pos hl]
    cases s.thread? c.fk l <;> rfl
  obtain ⟨b1, b2, b3, b4⟩ := foldl_takeTrapEach hh (nextPc c.pc) (laneMask ls).toNat (laneTrap s c.fk x) ls
    ((ctx_nodup hc).sublist hsub) hl8 w (fun l hl => by
      obtain ⟨th, ht⟩ := ctx_thread hc (hsub.mem hl)
      exact ⟨th, (keep l hl).trans ht, hm l hl th ht⟩)
  generalize ls.foldl (fun t l => takeTrap c (nextPc c.pc) (laneMask ls).toNat t l (laneTrap s c.fk x l)) w = v at *
  obtain ⟨p1, p2, p3⟩ := passSlot_spec c (trapResults s c.fk x ls) v
  generalize adviseSwap c (trapResults s c.fk x ls) (passSlot c (trapResults s c.fk x ls) v) = t at *
  have hth : ∀ k l, t.thread? k l = v.thread? k l := by intro k l; rw [p1]; rfl
  have hfl : w.flights = s.flights := by rw [a1]
  refine ⟨?_, fun l hl th ht => ?_, fun l hl hnl th ht => ?_, fun k l hk hn' => ?_, fun k hk => ?_, fun f hf => ?_⟩
  · rw [p1, b1, a1]
  · rw [hth, b2 c.fk l (hl8 l hl), if_pos ⟨rfl, hl⟩, keep l hl, ht, laneTrap_of_thread x ht]; rfl
  · have h8 := ctx_lt hc hl
    rw [hth, b2 c.fk l h8, if_neg (fun h => hnl h.2), a2 c.fk l h8, if_pos ⟨rfl, hl⟩, ht, resOf_trapResults, if_neg hnl]; rfl
  · have : ¬ (k = c.fk ∧ l ∈ c.lanes) := fun h => hn'.elim (fun h1 => h1 h.1) (fun h1 => h1 h.2)
    rw [hth, b2 k l hk, if_neg (fun h => this ⟨h.1, hsub.mem h.2⟩), a2 k l hk, if_neg this]
  · rw [p2 k hk, b3 k hk, hfl]
  · rw [← hfl] at hf
    obtain ⟨f', h1, h2⟩ := p3 _ (b4 f hf)
    exact ⟨f', h1, by rw [countTrap_n] at h2; exact h2⟩

/-! ## Lanes that all go on -/

theorem flagsOf_eq_zero {s : State} {c : Ctx} {g : BitVec 3} {w : Nat → Thread → BitVec 5}
    (h : ∀ l ∈ guardLanes s c g, ∀ th, s.thread? c.fk l = some th → w l th = 0) : flagsOf s c g w = 0 := by
  unfold flagsOf
  generalize guardLanes s c g = ls at h
  induction ls with
  | nil => rfl
  | cons a ls ih =>
    have ha : (s.thread? c.fk a).elim 0 (w a) = 0 := by
      cases ht : s.thread? c.fk a with
      | none => rfl
      | some th => exact h a List.mem_cons_self th ht
    rw [List.foldl_cons, ha, BitVec.or_self]
    exact ih (fun l hl => h l (List.mem_cons_of_mem _ hl))

/-- Where every guard-true lane goes on at the next word, the group does. -/
theorem lanes_of_flows {s t : State} {c : Ctx} {g : BitVec 3} {o : Nat → Thread → LaneOut} {v : Nat → Thread → Thread}
    {w : Nat → Thread → BitVec 5} (hf : Flows s t c g o)
    (ho : ∀ l ∈ guardLanes s c g, ∀ th, s.thread? c.fk l = some th → o l th = .ok (v l th) (w l th)) : Lanes s t c g v := by
  intro l hl th ht
  rw [hf l hl th ht]
  by_cases hp : th.pred g.toNat = true
  · simp [hp, ho l ((guardLanes_mem ht).mpr ⟨hl, hp⟩) th ht, LaneOut.thread]
  · simp [hp]

/-! ## The fields of an index register (R128) -/

/-- The index field moved by a signed step is what R128 states, modulo 256. -/
theorem setIndex_step (x : Word) (b : BitVec 6) :
    setIndex x (bits x.toNat 0 8 + (b.signExtend 8).toNat) =
      BitVec.ofNat 32 (bits (un x) 8 8 * 256 + (((bits (un x) 0 8 : Nat) + b.toInt) % 256).toNat) := by
  have hb : ((b.signExtend 8).toNat : Int) = b.toInt % 256 := by
    show ((BitVec.ofInt 8 b.toInt).toNat : Int) = _
    rw [BitVec.toNat_ofInt]
    omega
  rw [setIndex, un]
  congr 2
  omega

theorem indexRegister_holds : indexRegister := by
  refine ⟨fun k a g => ?_, fun k b g => ?_, fun k a g => ?_⟩
  · exact computes_of_laneSet (fun _ => rfl)
  · simp only [← setIndex_step]
    exact computes_of_laneSet (fun _ => rfl)
  · exact computes_of_laneSet (fun _ => rfl)

/-! ## The number that an indexed access forms (R92, R129) -/

/-- The number formed: the index field plus the offset. -/
def formedNumber (th : Thread) (k off : Nat) : Nat := bits (un (th.xreg k)) 0 8 + off

section
variable {N k off w : Nat} {th : Thread}

theorem formIndexed_misaligned (h : formedNumber th k off % w ≠ 0) :
    formIndexed N th k off w = .error (trap .illegalRegister (formedNumber th k off % 256)) := if_pos h

theorem formIndexed_beyond (h : formedNumber th k off % w = 0) (hb : effLimit N (th.xreg k) ≤ formedNumber th k off + w - 1) :
    formIndexed N th k off w = .error (trap .indexBounds k) :=
  (if_neg (not_not_intro h)).trans (if_pos hb)

theorem formIndexed_ok (h : formedNumber th k off % w = 0) (hb : formedNumber th k off + w - 1 < effLimit N (th.xreg k)) :
    formIndexed N th k off w = .ok (formedNumber th k off) :=
  (if_neg (not_not_intro h)).trans (if_neg (Nat.not_le.mpr hb))

/-- Whatever number is formed, it is the index plus the offset. -/
theorem formedNumber_of_ok {r : Nat} (h : formIndexed N th k off w = .ok r) : r = formedNumber th k off := by
  by_cases h1 : formedNumber th k off % w = 0
  · by_cases h2 : effLimit N (th.xreg k) ≤ formedNumber th k off + w - 1
    · rw [formIndexed_beyond h1 h2] at h; cases h
    · rw [formIndexed_ok h1 (Nat.lt_of_not_le h2)] at h; cases h; rfl
  · rw [formIndexed_misaligned h1] at h; cases h

end

/-- The lease trap is that of the first leased register of the list. -/
theorem leaseTrap_eq_find (th : Thread) (rs : List Nat) : leaseTrap th rs = (rs.find? th.leased).map (trap .lease) := by
  induction rs with
  | nil => rfl
  | cons r rs ih =>
    rw [leaseTrap, List.find?_cons, ih]
    cases th.leased r <;> rfl

theorem illegalReg_direct {N n : Nat} {d : BitVec 6} (ha : d.toNat % n = 0) (hb : d.toNat + n ≤ N) :
    illegalReg N [direct d n] = none := by
  simp [illegalReg, direct, ha, Nat.not_lt.mpr hb]

theorem illegalReg_direct_misaligned {N n : Nat} {d : BitVec 6} (ha : d.toNat % n ≠ 0) :
    illegalReg N [direct d n] = some (trap .illegalRegister d.toNat) := by
  simp [illegalReg, direct, ha]

theorem illegalReg_direct_beyond {N n : Nat} {d : BitVec 6} (ha : d.toNat % n = 0) (hb : N < d.toNat + n) :
    illegalReg N [direct d n] = some (trap .illegalRegister (max d.toNat N)) := by
  simp [illegalReg, direct, ha, hb]

/-! ## One lane of an indexed access (R129) -/

/-- The registers that an indexed access of `n` registers uses: the direct ones, then those from the number formed. -/
def indexedRegs (th : Thread) (d k off n : Nat) : List Nat :=
  (List.range n).map (fun i => d + i) ++ (List.range n).map (fun i => formedNumber th k off + i)

/-- A lane of an indexed access awaits a load into one of its registers. -/
def indexedWaits (N : Nat) (d : BitVec 6) (w k : BitVec 2) (o : BitVec 6) (th : Thread) : Bool :=
  match formIndexed N th k.toNat o.toNat (idxWords w) with
  | .error _ => false
  | .ok r => th.awaits (allRegs [direct d (idxWords w)] ++ (List.range (idxWords w)).map (fun i => r + i))

/-- What an indexed access does to one lane. -/
def indexedOut (N : Nat) (d : BitVec 6) (w k : BitVec 2) (o : BitVec 6) (f : Nat → Nat → Thread → Thread) (th : Thread) : LaneOut :=
  match illegalReg N [direct d (idxWords w)] with
  | some x => .trap x
  | none =>
    match formIndexed N th k.toNat o.toNat (idxWords w) with
    | .error x => .trap x
    | .ok r =>
      match leaseTrap th (allRegs [direct d (idxWords w)] ++ (List.range (idxWords w)).map (fun i => r + i)) with
      | some x => .trap x
      | none => .ok (f r (idxWords w) th) 0

/-- An indexed access over the lanes of its guard. -/
def indexedBody (d : BitVec 6) (w k : BitVec 2) (o : BitVec 6) (f : Nat → Nat → Thread → Thread) : Body := fun c ls s =>
  if ls.any (fun l => match s.thread? c.fk l with
      | none => false
      | some th => indexedWaits c.ld.regs d w k o th) then
    (s, ls.map (fun l => (l, .hold .register)))
  else ls.foldl (runLane c.ld.regs c.fk [] (fun _ th => indexedOut c.ld.regs d w k o f th)) (s, [])

theorem indexed_eq_issueP (d : BitVec 6) (w k : BitVec 2) (o : BitVec 6) (g : BitVec 3) (f : Nat → Nat → Thread → Thread)
    (s : State) : indexed d w k o g f s = .next (issueP s HintUse.none g [] (indexedBody d w k o f)) := rfl

/-- An indexed access none of whose lanes awaits a load runs its lanes one after another. -/
theorem indexedBody_runs {d : BitVec 6} {w k : BitVec 2} {o : BitVec 6} {f : Nat → Nat → Thread → Thread} {c : Ctx} {ls : List Nat}
    {s : State} (h : ∀ l ∈ ls, ∀ th, s.thread? c.fk l = some th → indexedWaits c.ld.regs d w k o th = false) :
    indexedBody d w k o f c ls s =
      ls.foldl (runLane c.ld.regs c.fk [] (fun _ th => indexedOut c.ld.regs d w k o f th)) (s, []) := by
  refine if_neg ?_
  rw [Bool.not_eq_true, List.any_eq_false]
  intro l hl
  cases ht : s.thread? c.fk l with
  | none => simp
  | some th => simp [h l hl th ht]

section
variable {N : Nat} {d : BitVec 6} {w k : BitVec 2} {o : BitVec 6} {f : Nat → Nat → Thread → Thread} {th : Thread}

theorem indexed_regs_eq (d : BitVec 6) (n r : Nat) :
    allRegs [direct d n] ++ (List.range n).map (fun i => r + i) =
      (List.range n).map (fun i => d.toNat + i) ++ (List.range n).map (fun i => r + i) := by
  simp [allRegs, direct, RegUse.regs]

/-- A lane whose registers no load awaits does not wait. -/
theorem indexedWaits_of_free (h : th.awaits (indexedRegs th d.toNat k.toNat o.toNat (2 ^ w.toNat)) = false) :
    indexedWaits N d w k o th = false := by
  unfold indexedWaits
  cases hr : formIndexed N th k.toNat o.toNat (idxWords w) with
  | error x => rfl
  | ok r => simp only [indexed_regs_eq, formedNumber_of_ok hr]; exact h

/-- A lane whose formed number is refused does not wait. -/
theorem indexedWaits_of_error {x : Trap} (h : formIndexed N th k.toNat o.toNat (2 ^ w.toNat) = .error x) :
    indexedWaits N d w k o th = false := by
  unfold indexedWaits idxWords; rw [h]

theorem indexedOut_of_illegal {x : Trap} (h : illegalReg N [direct d (2 ^ w.toNat)] = some x) :
    indexedOut N d w k o f th = .trap x := by
  unfold indexedOut idxWords; rw [h]

theorem indexedOut_of_error {x : Trap} (hd : illegalReg N [direct d (2 ^ w.toNat)] = none)
    (h : formIndexed N th k.toNat o.toNat (2 ^ w.toNat) = .error x) : indexedOut N d w k o f th = .trap x := by
  unfold indexedOut idxWords; simp only [hd, h]

/-- A lane whose numbers are allowed takes the lease trap of its first leased register, or makes its access. -/
theorem indexedOut_of_ok (hd : illegalReg N [direct d (2 ^ w.toNat)] = none)
    (h : formIndexed N th k.toNat o.toNat (2 ^ w.toNat) = .ok (formedNumber th k.toNat o.toNat)) :
    indexedOut N d w k o f th =
      ((indexedRegs th d.toNat k.toNat o.toNat (2 ^ w.toNat)).find? th.leased).elim
        (.ok (f (formedNumber th k.toNat o.toNat) (2 ^ w.toNat) th) 0) (fun r => .trap (trap .lease r)) := by
  unfold indexedOut idxWords
  simp only [hd, h, leaseTrap_eq_find, indexed_regs_eq]
  unfold indexedRegs
  cases List.find? th.leased _ <;> rfl

end

/-! ## Indexed accesses over the group -/

/-- ldv on a thread: the `n` registers from the number `r` formed go to the direct ones. -/
def ldvEffect (d : BitVec 6) (r n : Nat) (th : Thread) : Thread := th.setRegs d.toNat (th.regList r n)

/-- stv on a thread: the direct registers go to those from `r`. -/
def stvEffect (d : BitVec 6) (r n : Nat) (th : Thread) : Thread := th.setRegs r (th.regList d.toNat n)

theorem exec_ldv (d : BitVec 6) (w k : BitVec 2) (o : BitVec 6) (g : BitVec 3) (s : State) :
    exec (.ldv d w k o g) s = indexed d w k o g (ldvEffect d) s := rfl

theorem exec_stv (d : BitVec 6) (w k : BitVec 2) (o : BitVec 6) (g : BitVec 3) (s : State) :
    exec (.stv d w k o g) s = indexed d w k o g (stvEffect d) s := rfl

/-- An indexed access whose numbers are allowed and whose registers are free changes every guard-true lane. -/
theorem indexed_lanes {d : BitVec 6} {w k : BitVec 2} {o : BitVec 6} {g : BitVec 3} {s : State} {c : Ctx}
    (f : Nat → Nat → Thread → Thread) (hi : Issues s c HintUse.none g []) (hok : FormOk s c g d w k o) :
    ∃ t, indexed d w k o g f s = .next t ∧
      Lanes s t c g (fun _ th => f (formedNumber th k.toNat o.toNat) (2 ^ w.toNat) th) ∧ Keeps s t c 0 := by
  have hout : ∀ l ∈ guardLanes s c g, ∀ th, s.thread? c.fk l = some th →
      indexedOut c.ld.regs d w k o f th = .ok (f (formedNumber th k.toNat o.toNat) (2 ^ w.toNat) th) 0 := by
    intro l hl th ht
    obtain ⟨hda, hdb, hna, hnb, hls, -⟩ := hok l hl th ht
    rw [indexedOut_of_ok (illegalReg_direct hda hdb) (formIndexed_ok hna hnb),
      List.find?_eq_none.mpr (fun r hr => by simp [hls r hr])]
    rfl
  have hwait : ∀ l ∈ guardLanes s c g, ∀ th, s.thread? c.fk l = some th → indexedWaits c.ld.regs d w k o th = false := by
    intro l hl th ht
    obtain ⟨-, -, -, -, -, haw⟩ := hok l hl th ht
    exact indexedWaits_of_free haw
  obtain ⟨hf, hk⟩ := issueP_flows (us := []) hi (body := indexedBody d w k o f)
    (f := fun _ th => indexedOut c.ld.regs d w k o f th)
    (fun ls hls _ => indexedBody_runs (hls ▸ hwait)) (fun l hl th ht => ⟨rfl, by rw [hout l hl th ht]; rfl⟩)
  refine ⟨_, indexed_eq_issueP d w k o g f s, lanes_of_flows (w := fun _ _ => 0) hf hout, ?_⟩
  rw [flagsOf_eq_zero (fun l hl th ht => by rw [hout l hl th ht]; rfl)] at hk
  exact hk

theorem indexedRegisters_holds : indexedRegisters := by
  intro d w k o g s c _ hi hok
  simp only [exec_ldv, exec_stv]
  exact ⟨indexed_lanes (ldvEffect d) hi hok, indexed_lanes (stvEffect d) hi hok⟩

/-- An indexed access of which no lane waits and every guard-true lane traps: they all enter the handler. -/
theorem indexed_entersEach {d : BitVec 6} {w k : BitVec 2} {o : BitVec 6} {g : BitVec 3} {f : Nat → Nat → Thread → Thread}
    {s : State} {c : Ctx} {ls : List Nat} {hd : DWord} (x : Thread → Trap) (hi : Issues s c HintUse.none g [])
    (hls : guardLanes s c g = ls) (hne : ls ≠ []) (hh : c.ld.handler = some hd)
    (hm : ∀ l ∈ ls, ∀ th, s.thread? c.fk l = some th → th.hmode = false)
    (hx : ∀ l ∈ ls, ∀ th, s.thread? c.fk l = some th →
      indexedWaits c.ld.regs d w k o th = false ∧ indexedOut c.ld.regs d w k o f th = .trap (x th)) :
    ∃ t, indexed d w k o g f s = .next t ∧ EntersEach (nextPc c.pc) s t c ls hd (fun _ => x) := by
  have hsub : ls.Sublist c.lanes := hls ▸ guardLanes_sub s c g
  have hb : indexedBody d w k o f c ls s = (s, trapResults s c.fk (fun _ => x) ls) := by
    rw [indexedBody_runs (fun l hl th ht => (hx l hl th ht).1), foldl_runLane_traps (x := fun _ => x) (fun l hl => ?_),
      List.nil_append]
    obtain ⟨th, ht⟩ := ctx_thread hi.ctx (hsub.mem hl)
    exact ⟨th, ht, rfl, (hx l hl th ht).2⟩
  refine ⟨_, indexed_eq_issueP d w k o g f s, ?_⟩
  rw [issueP_eq hi hls hne, hb]
  exact conclude_entersEach hi.ctx hsub hh hm

theorem indexedTraps_holds : indexedTraps := by
  intro d w k o g _ i hmem s c ls hd hi hls hne hh hm
  obtain ⟨f, he⟩ : ∃ f, exec i s = indexed d w k o g f s := by
    simp only [List.mem_cons, List.not_mem_nil, or_false] at hmem
    obtain rfl | rfl := hmem
    · exact ⟨_, exec_ldv d w k o g s⟩
    · exact ⟨_, exec_stv d w k o g s⟩
  simp only [he]
  have enters := fun (x : Thread → Trap) => indexed_entersEach (d := d) (w := w) (k := k) (o := o) (f := f) x hi hls hne hh hm
  refine ⟨fun hfree hda => ?_, fun hfree hda hdb => ?_, fun hdir hall => ?_, fun hdir hall => ?_, fun hfree hdir hall hfirst => ?_⟩
  · exact enters _ (fun l hl th ht =>
      ⟨indexedWaits_of_free (hfree l hl th ht), indexedOut_of_illegal (illegalReg_direct_misaligned hda)⟩)
  · exact enters _ (fun l hl th ht =>
      ⟨indexedWaits_of_free (hfree l hl th ht), indexedOut_of_illegal (illegalReg_direct_beyond hda hdb)⟩)
  · refine enters _ (fun l hl th ht => ?_)
    have hform := formIndexed_misaligned (N := c.ld.regs) (hall l hl th ht)
    exact ⟨indexedWaits_of_error hform, indexedOut_of_error (illegalReg_direct hdir.1 hdir.2) hform⟩
  · refine enters _ (fun l hl th ht => ?_)
    obtain ⟨hna, hnb⟩ := hall l hl th ht
    have hform := formIndexed_beyond hna hnb
    exact ⟨indexedWaits_of_error hform, indexedOut_of_error (illegalReg_direct hdir.1 hdir.2) hform⟩
  · refine enters _ (fun l hl th ht => ⟨indexedWaits_of_free (hfree l hl th ht), ?_⟩)
    obtain ⟨hna, hnb⟩ := hall l hl th ht
    obtain ⟨r, hr⟩ := Option.ne_none_iff_exists'.mp (hfirst l hl th ht)
    have hr' : (indexedRegs th d.toNat k.toNat o.toNat (2 ^ w.toNat)).find? th.leased = some r := hr
    rw [indexedOut_of_ok (illegalReg_direct hdir.1 hdir.2) (formIndexed_ok hna hnb), hr', hr]
    rfl

/-- Settles O7: the fields of the index registers, the accesses through them, and the traps of each lane of such an access. -/
theorem indexRegisters : Obligations.IndexRegisters := ⟨indexRegister_holds, indexedRegisters_holds, indexedTraps_holds⟩

end Sys2Proof.Machine

/-!
SUPPORT. The floating-point, narrow and compensated instructions (07_float_instr.md): each is a lane-local body of one of four
shared forms (flop3, flop2, convert, fcompare) or a body of its own, given the arithmetic that its table row names.
-/

namespace Sys2Proof.Machine

/-! ## The shared forms complete -/

section
variable {i : Instr} {d a b : BitVec 6} {t : BitVec 1} {g : BitVec 3}

theorem computes_of_flop3 {f : Rm → Word → Word → Word → Word × FFlags} (he : ∀ s, exec i s = flop3 d a b t g f s) :
    Computes i HintUse.rounding g [] [one d, one a, one b]
      (fun c _ th => th.result (t == 1) d.toNat (f c.rm (th.reg a.toNat) (th.reg b.toNat) (th.reg d.toNat)).1)
      (fun c _ th => (f c.rm (th.reg a.toNat) (th.reg b.toNat) (th.reg d.toNat)).2) :=
  computes_of_laneBody he (fun _ _ _ _ => rfl)

theorem computes_of_flop2 {f : Rm → Word → Word × FFlags} (he : ∀ s, exec i s = flop2 d a t g f s) :
    Computes i HintUse.rounding g [] [one d, one a]
      (fun c _ th => th.result (t == 1) d.toNat (f c.rm (th.reg a.toNat)).1) (fun c _ th => (f c.rm (th.reg a.toNat)).2) :=
  computes_of_laneBody he (fun _ _ _ _ => rfl)

theorem computes_of_convert {f : Rm → Bool → Word → Word → Word × FFlags} (he : ∀ s, exec i s = convert d a g f s) :
    Computes i HintUse.convert g [] [one d, one a]
      (fun c _ th => th.setReg d.toNat (f c.rm c.sat (th.reg a.toNat) (th.reg d.toNat)).1)
      (fun c _ th => (f c.rm c.sat (th.reg a.toNat) (th.reg d.toNat)).2) :=
  computes_of_laneBody he (fun _ _ _ _ => rfl)

theorem computes_of_fcompare {p : BitVec 3} {sg : Bool} {f : Option Ordering → Bool}
    (he : ∀ s, exec i s = fcompare p a b g sg f s) :
    Computes i HintUse.rounding g [] [one a, one b]
      (fun _ _ th => th.setPred p.toNat (f (fRel fp32 (un (th.reg a.toNat)) (un (th.reg b.toNat)))))
      (fun _ _ th => cmpFlags fp32 sg (un (th.reg a.toNat)) (un (th.reg b.toNat))) :=
  computes_of_laneBody he (fun _ _ _ _ => rfl)

end

/-- A member without a transient bit writes the file. -/
theorem Thread.result_zero (th : Thread) (r : Nat) (w : Word) : th.result ((0 : BitVec 1) == 1) r w = th.setReg r w := rfl

/-! ## FOP and FSPEC (R134, R141) -/

/-- Every member on two operands means its row of the table. -/
theorem exec_floatOp : ∀ p ∈ floatOps, ∀ d a b t g s,
    exec (p.1 d a b t g) s = flop3 d a b t g (fun rm x y z => wordOf (p.2 rm (un x) (un y) (un z))) s := by
  simp only [floatOps, List.forall_mem_cons, List.not_mem_nil, false_imp_iff, implies_true, and_true]
  and_intros
  all_goals intros; rfl

/-- Every member on one operand means its row of the table. -/
theorem exec_floatUnary : ∀ p ∈ floatUnary, ∀ d a t g s,
    exec (p.1 d a t g) s = flop2 d a t g (fun rm x => wordOf (p.2 rm (un x))) s := by
  simp only [floatUnary, List.forall_mem_cons, List.not_mem_nil, false_imp_iff, implies_true, and_true]
  and_intros
  all_goals intros; rfl

/-- Settles O8: every member is one of the two shared forms on its arithmetic. -/
theorem floatResult : Obligations.FloatResult :=
  ⟨fun p hp d a b t g => computes_of_flop3 (exec_floatOp p hp d a b t g),
   fun p hp d a t g => computes_of_flop2 (exec_floatUnary p hp d a t g)⟩

/-! ## HOP (R137, R138) -/

theorem halfOf_zero (w : Word) : halfOf w 0 = un w % 65536 := by simp [halfOf, bits, un]

theorem halfOf_one (w : Word) : halfOf w 1 = un w / 65536 := by
  have := w.isLt
  simp only [halfOf, bits, un]
  omega

/-- Both halves decided alone: the upper above the lower, their flags ORed. -/
theorem halves_eq (f : Nat → Nat → Nat → Nat × FFlags) (x y z : Word) :
    halves f x y z =
      (BitVec.ofNat 32 ((f (un x / 65536) (un y / 65536) (un z / 65536)).1 * 65536 +
          (f (un x % 65536) (un y % 65536) (un z % 65536)).1),
        (f (un x % 65536) (un y % 65536) (un z % 65536)).2 ||| (f (un x / 65536) (un y / 65536) (un z / 65536)).2) := by
  simp only [halves, halfOf_zero, halfOf_one]

theorem exec_halfOp : ∀ p ∈ halfOps, ∀ d a b y g s,
    exec (p.1 d a b y g) s = flop3 d a b 0 g (fun rm => halves (p.2 (halfFmt y) rm)) s := by
  simp only [halfOps, List.forall_mem_cons, List.not_mem_nil, false_imp_iff, implies_true, and_true]
  and_intros
  all_goals intros; rfl

/-- A sign operation raises no flag (R135). -/
theorem fSignOp_flags (f : Fmt) (a : Nat) (neg : Bool) : (fSignOp f a neg).2 = 0 := by
  unfold fSignOp
  split <;> rfl

/-- A sign operation on each half of v[a] completes and raises no flag. -/
theorem computes_of_halfSign {i : Instr} {d a : BitVec 6} {g : BitVec 3} {f : Nat → Nat × FFlags} (hf : ∀ x, (f x).2 = 0)
    (he : ∀ s, exec i s = flop2 d a 0 g (fun _ x => halves (fun x _ _ => f x) x 0 0) s) :
    Computes i HintUse.rounding g [] [one d, one a]
      (fun _ _ th => th.setReg d.toNat
        (BitVec.ofNat 32 ((f (un (th.reg a.toNat) / 65536)).1 * 65536 + (f (un (th.reg a.toNat) % 65536)).1)))
      (fun _ _ _ => 0) := by
  have h := computes_of_flop2 he
  simp only [halves_eq, hf, BitVec.or_self, Thread.result_zero] at h
  exact h

/-- Settles O9: every member decides its two halves by the same operation in the format of its type bit. -/
theorem halfResult : Obligations.HalfResult := by
  refine ⟨fun p hp d a b y g => ?_, fun d a y g => ?_, fun d a y g => ?_⟩
  · have h := computes_of_flop3 (exec_halfOp p hp d a b y g)
    simp only [halves_eq, Thread.result_zero] at h
    exact h
  · exact computes_of_halfSign (f := fAbsF (halfFmt y)) (fun x => fSignOp_flags _ x _) (fun _ => rfl)
  · exact computes_of_halfSign (f := fNegF (halfFmt y)) (fun x => fSignOp_flags _ x _) (fun _ => rfl)

/-! ## FCVT (R143, R144) -/

/-- A number is its bits above a field, the field, and its bits below. -/
theorem above_add_field_add_below (x lo w : Nat) :
    x / 2 ^ (lo + w) * 2 ^ (lo + w) + bits x lo w * 2 ^ lo + x % 2 ^ lo = x := by
  have hf : x / 2 ^ lo / 2 ^ w * 2 ^ w + bits x lo w = x / 2 ^ lo := Nat.div_add_mod' _ _
  calc x / 2 ^ (lo + w) * 2 ^ (lo + w) + bits x lo w * 2 ^ lo + x % 2 ^ lo
      = (x / 2 ^ lo / 2 ^ w * 2 ^ w + bits x lo w) * 2 ^ lo + x % 2 ^ lo := by
        rw [Nat.pow_add, ← Nat.div_div_eq_div_mul, Nat.add_mul, Nat.mul_comm (2 ^ lo), Nat.mul_assoc]
    _ = x := by rw [hf, Nat.div_add_mod']

/-- Replacing a part by what stands above and below it, or by taking the old part away, is one thing. -/
theorem setPart_eq_withPart (x : Word) (w k v : Nat) : setPart x w k v = withPart x w k v := by
  have hx := above_add_field_add_below x.toNat (w * k) w
  simp only [setPart, withPart, un]
  congr 1
  omega

theorem exec_widen : ∀ p ∈ widenOps, ∀ d a k g s, exec (p.1 d a k g) s = convert d a g (widen p.2.1 (k % p.2.2)) s := by
  simp only [widenOps, List.forall_mem_cons, List.not_mem_nil, false_imp_iff, implies_true, and_true]
  and_intros
  all_goals intros; rfl

theorem exec_narrow : ∀ p ∈ narrowOps, ∀ d a k g s, exec (p.1 d a k g) s = convert d a g (narrow p.2.1 (k % p.2.2)) s := by
  simp only [narrowOps, List.forall_mem_cons, List.not_mem_nil, false_imp_iff, implies_true, and_true]
  and_intros
  all_goals intros; rfl

/-- The parts of a register are as wide as the format of a widening member. -/
theorem widenOps_width : ∀ p ∈ widenOps, p.2.1.fb + p.2.1.eb + 1 = 32 / p.2.2 := by decide

theorem narrowOps_width : ∀ p ∈ narrowOps, p.2.1.fb + p.2.1.eb + 1 = 32 / p.2.2 := by decide

theorem widen_eq {f : Fmt} {n k : Nat} (hw : f.fb + f.eb + 1 = 32 / n) (hk : k < n) (rm : Rm) (sat : Bool) (x y : Word) :
    widen f (k % n) rm sat x y = wordOf (fConvert f fp32 .rne false (bits (un x) (32 / n * k) (32 / n))) := by
  simp only [widen, hw, Nat.mod_eq_of_lt hk, un]

theorem narrow_eq {f : Fmt} {n k : Nat} (hw : f.fb + f.eb + 1 = 32 / n) (hk : k < n) (rm : Rm) (sat : Bool) (x y : Word) :
    narrow f (k % n) rm sat x y =
      (withPart y (32 / n) k (fConvert fp32 f rm sat (un x)).1, (fConvert fp32 f rm sat (un x)).2) := by
  simp only [narrow, hw, Nat.mod_eq_of_lt hk, setPart_eq_withPart, un]

theorem narrowInt_eq (w k : Nat) (rm : Rm) (sat : Bool) (x y : Word) :
    narrowInt w k rm sat x y =
      (withPart y w k (un (word (fToInt fp32 rm (-(2 ^ (w - 1))) (2 ^ (w - 1) - 1) (un x)).1)),
        (fToInt fp32 rm (-(2 ^ (w - 1))) (2 ^ (w - 1) - 1) (un x)).2) := by
  simp only [narrowInt, setPart_eq_withPart, un]

/-- A narrowing member to an integer of `w` bits completes. -/
theorem computes_of_narrowInt {i : Instr} {d a : BitVec 6} {g : BitVec 3} {w k : Nat}
    (he : ∀ s, exec i s = convert d a g (narrowInt w k) s) :
    Computes i HintUse.convert g [] [one d, one a]
      (fun c _ th => th.setReg d.toNat (withPart (th.reg d.toNat) w k
        (un (word (fToInt fp32 c.rm (-(2 ^ (w - 1))) (2 ^ (w - 1) - 1) (un (th.reg a.toNat))).1))))
      (fun c _ th => (fToInt fp32 c.rm (-(2 ^ (w - 1))) (2 ^ (w - 1) - 1) (un (th.reg a.toNat))).2) := by
  have h := computes_of_convert he
  simp only [narrowInt_eq] at h
  exact h

/-- Settles O10: a widening member takes its part of v[a], a narrowing one replaces its part of v[d], and a conversion of a whole
register writes it. -/
theorem convertResult : Obligations.ConvertResult := by
  refine ⟨fun p hp d a g k hk => ?_, fun p hp d a g k hk => ?_, fun d a g => ?_, fun d a g => ?_, fun d a g => ?_,
    fun d a g => ?_, fun d a k g => ?_, fun d a k g => ?_⟩
  · have h := computes_of_convert (exec_widen p hp d a k g)
    simp only [widen_eq (widenOps_width p hp) hk] at h
    exact h
  · have h := computes_of_convert (exec_narrow p hp d a k g)
    simp only [narrow_eq (narrowOps_width p hp) hk] at h
    exact h
  · exact computes_of_laneBody (fun _ => rfl) (fun _ _ _ _ => rfl)
  · exact computes_of_laneBody (fun _ => rfl) (fun _ _ _ _ => rfl)
  · exact computes_of_laneBody (fun _ => rfl) (fun _ _ _ _ => rfl)
  · exact computes_of_laneBody (fun _ => rfl) (fun _ _ _ _ => rfl)
  · exact computes_of_narrowInt (fun _ => rfl)
  · exact computes_of_narrowInt (fun _ => rfl)

/-! ## FCMP (R147, R148) -/

theorem exec_floatCompare : ∀ p ∈ floatCompareOps, ∀ d a b g s,
    exec (p.1 d a b g) s = fcompare d a b g p.2.1 p.2.2 s := by
  simp only [floatCompareOps, bne, Option.beq_none, Option.not_isNone, List.forall_mem_cons, List.not_mem_nil, false_imp_iff,
    implies_true, and_true]
  and_intros
  all_goals intros; rfl

/-- Two operands are unordered exactly where one of them is a NaN. -/
theorem fRel_eq (f : Fmt) (x y : Nat) :
    fRel f x y = if (f.val x).isNaN ∨ (f.val y).isNaN then none else some ((f.val x).cmp (f.val y)) := by
  simp only [fRel, Bool.or_eq_true]

theorem cmpFlags_eq (f : Fmt) (sg : Bool) (x y : Nat) :
    cmpFlags f sg x y =
      if (f.val x).isSNaN ∨ (f.val y).isSNaN ∨ (sg ∧ ((f.val x).isNaN ∨ (f.val y).isNaN)) then fNV else 0 := by
  simp only [cmpFlags, flagIf, Bool.or_eq_true, Bool.and_eq_true, or_assoc]

/-- Settles O11: every comparison is its relation with the flag of its kind, and fclass its class. -/
theorem floatCompareResult : Obligations.FloatCompareResult := by
  refine ⟨fun p hp d a b g => ?_, fun d a g => ?_⟩
  · simp only [← fRel_eq, ← cmpFlags_eq]
    exact computes_of_fcompare (exec_floatCompare p hp d a b g)
  · exact computes_of_laneBody (fun _ => rfl) (fun _ _ _ _ => rfl)

/-! ## NDOT (R151, R152) -/

theorem foldl_add_eq_add_sum (f : Nat → Int) (l : List Nat) (z : Int) :
    l.foldl (fun acc i => acc + f i) z = z + (l.map f).sum := by
  calc l.foldl (fun acc i => acc + f i) z
      = (l.map f).foldl (· + ·) (z + 0) := by rw [List.foldl_map, Int.add_zero]
    _ = z + (l.map f).sum := by rw [List.sum_eq_foldl, List.foldl_assoc (op := (· + · : Int → Int → Int))]

/-- An integer dot member adds the sum of the products to v[d] and raises nothing. -/
theorem dotInt_eq (sg : Bool) (w n : Nat) (x y z : Word) :
    dotInt sg w n x y z =
      (word (un z + ((List.range n).map (fun i => intElem sg w (elemOf x w i) * intElem sg w (elemOf y w i))).sum), 0) := by
  rw [dotInt, foldl_add_eq_add_sum, un]

theorem exec_intDot : ∀ p ∈ intDotOps, ∀ d a b g s,
    exec (p.1 d a b g) s = flop3 d a b 0 g (fun _ => dotInt p.2.1 p.2.2.1 p.2.2.2) s := by
  simp only [intDotOps, List.forall_mem_cons, List.not_mem_nil, false_imp_iff, implies_true, and_true]
  and_intros
  all_goals intros; rfl

theorem exec_floatDot : ∀ p ∈ floatDotOps, ∀ d a b g s,
    exec (p.1 d a b g) s = flop3 d a b 0 g (dotFloat p.2.1 p.2.2) s := by
  simp only [floatDotOps, List.forall_mem_cons, List.not_mem_nil, false_imp_iff, implies_true, and_true]
  and_intros
  all_goals intros; rfl

theorem floatDotOps_width : ∀ p ∈ floatDotOps, p.2.1.fb + p.2.1.eb + 1 = 32 / p.2.2 := by decide

/-- Settles O12: the integer members are sums modulo 2^32, the floating ones exact sums rounded once, scl and scladd scalings
rounded once. -/
theorem dotResult : Obligations.DotResult := by
  refine ⟨fun p hp d a b g => ?_, fun p hp d a b g => ?_, fun d a b k g => ?_, fun d a b k g => ?_⟩
  · have h := computes_of_flop3 (exec_intDot p hp d a b g)
    simp only [dotInt_eq] at h
    exact h
  · have h := computes_of_flop3 (exec_floatDot p hp d a b g)
    simp only [dotFloat, floatDotOps_width p hp] at h
    exact h
  · exact computes_of_laneBody (fun _ => rfl) (fun _ _ _ _ => rfl)
  · exact computes_of_laneBody (fun _ => rfl) (fun _ _ _ _ => by simp only [Bool.decide_or]; rfl)

/-! ## CMPN (R86, R87, R155) -/

/-- The first result of ftwosum is the rounded sum, with its flags. -/
theorem twoSum_sum (a b : Nat) : (twoSum a b).1 = (fAdd fp32 .rne a b).1 ∧ (twoSum a b).2.2 = (fAdd fp32 .rne a b).2 := by
  unfold twoSum
  simp only
  split <;> exact ⟨rfl, rfl⟩

/-- Settles O13: the three members write the pair d by their arithmetic; the flags of ftwosum are those of its sum. -/
theorem compensatedResult : Obligations.CompensatedResult := by
  refine ⟨fun d a b g => ?_, fun d a b g => ?_, fun d a g => ?_, fun a b => (twoSum_sum a b).1⟩
  · exact computes_of_laneBody (fun _ => rfl) (fun _ _ _ _ => by rw [← (twoSum_sum _ _).2]; rfl)
  · exact computes_of_laneBody (fun _ => rfl) (fun _ _ _ _ => rfl)
  · exact computes_of_laneBody (fun _ => rfl) (fun _ _ _ _ => rfl)

end Sys2Proof.Machine

/-!
SUPPORT. Control flow (08_flow_instr.md): transfers of control (R53, R159, R161), the yield (R97, R164), and the control
registers (R175, R176).
-/

namespace Sys2Proof.Machine

/-! ## Transfers (R53, R159, R161) -/

theorem goodTarget_iff_lawful (t : DWord) : goodTarget t = true ↔ lawful t := by
  simp [goodTarget, isCanon, canon, lawful]

theorem transfer_of_lawful {th : Thread} {target : DWord} (h : lawful target) : transfer th target = .jump th target :=
  if_pos ((goodTarget_iff_lawful target).mpr h)

theorem transfer_of_not_lawful {th : Thread} {target : DWord} (h : ¬ lawful target) :
    transfer th target = .trap (trap .misalignedFetch 0) :=
  if_neg (fun hg => h ((goodTarget_iff_lawful target).mp hg))

theorem usable_nil (s : State) (c : Ctx) (g : BitVec 3) : Usable s c g [] := by
  intro l _ th _
  exact ⟨rfl, by simp [Thread.awaits, allRegs]⟩

/-- Where the lanes of a group go depends on what the guard-true ones do alone. -/
theorem flows_congr {s t : State} {c : Ctx} {g : BitVec 3} {o o' : Nat → Thread → LaneOut} (hf : Flows s t c g o)
    (ho : ∀ l ∈ guardLanes s c g, ∀ th, s.thread? c.fk l = some th → o l th = o' l th) : Flows s t c g o' := by
  intro l hl th ht
  rw [hf l hl th ht]
  by_cases hp : th.pred g.toNat = true
  · rw [if_pos hp, if_pos hp, ho l ((guardLanes_mem ht).mpr ⟨hl, hp⟩) th ht]
  · rw [if_neg hp, if_neg hp]

section
variable {i : Instr} {g : BitVec 3} {us : List RegUse} {link : Ctx → Thread → Thread} {target : Ctx → Thread → DWord}
  {s : State} {c : Ctx}

/-- A transfer whose targets are lawful sends every guard-true lane to its own. -/
theorem transfer_flows
    (he : ∀ s, exec i s = .next (laneOp s HintUse.none g us (fun c _ _ th => transfer (link c th) (target c th))))
    (hi : Issues s c HintUse.none g []) (hu : Usable s c g us)
    (hl : ∀ k ∈ guardLanes s c g, ∀ th, s.thread? c.fk k = some th → lawful (target c th)) :
    ∃ t, exec i s = .next t ∧ Keeps s t c 0 ∧ Flows s t c g (fun _ th => .jump (link c th) (target c th)) := by
  have hout : ∀ k ∈ guardLanes s c g, ∀ th, s.thread? c.fk k = some th →
      transfer (link c th) (target c th) = .jump (link c th) (target c th) :=
    fun k hk th ht => transfer_of_lawful (hl k hk th ht)
  obtain ⟨hf, hk⟩ := laneOp_flows (f := fun c _ _ th => transfer (link c th) (target c th)) hi hu
    (fun k hk th ht => by rw [hout k hk th ht]; rfl)
  rw [flagsOf_eq_zero (fun k hk th ht => by rw [hout k hk th ht]; rfl)] at hk
  exact ⟨_, he s, hk, flows_congr hf hout⟩

/-- A transfer whose targets are all unlawful traps in every guard-true lane. -/
theorem transfer_enters {ls : List Nat} {hd : DWord}
    (he : ∀ s, exec i s = .next (laneOp s HintUse.none g us (fun c _ _ th => transfer (link c th) (target c th))))
    (hi : Issues s c HintUse.none g []) (hls : guardLanes s c g = ls) (hne : ls ≠ []) (hh : c.ld.handler = some hd)
    (hm : ∀ l ∈ ls, ∀ th, s.thread? c.fk l = some th → th.hmode = false) (hu : Usable s c g us)
    (hx : ∀ l ∈ ls, ∀ th, s.thread? c.fk l = some th → ¬ lawful (target c th)) :
    ∃ t, exec i s = .next t ∧ Enters s t c ls hd (trap .misalignedFetch 0) := by
  subst hls
  exact ⟨_, he s, laneOp_traps hi rfl hne hh hm (fun l hl th ht => (hu l hl th ht).2)
    (fun l hl th ht => .inr ⟨(hu l hl th ht).1, transfer_of_not_lawful (hx l hl th ht)⟩)⟩

end

theorem exec_br (o : BitVec 23) (g : BitVec 3) (s : State) : exec (.br o g) s =
    .next (laneOp s HintUse.none g [] (fun c _ _ th => transfer th (wordsAway c.pc o))) := rfl

theorem exec_call (l : BitVec 6) (o : BitVec 15) (g : BitVec 3) (s : State) : exec (.call l o g) s =
    .next (laneOp s HintUse.none g [pair l] (fun c _ _ th => transfer (th.setPair l.toNat (c.pc + 4)) (wordsAway c.pc o))) := rfl

theorem exec_callr (l b : BitVec 6) (g : BitVec 3) (s : State) : exec (.callr l b g) s =
    .next (laneOp s HintUse.none g [pair l, pair b]
      (fun c _ _ th => transfer (th.setPair l.toNat (c.pc + 4)) (th.pair b.toNat))) := rfl

theorem exec_ret (b : BitVec 6) (g : BitVec 3) (s : State) : exec (.ret b g) s =
    .next (laneOp s HintUse.none g [pair b] (fun _ _ _ th => transfer th (th.pair b.toNat))) := rfl

theorem exec_jmpr (b : BitVec 6) (g : BitVec 3) (s : State) : exec (.jmpr b g) s =
    .next (laneOp s HintUse.none g [pair b] (fun _ _ _ th => transfer th (th.pair b.toNat))) := rfl

theorem branchTaken_holds : branchTaken := by
  intro s c
  refine ⟨fun o g hi hl => ?_, fun l o g hi hu hl => ?_, fun l b g hi hu hl => ?_, fun b g hi hu hl => ⟨?_, ?_⟩⟩
  · exact transfer_flows (link := fun _ th => th) (exec_br o g) hi (usable_nil s c g) (fun _ _ _ _ => hl)
  · exact transfer_flows (exec_call l o g) hi hu (fun _ _ _ _ => hl)
  · exact transfer_flows (target := fun _ th => th.pair b.toNat) (exec_callr l b g) hi hu hl
  · exact transfer_flows (link := fun _ th => th) (target := fun _ th => th.pair b.toNat) (exec_ret b g) hi hu hl
  · exact transfer_flows (link := fun _ th => th) (target := fun _ th => th.pair b.toNat) (exec_jmpr b g) hi hu hl

theorem branchMisaligned_holds : branchMisaligned := by
  refine ⟨fun o g s c ls hd hi hls hne hh hm hx => ?_, fun l o g s c ls hd hi hls hne hh hm ⟨hu, hx⟩ => ?_,
    fun l b g s c ls hd hi hls hne hh hm ⟨hu, hx⟩ => ?_, fun b g s c ls hd hi hls hne hh hm ⟨hu, hx⟩ => ?_,
    fun b g s c ls hd hi hls hne hh hm ⟨hu, hx⟩ => ?_⟩
  · exact transfer_enters (exec_br o g) hi hls hne hh hm (usable_nil s c g) (fun _ _ _ _ => hx)
  · exact transfer_enters (exec_call l o g) hi hls hne hh hm hu (fun _ _ _ _ => hx)
  · exact transfer_enters (exec_callr l b g) hi hls hne hh hm hu hx
  · exact transfer_enters (exec_ret b g) hi hls hne hh hm hu hx
  · exact transfer_enters (exec_jmpr b g) hi hls hne hh hm hu hx

/-- Settles O14: the five transfers are one lane-local form, which goes to a lawful target and traps at any other. -/
theorem branches : Obligations.Branches := ⟨branchTaken_holds, branchMisaligned_holds⟩

/-! ## Control registers (R175, R176) -/

theorem csrValue_eq (c : Ctx) (th : Thread) (r : BitVec 8) :
    csrValue c th r.toNat =
      if r = 4 then c.fl.tcount
      else if r = 8 then (if th.hmode then th.fpc.truncate 32 else 0)
      else if r = 9 then (if th.hmode then (th.fpc >>> 32).truncate 32 else 0)
      else if r = 10 then (if th.hmode then th.fnpc.truncate 32 else 0)
      else if r = 11 then (if th.hmode then (th.fnpc >>> 32).truncate 32 else 0)
      else tgetD 0 th.hscratch r.toNat := by
  simp only [← BitVec.toNat_inj]
  unfold csrValue
  split <;> simp_all [lowHalf, highHalf]

theorem csrWrite_eq (th : Thread) (r : BitVec 8) (w : Word) :
    csrWrite th r.toNat w =
      if r = 8 then { th with fpc := (th.fpc >>> 32).truncate 32 ++ w }
      else if r = 9 then { th with fpc := w ++ th.fpc.truncate 32 }
      else if r = 10 then { th with fnpc := (th.fnpc >>> 32).truncate 32 ++ w }
      else if r = 11 then { th with fnpc := w ++ th.fnpc.truncate 32 }
      else { th with hscratch := tputD 0 th.hscratch r.toNat w } := by
  simp only [← BitVec.toNat_inj]
  unfold csrWrite
  split <;> simp_all [lowHalf, highHalf, pairOf]

/-- The lanes of a list whose threads are in handler mode. -/
def handlerLanes (s : State) (c : Ctx) (ls : List Nat) : List Nat :=
  ls.filter (fun l => match s.thread? c.fk l with
    | some t => t.hmode
    | none => false)

theorem handlerLanes_all {s : State} {c : Ctx} {ls : List Nat}
    (h : ∀ l ∈ ls, ∃ th, s.thread? c.fk l = some th ∧ th.hmode = true) :
    handlerLanes s c ls = ls := by
  refine List.filter_eq_self.mpr (fun l hl => ?_)
  obtain ⟨th, ht, hm⟩ := h l hl
  rw [ht]; exact hm

theorem handlerLanes_none {s : State} {c : Ctx} {ls : List Nat}
    (h : ∀ l ∈ ls, ∀ th, s.thread? c.fk l = some th → th.hmode = false) :
    handlerLanes s c ls = [] := by
  refine List.filter_eq_nil_iff.mpr (fun l hl => ?_)
  cases ht : s.thread? c.fk l with
  | none => exact Bool.false_ne_true
  | some th => exact Bool.not_eq_true _ ▸ h l hl th ht

/-- What csrw does to a lane in handler mode. -/
def csrwOut (a : BitVec 6) (r : BitVec 8) (th : Thread) : LaneOut := .ok (csrWrite th r.toNat (th.reg a.toNat)) 0

/-- csrw of a register that can be written: its lanes in handler mode run, the others take the privileged trap. -/
def csrwBody (a : BitVec 6) (r : BitVec 8) : Body := fun c ls s =>
  let b := laneBody [one a] (fun _ _ _ th => csrwOut a r th) c (handlerLanes s c ls) s
  if b.2.any (fun p => p.2 == .hold .register) then (s, ls.map (fun l => (l, .hold .register)))
  else (b.1, b.2 ++ (ls.filter (fun l => !(handlerLanes s c ls).contains l)).map (fun l => (l, .trap (trap .privileged 0))))

theorem exec_csrw {a : BitVec 6} {r : BitVec 8} (g : BitVec 3) (hk : csrKnown r.toNat = true) (h4 : r ≠ 4) (s : State) :
    exec (.csrw a r g) s = .next (issueP s HintUse.none g [] (csrwBody a r)) := by
  have h : (csrKnown r.toNat && r.toNat != 4) = true := by
    simpa [hk] using fun h => h4 (BitVec.eq_of_toNat_eq h)
  exact if_pos h

theorem csrwBody_outside {a : BitVec 6} {r : BitVec 8} {c : Ctx} {ls : List Nat} {s : State}
    (h : ∀ l ∈ ls, ∀ th, s.thread? c.fk l = some th → th.hmode = false) :
    csrwBody a r c ls s = (s, ls.map (fun l => (l, .trap (trap .privileged 0)))) := by
  have hb : laneBody [one a] (fun _ _ _ th => csrwOut a r th) c [] s = (s, []) := rfl
  have hout : ls.filter (fun l => !([] : List Nat).contains l) = ls := List.filter_eq_self.mpr (fun _ _ => rfl)
  simp only [csrwBody, handlerLanes_none h, hb, hout, List.any_nil, Bool.false_eq_true, if_false, List.nil_append]

/-- Lanes that all complete hold none. -/
theorem runLanes_hold_none {n fk : Nat} {us : List RegUse} {f : Nat → Thread → LaneOut} {s : State} {ls : List Nat} (hn : ls.Nodup)
    (hl : ∀ l ∈ ls, l < 8)
    (hx : ∀ l ∈ ls, ∃ th, s.thread? fk l = some th ∧ regTrap n th us = none ∧ (f l th).goes = true) :
    (ls.foldl (runLane n fk us f) (s, [])).2.any (fun p => p.2 == .hold .register) = false := by
  obtain ⟨-, -, -, -, hr⟩ := foldl_runLane n fk us f ls hn hl s [] hx
  rw [hr, List.any_eq_false]
  intro p hp
  obtain ⟨l, -, rfl⟩ := List.mem_map.mp hp
  dsimp only
  split <;> simp

theorem csrwBody_inHandler {a : BitVec 6} {r : BitVec 8} {g : BitVec 3} {c : Ctx} {ls : List Nat} {s : State} (hc : s.ctx? = some c)
    (hu : Usable s c g [one a]) (hls : guardLanes s c g = ls)
    (hm : ∀ l ∈ ls, ∀ th, s.thread? c.fk l = some th → th.hmode = true) :
    csrwBody a r c ls s = ls.foldl (runLane c.ld.regs c.fk [one a] (fun _ th => csrwOut a r th)) (s, []) := by
  subst hls
  have hsub := guardLanes_sub s c g
  have hin : handlerLanes s c (guardLanes s c g) = guardLanes s c g := handlerLanes_all (fun l hl => by
    obtain ⟨th, ht⟩ := ctx_thread hc (hsub.mem hl)
    exact ⟨th, ht, hm l hl th ht⟩)
  have hout : (guardLanes s c g).filter (fun l => !(guardLanes s c g).contains l) = [] := by
    simp [List.filter_eq_nil_iff]
  have hb : laneBody [one a] (fun _ _ _ th => csrwOut a r th) c (guardLanes s c g) s =
      (guardLanes s c g).foldl (runLane c.ld.regs c.fk [one a] (fun _ th => csrwOut a r th)) (s, []) := by
    simp only [laneBody, anyAwaits_usable hu rfl, Bool.false_eq_true, if_false]
  have hh := runLanes_hold_none (n := c.ld.regs) (us := [one a]) (f := fun _ th => csrwOut a r th) ((ctx_nodup hc).sublist hsub)
    (fun l hl => ctx_lt hc (hsub.mem hl)) (fun l hl => by
      obtain ⟨th, ht⟩ := ctx_thread hc (hsub.mem hl)
      exact ⟨th, ht, (hu l hl th ht).1, rfl⟩)
  simp only [csrwBody, hin, hb, hh, hout, Bool.false_eq_true, if_false, List.map_nil, List.append_nil]

theorem controlRegisterRead_holds : controlRegisterRead := by
  intro d r g hk
  exact computes_of_laneBody (f := fun c _ _ th => .ok (th.setReg d.toNat (csrValue c th r.toNat)) 0) (fun s => if_pos hk)
    (fun c _ _ th => by rw [csrValue_eq])

theorem controlRegisterWrite_holds : controlRegisterWrite := by
  intro a r g hk h4
  refine ⟨fun s c hi hu hm => ?_, fun s c ls hd hi hls hne hh hm _ => ?_⟩
  · obtain ⟨hf, hkeep⟩ := issueP_flows (f := fun _ th => csrwOut a r th) hi
      (fun ls hls _ => csrwBody_inHandler hi.ctx hu hls (hls ▸ hm)) (fun l hl th ht => ⟨(hu l hl th ht).1, rfl⟩)
    rw [flagsOf_eq_zero (w := fun _ th => (csrwOut a r th).flags) (fun _ _ _ _ => rfl)] at hkeep
    exact ⟨_, exec_csrw g hk h4 s, hkeep, lanes_of_flows (w := fun _ _ => 0) hf (fun _ _ th _ => by rw [csrwOut, csrWrite_eq])⟩
  · refine ⟨_, exec_csrw g hk h4 s, ?_⟩
    rw [issueP_eq hi hls hne, csrwBody_outside hm]
    exact conclude_enters hi.ctx (hls ▸ guardLanes_sub s c g) hh hm

/-- Settles O23: csrr is a lane-local write of `csrValue`; csrw runs its lanes where all are in handler mode and traps where
none is. -/
theorem controlRegisters : Obligations.ControlRegisters := ⟨controlRegisterRead_holds, controlRegisterWrite_holds⟩

/-! ## yield (R97, R164) -/

/-- A flight about to issue: the hints of all eight lanes pend, and lane 0 is parked. Pending hints make their lanes the executing
group, whether or not its threads still run; so the group issues. -/
def parkedHint : State :=
  (({ State.reset.placeWord 0 with cur := some 0 } : State).modThread 0 0 (fun t => { t with cond := .parked })).modFlight 0 (fun f =>
    { f with hint := some { lanes := lanes8, start := 0x1000, imm := none, mods := none, sched := none
                            back := { lead := 0, gives := .no, timer := 0, tally := 0 } } })

theorem exec_yield (g : BitVec 3) (s : State) : exec (.yield g) s = execYield g s := rfl

/-- The lane that names the group of flight `fk` in the next state of an outcome. -/
def leadAfter (fk : Nat) : Out → Option Nat
  | .next t => (tget t.flights fk).map (·.lead)
  | _ => none

/-- All eight lanes of the flight issue, with no hint, predicate or guard against it. -/
theorem parkedHint_issues : parkedHint.ctx?.any (fun c => c.fk == 0 && c.lanes == lanes8 && hintsOk c HintUse.none &&
    !awaitsPred parkedHint c.fk [0] c.lanes && !(guardLanes parkedHint c 0).isEmpty) = true := rfl

/-- After the yield the slot is named by the lowest lane that runs (`slotLead`), not by lane 0. -/
theorem parkedHint_lead : leadAfter 0 (execYield 0 parkedHint) = some 1 := rfl

/-- Refutes O17: the statement has the slot named by the group's lowest lane (`f'.lead = c.lanes.headD 0`), the model by the lowest
lane of the group that still runs; under pending hints these differ in `parkedHint`, whose lane 0 is parked. -/
theorem not_yieldPassesSlot : ¬ Obligations.YieldPassesSlot := by
  rintro ⟨h, -, -⟩
  obtain ⟨c, hc, h0⟩ := Option.any_eq_true _ _ |>.mp parkedHint_issues
  simp only [Bool.and_eq_true, beq_iff_eq, Bool.not_eq_true', List.isEmpty_eq_false_iff] at h0
  obtain ⟨⟨⟨⟨hfk, hlanes⟩, hok⟩, hp⟩, hne⟩ := h0
  obtain ⟨t, ht, -, -, f', hf, -, -, -, hlead, -⟩ := h parkedHint c 0 _ ⟨hc, hok, hp⟩ rfl hne
  have hl := parkedHint_lead
  rw [← exec_yield, ht, leadAfter, ← hfk, hf, Option.map_some, hlead, hlanes] at hl
  exact absurd hl (by decide)

end Sys2Proof.Machine

/-!
SUPPORT. The cross-lane instructions (R166–R168): the participating lanes with the values that they offer, and each meaning in
terms of them.
-/

namespace Sys2Proof.Machine

/-! ## The participating lanes -/

/-- The thread of a lane of a party. -/
theorem inQ_party (s : State) (c : Ctx) (ls : List Nat) (k : Nat) :
    inQ (party s c ls) k = if k ∈ ls then s.thread? c.fk k else none := by
  induction ls with
  | nil => rfl
  | cons a ls ih =>
    cases ht : s.thread? c.fk a with
    | none =>
      have hp : party s c (a :: ls) = party s c ls := by simp [party, ht]
      rw [hp, ih]
      by_cases hk : k = a
      · subst hk; simp [ht]
      · simp [hk]
    | some th =>
      have hp : party s c (a :: ls) = (a, th) :: party s c ls := by simp [party, ht]
      rw [hp, inQ, tget, ← inQ, ih]
      by_cases hk : a = k
      · subst hk; simp [ht]
      · simp [hk, Ne.symm hk]

/-- A lane takes what its source lane offers, or its own value. -/
theorem shuffled_party (s : State) (c : Ctx) (g : BitVec 3) (a : BitVec 6) (own : Thread) (k : Option Nat) :
    shuffled (party s c (guardLanes s c g)) a own k = (k.bind (offered s c g a)).getD (own.reg a.toNat) := by
  cases k with
  | none => rfl
  | some k =>
    simp only [shuffled, Option.bind_some, inQ_party, offered]
    split
    · next h => split at h <;> simp_all
    · next h => split at h <;> simp_all

theorem party_offers (s : State) (c : Ctx) (g : BitVec 3) (a : BitVec 6) :
    (party s c (guardLanes s c g)).map (fun x => (x.1, x.2.reg a.toNat)) = offers s c g a := by
  simp [party, offers, List.map_filterMap, Function.comp_def]

/-- The lanes of a list in which a predicate is 1. -/
theorem ballot_party (s : State) (c : Ctx) (ls : List Nat) (p : BitVec 3) :
    ballot (party s c ls) p = ls.filter (fun l => (s.thread? c.fk l).any (fun t => t.pred p.toNat)) := by
  induction ls with
  | nil => rfl
  | cons a ls ih =>
    simp only [ballot, party, List.filterMap_cons, List.filter_cons] at ih ⊢
    cases ht : s.thread? c.fk a with
    | none => simpa using ih
    | some th => cases hp : th.pred p.toNat <;> simp [hp, ih]

section
variable {i : Instr} {g : BitVec 3}

/-- A cross-lane instruction completes with what its meaning makes of the participating lanes. -/
theorem crosses_of_xlaneP {ps : List (BitVec 3)} {us : List RegUse} {f : List (Nat × Thread) → Nat → Thread → Thread}
    {fl : List (Nat × Thread) → FFlags} {v : State → Ctx → Nat → Thread → Thread} {w : State → Ctx → BitVec 5}
    (he : ∀ s, exec i s = xlaneP ps us g f fl s)
    (hv : ∀ s c, s.ctx? = some c → f (party s c (guardLanes s c g)) = v s c)
    (hw : ∀ s c, fl (party s c (guardLanes s c g)) = w s c) : Crosses i g ps us v w := by
  intro s c hi hu
  obtain ⟨hl, hk⟩ := xlaneP_lanes (f := f) (fl := fl) rfl hi hu
  rw [hv s c hi.ctx] at hl
  rw [hw s c] at hk
  exact ⟨_, he s, hl, hk⟩

theorem reduceQ_eq_xlaneP (d a : BitVec 6) (g : BitVec 3) (f : List (Nat × Word) → Nat → Word) (fl : List (Nat × Word) → FFlags)
    (s : State) :
    reduceQ d a g f fl s = xlaneP [] [one d, one a] g
      (fun q l t => t.setReg d.toNat (f (q.map (fun x => (x.1, x.2.reg a.toNat))) l))
      (fun q => fl (q.map (fun x => (x.1, x.2.reg a.toNat)))) s := rfl

/-- A reduction completes with its value of the offers. -/
theorem crosses_of_reduceQ {d a : BitVec 6} {f : List (Nat × Word) → Nat → Word} {fl : List (Nat × Word) → FFlags}
    (he : ∀ s, exec i s = reduceQ d a g f fl s) :
    Crosses i g [] [one d, one a] (fun s c l th => th.setReg d.toNat (f (offers s c g a) l)) (fun s c => fl (offers s c g a)) := by
  refine crosses_of_xlaneP (fun s => (he s).trans (reduceQ_eq_xlaneP d a g f fl s)) (fun s c _ => ?_) (fun s c => ?_)
  · simp only [party_offers]
  · simp only [party_offers]

end

/-! ## Shuffles -/

/-- Every shuffle takes the source lane of its row. -/
theorem exec_shuffle : ∀ p ∈ shuffleOps, ∀ d a b g s, exec (p.1 d a b g) s = shuffle d a b g p.2 s := by
  simp only [shuffleOps, Nat.lt_succ_iff, List.forall_mem_cons, List.not_mem_nil, false_imp_iff, implies_true, and_true]
  and_intros
  all_goals intros; rfl

theorem exec_bcast (d a : BitVec 6) (g : BitVec 3) (s : State) : exec (.bcast d a g) s =
    xlaneP [] [one d, one a] g (fun q _ t => t.setReg d.toNat (shuffled q a t (q.head?.map (·.1)))) (fun _ => 0) s := rfl

theorem shuffleResult_holds : shuffleResult := by
  refine ⟨fun p hp d a b g => ?_, fun d a g => ?_⟩
  · refine crosses_of_xlaneP
      (f := fun q l t => t.setReg d.toNat (shuffled q a t (p.2 l (t.reg b.toNat).toNat))) (fl := fun _ => 0)
      (exec_shuffle p hp d a b g) (fun s c _ => ?_) (fun _ _ => rfl)
    simp only [shuffled_party, un]
  · refine crosses_of_xlaneP (exec_bcast d a g) (fun s c hc => ?_) (fun _ _ => rfl)
    have hhead : (party s c (guardLanes s c g)).head?.map (·.1) = (guardLanes s c g).head? := by
      rw [← List.head?_map, party_guard hc rfl]
    simp only [shuffled_party, hhead]

/-! ## Votes -/

theorem exec_voteAny (d a g : BitVec 3) (s : State) : exec (.voteAny d a g) s =
    xlaneP [a] [] g (fun q _ t => t.setPred d.toNat (!(ballot q a).isEmpty)) (fun _ => 0) s := rfl

theorem exec_voteAll (d a g : BitVec 3) (s : State) : exec (.voteAll d a g) s =
    xlaneP [a] [] g (fun q _ t => t.setPred d.toNat ((ballot q a).length == q.length)) (fun _ => 0) s := rfl

theorem exec_voteBallot (d : BitVec 6) (a g : BitVec 3) (s : State) : exec (.voteBallot d a g) s =
    xlaneP [a] [one d] g (fun q _ t => t.setReg d.toNat ((laneMask (ballot q a)).zeroExtend 32)) (fun _ => 0) s := rfl

theorem exec_matchLanes (d a : BitVec 6) (g : BitVec 3) (s : State) : exec (.matchLanes d a g) s =
    xlaneP [] [one d, one a] g (fun q _ t => t.setReg d.toNat
      ((laneMask ((q.filter (fun x => x.2.reg a.toNat == t.reg a.toNat)).map (·.1))).zeroExtend 32)) (fun _ => 0) s := rfl

theorem not_isEmpty_eq_decide (ls : List Nat) : (!ls.isEmpty) = decide (ls ≠ []) := by
  cases ls <;> rfl

/-- As many lanes pass a test as there are where all of them do. -/
theorem length_filter_beq_length (ls : List Nat) (p : Nat → Bool) :
    ((ls.filter p).length == ls.length) = decide (ls.filter p = ls) := by
  rw [Bool.eq_iff_iff, beq_iff_eq, decide_eq_true_iff]
  exact ⟨List.filter_sublist.eq_of_length, congrArg List.length⟩

theorem voteResult_holds : voteResult := by
  refine ⟨fun d a g => ?_, fun d a g => ?_, fun d a g => ?_, fun d a g => ?_⟩
  · refine crosses_of_xlaneP (exec_voteAny d a g) (fun s c _ => ?_) (fun _ _ => rfl)
    simp only [ballot_party, not_isEmpty_eq_decide]
  · refine crosses_of_xlaneP (exec_voteAll d a g) (fun s c hc => ?_) (fun _ _ => rfl)
    have hlen : (party s c (guardLanes s c g)).length = (guardLanes s c g).length := by
      rw [← List.length_map (f := Prod.fst), party_guard hc rfl]
    simp only [ballot_party, hlen, length_filter_beq_length]
  · refine crosses_of_xlaneP (exec_voteBallot d a g) (fun s c _ => ?_) (fun _ _ => rfl)
    simp only [ballot_party]
  · refine crosses_of_xlaneP (exec_matchLanes d a g) (fun s c _ => ?_) (fun _ _ => rfl)
    simp only [← party_offers, List.filter_map, List.map_map, Function.comp_def]

/-- Settles O20: a shuffle reads what its source lane offers, a vote counts the lanes of the party. -/
theorem shuffleAndVote : Obligations.ShuffleAndVote := ⟨shuffleResult_holds, voteResult_holds⟩

/-! ## Reductions (R168, R82) -/

theorem exec_redAddS32 (d a : BitVec 6) (g : BitVec 3) (s : State) :
    exec (.redAddS32 d a g) s = reduceQ d a g (fun q _ => (q.map (·.2)).foldl (· + ·) 0) (fun _ => 0) s := rfl

theorem exec_redMin (d a : BitVec 6) (g : BitVec 3) (s : State) :
    exec (.redMin d a g) s = reduceQ d a g (fun q _ => (q.map (·.2)).foldl fMinS 0x7FFFFFFF) (fun _ => 0) s := rfl

theorem exec_redMax (d a : BitVec 6) (g : BitVec 3) (s : State) :
    exec (.redMax d a g) s = reduceQ d a g (fun q _ => (q.map (·.2)).foldl fMaxS 0x80000000) (fun _ => 0) s := rfl

theorem exec_prefixSum (d a : BitVec 6) (g : BitVec 3) (s : State) :
    exec (.prefixSum d a g) s =
      reduceQ d a g (fun q l => ((q.filter (fun x => decide (x.1 ≤ l))).map (·.2)).foldl (· + ·) 0) (fun _ => 0) s := rfl

theorem exec_redAddF32 (d a : BitVec 6) (g : BitVec 3) (s : State) :
    exec (.redAddF32 d a g) s = reduceQ d a g (fun q _ => (treeOf q).1) (fun q => (treeOf q).2) s := rfl

/-- Settles O21: the five members are reductions of what the participating lanes offer. -/
theorem reductionResult : Obligations.ReductionResult :=
  ⟨fun d a g => crosses_of_reduceQ (exec_redAddS32 d a g), fun d a g => crosses_of_reduceQ (exec_redMin d a g),
   fun d a g => crosses_of_reduceQ (exec_redMax d a g), fun d a g => crosses_of_reduceQ (exec_prefixSum d a g),
   fun d a g => crosses_of_reduceQ (exec_redAddF32 d a g)⟩

end Sys2Proof.Machine

/-!
SUPPORT. The memory instructions (09_memory_instr.md): what a thread's issue queue orders (R201, R202), the fences that enter it, the
accesses that LD, ST, ORD, lr and ATOM enter, and the sc that acts in its own slot.
-/

namespace Sys2Proof.Machine

/-! ## The order of a thread's accesses (R202) -/

/-- An entry of a list stands behind position `i` and satisfies `p`. -/
theorem any_drop_succ_iff {α : Type} {l : List α} {p : α → Bool} {i : Nat} :
    (l.drop (i + 1)).any p = true ↔ ∃ j x, i < j ∧ l[j]? = some x ∧ p x = true := by
  simp only [List.any_eq_true, List.mem_iff_getElem?, List.getElem?_drop]
  constructor
  · rintro ⟨x, ⟨n, hx⟩, hp⟩
    exact ⟨i + 1 + n, x, by omega, hx, hp⟩
  · rintro ⟨j, x, hij, hx, hp⟩
    exact ⟨x, ⟨j - (i + 1), by rwa [show i + 1 + (j - (i + 1)) = j by omega]⟩, hp⟩

/-- A fence of the releasing kind stands behind position `i`. -/
theorem hasFenceRel_drop {l : List Access} {i : Nat} : hasFenceRel (l.drop (i + 1)) = true ↔
    ∃ j f, i < j ∧ l[j]? = some f ∧ f.kind = .fence ∧ f.rel = true ∧ f.scope ≠ 0 := by
  simp only [hasFenceRel, any_drop_succ_iff, Bool.and_eq_true, beq_iff_eq, bne_iff_ne, and_assoc]

/-- A fence of the acquiring kind stands behind position `i`. -/
theorem hasFenceAcq_drop {l : List Access} {i : Nat} : hasFenceAcq (l.drop (i + 1)) = true ↔
    ∃ j f, i < j ∧ l[j]? = some f ∧ f.kind = .fence ∧ f.acq = true ∧ f.scope ≠ 0 := by
  simp only [hasFenceAcq, any_drop_succ_iff, Bool.and_eq_true, beq_iff_eq, bne_iff_ne, and_assoc]

theorem orderedBefore_iff {x y : Access} {fr : Bool} : orderedBefore x y fr = true ↔
    x.kind ≠ .fence ∧ (x.overlaps y = true ∨ (x.acq = true ∧ x.scope ≠ 0) ∨ (y.rel = true ∧ y.scope ≠ 0) ∨
      (y.writes = true ∧ fr = true)) := by
  simp only [orderedBefore, Bool.and_eq_true, Bool.or_eq_true, bne_iff_ne, or_assoc]

theorem readBefore_iff {x : Access} {fa : Bool} : readBefore x fa = true ↔ x.reads = true ∧ fa = true := by
  simp only [readBefore, Bool.and_eq_true]

theorem Access.not_fence_of_reads {x : Access} (h : x.reads = true) : x.kind ≠ .fence := by
  intro hk
  simp [Access.reads, hk] at h

/-- An access may go exactly when every earlier one is performed as far as the fences and accesses behind it in the queue order it. -/
theorem mayGo_iff {m : Memory} {y : Access} {pre : List Access} : mayGo m (fun _ => false) y pre = true ↔
    ∀ i x, pre[i]? = some x → (orderedBefore x y (hasFenceRel (pre.drop (i + 1))) = true → m.performed x = true) ∧
      (readBefore x (hasFenceAcq (pre.drop (i + 1))) = true → m.readPerformed x = true) := by
  induction pre with
  | nil => simp [mayGo]
  | cons a pre ih =>
    have himp : ∀ p q : Bool, (!p || q) = true ↔ (p = true → q = true) := by decide
    simp only [mayGo, Bool.or_false, Bool.and_eq_true, himp, ih]
    constructor
    · rintro ⟨ha, hpre⟩ i x hx
      cases i with
      | zero => obtain rfl : a = x := by simpa using hx
                simpa using ha
      | succ i => simpa using hpre i x (by simpa using hx)
    · intro h
      exact ⟨by simpa using h 0 a rfl, fun i x hx => by simpa using h (i + 1) x (by simpa using hx)⟩

theorem Memory.readPerformed_of_performed {m : Memory} {x : Access} (h : m.performed x = true) : m.readPerformed x = true := by
  unfold Memory.readPerformed
  split
  next fn hk =>
    simp only [Memory.performed, hk, Bool.and_eq_true] at h ⊢
    exact ⟨h.1.1, h.2⟩
  next => exact h

/-- Nothing holds an access back once all that is before it is performed. -/
theorem mayGo_of_performed {m : Memory} {y : Access} {pre : List Access} (h : ∀ x ∈ pre, m.performed x = true) :
    mayGo m (fun _ => false) y pre = true :=
  mayGo_iff.mpr (fun _ x hx =>
    have hp := h x (List.mem_of_getElem? hx)
    ⟨fun _ => hp, fun _ => Memory.readPerformed_of_performed hp⟩)

/-- R202, R370: what must be performed before an access, by the places in the issue queue. -/
theorem mayGo_iff_fences {m : Memory} {y : Access} {pre : List Access} : mayGo m (fun _ => false) y pre = true ↔
    ∀ (i : Nat) (x : Access), pre[i]? = some x → x.kind ≠ .fence →
      ((x.overlaps y = true ∨ (x.acq = true ∧ x.scope ≠ 0) ∨ (y.rel = true ∧ y.scope ≠ 0) ∨
        (y.writes = true ∧ ∃ (j : Nat) (f : Access), i < j ∧ pre[j]? = some f ∧ f.kind = .fence ∧ f.rel = true ∧ f.scope ≠ 0)) →
        m.performed x = true) ∧
      ((x.reads = true ∧ ∃ (j : Nat) (f : Access), i < j ∧ pre[j]? = some f ∧ f.kind = .fence ∧ f.acq = true ∧ f.scope ≠ 0) →
        m.readPerformed x = true) := by
  simp only [mayGo_iff, orderedBefore_iff, readBefore_iff, hasFenceRel_drop, hasFenceAcq_drop]
  constructor
  · intro h i x hx hk
    exact ⟨fun ho => (h i x hx).1 ⟨hk, ho⟩, (h i x hx).2⟩
  · intro h i x hx
    exact ⟨fun ho => (h i x hx ho.1).1 ho.2, fun hr => (h i x hx (Access.not_fence_of_reads hr.1)).2 hr⟩

/-- An atomic without acquire has read once it is applied. -/
theorem readPerformed_atomic {m : Memory} {x : Access} {fn : Nat} (hk : x.kind = .atomic fn) (ha : x.acq = false) :
    m.readPerformed x = true ↔ x.stage = .applied := by
  simp [Memory.readPerformed, hk, ha]

/-! ## Slots that end with a tidied queue -/

/-- Dropping the accesses that are done with changes no thread and no flight, so a slot passes as before. -/
theorem Passes.tidied {s t : State} {c : Ctx} (h : Passes s t c) : Passes s.tidied t.tidied c where
  rest    := congrArg State.tidied h.rest
  lanes   := h.lanes
  threads := h.threads
  flights := h.flights
  flight  := h.flight

/-- An instruction over the lanes of its guard as a whole, none of which it stops. -/
theorem effects_of_issue {i : Instr} {h : HintUse} {g : BitVec 3} {us : List RegUse} {pre : State → Ctx → List Nat → Prop}
    {eff : State → Ctx → List Nat → State}
    (he : ∀ s, exec i s = .next (issue s h g (fun c ls s => (eff s c ls, allDone ls)))) : Effects i h g [] us pre eff := by
  intro s c ls hi _ hls hne _
  exact ⟨_, he s, issueP_passes (body := fun c ls s => (eff s c ls, allDone ls)) hi hls hne allDone_done⟩

/-! ## FENCE (R201) -/

/-- The three fences are one form. -/
theorem fence_effects {i : Instr} {acq rel : Bool} {k g : BitVec 3} (he : ∀ s, exec i s = fence acq rel k g s) :
    Effects i HintUse.none g [] [] (fun _ _ _ => True) (fun s c ls => (ls.foldl (enterFence c acq rel k.toNat) s).tidied) := by
  intro s c ls hi _ hls hne _
  exact ⟨_, he s, (issueP_passes
    (body := fun c ls s => (ls.foldl (enterFence c acq rel k.toNat) s, allDone ls)) hi hls hne allDone_done).tidied⟩

theorem enterFence_mem (c : Ctx) (acq rel : Bool) (k : Nat) (s : State) (l : Nat) :
    ∃ a, (enterFence c acq rel k s l).mem = { s.mem with accs := s.mem.accs ++ [a], nextAcc := s.mem.nextAcc + 1 } ∧
      a.kind = .fence ∧ (a.fk, a.lane, a.acq, a.rel, a.scope) = (c.fk, l, acq, rel, k) :=
  ⟨_, rfl, rfl, rfl⟩

theorem enterFence_thread {c : Ctx} {s : State} {l : Nat} {th : Thread} (acq rel : Bool) (k : Nat) (hl : l < 8)
    (ht : s.thread? c.fk l = some th) : (enterFence c acq rel k s l).thread? c.fk l = some { th with
      relFenced := th.relFenced || (rel && decide (6 ≤ k)), sysFenced := th.sysFenced || (rel && decide (7 ≤ k)) } := by
  rw [enterFence, thread_modThread _ hl hl, if_pos ⟨rfl, rfl⟩]
  exact congrArg (Option.map _) ht

/-- Settles O31: the fences enter the queue, and the order that they and the accesses make is read off the places in it. -/
theorem fenceOrders : Obligations.FenceOrders :=
  ⟨fun _ _ => fence_effects (fun _ => rfl), fun _ _ => fence_effects (fun _ => rfl), fun _ _ => fence_effects (fun _ => rfl),
   fun c acq rel k s l _ hl ht => ⟨enterFence_mem c acq rel k s l, enterFence_thread acq rel k hl ht⟩,
   fun _ _ _ => mayGo_iff_fences, fun _ _ => Memory.readPerformed_of_performed, fun _ _ _ => readPerformed_atomic⟩

/-! ## Instructions that enter accesses (R182, R183) -/

/-- A memory instruction whose lanes all pass their checks enters their accesses, and its slot passes. -/
theorem accessBody_passes {s : State} {c : Ctx} {h : HintUse} {g : BitVec 3} {us : List RegUse} {o : Ctx → AccOrder} {k : Cls}
    {n : Nat} {check : Ctx → State → Thread → Checked} {req : Ctx → Thread → AccReq} {ls : List Nat} (hi : Issues s c h g [])
    (hu : Usable s c g us) (hls : guardLanes s c g = ls) (hne : ls ≠ []) (ha : accessible k check s c ls) :
    Passes (entered o k n check req s c ls) (issue s h g (accessBody us o (some k) n check req)) c := by
  obtain ⟨hroom, hok⟩ := ha
  have hpass : ∀ l ∈ ls, passes s c us check l := by
    intro l hl
    obtain ⟨th, ht⟩ := ctx_thread hi.ctx ((hls ▸ guardLanes_sub s c g).mem hl)
    obtain ⟨p, hp⟩ := hok l hl th ht
    exact ⟨th, p, ht, (hu l (hls ▸ hl) th ht).1, hp⟩
  have hb := accessBody_enters (o := o) (n := n) (req := req) hne (anyAwaits_usable hu hls) hpass hroom
  have hp := issueP_passes (body := accessBody us o (some k) n check req) hi hls hne (by rw [hb]; exact allDone_done)
  rw [hb] at hp
  exact hp

/-- An instruction that is such a body enters what its lanes ask for. -/
theorem effects_of_accessBody {i : Instr} {h : HintUse} {g : BitVec 3} {us : List RegUse} {o : Ctx → AccOrder} {k : Cls} {n : Nat}
    {check : Ctx → State → Thread → Checked} {req : Ctx → Thread → AccReq}
    (he : ∀ s, exec i s = .next (issue s h g (accessBody us o (some k) n check req))) :
    Effects i h g [] us (accessible k check) (entered o k n check req) := by
  intro s c ls hi hu hls hne ha
  exact ⟨_, he s, accessBody_passes hi hu hls hne ha⟩

/-! ## LD, ST, ORD and lr (R187–R191, R197) -/

theorem exec_load : ∀ p ∈ loadOps, ∀ d b o h g s, exec (p.1 d b o h g) s = load d b o h g p.2.1 p.2.2 s := by
  simp only [loadOps, List.forall_mem_cons, List.not_mem_nil, false_imp_iff, implies_true, and_true]
  and_intros
  all_goals intros; rfl

theorem exec_store : ∀ p ∈ storeOps, ∀ d b o h g s, exec (p.1 d b o h g) s = store d b o h g p.2 s := by
  simp only [storeOps, List.forall_mem_cons, List.not_mem_nil, false_imp_iff, implies_true, and_true]
  and_intros
  all_goals intros; rfl

theorem exec_loadAcquire : ∀ p ∈ [(Instr.ldaB32, 4), (Instr.ldaB64, 8)], ∀ d b k h g s,
    exec (p.1 d b k h g) s = loadAcquire d b k h g p.2 s := by
  simp only [List.forall_mem_cons, List.not_mem_nil, false_imp_iff, implies_true, and_true]
  and_intros
  all_goals intros; rfl

theorem exec_storeRelease : ∀ p ∈ [(Instr.stlB32, 4), (Instr.stlB64, 8)], ∀ d b k h g s,
    exec (p.1 d b k h g) s = storeRelease d b k h g p.2 s := by
  simp only [List.forall_mem_cons, List.not_mem_nil, false_imp_iff, implies_true, and_true]
  and_intros
  all_goals intros; rfl

theorem exec_loadReserved : ∀ p ∈ [(Instr.lrB32, 4), (Instr.lrB64, 8)], ∀ d a h g s,
    exec (p.1 d a h g) s = loadReserved d a h g p.2 s := by
  simp only [List.forall_mem_cons, List.not_mem_nil, false_imp_iff, implies_true, and_true]
  and_intros
  all_goals intros; rfl

theorem loadStoreIssue_holds : loadStoreIssue :=
  ⟨fun p hp d b o h g => effects_of_accessBody (exec_load p hp d b o h g),
   fun p hp d b o h g => effects_of_accessBody (exec_store p hp d b o h g),
   fun p hp d b k h g => effects_of_accessBody (exec_loadAcquire p hp d b k h g),
   fun p hp d b k h g => effects_of_accessBody (exec_storeRelease p hp d b k h g),
   fun p hp d a h g => effects_of_accessBody (exec_loadReserved p hp d a h g)⟩

/-! ## ATOM (R192–R196) -/

theorem exec_atom : ∀ p ∈ atomOps, ∀ d a b h g s, exec (p.1 d a b h g) s = atomic d a b h g p.2.2 p.2.1 false s := by
  simp only [atomOps, List.forall_mem_cons, List.not_mem_nil, false_imp_iff, implies_true, and_true]
  and_intros
  all_goals intros; rfl

theorem exec_cas : ∀ p ∈ casOps, ∀ d a b h g s, exec (p.1 d a b h g) s = atomic d a b h g p.2.2 p.2.1 true s := by
  simp only [casOps, List.forall_mem_cons, List.not_mem_nil, false_imp_iff, implies_true, and_true]
  and_intros
  all_goals intros; rfl

/-- Functions 10 and 13, those of cas, are the ones that compare. -/
theorem not_compares_of_atomOps : ∀ p ∈ atomOps, ¬ (p.2.2 = 10 ∨ p.2.2 = 13) := by
  simp [atomOps]

theorem compares_of_casOps : ∀ p ∈ casOps, p.2.2 = 10 ∨ p.2.2 = 13 := by
  simp [casOps]

section

variable {s : State} {c : Ctx} {d a b : BitVec 6} {h : BitVec 1} {g : BitVec 3} {fn n : Nat}

/-- What a lane of an atomic asks for. -/
def atomicReq (fn n : Nat) (b : BitVec 6) (cmp : Thread → Nat) (dest : List Nat) (_ : Ctx) (t : Thread) : AccReq :=
  { kind := .atomic fn, data := operandOf t b n, cmp := cmp t, dest := dest, signed := false }

/-- An atomic that returns its old value joins the LD class. -/
theorem atomic_returning {cas : Bool} (hc : s.ctx? = some c) (hn : c.nr = false) :
    let u := fun (r : BitVec 6) => if n = 8 then pair r else one r
    atomic d a b h g fn n cas s = .next (issue s HintUse.atomic g (accessBody [u d, baseUse h a, u b] atomOrder (some .ld) n
      (checkAt h a 0 n true) (atomicReq fn n b (fun t => if cas then operandOf t d n else 0) (dataRegs d n)))) := by
  simp only [atomic, hc, hn, Bool.false_and, Bool.false_eq_true, if_false]
  rfl

/-- Under .nr one without a comparand names no destination. -/
theorem atomic_noReturn (hc : s.ctx? = some c) (hn : c.nr = true) :
    let u := fun (r : BitVec 6) => if n = 8 then pair r else one r
    atomic 0 a b h g fn n false s = .next (issue s HintUse.atomic g (accessBody [baseUse h a, u b] atomOrder (some .st) n
      (checkAt h a 0 n true) (atomicReq fn n b (fun _ => 0) []))) := by
  simp only [atomic, hc, hn, bne_self_eq_false, Bool.and_false, Bool.false_eq_true, if_false, if_true, List.nil_append]
  rfl

/-- Under .nr a cas still reads its comparand from d. -/
theorem atomic_noReturn_cas (hc : s.ctx? = some c) (hn : c.nr = true) :
    let u := fun (r : BitVec 6) => if n = 8 then pair r else one r
    atomic d a b h g fn n true s = .next (issue s HintUse.atomic g (accessBody [u d, baseUse h a, u b] atomOrder (some .st) n
      (checkAt h a 0 n true) (atomicReq fn n b (fun t => operandOf t d n) []))) := by
  simp only [atomic, hc, hn, Bool.not_true, Bool.and_false, Bool.false_and, Bool.false_eq_true, if_false, if_true,
    List.singleton_append]
  rfl

/-- R51, R196: under .nr a destination is illegal. -/
theorem atomic_illegal (hc : s.ctx? = some c) (hn : c.nr = true) (hd : d ≠ 0) :
    atomic d a b h g fn n false s = .next (trapAll c s (trap .illegal 0)) := by
  have hb : (d != 0) = true := bne_iff_ne.mpr hd
  simp only [atomic, hc, hn, hb, Bool.not_false, Bool.and_true, if_true]

end

theorem atomicIssue_holds : atomicIssue := by
  refine ⟨fun p hp d a b h g => ?_, fun p hp a b h g => ?_, fun p hp d a b h g => ?_, fun p hp d a b h g s c hd hc hn hd0 hh hm => ?_⟩
  · -- with a destination
    rintro s c ls hi hu hls hne ⟨hn, ha⟩
    rcases List.mem_append.mp hp with hp | hp
    · simp only [not_compares_of_atomOps p hp, if_false]
      exact ⟨_, (exec_atom p hp d a b h g s).trans (atomic_returning hi.ctx hn), accessBody_passes hi hu hls hne ha⟩
    · simp only [compares_of_casOps p hp, if_true]
      exact ⟨_, (exec_cas p hp d a b h g s).trans (atomic_returning hi.ctx hn), accessBody_passes hi hu hls hne ha⟩
  · -- under .nr, without a comparand
    rintro s c ls hi hu hls hne ⟨hn, ha⟩
    exact ⟨_, (exec_atom p hp 0 a b h g s).trans (atomic_noReturn hi.ctx hn), accessBody_passes hi hu hls hne ha⟩
  · -- under .nr, with a comparand
    rintro s c ls hi hu hls hne ⟨hn, ha⟩
    exact ⟨_, (exec_cas p hp d a b h g s).trans (atomic_noReturn_cas hi.ctx hn), accessBody_passes hi hu hls hne ha⟩
  · -- under .nr, with a destination that must not be
    exact ⟨_, (exec_atom p hp d a b h g s).trans (atomic_illegal hc hn hd0), conclude_enters hc (List.Sublist.refl _) hh hm⟩

/-- Settles O27: every member is a body that enters one access a lane; the atomics by what .nr makes of them. -/
theorem memoryIssue : Obligations.MemoryIssue := ⟨loadStoreIssue_holds, atomicIssue_holds⟩

/-! ## sc (R198, R199, R383) -/

theorem exec_storeConditional : ∀ p ∈ [(Instr.scB32, 4), (Instr.scB64, 8)], ∀ P a b h g s,
    exec (p.1 P a b h g) s = storeConditional P a b h g p.2 s := by
  simp only [List.forall_mem_cons, List.not_mem_nil, false_imp_iff, implies_true, and_true]
  and_intros
  all_goals intros; rfl

/-- A lane whose earlier accesses are all performed has no lr under way. -/
theorem lrPending_of_performed {m : Memory} {fk l : Nat} (h : ∀ x ∈ m.accs, x.fk = fk → x.lane = l → m.performed x = true) :
    lrPending m fk l = false := by
  refine List.any_eq_false.mpr (fun x hx hlr => ?_)
  simp only [Bool.and_eq_true, beq_iff_eq] at hlr
  obtain ⟨⟨⟨hfk, hl⟩, hk⟩, hst⟩ := hlr
  have hp := h x hx hfk hl
  simp [Memory.performed, hk, hst] at hp

theorem earlier_performed {m : Memory} {fk l n : Nat} (h : ∀ x ∈ m.accs, x.fk = fk → x.lane = l → m.performed x = true) :
    ∀ x ∈ m.earlier fk l n, m.performed x = true := by
  intro x hx
  simp only [Memory.earlier, List.mem_filter, Bool.and_eq_true, beq_iff_eq] at hx
  obtain ⟨hx, ⟨hfk, hl⟩, -⟩ := hx
  exact h x hx hfk hl

/-- The registers that an sc of `n` bytes names: its base and its value. -/
abbrev scUses (h : BitVec 1) (a b : BitVec 6) (n : Nat) : List RegUse := [baseUse h a, if n = 8 then pair b else one b]

/-- A thread that its sc has answered: P says whether it wrote, and the reservation is gone (R198). -/
def scSettled (c : Ctx) (P : BitVec 3) (wrote : Bool) (s : State) (l : Nat) : State :=
  s.modThread c.fk l (fun t => { t.setPred P.toNat wrote with resv := none, lrsc := none, crossed := none })

/-- The clock that a write of the die leaves where it carries one (R372). -/
def carriedClock (c : Ctx) (s : State) (carries : Bool) : List Nat :=
  if carries then s.mem.clockOf (c.ld.core / 48) else [0, 0, 0, 0]

/-- What a successful sc leaves: its thread settled, its bytes applied at the home. -/
def scWritten (c : Ctx) (P : BitVec 3) (b : BitVec 6) (n : Nat) (s : State) (l : Nat) (th : Thread) (k : Loc) : State :=
  ((scSettled c P true s l).applyAt k.space k.addr k.key 0 (bytesLE n (operandOf th b n)) th.relFenced
    (carriedClock c s th.relFenced, carriedClock c s (th.relFenced && th.sysFenced))).1

section

variable {s : State} {c : Ctx} {P g : BitVec 3} {a b : BitVec 6} {h : BitVec 1} {n : Nat}

/-- R182, R238: what holds the group does so before any lane of the sc takes effect. -/
theorem storeConditional_hold {ls : List Nat} {s1 : State} {st : Stall} (hi : Issues s c HintUse.none g [])
    (hu : Usable s c g (scUses h a b n)) (hls : guardLanes s c g = ls) (hne : ls ≠ [])
    (hh : (checkLanes (scUses h a b n) (checkAt h a 0 n true) c ls s).hold c ls s = some (s1, st)) :
    storeConditional P a b h g n s = .next (conclude c s1 [(ls.headD 0, .hold st)]).tidied := by
  simp only [storeConditional, issue, issueP_eq hi hls hne, anyAwaits_usable hu hls, Bool.false_eq_true, if_false, hh]

/-- Where nothing does, the lanes act one after another. -/
theorem storeConditional_lanes {ls : List Nat} (hi : Issues s c HintUse.none g []) (hu : Usable s c g (scUses h a b n))
    (hls : guardLanes s c g = ls) (hne : ls ≠ [])
    (hh : (checkLanes (scUses h a b n) (checkAt h a 0 n true) c ls s).hold c ls s = none) :
    let r := ls.foldl (scLane c (scUses h a b n) h P a b n) (s, [])
    storeConditional P a b h g n s = .next (conclude c r.1 r.2).tidied := by
  simp only [storeConditional, issue, issueP_eq hi hls hne, anyAwaits_usable hu hls, Bool.false_eq_true, if_false, hh]

variable {l : Nat} {th : Thread} {k : Loc}

/-- An sc of one lane, which passes its check, does what that lane does. -/
theorem storeConditional_lane (hi : Issues s c HintUse.none g []) (hu : Usable s c g (scUses h a b n))
    (hls : guardLanes s c g = [l]) (ht : s.thread? c.fk l = some th) (hk : checkAt h a 0 n true c s th = .ok k) :
    let r := scLane c (scUses h a b n) h P a b n (s, []) l
    storeConditional P a b h g n s = .next (conclude c r.1 r.2).tidied := by
  have hpass : ∀ j ∈ [l], passes s c (scUses h a b n) (checkAt h a 0 n true) j := by
    intro j hj
    obtain rfl := List.mem_singleton.mp hj
    exact ⟨th, k, ht, (hu j (hls ▸ hj) th ht).1, hk⟩
  obtain ⟨hoks, -, -⟩ := checks_pass (fun s _ _ _ => s) [l] hpass
  exact storeConditional_lanes hi hu hls (List.cons_ne_nil _ _) (hold_ok c [l] s hoks)

theorem slotAccess_clocks {kind : AccKind} {causal : Bool} (ht : s.thread? c.fk l = some th) :
    (slotAccess c s l kind causal n k).clocks = (carriedClock c s causal, carriedClock c s (causal && th.sysFenced)) := by
  cases causal <;> simp [slotAccess, Access.clocks, carriedClock, ht]

variable (hp : ∀ x ∈ s.mem.accs, x.fk = c.fk → x.lane = l → s.mem.performed x = true)
include hp

/-- R202, R377: an sc with its reservation waits for what a write would wait for. -/
theorem scMayGo_of_reserves (hr : th.reserves k = true) (hv : s.mem.covers (c.ld.core / 48) c.fl.cover = true)
    (hc : th.relFenced = true → k.space = .stack →
      carriedOk s.mem (homeDie k.addr) (s.mem.clockOf (c.ld.core / 48)) = true) : scMayGo c s l n th k = true := by
  rw [scMayGo, if_pos hr, slotMayGo, hv, mayGo_of_performed (earlier_performed hp)]
  cases hf : th.relFenced
  · rfl
  · by_cases hs : k.space = .stack
    · simp [hc hf hs]
    · simp [hs]

/-- R202: one without waits for no clock. -/
theorem scMayGo_of_not_reserves (hr : th.reserves k = false) : scMayGo c s l n th k = true := by
  rw [scMayGo, hr, mayGo_of_performed (earlier_performed hp)]
  rfl

variable {us : List RegUse} (ht : s.thread? c.fk l = some th) (hg : regTrap c.ld.regs th us = none)
  (hk : checkAt h a 0 n true c s th = .ok k)
include ht hg hk

/-- A lane with its reservation writes at the home; the write stays in the list of accesses until it is performed. -/
theorem scLane_writes (hr : th.reserves k = true) (hgo : scMayGo c s l n th k = true) :
    ∃ accs m, scLane c us h P a b n (s, []) l =
      ({ scWritten c P b n s l th k with mem := { (scWritten c P b n s l th k).mem with accs := accs, nextAcc := m } },
        [(l, .done)]) := by
  simp only [scLane, ht, hg, hk, List.any_nil, lrPending_of_performed hp, hgo, Bool.not_true, Bool.or_self, Bool.false_eq_true,
    if_false, hr, if_true, List.nil_append]
  simp only [scWritten, ← slotAccess_clocks (k := k) (kind := .store) (n := n) ht]
  exact ⟨_, _, rfl⟩

/-- A lane without one writes nothing. -/
theorem scLane_fails (hr : th.reserves k = false) :
    scLane c us h P a b n (s, []) l = (scSettled c P false s l, [(l, .done)]) := by
  simp only [scLane, ht, hg, hk, List.any_nil, lrPending_of_performed hp, scMayGo_of_not_reserves hp hr, hr, Bool.not_true,
    Bool.or_self, Bool.false_eq_true, if_false, List.nil_append]
  rfl

end

/-- The slot of an sc of one lane that has acted passes. -/
theorem scLane_passes {s s1 : State} {c : Ctx} {l : Nat} {r : State × List (Nat × Res)} (hc : s.ctx? = some c)
    (hr : r = (s1, [(l, .done)])) : Passes s1.tidied (conclude c r.1 r.2).tidied c := by
  subst hr
  exact (conclude_passes hc (allDone_done (ls := [l]))).tidied

/-! ## clrres (R198) -/

theorem dropResv_thread {s : State} {fk l : Nat} {th : Thread} (hl : l < 8) (ht : s.thread? fk l = some th) :
    (dropResv fk s l).thread? fk l = some { th with resv := none, lrsc := none } := by
  rw [dropResv, thread_modThread _ hl hl, if_pos ⟨rfl, rfl⟩]
  exact congrArg (Option.map _) ht

/-- Settles O30: the hold of the group, the two ends of one lane's sc, and clrres. -/
theorem storeConditional_holds : Obligations.StoreConditional := by
  refine ⟨fun p hp P a b h g s c => ?_, fun g => effects_of_issue (fun _ => rfl), fun s fk l th => dropResv_thread⟩
  simp only [exec_storeConditional p hp]
  intro hi hu
  refine ⟨fun ls hls hne => ?_, fun l th k hls ht hk hperf => ⟨fun hr hv hc => ?_, fun hr => ?_⟩⟩
  · -- the whole group
    split
    next hh => exact storeConditional_hold hi hu hls hne hh
    next hh => exact storeConditional_lanes hi hu hls hne hh
  · -- one lane with its reservation
    have hg := (hu l (hls ▸ List.mem_singleton_self l) th ht).1
    obtain ⟨accs, m, hlane⟩ := scLane_writes (P := P) (b := b) hperf ht hg hk hr (scMayGo_of_reserves hperf hr hv hc)
    have hpass := scLane_passes hi.ctx hlane
    exact ⟨_, _, _, storeConditional_lane hi hu hls ht hk, hpass⟩
  · -- one lane without
    have hg := (hu l (hls ▸ List.mem_singleton_self l) th ht).1
    exact ⟨_, storeConditional_lane hi hu hls ht hk, scLane_passes hi.ctx (scLane_fails (P := P) (b := b) hperf ht hg hk hr)⟩

end Sys2Proof.Machine

/-!
SUPPORT. The instructions of the matrix engine (11_matrix.md): what accepting an accumulator operation leaves (R257, R263, R264), a
tensor record's lanes in turn (R253, R254), and a round that a matrix instruction completes (R246).
-/

namespace Sys2Proof.Machine

/-! ## What the acceptance of an accumulator operation leaves (R257, R263) -/

theorem tgetD_tmodD {α : Type} [DecidableEq α] (d : α) (t : Tab α) (k j : Nat) (f : α → α) :
    tgetD d (tmodD d t k f) j = if k = j then f (tgetD d t k) else tgetD d t j :=
  tgetD_tputD d t k j _

/-- R256: the landing with a tile that it writes. -/
def Landing.withTile (tile : Nat) (l : Landing) : Landing :=
  { l with tiles := if l.tiles.contains tile then l.tiles else l.tiles ++ [tile] }

theorem Landing.withTile_eq (tile : Nat) (l : Landing) :
    l.withTile tile = if tile ∉ l.tiles then { l with tiles := l.tiles ++ [tile] } else l := by
  by_cases h : tile ∈ l.tiles <;> simp [Landing.withTile, h]

/-- Acceptance changes the engine's queue, the flight's MX counter and, for a member that writes its tile, the landing. -/
theorem acceptAcc_eq (c : Ctx) (op : MxOp) (s : State) :
    acceptAcc c op s = { s with
      mxq := tmodD [] s.mxq c.ld.core (fun q => q ++ [op])
      flights := tmod s.flights c.fk (fun f => f.modCounter .mx Counter.join)
      landings := if op.kind = .zero ∨ op.kind = .ld then tmod s.landings c.lid (Landing.withTile op.tile) else s.landings } := by
  unfold acceptAcc
  cases h : op.kind <;> rfl

theorem accAccepted_holds : accAccepted := by
  intro c op s
  rw [acceptAcc_eq]
  refine ⟨?_, fun k hk => ?_, fun f hf => ?_, fun k hk => ?_, fun ld hld => ?_, fun k hk => ?_, rfl, fun _ _ _ => rfl⟩
  · simp only [tgetD_tmodD, if_true]
  · simp only [tgetD_tmodD, if_neg (Ne.symm hk)]
  · simp only [tget_tmod_self, hf]; rfl
  · exact tget_tmod_ne (Ne.symm hk)
  · by_cases hw : op.kind = .zero ∨ op.kind = .ld
    · simp [hw, hld, Landing.withTile_eq]
    · simp [hw, hld]
  · by_cases hw : op.kind = .zero ∨ op.kind = .ld
    · simp [hw, tget_tmod_ne (Ne.symm hk)]
    · simp [hw]

/-! ## The members that act once (R263, R264) -/

/-- What a member does from the lowest lane of G, whose registers can be used: it stops at its first failing check, waits for room in the
MX class, or is accepted. -/
def accBody (mk : Ctx → State → Thread → Nat → Option Res × MxOp) (c : Ctx) (s : State) (t : Thread) (l : Nat) (ls : List Nat) :
    State × List (Nat × Res) :=
  match (mk c s t l).1 with
  | some x => (s, laneRes ls l x)
  | none => if c.fl.full .mx then (s, [(l, .hold .classFull)]) else (acceptAcc c (mk c s t l).2 s, allDone ls)

theorem accOnce_eq_clactl (us : List RegUse) (g : BitVec 3) (mk : Ctx → State → Thread → Nat → Option Res × MxOp) (s : State) :
    accOnce us g mk s = clactl us g (accBody mk) s := rfl

/-- A member whose checks pass and whose class has room enters its operation. -/
theorem accBody_accepts {mk : Ctx → State → Thread → Nat → Option Res × MxOp} {c : Ctx} {s : State} {t : Thread} {l : Nat} {ls : List Nat}
    (hm : (mk c s t l).1 = none) (hf : c.fl.full .mx = false) :
    accBody mk c s t l ls = (acceptAcc c (mk c s t l).2 s, allDone ls) := by
  simp only [accBody, hm, hf, Bool.false_eq_true, if_false]

theorem leads_of_accOnce {i : Instr} {g : BitVec 3} {us : List RegUse} {mk : Ctx → State → Thread → Nat → Option Res × MxOp}
    {pre : State → Ctx → List Nat → Thread → Prop} {op : State → Ctx → List Nat → Thread → MxOp}
    (he : ∀ s, exec i s = accOnce us g mk s)
    (hop : ∀ s c ls th, (mk c s th (ls.headD 0)).2 = op s c ls th)
    (hpre : ∀ s c ls th, pre s c ls th → c.fl.full .mx = false ∧ (mk c s th (ls.headD 0)).1 = none) :
    Leads i HintUse.none g us pre (fun s c ls th => acceptAcc c (op s c ls th) s) := by
  intro s c ls th hi hls hne ht hr ha hp
  obtain ⟨hf, hm⟩ := hpre s c ls th hp
  have hb := accBody_accepts (ls := ls) hm hf
  obtain ⟨t, h1, h2⟩ := clactl_passes (f := accBody mk) hi hls hne ht hr ha (by rw [hb]; exact allDone_done)
  rw [hb, hop] at h2
  exact ⟨t, (he s).trans ((accOnce_eq_clactl us g mk s).trans h1), h2⟩

theorem exec_accZero (tile : BitVec 7) (g : BitVec 3) (s : State) :
    exec (.accZero tile g) s = accOnce [] g (fun c _ _ l => (none, accOp c .zero l tile.toNat)) s := rfl

theorem exec_accLd (tile : BitVec 7) (a : BitVec 6) (g : BitVec 3) (s : State) :
    exec (.accLd tile a g) s = accOnce [one a] g (fun c s th l => (areaCheck c (s.coresOf c.tr.part) (th.reg a.toNat) 32768 false,
      { accOp c .ld l tile.toNat with addr := th.reg a.toNat })) s := rfl

theorem exec_accTab (a : BitVec 6) (g : BitVec 3) (s : State) :
    exec (.accTab a g) s = accOnce [one a] g (fun c s th l => (areaCheck c (s.coresOf c.tr.part) (th.reg a.toNat) 2064 false,
      { accOp c .tab l 0 with addr := th.reg a.toNat })) s := rfl

/-- R264: the checks of acc.st in their order. -/
def accStChecks (c : Ctx) (cores : List Nat) (w addr bias scale : Word) : List (Option Res) :=
  [if cwOk w then none else some (.trap (trap .illegalFormat 0)), areaCheck c cores addr (64 * 16 * outWidth (cwOfmt w)) true,
   if cwBias w then areaCheck c cores bias 512 false else none, if cwRq w then areaCheck c cores scale 256 true else none]

theorem accStChecks_pass {c : Ctx} {cores : List Nat} {w addr bias scale : Word} (hw : cwOk w = true)
    (ha : areaCheck c cores addr (1024 * outWidth (cwOfmt w)) true = none)
    (hb : cwBias w = true → areaCheck c cores bias 512 false = none)
    (hs : cwRq w = true → areaCheck c cores scale 256 true = none) : firstRes (accStChecks c cores w addr bias scale) = none := by
  have hb' : (if cwBias w then areaCheck c cores bias 512 false else none) = none := by split <;> simp_all
  have hs' : (if cwRq w then areaCheck c cores scale 256 true else none) = none := by split <;> simp_all
  simp only [accStChecks, hw, if_true, Nat.reduceMul, ha, hb', hs', firstRes]

theorem exec_accSt (tile : BitVec 7) (a d : BitVec 6) (g : BitVec 3) (s : State) :
    exec (.accSt tile a d g) s = accOnce [one a, quad d] g (fun c s th l =>
      (firstRes (accStChecks c (s.coresOf c.tr.part) (th.reg d.toNat) (th.reg a.toNat) (th.reg (d.toNat + 1)) (th.reg (d.toNat + 2))),
        { accOp c .st l tile.toNat with
          word := th.reg d.toNat, addr := th.reg a.toNat, bias := th.reg (d.toNat + 1), scale := th.reg (d.toNat + 2) })) s := rfl

/-! ## acc.rd (R263) -/

/-- The check of a lane of acc.rd: its sixteen registers start at a multiple of 16. -/
def accRdCheck (n : Nat) (a d : BitVec 6) (th : Thread) : Option Trap :=
  if d.toNat % 16 ≠ 0 then some (trap .illegalRegister d.toNat)
  else regTrap n th [{ r := a.toNat, n := 1 }, { r := d.toNat, n := 16 }]

/-- The thread with its sixteen registers leased to operation `n` of its flight. -/
def Thread.leaseRead (d n : Nat) (th : Thread) : Thread :=
  { th with leases := th.leases ++ (List.range 16).map (fun i => { reg := d + i, by_ := .op .mx n }) }

/-- acc.rd over the lanes of G; a lane that traps counts as outside G. -/
def accRdBody (tile : BitVec 7) (a d : BitVec 6) : Body := fun c ls s =>
  if anyAwaits s c.fk (allRegs [one a, { r := d.toNat, n := 16 }]) ls then (s, [(ls.headD 0, .hold .register)])
  else
    let x := splitLanes s c.fk ls (accRdCheck c.ld.regs a d)
    match x.1 with
    | [] => (s, x.2)
    | p :: _ =>
      if c.fl.full .mx then (s, [(p.1, .hold .classFull)])
      else
        (acceptAcc c { accOp c .rd p.1 tile.toNat with dest := d.toNat, sels := x.1.map (fun q => (q.1, q.2.reg a.toNat)) }
          (x.1.foldl (fun s q => s.modThread c.fk q.1 (Thread.leaseRead d.toNat c.fl.cMx.issued)) s), allDone (x.1.map (·.1)) ++ x.2)

theorem exec_accRd (tile : BitVec 7) (a d : BitVec 6) (g : BitVec 3) (s : State) :
    exec (.accRd tile a d g) s = .next (issue s HintUse.none g (accRdBody tile a d)) := by
  have hregs : allRegs [one a, { r := d.toNat, n := 16 }] = a.toNat :: (List.range 16).map (fun i => d.toNat + i) := by
    simp [allRegs, RegUse.regs, one]
  unfold accRdBody
  simp only [hregs]
  rfl

theorem accRdBody_accepts {tile : BitVec 7} {a d : BitVec 6} {g : BitVec 3} {c : Ctx} {ls : List Nat} {s : State} (hd : d.toNat % 16 = 0)
    (hc : s.ctx? = some c) (hu : Usable s c g [one a, { r := d.toNat, n := 16 }]) (hls : guardLanes s c g = ls) (hne : ls ≠ [])
    (hf : c.fl.full .mx = false) :
    accRdBody tile a d c ls s = (acceptAcc c
      { accOp c .rd (ls.headD 0) tile.toNat with dest := d.toNat, sels := (party s c ls).map (fun p => (p.1, p.2.reg a.toNat)) }
      (ls.foldl (fun s l => s.modThread c.fk l (Thread.leaseRead d.toNat c.fl.cMx.issued)) s), allDone ls) := by
  have hsplit : splitLanes s c.fk ls (accRdCheck c.ld.regs a d) = (party s c ls, []) :=
    splitLanes_all (fun l hl th ht => by
      rw [accRdCheck, if_neg (not_not_intro hd)]; exact (hu l (hls ▸ hl) th ht).1)
  have hfst := party_guard hc hls
  have hfold : (party s c ls).foldl (fun s q => s.modThread c.fk q.1 (Thread.leaseRead d.toNat c.fl.cMx.issued)) s =
      ls.foldl (fun s l => s.modThread c.fk l (Thread.leaseRead d.toNat c.fl.cMx.issued)) s :=
    List.foldl_map.symm.trans
      (congrArg (List.foldl (fun s l => s.modThread c.fk l (Thread.leaseRead d.toNat c.fl.cMx.issued)) s) hfst)
  cases hp : party s c ls with
  | nil => rw [hp] at hfst; exact absurd hfst.symm hne
  | cons p ps =>
    have hhead : ls.headD 0 = p.1 := by rw [← hfst, hp]; rfl
    rw [hp] at hsplit hfst hfold
    simp only [accRdBody, anyAwaits_usable hu hls, Bool.false_eq_true, if_false, hsplit, hf, hfst, hfold, hhead, List.append_nil]

theorem accumulatorMembers_holds : accumulatorMembers := by
  refine ⟨fun tile g => ?_, fun tile a g => ?_, fun a g => ?_, fun tile a d g => ?_, fun tile a d g hd => ?_⟩
  · exact leads_of_accOnce (exec_accZero tile g) (fun _ _ _ _ => rfl) (fun _ _ _ _ hf => ⟨hf, rfl⟩)
  · exact leads_of_accOnce (exec_accLd tile a g) (fun _ _ _ _ => rfl) (fun _ _ _ _ h => h)
  · exact leads_of_accOnce (exec_accTab a g) (fun _ _ _ _ => rfl) (fun _ _ _ _ h => h)
  · exact leads_of_accOnce (exec_accSt tile a d g) (fun _ _ _ _ => rfl)
      (fun _ _ _ _ ⟨hf, hw, ha, hb, hs⟩ => ⟨hf, accStChecks_pass hw ha hb hs⟩)
  · intro s c ls hi hu hls hne hf
    have hb := accRdBody_accepts (tile := tile) hd hi.ctx hu hls hne hf
    have hp := issueP_passes (body := accRdBody tile a d) hi hls hne (by rw [hb]; exact allDone_done)
    rw [hb] at hp
    exact ⟨_, exec_accRd tile a d g s, hp⟩

/-- Settles O41: the members that act once are one body, acc.rd its own; acceptance changes what `acceptAcc_eq` names. -/
theorem accumulatorAccept : Obligations.AccumulatorAccept := ⟨accAccepted_holds, accumulatorMembers_holds⟩

/-! ## Registers of a shorter list of uses -/

theorem illegalReg_left {n : Nat} {us vs : List RegUse} (h : illegalReg n (us ++ vs) = none) : illegalReg n us = none := by
  induction us with
  | nil => rfl
  | cons u us ih =>
    rw [List.cons_append, illegalReg] at h
    rw [illegalReg]
    split at h
    · cases h
    · split at h
      · cases h
      · next h1 h2 => rw [if_neg h1, if_neg h2]; exact ih h

theorem leaseTrap_left {th : Thread} {rs qs : List Nat} (h : leaseTrap th (rs ++ qs) = none) : leaseTrap th rs = none := by
  induction rs with
  | nil => rfl
  | cons r rs ih =>
    rw [List.cons_append, leaseTrap] at h
    rw [leaseTrap]
    split at h
    · cases h
    · next h1 => rw [if_neg h1]; exact ih h

/-- Registers that can all be used can be used without the last of them. -/
theorem regTrap_left {n : Nat} {th : Thread} {us vs : List RegUse} (h : regTrap n th (us ++ vs) = none) : regTrap n th us = none := by
  unfold regTrap at h ⊢
  cases hi : illegalReg n (us ++ vs) with
  | some x => rw [hi] at h; cases h
  | none =>
    rw [hi, allRegs, List.flatMap_append] at h
    rw [illegalReg_left hi]
    exact leaseTrap_left h

theorem awaits_subset {th : Thread} {rs qs : List Nat} (hsub : qs ⊆ rs) (h : th.awaits rs = false) : th.awaits qs = false := by
  simp only [Thread.awaits, List.any_eq_false, List.contains_iff_mem] at h ⊢
  exact fun p hp hq => h p hp (hsub hq)

theorem anyAwaits_subset {s : State} {fk : Nat} {rs qs ls : List Nat} (hsub : qs ⊆ rs) (h : anyAwaits s fk rs ls = false) :
    anyAwaits s fk qs ls = false := by
  refine anyAwaits_false (fun l hl th ht => awaits_subset hsub ?_)
  have hl := List.any_eq_false.mp h l hl
  rw [ht] at hl
  exact Bool.not_eq_true _ ▸ hl

/-! ## TREC (R253, R254) -/

/-- The members of TREC, with their functions. -/
noncomputable abbrev trecOps : List ((BitVec 6 → BitVec 6 → BitVec 6 → BitVec 3 → Instr) × Nat) :=
  [((fun d a _ g => Instr.trecMk d a g), 0), ((fun d a _ g => Instr.trecChk d a g), 1), (Instr.trecStep, 2)]

/-- Only trec.step names a third register. -/
theorem exec_trec : ∀ x ∈ trecOps, ∀ d a b g s, exec (x.1 d a b g) s = trec x.2 d a (if x.2 = 2 then b else a) g s := by
  simp only [trecOps, List.forall_mem_cons, List.not_mem_nil, false_imp_iff, implies_true, and_true]
  and_intros
  all_goals intros; rfl

theorem trecUses_eq (fn : Nat) (d a b : BitVec 6) :
    trecUses fn d a (if fn = 2 then b else a) = if fn = 2 then [one d, one a, one b] else [one d, one a] := by
  by_cases h : fn = 2 <;> simp [trecUses, h]

section

variable {fn : Nat} {d a b : BitVec 6} {g : BitVec 3} {s : State} {c : Ctx} {ls : List Nat}

/-- What holds the group does so before any lane takes its turn (R238). -/
theorem trec_hold {s1 : State} {st : Stall} (hi : Issues s c HintUse.none g []) (hls : guardLanes s c g = ls) (hne : ls ≠ [])
    (ha : anyAwaits s c.fk [d.toNat, a.toNat, b.toNat] ls = false)
    (hh : (checkLanes (trecUses fn d a b) (trecCheck fn a) c ls s).hold c ls s = some (s1, st)) :
    trec fn d a b g s = .next (conclude c s1 [(ls.headD 0, .hold st)]) := by
  simp only [trec, issue, issueP_eq hi hls hne, ha, Bool.false_eq_true, if_false, hh]

/-- Where nothing does, the lanes take their turns. -/
theorem trec_turns (hi : Issues s c HintUse.none g []) (hls : guardLanes s c g = ls) (hne : ls ≠ [])
    (ha : anyAwaits s c.fk [d.toNat, a.toNat, b.toNat] ls = false)
    (hh : (checkLanes (trecUses fn d a b) (trecCheck fn a) c ls s).hold c ls s = none) :
    let r := ls.foldl (trecLane c fn d a b) (s, [])
    trec fn d a b g s = .next (conclude c r.1 r.2) := by
  simp only [trec, issue, issueP_eq hi hls hne, ha, Bool.false_eq_true, if_false, hh]

variable {l : Nat} {th : Thread} {p : Loc}

/-- One lane that has taken its turn passes on from the state that its turn left. -/
theorem trec_passes {i : Instr} {s1 : State} (he : exec i s = trec fn d a b g s) (hi : Issues s c HintUse.none g [])
    (hls : guardLanes s c g = [l]) (ht : s.thread? c.fk l = some th) (hr : regTrap c.ld.regs th (trecUses fn d a b) = none)
    (ha : th.awaits [d.toNat, a.toNat, b.toNat] = false) (hk : trecCheck fn a c s th = .ok p)
    (hlane : trecLane c fn d a b (s, []) l = (s1, [(l, .done)])) :
    ∃ t, exec i s = .next t ∧ Passes s1 t c := by
  have hna : anyAwaits s c.fk [d.toNat, a.toNat, b.toNat] [l] = false := anyAwaits_false (fun j hj t h => by
    rw [List.mem_singleton.mp hj, ht] at h; cases h; exact ha)
  obtain ⟨hoks, -, -⟩ := checks_pass (us := trecUses fn d a b) (check := trecCheck fn a) (c := c) (fun s _ _ _ => s) [l]
    (fun j hj => ⟨th, p, by rw [List.mem_singleton.mp hj]; exact ht, hr, hk⟩)
  have ht := trec_turns hi hls (List.cons_ne_nil _ _) hna (hold_ok c [l] s hoks)
  rw [List.foldl_cons, List.foldl_nil, hlane] at ht
  exact ⟨_, he.trans ht, conclude_passes hi.ctx (allDone_done (ls := [l]))⟩

/-- A lane of TREC writes its register, and its access ends a constrained sequence (R99). -/
def trecPut (c : Ctx) (l : Nat) (d : BitVec 6) (s : State) (w : Word) : State :=
  s.modThread c.fk l (fun t => { t.setReg d.toNat w with lrsc := none, crossed := none })

variable (ht : s.thread? c.fk l = some th)
include ht

/-- R4, R253: trec.mk writes the two words that its check decides and returns the status. -/
theorem trecLane_mk (hr : regTrap c.ld.regs th (trecUses 0 d a b) = none) (hk : trecCheck 0 a c s th = .ok p)
    (hgo : trecMayGo 0 c s l p = true) :
    let bs := recordAt s.mem c.ld.core (th.reg a.toNat).toNat
    let st := (tensorOf bs).status (s.coresOf c.tr.part) c.ld.core
    trecLane c 0 d a b (s, []) l = (trecPut c l d (s.applyHall p.addr
      (bytesLE 4 (field bs 0 4 % 2 ^ 16 + (if st = 0 then 2 ^ 31 else 0)) ++ bytesLE 4 (if st = 0 then (tensorOf bs).count else 0)))
      (BitVec.ofNat 32 st), [(l, .done)]) := by
  simp only [trecLane, ht, hr, hk, List.any_nil, hgo, Bool.not_true, Bool.or_self, Bool.false_eq_true, if_false, List.nil_append,
    trecPut]

/-- R253: trec.chk returns the status. -/
theorem trecLane_chk (hr : regTrap c.ld.regs th (trecUses 1 d a b) = none) (hk : trecCheck 1 a c s th = .ok p)
    (hgo : trecMayGo 1 c s l p = true) :
    trecLane c 1 d a b (s, []) l = (trecPut c l d s (BitVec.ofNat 32
      ((tensorOf (recordAt s.mem c.ld.core (th.reg a.toNat).toNat)).status (s.coresOf c.tr.part) c.ld.core)), [(l, .done)]) := by
  simp only [trecLane, ht, hr, hk, List.any_nil, hgo, Bool.not_true, Bool.or_self, Bool.false_eq_true, if_false, List.nil_append,
    trecPut]

/-- R254: trec.step returns the index of the next tile of a valid record. -/
theorem trecLane_step (hr : regTrap c.ld.regs th (trecUses 2 d a b) = none) (hk : trecCheck 2 a c s th = .ok p)
    (hgo : trecMayGo 2 c s l p = true) :
    let bs := recordAt s.mem c.ld.core (th.reg a.toNat).toNat
    trecLane c 2 d a b (s, []) l = (trecPut c l d s
      (if bit (field bs 0 4) 31 = true ∧ field bs 4 4 ≠ 0 then BitVec.ofNat 32 (((th.reg b.toNat).toNat + 1) % field bs 4 4)
       else 0xFFFFFFFF), [(l, .done)]) := by
  simp only [trecLane, ht, hr, hk, List.any_nil, hgo, Bool.not_true, Bool.or_self, Bool.false_eq_true, if_false, List.nil_append,
    trecPut, Bool.and_eq_true, bne_iff_ne]

end

theorem trecMayGo_load {fn : Nat} {c : Ctx} {s : State} {l : Nat} {p : Loc} (h : slotMayGo c s l .load false 128 p = true)
    (hs : fn = 0 → slotMayGo c s l .store false 8 p = true) : trecMayGo fn c s l p = true := by
  by_cases hf : fn = 0
  · simp [trecMayGo, h, hs hf]
  · simp [trecMayGo, h, hf]

/-- Settles O42: the group is held or its lanes take their turns; one lane that may act leaves what its member's lemma says. -/
theorem tensorRecords : Obligations.TensorRecords := by
  refine ⟨fun x hx d a b g s c ls hi hls hne ha => ?_, fun d a b g s c l th p hi hls ht hr ha hkw hkr hgo => ⟨fun hst => ?_, ?_, ?_⟩⟩
  · have ha' : anyAwaits s c.fk [d.toNat, a.toNat, (if x.2 = 2 then b else a).toNat] ls = false :=
      anyAwaits_subset (by split <;> simp) ha
    have he := exec_trec x hx d a b g s
    dsimp only
    rw [← trecUses_eq]
    split
    next hh => exact he.trans (trec_hold hi hls hne ha' hh)
    next hh => exact he.trans (trec_turns hi hls hne ha' hh)
  · have hr' : regTrap c.ld.regs th [one d, one a] = none := regTrap_left (vs := [one b]) hr
    exact trec_passes (exec_trec _ (.head _) d a b g s) hi hls ht hr' (awaits_subset (by simp) ha) hkw
      (trecLane_mk ht hr' hkw (trecMayGo_load hgo (fun _ => hst)))
  · have hr' : regTrap c.ld.regs th [one d, one a] = none := regTrap_left (vs := [one b]) hr
    exact trec_passes (exec_trec _ (.tail _ (.head _)) d a b g s) hi hls ht hr' (awaits_subset (by simp) ha) hkr
      (trecLane_chk ht hr' hkr (trecMayGo_load hgo nofun))
  · exact trec_passes (exec_trec _ (.tail _ (.tail _ (.head _))) d a b g s) hi hls ht hr ha hkr (trecLane_step ht hr hkr (trecMayGo_load hgo nofun))

/-! ## A round that a matrix instruction completes (R246) -/

/-- A partition of core 0 alone. -/
def onePart : Partition :=
  { cores := [0], keys := [], pages := [], root := 0, tabKey := 0, saveBase := 0, saveLen := 0, fair := 2048, resetting := false
    halted := false, debugKey := 0, token := none, nonce := [], nextInst := 0, notices := 0 }

/-- The bytes that are not 0 of a valid record at hall address 0: rank 2, format 0 (E2M1), 128 by 128 in one tile of K 128. -/
def oneTile : List Host.Cell := [(0, 0x02), (1, 0x80), (3, 0x80), (4, 1), (0x10, 0x80), (0x14, 0x80)]

/-- A flight about to issue: the hints of all eight lanes pend, the thread of lane 7 has exited, and convergence register 0 has the flight
as its set. Pending hints make their lanes the executing group, whether or not its threads still run. -/
def exitedHint : State :=
  ((({ State.reset.placeWord 0 with cur := some 0, parts := [(0, onePart)], mem := { (State.reset.placeWord 0).mem with hall := oneTile } }
      : State).modLanding 0 (fun l => { l with conv := [(0, { decl := some (0, 0), signs := [], gen := 0 })] })).modThread 0 7
    (fun t => { t with cond := .exited })).modFlight 0 (fun f =>
      { f with hint := some { lanes := lanes8, start := 0x1000, imm := none, mods := none, sched := none
                              back := { lead := 0, gives := .no, timer := 0, tally := 0 } } })

/-- What its executing group sees: all eight lanes, at one word. -/
def exitedCtx : Ctx := exitedHint.ctx?.get rfl

/-- The signature of lane `l` by `mma` with all fields 0: its registers hold 0, so the format word is that of E2M1, the record that at
address 0, the tile index 0. -/
def exitedSign (l : Nat) : Signature :=
  { thread := l, abst := false, fn := 0, tile := 0, abase := 0, kreg := 0, reuse := false, fmt := 0, handle := 0, index := 0
    arow := some { row := l, words := List.replicate 16 0, scale := none }, latch := none, pc := 0x1000, npc := 0x1004 }

/-- The round once all eight lanes have signed it. -/
def exitedSigned : State := exitedHint.modConv 0 0 (fun v => { v with signs := v.signs ++ lanes8.map exitedSign })

theorem exitedHint_ctx : exitedHint.ctx? = some exitedCtx := (Option.some_get _).symm

theorem exitedCtx_next : nextPc exitedCtx.pc = 0x1004 := rfl

theorem exitedHint_sign : ∀ l ∈ lanes8, (exitedHint.thread? 0 l).map
    (mmaSign { tile := 0, abase := 0, kreg := 0, c := 0, reuse := false, fn := 0 } exitedCtx exitedHint exitedCtx.ld l) =
      some (.ok (exitedSign l)) := by
  simp only [lanes8, List.forall_mem_cons, List.not_mem_nil, false_imp_iff, implies_true, and_true]
  and_intros
  all_goals rfl

/-- The seven threads that have not exited complete the round. -/
theorem exitedSigned_goes : RoundGoes exitedSigned 0 0 ((tget exitedSigned.landings 0).get rfl) exitedCtx.tr
    ((List.range 7).map exitedSign) (exitedSign 0) (tensorOf (recordAt exitedHint.mem 0 0)) where
  landing := (Option.some_get _).symm
  tread   := rfl
  all     := ⟨(0, 0), rfl, rfl⟩
  signers := rfl
  first   := rfl
  alike   := fun q hq => by
    obtain ⟨l, -, rfl⟩ := List.mem_map.mp hq
    exact ⟨rfl, rfl, rfl, rfl, rfl, rfl, rfl, rfl⟩
  record  := ⟨128, rfl, rfl⟩
  room    := fun q hq f hf => by
    obtain ⟨l, hl, rfl⟩ := List.mem_map.mp hq
    have h0 : 32 * 0 + (exitedSign l).thread / 8 = 0 := by
      have := List.mem_range.mp hl
      simp only [exitedSign]; omega
    have hfl : tget exitedSigned.flights 0 = some exitedCtx.fl := rfl
    rw [h0, hfl] at hf
    cases hf
    rfl

/-- The pc of a thread in the next state of an outcome. -/
def pcAfter (fk l : Nat) : Out → Option DWord
  | .next t => (t.thread? fk l).map (·.pc)
  | _ => none

/-- The thread that has exited is no signer whose round goes on (R227), and stays where it was. -/
theorem exitedHint_pc : pcAfter 0 7 (exec (.mma 0 0 0 0 0 0) exitedHint) = some 0x1000 := rfl

/-- Refutes O40: its clause on an instruction that completes its round has every lane of G stand at the next word; in `exitedHint` lane 7
of G has a thread that has exited, which the round counts out (R227) and so does not send on. -/
theorem not_matrixInstructions : ¬ Obligations.MatrixInstructions := by
  rintro ⟨-, -, h⟩
  obtain ⟨u, s', hu, -, -, hnext, -⟩ := h (.mma, 0) (.head _) 0 0 0 0 0 0 exitedHint exitedCtx lanes8 exitedSign _ _ _ _
    exitedHint_ctx rfl rfl rfl (List.cons_ne_nil _ _) rfl rfl (fun _ _ => rfl) (fun l hl th ht => by
      have hs := exitedHint_sign l hl
      rw [show exitedHint.thread? 0 l = some th from ht] at hs
      exact (if_pos (show l ∈ lanes8 from hl)).mpr (Option.some.inj hs)) exitedSigned_goes
  have hpc := exitedHint_pc
  have h7 := hnext 7 (by decide) ((exitedHint.thread? 0 7).get rfl) (Option.some_get _).symm
  rw [show exec (.mma 0 0 0 0 0 0) exitedHint = .next u from hu, pcAfter, show u.thread? 0 7 = _ from h7, Option.map_some,
    exitedCtx_next] at hpc
  exact absurd hpc (by decide)

end Sys2Proof.Machine

/-!
SUPPORT. The engines of the cores and clusters and the fabric (R258–R308, R439–R461): what each of their events leaves where it is due.
-/

namespace Sys2Proof.Machine

/-! ## The matrix engine (R258, R260) -/

/-- The slot 0 of the entry of an operation (R258, R266). -/
def MxOp.slot (op : MxOp) : Word := if op.kind = .tab then 0xFFFFFFFF else BitVec.ofNat 32 op.tile

theorem MxOp.slot_of_tab {op : MxOp} (h : op.kind = .tab) : op.slot = 0xFFFFFFFF := if_pos h

theorem MxOp.slot_of_ne_tab {op : MxOp} (h : op.kind ≠ .tab) : op.slot = BitVec.ofNat 32 op.tile := if_neg h

/-- R258: an operation completes for one of its flights: its flags are raised, its entry posted where the endpoint has room, its number of
the MX class done. -/
def mxEnds (op : MxOp) (x : Work × FFlags) (cls : Nat) (s : State) (p : Nat × Nat) : State :=
  let s2 := s.orEngineFlags p.1 x.2
  let s3 := if (tget s2.flights p.1).any (fun f => (f.endpoint cls).space == 0) then s2
    else s2.postEntry p.1 cls op.who.spell false { slots := op.slot :: List.replicate 7 0, valid := 3 }
  s3.completeEng p.1 .mx p.2 x.1.clock

/-- The front operation of an engine, of a kind that the event completes, executes and ends for its flights. -/
theorem mxDone_front {s : State} {core : Nat} {op : MxOp} {rest : List MxOp} {ok : MxKind → Bool} {cls : Nat}
    (hq : tgetD [] s.mxq core = op :: rest) (hok : ok op.kind = true) :
    let x := runAcc op { s with mxq := tputD [] s.mxq core rest }
    s.mxDone core ok cls = op.ops.foldl (mxEnds op x cls) ((x.1.settle op.who).noteTile op) := by
  simp only [State.mxDone, hq, hok, Bool.not_true, Bool.false_eq_true, if_false]
  rfl

theorem exec_mmaComplete (core : Nat) (s : State) : exec (.mmaComplete core) s = .next (s.mxDone core isMma 0) := rfl

theorem exec_accComplete (core : Nat) (s : State) : exec (.accComplete core) s = .next (s.mxDone core (fun k => !isMma k) 1) := rfl

/-! ## The Colonnade (R273, R274, R278, R279, R287) -/

/-- What a Colonnade becomes depends on what it is alone. -/
theorem modClac_congr {s : State} {core : Nat} {u v : Clac → Clac} (h : u (s.clac core) = v (s.clac core)) :
    s.modClac core u = s.modClac core v := by
  unfold State.modClac tmodD
  exact congrArg (fun a => { s with clacs := tputD Clac.fresh s.clacs core a }) h

/-- R274: the first command may start. -/
theorem mayStart_nil (k : ClaKind) : mayStart [] k = true := by
  cases k <;> rfl

theorem takeCmd_front {ok : ClaKind → Bool} {cmd : ClaCmd} {cmds : List ClaCmd} (h : ok cmd.kind = true) :
    takeCmd ok (cmd :: cmds) = some (cmd, cmds) := if_pos h

theorem exec_claCommandStart (core : Nat) (s : State) :
    exec (.claCommandStart core) s = .next (s.modClac core (fun a => { a with cmds := startFirst a [] a.cmds })) := rfl

theorem exec_claEvalComplete (core : Nat) (s : State) : exec (.claEvalComplete core) s = .next (s.evalDone core) := rfl

theorem exec_claSweepEnd (core : Nat) (s : State) : exec (.claSweepEnd core) s = .next (s.sweepEnd core) := rfl

theorem exec_claImageComplete (core : Nat) (s : State) : exec (.claImageComplete core) s = .next (s.imageDone core) := rfl

section

variable {s : State} {core : Nat} {cmd : ClaCmd} {cmds : List ClaCmd} (hc : (s.clac core).cmds = cmd :: cmds)
include hc

theorem commandStart_front (hs : cmd.started = false) :
    s.modClac core (fun a => { a with cmds := startFirst a [] a.cmds }) =
      s.modClac core (fun a => { a with cmds := startCmd a cmd :: cmds }) :=
  modClac_congr (by simp only [hc, startFirst, hs, Bool.false_eq_true, if_false, mayStart_nil, if_true])

theorem evalDone_front (hk : cmd.kind = .eval) (hs : cmd.started = true) :
    s.evalDone core = ((s.modClac core (fun a => { a with cmds := cmds })).postResult cmd.who (if cmd.spoiled then errorEntry
      else { slots := cmd.slots.drop 1, valid := (cmd.slots.headD 0).truncate 8 })).completeEng cmd.who.fk .mx cmd.op [0, 0, 0, 0] := by
  simp only [State.evalDone, hc, takeCmd_front (ok := fun k => k == .eval || k == .feed) (by rw [hk]; rfl), hk, hs, and_self, if_true]

theorem sweepEnd_front (hk : cmd.kind = .feed) (hs : cmd.started = true) (he : cmdError cmd = false) (hsp : cmd.spoiled = false) :
    let r := runFeed { s.clac core with cmds := cmds } cmd
    s.sweepEnd core =
      ((s.modClac core (fun _ => r.1)).postResult cmd.who (voteEntry r.2)).completeEng cmd.who.fk .mx cmd.op [0, 0, 0, 0] := by
  simp only [State.sweepEnd, hc, takeCmd_front (ok := fun k => k == .eval || k == .feed) (by rw [hk]; rfl), hk, hs, he, hsp, and_self,
    if_true, Bool.or_self, Bool.false_eq_true, if_false]

/-- A started cla.ld, cla.st or cla.tab at the front is the one that ends. -/
theorem imageDone_front (hk : cmd.kind = .ld ∨ cmd.kind = .st ∨ cmd.kind = .tab) :
    takeCmd (fun k => k == .ld || k == .st || k == .tab) (s.clac core).cmds = some (cmd, cmds) := by
  rw [hc]
  refine takeCmd_front ?_
  rcases hk with h | h | h <;> rw [h] <;> rfl

theorem imageDone_st (hk : cmd.kind = .st) (hs : cmd.started = true) :
    let s0 := s.modClac core (fun a => { a with cmds := cmds })
    let k := match cmd.space with
      | .hall => (Work.start s0).writeHall (s0.reach cmd.who 0) cmd.addr cmd.image
      | _ => (Work.start s0).writeGlobal (s0.reach cmd.who 0) (canon (BitVec.ofNat 64 cmd.addr)) cmd.image
    s.imageDone core = ((k.settle cmd.who).dropRange core cmd.who.fk cmd.op).completeEng cmd.who.fk .cp cmd.op k.clock := by
  simp only [State.imageDone, imageDone_front hc (.inr (.inl hk)), hk, hs, Bool.not_true, Bool.false_eq_true, if_false] <;> rfl

variable {x : Work × List Byte}

/-- R287: an image that is read becomes the counters and both planes. -/
theorem imageDone_ld (hk : cmd.kind = .ld) (hs : cmd.started = true)
    (hx : readImage (s.modClac core (fun a => { a with cmds := cmds })) cmd (imageLen cmd.cfg) = x) (he : x.1.err = none) :
    s.imageDone core = (x.1.st.modClac core (fun a =>
      { a with counters := loadImage a.rest cmd.cfg a.counters x.2, plane := planeOf (loadImage a.rest cmd.cfg a.counters x.2),
               other := planeOf (loadImage a.rest cmd.cfg a.counters x.2), failed := cmd.finder && a.failed })).completeEng
        cmd.who.fk .cp cmd.op x.1.clock := by
  simp only [State.imageDone, imageDone_front hc (.inl hk), hk, hs, Bool.not_true, Bool.false_eq_true, if_false, hx, he]

/-- R290: one whose read fails changes no counter; if it stood in a period of error entries, that goes on. -/
theorem imageDone_ld_fails (hk : cmd.kind = .ld) (hs : cmd.started = true)
    (hx : readImage (s.modClac core (fun a => { a with cmds := cmds })) cmd (imageLen cmd.cfg) = x) (he : x.1.err.isSome) :
    s.imageDone core = ((x.1.settle cmd.who).modClac core (fun a =>
      if cmd.spoiled then { a with cmds := spoil a.cmds } else a)).completeEng cmd.who.fk .cp cmd.op x.1.clock := by
  obtain ⟨e, he⟩ := Option.isSome_iff_exists.mp he
  simp only [State.imageDone, imageDone_front hc (.inl hk), hk, hs, Bool.not_true, Bool.false_eq_true, if_false, hx, he]

theorem imageDone_tab (hk : cmd.kind = .tab) (hs : cmd.started = true)
    (hx : readImage (s.modClac core (fun a => { a with cmds := cmds })) cmd 64 = x) (he : x.1.err = none) :
    s.imageDone core = (x.1.st.modClac core (fun a =>
      { a with table := tableOf (wordsLE x.2) })).completeEng cmd.who.fk .mx cmd.op x.1.clock := by
  simp only [State.imageDone, imageDone_front hc (.inr (.inr hk)), hk, hs, Bool.not_true, Bool.false_eq_true, if_false, hx, he]

end

theorem coreEngineEvents_holds : coreEngineEvents := by
  refine ⟨fun s core op rest hq => ?_, fun s core cmd cmds hc => ?_⟩
  · dsimp only
    refine ⟨fun fn hk => ?_, fun hk => ?_, fun hk => ?_⟩
    · rw [exec_mmaComplete, mxDone_front hq (by rw [hk]; rfl), ← MxOp.slot_of_ne_tab (by rw [hk]; nofun)]
      rfl
    · rw [exec_accComplete, mxDone_front hq (by rcases hk with h | h | h | h <;> rw [h] <;> rfl),
        ← MxOp.slot_of_ne_tab (by rcases hk with h | h | h | h <;> rw [h] <;> nofun)]
      rfl
    · rw [exec_accComplete, mxDone_front hq (by rw [hk]; rfl), ← MxOp.slot_of_tab hk]
      rfl
  · refine ⟨fun hs => ?_, fun hk hs => ?_, fun hk hs he hsp => ?_, fun hk hs => ?_, fun hk hs => ?_, fun hk hs => ?_, fun hk hs => ?_⟩
    · rw [exec_claCommandStart, commandStart_front hc hs]
    · rw [exec_claEvalComplete, evalDone_front hc hk hs]
    · rw [exec_claSweepEnd, sweepEnd_front hc hk hs he hsp]
    · exact (exec_claImageComplete core s).trans (congrArg _ (imageDone_st hc hk hs))
    · intro x he; rw [exec_claImageComplete, imageDone_ld hc hk hs rfl he]
    · intro x he; rw [exec_claImageComplete, imageDone_ld_fails hc hk hs rfl he]
    · intro x he; rw [exec_claImageComplete, imageDone_tab hc hk hs rfl he]

/-! ## Copies, credits and posts (R297, R299, R300, R307, R308) -/

theorem exec_copyComplete (core i : Nat) (s : State) : exec (.copyComplete core i) s = .next (s.copyDone core i) := rfl

theorem exec_creditGrant (base : Nat) (s : State) : exec (.creditGrant base) s = .next (s.grantCredit base) := rfl

theorem exec_hpostComplete (i : Nat) (s : State) : exec (.hpostComplete i) s = .next (s.hpostDone i) := rfl

/-- R307, R308: a copy that is no collective operation moves what is left of it and completes. -/
theorem copyDone_moves {s : State} {core i : Nat} {op : CopyOp} (hi : (tgetD [] s.copies core)[i]? = some op)
    (hk : ∀ r, op.kind ≠ .send r) :
    s.copyDone core i = finishCopy op (runCopy op { s with copies := tputD [] s.copies core ((tgetD [] s.copies core).eraseIdx i) }) := by
  simp only [State.copyDone, hi]

theorem grantCredit_oldest {s : State} {base : Nat} {h : HallQueue} {r : CreditReq} {rs : List CreditReq}
    (hq : tget s.hqueues base = some h) (hr : h.reqs = r :: rs) :
    let g := min (max h.batch r.need) h.pool
    s.grantCredit base = (s.modHq base (fun h => { h with
      pool := h.pool - g
      reqs := if r.need ≤ g then rs else { r with need := r.need - g } :: rs })).modQ r.fk r.q (fun x => { x with credit := x.credit + g }) := by
  simp only [State.grantCredit, hq, hr]

/-- R299, R300: a post alone, whose earlier accesses are performed, arrives at its queue. -/
theorem hpostDone_alone {s : State} {p : HallPost} {h : HallQueue} (hp : s.posts = [p])
    (hr : s.releasedUpto p.who.fk p.lanes p.upto = true) (hv : s.mem.covers (p.who.core / 48) p.clock = true) (hm : h.made = p.made)
    (hq : tget s.hqueues p.base = some h) :
    s.hpostDone 0 = ((placeEntries h p.base h.tail p.entries (({ s with posts := [] } : State).completeOp p.who.fk .st p.op)).modHq p.base
      (fun h => { h with tail := h.tail + p.entries.length })).serveHq p.base (h.takers.length + 1) := by
  have hf : (tget s.hqueues p.base).filter (fun h => h.made == p.made) = some h := by simp [hq, hm]
  simp only [State.hpostDone, hp, List.getElem?_cons_zero, List.take_zero, List.any_nil, hr, hv, Bool.not_true, Bool.or_self,
    Bool.false_eq_true, if_false, hf, List.eraseIdx_cons_zero]

/-! ## Collective operations (R458) -/

theorem exec_collAck (core i : Nat) (y : CollAnswer) (s : State) : exec (.collAck core i y) s = .next (s.collAcked core i y) := rfl

theorem exec_collRetryExhausted (core i : Nat) (s : State) : exec (.collRetryExhausted core i) s = .next (s.collLost core i) := rfl

section

variable {s : State} {core i : Nat} {op : CopyOp} (hi : (tgetD [] s.copies core)[i]? = some op) (hs : op.sent.isSome)
include hi hs

theorem collAcked_applied (hc : s.chanServes op.chan = true) (fl : FFlags) :
    s.collAcked core i (.applied fl) =
      (if op.kind = .send (some 1) then s.orEngineFlags op.who.fk fl else s).endSend core i op := by
  simp only [State.collAcked, hi, Option.isNone_eq_false_iff.mpr hs, hc, Bool.not_true, Bool.or_self, Bool.false_eq_true, if_false]

theorem collAcked_refused (hc : s.chanServes op.chan = true) {a : Nat} (ha : a ∈ [1, 2, 4]) :
    s.collAcked core i (.refused a) = (s.modChan op.chan (fun x => { x with error := a })).endSend core i op := by
  simp only [State.collAcked, hi, Option.isNone_eq_false_iff.mpr hs, hc, Bool.not_true, Bool.or_self, Bool.false_eq_true, if_false, ha,
    if_true]

theorem collLost_sent : s.collLost core i = (s.modChan op.chan (fun x => { x with error := 3 })).endSend core i op := by
  simp only [State.collLost, hi, Option.isNone_eq_false_iff.mpr hs, Bool.false_eq_true, if_false]

end

/-- R461: a port that is down or has stopped loses the answer. -/
theorem collAcked_lost {s : State} {core i : Nat} {op : CopyOp} (hi : (tgetD [] s.copies core)[i]? = some op)
    (hc : s.chanServes op.chan = false) (y : CollAnswer) : s.collAcked core i y = s := by
  simp only [State.collAcked, hi, hc, Bool.not_false, Bool.or_true, if_true]

theorem clusterEvents_holds : clusterEvents := by
  refine ⟨fun s core i op hi hk => ?_, fun s base h r rs hq hr => ?_, fun s p h hp hr hv hm => ?_, fun s core i op a hi hs =>
    ⟨fun hc => ⟨fun fl hk => ?_, fun fl hk => ?_, fun ha => ?_⟩, fun hc y => ?_, ?_⟩⟩
  · rw [exec_copyComplete, copyDone_moves hi hk]
  · rw [exec_creditGrant, grantCredit_oldest hq hr]
  · intro s1 hq; rw [exec_hpostComplete, hpostDone_alone hp hr hv hm hq]
  · rw [exec_collAck, collAcked_applied hi hs hc, if_neg hk]
  · rw [exec_collAck, collAcked_applied hi hs hc, if_pos hk]
  · rw [exec_collAck, collAcked_refused hi hs hc ha]
  · rw [exec_collAck, collAcked_lost hi hc]
  · rw [exec_collRetryExhausted, collLost_sent hi hs]

/-! ## Messages (R439, R458, R459, R461) -/

theorem exec_collMessage (die : Nat) (m : CollMessage) (s : State) : exec (.collMessage die m) s = .next (s.collArrive die m) := rfl

section

variable {s : State} {die : Nat} {m : CollMessage} {ch : Channel} (hc : tget s.chans (256 * die + m.chan) = some ch)
include hc

/-- A message of which nothing is applied yet is applied unit by unit, and noticed. -/
theorem collArrive_takes (ho : s.oversized ch m = false) (ht : s.takesMessage ch m = true)
    (he : ch.earlyOf m = { msg := m, units := [], clock := [0, 0, 0, 0] }) :
    let r := (CollMessage.units m).foldl (applyUnit ch m.red) (s, 0, [0, 0, 0, 0])
    s.collArrive die m = (r.1.modChan (256 * die + m.chan) (fun ch => { ch with
      early := ch.early.filter (fun y => y.msg != m) ++
        [{ msg := m, units := List.range (CollMessage.units m).length, clock := r.2.2 }] })).noticeMessage die m r.2.2 := by
  have hall : (CollMessage.units m).zipIdx.filter (fun u => !([] : List Nat).contains u.2) = (CollMessage.units m).zipIdx :=
    List.filter_eq_self.mpr (fun _ _ => rfl)
  have hnum : (CollMessage.units m).zipIdx.map (·.2) = List.range (CollMessage.units m).length := by
    rw [List.zipIdx_map_snd, List.range_eq_range']
  simp only [State.collArrive, hc, ho, ht, he, Bool.not_true, Bool.false_eq_true, if_false, hall, List.zipIdx_map_fst, hnum,
    List.nil_append]

/-- R439: one that no write may be as large as is discarded with a count. -/
theorem collArrive_oversized (ho : s.oversized ch m = true) :
    s.collArrive die m = s.modPort ch.port (fun x => { x with discards := x.discards + 1 }) := by
  simp only [State.collArrive, hc, ho, if_true]

theorem collArrive_refused (ho : s.oversized ch m = false) (ht : s.takesMessage ch m = false) : s.collArrive die m = s := by
  simp only [State.collArrive, hc, ho, ht, Bool.not_false, Bool.false_eq_true, if_false, if_true]

/-- R461: a port that is down or has stopped leaves the message. -/
theorem collArrive_unserved (hp : (s.port ch.port).serves = false) : s.collArrive die m = s :=
  collArrive_refused hc (by simp only [State.oversized, hp, Bool.false_and])
    (by simp only [State.takesMessage, hp, Bool.false_and, Bool.and_false])

theorem noticeMessage_performed {ck : List Nat} (hv : s.mem.covers die ck = true) (hn : ch.notices.length < 256) :
    s.noticeMessage die m ck = (s.modChan (256 * die + m.chan) (fun ch => { ch with
      count := ch.count + 1
      notices := ch.notices ++ [{ offset := m.offset, len := m.bytes.length, red := m.red.isSome, status := 0, clock := ck }]
      clock := joinClock ch.clock ck, early := ch.early.filter (fun y => y.msg != m) })).serveChan (256 * die + m.chan)
        (ch.waiters.length + 1) := by
  simp only [State.noticeMessage, hc, hv, decide_eq_false (Nat.not_le.mpr hn), Bool.not_true, Bool.or_self, Bool.false_eq_true, if_false]

theorem noticeMessage_waits {ck : List Nat} (h : s.mem.covers die ck = false ∨ 256 ≤ ch.notices.length) :
    s.noticeMessage die m ck = s := by
  have hw : (!s.mem.covers die ck || decide (256 ≤ ch.notices.length)) = true := by simpa using h
  simp only [State.noticeMessage, hc, hw, if_true]

end

/-! ## Packets (R439, R443, R461) -/

theorem exec_packetReceive (port : Nat) (p : Packet) (s : State) : exec (.packetReceive port p) s = .next (s.packetIn port p) := rfl

theorem serves_eq_false_iff {x : Port} : x.serves = false ↔ x.linkUp = false ∨ x.stopped = true := by
  simp [Port.serves, Decidable.or_iff_not_imp_left]

/-- What a port becomes depends on what it is alone. -/
theorem modPort_congr {s : State} {port : Nat} {u v : Port → Port} (h : u (s.port port) = v (s.port port)) :
    s.modPort port u = s.modPort port v := by
  unfold State.modPort tmodD
  exact congrArg (fun a => { s with ports := tputD Port.fresh s.ports port a }) h

section

variable {s : State} {port : Nat} {p : Packet}

theorem packetIn_unserved (h : (s.port port).serves = false) : s.packetIn port p = s := by
  simp only [State.packetIn, h, Bool.not_false, if_true]

variable (hs : (s.port port).serves = true)
include hs

theorem packetIn_foreign (ho : packetOk p = false) :
    s.packetIn port p = s.modPort port (fun x => { x with discards := x.discards + 1 }) := by
  simp only [State.packetIn, hs, ho, Bool.not_true, Bool.not_false, Bool.false_eq_true, if_false, if_true]
  exact modPort_congr rfl

variable (ho : packetOk p = true)
include ho

theorem packetIn_uncontexted (hr : p.rud = true) (hx : s.contextFor port p.source = false) : s.packetIn port p = s := by
  simp only [State.packetIn, hs, ho, hr, hx, Bool.not_true, Bool.not_false, Bool.and_self, Bool.false_eq_true, if_false, if_true]

variable (hx : p.rud = true → s.contextFor port p.source = true)
include hx

theorem packetIn_fits (hf : (s.port port).held + p.body.length ≤ 4 * 2 ^ 20) :
    s.packetIn port p = s.modPort port (fun x => x.take p) := by
  have hx' : (p.rud && !s.contextFor port p.source) = false := by simpa using hx
  simp only [State.packetIn, hs, ho, hx', Bool.not_true, Bool.false_eq_true, if_false, if_pos hf]
  exact modPort_congr rfl

theorem packetIn_full (hf : 4 * 2 ^ 20 < (s.port port).held + p.body.length) :
    s.packetIn port p = if p.uud then s.modPort port (fun x => { x with discards := x.discards + 1 }) else s := by
  have hx' : (p.rud && !s.contextFor port p.source) = false := by simpa using hx
  simp only [State.packetIn, hs, ho, hx', Bool.not_true, Bool.false_eq_true, if_false, if_neg (Nat.not_le.mpr hf)]
  rw [modPort_congr (v := fun x => { x with discards := x.discards + 1 }) rfl]

end

/-! ## A message in one packet (R439, R441) -/

theorem tput_append {α : Type} {t : Tab α} {k : Nat} (v : α) (h : ∀ q ∈ t, q.1 < k) : tput t k v = t ++ [(k, v)] := by
  induction t with
  | nil => rfl
  | cons q t ih =>
    have hq : q.1 < k := h q List.mem_cons_self
    rw [tput, if_neg (Nat.ne_of_lt hq), if_neg (Nat.lt_asymm hq), ih (fun p hp => h p (List.mem_cons_of_mem _ hp)), List.cons_append]

/-- Bytes as a table from an offset on. -/
def bytesFrom (o : Nat) (bs : List Byte) : Tab Byte := (bs.zipIdx o).map (fun b => (b.2, b.1))

/-- Bytes that arrive in order behind those of a table extend it. -/
theorem foldl_tput_bytesFrom (bs : List Byte) (o : Nat) (t : Tab Byte) (h : ∀ q ∈ t, q.1 < o) :
    (bs.zipIdx o).foldl (fun t b => tput t b.2 b.1) t = t ++ bytesFrom o bs := by
  induction bs generalizing o t with
  | nil => simp [bytesFrom]
  | cons b bs ih =>
    rw [List.zipIdx_cons, List.foldl_cons, tput_append b h, ih (o + 1), bytesFrom, bytesFrom, List.zipIdx_cons, List.map_cons,
      List.append_assoc, List.singleton_append]
    intro q hq
    rcases List.mem_append.mp hq with hq | hq
    · exact Nat.lt_succ_of_lt (h q hq)
    · rw [List.mem_singleton.mp hq]; exact Nat.lt_succ_self o

theorem runFrom_bytesFrom (bs : List Byte) (o : Nat) : runFrom o (bytesFrom o bs) = bs := by
  induction bs generalizing o with
  | nil => rfl
  | cons b bs ih =>
    rw [bytesFrom, List.zipIdx_cons, List.map_cons, runFrom, if_pos rfl]
    exact congrArg _ (ih (o + 1))

/-- A message that comes whole in one packet is over with it: what its bytes hold of records is taken. -/
theorem OpenMessage.take_whole {p : Packet} (ho : p.offset = 0) (hl : p.body.length = p.message) :
    OpenMessage.take { source := p.source, id := p.id, rud := p.rud, size := p.message, base := 0, parts := [] } p =
      ((recordsGo p.source true (p.body.length / 36 + 1) p.body).1, none) := by
  have hparts : (p.body.zipIdx.foldl (fun t b => tput t b.2 b.1) []).filter (fun b => decide (0 ≤ b.1)) = bytesFrom 0 p.body := by
    rw [foldl_tput_bytesFrom p.body 0 [] (fun _ h => absurd h List.not_mem_nil), List.nil_append]
    exact List.filter_eq_self.mpr (fun _ _ => decide_eq_true (Nat.zero_le _))
  simp only [OpenMessage.take, ho, Nat.zero_add, hparts, runFrom_bytesFrom, hl, decide_true, if_true]

theorem Port.take_whole {x : Port} {p : Packet} (hn : ∀ m ∈ x.messages, m.source ≠ p.source) (ho : p.offset = 0)
    (hl : p.body.length = p.message) :
    (x.take p).messages = x.messages ∧
    (x.take p).buffer = x.buffer ++ (recordsGo p.source true (p.body.length / 36 + 1) p.body).1 := by
  have hne : ∀ m ∈ x.messages, (m.source == p.source && m.id == p.id && m.rud == p.rud) = false := fun m hm => by
    rw [beq_false_of_ne (hn m hm)]; rfl
  have hopen : x.openOf p = { source := p.source, id := p.id, rud := p.rud, size := p.message, base := 0, parts := [] } := by
    rw [Port.openOf, List.find?_eq_none.mpr (fun m hm => by rw [hne m hm]; exact Bool.false_ne_true)]; rfl
  have hleft : x.messages.filter (fun m => !(m.source == p.source && m.id == p.id && m.rud == p.rud)) = x.messages :=
    List.filter_eq_self.mpr (fun m hm => by rw [hne m hm]; rfl)
  simp only [Port.take, hopen, OpenMessage.take_whole ho hl, hleft, Option.toList_none, List.append_nil, and_self]

/-! ## Wire records (R443–R448) -/

/-- The record breaks a rule of its header (R441, R443). -/
def badHeader (w : WireRecord) : Bool := w.overrun || decide (8176 < w.len) || w.reserved || (w.reset && w.len != 0)

theorem exec_wireRecord (port : Nat) (s : State) : exec (.wireRecord port) s = .next (s.wireRecord port) := rfl

section

variable {s : State} {port : Nat} {w : WireRecord} {ws : List WireRecord} (hb : (s.port port).buffer = w :: ws)
  (hp : (s.port port).stopped = false)
include hb hp

/-- R443: a record without a key entry, with half a header or for no ring is counted and dropped. -/
theorem wireRecord_unclassified (h : ∀ e, (s.port port).entryOf w = some e → w.complete = false ∨ tget s.rings e.ring = none) :
    s.wireRecord port = (s.modPort port (fun p => { p with buffer := ws })).modPort port (fun p => { p with unclass := p.unclass + 1 }) := by
  cases he : (s.port port).entryOf w with
  | none => simp only [State.wireRecord, hb, hp, Bool.false_eq_true, if_false, he]
  | some e =>
    have hu : (!w.complete || (tget s.rings e.ring).isNone) = true := by simpa using h e he
    simp only [State.wireRecord, hb, hp, Bool.false_eq_true, if_false, he, hu, if_true]

/-- R443: a record of a ring is decided by its header, its tag and its kind, in this order, as one step of the ring. -/
theorem wireRecord_decided {e : PortKey} {r : Ring} (he : (s.port port).entryOf w = some e) (hw : w.complete = true)
    (hr : tget s.rings e.ring = some r) (hn : s.resetting r.part = false) :
    let s2 := (s.modPort port (fun p => { p with buffer := ws })).modRing e.ring (fun r => { r with kid := e.kid })
    s.wireRecord port =
      (if badHeader w then s2.modRing e.ring (fun r => r.drop w.len .malformed)
       else if !w.authentic e.key then s2.modRing e.ring (fun r => r.drop w.len .auth)
       else if w.reset then s2.ringReset e.ring
       else s2.place e.ring (w.plain e.key)).ringStep e.ring := by
  simp only [State.wireRecord, hb, hp, Bool.false_eq_true, if_false, he, hw, hr, hn, Bool.not_true, Option.isNone_some, Bool.or_self,
    Option.any_some]
  rfl

end

theorem fabricEvents_holds : fabricEvents := by
  refine ⟨fun s die m ch hc ho ht he => ?_, fun s die m ck ch hc => ⟨fun hv hn => noticeMessage_performed hc hv hn, noticeMessage_waits hc⟩,
    fun s die m ch hc => ⟨fun ho => ?_, fun ho ht => ?_, fun hp => ?_⟩, fun s port p => ⟨fun hp => ?_, fun hl hs => ?_⟩,
    fun x p hn ho hl => Port.take_whole hn ho hl, fun s port w ws hb hp h => ?_, fun s port w ws e r hb hp he hw hr hn => ?_,
    fun s port => ⟨rfl, rfl⟩⟩
  · rw [exec_collMessage, collArrive_takes hc ho ht he]
  · rw [exec_collMessage, collArrive_oversized hc ho]
  · rw [exec_collMessage, collArrive_refused hc ho ht]
  · rw [exec_collMessage, collArrive_unserved hc (serves_eq_false_iff.mpr hp)]
  · rw [exec_packetReceive, packetIn_unserved (serves_eq_false_iff.mpr hp)]
  · have hserves : (s.port port).serves = true := by simp [Port.serves, hl, hs]
    simp only [exec_packetReceive]
    refine ⟨fun ho => ?_, fun ho hr hx => ?_, fun ho hx => ⟨fun hf => ?_, fun hf => ?_⟩⟩
    · rw [packetIn_foreign hserves ho]
    · rw [packetIn_uncontexted hserves ho hr hx]
    · rw [packetIn_fits hserves ho hx hf]
    · rw [packetIn_full hserves ho hx hf]
  · rw [exec_wireRecord, wireRecord_unclassified hb hp h]
  · simp only [exec_wireRecord, wireRecord_decided hb hp he hw hr hn]
    refine ⟨fun (hm : badHeader w = true) => ?_, fun (hm : badHeader w = false) => ⟨fun ha => ?_, fun ha hz => ?_, fun ha hz => ?_⟩⟩
    · rw [if_pos hm]
    · simp only [hm, ha, Bool.not_false, Bool.false_eq_true, if_false, if_true]
    · simp only [hm, ha, hz, Bool.not_true, Bool.false_eq_true, if_false, if_true]
    · simp only [hm, ha, hz, Bool.not_true, Bool.false_eq_true, if_false]

/-- Settles O53: each event on a state in which it is due is the branch of its meaning that its lemma names. -/
theorem engineEvents : Obligations.EngineEvents := ⟨coreEngineEvents_holds, clusterEvents_holds, fabricEvents_holds⟩

end Sys2Proof.Machine

/-!
SUPPORT. The Colonnade's instructions at acceptance (12_colonnade.md): samples and feedback (R275, R276, R283), votes (R283), images
(R286, R287), seed, configuration and status (R275, R288).
-/

namespace Sys2Proof.Machine

/-! ## Endpoints, lanes and their registers -/

/-- The endpoints that the context sees are those of the flight that is changed. -/
theorem modEnd_congr {s : State} {c : Ctx} {cls : Nat} {u w : Endpoint → Endpoint} (hc : s.ctx? = some c)
    (h : u (c.fl.endpoint cls) = w (c.fl.endpoint cls)) : s.modEnd c.fk cls u = s.modEnd c.fk cls w := by
  obtain ⟨-, hfl, -⟩ := ctx_spec hc
  unfold Flight.endpoint at h
  simp only [State.modEnd, State.modFlight, tmod, hfl, Flight.modEnd, tmodD, h]

theorem illegalReg_eq_none_iff {n : Nat} {us : List RegUse} : illegalReg n us = none ↔ ∀ u ∈ us, u.r % u.n = 0 ∧ u.r + u.n ≤ n := by
  induction us with
  | nil => simp [illegalReg]
  | cons u us ih =>
    rw [List.forall_mem_cons, ← ih, illegalReg]
    by_cases h1 : u.r % u.n = 0 <;> by_cases h2 : u.r + u.n ≤ n <;> simp [h1, h2, Nat.not_lt.mpr, Nat.lt_of_not_le]

theorem regTrap_eq_none_iff {n : Nat} {th : Thread} {us : List RegUse} :
    regTrap n th us = none ↔ illegalReg n us = none ∧ leaseTrap th (allRegs us) = none := by
  unfold regTrap
  cases illegalReg n us <;> simp

theorem allRegs_singleton (u : RegUse) : allRegs [u] = u.regs := List.append_nil _

/-- The party of lanes of which the lowest has a thread begins with it. -/
theorem party_cons {s : State} {c : Ctx} {ls : List Nat} {th : Thread} (hne : ls ≠ [])
    (ht : s.thread? c.fk (ls.headD 0) = some th) : ∃ ps, party s c ls = (ls.headD 0, th) :: ps := by
  cases ls with
  | nil => exact absurd rfl hne
  | cons l ls =>
    rw [List.headD_cons] at ht ⊢
    exact ⟨party s c ls, by simp only [party, List.filterMap_cons, ht, Option.map_some]⟩

/-- Lanes whose check fails with one trap all take it. -/
theorem splitLanes_trap {s : State} {fk : Nat} {ls : List Nat} {chk : Thread → Option Trap} {x : Trap}
    (h : ∀ l ∈ ls, ∃ th, s.thread? fk l = some th ∧ chk th = some x) :
    splitLanes s fk ls chk = ([], ls.map (fun l => (l, Res.trap x))) := by
  induction ls with
  | nil => rfl
  | cons a ls ih =>
    obtain ⟨th, ht, hx⟩ := h a List.mem_cons_self
    have hrest := ih (fun l hl => h l (List.mem_cons_of_mem _ hl))
    simp only [splitLanes, Prod.mk.injEq] at hrest ⊢
    obtain ⟨hgood, hbad⟩ := hrest
    simp [ht, hx, hgood, hbad]

/-! ## cla.eval and cla.feed (R275, R276, R283) -/

/-- The registers that cla.eval and cla.feed name: four of the sample and one of the descriptor. -/
abbrev sampleUses (v : Nat) : List RegUse := (List.range 5).map (fun i => { r := v + i, n := 1 })

/-- The check of a lane: its quad is aligned, and its five registers exist, are allocated and not leased. -/
def sampleCheck (n : Nat) (v : BitVec 6) (th : Thread) : Option Trap :=
  if v.toNat % 4 ≠ 0 then some (trap .illegalRegister v.toNat)
  else
    match illegalReg n (sampleUses v.toNat) with
    | some x => some x
    | none => if 64 ≤ v.toNat + 4 then some (trap .illegalRegister 64) else leaseTrap th (allRegs (sampleUses v.toNat))

theorem sampleCheck_passes {n : Nat} {v : BitVec 6} {th : Thread} (hq : v.toNat % 4 = 0) (hv : v.toNat + 4 < 64)
    (hr : regTrap n th (sampleUses v.toNat) = none) : sampleCheck n v th = none := by
  obtain ⟨hi, hl⟩ := regTrap_eq_none_iff.mp hr
  simp only [sampleCheck, hq, hi, hl, ne_eq, not_true_eq_false, if_false, Nat.not_le.mpr hv]

/-- v60 has no fifth register, however many are allocated. -/
theorem sampleCheck_beyond {n : Nat} (hn : 64 ≤ n) (th : Thread) : sampleCheck n 60 th = some (trap .illegalRegister 64) := by
  obtain rfl | hn := Nat.eq_or_lt_of_le hn
  · rfl
  · have hi : illegalReg n (sampleUses 60) = none := illegalReg_eq_none_iff.mpr (fun u hu => by
      obtain ⟨i, hi, rfl⟩ := List.mem_map.mp hu
      have := List.mem_range.mp hi
      dsimp only
      omega)
    simp [sampleCheck, hi]

/-- Enter a command with the sample of the lanes `good` and the descriptor of the thread `th` of its lane `l`; reserve its entry. -/
def enterSample (c : Ctx) (kind : ClaKind) (v : Nat) (good : List (Nat × Thread)) (l : Nat) (th : Thread) (s : State) : State :=
  ((s.modClac c.ld.core (fun a => { a with
    cmds := a.cmds ++ [{ claCmd a c kind l c.fl.cMx.issued with sample := sampleOf good v, desc := th.reg (v + 4) }]
    cfgd := false
    step := if kind = .feed then a.step + 1 else a.step })).modEnd c.fk 3 (fun e => { e with reserved := e.reserved + 1 })).joinOp
      c.fk .mx

/-- cla.eval and cla.feed over the lanes of G; a lane that traps counts as outside G. -/
def sampleBody (kind : ClaKind) (v : BitVec 6) (q : BitVec 4) : Body := fun c ls s =>
  if (s.binding c.fl q.toNat).map (·.1) ≠ some 3 then (s, unboundAll s c (fun _ => sampleCheck c.ld.regs v) ls q.toNat)
  else if anyAwaits s c.fk (allRegs (sampleUses v.toNat)) ls then (s, [(ls.headD 0, .hold .register)])
  else
    let x := splitLanes s c.fk ls (sampleCheck c.ld.regs v)
    match x.1 with
    | [] => (s, x.2)
    | p :: _ =>
      if 64 ≤ (s.clac c.ld.core).cmds.length ∨ (c.fl.endpoint 3).space = 0 then (s, holdOthers p.1 .engine x.2)
      else if c.fl.full .mx then (s, holdOthers p.1 .classFull x.2)
      else (enterSample c kind v.toNat x.1 p.1 p.2 s, allDone (x.1.map (·.1)) ++ x.2)

/-- The two members of CLA that enter a command, with its kind. -/
noncomputable abbrev sampleOps : List ((BitVec 6 → BitVec 4 → BitVec 3 → Instr) × ClaKind) :=
  [(Instr.claEval, .eval), (Instr.claFeed, .feed)]

theorem exec_claFeed : ∀ x ∈ sampleOps, ∀ v q g s, exec (x.1 v q g) s = .next (issue s HintUse.none g (sampleBody x.2 v q)) := by
  simp only [sampleOps, List.forall_mem_cons, List.not_mem_nil, false_imp_iff, implies_true, and_true]
  and_intros
  all_goals intros; rfl

section

variable {s : State} {c : Ctx} {v : BitVec 6} {q : BitVec 4} {ls : List Nat}
  (hb : (s.binding c.fl q.toNat).map (·.1) = some 3) (ha : anyAwaits s c.fk (allRegs (sampleUses v.toNat)) ls = false)
include hb ha

/-- The command enters with the sample of all lanes and the descriptor of the lowest; its entry is reserved. -/
theorem sampleBody_enters {kind : ClaKind} {g : BitVec 3} {th : Thread} (hc : s.ctx? = some c) (hls : guardLanes s c g = ls)
    (hne : ls ≠ []) (ht : s.thread? c.fk (ls.headD 0) = some th)
    (hchk : ∀ l ∈ ls, ∀ th, s.thread? c.fk l = some th → sampleCheck c.ld.regs v th = none)
    (hroom : (s.clac c.ld.core).cmds.length < 64) (hspace : (c.fl.endpoint 3).space ≠ 0) (hf : c.fl.full .mx = false) :
    sampleBody kind v q c ls s = (enterSample c kind v.toNat (party s c ls) (ls.headD 0) th s, allDone ls) := by
  obtain ⟨ps, hp⟩ := party_cons hne ht
  have hfst := party_guard hc hls
  have hgo : ¬ (64 ≤ (s.clac c.ld.core).cmds.length ∨ (c.fl.endpoint 3).space = 0) := by omega
  rw [hp] at hfst ⊢
  simp only [sampleBody, hb, ne_eq, not_true_eq_false, if_false, ha, Bool.false_eq_true, splitLanes_all hchk, hp, hgo, hf, hfst,
    List.append_nil]

/-- Where every lane fails its check with one trap, all take it. -/
theorem sampleBody_traps {x : Trap} {kind : ClaKind}
    (hchk : ∀ l ∈ ls, ∃ th, s.thread? c.fk l = some th ∧ sampleCheck c.ld.regs v th = some x) :
    sampleBody kind v q c ls s = (s, ls.map (fun l => (l, Res.trap x))) := by
  simp only [sampleBody, hb, ne_eq, not_true_eq_false, if_false, ha, Bool.false_eq_true, splitLanes_trap hchk]

end

/-- R275, R276: the command and the reserved entry. -/
theorem claFeed_enters : ∀ x ∈ sampleOps, ∀ v q g s c ls th, Issues s c HintUse.none g [] → guardLanes s c g = ls → ls ≠ [] →
    s.thread? c.fk (ls.headD 0) = some th → v.toNat % 4 = 0 → Usable s c g (sampleUses v.toNat) → v.toNat + 4 < 64 →
    (s.binding c.fl q.toNat).map (·.1) = some 3 → (s.clac c.ld.core).cmds.length < 64 → (c.fl.endpoint 3).space ≠ 0 →
    c.fl.full .mx = false →
    ∃ t, exec (x.1 v q g) s = .next t ∧ Passes (enterSample c x.2 v.toNat (party s c ls) (ls.headD 0) th s) t c := by
  intro x hx v q g s c ls th hi hls hne ht hq hu hv hb hroom hspace hf
  have hbody := sampleBody_enters (kind := x.2) hb (anyAwaits_usable hu hls) hi.ctx hls hne ht
    (fun l hl t h => sampleCheck_passes hq hv (hu l (hls ▸ hl) t h).1) hroom hspace hf
  have hp := issueP_passes (body := sampleBody x.2 v q) hi hls hne (by rw [hbody]; exact allDone_done)
  rw [hbody] at hp
  exact ⟨_, exec_claFeed x hx v q g s, hp⟩

/-- R283: with v60 every lane takes the illegal-register trap. -/
theorem claFeed_traps_beyond : ∀ i ∈ sampleOps.map (·.1), ∀ (q : BitVec 4) g, Traps (i 60 q g) HintUse.none g
    (fun s c ls => 64 ≤ c.ld.regs ∧ (s.binding c.fl q.toNat).map (·.1) = some 3 ∧ anyAwaits s c.fk [60, 61, 62, 63, 64] ls = false)
    (fun _ => trap .illegalRegister 64) := by
  refine List.forall_mem_map.mpr (fun x hx q g s c ls hd hi hls hne hh hm ⟨hn, hb, ha⟩ => ?_)
  have hsub := hls ▸ guardLanes_sub s c g
  have hbody := sampleBody_traps (v := 60) (kind := x.2) hb ha (fun l hl =>
    (ctx_thread hi.ctx (hsub.mem hl)).imp (fun th ht => ⟨ht, sampleCheck_beyond hn th⟩))
  refine ⟨_, exec_claFeed x hx 60 q g s, ?_⟩
  rw [issue, issueP_eq hi hls hne, hbody]
  exact conclude_enters hi.ctx hsub hh hm

/-! ## Pops that take at once (R220, R283) -/

/-- A pop of a queue register with no pending pop, whose register can be used in every lane, takes what is there. -/
theorem popBody_takes {s : State} {c : Ctx} {g : BitVec 3} {q : Nat} {kind : PopKind} {st : Stall} {u : RegUse} {nb : Option Nat}
    {take : Take} {enlist : State → State} {ls : List Nat} {y : State × List (Nat × Res)} (hc : s.ctx? = some c)
    (hu : Usable s c g [u]) (hls : guardLanes s c g = ls) (hne : ls ≠ []) (hp : (c.fl.qreg q).pend = none)
    (ht : take s ls = some y) : popBody c q kind st u nb take enlist ls s = (setPreds c.fk nb true ls y.1, y.2) := by
  have hw : (c.fl.qreg q).waiting = [] := by simp only [QueueReg.waiting, hp]
  have hnew : ls.filter (fun l => !([] : List Nat).contains l) = ls := List.filter_eq_self.mpr (fun _ _ => rfl)
  have ha := anyAwaits_usable hu hls
  rw [allRegs_singleton] at ha
  obtain ⟨l, ks, rfl⟩ := List.exists_cons_of_ne_nil hne
  simp only [popBody, hw, hnew, ha, Bool.false_eq_true, if_false, splitLanes_usable hu hls, party_guard hc hls, List.isEmpty_cons,
    List.isEmpty_nil, Bool.not_true, hp, Option.isSome_none, ht]

/-- R283: cla.vote takes an entry clamped, unless it is the error entry. -/
theorem takeEntry_vote {c : Ctx} {v : Nat} {s : State} {ls : List Nat} {e : Entry} {es : List Entry}
    (h : (c.fl.endpoint 3).entries = e :: es) (he : e ≠ errorEntry) :
    takeEntry c 3 .vote v s ls = some (ls.foldl (fun t l => t.modThread c.fk l (Thread.takeSlot
      { e with slots := e.slots.map (clampVotes (cfgThr (s.clac c.ld.core).cfg)) } v l))
      (s.modEnd c.fk 3 (fun x => { x with entries := es })), allDone ls) := by
  simp only [takeEntry, h, he, and_false, if_false, if_true]

/-- cla.vote of a register bound to the Colonnade. -/
def voteBody (v : BitVec 6) (q : BitVec 4) : Body := fun c ls s =>
  if (s.binding c.fl q.toNat).map (·.1) ≠ some 3 then (s, unboundAll s c (everyLane c [one v]) ls q.toNat)
  else popEndpoint c q.toNat 3 .vote v.toNat none ls s

theorem exec_claVote (v : BitVec 6) (q : BitVec 4) (g : BitVec 3) (s : State) :
    exec (.claVote v q g) s = .next (issue s HintUse.none g (voteBody v q)) := rfl

theorem claVote_takes (v : BitVec 6) (q : BitVec 4) (g : BitVec 3) : Effects (.claVote v q g) HintUse.none g [] [one v]
    (fun s c _ => (s.binding c.fl q.toNat).map (·.1) = some 3 ∧ (c.fl.qreg q.toNat).pend = none ∧
      ∃ e es, (c.fl.endpoint 3).entries = e :: es ∧ e ≠ errorEntry)
    (fun s c ls =>
      let e := (c.fl.endpoint 3).entries.headD errorEntry
      ls.foldl (fun t l => t.modThread c.fk l (Thread.takeSlot
        { e with slots := e.slots.map (clampVotes (cfgThr (s.clac c.ld.core).cfg)) } v.toNat l))
        (s.modEnd c.fk 3 (fun x => { x with entries := x.entries.tail }))) := by
  intro s c ls hi hu hls hne ⟨hb, hp, e, es, hes, he⟩
  have hpop : popEndpoint c q.toNat 3 .vote v.toNat none ls s = _ := popBody_takes hi.ctx hu hls hne hp (takeEntry_vote hes he)
  have hbody : voteBody v q c ls s = _ := (if_neg (not_not_intro hb)).trans hpop
  have htail : s.modEnd c.fk 3 (fun x => { x with entries := es }) = s.modEnd c.fk 3 (fun x => { x with entries := x.entries.tail }) :=
    modEnd_congr hi.ctx (by rw [hes, List.tail_cons])
  have hpass := issueP_passes (body := voteBody v q) hi hls hne (by rw [hbody]; exact allDone_done)
  rw [hbody] at hpass
  simp only [hes, List.headD_cons, ← htail]
  exact ⟨_, exec_claVote v q g s, hpass⟩

/-! ## Commands of the lowest lane (R285–R288) -/

/-- An instruction that acts once, from its lowest lane, and lets every lane go on. -/
theorem leads_of_clactl {i : Instr} {g : BitVec 3} {us : List RegUse}
    {f : Ctx → State → Thread → Nat → List Nat → State × List (Nat × Res)}
    {pre : State → Ctx → List Nat → Thread → Prop} {eff : State → Ctx → List Nat → Thread → State}
    (he : ∀ s, exec i s = clactl us g f s)
    (hf : ∀ s c ls th, pre s c ls th → f c s th (ls.headD 0) ls = (eff s c ls th, allDone ls)) : Leads i HintUse.none g us pre eff := by
  intro s c ls th hi hls hne ht hr ha hp
  have hb := hf s c ls th hp
  obtain ⟨t, h1, h2⟩ := clactl_passes (f := f) hi hls hne ht hr ha (by rw [hb]; exact allDone_done)
  rw [hb] at h2
  exact ⟨t, (he s).trans h1, h2⟩

/-- The bytes that an image operation moves (R286, R287). -/
def imageBytes (kind : ClaKind) (s : State) (c : Ctx) : Nat := if kind = .tab then 64 else imageLen (s.clac c.ld.core).cfg

/-- The class of an image operation. -/
def imageClass (kind : ClaKind) : Cls := if kind = .tab then .mx else .cp

/-- R237: a cla.st to the core's own slice writes a range that is recorded. -/
def recordsImage (kind : ClaKind) (h : BitVec 1) (c : Ctx) (addr n : Nat) : Bool := kind == .st && h == 1 && ownRange c addr n

theorem recordsImage_iff {kind : ClaKind} {h : BitVec 1} {c : Ctx} {addr n : Nat} :
    recordsImage kind h c addr n = true ↔ kind = .st ∧ h = 1 ∧ ownRange c addr n = true := by
  simp only [recordsImage, Bool.and_eq_true, beq_iff_eq, and_assoc]

/-- Enter an image operation from lane `l` at the address `p` that its check gave. -/
def enterImage (c : Ctx) (kind : ClaKind) (h : BitVec 1) (l : Nat) (p : Space × Nat) (s : State) : State :=
  let num := (c.fl.counter (imageClass kind)).issued
  let s1 := s.modClac c.ld.core (fun a => { a with
    cmds := a.cmds ++ [{ claCmd a c kind l num with space := p.1, addr := p.2 }]
    cfgd := false })
  (if recordsImage kind h c p.2 (imageBytes kind s c) then addRange c p.2 (imageBytes kind s c) num s1 else s1).joinOp
    c.fk (imageClass kind)

/-- An image operation from the lowest lane of G, whose registers can be used: it stops at its failing check, waits for room, or enters. -/
def imageBody (kind : ClaKind) (a : BitVec 6) (h : BitVec 1) (c : Ctx) (s : State) (t : Thread) (l : Nat) (ls : List Nat) :
    State × List (Nat × Res) :=
  let p := claAddr c s h a t (imageBytes kind s c) (kind == .st)
  match p.1 with
  | some r => (s, laneRes ls l r)
  | none =>
    if 64 ≤ (s.clac c.ld.core).cmds.length then (s, [(l, .hold .engine)])
    else if c.fl.full (imageClass kind) then (s, [(l, .hold .classFull)])
    else if recordsImage kind h c p.2.2 (imageBytes kind s c) && rangesFull s c.ld.core then (s, [(l, .hold .scoreboard)])
    else (enterImage c kind h l p.2 s, allDone ls)

theorem claImage_eq_clactl (kind : ClaKind) (a : BitVec 6) (h : BitVec 1) (g : BitVec 3) (s : State) :
    claImage kind a h g s = clactl [baseUse h a] g (imageBody kind a h) s := rfl

/-- An image operation whose address is good and that finds room everywhere enters. -/
theorem imageBody_enters {kind : ClaKind} {a : BitVec 6} {h : BitVec 1} {c : Ctx} {s : State} {t : Thread} {l : Nat} {ls : List Nat}
    (hp : (claAddr c s h a t (imageBytes kind s c) (kind == .st)).1 = none) (hroom : (s.clac c.ld.core).cmds.length < 64)
    (hf : c.fl.full (imageClass kind) = false) (hr : rangesFull s c.ld.core = false) :
    imageBody kind a h c s t l ls =
      (enterImage c kind h l (claAddr c s h a t (imageBytes kind s c) (kind == .st)).2 s, allDone ls) := by
  simp only [imageBody, hp, Nat.not_le.mpr hroom, if_false, hf, hr, Bool.and_false, Bool.false_eq_true]

/-- The members of CLACTL that enter an image operation, with its kind. -/
noncomputable abbrev imageOps : List ((BitVec 6 → BitVec 1 → BitVec 3 → Instr) × ClaKind) :=
  [((fun a h g => Instr.claLd a h g), .ld), ((fun a h g => Instr.claSt a h g), .st), ((fun a _ g => Instr.claTab a g), .tab)]

/-- cla.tab has no space bit: its address is in hall memory. -/
theorem exec_claImage : ∀ x ∈ imageOps, ∀ a (h : BitVec 1) g, (x.2 = .tab → h = 1) → ∀ s,
    exec (x.1 a h g) s = clactl [baseUse h a] g (imageBody x.2 a h) s := by
  simp only [imageOps, List.forall_mem_cons, List.not_mem_nil, false_imp_iff, implies_true, and_true]
  refine ⟨fun a h g _ s => rfl, fun a h g _ s => rfl, fun a h g hh s => ?_⟩
  obtain rfl : h = 1 := hh trivial
  rfl

/-- R286, R287: the image operation enters. -/
theorem claImage_enters : ∀ x ∈ imageOps, ∀ a (h : BitVec 1) g, (x.2 = .tab → h = 1) →
    Leads (x.1 a h g) HintUse.none g [baseUse h a]
      (fun s c _ th => (claAddr c s h a th (imageBytes x.2 s c) (x.2 == .st)).1 = none ∧ (s.clac c.ld.core).cmds.length < 64 ∧
        c.fl.full (imageClass x.2) = false ∧ rangesFull s c.ld.core = false)
      (fun s c ls th => enterImage c x.2 h (ls.headD 0) (claAddr c s h a th (imageBytes x.2 s c) (x.2 == .st)).2 s) :=
  fun x hx a h g hh => leads_of_clactl (exec_claImage x hx a h g hh)
    (fun _ _ _ _ ⟨hp, hroom, hf, hr⟩ => imageBody_enters hp hroom hf hr)

/-! ## Seed, configuration and status (R275, R288) -/

theorem exec_claSeed (a : BitVec 6) (g : BitVec 3) (s : State) :
    exec (.claSeed a g) s = clactl [one a] g (fun c s t l ls =>
      if 64 ≤ (s.clac c.ld.core).cmds.length then (s, [(l, .hold .engine)])
      else (s.modClac c.ld.core (fun x => { x with seed := t.reg a.toNat, step := 0 }), allDone ls)) s := rfl

theorem claSeed_sets (a : BitVec 6) (g : BitVec 3) : Leads (.claSeed a g) HintUse.none g [one a]
    (fun s c _ _ => (s.clac c.ld.core).cmds.length < 64)
    (fun s c _ th => s.modClac c.ld.core (fun x => { x with seed := th.reg a.toNat, step := 0 })) :=
  leads_of_clactl (exec_claSeed a g) (fun _ _ _ _ hroom => if_neg (Nat.not_le.mpr hroom))

theorem exec_claCfg (a : BitVec 6) (g : BitVec 3) (s : State) :
    exec (.claCfg a g) s = clactl [one a] g (fun c s t l ls =>
      if !cfgOk (t.reg a.toNat) then (s, laneRes ls l (.trap (trap .illegalFormat 0)))
      else if 64 ≤ (s.clac c.ld.core).cmds.length then (s, [(l, .hold .engine)])
      else (s.modClac c.ld.core (fun x => { x with cfg := t.reg a.toNat, failed := false, cfgd := true }), allDone ls)) s := rfl

theorem claCfg_sets (a : BitVec 6) (g : BitVec 3) : Leads (.claCfg a g) HintUse.none g [one a]
    (fun s c _ th => cfgOk (th.reg a.toNat) = true ∧ (s.clac c.ld.core).cmds.length < 64)
    (fun s c _ th => s.modClac c.ld.core (fun x => { x with cfg := th.reg a.toNat, failed := false, cfgd := true })) :=
  leads_of_clactl (exec_claCfg a g) (fun _ _ _ _ ⟨hok, hroom⟩ => by
    simp only [hok, Bool.not_true, Bool.false_eq_true, if_false, Nat.not_le.mpr hroom])

/-- The step and the status of the Colonnade in the pair d. -/
def statOut (d : BitVec 6) (a : Clac) (th : Thread) : Thread := (th.setReg d.toNat a.step).setReg (d.toNat + 1) (claStatus a)

theorem exec_claStat (d : BitVec 6) (g : BitVec 3) (s : State) : exec (.claStat d g) s =
    .next (issueP s HintUse.none g [] (laneBody [pair d] (fun c s _ th => .ok (statOut d (s.clac c.ld.core) th) 0))) := rfl

theorem claStat_reads {d : BitVec 6} {g : BitVec 3} {s : State} {c : Ctx} (hi : Issues s c HintUse.none g []) (hu : Usable s c g [pair d]) :
    ∃ t, exec (.claStat d g) s = .next t ∧ Keeps s t c 0 ∧ Lanes s t c g (fun _ => statOut d (s.clac c.ld.core)) := by
  obtain ⟨hlanes, hkeeps⟩ := laneOp_lanes (f := fun c s _ th => .ok (statOut d (s.clac c.ld.core) th) 0) (w := fun _ _ => 0) hi hu
    (fun _ _ _ _ => rfl)
  rw [flagsOf_eq_zero (fun _ _ _ _ => rfl)] at hkeeps
  exact ⟨_, exec_claStat d g s, hkeeps, hlanes⟩

/-- Settles O44: the two members that take samples are one body over the lanes of G, cla.vote a pop of the Colonnade's endpoint, the
members of CLACTL act from the lowest lane, and cla.stat is a lane-local write. -/
theorem colonnadeAccept : Obligations.ColonnadeAccept := by
  refine ⟨claFeed_enters, claFeed_traps_beyond, fun v q g => claVote_takes v q g, fun x hx a h g hh => ?_, claSeed_sets, claCfg_sets,
    fun d g s c hi hu => claStat_reads hi hu⟩
  have himage := claImage_enters x hx a h g hh
  simp only [enterImage, recordsImage_iff] at himage
  exact himage

end Sys2Proof.Machine

/-!
SUPPORT. The reset state (R294, R411, R430).
-/

namespace Sys2Proof.Machine

/-- Settles O59: the reset state lists nothing, so every byte reads as one that no memory lists. -/
theorem resetState : Obligations.ResetState :=
  ⟨reset_mem_wf, fun _ => ⟨rfl, rfl, fun _ => rfl⟩, rfl, rfl, rfl, rfl, rfl, rfl, rfl⟩

end Sys2Proof.Machine

/-!
SUPPORT. The instructions of hall message queues (14_cluster.md R296–R301): creating a queue, and posting to, taking from, freeing and
reading the one that a queue register is bound to.
-/

namespace Sys2Proof.Machine

/-! ## What a body leaves for the slot -/

section

variable {s : State} {c : Ctx} {h : HintUse} {g : BitVec 3} {ps : List (BitVec 3)} {ls : List Nat}
  (hi : Issues s c h g ps) (hls : guardLanes s c g = ls) (hne : ls ≠ [])
include hi hls hne

/-- An issue depends on what its body does for the lanes of the guard. -/
theorem issueP_congr {body body' : Body} (hb : body c ls s = body' c ls s) : issueP s h g ps body = issueP s h g ps body' := by
  rw [issueP_eq hi hls hne, issueP_eq hi hls hne, hb]

/-- An instruction ends its slot with what its body leaves for the lanes of the guard. -/
theorem concludes_of_body {o : Out} {body : Body} {r : State × List (Nat × Res)} (he : o = .next (issueP s h g ps body))
    (hb : body c ls s = r) : o = .next (conclude c r.1 r.2) := by
  rw [he, issueP_eq hi hls hne, hb]

end

theorem passes_of_concludes {o : Out} {s s1 : State} {c : Ctx} {ls : List Nat} (hc : s.ctx? = some c)
    (he : o = .next (conclude c s1 (allDone ls))) : ∃ t, o = .next t ∧ Passes s1 t c :=
  ⟨_, he, conclude_passes hc allDone_done⟩

/-- One lane that a stall of the group holds, with no lane trapped, holds the whole group (R97). -/
theorem holds_of_concludes {o : Out} {s s1 : State} {c : Ctx} {l : Nat} {st : Stall} (hc : s.ctx? = some c) (hg : st.group = true)
    (he : o = .next (conclude c s1 [(l, .hold st)])) : ∃ t, o = .next t ∧ Holds s1 t c c.lanes st := by
  refine ⟨_, he, conclude_holds hc (by simp only [groupStall, hg, if_true]) (fun k x => ?_)⟩
  simp only [resOf]
  split <;> nofun

/-- The lowest lane of a guard has a thread. -/
theorem lowest_thread {s : State} {c : Ctx} {g : BitVec 3} {ls : List Nat} (hc : s.ctx? = some c) (hls : guardLanes s c g = ls)
    (hne : ls ≠ []) : ∃ th, s.thread? c.fk (ls.headD 0) = some th := by
  subst hls
  obtain ⟨l, ks, hl⟩ := List.exists_cons_of_ne_nil hne
  exact ctx_thread hc ((guardLanes_sub s c g).mem (by rw [hl]; exact List.mem_cons_self))

theorem anyAwaits_lowest {s : State} {fk : Nat} {ls rs : List Nat} {th : Thread} (ht : s.thread? fk (ls.headD 0) = some th)
    (ha : th.awaits rs = false) : anyAwaits s fk rs [ls.headD 0] = false :=
  anyAwaits_false (fun l hl t h => by rw [List.mem_singleton.mp hl, ht] at h; cases h; exact ha)

/-- The registers of a quad that can be used can be used as a pair. -/
theorem usable_pair {s : State} {c : Ctx} {g : BitVec 3} {v : BitVec 6} (hu : Usable s c g [quad v]) : Usable s c g [pair v] := by
  intro l hl th ht
  obtain ⟨hr, ha⟩ := hu l hl th ht
  have hsub : allRegs [quad v] = allRegs [pair v] ++ [v.toNat + 2, v.toNat + 3] := rfl
  obtain ⟨hi, hle⟩ := regTrap_eq_none_iff.mp hr
  rw [hsub] at hle ha
  refine ⟨regTrap_eq_none_iff.mpr ⟨illegalReg_eq_none_iff.mpr (fun u hu => ?_), leaseTrap_left hle⟩,
    awaits_subset (List.subset_append_left _ _) ha⟩
  obtain rfl := List.mem_singleton.mp hu
  obtain ⟨hq, hn⟩ := illegalReg_eq_none_iff.mp hi (quad v) (List.mem_singleton_self _)
  simp only [quad, pair] at hq hn ⊢
  omega

/-! ## Pops that take nothing (R220, R299) -/

/-- A pop with no pending pop, whose register can be used in every lane and which finds too little: a non-blocking form writes 0, a
blocking one records a pending pop. -/
theorem popBody_finds_none {s : State} {c : Ctx} {g : BitVec 3} {q : Nat} {kind : PopKind} {st : Stall} {u : RegUse}
    {nb : Option Nat} {take : Take} {enlist : State → State} {ls : List Nat} (hc : s.ctx? = some c) (hu : Usable s c g [u])
    (hls : guardLanes s c g = ls) (hne : ls ≠ []) (hp : (c.fl.qreg q).pend = none) (ht : take s ls = none) :
    popBody c q kind st u nb take enlist ls s =
      if nb.isSome then (setPreds c.fk nb false ls s, allDone ls)
      else (enlist (recordPop c q kind u.r u.n ls s), [(ls.headD 0, .hold st)]) := by
  have hw : (c.fl.qreg q).waiting = [] := by simp only [QueueReg.waiting, hp]
  have hnew : ls.filter (fun l => !([] : List Nat).contains l) = ls := List.filter_eq_self.mpr (fun _ _ => rfl)
  have ha := anyAwaits_usable hu hls
  rw [allRegs_singleton] at ha
  obtain ⟨l, ks, rfl⟩ := List.exists_cons_of_ne_nil hne
  simp only [popBody, hw, hnew, ha, Bool.false_eq_true, if_false, splitLanes_usable hu hls, party_guard hc hls, List.isEmpty_cons,
    List.isEmpty_nil, Bool.not_true, hp, Option.isSome_none, ht]

theorem nbPred_one (p : BitVec 3) : nbPred p 1 = some p.toNat := rfl

theorem nbPred_zero (p : BitVec 3) : nbPred p 0 = none := rfl

/-! ## hst (R299) -/

theorem exec_hst (v : BitVec 6) (q : BitVec 4) (g : BitVec 3) (s : State) :
    exec (.hst v q g) s = clactl [pair v] g (hstBody v q.toNat) s := rfl

/-- What hst leaves where its base is aligned and its storage lies in one slice: the queue register unbound, the queue deleted, refused
or created. -/
def hstLeft (v : BitVec 6) (q : BitVec 4) (s : State) (c : Ctx) (th : Thread) : State :=
  let cfg := (th.reg (v.toNat + 1)).toNat
  let k := bits cfg 0 4
  let base := hallKey c.ld.core (th.reg v.toNat).toNat
  let s1 := s.unbindQ c.fk q.toNat
  if k = 0 then
    (if oneSlice (s.coresOf c.tr.part) c.ld.core (th.reg v.toNat).toNat 1 then s1.deleteHq base else s1).modQ c.fk q.toNat
      (fun r => { r with status := 0 })
  else if k < 4 ∨ 12 < k ∨ bits cfg 16 16 ≠ 0 ∨ bits cfg 4 4 ≠ 0 ∨ hqClash s1 base (16 * 2 ^ k) = true then
    s1.modQ c.fk q.toNat (fun r => { r with status := 1 })
  else
    ({ s1 with
        hqueues := tput s1.hqueues base
          { made := s1.nextQueue, owner := c.ld.tid, cap := k, batch := if bits cfg 8 8 = 0 then 16 else bits cfg 8 8, pool := 2 ^ k
            unret := 0, head := 0, tail := 0, reqs := [], takers := [] }
        nextQueue := s1.nextQueue + 1 } : State).modQ c.fk q.toNat
      (fun r => { r with bound := some (8, base), made := s1.nextQueue, status := 0, credit := 0 })

/-- An hst whose values pass their checks lets every lane go on. -/
theorem hstBody_passes {v : BitVec 6} {q : BitVec 4} {c : Ctx} {s : State} {th : Thread} {l : Nat} {ls : List Nat}
    (h : bits (th.reg (v.toNat + 1)).toNat 0 4 = 0 ∨ ((th.reg v.toNat).toNat % 16 = 0 ∧ oneSlice (s.coresOf c.tr.part) c.ld.core
      (th.reg v.toNat).toNat (16 * 2 ^ bits (th.reg (v.toNat + 1)).toNat 0 4) = true)) :
    hstBody v q.toNat c s th l ls = (hstLeft v q s c th, allDone ls) := by
  by_cases hk : bits (th.reg (v.toNat + 1)).toNat 0 4 = 0
  · simp only [hstBody, hstLeft, hk, ne_eq, not_true_eq_false, false_and, if_false, if_true]
  · obtain ⟨hal, hsl⟩ := h.resolve_left hk
    simp only [hstBody, hstLeft, hk, hal, hsl, ne_eq, not_true_eq_false, Bool.not_true, Bool.false_eq_true, and_false, if_false]
    split <;> rfl

/-! ## Instructions on a bound hall queue (R299, R301) -/

theorem exec_hpost (v : BitVec 6) (q : BitVec 4) (p : BitVec 3) (n : BitVec 1) (g : BitVec 3) (s : State) :
    exec (.hpost v q p n g) s = execHpost v q p n g s := rfl

theorem exec_hqtake (v : BitVec 6) (q : BitVec 4) (p : BitVec 3) (n : BitVec 1) (g : BitVec 3) (s : State) :
    exec (.hqtake v q p n g) s = execHqtake v q p n g s := rfl

theorem exec_hqstat (v : BitVec 6) (q : BitVec 4) (g : BitVec 3) (s : State) : exec (.hqstat v q g) s = execHqstat v q g s := rfl

theorem exec_hqfree (v : BitVec 6) (q : BitVec 4) (g : BitVec 3) (s : State) : exec (.hqfree v q g) s = execHqfree v q g s := rfl

/-- R297: at most `m` of the entries taken and not returned go back to the pool. -/
def HallQueue.giveBack (m : Nat) (h : HallQueue) : HallQueue :=
  { h with unret := h.unret - min m h.unret, pool := h.pool + min m h.unret }

/-- The post of the lanes `ls` through a binding to the queue `h` at `b`. -/
def hallPost (s : State) (c : Ctx) (v : BitVec 6) (q : BitVec 4) (b : Nat) (h : HallQueue) (ls : List Nat) : HallPost :=
  { who := c.issuer (ls.headD 0), q := q.toNat, base := b, made := h.made, clock := c.fl.cover
    entries := (party s c ls).map (fun x => x.2.regList v.toNat 4), op := c.fl.cSt.issued, lanes := ls, upto := s.mem.nextAcc }

/-- What hpost through a binding to the queue `h` at `b` leaves and answers. -/
def hpostOut (s : State) (c : Ctx) (v : BitVec 6) (q : BitVec 4) (p : BitVec 3) (n : BitVec 1) (b : Nat) (h : HallQueue)
    (ls : List Nat) : State × List (Nat × Res) :=
  let k := (c.fl.qreg q.toNat).credit
  if k < ls.length then
    if n = 1 then (setPreds c.fk (nbPred p n) false ls (askCredit s c.fk q.toNat b (ls.length - k)), allDone ls)
    else (askCredit s c.fk q.toNat b (ls.length - k), [(ls.headD 0, .hold .hallQueue)])
  else if c.fl.full .st then (s, [(ls.headD 0, .hold .classFull)])
  else
    (setPreds c.fk (nbPred p n) true ls
      { ((s.modQ c.fk q.toNat (fun x => { x with credit := x.credit - ls.length })).joinOp c.fk .st) with
        posts := s.posts ++ [hallPost s c v q b h ls] }, allDone ls)

/-- The state in which the lanes `ls` have taken the oldest entries of the queue `h` at `b`. -/
def hallTaken (s : State) (c : Ctx) (v : BitVec 6) (b : Nat) (h : HallQueue) (ls : List Nat) : State :=
  (ls.zipIdx.foldl (fun s x => s.modThread c.fk x.1 (fun t =>
    t.setRegs v.toNat (entryWords s.mem.hall (h.slot b (h.head + x.2))))) s).modHq b
      (fun h => ({ h with head := h.head + ls.length, unret := h.unret + ls.length } : HallQueue).autoFree)

theorem takeHall_eq (s : State) (c : Ctx) (v : BitVec 6) (b : Nat) (h : HallQueue) (ls : List Nat) :
    takeHall c v.toNat b h s ls = if h.held < ls.length then none else some (hallTaken s c v b h ls, allDone ls) := rfl

section

variable {s : State} {c : Ctx} {v : BitVec 6} {q : BitVec 4} {p : BitVec 3} {n : BitVec 1} {g : BitVec 3} {ls : List Nat} {b : Nat}
  {h : HallQueue} (hb : s.binding c.fl q.toNat = some (8, b)) (hh : tget s.hqueues b = some h)
include hb hh

theorem hqOf_bound : hqOf s c q.toNat = some (b, h) := by
  simp only [hqOf, hb, hh, Option.map_some]

/-- R301: hqstat of a bound queue is a lane-local write. -/
theorem hqstat_reads (hi : Issues s c HintUse.none g []) (hu : Usable s c g [quad v]) (hls : guardLanes s c g = ls) (hne : ls ≠ []) :
    ∃ t, exec (.hqstat v q g) s = .next t ∧ Keeps s t c 0 ∧ Lanes s t c g (fun _ th =>
      (th.setReg v.toNat (hqWords h (c.fl.qreg q.toNat).credit).1).setReg (v.toNat + 1) (hqWords h (c.fl.qreg q.toNat).credit).2) := by
  obtain ⟨hlanes, hkeeps⟩ := laneOp_lanes (w := fun _ _ => 0) (f := fun _ _ _ th => .ok
    ((th.setReg v.toNat (hqWords h (c.fl.qreg q.toNat).credit).1).setReg (v.toNat + 1) (hqWords h (c.fl.qreg q.toNat).credit).2) 0)
    hi (usable_pair hu) (fun _ _ _ _ => rfl)
  rw [flagsOf_eq_zero (fun _ _ _ _ => rfl)] at hkeeps
  refine ⟨_, (exec_hqstat v q g s).trans (congrArg Host.Outcome.next (issueP_congr hi hls hne ?_)), hkeeps, hlanes⟩
  simp only [hqOf_bound hb hh]

/-- R297: hqfree by the lowest lane of G gives back what it names of the entries taken. -/
theorem hqfree_frees {th : Thread} (hi : Issues s c HintUse.none g []) (hls : guardLanes s c g = ls) (hne : ls ≠ [])
    (ht : s.thread? c.fk (ls.headD 0) = some th) (hr : regTrap c.ld.regs th [one v] = none)
    (ha : th.awaits (allRegs [one v]) = false) :
    ∃ t, exec (.hqfree v q g) s = .next t ∧ Passes (s.modHq b (HallQueue.giveBack (th.reg v.toNat).toNat)) t c := by
  have hna : anyAwaits s c.fk [v.toNat] [ls.headD 0] = false := anyAwaits_lowest ht ha
  refine passes_of_concludes (ls := ls) hi.ctx (concludes_of_body (r := (_, allDone ls)) hi hls hne (exec_hqfree v q g s) ?_)
  simp only [hqOf_bound hb hh, ht, hna, Bool.false_eq_true, if_false, hr]
  rfl

section

variable (hi : Issues s c HintUse.none g []) (hu : Usable s c g [quad v]) (hls : guardLanes s c g = ls) (hne : ls ≠ [])
include hi hu hls hne

/-! ### hpost (R297, R299, R300) -/

/-- hpost of a bound queue, whose registers can be used, asks for the credit that is missing, waits for room in the ST class, or posts. -/
theorem hpost_concludes : exec (.hpost v q p n g) s =
    .next (conclude c (hpostOut s c v q p n b h ls).1 (hpostOut s c v q p n b h ls).2) := by
  have ha := anyAwaits_usable hu hls
  rw [allRegs_singleton] at ha
  obtain ⟨th, ht⟩ := lowest_thread hi.ctx hls hne
  obtain ⟨ps, hp⟩ := party_cons hne ht
  have hfst := party_guard hi.ctx hls
  refine concludes_of_body hi hls hne (exec_hpost v q p n g s) ?_
  simp only [hpostOut, hallPost]
  rw [hp] at hfst ⊢
  simp only [hqOf_bound hb hh, ha, Bool.false_eq_true, if_false, splitLanes_usable hu hls, hp, hfst, List.append_nil, holdOthers,
    List.nil_append]
  rfl

theorem hpost_posts (hk : ls.length ≤ (c.fl.qreg q.toNat).credit) (hf : c.fl.full .st = false) :
    ∃ t, exec (.hpost v q p n g) s = .next t ∧ Passes (setPreds c.fk (nbPred p n) true ls
      { ((s.modQ c.fk q.toNat (fun x => { x with credit := x.credit - ls.length })).joinOp c.fk .st) with
        posts := s.posts ++ [hallPost s c v q b h ls] }) t c := by
  have he := hpost_concludes (p := p) (n := n) hb hh hi hu hls hne
  rw [hpostOut, if_neg (Nat.not_lt.mpr hk), hf, if_neg Bool.false_ne_true] at he
  exact passes_of_concludes hi.ctx he

theorem hpost_asks (hk : (c.fl.qreg q.toNat).credit < ls.length) :
    ∃ t, exec (.hpost v q p 1 g) s = .next t ∧ Passes (setPreds c.fk (some p.toNat) false ls
      (askCredit s c.fk q.toNat b (ls.length - (c.fl.qreg q.toNat).credit))) t c := by
  have he := hpost_concludes (p := p) (n := 1) hb hh hi hu hls hne
  rw [hpostOut, if_pos hk, if_pos rfl, nbPred_one] at he
  exact passes_of_concludes hi.ctx he

theorem hpost_waits (hk : (c.fl.qreg q.toNat).credit < ls.length) :
    ∃ t, exec (.hpost v q p 0 g) s = .next t ∧
      Holds (askCredit s c.fk q.toNat b (ls.length - (c.fl.qreg q.toNat).credit)) t c c.lanes .hallQueue := by
  have he := hpost_concludes (p := p) (n := 0) hb hh hi hu hls hne
  rw [hpostOut, if_pos hk, if_neg (by decide)] at he
  exact holds_of_concludes hi.ctx rfl he

/-! ### hqtake (R299) -/

omit hu in
/-- hqtake of a bound queue is a pop of it. -/
theorem hqtake_concludes :
    let r := popBody c q.toNat .take .hallQueue (quad v) (nbPred p n) (takeHall c v.toNat b h)
      (fun s => s.modHq b (fun h => { h with takers := h.takers ++ [(c.fk, q.toNat)] })) ls s
    exec (.hqtake v q p n g) s = .next (conclude c r.1 r.2) := by
  refine concludes_of_body hi hls hne (exec_hqtake v q p n g s) ?_
  simp only [hqOf_bound hb hh]

variable (hp : (c.fl.qreg q.toNat).pend = none)
include hp

theorem hqtake_takes (hk : ls.length ≤ h.held) :
    ∃ t, exec (.hqtake v q p n g) s = .next t ∧ Passes (setPreds c.fk (nbPred p n) true ls (hallTaken s c v b h ls)) t c := by
  have he := hqtake_concludes (v := v) (p := p) (n := n) hb hh hi hls hne
  rw [popBody_takes hi.ctx hu hls hne hp ((takeHall_eq s c v b h ls).trans (if_neg (Nat.not_lt.mpr hk)))] at he
  exact passes_of_concludes hi.ctx he

theorem hqtake_finds_few (hk : h.held < ls.length) :
    ∃ t, exec (.hqtake v q p 1 g) s = .next t ∧ Passes (setPreds c.fk (some p.toNat) false ls s) t c := by
  have he := hqtake_concludes (v := v) (p := p) (n := 1) hb hh hi hls hne
  rw [popBody_finds_none hi.ctx hu hls hne hp ((takeHall_eq s c v b h ls).trans (if_pos hk)), nbPred_one] at he
  exact passes_of_concludes hi.ctx he

theorem hqtake_waits (hk : h.held < ls.length) :
    ∃ t, exec (.hqtake v q p 0 g) s = .next t ∧ Holds ((recordPop c q.toNat .take v.toNat 4 ls s).modHq b
      (fun h => { h with takers := h.takers ++ [(c.fk, q.toNat)] })) t c c.lanes .hallQueue := by
  have he := hqtake_concludes (v := v) (p := p) (n := 0) hb hh hi hls hne
  rw [popBody_finds_none hi.ctx hu hls hne hp ((takeHall_eq s c v b h ls).trans (if_pos hk)), nbPred_zero] at he
  exact holds_of_concludes hi.ctx rfl he

end

end

/-- Settles O38: hst by its body, the other members by what each does with the queue that its register is bound to. -/
theorem hallQueueInstructions : Obligations.HallQueueInstructions := by
  refine ⟨fun v q g => leads_of_clactl (exec_hst v q g) (fun _ _ _ _ => hstBody_passes),
    fun v q p n g s c ls b h hi hu hls hne hb hh => ⟨?_, ?_, ?_, fun hp => ⟨?_, ?_, ?_⟩, ?_⟩,
    fun v q g b s c ls th hi hls hne ht hr ha ⟨hb, hs⟩ => ?_⟩
  · exact hpost_posts hb hh hi hu hls hne
  · rintro hk rfl
    exact hpost_asks hb hh hi hu hls hne hk
  · rintro hk rfl
    exact hpost_waits hb hh hi hu hls hne hk
  · exact hqtake_takes hb hh hi hu hls hne hp
  · rintro hk rfl
    exact hqtake_finds_few hb hh hi hu hls hne hp hk
  · rintro hk rfl
    exact hqtake_waits hb hh hi hu hls hne hp hk
  · exact hqstat_reads hb hh hi hu hls hne
  · obtain ⟨h, hh⟩ := Option.isSome_iff_exists.mp hs
    exact hqfree_frees hb hh hi hls hne ht hr ha

end Sys2Proof.Machine

/-!
SUPPORT. Copies at issue (14_cluster.md R304–R308): what an engine's entry leaves of the other flights, what the acceptance of a copy
leaves, and when an instruction of COPY is accepted.
-/

namespace Sys2Proof.Machine

/-! ## What an entry posted to a flight leaves of the others (R220, R308) -/

/-- From `s` to `t` no flight but `fk` changes. -/
def KeepsOtherFlights (fk : Nat) (s t : State) : Prop := ∀ k, k ≠ fk → tget t.flights k = tget s.flights k

section

variable {fk : Nat} {s t u : State}

theorem keepsOtherFlights_of_eq (h : t.flights = s.flights) : KeepsOtherFlights fk s t := fun _ _ => by rw [h]

theorem KeepsOtherFlights.trans (h : KeepsOtherFlights fk s t) (h' : KeepsOtherFlights fk t u) : KeepsOtherFlights fk s u :=
  fun k hk => (h' k hk).trans (h k hk)

theorem modFlight_keepsOthers (s : State) (fk : Nat) (f : Flight → Flight) : KeepsOtherFlights fk s (s.modFlight fk f) :=
  fun _ hk => tget_tmod_ne (Ne.symm hk)

theorem foldl_keepsOthers {α : Type} {f : State → α → State} (hf : ∀ s a, KeepsOtherFlights fk s (f s a)) (as : List α) (s : State) :
    KeepsOtherFlights fk s (as.foldl f s) := by
  induction as generalizing s with
  | nil => exact keepsOtherFlights_of_eq rfl
  | cons a as ih => exact (hf s a).trans (ih (f s a))

/-- Changes of threads leave every flight. -/
theorem foldl_modThread_keepsOthers (fk fk' : Nat) (f : Nat → Thread → Thread) (ls : List Nat) (s : State) :
    KeepsOtherFlights fk s (ls.foldl (fun s l => s.modThread fk' l (f l)) s) :=
  foldl_keepsOthers (f := fun s l => s.modThread fk' l (f l)) (fun _ _ => keepsOtherFlights_of_eq rfl) ls s

theorem dropHint_keepsOthers (s : State) (fk : Nat) : KeepsOtherFlights fk s (s.dropHint fk) := by
  unfold State.dropHint
  split
  · exact keepsOtherFlights_of_eq rfl
  · exact (foldl_modThread_keepsOthers fk fk _ _ s).trans (modFlight_keepsOthers _ fk _)

theorem leaveHints_keepsOthers (s : State) (fk : Nat) (ls : List Nat) : KeepsOtherFlights fk s (s.leaveHints fk ls) := by
  unfold State.leaveHints
  split
  · exact dropHint_keepsOthers s fk
  · exact keepsOtherFlights_of_eq rfl

theorem passPop_keepsOthers (s : State) (fk : Nat) (p : PendingPop) : KeepsOtherFlights fk s (s.passPop fk p) :=
  foldl_modThread_keepsOthers fk fk _ _ s

theorem servePop_keepsOthers (s : State) (fk q : Nat) (p : PendingPop) (f : Nat → Thread → Thread) :
    KeepsOtherFlights fk s (s.servePop fk q p f) :=
  (((leaveHints_keepsOthers s fk p.group).trans (foldl_modThread_keepsOthers fk fk _ _ _)).trans (passPop_keepsOthers _ fk p)).trans
    (modFlight_keepsOthers _ fk _)

theorem takeTrap_keepsOthers (c : Ctx) (fnpc : DWord) (m : Nat) (s : State) (l : Nat) (x : Trap) :
    KeepsOtherFlights c.fk s (takeTrap c fnpc m s l x) := by
  unfold takeTrap
  split
  · exact keepsOtherFlights_of_eq rfl
  · split
    · exact (keepsOtherFlights_of_eq rfl).trans (modFlight_keepsOthers _ c.fk _)
    · split <;> exact keepsOtherFlights_of_eq rfl

theorem ctxAt_fk {l : Nat} {start : DWord} {c : Ctx} (h : s.ctxAt fk l start = some c) : c.fk = fk := by
  unfold State.ctxAt at h
  split at h
  · split at h
    · cases h; rfl
    · cases h
  · cases h

theorem trapHeld_keepsOthers (s : State) (fk : Nat) (ls : List Nat) (start npc : DWord) (x : Trap) :
    KeepsOtherFlights fk s (s.trapHeld fk ls start npc x) := by
  refine (leaveHints_keepsOthers s fk ls).trans (foldl_keepsOthers (fun s l => ?_) ls _)
  split
  · exact keepsOtherFlights_of_eq rfl
  · next c hc =>
    obtain rfl := ctxAt_fk hc
    exact (keepsOtherFlights_of_eq rfl).trans (takeTrap_keepsOthers c npc _ _ l x)

theorem deliver_keepsOthers (s : State) (fk q : Nat) (p : PendingPop) (e : Entry) : KeepsOtherFlights fk s (s.deliver fk q p e) := by
  unfold State.deliver
  dsimp only
  split
  · split
    · exact ((((leaveHints_keepsOthers s fk p.group).trans (foldl_modThread_keepsOthers fk fk _ _ _)).trans
        (passPop_keepsOthers _ fk p)).trans (modFlight_keepsOthers _ fk _)).trans (trapHeld_keepsOthers _ fk _ _ _ _)
    · exact servePop_keepsOthers s fk q p _
  · exact servePop_keepsOthers s fk q p _

theorem serveEnd_keepsOthers (fk cls n : Nat) (s : State) : KeepsOtherFlights fk s (s.serveEnd fk cls n) := by
  induction n generalizing s with
  | zero => exact keepsOtherFlights_of_eq rfl
  | succ n ih =>
    unfold State.serveEnd
    split
    · exact keepsOtherFlights_of_eq rfl
    · dsimp only
      split
      · split
        · exact (modFlight_keepsOthers s fk _).trans (ih _)
        · exact ((modFlight_keepsOthers s fk _).trans (deliver_keepsOthers _ fk _ _ _)).trans (ih _)
      · exact keepsOtherFlights_of_eq rfl

theorem postEntry_keepsOthers (s : State) (fk cls spell : Nat) (held : Bool) (e : Entry) :
    KeepsOtherFlights fk s (s.postEntry fk cls spell held e) := by
  unfold State.postEntry
  split
  · split
    · exact keepsOtherFlights_of_eq rfl
    · exact (modFlight_keepsOthers s fk _).trans (serveEnd_keepsOthers fk cls 17 _)
  · exact keepsOtherFlights_of_eq rfl

theorem completeOp_keepsOthers (s : State) (fk : Nat) (k : Cls) (n : Nat) : KeepsOtherFlights fk s (s.completeOp fk k n) := by
  unfold State.completeOp
  dsimp only
  split
  · split <;> exact modFlight_keepsOthers s fk _
  · exact modFlight_keepsOthers s fk _

theorem completeEng_keepsOthers (s : State) (fk : Nat) (k : Cls) (n : Nat) (clock : List Nat) :
    KeepsOtherFlights fk s (s.completeEng fk k n clock) :=
  (modFlight_keepsOthers s fk _).trans (completeOp_keepsOthers _ fk k n)

end

/-! ## Entries and completions on a flight that stands on its core (R213, R308) -/

theorem tmod_tmod {α : Type} (t : Tab α) (k : Nat) (f g : α → α) : tmod (tmod t k f) k g = tmod t k (fun x => g (f x)) := by
  cases h : tget t k with
  | none => simp [tmod, h]
  | some v => simp [tmod, h, tput_tput]

theorem modFlight_modFlight (s : State) (fk : Nat) (f g : Flight → Flight) :
    (s.modFlight fk f).modFlight fk g = s.modFlight fk (fun x => g (f x)) := by
  simp only [State.modFlight, tmod_tmod]

theorem endpoint_modEnd (f : Flight) (cls k : Nat) (u : Endpoint → Endpoint) :
    (f.modEnd cls u).endpoint k = if cls = k then u (f.endpoint k) else f.endpoint k := by
  unfold Flight.endpoint Flight.modEnd
  rw [tgetD_tmodD]
  split
  · next h => rw [h]
  · rfl

/-- The endpoint with one entry more. -/
def Endpoint.hold (e : Entry) (x : Endpoint) : Endpoint := { x with entries := x.entries ++ [e] }

/-- The endpoint that an operation names for its completion entry, if any, changed. -/
def Flight.modEntry (entry : Option Nat) (u : Endpoint → Endpoint) (f : Flight) : Flight :=
  match entry with
  | some cls => f.modEnd cls u
  | none => f

theorem modEntry_eq (entry : Option Nat) (u : Endpoint → Endpoint) (f : Flight) :
    f.modEntry entry u = { f with ends := (f.modEntry entry u).ends } := by
  cases entry <;> rfl

theorem endpoint_modEntry (entry : Option Nat) (u : Endpoint → Endpoint) (f : Flight) (k : Nat) :
    (f.modEntry entry u).endpoint k = if entry = some k then u (f.endpoint k) else f.endpoint k := by
  cases entry with
  | none => rfl
  | some cls => simp only [Flight.modEntry, endpoint_modEnd, Option.some.injEq]

section

variable {s : State} {fk : Nat} {ld : Landing} (hl : tget s.landings (landingOf fk) = some ld)
  (hs : ∀ tr, tget s.treads ld.tid = some tr → tr.spilledOut ld = false)

include hs in
theorem not_any_spilledOut : (tget s.treads ld.tid).any (·.spilledOut ld) = false := by
  cases h : tget s.treads ld.tid with
  | none => rfl
  | some tr => exact hs tr h

include hl hs

theorem completeOp_resident (k : Cls) (n : Nat) :
    s.completeOp fk k n = s.modFlight fk (fun f => f.modCounter k (·.complete n)) := by
  simp only [State.completeOp, State.modFlight_landings, State.modFlight_treads, hl]
  split
  · next _ _ _ hld =>
    cases hld
    exact if_neg (Bool.not_eq_true _ ▸ not_any_spilledOut hs)
  · rfl

/-- An entry posted to an endpoint at which no pop waits stays there. -/
theorem postEntry_unwaited {f : Flight} {cls : Nat} (hf : tget s.flights fk = some f) (hw : (f.endpoint cls).waiters = [])
    (e : Entry) : s.postEntry fk cls ld.spell false e = s.modEnd fk cls (Endpoint.hold e) := by
  have hget : tget (s.modEnd fk cls (Endpoint.hold e)).flights fk = some (f.modEnd cls (Endpoint.hold e)) := by
    simp only [State.modEnd, State.modFlight_flights, tget_tmod_self, hf, Option.map_some]
  have hw' : ((f.modEnd cls (Endpoint.hold e)).endpoint cls).waiters = [] := by
    simp only [endpoint_modEnd, if_true, Endpoint.hold, hw]
  have hserve : (s.modEnd fk cls (Endpoint.hold e)).serveEnd fk cls 17 = s.modEnd fk cls (Endpoint.hold e) := by
    simp only [State.serveEnd, hget, hw']
  refine Eq.trans ?_ hserve
  simp only [State.postEntry, hf, hl, bne_self_eq_false, not_any_spilledOut hs, Bool.or_self, Bool.false_eq_true, if_false]
  rfl

end

/-! ## What the acceptance of a copy leaves (R237, R305–R307) -/

/-- The completion entry of a copy (R308). -/
def CopyOp.completion (op : CopyOp) : Entry := { slots := [0, 0, BitVec.ofNat 32 op.op, 0, 0, 0, 0, 0], valid := 7 }

/-- The flight with a copy under way: it has joined the CP class and has room reserved for its entry. -/
def Flight.startCopy (op : CopyOp) (f : Flight) : Flight :=
  ({ f with cCp := f.cCp.join } : Flight).modEntry op.entry (fun x => { x with reserved := x.reserved + 1 })

/-- The flight whose copy has joined the CP class and is done at once. -/
def Flight.passCopy (op : CopyOp) (f : Flight) : Flight :=
  { f with cCp := f.cCp.join.complete op.op, opStamps := f.opStamps ++ [(.cp, op.op, [0, 0, 0, 0])] }

/-- The flight after a copy of length 0: its number is done, its entry, if any, posted. -/
def Flight.endCopy (op : CopyOp) (f : Flight) : Flight := (f.passCopy op).modEntry op.entry (Endpoint.hold op.completion)

/-- R237: the ranges with that of a copy to its core's own slice. -/
def recordCopy (c : Ctx) (op : CopyOp) (own : Bool) (dst : Nat × Nat) (t : Tab (List RangeRec)) : Tab (List RangeRec) :=
  if own then tmodD [] t c.ld.core (fun l =>
    l ++ [{ fk := c.fk, op := op.op, lo := hallKey c.ld.core dst.1, hi := hallKey c.ld.core dst.1 + dst.2 }])
  else t

theorem tgetD_recordCopy (c : Ctx) (op : CopyOp) (own : Bool) (dst : Nat × Nat) (t : Tab (List RangeRec)) :
    tgetD [] (recordCopy c op own dst t) c.ld.core = tgetD [] t c.ld.core ++
      if own then [{ fk := c.fk, op := op.op, lo := hallKey c.ld.core dst.1, hi := hallKey c.ld.core dst.1 + dst.2 }] else [] := by
  cases own with
  | true => simp only [recordCopy, if_true, tgetD_tmodD]
  | false => exact (List.append_nil _).symm

theorem tgetD_recordCopy_ne {c : Ctx} {op : CopyOp} {own : Bool} {dst : Nat × Nat} {t : Tab (List RangeRec)} {k : Nat}
    (h : k ≠ c.ld.core) : tgetD [] (recordCopy c op own dst t) k = tgetD [] t k := by
  cases own with
  | true => simp only [recordCopy, if_true, tgetD_tmodD, if_neg (Ne.symm h)]
  | false => rfl

section

variable {c : Ctx} {op : CopyOp} {own : Bool} {dst : Nat × Nat} {s : State}

theorem acceptCopy_moves (h : op.len ≠ 0) : acceptCopy c op own dst s = { s with
    flights := tmod s.flights c.fk (Flight.startCopy op)
    copies := tmodD [] s.copies c.ld.core (fun l => l ++ [op])
    mem := { s.mem with ranges := recordCopy c op own dst s.mem.ranges } } := by
  have hflight : (match op.entry with
      | some cls => (s.joinOp c.fk .cp).modEnd c.fk cls (fun e => { e with reserved := e.reserved + 1 })
      | none => s.joinOp c.fk .cp) = s.modFlight c.fk (Flight.startCopy op) := by
    unfold Flight.startCopy
    cases op.entry with
    | none => rfl
    | some cls => exact modFlight_modFlight s c.fk _ _
  refine (if_neg h).trans ?_
  cases own with
  | true => exact congrArg (fun t : State => addRange c dst.1 dst.2 op.op
      { t with copies := tmodD [] t.copies c.ld.core (fun l => l ++ [op]) }) hflight
  | false => exact congrArg (fun t : State => { t with copies := tmodD [] t.copies c.ld.core (fun l => l ++ [op]) }) hflight

/-- An operation of length 0 ends the copy at once, on a flight that stands on its core and whose endpoint no pop waits at. -/
theorem acceptCopy_empty {f : Flight} (h : op.len = 0) (hf : tget s.flights c.fk = some f)
    (hl : tget s.landings (landingOf c.fk) = some c.ld) (hs : ∀ tr, tget s.treads c.ld.tid = some tr → tr.spilledOut c.ld = false)
    (hw : ∀ k, op.entry = some k → (f.endpoint k).waiters = []) :
    acceptCopy c op own dst s = { s with flights := tmod s.flights c.fk (Flight.endCopy op) } := by
  have hdone : (s.joinOp c.fk .cp).completeEng c.fk .cp op.op [0, 0, 0, 0] = s.modFlight c.fk (Flight.passCopy op) := by
    rw [State.completeEng, completeOp_resident (s := (s.joinOp c.fk .cp).modFlight c.fk _) hl hs, State.joinOp, modFlight_modFlight,
      modFlight_modFlight]
    rfl
  refine (if_pos h).trans ?_
  rw [hdone]
  unfold Flight.endCopy
  cases he : op.entry with
  | none => rfl
  | some cls =>
    have hf' : tget (s.modFlight c.fk (Flight.passCopy op)).flights c.fk = some (f.passCopy op) := by
      simp only [State.modFlight_flights, tget_tmod_self, hf, Option.map_some]
    exact (postEntry_unwaited (s := s.modFlight c.fk _) hl hs hf' (hw cls he) op.completion).trans (modFlight_modFlight s c.fk _ _)

theorem acceptCopy_keepsOthers : KeepsOtherFlights c.fk s (acceptCopy c op own dst s) := by
  by_cases h : op.len = 0
  · have hdone := (modFlight_keepsOthers s c.fk (·.modCounter .cp Counter.join)).trans
      (completeEng_keepsOthers _ c.fk .cp op.op [0, 0, 0, 0])
    unfold acceptCopy
    rw [if_pos h]
    dsimp only
    split
    · exact hdone.trans (postEntry_keepsOthers _ c.fk _ _ _ _)
    · exact hdone
  · rw [acceptCopy_moves h]
    exact modFlight_keepsOthers s c.fk _

theorem startCopy_eq (op : CopyOp) (f : Flight) :
    f.startCopy op = { f with cCp := { f.cCp with issued := f.cCp.issued + 1 }, ends := (f.startCopy op).ends } :=
  modEntry_eq op.entry _ _

theorem endCopy_eq (op : CopyOp) (f : Flight) :
    f.endCopy op = { f with
      cCp := ({ f.cCp with issued := f.cCp.issued + 1 } : Counter).complete op.op
      opStamps := f.opStamps ++ [(.cp, op.op, [0, 0, 0, 0])]
      ends := (f.endCopy op).ends } :=
  modEntry_eq op.entry _ _

end

theorem copyAccepted_holds : copyAccepted := by
  intro c op own dst s f hf hl hs
  refine ⟨acceptCopy_keepsOthers, fun h => ?_, fun h hw => ?_⟩
  · rw [acceptCopy_moves h]
    refine ⟨rfl, ?_, fun k hk => ?_, tgetD_recordCopy c op own dst _, fun k hk => tgetD_recordCopy_ne hk,
      f.startCopy op, ?_, startCopy_eq op f, endpoint_modEntry op.entry _ _⟩
    · simp only [tgetD_tmodD, if_true]
    · simp only [tgetD_tmodD, if_neg (Ne.symm hk)]
    · simp only [tget_tmod_self, hf, Option.map_some]
  · rw [acceptCopy_empty h hf hl hs hw]
    refine ⟨rfl, f.endCopy op, ?_, endCopy_eq op f, endpoint_modEntry op.entry _ _⟩
    simp only [tget_tmod_self, hf, Option.map_some]

/-! ## The copy instructions (R304–R307) -/

/-- The registers that a copy's lowest lane names; `.r` checks its destination apart (R307). -/
def copyUses (toRegs : Bool) (dreg : Option (BitVec 6)) (a : BitVec 6) : List RegUse :=
  quad a :: if toRegs then [] else dreg.toList.map one

/-- The descriptor in the quad a, with the word of the register d where the copy names one. -/
def copyDescOf (th : Thread) (dreg : Option (BitVec 6)) (a : BitVec 6) : CopyDesc :=
  { ga := th.pair a.toNat, h := th.reg (a.toNat + 2), ctl := (th.reg (a.toNat + 3)).toNat
    hd := dreg.elim 0 (fun r => th.reg r.toNat) }

/-- R307: the registers of a `.r` gather leased to its operation in the lanes `ls`. -/
def leaseGather (c : Ctx) (base : Nat) (d : CopyDesc) (ls : List Nat) (s : State) : State :=
  ls.foldl (fun s l => s.modThread c.fk l (fun t => { t with
    leases := t.leases ++ (List.range (gatherRegs d)).map (fun i => { reg := base + i, by_ := .op .cp c.fl.cCp.issued }) })) s

section

variable {s : State} {c : Ctx} {kind : CopyKind} {toRegs : Bool} {e : BitVec 1} {q : BitVec 4} {d : CopyDesc}
  (h : copyGoes s c kind toRegs e q d)
include h

theorem copyGoes_bound : ¬ (e = 1 ∧ (s.binding c.fl q.toNat).map (·.1) ≠ some (if kind.elems then 5 else 4)) :=
  fun ⟨he, hn⟩ => hn (h.1 he).1

theorem copyGoes_space : ¬ (e = 1 ∧ (c.fl.endpoint (if kind.elems then 5 else 4)).space = 0) :=
  fun ⟨he, hn⟩ => (h.1 he).2 hn

end

/-- What accepting the copy of descriptor `d` leaves of the state. -/
def copyEntered (c : Ctx) (kind : CopyKind) (toRegs : Bool) (e : BitVec 1) (d : CopyDesc) (ls : List Nat) (dest : Option Nat)
    (s : State) : State :=
  let dst := copyDest kind toRegs d
  acceptCopy c (copyOp c kind e d ls dest) (ownRange c dst.1 dst.2) dst s

section

variable {kind : CopyKind} {dreg : Option (BitVec 6)} {a : BitVec 6} {e : BitVec 1} {q : BitVec 4} {g : BitVec 3} {s : State} {c : Ctx}
  {ls : List Nat} {th : Thread} (hi : Issues s c HintUse.memory g []) (hls : guardLanes s c g = ls) (hne : ls ≠ [])
  (ht : s.thread? c.fk (ls.headD 0) = some th)
include hi hls hne ht

/-- A copy between memories that is checked and finds room is accepted. -/
theorem copy_accepts (hr : regTrap c.ld.regs th (copyUses false dreg a) = none) (ha : th.awaits (allRegs (copyUses false dreg a)) = false)
    (hg : copyGoes s c kind false e q (copyDescOf th dreg a)) : ∃ t, copy kind false dreg a e q g s = .next t ∧
      Passes (copyEntered c kind false e (copyDescOf th dreg a) ls none s) t c := by
  have hbound := copyGoes_bound hg
  have hspace := copyGoes_space hg
  obtain ⟨-, hchk, hfull, hroom, hranges⟩ := hg
  have hna := anyAwaits_lowest ht ha
  refine passes_of_concludes hi.ctx (concludes_of_body (r := (copyEntered c kind false e (copyDescOf th dreg a) ls none s, allDone ls))
    hi hls hne rfl ?_)
  cases dreg
  all_goals
    simp only [copyUses, copyDescOf, Option.toList, List.map, Option.elim, Bool.false_eq_true, if_false] at hr hna hchk
    simp only [ht, hna, hr, hbound, hchk, hfull, Nat.not_le.mpr hroom, hranges, hspace, Bool.false_eq_true, if_false,
      List.isEmpty_nil, Bool.not_true, Bool.false_and, Bool.and_false]
    rfl

/-- R307: a `.r` gather whose destination is free in every lane of G is accepted, its registers leased. -/
theorem gather_accepts {d : BitVec 6} (hr : regTrap c.ld.regs th (copyUses true (some d) a) = none)
    (ha : th.awaits (allRegs (copyUses true (some d) a)) = false)
    (hg : copyGoes s c .gather true e q (copyDescOf th (some d) a))
    (hfree : ∀ l ∈ ls, ∀ t, s.thread? c.fk l = some t → gatherTrap c.ld.regs d.toNat (copyDescOf th (some d) a) t = none ∧
      t.awaits ((List.range (gatherRegs (copyDescOf th (some d) a))).map (fun i => d.toNat + i)) = false) :
    ∃ t, copy .gather true (some d) a e q g s = .next t ∧
      Passes (copyEntered c .gather true e (copyDescOf th (some d) a) ls (some d.toNat)
        (if (copyDescOf th (some d) a).count = 0 then s else leaseGather c d.toNat (copyDescOf th (some d) a) ls s)) t c := by
  have hbound := copyGoes_bound hg
  have hspace := copyGoes_space hg
  obtain ⟨-, hchk, hfull, hroom, hranges⟩ := hg
  have hna := anyAwaits_lowest ht ha
  have hsplit := splitLanes_all (fun l hl t h => (hfree l hl t h).1)
  have hfa := anyAwaits_false (fun l hl t h => (hfree l hl t h).2)
  rw [← ite_not]
  refine passes_of_concludes hi.ctx (concludes_of_body (r := (copyEntered c .gather true e (copyDescOf th (some d) a) ls (some d.toNat)
    _, allDone ls)) hi hls hne rfl ?_)
  simp only [copyUses, copyDescOf, Option.elim, if_true] at hr hna hchk hsplit hfa
  simp only [ht, hna, hr, Option.getD_some, hsplit, hfa, hbound, hchk, hfull, Nat.not_le.mpr hroom, hranges, hspace,
    Bool.false_eq_true, if_true, if_false, List.isEmpty_nil, Bool.not_true, Bool.and_false, Bool.true_and, bne_iff_ne]
  rfl

end

/-- The copies that name no register d. -/
theorem exec_copy : ∀ x ∈ copyOps, ∀ a e q g s, exec (x.1 a e q g) s = copy x.2 false none a e q g s := by
  simp only [copyOps, List.forall_mem_cons, List.not_mem_nil, false_imp_iff, implies_true, and_true]
  and_intros
  all_goals intros; rfl

theorem exec_copyElems : ∀ x ∈ [(Instr.cpGather, CopyKind.gather), (Instr.cpScatter, CopyKind.scatter)], ∀ d a e q g s,
    exec (x.1 d a e q g) s = copy x.2 false (some d) a e q g s := by
  simp only [List.forall_mem_cons, List.not_mem_nil, false_imp_iff, implies_true, and_true]
  and_intros
  all_goals intros; rfl

theorem exec_cpGatherR (d a : BitVec 6) (e : BitVec 1) (q : BitVec 4) (g : BitVec 3) (s : State) :
    exec (.cpGatherR d a e q g) s = copy .gather true (some d) a e q g s := rfl

theorem copyMembers_holds : copyMembers := by
  refine ⟨fun x hx a e q g s c ls th hi hls hne ht hr ha hg => ?_, fun x hx d a e q g s c ls th hi hls hne ht hr ha hg => ?_,
    fun d a e q g s c ls th hi hls hne ht hr ha ⟨hg, hfree⟩ => ?_⟩
  · rw [exec_copy x hx]
    exact copy_accepts (dreg := none) hi hls hne ht hr ha hg
  · rw [exec_copyElems x hx]
    exact copy_accepts (dreg := some d) hi hls hne ht hr ha hg
  · rw [exec_cpGatherR]
    exact gather_accepts hi hls hne ht hr ha hg hfree

/-- Settles O43: the members by the one body that they share; acceptance by what an operation with and without bytes leaves. -/
theorem copyAccept : Obligations.CopyAccept := ⟨copyAccepted_holds, copyMembers_holds⟩

end Sys2Proof.Machine

/-!
SUPPORT. NEST (15_nests.md R339–R343): one action of the flight from the thread of the lowest lane of G, and n.info lane by lane.
-/

namespace Sys2Proof.Machine

/-! ## What the members of NEST share (R342) -/

section

variable {s : State} {c : Ctx} {ls : List Nat} {low every : List RegUse}

/-- Where every lane passes its register checks none traps. -/
theorem nestTraps_ready (hr : nestReady s c ls low every) :
    nestTraps s c ls low every = [] := by
  obtain ⟨hevery, hlow⟩ := hr
  refine List.filterMap_eq_nil_iff.mpr (fun l hl => ?_)
  cases h : s.thread? c.fk l with
  | none => rfl
  | some t =>
    have hnone : regTrap c.ld.regs t (if l = ls.headD 0 then every ++ low else every) = none := by
      split
      · next hhead => subst hhead; exact (hlow t h).1
      · exact (hevery l hl t h).1
    rw [Option.bind_some, hnone, Option.map_none]

/-- A member of NEST whose registers can be used concludes with what it does from the thread of the lowest lane. -/
theorem nestOp_concludes {g : BitVec 3} {th : Thread} {f : Ctx → State → Nat → Thread → List Nat → State × List (Nat × Res)}
    (hi : Issues s c HintUse.none g []) (hls : guardLanes s c g = ls) (hne : ls ≠ []) (ht : s.thread? c.fk (ls.headD 0) = some th)
    (hr : nestReady s c ls low every) :
    nestOp low every g f s = .next (conclude c (f c s (ls.headD 0) th ls).1 (f c s (ls.headD 0) th ls).2) := by
  have hevery : anyAwaits s c.fk (allRegs every) ls = false := anyAwaits_false (fun l hl t h => (hr.1 l hl t h).2)
  have hlow : anyAwaits s c.fk (allRegs low) [ls.headD 0] = false := anyAwaits_lowest ht (hr.2 th ht).2
  refine concludes_of_body hi hls hne rfl ?_
  simp only [hevery, hlow, Bool.or_self, Bool.false_eq_true, if_false, nestTraps_ready hr, ht]

/-- A member of NEST acts as its action does where that lets every lane go on. -/
theorem nestActs_of_nestOp {i : Instr} {g : BitVec 3} {f : Ctx → State → Nat → Thread → List Nat → State × List (Nat × Res)}
    {pre : State → Ctx → List Nat → Thread → Prop} {eff : State → Ctx → List Nat → Thread → State}
    (he : ∀ s, exec i s = nestOp low every g f s)
    (hf : ∀ s c ls th, pre s c ls th → f c s (ls.headD 0) th ls = (eff s c ls th, allDone ls)) : nestActs i g low every pre eff := by
  intro s c ls th hi hls hne ht hr hp
  have hc := (he s).trans (nestOp_concludes hi hls hne ht hr)
  rw [hf s c ls th hp] at hc
  exact passes_of_concludes hi.ctx hc

end

/-! ## n.info (R342) -/

theorem exec_nInfo {d a b : BitVec 6} (hb : b.toNat ≤ 4) (g : BitVec 3) (s : State) :
    exec (.nInfo d a b g) s = .next (laneOp s HintUse.none g [one d, one a] (fun c s _ t =>
      .ok (t.setReg d.toNat (infoValue s c t (t.reg a.toNat).toNat b.toNat)) 0)) := if_pos hb

theorem exec_nInfo_unknown {b : BitVec 6} (hb : ¬ b.toNat ≤ 4) (d a : BitVec 6) (g : BitVec 3) {s : State} {c : Ctx}
    (hc : s.ctx? = some c) : exec (.nInfo d a b g) s = .next (trapAll c s (trap .illegal 0)) := by
  refine (if_neg hb).trans ?_
  rw [hc]

/-! ## The members -/

theorem exec_nbMax (p : BitVec 3) (a b : BitVec 6) (g : BitVec 3) (s : State) : exec (.nbMax p a b g) s = execNbMax p a b g s := rfl

theorem exec_nbMaxP (a b : BitVec 6) (g : BitVec 3) (s : State) : exec (.nbMaxP a b g) s = execNbMaxP a b g s := rfl

theorem exec_nGrow (d a b : BitVec 6) (g : BitVec 3) (s : State) : exec (.nGrow d a b g) s = execNGrow d a b g s := rfl

theorem exec_nLaunch (p : BitVec 3) (a b : BitVec 6) (g : BitVec 3) (s : State) :
    exec (.nLaunch p a b g) s = execNLaunch p a b g s := rfl

theorem exec_nSignal (a : BitVec 6) (g : BitVec 3) (s : State) : exec (.nSignal a g) s = execNSignal a g s := rfl

/-- Settles O45: the members but n.info are one action each, by cases on the target of a raise, the status of a launch, the place of the
progress word; n.info is a lane-local write, or a trap of the whole group. -/
theorem nestInstructions : Obligations.NestInstructions := by
  refine ⟨fun p a b g => nestActs_of_nestOp (exec_nbMax p a b g) (fun s c ls th hp => ?_),
    fun a b g => nestActs_of_nestOp (exec_nbMaxP a b g) (fun s c ls th _ => ?_),
    fun d a b g => nestActs_of_nestOp (exec_nGrow d a b g) (fun s c ls th hp => ?_),
    fun p a b g => nestActs_of_nestOp (exec_nLaunch p a b g) (fun s c ls th hp => ?_),
    fun a g => nestActs_of_nestOp (exec_nSignal a g) (fun s c ls th hp => ?_),
    fun d a b g s c hb hi hu => ?_, fun d a b g s c hd hb hc hh hm => ?_⟩
  · -- nb.max
    cases hr : raiseTarget s c (th.reg a.toNat).toNat with
    | some code => simp only [hr]
    | none =>
      have hfull := hp.resolve_left (not_not_intro hr)
      simp only [hr, hfull, Bool.false_eq_true, if_false]
      rfl
  · -- nb.max.p
    cases hr : raiseTarget s c (th.reg a.toNat).toNat with
    | some code => simp only [hr]
    | none => simp only [hr]
  · -- n.grow
    cases hr : raiseTarget s c (th.reg b.toNat).toNat with
    | some code => simp only [hr]
    | none =>
      have hfull := hp.resolve_left (not_not_intro hr)
      simp only [hr, hfull, Bool.false_eq_true, if_false]
      rfl
  · -- n.launch
    obtain ⟨halign, hcanon, hlease, hperf, hcov, hhome⟩ := hp
    simp only [halign, hcanon, Option.isNone_eq_false_iff.mpr hlease, hperf, hcov, ne_eq, not_true_eq_false,
      Bool.not_true, Bool.or_self, Bool.false_eq_true, if_false]
    by_cases hst : launchStatus s (c.ld.core / 48) (launchDepth s c + 1) = 0
    · simp only [hst, if_true]
    · have hmay : s.homesCover c.tr.part (va57 (th.pair b.toNat)) 128 (s.mem.clockOf (c.ld.core / 48)) = true :=
        hhome.resolve_left hst
      simp only [hst, launchOf, hmay, if_false, Bool.not_true, Bool.false_eq_true]
  · -- n.signal
    obtain ⟨hfull, hperf⟩ := hp
    simp only [hfull, hperf, Bool.not_true, Bool.false_eq_true, if_false]
    cases (s.virtWalk c.tr.part (va57 (c.tr.record + 0x38))).placeOf c.tr.part (va57 (c.tr.record + 0x38)) with
    | none => rfl
    | some x => rfl
  · -- n.info
    obtain ⟨hlanes, hkeeps⟩ := laneOp_lanes (w := fun _ _ => 0) (f := fun c s _ t =>
      .ok (t.setReg d.toNat (infoValue s c t (t.reg a.toNat).toNat b.toNat)) 0) hi hu (fun _ _ _ _ => rfl)
    rw [flagsOf_eq_zero (fun _ _ _ _ => rfl)] at hkeeps
    exact ⟨_, exec_nInfo hb g s, hkeeps, hlanes⟩
  · -- n.info of an unknown selector
    exact ⟨_, exec_nInfo_unknown hb d a g hc, conclude_enters hc (List.Sublist.refl _) hh hm⟩

end Sys2Proof.Machine

/-!
SUPPORT. The events of the Stairwells (15_nests.md R326–R342, 16_phases.md R348–R355, 19_ordering.md R382): what each leaves of a state
in which it is due.
-/

namespace Sys2Proof.Machine

/-! ## Dies and their dispatch queues -/

theorem die_modDie (s : State) (d e : Nat) (u : Die → Die) : (s.modDie d u).die e = if d = e then u (s.die d) else s.die e :=
  tgetD_tmodD Die.fresh s.dies d e u

/-- What a die becomes depends on what it is alone. -/
theorem modDie_congr {s : State} {d : Nat} {u v : Die → Die} (h : u (s.die d) = v (s.die d)) : s.modDie d u = s.modDie d v := by
  unfold State.modDie tmodD
  exact congrArg (fun a => { s with dies := tputD Die.fresh s.dies d a }) h

theorem mem_insertByAge (s : State) (tid : Nat) (q : List Nat) : tid ∈ s.insertByAge tid q := by
  induction q with
  | nil => exact List.mem_singleton_self tid
  | cons x xs ih =>
    rw [State.insertByAge]
    split
    · exact List.mem_cons_self
    · exact List.mem_cons_of_mem x ih

theorem mem_queue_enqueue (s : State) (d tid : Nat) : tid ∈ ((s.enqueue d tid).die d).queue := by
  rw [State.enqueue, die_modDie, if_pos rfl]
  exact mem_insertByAge s tid _

/-! ## What a die learns, asks and is told (R329, R330, R339) -/

theorem exec_b0Update (die r j : Nat) (s : State) : exec (.b0Update die r j) s = .next (s.b0Update die r j) := rfl

theorem exec_watermarkUpdate (die r j : Nat) (s : State) : exec (.watermarkUpdate die r j) s = .next (s.watermarkUpdate die r j) := rfl

theorem exec_remoteLookup (die r j : Nat) (q : List Int) (s : State) :
    exec (.remoteLookup die r j q) s = .next (s.remoteLookup die r j q) := rfl

theorem exec_lookupAnswer (i : Nat) (s : State) : exec (.lookupAnswer i) s = .next (s.lookupAnswer i) := rfl

section

variable {s : State} {die r j : Nat} {run : Run} {n : Nest} (hn : s.nest? r j = some (run, n))
include hn

theorem b0Update_learns (hd : die < 4) : s.b0Update die r j = s.modView die r j (fun v => { v with b0 := n.b0 }) := by
  simp only [State.b0Update, hn, hd, if_true]

theorem watermarkUpdate_learns (hd : die < 4) :
    s.watermarkUpdate die r j = (s.modView die r j (fun v => { v with w := n.w })).freeSlots die r j := by
  simp only [State.watermarkUpdate, hn, hd, if_true]

theorem remoteLookup_asks {q : List Int} (hq : s.mayAsk die r j run n q = true) : s.remoteLookup die r j q =
    { s with lookups := s.lookups ++ [{ die := die, run := r, nest := j, point := q, stage := .asked }] } := by
  simp only [State.remoteLookup, hn, hq, if_true]

end

theorem lookupAnswer_yes {s : State} {i : Nat} {l : Lookup} {run : Run} {n : Nest} (hl : s.lookups[i]? = some l)
    (hn : s.nest? l.run l.nest = some (run, n))
    (hr : s.retiredAt (n.desc.owner run.die (n.desc.keyOf l.point)) l.run l.nest run n l.point = true) :
    s.lookupAnswer i = ({ s with lookups := s.lookups.eraseIdx i } : State).modView l.die l.run l.nest
      (fun v => { v with yes := v.yes ++ [l.point] }) := by
  simp only [State.lookupAnswer, hl, hn, hr, if_true]

/-! ## Rows and points (R327, R328, R331) -/

theorem exec_rowOpen (die : Nat) (s : State) : exec (.rowOpen die) s = .next (s.rowOpen die) := rfl

theorem exec_treadRelease (die : Nat) (s : State) : exec (.treadRelease die) s = .next (s.treadRelease die) := rfl

theorem rowOpen_first {s : State} {die r j : Nat} {k : List Int} {rest : List (Nat × Nat × List Int)} {run : Run} {n : Nest}
    (hd : die < 4) (hroom : (s.die die).rows.length < 1024) (ho : s.openable die = (r, j, k) :: rest) (hn : s.nest? r j = some (run, n)) :
    let b := n.desc.inner (s.view die r j run n).b0 k
    s.rowOpen die = (s.modDie die (fun y => { y with
      rows := y.rows ++ [{ run := r, nest := j, key := k, lo := b.1, hi := b.2, pre := 0, done := 0, out := 0, count := 0,
                           opened := true }] })).modView die r j (fun v => { v with last := some k }) := by
  have hgo : ¬ (1024 ≤ (s.die die).rows.length ∨ 4 ≤ die) := by omega
  simp only [State.rowOpen, hgo, if_false, ho, hn]

/-- What releasing the point `c` leaves, before its tread enters the queue. -/
def State.pointOut (s : State) (die : Nat) (c : Candidate) (run : Run) (n : Nest) : State :=
  (({ s with nextKey := s.nextKey + 1, treads := tput s.treads s.nextKey (freshTread c run n die (s.die die).releases) } : State).modDie die
    (fun x => { x.modSlot c.run c.nest c.key (fun r => r.release n c.off) with
      releases := x.releases + 1
      lastPart := c.part
      steal := if x.steal.backoff.isSome then Steal.idle else x.steal })).modNest c.run c.nest
        (fun n => { n with released := n.released + 1 })

/-- R331: the point released next becomes a fresh tread, which enters the queue of its die. -/
theorem treadRelease_next {s : State} {die : Nat} {c : Candidate} {run : Run} {n : Nest} (hroom : (s.die die).queue.length < 1024)
    (hc : s.nextRelease die = some c) (hn : s.nest? c.run c.nest = some (run, n)) :
    s.treadRelease die = (s.pointOut die c run n).enqueue die s.nextKey := by
  simp only [State.treadRelease, Nat.not_le.mpr hroom, if_false, hc, hn]
  rfl

theorem releaseEvents_holds : releaseEvents := by
  refine ⟨fun s r j run n die hn hd => ⟨?_, ?_, fun q hq => ?_⟩, fun s i l run n hl hn hr => ?_,
    fun s die r j k rest run n hd hroom ho hn => ?_, fun s die c run n hroom hc hn => ?_⟩
  · rw [exec_b0Update, b0Update_learns hn hd]
  · rw [exec_watermarkUpdate, watermarkUpdate_learns hn hd]
  · rw [exec_remoteLookup, remoteLookup_asks hn hq]
  · rw [exec_lookupAnswer, lookupAnswer_yes hl hn hr]
  · intro b
    rw [exec_rowOpen, rowOpen_first hd hroom ho hn]
  · refine ⟨(s.pointOut die c run n).enqueue die s.nextKey, ?_, rfl, tget_tput_self s.treads _ _, mem_queue_enqueue _ die _⟩
    rw [exec_treadRelease, treadRelease_next hroom hc hn]

/-! ## Dispatch (R332, R351, R352) -/

theorem exec_dispatch (die : Nat) (s : State) : exec (.dispatch die) s = .next (s.dispatch die) := rfl

/-- R352: what resumes at once waits in the queue of its die and is neither ended nor cancelled. -/
theorem mem_movers {s : State} {die tid : Nat} : tid ∈ s.movers die ↔ tid ∈ (s.die die).queue ∧
    ∃ t, tget s.treads tid = some t ∧ t.atOnce = true ∧ t.ending = none ∧ t.cancelled = false := by
  simp only [State.movers, List.mem_filter, Option.any_eq_true, Bool.and_eq_true, Option.isNone_iff_eq_none, Bool.not_eq_true',
    and_assoc]

theorem dispatch_unmoved {s : State} {die : Nat} (h : s.movers die = []) : s.dispatch die = s.dispatchFrom die (s.die die).queue := by
  simp only [State.dispatch, h, State.dispatchMoved, Bool.false_eq_true, if_false]

section

variable {s s1 : State} {die tid : Nat} {rest : List Nat} {t : Tread} {n : Nest}

theorem moverWaits_eq : s.moverWaits die tid t n =
    if s.mem.covers die t.needs ∧ n.desc.cls ≠ 2 then s.modTread tid (fun t => { t with atOnce := false }) else s := by
  simp only [State.moverWaits, Bool.and_eq_true, bne_iff_ne]

/-- R332, R381: a fresh tread whose die has seen what its start acquires starts on the place found for it. -/
theorem dispatchEntry_fresh {ps : List Placement} (hq : t.stage = .queued) (hv : s.mem.covers die t.needs = true) (hcls : n.desc.cls ≠ 2)
    (hp : s.findPlace die (s.die die).lastCore t.part t.span n.desc.header.regs n.desc.header.flights
      (n.desc.header.hall + n.desc.header.recordLen) = some ps) :
    s.dispatchEntry die tid t n = some ((((s.dequeue die tid).modNest t.run t.nest (fun n => n.takePlaces t.point)).startTread n.desc tid
      ps [0, 0, 0, 0]).placedOn die (ps.map (·.core))) := by
  simp only [State.dispatchEntry, hq, if_true, State.dispatchFresh, hv, Bool.not_true, Bool.false_eq_true, if_false, hcls, hp,
    Option.map_some]

variable (ht : tget s.treads tid = some t) (hn : s.nestOf t = some n)
include ht hn

/-- R352: the first of the moved treads resumes where a core fits it. -/
theorem dispatch_moves (hm : s.movers die = tid :: rest) (hr : s.dispatchResumed die tid t n = some s1) : s.dispatch die = s1 := by
  simp only [State.dispatch, hm, State.dispatchMoved, ht, hn, hr, if_true]

/-- R352: a moved tread that no core fits waits, and the queue is served. -/
theorem dispatch_mover_waits (hm : s.movers die = [tid]) (hr : s.dispatchResumed die tid t n = none) :
    let s1 := s.moverWaits die tid t n
    s.dispatch die = s1.dispatchFrom die (s1.die die).queue := by
  simp only [State.dispatch, hm, State.dispatchMoved, ht, hn, hr, Bool.false_eq_true, if_false]

/-- R332: the oldest entry of a queue is placed where it fits. -/
theorem dispatchFrom_oldest (he : t.ending = none) (hc : t.cancelled = false) (hd : s.dispatchEntry die tid t n = some s1) :
    s.dispatchFrom die (tid :: rest) = s1 := by
  simp only [State.dispatchFrom, ht, hn, he, hc, Option.isSome_none, Bool.or_self, Bool.false_eq_true, if_false, hd]

end

/-! ## Stealing and admission (R322, R326, R333) -/

theorem exec_stealRequest (die : Nat) (s : State) : exec (.stealRequest die) s = .next (s.stealRequest die) := rfl

theorem exec_stealAnswer (die : Nat) (s : State) : exec (.stealAnswer die) s = .next (s.stealAnswer die) := rfl

theorem exec_stealBackoff (die : Nat) (s : State) : exec (.stealBackoff die) s = .next (s.stealBackoff die) := rfl

theorem exec_admission (die : Nat) (s : State) : exec (.admission die) s = .next (s.admission die) := rfl

section

variable {s : State} {die : Nat}

/-- R333: a die whose queue is empty and that has heard no answer yet asks the next die. -/
theorem stealRequest_asks (hd : die < 4) (hq : (s.die die).queue = []) (hs : (s.die die).steal = Steal.idle) :
    s.stealRequest die = s.modDie die (fun y => { y with steal := { y.steal with asked := some (ringNext die) } }) := by
  simp only [State.stealRequest, hs, hq, hd, Steal.idle, List.isEmpty_nil, Option.isNone_none, decide_true, Bool.and_self, if_true]
  exact modDie_congr (by simp only [hs, Steal.idle, victimAfter])

theorem stealRequest_reaches {v : Nat} (ha : (s.die die).steal.asked = some v) (hn : (s.die die).steal.answer = none) :
    s.stealRequest die = s.handOver die v := by
  simp only [State.stealRequest, ha, hn, Option.isNone_none, if_true]

/-- R333: after the third empty answer the die waits. -/
theorem stealAnswer_empty (h : (s.die die).steal.answer = some []) : s.stealAnswer die = s.modDie die (fun y => { y with
    steal := { empties := (y.steal.empties + 1) % 3, asked := none, answer := none,
               backoff := if y.steal.empties + 1 = 3 then some (tgetD 0 s.cycles die) else none } }) := by
  simp only [State.stealAnswer, h]

theorem stealAnswer_takes {t : Nat} {ts : List Nat} (h : (s.die die).steal.answer = some (t :: ts)) : s.stealAnswer die =
    (t :: ts).foldl (fun s k => s.takeStolen die k) (s.modDie die (fun y => { y with steal := Steal.idle })) := by
  simp only [State.stealAnswer, h]

theorem stealBackoff_ends {c : Nat} (h : (s.die die).steal.backoff = some c) (hc : c + 256 ≤ tgetD 0 s.cycles die) :
    s.stealBackoff die = s.modDie die (fun y => { y with steal := Steal.idle }) := by
  simp only [State.stealBackoff, h, hc, if_true]

variable {l : Launch}

theorem beginAdmission_unaligned (h : l.header.toNat % 256 ≠ 0) :
    s.beginAdmission die l = s.failLaunch die l Admit.imageFault.code 0xFFFFFFFF := if_pos h

variable (hl : (s.die die).nextLaunch = some l)
include hl

theorem admission_begins (hg : l.gen = none) : s.admission die = s.beginAdmission die l := by
  simp only [State.admission, hl, hg]

theorem admission_ends {g : Word} (hg : l.gen = some g) : s.admission die = s.endAdmission die l g := by
  simp only [State.admission, hl, hg]

end

theorem dispatchEvents_holds : dispatchEvents := by
  refine ⟨fun s die tid rest t n ps hm hq ht hn he hc hst hv hcls hp => ?_, fun s die tid rest t n hm ht hn => ⟨fun s1 hr => ?_,
    fun hr hrest => ?_⟩, fun s die tid => mem_movers, fun s die tid rest t n s1 hm hq ht hn he hc hd => ?_, fun s die hd hq hs => ?_,
    fun s die v ha hn => ?_, fun s die h => ?_, fun s die t ts h => ?_, fun s die c h hc => ?_,
    fun s die l hl => ⟨fun hg => ?_, fun g hg => ?_, fun hg hu => ?_⟩⟩
  · rw [exec_dispatch, dispatch_unmoved hm, hq, dispatchFrom_oldest ht hn he hc (dispatchEntry_fresh hst hv hcls hp)]
  · rw [exec_dispatch, dispatch_moves ht hn hm hr]
  · subst hrest
    rw [exec_dispatch, dispatch_mover_waits ht hn hm hr, moverWaits_eq]
  · rw [exec_dispatch, dispatch_unmoved hm, hq, dispatchFrom_oldest ht hn he hc hd]
  · rw [exec_stealRequest, stealRequest_asks hd hq hs]
  · rw [exec_stealRequest, stealRequest_reaches ha hn, State.handOver]
  · rw [exec_stealAnswer, stealAnswer_empty h]
  · rw [exec_stealAnswer, stealAnswer_takes h]
  · rw [exec_stealBackoff, stealBackoff_ends h hc]
  · rw [exec_admission, admission_begins hl hg]
  · rw [exec_admission, admission_ends hl hg]
  · rw [exec_admission, admission_begins hl hg, beginAdmission_unaligned hu]

/-! ## Leaving the cores (R348, R350, R352, R353) -/

theorem exec_graceExpiry (tid : Nat) (s : State) : exec (.graceExpiry tid) s = .next (s.graceExpiry tid) := rfl

theorem exec_phaseSpill (tid : Nat) (s : State) : exec (.phaseSpill tid) s = .next (s.phaseSpill tid) := rfl

theorem exec_forcedSave (tid : Nat) (s : State) : exec (.forcedSave tid) s = .next (s.forcedSave tid) := rfl

/-- R352: outside a concurrent nest a tread is pre-empted alone. -/
theorem preemptGroup_alone {s : State} {t : Tread} (h : s.concurrent t = false) (tid : Nat) : s.preemptGroup tid t = [(tid, t)] := by
  rw [State.preemptGroup, h, if_neg Bool.false_ne_true]

section

variable {s : State} {tid : Nat} {t : Tread} (ht : tget s.treads tid = some t)
include ht

/-- R353: the save begins for all that are pre-empted together, where one of them stands at no boundary. -/
theorem graceExpiry_saves (hst : t.stage = .running) (ho : (s.overdue t).isSome = true) (hf : s.finished t = false)
    (hb : ∃ p ∈ s.preemptGroup tid t, s.atBoundary p.2 = false) :
    s.graceExpiry tid = (s.preemptGroup tid t).foldl (fun s p => s.modTread p.1 (fun t => { t with stage := .saving })) s := by
  have hall : (s.preemptGroup tid t).all (fun p => s.atBoundary p.2) = false := List.all_eq_false.mpr (by simpa using hb)
  simp only [State.graceExpiry, ht, hst, ho, hf, hall, Bool.not_false, and_self, if_true]

/-- R353: what stands at a boundary, all of it, is left to spill. -/
theorem graceExpiry_atBoundary (hb : ∀ p ∈ s.preemptGroup tid t, s.atBoundary p.2 = true) : s.graceExpiry tid = s := by
  have hall : (s.preemptGroup tid t).all (fun p => s.atBoundary p.2) = true := List.all_eq_true.mpr hb
  simp only [State.graceExpiry, ht, hall, Bool.not_true, Bool.false_eq_true, and_false, if_false]

theorem phaseSpill_unasked (hs : s.spillReady t = true) (hr : s.boundaryRequest t = none) :
    s.phaseSpill tid = s.spillTread tid t none := by
  simp only [State.phaseSpill, ht, hs, hr, if_true]

/-- R352: at a request all that are pre-empted together spill, once each of them may. -/
theorem phaseSpill_asked {r : Preempt} (hs : s.spillReady t = true) (hr : s.boundaryRequest t = some r)
    (hg : ∀ p ∈ s.preemptGroup tid t, s.spillReady p.2 = true ∧ (s.boundaryRequest p.2).isSome = true) :
    s.phaseSpill tid = (s.preemptGroup tid t).foldl (fun s p => s.spillTread p.1 p.2 (some r)) s := by
  have hall : (s.preemptGroup tid t).all (fun p => s.spillReady p.2 && (s.boundaryRequest p.2).isSome) = true := by
    simpa only [List.all_eq_true, Bool.and_eq_true] using hg
  simp only [State.phaseSpill, ht, hs, hr, hall, if_true]

theorem forcedSave_not_saving (hst : t.stage ≠ .saving) : s.forcedSave tid = s := by
  simp only [State.forcedSave, ht, hst, ne_eq, not_false_eq_true, true_or, if_true]

section

variable (hst : t.stage = .saving) (he : t.ending = none) (hc : t.cancelled = false) (ha : s.concurrent t = false)
  (hp : s.stopped_ t = true)
include hst he hc ha hp

/-- R354: what is open is cancelled first. -/
theorem forcedSave_cancels (hd : (s.cancelOpen t).saveDrained t = false) : s.forcedSave tid = s.cancelOpen t := by
  simp only [State.forcedSave, ht, hst, he, hc, preemptGroup_alone ha, hp, hd, ne_eq, not_true_eq_false, Option.isSome_none,
    Bool.false_eq_true, List.any_cons, List.any_nil, Bool.not_true, Bool.not_false, Bool.or_false, or_self, if_false, if_true,
    List.foldl_cons, List.foldl_nil]

/-- R354, R355: what has drained is saved into the areas allocated. -/
theorem forcedSave_saves {r : Preempt} {p : Partition} {offs : List Nat} (hd : (s.cancelOpen t).saveDrained t = true)
    (ho : (s.cancelOpen t).overdue t = some r) (hpart : tget (s.cancelOpen t).parts t.part = some p)
    (hsave : allocSaves p.saveRoom ((s.cancelOpen t).saveLens t.landings) ((s.cancelOpen t).savesOf t.part p.saveStart) = some offs) :
    s.forcedSave tid = (s.cancelOpen t).saveTread (t.landings.zip (offs.map (p.saveStart + ·))) r tid t := by
  simp only [State.forcedSave, ht, hst, he, hc, preemptGroup_alone ha, hp, hd, ne_eq, not_true_eq_false, Option.isSome_none,
    Bool.false_eq_true, List.any_cons, List.any_nil, Bool.not_true, Bool.or_false, or_self, if_false, List.foldl_cons,
    List.foldl_nil, List.flatMap_cons, List.flatMap_nil, List.append_nil, ho, hpart, hsave]

end

end

section

variable {s : State} {tid : Nat} {t : Tread} {stage : TreadStage} {r : Preempt}

/-- R352: a move request has the tread resume at once on another core. -/
theorem leaveCores_moved (h : r.move = true) : s.leaveCores tid t stage (some r) = (s.modTread tid (fun x => { x with
    stage := stage, avoid := (s.headLanding t).map (·.core), atOnce := true })).enqueue t.die tid := if_pos h

/-- R352: another request parks it. -/
theorem leaveCores_parked (h : r.move = false) :
    s.leaveCores tid t stage (some r) = s.modTread tid (fun x => { x with stage := .parked }) := if_neg (Bool.not_eq_true _ ▸ h)

end

theorem leaveEvents_holds : leaveEvents := by
  refine fun s tid t ht => ⟨fun hst ho hf ha => ⟨fun hb => ?_, fun hb => ?_⟩, fun hst ho hf _ hb => ?_, fun hs hr => ?_,
    fun r hs hr ha => ?_, fun r hs hr _ hg => ?_, fun hst => ?_,
    fun hst he hc ha hp => ⟨fun hd => ?_, fun r p offs hd ho hpart hsave => ?_⟩,
    fun stage r => ⟨leaveCores_moved, leaveCores_parked, rfl⟩⟩
  · have hg := preemptGroup_alone ha tid
    have hone : ∃ p ∈ s.preemptGroup tid t, s.atBoundary p.2 = false := ⟨(tid, t), hg ▸ List.mem_singleton_self _, hb⟩
    rw [exec_graceExpiry, graceExpiry_saves ht hst ho hf hone, hg, List.foldl_cons, List.foldl_nil]
  · have hall : ∀ p ∈ s.preemptGroup tid t, s.atBoundary p.2 = true :=
      preemptGroup_alone ha tid ▸ List.forall_mem_singleton.mpr hb
    rw [exec_graceExpiry, graceExpiry_atBoundary ht hall]
  · rw [exec_graceExpiry, graceExpiry_saves ht hst ho hf hb]
  · rw [exec_phaseSpill, phaseSpill_unasked ht hs hr, State.spillTread]
  · have hg := preemptGroup_alone ha tid
    have hall : ∀ p ∈ s.preemptGroup tid t, s.spillReady p.2 = true ∧ (s.boundaryRequest p.2).isSome = true :=
      hg ▸ List.forall_mem_singleton.mpr ⟨hs, by rw [hr, Option.isSome_some]⟩
    rw [exec_phaseSpill, phaseSpill_asked ht hs hr hall, hg, List.foldl_cons, List.foldl_nil, State.spillTread]
  · rw [exec_phaseSpill, phaseSpill_asked ht hs hr hg]
  · rw [exec_forcedSave, forcedSave_not_saving ht hst]
  · rw [exec_forcedSave, forcedSave_cancels ht hst he hc ha hp hd]
  · rw [exec_forcedSave, forcedSave_saves ht hst he hc ha hp hd ho hpart hsave]

/-! ## Retirement (R334, R336) -/

theorem exec_treadRetire (tid : Nat) (s : State) : exec (.treadRetire tid) s = .next (s.treadRetire tid) := rfl

theorem exec_retirementReport (i : Nat) (s : State) : exec (.retirementReport i) s = .next (s.retirementReport i) := rfl

section

variable {s : State} {tid : Nat} {t : Tread} (ht : tget s.treads tid = some t) (hr : t.stage ≠ .retired) (hq : t.stage ≠ .queued)
include ht hr hq

/-- R334: a finished tread that has drained retires. -/
theorem treadRetire_retires (hf : s.finished t = true) (hd : ∀ p ∈ s.treadFlights t, s.drained t p.1 p.2 = true) :
    s.treadRetire tid = s.retire tid t := by
  have hall : (s.treadFlights t).all (fun p => s.drained t p.1 p.2) = true := List.all_eq_true.mpr hd
  simp only [State.treadRetire, ht, hr, hq, hf, hall, Bool.not_true, Bool.false_eq_true, if_false, if_true]

/-- R239: one that goes on, or has yet to drain, frees what it may. -/
theorem treadRetire_frees (h : s.finished t = false ∨ ∃ p ∈ s.treadFlights t, s.drained t p.1 p.2 = false) :
    s.treadRetire tid = t.landings.foldl State.freeOwn s := by
  simp only [State.treadRetire, ht, hr, hq, if_false]
  rcases h with hf | hd
  · simp only [hf, Bool.not_false, if_true]
  · have hall : (s.treadFlights t).all (fun p => s.drained t p.1 p.2) = false := List.all_eq_false.mpr (by simpa using hd)
    simp only [hall, Bool.false_eq_true, if_false, ite_self]

end

section

variable {s : State} {i : Nat} {p : Report} (hi : s.reports[i]? = some p)
include hi

section

variable {run : Run} {n : Nest} (hs : p.sequel = none) (hr : tget s.runs p.run = some run) (hn : run.nests[p.nest]? = some n)
include hs hr hn

/-- R333–R335: the home die counts the point, frees rows and seals. -/
theorem retirementReport_home (hh : p.home = true) (hready : s.reportReady i run n p = true) : s.retirementReport i =
    (((({ s with reports := s.reports.eraseIdx i } : State).modNest p.run p.nest (fun n => n.take p)).freeSlots run.die p.run
      p.nest).settle p.run).dropRun p.run := by
  simp only [State.retirementReport, hi, hs, hr, hn, hh, hready, Bool.not_true, Bool.false_eq_true, if_false, if_true]

/-- R334: the owner die marks the point in its row. -/
theorem retirementReport_owner (hh : p.home = false) : s.retirementReport i =
    (({ s with reports := s.reports.eraseIdx i } : State).modDie p.die (fun d => d.modSlot p.run p.nest (n.desc.keyOf p.point)
      (fun x => x.retire (p.point.getD (n.desc.depth - 1) 0 - x.lo).toNat))).dropRun p.run := by
  simp only [State.retirementReport, hi, hs, hr, hn, hh, Bool.not_false, if_true]

end

theorem retirementReport_sequel {x : Sequel} (hs : p.sequel = some x) : s.retirementReport i = s.takeSequel i p x := by
  simp only [State.retirementReport, hi, hs]

end

/-- R336, R370: a copy of a done word may be written once record and done word are performed and its home has seen them. -/
theorem sequelReady_copy (s : State) (p : Report) (part a status : Nat) :
    s.sequelReady p (.copy part a status) = (s.mem.covers p.die p.clock && s.homesCover part a 8 (s.mem.clockOf p.die)) := rfl

theorem takeSequel_copy {s : State} {p : Report} {part a status : Nat} (i : Nat)
    (h : s.sequelReady p (.copy part a status) = true) : s.takeSequel i p (.copy part a status) =
      ({ s with reports := s.reports.eraseIdx i } : State).writeVirt (some (s.mem.clockOf p.die)) part a (doneWord status) := if_pos h

theorem takeSequel_waits {s : State} {p : Report} {x : Sequel} (i : Nat) (h : s.sequelReady p x = false) : s.takeSequel i p x = s :=
  if_neg (Bool.not_eq_true _ ▸ h)

/-- R336: a seal writes the record, has the copy of the done word follow it, and ends what the Stairwells hold of the nest. -/
theorem sealOne_eq {s : State} {r j : Nat} {run : Run} {n : Nest} (hn : s.nest? r j = some (run, n)) :
    let s1 := s.nestRecord run j n
    let ck := s1.virtClock run.part (run.recordOf j) 8
    s.sealOne r j = ((s1.signalCopy run n ck).modNest r j (fun n => { n with
      sealed := true, live := true, leases := [], reserved := [], doneClock := ck })).forgetNest r j := by
  simp only [State.sealOne, hn]

/-! ## Raises (R340, R342, R361, R382) -/

theorem exec_raiseApply (i : Nat) (s : State) : exec (.raiseApply i) s = .next (s.raiseApply i) := rfl

/-- R361: a raise of a nest that has not sealed, or whose done word may be written again, may apply. -/
theorem lateReady_of_sealed {s : State} {run : Run} {j : Nat} {n : Nest}
    (h : n.sealed = true → s.homesCover run.part (run.recordOf j) 8 (s.mem.clockOf run.die) = true) : s.lateReady run j n = true := by
  cases hn : n.sealed with
  | false => simp only [State.lateReady, hn, Bool.not_false, Bool.true_or]
  | true => simp only [State.lateReady, State.mayDone, hn, h hn, Bool.or_true]

section

variable {s : State} {i : Nat} {q : Raise} {run : Run} {n : Nest} (hi : s.raises[i]? = some q)
  (hn : s.nest? q.run q.target = some (run, n))
include hi hn

theorem raiseApply_drains {op : Nat} {c : List Nat} (ho : q.op = some op) (hc : q.clock = none) (hd : s.raiseDrains q = some c) :
    s.raiseApply i = { s with raises := s.raises.set i { q with clock := some c } } := by
  simp only [State.raiseApply, hi, hn, ho, hc, hd]

variable (hl : s.lateReady run q.target n = true)
include hl

theorem raiseApply_tracked {op : Nat} {c : List Nat} (ho : q.op = some op) (hc : q.clock = some c)
    (hv : s.mem.covers run.die c = true) : s.raiseApply i = s.applyRaise i q run.die n := by
  simp only [State.raiseApply, hi, hn, ho, hc, hv, hl, Bool.and_self, if_true]

theorem raiseApply_posted (ho : q.op = none) (hb : s.behindReport q = true) : s.raiseApply i = s.applyRaise i q run.die n := by
  simp only [State.raiseApply, hi, hn, ho, hb, hl, Bool.and_self, if_true]

end

/-- R339: a maximum raises the bound of a nest that has not sealed where it is larger. -/
theorem raiseOutcome_max {n : Nest} (h : n.sealed = false) (x : Nat) :
    raiseOutcome n (.max x) = if n.b0 < x then (some x, 0) else (none, 1) := by
  simp only [raiseOutcome, h, Bool.false_eq_true, if_false]

theorem retireEvents_holds : retireEvents := by
  refine ⟨fun s tid t ht => ⟨fun hst hf hd => ?_, fun h => ?_⟩, fun s i p run n hi hs hh hr hn hready => ?_,
    fun s i p run n hi hs hh hr hn => ?_, fun s r j run n hn => ?_, fun s i p part a status hi hs => ⟨fun hv hm => ?_, fun h => ?_⟩,
    fun s i q run n c op hi hn ho => ⟨fun hc hd => ?_, fun hc hv hl => ?_⟩, fun s i q run n hi hn ho hb hl => ?_,
    fun n x h => raiseOutcome_max h x⟩
  · intro fs homeDie own s1 s2
    have hne : t.stage ≠ .retired ∧ t.stage ≠ .queued := by
      rcases hst with h | h | h | h | h <;> rw [h] <;> decide
    rw [exec_treadRetire, treadRetire_retires ht hne.1 hne.2 hf hd]
    rfl
  · rw [exec_treadRetire]
    rcases h with ⟨hst, hf⟩ | ⟨hr, hq, hd⟩
    · rw [treadRetire_frees ht (by rw [hst]; decide) (by rw [hst]; decide) (.inl hf)]
      rfl
    · rw [treadRetire_frees ht hr hq (.inr hd)]
      rfl
  · rw [exec_retirementReport, retirementReport_home hi hs hr hn hh hready]
  · rw [exec_retirementReport, retirementReport_owner hi hs hr hn hh]
  · exact sealOne_eq hn
  · have hready : s.sequelReady p (.copy part a status) = true := by rw [sequelReady_copy, hv, hm, Bool.and_self]
    rw [exec_retirementReport, retirementReport_sequel hi hs, takeSequel_copy i hready, doneWord]
  · have hready : s.sequelReady p (.copy part a status) = false := by rw [sequelReady_copy, Bool.and_eq_false_iff]; exact h
    rw [exec_retirementReport, retirementReport_sequel hi hs, takeSequel_waits i hready]
  · rw [exec_raiseApply, raiseApply_drains hi hn ho hc hd]
  · rw [exec_raiseApply, raiseApply_tracked hi hn (lateReady_of_sealed hl) ho hc hv]
  · rw [exec_raiseApply, raiseApply_posted hi hn (lateReady_of_sealed hl) ho hb]

/-- Settles O52: each event on a state in which it is due is the branch of its meaning that its lemma names. -/
theorem stairwellEvents : Obligations.StairwellEvents :=
  ⟨releaseEvents_holds, dispatchEvents_holds, leaveEvents_holds, retireEvents_holds⟩

end Sys2Proof.Machine
